-- ==== Sys2Proof/Word.lean ====
section
/-! DEFINITION. The byte and the sparse tables the state is made of. -/

namespace Sys2Proof

/-- One byte of any of the hub's memories or of a message on one of its wires. -/
abbrev Byte := BitVec 8

/-- A run of bytes, lowest address first. -/
abbrev Bytes := List Byte

/-- A sparse table: entries by number. What an unlisted number holds is the default that each reader names. -/
abbrev Tbl (α : Type) := List (Nat × α)

namespace Tbl

variable {α : Type}

/-- The entry of number `k`, or `d` where the table lists none. -/
def get : Tbl α → Nat → α → α
  | [], _, d => d
  | (j, v) :: r, k, d => if j = k then v else get r k d

/-- The table with `v` under number `k`; numbers stay in rising order. -/
def put : Tbl α → Nat → α → Tbl α
  | [], k, v => [(k, v)]
  | (j, w) :: r, k, v =>
    if j = k then (k, v) :: r
    else if k < j then (k, v) :: (j, w) :: r
    else (j, w) :: put r k v

/-- The entry of number `k` where the table lists one. -/
def find? : Tbl α → Nat → Option α
  | [], _ => none
  | (j, v) :: r, k => if j = k then some v else find? r k

/-- The table without number `k`. -/
def drop (t : Tbl α) (k : Nat) : Tbl α := t.filter fun e => e.1 != k

end Tbl

end Sys2Proof
end

