-- ==== Sys2Proof/Syntax.lean ====
section
/-! DEFINITION. The commands the block takes, one constructor per row of spec/opcode_table.json, with the operands
each row carries. The table gives no bits to any row. -/

namespace Sys2Proof

/-- The five array events of class 0x12, 0x14, 0x15, 0x16 that take a physical array out of service (R539).
A bin error that the stripe parity cannot rebuild is its own kind (R541). -/
inductive ArrayFaultKind where
  | residue | binEcc | binEccLost | weightParity | bolter
  deriving DecidableEq, Repr

/-- What an error check found in 64 bytes that were read (R204, R226-R230): nothing; a correction at a symbol position by the hub's code;
a stack severity of "corrected", with nothing left for the hub's code; or an error beyond correction. -/
inductive EccResult where
  | clean
  | corrected (symbol : Nat)
  | severity
  | uncorrectable
  deriving DecidableEq, Repr

/-- The debug paths of Table 19-4 (R570). -/
inductive DebugPath where
  | bscan | test | observe | mcdbg | rtpdbg
  deriving DecidableEq, Repr

/-- The blocks behind a clock crossing, Table 16-3 (R503). -/
inductive PostedBlock where
  | turn | leat | sites | power
  deriving DecidableEq, Repr

/-- A module of a site: full width, x32, or excluded (R376). -/
inductive ModuleState where
  | x64 | x32 | excluded
  deriving DecidableEq, Repr

/-- Kinds of access a memory tells apart (R270, R281). -/
inductive Access where
  | read | write | atomic
  deriving DecidableEq, Repr

/-- A command packet as its source delivers it: the fields of Table 14-3 but for the opcode, which is the row's own
(R449). `rsvd` says that some reserved bit of the header is set. -/
structure Packet where
  source : Fin 18
  tag : BitVec 16
  part : BitVec 4
  fence : Bool
  noIrq : Bool
  rsvd : Bool
  p0 : BitVec 64
  p1 : BitVec 64
  p2 : BitVec 64
  p3 : BitVec 64
  p4 : BitVec 64
  p5 : BitVec 64
  payload : Bytes
  deriving DecidableEq, Repr

/-- A Turn marker's body, TYPE 1 of Table 11-9 (R361); `arrivalErr` is how far it disagrees with the present
alignment, in 0.1 ns, as the receiver measures it (R362, R90). -/
structure Marker where
  bucket : Nat
  turn : Nat
  bucketLen : Nat
  tailraceLen : Nat
  f : Nat
  u : Nat
  headrace : Nat
  hops : Nat
  sendOffset : Nat
  aligned : Bool
  srcHealthy : Bool
  protoMax : Nat
  sysMin : Nat
  protoFloor : Nat
  arrivalErr : Nat
  deriving DecidableEq, Repr

/-- A write that reaches a Shoe intake area (R131): the logical array, the offset in the area 0x1FF_0000 on, the
writer's partition, its context where the request has one, and the bytes. -/
structure ShoeWrite where
  la : Fin 256
  off : Nat
  part : Fin 16
  ctx : Option Nat
  bytes : Bytes
  deriving DecidableEq, Repr

/-- The unit that issues a memory request and the unit epoch it carries (R28, R529). -/
inductive Issuer where
  | dma (n : Fin 64)
  | siteAgent (n : Fin 12)
  | core (n : Fin 4)
  | host (fn : Fin 17)
  | leatPort (n : Fin 8)
  deriving DecidableEq, Repr

/-- An atomic or mint operation as it arrives at its slice (Table 5-3, R282): the issuer and its epoch, the partition, the context
and context epoch where it has one, the local address, the share class. `reduction` marks an operation that a reduction
descriptor issued (R214). -/
structure AtomReq where
  issuer : Issuer
  epoch : Nat
  part : Fin 16
  ctx : Option (Nat × Nat)
  addr : Nat
  share : Fin 64
  reduction : Bool
  deriving DecidableEq, Repr

/-- A mint word on its way to a cell (R177): value, flag byte, anchor and upper anchor. -/
structure MintWord where
  value : Int
  flags : Nat
  anchor : Int
  hi : Int
  deriving DecidableEq, Repr

/-- A tally operation as it reaches the tally memory (R315, R318, R319): the word written, the width in bytes, the
partition it carries, and whether it came over a Leat port. -/
structure TallyReq where
  tally : Fin 16384
  word : BitVec 64
  width : Nat
  part : Fin 16
  remote : Bool
  deriving DecidableEq, Repr

/-- A request as it arrives at a memory (R282): the issuer and its epoch, the partition, the context and context
epoch where it has one, the kind, the physical address (R34), the byte count of a read or the data of a write with its mask
and the poison of each 64-byte unit that it covers, the share class and the placement hint (Table 7-2). -/
structure MemReq where
  issuer : Issuer
  epoch : Nat
  part : Fin 16
  ctx : Option (Nat × Nat)
  kind : Access
  addr : Nat
  len : Nat
  data : Bytes
  mask : List Bool
  poison : List Bool
  share : Fin 64
  hint : Fin 4
  target : Fin 16
  ecc : EccResult
  deriving DecidableEq, Repr

/-- A request that arrives over a Leat port (R285-R290), with the share class and the poison that its header carries (R231, R300). -/
structure RemoteReq where
  srcHub : Nat
  part : Fin 16
  kind : Access
  addr : Nat
  len : Nat
  data : Bytes
  poison : Bool
  share : Fin 64
  tag : Nat
  deriving DecidableEq, Repr

/-- A coherence message of an agent about a line (R247): the line is PA[40:7]. `late` says that a response came
after 2,000 cycles (R257); `ecc` is what the check of the line's first 64 bytes finds where the request reads it (R228). -/
structure CohMsg where
  agent : Fin 16
  epoch : Nat
  line : Nat
  late : Bool
  ecc : EccResult
  deriving DecidableEq, Repr

/-- The request opcodes of CXL.cache that Table 7-4 maps, and any other (R260). -/
inductive CxlOp where
  | rdShared | rdAny | rdOwn | rdOwnNoData | rdCurr
  | itoMWr | wrCur | wrInv | woWrInv | woWrInvF
  | clFlush | cleanEvict | cleanEvictNoData | dirtyEvict | cacheFlushed
  | other (code : Nat)
  deriving DecidableEq, Repr

/-- A CXL.cache request of a site's chiplet for a line, with the data and byte mask of a write (R260). -/
structure CxlReq where
  op : CxlOp
  line : Nat
  data : Bytes
  mask : List Bool
  deriving DecidableEq, Repr

/-- An array's next descriptor starts: the bin offsets of the words that are corrected while it reads (R147, R173). -/
structure ArrayStart where
  la : Fin 256
  corrected : List Nat
  deriving DecidableEq, Repr

/-- FLUSH_DONE of an agent; `rsvd` says that a reserved bit of the message is set (R15, R259). -/
structure FlushReport where
  agent : Fin 16
  rsvd : Bool
  deriving DecidableEq, Repr

/-- The Turn that a purse message names; `rsvd` says that a reserved bit of the message is set (R15, R392, R394). -/
structure PurseTurn where
  turn : Nat
  rsvd : Bool
  deriving DecidableEq, Repr

/-- A mesh queue slot asked for or returned (R299): target port, network, initiator, class, partition. -/
structure QueueReq where
  target : Nat
  vn : Fin 4
  initiator : Nat
  cls : Fin 64
  part : Fin 16
  deriving DecidableEq, Repr

/-- What a flit's check code found (R297). -/
inductive FlitCheck where
  | good | corrected | dataBad | headerBad
  deriving DecidableEq, Repr

/-- A mesh flit as it arrives at its target (R296-R298, R308): the header fields of its packet (Table 9-3), where DEST and SRC are local
ports with bit 9 for L1, its place in the packet, its data and POISON bits, what its check found, the unit that began the exchange
(Table 9-7), and the latency and byte counts that this unit measures where the flit completes its request. -/
structure MeshFlit where
  target : Nat
  source : Nat
  vn : Fin 4
  op : Fin 64
  initiator : Nat
  cls : Fin 64
  part : Fin 16
  ctx : Fin 4096
  epoch : Byte
  tag : Fin 4096
  len : Fin 8
  addr : Nat
  index : Fin 8
  data : Bytes
  poison : BitVec 4
  check : FlitCheck
  latency : Nat
  readBytes : Nat
  writeBytes : Nat
  deriving DecidableEq, Repr

/-- What a link's training measured and heard (Table 11-6, R353, R342): the lanes that passed step 4, the one-way
delay in 0.1 ns, the far end's hub number, link number, extents and PROTO_MAX, its identity digest, and whether the
settings used were saved ones. -/
structure TrainResult where
  goodLanes : BitVec 4
  delay : Nat
  farHub : Nat
  farLink : Nat
  farExtents : List Nat
  farProtoMax : Nat
  farUnit : Nat
  saved : Bool
  deriving DecidableEq, Repr

/-- One fragment of a key exchange (Table 19-12). -/
structure KeyFragment where
  part : Fin 16
  keyId : Byte
  index : Byte
  received : BitVec 10
  body : Bytes
  deriving DecidableEq, Repr

/-- A site packet of Table 12-4 from a chiplet: SUB, TAG, ADDR or slot tag, data, poison of its 64-byte units, the
byte mask of a one-unit WR, the chiplet's agent epoch, and whether some reserved field or the framing is malformed
(R383). `len` is LEN in units of 64 bytes. -/
structure SitePkt where
  site : Fin 12
  sub : Byte
  tag : Nat
  addr : Nat
  len : Nat
  data : Bytes
  mask : List Bool
  poison : List Bool
  epoch : Nat
  malformed : Bool
  deriving DecidableEq, Repr

/-- The operation of an ATOMIC packet (Table 5-3). The spec gives SUB no codes, so the row carries the operation itself. -/
inductive SiteAtom where
  | iadd (w64 fetch : Bool) (v : Nat)
  | cas (w64 : Bool) (cmp new : Nat)
  | fpick (isMax bf16 : Bool) (v : Nat)
  | mintInit (anchor : Int)
  | mintAdd (w : MintWord)
  | mintRead
  deriving DecidableEq, Repr

/-- How a host read ends (R486). -/
inductive Completion where
  | data (d : Bytes)
  | poisoned (d : Bytes)
  | refused
  deriving DecidableEq, Repr

/-- What a write to the MSI-X structures unmasks (R482). -/
inductive UnmaskKind where
  | vector (n : Nat)
  | function
  deriving DecidableEq, Repr

/-- The masters that reach the registers (R495, R508). -/
inductive Master where
  | host (fn : Fin 17)
  | core
  | testNet
  deriving DecidableEq, Repr

/-- A register write: master, BAR0 offset, width in bytes, value. -/
structure RegWrite where
  master : Master
  off : Nat
  width : Nat
  value : Nat
  deriving DecidableEq, Repr

/-- What the site's chiplet answers during bring-up (Table 12-11): nothing on the sideband; or its capability table,
in time or late, the modules that train, and whether the protocol starts. -/
structure SiteEnv where
  detected : Bool
  inTime : Bool
  table : Bytes
  modules : List ModuleState
  protocolStarts : Bool
  deriving DecidableEq, Repr

/-- What one HBM stack does in step 8 (R221, R521): its height, the highest rate code at which it trains (0: none),
and whether its saved settings matched and trained. -/
structure StackEnv where
  high12 : Bool
  rate : Nat
  saved : Bool
  deriving DecidableEq, Repr

/-- What the world outside and the silicon do while a bring-up sequence runs (Table 17-2): the steps whose work does
not depend on State alone. `stepTimes` are BOOT_STEP1 to BOOT_STEP13. `entropy` feeds BOOT_NONCE (R577). -/
structure BootEnv where
  coresBoot : Bool
  fabricOn : Bool
  quartersOn : Bool
  domainsOff : List Nat
  hbm : List StackEnv
  leatDetect : List Nat
  sites : List SiteEnv
  katFail : List Nat
  stepTimes : List Nat
  entropy : Nat
  deriving DecidableEq, Repr

/-- The commands: one constructor for each row of the table. -/
inductive Instr where
  /-- PWROK_RISE (R510). -/
  | pwrokRise (env : BootEnv)
  /-- PWROK_FALL (R510). -/
  | pwrokFall
  /-- WARM_RST_ASSERT (R511). -/
  | warmRstAssert
  /-- WARM_RST_RISE (R512). -/
  | warmRstRise (env : BootEnv)
  /-- PERST_ASSERT (R510). -/
  | perstAssert
  /-- PERST_DEASSERT (R513). -/
  | perstDeassert
  /-- TURN_TICK (R43). -/
  | turnTick
  /-- BUCKET_BOUNDARY (R74). -/
  | bucketBoundary
  /-- STRETCH_DECISION (R80). -/
  | stretchDecision (shortfall : Nat)
  /-- STRETCH_REQUEST (R81). -/
  | stretchRequest (link : Fin 64) (k : Fin 256) (turn : Nat) (hub : Nat)
  /-- COMMIT_WINDOW (R77). -/
  | commitWindow
  /-- TURN_MARKER (R361). -/
  | turnMarker (link : Fin 64) (m : Marker)
  /-- MARKER_LOSS (R90). -/
  | markerLoss
  /-- HEADRACE_TIMEOUT (R85). -/
  | headraceTimeout
  /-- TURN_IN_EDGE (R84). -/
  | turnInEdge (periodPs : Nat) (offsetNs : Int)
  /-- SHOE_SUBMIT (R132). -/
  | shoeSubmit (w : ShoeWrite)
  /-- ARRAY_DESC_START (R147). -/
  | arrayDescStart (a : ArrayStart)
  /-- ARRAY_DESC_COMPLETE (R148). -/
  | arrayDescComplete (la : Fin 256)
  /-- SHOE_BATCH_COMPLETE (R170). -/
  | shoeBatchComplete (la : Fin 256)
  /-- ARRAY_FAULT (R539). -/
  | arrayFault (pa : Fin 288) (f : ArrayFaultKind) (where1 : Nat)
  /-- REPLAY_COMPLETE (R543). -/
  | replayComplete (la : Fin 256) (cycles : Nat) (copied : Nat)
  /-- RETEST_COMPLETE (R547). -/
  | retestComplete (pa : Fin 288) (pass : Bool)
  /-- PATROL_DUE (R548). -/
  | patrolDue (pa : Fin 288)
  /-- PATROL_COMPLETE (R548). -/
  | patrolComplete (pa : Fin 288) (pass : Bool)
  /-- DMA_DESC_START (R329). -/
  | dmaDescStart (de : Fin 64)
  /-- DMA_REQUEST_REFUSED (R331). -/
  | dmaRequestRefused (de : Fin 64) (guard : Bool) (offset : Nat)
  /-- DMA_DESC_COMPLETE (R330). -/
  | dmaDescComplete (de : Fin 64)
  /-- REDUCTION_DESC_START (R192). -/
  | reductionDescStart (de : Fin 64)
  /-- REDUCTION_DESC_COMPLETE (R194). -/
  | reductionDescComplete (de : Fin 64)
  /-- MINT_TRANSFER_PACKET (R185). -/
  | mintTransferPacket (part : Fin 16) (bytes : Bytes)
  /-- MINT_INIT (R176). -/
  | mintInit (q : AtomReq) (anchor : Int)
  /-- MINT_ADD (R178). -/
  | mintAdd (q : AtomReq) (w : MintWord)
  /-- MINT_READ (R179). -/
  | mintRead (q : AtomReq)
  /-- CELL_PUT (R176). -/
  | cellPut (q : AtomReq) (w : MintWord) (err : Option (Fin 8))
  /-- IADD (R181). -/
  | iadd (q : AtomReq) (w64 : Bool) (v : Nat)
  /-- IADD_FETCH (R181). -/
  | iaddFetch (q : AtomReq) (w64 : Bool) (v : Nat)
  /-- CAS (R181). -/
  | cas (q : AtomReq) (w64 : Bool) (cmp new : Nat)
  /-- FMAX (R182). -/
  | fmax (q : AtomReq) (bf16 : Bool) (v : Nat)
  /-- FMIN (R182). -/
  | fmin (q : AtomReq) (bf16 : Bool) (v : Nat)
  /-- TALLY_ADD (R315). -/
  | tallyAdd (q : TallyReq)
  /-- TALLY_SUB (R315). -/
  | tallySub (q : TallyReq)
  /-- MEMORY_ACCESS (R282). -/
  | memoryAccess (r : MemReq)
  /-- WINDOW_REQUEST (R287). -/
  | windowRequest (r : RemoteReq)
  /-- DIRECT_REQUEST (R285). -/
  | directRequest (r : RemoteReq)
  /-- RD_S (R247). -/
  | rdS (m : CohMsg)
  /-- RD_O (R247). -/
  | rdO (m : CohMsg)
  /-- UPG (R247). -/
  | upg (m : CohMsg)
  /-- RD_CUR (R248). -/
  | rdCur (r : MemReq)
  /-- WR_INV (R248). -/
  | wrInv (r : MemReq)
  /-- FLUSH (R248). -/
  | flush (m : CohMsg)
  /-- WB (R255). -/
  | wb (m : CohMsg) (d : Bytes)
  /-- EVC (R252). -/
  | evc (m : CohMsg)
  /-- RSP_I (R253). -/
  | rspI (m : CohMsg)
  /-- RSP_S (R247). -/
  | rspS (m : CohMsg)
  /-- RSP_I_DATA (R248). -/
  | rspIData (m : CohMsg) (d : Bytes)
  /-- RSP_S_DATA (R248). -/
  | rspSData (m : CohMsg) (d : Bytes)
  /-- RSP_I_INFLIGHT (R255). -/
  | rspIInflight (m : CohMsg)
  /-- STASH_ACC (R251). -/
  | stashAcc (m : CohMsg)
  /-- STASH_DEC (R251). -/
  | stashDec (m : CohMsg)
  /-- DIRTY_EVICT (R261), and the other CXL.cache requests that the site's adapter translates (R260). -/
  | dirtyEvict (site : Fin 12) (q : CxlReq)
  /-- HOLD_WINDOW_EXPIRY (R256). -/
  | holdWindowExpiry (agent : Fin 16) (line : Nat)
  /-- SNOOP_TIMEOUT (R258). -/
  | snoopTimeout (agent : Fin 16) (line : Nat)
  /-- FLUSH_DONE (R259): of a site agent on the sideband, or of a management core by Kyohar. -/
  | flushDone (f : FlushReport)
  /-- FLUSH_TIMEOUT (R259). -/
  | flushTimeout (agent : Fin 16)
  /-- INVAL_ACK_TIMEOUT (R278). -/
  | invalAckTimeout (unit : Fin 76)
  /-- DEED_ZEROING_COMPLETE (R283). -/
  | deedZeroingComplete (first : Nat)
  /-- WAY_DRAIN_COMPLETE (R218). -/
  | wayDrainComplete
  /-- RESERVE (R299). -/
  | reserve (q : QueueReq)
  /-- SLOT_RETURN (R299). -/
  | slotReturn (q : QueueReq)
  /-- FLIT_RECEIVE (R297). -/
  | flitReceive (f : MeshFlit)
  /-- SHARE_WINDOW_END (R309). -/
  | shareWindowEnd
  /-- LEAT_DATA_FLIT (R348). -/
  | leatDataFlit (link : Fin 64) (bytes : Bytes) (fecBad : Bool)
  /-- LEAT_RESEND_REQUEST (R348). -/
  | leatResendRequest (link : Fin 64) (lseq : Nat)
  /-- LANE_LOSS_OF_LOCK (R354). -/
  | laneLossOfLock (link : Fin 64)
  /-- LINK_SIGNAL_DETECT (R522). -/
  | linkSignalDetect (link : Fin 64)
  /-- LINK_TRAINING_COMPLETE (R353). -/
  | linkTrainingComplete (link : Fin 64) (r : TrainResult)
  /-- BER_CHECK_START (R525). -/
  | berCheckStart (link : Fin 64) (turn : Nat)
  /-- BER_CHECK_COMPLETE (R525). -/
  | berCheckComplete (link : Fin 64) (errors : List Nat) (uncorrectable : Bool)
  /-- SEAL_COUNTER_REKEY (R368). -/
  | sealCounterRekey (link : Fin 64) (part : Fin 16)
  /-- SEAL_COUNTER_LIMIT (R369). -/
  | sealCounterLimit (link : Fin 64) (part : Fin 16)
  /-- KEY_OFFER (R584). -/
  | keyOffer (link : Fin 64) (f : KeyFragment)
  /-- KEY_OFFER_RESPONSE (R584). -/
  | keyOfferResponse (link : Fin 64) (f : KeyFragment)
  /-- KEY_FRAGMENT_RESEND (R584). -/
  | keyFragmentResend (port : Fin 8) (part : Fin 16)
  /-- PURSE_REQ (R392). -/
  | purseReq (site : Fin 12) (power : Nat) (turn : PurseTurn)
  /-- PURSE_REPORT (R394). -/
  | purseReport (site : Fin 12) (power : Nat) (turn : PurseTurn)
  /-- PURSE_REPORT_DEADLINE (R395). -/
  | purseReportDeadline (site : Fin 12)
  /-- SITE_ALERT (R380). -/
  | siteAlert (site : Fin 12) (code : Byte) (data : Nat)
  /-- UNKNOWN_SIDEBAND_MESSAGE (R378). -/
  | unknownSidebandMessage (site : Fin 12) (msg : Byte)
  /-- RD (R384). -/
  | rd (p : SitePkt)
  /-- WR (R384). -/
  | wr (p : SitePkt)
  /-- ATOMIC (R382). -/
  | atomic (p : SitePkt) (op : SiteAtom)
  /-- TALLY (R385). -/
  | tally (p : SitePkt)
  /-- RD_DATA (R386). -/
  | rdData (p : SitePkt)
  /-- WR_ACK (R386). -/
  | wrAck (p : SitePkt)
  /-- ERR (R386). -/
  | err (p : SitePkt)
  /-- APERTURE_TIMEOUT (R386). -/
  | apertureTimeout (site : Fin 12) (tag : Nat)
  /-- SITE_CALL_START (R398). -/
  | siteCallStart (site : Fin 12)
  /-- SLOT_DONE (R399). -/
  | slotDone (p : SitePkt)
  /-- SLOT_SUSPENDED (R400). -/
  | slotSuspended (p : SitePkt)
  /-- SITE_CALL_TIMEOUT (R403). -/
  | siteCallTimeout (site : Fin 12)
  /-- MODULE_LOSS_OF_LOCK (R377). -/
  | moduleLossOfLock (site : Fin 12) (module : Fin 16) (relock : ModuleState)
  /-- HBM_CATTRIP (R225). -/
  | hbmCattrip (stack : Fin 8)
  /-- PC_RETRAIN_FAIL (R233). -/
  | pcRetrainFail (stack : Fin 8) (pc : Fin 32)
  /-- SCRUB_READ (R232). -/
  | scrubRead (addr : Nat) (e : EccResult)
  /-- SCRUB_INTERVAL_END (R232). -/
  | scrubIntervalEnd
  /-- DOMAIN_SWITCH_COMPLETE (R418). -/
  | domainSwitchComplete
  /-- DOMAIN_SWITCH_TIMEOUT (R420). -/
  | domainSwitchTimeout
  /-- TEMP_SAMPLE (R434). -/
  | tempSample (temps : List Nat)
  /-- THERMTRIP (R436). -/
  | thermtrip
  /-- RAIL_SAMPLE (R612). -/
  | railSample (outOfBand : List Nat)
  /-- AGEING_SAMPLE (R550). -/
  | ageingSample (slack : List Nat)
  /-- AGEING_REPLAN (R551). -/
  | ageingReplan
  /-- PROFILER_SAMPLE (R433). -/
  | profilerSample (free : Bool)
  /-- REPLACE_MESSAGE_REPEAT (R556). -/
  | replaceMessageRepeat
  /-- WARRANT_EXPIRY (R578). -/
  | warrantExpiry
  /-- DEBUG_ACCESS (R579). -/
  | debugAccess (path : DebugPath)
  /-- TEST_WINDOW_WRITE (R289). -/
  | testWindowWrite (win : Fin 64) (entry : Bytes)
  /-- OBSERVE_SELECT (R616). -/
  | observeSelect (on : Bool)
  /-- BANK_ERASE_COMPLETE (R603). -/
  | bankEraseComplete
  /-- KYOHAR_REPORT_TIMEOUT (R601). -/
  | kyoharReportTimeout
  /-- COMMAND_FETCH (R443). -/
  | commandFetch (src : Fin 17) (slots : Completion)
  /-- SQ_TAIL (R443). -/
  | sqTail (src : Fin 17) (v : Nat)
  /-- CQ_HEAD (R444). -/
  | cqHead (src : Fin 17) (v : Nat)
  /-- RING_ENABLE (R442). -/
  | ringEnable (src : Fin 17) (v : Nat)
  /-- RING_DISABLE (R446). -/
  | ringDisable (src : Fin 17) (v : Nat)
  /-- MCTP_COMMAND (R448). -/
  | mctpCommand (bytes : Bytes)
  /-- BIT_ALIAS_WRITE (R499). -/
  | bitAliasWrite (off : Nat) (v : Nat)
  /-- SQC_CLEAR_WRITE (R501). -/
  | sqcClearWrite (off : Nat) (v : Nat)
  /-- CFG_LOCK_WRITE (R502). -/
  | cfgLockWrite (off : Nat) (v : Nat)
  /-- POSTED_WRITE (R504). -/
  | postedWrite (off : Nat) (v : Nat)
  /-- POSTED_WRITE_LAND (R504). -/
  | postedWriteLand (b : PostedBlock)
  /-- LEAT_FEC_CLR (R371). -/
  | leatFecClr (n : Nat)
  /-- HOST_RD_LIMIT_WRITE (R487). -/
  | hostRdLimitWrite (v : Nat)
  /-- HOST_FN_TAGS_WRITE (R487). -/
  | hostFnTagsWrite (fn : Fin 17) (v : Nat)
  /-- REGISTER_WRITE (R495). -/
  | registerWrite (w : RegWrite)
  /-- MSIX_UNMASK (R482). -/
  | msixUnmask (fn : Fin 17) (what : UnmaskKind)
  /-- RESIZABLE_BAR_WRITE (R478). -/
  | resizableBarWrite (sizeCode : Nat)
  /-- HOST_BAR4_READ (R479). -/
  | hostBar4Read (fn : Fin 17) (off len : Nat)
  /-- HOST_BAR4_WRITE (R479). -/
  | hostBar4Write (fn : Fin 17) (off : Nat) (d : Bytes) (poison : Bool)
  /-- HOST_READ_COMPLETION (R486). -/
  | hostReadCompletion (tag : Nat) (c : Completion)
  /-- HOST_READ_TIMEOUT (R486). -/
  | hostReadTimeout (tag : Nat)
  /-- FUNCTION_LEVEL_RESET (R488). -/
  | functionLevelReset (fn : Fin 17)
  /-- HOST_LINK_DOWN (R490). -/
  | hostLinkDown
  /-- HOST_LINK_UP (R490). -/
  | hostLinkUp (rate : Fin 4) (width : Nat) (flit : Bool)
  /-- D3HOT_ENTRY (R489). -/
  | d3hotEntry (fn : Fin 17)
  /-- D0_RETURN (R489). -/
  | d0Return (fn : Fin 17)
  /-- DOE_REQUEST (R493). -/
  | doeRequest (obj : Bytes)
  /-- DOE_ABORT (R493). -/
  | doeAbort
  /-- STAGE_SET (R461). -/
  | stageSet (c : Packet)
  /-- STAGE_CHECK (R462). -/
  | stageCheck (c : Packet)
  /-- STAGE_POST (R463). -/
  | stagePost (c : Packet)
  /-- STAGE_DISCARD (R466). -/
  | stageDiscard (c : Packet)
  /-- STAGE_READ (R467). -/
  | stageRead (c : Packet)
  /-- PLAN_LOAD (R58). -/
  | planLoad (c : Packet) (obj : Option Bytes)
  /-- PLAN_ADMIT (R67). -/
  | planAdmit (c : Packet)
  /-- PLAN_ACTIVATE (R59). -/
  | planActivate (c : Packet)
  /-- PLAN_RETIRE (R61). -/
  | planRetire (c : Packet)
  /-- TARIFF_READ (R62). -/
  | tariffRead (c : Packet)
  /-- CTX_BIND (R265). -/
  | ctxBind (c : Packet)
  /-- CTX_ROOT (R275). -/
  | ctxRoot (c : Packet)
  /-- XLATE_INVAL (R276). -/
  | xlateInval (c : Packet)
  /-- CTX_CLEAR (R267). -/
  | ctxClear (c : Packet)
  /-- DEED_SET (R283). -/
  | deedSet (c : Packet)
  /-- DEED_READ (R284). -/
  | deedRead (c : Packet)
  /-- WIN_FORCE (R289). -/
  | winForce (c : Packet) (entry : Option Bytes)
  /-- MEM_POISON_READ (R235). -/
  | memPoisonRead (c : Packet)
  /-- MEM_RETIRE (R234). -/
  | memRetire (c : Packet)
  /-- MEM_RETIRE_LIST (R234). -/
  | memRetireList (c : Packet)
  /-- MEM_SCRUB (R232). -/
  | memScrub (c : Packet)
  /-- TALLY_ASSIGN (R320). -/
  | tallyAssign (c : Packet)
  /-- TALLY_READ (R314). -/
  | tallyRead (c : Packet)
  /-- TALLY_SET (R315). -/
  | tallySet (c : Packet)
  /-- DMA_QUEUE_ASSIGN (R325). -/
  | dmaQueueAssign (c : Packet)
  /-- DMA_SUBMIT (R337). -/
  | dmaSubmit (c : Packet)
  /-- DMA_QUEUE_READ (R336). -/
  | dmaQueueRead (c : Packet)
  /-- DMA_FLUSH (R337). -/
  | dmaFlush (c : Packet)
  /-- PART_READ (R563). -/
  | partRead (c : Packet)
  /-- PART_OWNERS (R585). -/
  | partOwners (c : Packet)
  /-- PART_SHARES (R585). -/
  | partShares (c : Packet)
  /-- PART_SEAL (R585). -/
  | partSeal (c : Packet)
  /-- LEAT_CONFIG (R342). -/
  | leatConfig (c : Packet)
  /-- LEAT_TRAIN (R353). -/
  | leatTrain (c : Packet)
  /-- LEAT_STATUS (R370). -/
  | leatStatus (c : Packet)
  /-- LEAT_SAVE (R354). -/
  | leatSave (c : Packet)
  /-- SITE_CAP_READ (R411). -/
  | siteCapRead (c : Packet)
  /-- SITE_RESET (R410). -/
  | siteReset (c : Packet) (env : SiteEnv)
  /-- PURSE_READ (R411). -/
  | purseRead (c : Packet)
  /-- SITE_BREACH_CLEAR (R396). -/
  | siteBreachClear (c : Packet)
  /-- TURN_RECORD_READ (R459). -/
  | turnRecordRead (c : Packet)
  /-- FAB_STATS_READ (R310). -/
  | fabStatsRead (c : Packet)
  /-- FAB_MISS_READ (R310). -/
  | fabMissRead (c : Packet)
  /-- LEDGER_READ (R537). -/
  | ledgerRead (c : Packet)
  /-- LEDGER_RELEASE (R537). -/
  | ledgerRelease (c : Packet)
  /-- LEDGER_OVF_READ (R537). -/
  | ledgerOvfRead (c : Packet)
  /-- LC_ADVANCE (R571). -/
  | lcAdvance (c : Packet)
  /-- WARRANT_LOAD (R576). -/
  | warrantLoad (c : Packet)
  /-- WARRANT_READ (R577). -/
  | warrantRead (c : Packet)
  /-- ATTEST_QUOTE (R569). -/
  | attestQuote (c : Packet)
  /-- FW_CHUNK (R595). -/
  | fwChunk (c : Packet)
  /-- FW_STATUS (R604). -/
  | fwStatus (c : Packet)
  /-- FW_ACTIVATE (R601). -/
  | fwActivate (c : Packet) (env : BootEnv)
  /-- FW_DISCARD (R603). -/
  | fwDiscard (c : Packet)
  /-- PWR_DOMAIN (R417). -/
  | pwrDomain (c : Packet)
  /-- THERM_READ (R437). -/
  | thermRead (c : Packet)
  /-- THERM_WARN (R435). -/
  | thermWarn (c : Packet)
  /-- PROF_SET (R433). -/
  | profSet (c : Packet)
  /-- AGE_READ (R554). -/
  | ageRead (c : Packet)
  /-- AGE_POLICY (R553). -/
  | agePolicy (c : Packet)
  /-- TURN_IN_EDGE_MISSING (R84). -/
  | turnInEdgeMissing
  /-- SERDES_REFCLK_LOSS (R84). -/
  | serdesRefclkLoss
  /-- SERDES_REFCLK_RETURN (R85). -/
  | serdesRefclkReturn
  /-- SLOT_SUSPEND (R400). -/
  | slotSuspend (site : Fin 12)
  /-- MCTP_SPDM_MESSAGE (R493). -/
  | mctpSpdmMessage (msg : Bytes)
  /-- CXL_IO_REQUEST (R389). -/
  | cxlIoRequest (site : Fin 12) (tag : Nat)
  /-- VF_ENABLE_WRITE (R475). -/
  | vfEnableWrite (enable : Bool) (numVfs : Nat)
  /-- DIRECTORY_WAY_EMPTIED (R245). -/
  | directoryWayEmptied
  /-- KYOHAR_REPORTS_RUNNING (R601). -/
  | kyoharReportsRunning
  deriving DecidableEq, Repr

end Sys2Proof
end

