-- ==== Sys2Proof/Config.lean ====
section
/-! DEFINITION. What the spec leaves open: constants with no body. Nothing can be proved of their values. -/

namespace Sys2Proof.Config

/-- The FP32 result that a Bolter revision offers for EXP, LOG, GELU or SILU, by revision, operation code of Table 4-8, lane mode
and operand bits: the spec gives only bounds, and an offer outside them is not taken (R138). -/
opaque bolterFn : Nat → Nat → Bool → Nat → Nat

/-- The choice that a Bolter revision makes within one ulp for RCP and RSQRT, by revision, operation, lane mode and
operand bits (R138). -/
opaque bolterUlp : Nat → Nat → Bool → Nat → Nat

/-- A byte or number that the spec leaves undefined, by the number of the free value taken. -/
opaque freeValue : Nat → Nat

/-- A signature by the device key or the alias key over a message: the private keys are outside the spec (R565, R569). -/
opaque signature : Nat → List (BitVec 8) → Nat

/-- The alias public key of a boot, by measured firmware (Table 19-6). -/
opaque aliasKey : Nat → Nat

/-- AES-256-GCM sealing of a packet: key, nonce, additional data, body; ciphertext with its tag (R366). -/
opaque gcmSeal : List (BitVec 8) → Nat → List (BitVec 8) → List (BitVec 8) → List (BitVec 8)

/-- AES-256-GCM opening: the plain text where the tag agrees (R366, R367). -/
opaque gcmOpen : List (BitVec 8) → Nat → List (BitVec 8) → List (BitVec 8) → Option (List (BitVec 8))

/-- An ephemeral P-384 public key of a key exchange, X then Y, and the shared secret with a far point, by the number of the
exchange (R584): the private scalar comes from the entropy source. -/
opaque ephemeral : Nat → Nat
opaque sharedSecret : Nat → Nat → Nat

/-- The message that a key offer's signature covers (R584): the two ephemeral keys, the two UNIT_IDs, the partition, the port
pair and the KEY_ID, in a layout that the spec does not give. -/
opaque keyTranscript : List Nat → List (BitVec 8)

/-- The info string of the key derivation of R584, and the KEY_ID of a partition's first key on a port. -/
opaque hkdfInfo : List (BitVec 8)
opaque firstKeyId : Nat → Nat

/-- A measurement of Table 19-7 whose input layout, or input, the spec does not give: index, and what it measures (R567). -/
opaque measurement : Nat → List Nat → Nat

/-- The answer of the RTP to an SPDM message, by path (true: DOE), the measurements and the message (R492, R568). -/
opaque spdmAnswer : Bool → List Nat → List (BitVec 8) → List (BitVec 8)

/-- The set of its slice that an HBM line occupies in the Granary: the spec gives the slice alone (R205, R209). -/
opaque granarySet : Nat → Nat

end Sys2Proof.Config
end

