-- ==== Sys2Proof/Machine/Bits.lean ====
section
/-! DEFINITION. Bit fields, byte order and small list helpers. Everything in the hub is little-endian (R12). -/

namespace Sys2Proof.Machine

/-- Bits hi down to lo of a number. -/
def bits (v hi lo : Nat) : Nat := v / 2 ^ lo % 2 ^ (hi + 1 - lo)

/-- Bit b of a number. -/
def bit (v b : Nat) : Bool := v / 2 ^ b % 2 = 1

/-- The number 1 or 0 of a flag. -/
def flag (b : Bool) : Nat := if b then 1 else 0

/-- The value of a byte string, lowest byte first (R12). -/
def leVal : Bytes → Nat
  | [] => 0
  | b :: r => b.toNat + 256 * leVal r

/-- The `n` bytes of a number, lowest first (R12). -/
def leBytes : Nat → Nat → Bytes
  | 0, _ => []
  | n + 1, v => BitVec.ofNat 8 v :: leBytes n (v / 256)

/-- The value of a byte string, highest byte first. -/
def beVal (b : Bytes) : Nat := b.foldl (fun a x => 256 * a + x.toNat) 0

/-- The `n` bytes of a number, highest first. -/
def beBytes (n v : Nat) : Bytes := (leBytes n v).reverse

/-- The `n` bytes at offset `off`; missing bytes read as zero. -/
def sub (b : Bytes) (off n : Nat) : Bytes :=
  let c := (b.drop off).take n
  c ++ List.replicate (n - c.length) 0#8

/-- The little-endian field of `n` bytes at offset `off`. -/
def rd (b : Bytes) (off n : Nat) : Nat := leVal (sub b off n)

/-- A two's-complement field of `w` bits as an integer. -/
def sext (w v : Nat) : Int := if v % 2 ^ w < 2 ^ (w - 1) then (v % 2 ^ w : Nat) else (v % 2 ^ w : Nat) - (2 ^ w : Nat)

/-- An integer as a two's-complement field of `w` bits. -/
def unsext (w : Nat) (v : Int) : Nat := (v % (2 ^ w : Nat)).toNat

/-- The sum that a saturating counter of `w` bits holds. -/
def satAdd (w a b : Nat) : Nat := min (a + b) (2 ^ w - 1)

/-- An integer held within the range of a signed field of `w` bits. -/
def satInt (w : Nat) (v : Int) : Int := max (-(2 ^ (w - 1) : Nat)) (min v ((2 ^ (w - 1) : Nat) - 1))

/-- The quotient rounded up. -/
def ceilDiv (a b : Nat) : Nat := (a + b - 1) / b

/-- All numbers from `a` on, `n` of them. -/
def upto (a n : Nat) : List Nat := (List.range n).map (a + ·)

/-- The list with `x` added where it does not hold it already. -/
def addNew (l : List Nat) (x : Nat) : List Nat := if l.contains x then l else l ++ [x]

/-- The list without `x`. -/
def without (l : List Nat) (x : Nat) : List Nat := l.filter (· != x)

/-- The largest of a list, zero for none. -/
def maxOf (l : List Nat) : Nat := l.foldl max 0

/-- The sum of a list. -/
def sumOf (l : List Nat) : Nat := l.foldl (· + ·) 0

/-- The bits of a number, as the numbers of the bits that are set among the lowest `n`. -/
def setBits (n v : Nat) : List Nat := (List.range n).filter (bit v)

/-- The number whose set bits a list names. -/
def ofBits (l : List Nat) : Nat := l.foldl (fun a b => a ||| 2 ^ b) 0

/-- A byte string cut into pieces of `n`, with a bound on their number. -/
def chunks (n : Nat) : Nat → Bytes → List Bytes
  | 0, _ => []
  | k + 1, b => if b.isEmpty then [] else b.take n :: chunks n k (b.drop n)


/-- The entries of a list with their places. -/
def indexed {α : Type} (l : List α) : List (Nat × α) := (List.range l.length).zip l

/-- A span cut at multiples of `w`: start and length of each part. -/
def cutAt (w a n : Nat) : List (Nat × Nat) :=
  (upto (a / w) ((a % w + n + w - 1) / w)).map fun u => (max a (u * w), min (a + n) ((u + 1) * w) - max a (u * w))

end Sys2Proof.Machine
end

