-- ==== Sys2Proof/Machine/Crypto.lean ====
section
/-! DEFINITION. CRC-32, SHA-384, and ECDSA over P-384, as the spec's signatures and checks use them (R52, R580, R590,
R592). The algorithms' constants come from their public standards, which the spec names (PRESUMED, log entry 18). -/

namespace Sys2Proof.Machine

/-! ### CRC-32, IEEE 802.3 polynomial -/

/-- One bit of the reflected CRC. -/
def crcBit (c : Nat) : Nat := if c % 2 = 1 then (c / 2) ^^^ 0xEDB88320 else c / 2

/-- One byte of the CRC. -/
def crcByte (c : Nat) (b : Byte) : Nat := (List.range 8).foldl (fun a _ => crcBit a) (c ^^^ b.toNat)

/-- The CRC register after a byte string; the match evaluates the register at each byte. -/
def crcRun : Bytes → Nat → Nat
  | [], c => c
  | b :: r, c => match crcByte c b with | 0 => crcRun r 0 | n + 1 => crcRun r (n + 1)

/-- CRC-32 of a byte string. -/
def crc32 (b : Bytes) : Nat := crcRun b 0xFFFFFFFF ^^^ 0xFFFFFFFF

/-! ### SHA-384 -/

def m64 (v : Nat) : Nat := v % 2 ^ 64

def rotr64 (v n : Nat) : Nat := v / 2 ^ n + v % 2 ^ n * 2 ^ (64 - n)

def bigS0 (v : Nat) : Nat := rotr64 v 28 ^^^ rotr64 v 34 ^^^ rotr64 v 39
def bigS1 (v : Nat) : Nat := rotr64 v 14 ^^^ rotr64 v 18 ^^^ rotr64 v 41
def smallS0 (v : Nat) : Nat := rotr64 v 1 ^^^ rotr64 v 8 ^^^ v / 128
def smallS1 (v : Nat) : Nat := rotr64 v 19 ^^^ rotr64 v 61 ^^^ v / 64

/-- The n-th prime numbers' table that the round constants come from. -/
def isPrime (n : Nat) : Bool := n ≥ 2 && (upto 2 20).all fun d => d ≥ n || n % d ≠ 0

/-- The first eighty primes. -/
def primes80 : List Nat := (upto 2 408).filter isPrime

/-- The largest r with r^3 ≤ n, found bit by bit from bit k - 1 down. -/
def cbrt : Nat → Nat → Nat → Nat
  | 0, _, r => r
  | k + 1, n, r => let t := r + 2 ^ k; if t * t * t ≤ n then cbrt k n t else cbrt k n r

/-- Round constants: the first 64 bits of the fractional parts of the cube roots of the primes (FIPS 180-4). -/
def shaK : List Nat := primes80.map fun p => cbrt 68 (p * 2 ^ 192) 0 % 2 ^ 64

/-- Initial hash values of SHA-384: the first 64 bits of the fractional parts of the square roots of the ninth to
sixteenth primes (FIPS 180-4). -/
def sha384Init : List Nat := ((primes80.drop 8).take 8).map fun p => Nat.sqrt (p * 2 ^ 128) % 2 ^ 64

/-- The message schedule: words in reverse order, latest first. -/
def shaExpand : Nat → List Nat → List Nat
  | 0, w => w
  | n + 1, w =>
    shaExpand n (m64 (smallS1 (w.getD 1 0) + w.getD 6 0 + smallS0 (w.getD 14 0) + w.getD 15 0) :: w)

/-- One round. -/
def shaRound (h : List Nat) (kw : Nat × Nat) : List Nat :=
  match h with
  | [a, b, c, d, e, f, g, x] =>
    let t1 := x + bigS1 e + ((e &&& f) ^^^ ((2 ^ 64 - 1 - e) &&& g)) + kw.1 + kw.2
    let t2 := bigS0 a + ((a &&& b) ^^^ (a &&& c) ^^^ (b &&& c))
    [m64 (t1 + t2), a, b, c, m64 (d + t1), e, f, g]
  | _ => h

/-- One 128-byte block. -/
def shaBlock (h : List Nat) (blk : Bytes) : List Nat :=
  let w0 := (chunks 8 16 blk).map beVal
  let w := (shaExpand 64 w0.reverse).reverse
  let h1 := (shaK.zip w).foldl shaRound h
  List.zipWith (fun x y => m64 (x + y)) h h1

/-- SHA-384 of a byte string, as a number of 384 bits, most significant byte first. -/
def sha384 (b : Bytes) : Nat :=
  let pad := (239 - b.length % 128) % 128
  let msg := b ++ [0x80#8] ++ List.replicate pad 0#8 ++ beBytes 16 (8 * b.length)
  let h := (chunks 128 (msg.length / 128 + 1) msg).foldl shaBlock sha384Init
  (h.take 6).foldl (fun a x => a * 2 ^ 64 + x) 0

/-! ### P-384 -/

/-- The field prime, the order, the coefficient b and the base point (FIPS 186-4). -/
def p384 : Nat := 2 ^ 384 - 2 ^ 128 - 2 ^ 96 + 2 ^ 32 - 1
def n384 : Nat := 0xffffffffffffffffffffffffffffffffffffffffffffffffc7634d81f4372ddf581a0db248b0a77aecec196accc52973
def b384 : Nat := 0xb3312fa7e23ee7e4988e056be3f82d19181d9c6efe8141120314088f5013875ac656398d8a2ed19d2a85c8edd3ec2aef
def gx384 : Nat := 0xaa87ca22be8b05378eb1c71ef320ad746e1d3b628ba79b9859f741e082542a385502f25dbf55296c3a545e3872760ab7
def gy384 : Nat := 0x3617de4a96262c6f5d9e98bf9292dc29f8f41dbd289a147ce9da3113b5f0b8c00a60b1ce1d7e819d7a431d7c90ea0e5f

/-- a^e mod m by squaring, over k bits of e. -/
def powMod : Nat → Nat → Nat → Nat → Nat
  | 0, _, _, m => 1 % m
  | k + 1, a, e, m =>
    let h := powMod k (a * a % m) (e / 2) m
    if e % 2 = 1 then a * h % m else h

/-- Inverse modulo a prime. -/
def invMod (a m : Nat) : Nat := powMod 384 (a % m) (m - 2) m

/-- A point of the curve in Jacobian coordinates: (X, Y, Z) stands for X / Z^2, Y / Z^3, and Z = 0 for the point at infinity. -/
structure Point where
  x : Nat
  y : Nat
  z : Nat
  deriving DecidableEq, Repr

def Point.infinity : Point := ⟨1, 1, 0⟩

def onCurve (x y : Nat) : Bool :=
  x < p384 && y < p384 && y * y % p384 = (x * x * x + (p384 - 3) * x + b384) % p384

/-- A difference in the field. -/
def fieldSub (a b : Nat) : Nat := (a + p384 - b % p384) % p384

/-- Twice a point. -/
def ecDouble (q : Point) : Point :=
  let d := q.z * q.z % p384
  let g := q.y * q.y % p384
  let b := q.x * g % p384
  let a := 3 * fieldSub q.x d * (q.x + d) % p384
  let x := fieldSub (a * a) (8 * b)
  ⟨x, fieldSub (a * fieldSub (4 * b) x) (8 * g * g), 2 * q.y * q.z % p384⟩

/-- Sum of two points. -/
def ecAdd (p q : Point) : Point :=
  if p.z = 0 then q
  else if q.z = 0 then p
  else
    let pz := p.z * p.z % p384
    let qz := q.z * q.z % p384
    let u := p.x * qz % p384
    let s := p.y * qz * q.z % p384
    let h := fieldSub (q.x * pz) u
    let r := fieldSub (q.y * pz * p.z) s
    if h = 0 then (if r = 0 then ecDouble p else Point.infinity)
    else
      let hh := h * h % p384
      let v := u * hh % p384
      let x := fieldSub (r * r) (h * hh + 2 * v)
      ⟨x, fieldSub (r * fieldSub v x) (s * h * hh), h * p.z * q.z % p384⟩

/-- A multiple of a point, over k bits of the factor. -/
def ecMul : Nat → Nat → Point → Point
  | 0, _, _ => Point.infinity
  | k + 1, n, q =>
    let r := ecMul k (n / 2) (ecDouble q)
    if n % 2 = 1 then ecAdd q r else r

/-- ECDSA verification of r and s over a digest with a public key. -/
def ecdsaOk (qx qy digest r s : Nat) : Bool :=
  if r = 0 ∨ s = 0 ∨ r ≥ n384 ∨ s ≥ n384 ∨ !onCurve qx qy then false
  else
    let w := invMod s n384
    let v := ecAdd (ecMul 384 (digest * w % n384) ⟨gx384, gy384, 1⟩) (ecMul 384 (r * w % n384) ⟨qx, qy, 1⟩)
    if v.z = 0 then false
    else
      let i := invMod v.z p384
      v.x * i * i % p384 % n384 = r

/-- A signature field of 96 bytes, r then s, checked with a key field of 96 bytes, X then Y, over a message (R580). -/
def signedBy (key sig msg : Bytes) : Bool :=
  ecdsaOk (beVal (key.take 48)) (beVal (sub key 48 48)) (sha384 msg) (beVal (sig.take 48)) (beVal (sub sig 48 48))

/-- HMAC-SHA-384. -/
def hmac384 (key msg : Bytes) : Bytes :=
  let k0 := (if key.length > 128 then beBytes 48 (sha384 key) else key)
  let k := k0 ++ List.replicate (128 - k0.length) 0#8
  let inner := sha384 (k.map (· ^^^ 0x36#8) ++ msg)
  beBytes 48 (sha384 (k.map (· ^^^ 0x5C#8) ++ beBytes 48 inner))

end Sys2Proof.Machine
end

