-- ==== Sys2Proof/Machine/State.lean ====
section
/-! DEFINITION. The state of the hub as plain data, unit by unit, its outputs, and the state before PWROK rises.
A field's comment reads: the spec's name | width | file, rule | reset value. -/

namespace Sys2Proof.Machine

/-! ### Outputs of the latest command -/

/-- A status of Table 14-6 (R453). -/
inductive Status where
  | ok | pendingTurn | badOpcode | badParam | notPermitted | busy | notReady | aborted | turnPassed | checkFailed
  | planTiming | planEnergy | planReserve | planOwnership | notBlank | eraseIncomplete | imageIncomplete
  | sigInvalid | wrongUnit | warrantExpired | lcOrder
  deriving DecidableEq, Repr

/-- The grants of Table 7-1. -/
inductive Grant where
  | s | e | m | mNoData
  deriving DecidableEq, Repr

/-- The body of a Turn marker as it leaves, TYPE 1 of Table 11-9 but for SEND_OFFSET, which is timing (R361). -/
structure MarkerOut where
  bucket : Nat
  turn : Nat
  bucketLen : Nat
  tailraceLen : Nat
  f : Nat
  u : Nat
  headrace : Nat
  hops : Nat
  aligned : Bool
  srcHealthy : Bool
  protoMax : Nat
  sysMin : Nat
  protoFloor : Nat
  deriving DecidableEq, Repr

/-- What the hub drives because of the command in progress. -/
inductive Output where
  /-- Bytes written to host memory by a function, at a bus address (R448). -/
  | hostWrite (fn : Nat) (addr : Nat) (data : Bytes)
  /-- The same, marked as poisoned (Table 6-3). -/
  | hostWritePoisoned (fn : Nat) (addr : Nat) (data : Bytes)
  /-- A read sent to the host by a function (R485). -/
  | hostRead (fn : Nat) (tag : Nat) (addr : Nat) (len : Nat)
  /-- An interrupt message: function and vector (R445, R482, R509). -/
  | interrupt (fn : Nat) (vector : Nat)
  /-- The address and data of an MSI-X table entry as sent (R482). -/
  | msix (fn : Nat) (addr : Nat) (data : Nat)
  /-- A message to the board controller (R448, R556). -/
  | mctp (data : Bytes)
  /-- Data returned to a requester, with the poison of each 64-byte unit that it covers; units not listed are clean (R231). -/
  | readData (data : Bytes) (poison : List Bool)
  /-- A write or operation acknowledged to its requester. -/
  | ack
  /-- A write that was dropped, reported to its writer as poisoned (R233). -/
  | ackPoisoned
  /-- Mint words acknowledged, with the error causes that their packet met: for each word a nibble, 8 and its cause, or 0 (R187). -/
  | mintAck (causes : Nat)
  /-- A request refused to its requester: an error completion with no data (R282). -/
  | errorCompletion
  /-- Zero returned, where a rule says a refused read returns zero (R131, R314, R495, R498). -/
  | zeroData (len : Nat)
  /-- An old value or clamped cell returned by an atomic operation (Table 5-3). -/
  | value (v : Nat)
  /-- Snoops of Table 7-1 (R247). -/
  | snpI (agent : Nat) (line : Nat)
  | snpS (agent : Nat) (line : Nat)
  | stash (agent : Nat) (line : Nat) (data : Bytes)
  /-- A grant with the line's bytes, where it carries them, and their poison (R231). The adapter of a chiplet in CXL mode spells it as
  GO-S, GO-E or GO-M, and a snoop as SnpInv or SnpData (Table 7-4). -/
  | grant (agent : Nat) (line : Nat) (g : Grant) (data : Bytes) (poison : Bool)
  | wbAck (agent : Nat) (line : Nat)
  | cohErr (agent : Nat) (line : Nat)
  /-- GO messages of the CXL adapter (Table 7-4). -/
  | goWritePull (site : Nat) (line : Nat)
  | goI (site : Nat) (line : Nat)
  | goErr (site : Nat) (line : Nat)
  /-- A data flit sent on a link: LSEQ, PSEQ, PART, LACK and MGMT of its trailer, and the packet it carries (Table 11-3, R346, R348,
  R355). -/
  | leatFlit (link : Nat) (lseq : Nat) (pseq : Nat) (part : Nat) (lack : Nat) (mgmt : Bool) (data : Bytes)
  /-- A resend request carrying the last LSEQ accepted (R348). -/
  | leatResend (link : Nat) (lseq : Nat)
  /-- An idle flit that carries LACK and the credits returned: partition, VC, units of 64 bytes (Table 11-3, R352). -/
  | leatIdle (link : Nat) (lack : Nat) (part : Nat) (vc : Nat) (count : Nat)
  /-- A Turn marker (R361). -/
  | marker (link : Nat) (m : MarkerOut)
  /-- A stretch request (Table 11-9). -/
  | stretch (link : Nat) (k : Nat) (turn : Nat) (hub : Nat)
  /-- A TYPE 6 control flit (R525). -/
  | berStart (link : Nat) (turn : Nat)
  /-- Key exchange fragments (Table 19-12). -/
  | keyOffer (link : Nat) (part : Nat) (keyId : Nat) (index : Nat) (received : Nat) (data : Bytes)
  | keyResponse (link : Nat) (part : Nat) (keyId : Nat) (index : Nat) (received : Nat) (data : Bytes)
  /-- Sideband messages of Table 12-2: MSG, the byte after it, and the field above. -/
  | sideband (site : Nat) (msg : Nat) (b : Nat) (field : Nat)
  /-- Site packets towards a chiplet: OP, SUB, TAG, ADDR or slot tag, data and the poison of its 64-byte units (Table 12-4). -/
  | sitePacket (site : Nat) (op : Nat) (sub : Nat) (tag : Nat) (addr : Nat) (data : Bytes) (poison : List Bool)
  /-- A CXL.io completion with unsupported request (R389). -/
  | cxlUnsupported (site : Nat) (tag : Nat)
  /-- A mesh flit delivered at its local port (R295, R297). -/
  | flit (f : MeshFlit)
  /-- A mesh queue slot granted (R299). -/
  | slotGrant (target : Nat) (vn : Nat) (initiator : Nat) (cls : Nat)
  /-- A test scan served, or one that shifts out zeros (R579). -/
  | testServed
  | testZeros
  /-- A DOE or MCTP SPDM response, and DOE Error (R493). -/
  | spdm (doe : Bool) (data : Bytes)
  | doeError
  /-- Link training, retraining and site training started (R353, R376). -/
  | train (link : Nat) (saved : Bool)
  | siteTrain (site : Nat)
  /-- The request to the management cores to flush or restart (R259, R601). -/
  | coresFlush
  | coresRestart (new : Bool)
  /-- The 200 ns pulse of a tick on TURN_OUT (R615). -/
  | turnPulse
  deriving DecidableEq, Repr

/-! ### Fuses, ROM and one-time-programmable bits -/

/-- What the factory fixed in the die. A cold reset keeps it (Table 17-1); no command changes it. -/
structure Fuses where
  /-- UNIT_ID | 256 | 16_registers, R506 | DESIGN CHOICE 0 -/
  unitId : Nat
  /-- DEV_REV.SILICON | 8 | 16_registers, R506 | DESIGN CHOICE 0 -/
  silicon : Nat
  /-- DEV_REV.BOLTER, the Bolter revision | 8 | 16_registers, R506, R95 | DESIGN CHOICE 0 -/
  bolter : Nat
  /-- Arrays to exclude | 288 | 17_bring_up, R516 | DESIGN CHOICE none -/
  excluded : List Nat
  /-- VARR_SET | 6 | 13_power_energy, R416 | DESIGN CHOICE 0 -/
  varrSet : Nat
  /-- TRIM codes per domain | 16 x 4 | 13_power_energy, R416 | DESIGN CHOICE 0 -/
  trim : Tbl Nat
  /-- TRIM_PS per domain | 16 x 8 | 18_reliability, R550 | DESIGN CHOICE 0 -/
  trimPs : Tbl Nat
  /-- STEP_PS per domain | 16 x 8 | 18_reliability, R550 | DESIGN CHOICE 0 -/
  stepPs : Tbl Nat
  /-- Helymon life-cycle key hash in the RTP ROM | 384 | 19_security, R573 | DESIGN CHOICE 0 -/
  lcKeyHash : Nat
  /-- Helymon firmware key hash in the RTP ROM | 384 | 20_firmware_update, R592 | DESIGN CHOICE 0 -/
  fwKeyHash : Nat
  /-- Product CA public key in the RTP ROM, X then Y | 768 | 19_security, R584 | DESIGN CHOICE 0 -/
  caKey : Nat
  /-- Device public key, X then Y | 768 | 19_security, R565 | DESIGN CHOICE 0 -/
  deviceKey : Nat
  /-- Endorsement: product CA signature, r then s | 768 | 19_security, R565 | DESIGN CHOICE 0 -/
  endorsement : Nat
  /-- Bin and Granary row repairs, Leat lane maps, UCIe lane repairs | - | 17_bring_up, R516 | DESIGN CHOICE none -/
  rowRepairs : List Nat
  laneMaps : List Nat
  siteRepairs : List Nat
  /-- Subsystem ID | 16 | 15_host_endpoint, R473 | DESIGN CHOICE 0 -/
  subsystem : Nat
  deriving DecidableEq, Repr

/-- One-time-programmable bits that the RTP writes (R570-R572). -/
structure Otp where
  /-- Seal count bits | 16 | 19_security, R570 | DESIGN CHOICE 0x000F (DEPLOYED) -/
  sealBits : BitVec 16
  /-- OWNER_KEY_HASH | 384 | 19_security, R573 | DESIGN CHOICE 0 -/
  ownerHash : Nat
  /-- OWNER_KEY: OWNER_KEY_HASH written | 1 | 19_security, R586 | DESIGN CHOICE true (as DEPLOYED) -/
  ownerWritten : Bool
  deriving DecidableEq, Repr

/-! ### Pins -/

/-- Levels and latches at the reset, alarm and Turn pins (Tables 21-7, 17-1). -/
structure Pins where
  /-- PWROK high | 1 | 17_bring_up, R510 | false: reset is before PWROK rises -/
  pwrok : Bool
  /-- PERST# low | 1 | 17_bring_up, R510 | DESIGN CHOICE false -/
  perstLow : Bool
  /-- WARM_RST# low | 1 | 17_bring_up, R511 | DESIGN CHOICE false -/
  warmLow : Bool
  /-- THERMTRIP# latched | 1 | 13_power_energy, R436 | 0 -/
  thermtrip : Bool
  /-- REPLACE_REQ# cause bits | 5 | 18_reliability, R555 | 0 -/
  replace : BitVec 5
  /-- Turn of the first REPLACE assertion | 48 | 18_reliability, R554 | 0 -/
  replaceTurn : Nat
  /-- The replacement MCTP message is being repeated | 1 | 18_reliability, R556 | 0 -/
  replaceMsg : Bool
  /-- A rail has been out of band for four samples | 1 | 21_electrical, R612 | 0 -/
  railOut : Bool
  /-- Consecutive out-of-band samples per sense point | 64 x 3 | 21_electrical, R612 | 0 -/
  railCount : Tbl Nat
  /-- Test observe selected onto TURN_OUT, in force | 1 | 21_electrical, R616 | 0 -/
  observe : Bool
  /-- Test observe selection asked for, taking effect at the next tick | 1 | 21_electrical, R616 | 0 -/
  observeNext : Bool
  /-- TURN_OUT driven low for one whole Turn after observe | 1 | 21_electrical, R616 | 0 -/
  turnOutQuiet : Bool
  deriving DecidableEq, Repr

/-! ### Bring-up -/

/-- BOOT_STAT and what the sequence leaves (R527, R530). -/
structure Boot where
  /-- DEV_STAT.READY | 1 | 16_registers, R506 | 0 -/
  ready : Bool
  /-- DEV_STAT.FATAL | 1 | 16_registers, R506, R535 | 0 -/
  fatal : Bool
  /-- DEV_STAT.BANK, the bank running | 1 | 16_registers, R506 | Boot: DESIGN CHOICE 0 -/
  bank : Nat
  /-- STEP | 4 | 17_bring_up, R530 | 0 -/
  step : Nat
  /-- KIND | 2 | 17_bring_up, R530 | 0 -/
  kind : Nat
  /-- FALLBACK | 1 | 17_bring_up, R530 | 0 -/
  fallback : Bool
  /-- HBM_SAVED | 1 | 17_bring_up, R530 | 0 -/
  hbmSaved : Bool
  /-- LEAT_SAVED | 1 | 17_bring_up, R530 | 0 -/
  leatSaved : Bool
  /-- LEAT_CFG | 1 | 17_bring_up, R530 | 0 -/
  leatCfg : Bool
  /-- BLOCKED | 1 | 17_bring_up, R530 | 0 -/
  blocked : Bool
  /-- KAT_FAIL | 8 | 17_bring_up, R530 | 0 -/
  katFail : Nat
  /-- BER_FAIL | 8 | 17_bring_up, R530 | 0 -/
  berFail : Nat
  /-- BOOT_TIME | 32 | 17_bring_up, R530 | 0 -/
  time : Nat
  /-- BOOT_STEP1-13 | 13 x 32 | 17_bring_up, R530 | 0 -/
  stepTime : Tbl Nat
  /-- The management cores run a verified section | 1 | 17_bring_up, R527 | 0 -/
  coresRun : Bool
  /-- The RTP's recovery service alone answers (no bank verifies) | 1 | 20_firmware_update, R599 | 0 -/
  recovery : Bool
  /-- Steps 11 and 12 have completed since PWROK rose | 1 | 17_bring_up, R512 | 0 -/
  checksDone : Bool
  /-- Exclusion list | 288 | 17_bring_up, R517 | none -/
  excluded : List Nat
  deriving DecidableEq, Repr

/-! ### Turn unit -/

/-- The Turn timer, its registers (Table 16-6) and stretch state. -/
structure TurnUnit where
  /-- TURN_CTL.SRC | 2 | 16_registers, R507, R84 | 1 -/
  src : Nat
  /-- TURN_CTL.TURN_OUT_EN | 1 | 16_registers, R507 | 0 -/
  outEn : Bool
  /-- TURN_CTL.CFG_LOCK | 1 | 16_registers, R507, R502 | 0 -/
  cfgLock : Bool
  /-- TURN_COUNT | 48 | 02_turn, R43 | 0 -/
  count : Nat
  /-- Bucket in progress | 7 | 02_turn, R40 | 0 -/
  bucket : Nat
  /-- ALIGNED | 1 | 02_turn, R90 | 0 -/
  aligned : Bool
  /-- HEADRACE: this hub is the Headrace | 1 | 02_turn, R85 | 0 -/
  isHeadrace : Bool
  /-- PARAM_MISMATCH | 1 | 02_turn, R91 | 0 -/
  mismatch : Bool
  /-- HOPS | 8 | 16_registers, R507 | 0 -/
  hops : Nat
  /-- STRETCHES | 32 | 02_turn, R83 | 0 -/
  stretches : Nat
  /-- STRETCH_TIME | 32 | 02_turn, R83 | 0 -/
  stretchTime : Nat
  /-- IN_OFFSET | 32 signed | 02_turn, R87 | 0 -/
  inOffset : Int
  /-- TURN_HEADRACE.HUB | 17 | 16_registers, R507 | 0 -/
  headrace : Nat
  /-- SERDES_REFCLK present and PLL locked | 1 | 02_turn, R84 | DESIGN CHOICE true -/
  refclk : Bool
  /-- Consecutive good TURN_IN edges | 5 | 02_turn, R84 | 0 -/
  edges : Nat
  /-- F, notice time in 0.2 us units | 8 | 02_turn, R79 | 0 -/
  f : Nat
  /-- U, stretch unit in buckets | 8 | 02_turn, R79 | 0 -/
  u : Nat
  /-- Largest k received for this Turn's tick and not yet applied | 8 | 02_turn, R81 | 0 -/
  kNow : Nat
  /-- The hub that asked for it | 17 | 02_turn, R83 | 0 -/
  kHub : Nat
  /-- Stretch units added to this Turn so far | 8 | 02_turn, R81 | 0 -/
  kSum : Nat
  /-- Time added to this Turn so far, in 0.2 us units | 16 | 14_commands, R459 | 0 -/
  stretchNow : Nat
  /-- The Turn is in a stretch segment, after B127 | 1 | 02_turn, R81 | 0 -/
  inStretch : Bool
  /-- Stretch requests forwarded: Turn count and k | - | 11_leat_links, R363 | none -/
  forwarded : List (Nat × Nat)
  /-- The commit window of this Turn has opened | 1 | 02_turn, R77 | 0 -/
  commit : Bool
  /-- In holdover | 1 | 02_turn, R90 | 0 -/
  holdover : Bool
  /-- Parent link of the alignment | 6 | 02_turn, R88 | none -/
  parent : Option Nat
  /-- Markers heard in this Turn and the last: link, HOPS, SYS_MIN, Headrace | - | 11_leat_links, R364 | none -/
  heard : Tbl (Nat × Nat × Nat)
  heardLast : Tbl (Nat × Nat × Nat)
  /-- Consecutive markers per link more than 25 ns off the parent | 64 x 2 | 11_leat_links, R362 | 0 -/
  offCount : Tbl Nat
  /-- PROTO_FLOOR.SYS_MIN | 16 | 11_leat_links, R364 | 0 -/
  sysMin : Nat
  /-- Measured record of the last completed Turn: tariff version, count, stretch, busy marks | - | 14_commands, R459 | none -/
  lastRecord : Option (Nat × Nat × Nat)
  /-- Resources that worked, by bucket, resource and the partition they worked for, in this Turn and the last completed one |
  - | 02_turn, R94 | none -/
  busyNow : List (Nat × Nat × Nat)
  busyLast : List (Nat × Nat × Nat)
  /-- Time since reset in 0.2 us units, stretches included | - | 18_reliability, R551 | 0 -/
  elapsed : Nat
  deriving DecidableEq, Repr

/-! ### Posted settings -/

/-- A window entry (Table 8-7). -/
structure Window where
  valid : Bool
  prio : Nat
  read : Bool
  write : Bool
  atomic : Bool
  sizeLog2 : Nat
  part : Nat
  srcHub : Nat
  srcMask : Nat
  inBase : Nat
  outBase : Nat
  deriving DecidableEq, Repr

/-- A route override (Table 11-8). -/
structure Route where
  valid : Bool
  prio : Nat
  dim : Nat
  negative : Bool
  dest : Nat
  mask : Nat
  deriving DecidableEq, Repr

/-- A share table entry (Table 9-6). -/
structure Share where
  valid : Bool
  owner : Nat
  prio : Nat
  wayQuota : Nat
  reqSlots : Nat
  bulkSlots : Nat
  latBin : Nat
  missMax : Nat
  deriving DecidableEq, Repr

/-- Everything that changes only by posting (Tables 14-10, 19-2). -/
structure Settings where
  /-- BUCKET_LEN.N | 7 | 02_turn, R40 | 4 -/
  bucketLen : Nat
  /-- TAILRACE_LEN.M | 6 | 02_turn, R41 | 8 -/
  tailraceLen : Nat
  /-- SCRATCH_WAYS | 5 | 06_memory, R206 | 4 -/
  scratchWays : Nat
  /-- Way owners | 16 x 4 | 06_memory, R206 | partition 0 -/
  wayOwner : Tbl Nat
  /-- Directory way owners | 16 x 4 | 07_coherence, R244 | partition 0 -/
  dirOwner : Tbl Nat
  /-- Share table | 64 x 64 | 09_fabric, R302 | classes 0 and 63 as R302, others invalid -/
  share : Tbl Share
  /-- FAB_CTL.SHARE_WINDOW | 11 | 09_fabric, R309 | 16 -/
  shareWindow : Nat
  /-- XLATE_CTL.REMOTE_MODE: WINDOW | 1 | 08_translation, R285 | 1 -/
  windowMode : Bool
  /-- WIN0-WIN63 | 64 x 256 | 08_translation, R287 | 0 -/
  window : Tbl Window
  /-- Route overrides | 64 x 64 | 11_leat_links, R359 | 0 -/
  route : Tbl Route
  /-- PROTO_FLOOR.FLOOR | 16 | 16_registers, R506 | 1 -/
  protoFloor : Nat
  /-- Owner tables: (type x 256 + index) x 128 + bucket to partition, 16 for none | 420 x 128 x 5 | 02_turn, R48 | partition 0 -/
  owner : Tbl Nat
  /-- Energy shares: (partition x 8 + group) x 128 + bucket, 0.1 W; 0xFFFF the remainder | 16 x 8 x 128 x 16 | 02_turn, R69 | 0xFFFF for partition 0, else 0 -/
  energy : Tbl Nat
  /-- Slope shares: partition x 8 + group, 0.1 A | 16 x 8 x 9 | 13_power_energy, R429 | 240 for partition 0, else 0 -/
  slope : Tbl Nat
  /-- Mesh weights: partition x 128 + bucket | 16 x 128 x 6 | 09_fabric, R306 | 60 for partition 0, else 0 -/
  weight : Tbl Nat
  /-- SEAL: partitions sealed | 16 | 19_security, R583 | 0 -/
  sealed : Tbl Nat
  /-- SITE_PART | 12 x 4 | 12_open_sites, R390 | 0 -/
  sitePart : Tbl Nat
  /-- SITE_RATE | 12 | 12_open_sites, R390 | 8 -/
  siteRate : Tbl Nat
  /-- SITE_CACHE | 12 | 12_open_sites, R390 | 0 -/
  siteCache : Tbl Nat
  /-- SITE_SHARE | 12 x 6 | 12_open_sites, R390 | 0 -/
  siteShare : Tbl Nat
  /-- SITE_RESERVE | 12 x 16 | 12_open_sites, R390 | 1,500 -/
  siteReserve : Tbl Nat
  /-- SITE_MAX | 12 x 16 | 12_open_sites, R390 | 2,500 -/
  siteMax : Tbl Nat
  /-- PURSE_ALLOWANCE | 16 | 12_open_sites, R390 | 18,000 -/
  purse : Nat
  /-- TRIM codes in force | 16 x 4 | 13_power_energy, R416 | fused or recorded codes at cold start; DESIGN CHOICE 0 before it -/
  trim : Tbl Nat
  /-- FREQ_STEP in force | 16 x 4 | 02_turn, R62 | Flash; DESIGN CHOICE 0 -/
  freqStep : Tbl Nat
  deriving DecidableEq, Repr

/-- A staged item (Table 14-9). -/
structure Item where
  item : Nat
  index : Nat
  value : Bytes
  deriving DecidableEq, Repr

/-- Where a reply goes: the command's own number, source, tag, opcode and NO_IRQ (Table 14-4). -/
structure ReplyTo where
  id : Nat
  source : Nat
  tag : Nat
  opcode : Nat
  noIrq : Bool
  deriving DecidableEq, Repr

/-- The four states of a staging set (R460). -/
inductive SetState where
  | empty | opened | checked | posted
  deriving DecidableEq, Repr

/-- A staging set (R460). `order` is its order of acceptance; `deferred` says that a rule of its items holds it past
its Turn (R465). -/
structure StageSet where
  state : SetState
  items : List Item
  turn : Nat
  order : Nat
  reply : Option ReplyTo
  deferred : Bool
  deriving DecidableEq, Repr

/-! ### Fault ledger and events -/

/-- A ledger entry (Table 18-1). -/
structure LedgerEntry where
  seq : Nat
  cls : Nat
  flags : Nat
  count : Nat
  turn : Nat
  bucket : Nat
  unitKind : Nat
  unitIndex : Nat
  part : Option Nat
  task : Nat
  addr : Nat
  d0 : Nat
  d1 : Nat
  d2 : Nat
  d3 : Nat
  deriving DecidableEq, Repr

/-- The fault ledger (R531-R534). -/
structure Ledger where
  /-- LEDGER_HEAD | 32 | 18_reliability, R538 | 0 -/
  head : Nat
  /-- LEDGER_TAIL | 32 | 18_reliability, R538 | 0 -/
  tail : Nat
  /-- Ledger slots written, oldest first; entry s lies in slot s mod 1,024 | 1,024 x 512 | 18_reliability, R531 | none -/
  entries : List LedgerEntry
  /-- Overflow counters per class | 256 x 32 | 18_reliability, R532 | 0 -/
  ovf : Tbl Nat
  /-- DEV_STAT.LEDGER_OVF | 1 | 16_registers, R506 | 0 -/
  ovfFlag : Bool
  /-- Open groups by class + 256 x the descriptor they belong to (0: a count group): events so far, whether any carried RETIRE_ADVISED, first entry | - | 18_reliability, R534 | none -/
  groups : Tbl (Nat × Bool × LedgerEntry)
  deriving DecidableEq, Repr

/-- A sequence-clear status register (R500, R501): SEQ, the stamps of the event bits that are set, the value field,
and its paired clear register. -/
structure Sqc where
  seq : Nat
  stamps : Tbl Nat
  value : Nat
  clr : Nat
  deriving DecidableEq, Repr

/-- Event registers of one source (Table 16-7). -/
structure EvtRegs where
  /-- EVT_STATf and EVT_CLRf | 32, 8 | 16_registers, R508 | 0 -/
  stat : Sqc
  /-- EVT_ENf | 13 | 16_registers, R508 | 0 -/
  en : BitVec 13
  /-- EVT_VECf | 11 | 16_registers, R508 | 0 -/
  vec : Nat
  deriving DecidableEq, Repr

/-- Events, and the registers of the identity and global block that software writes. -/
structure Global where
  /-- EVT_ registers per source | 17 x 4 x 32 | 16_registers, R508 | 0 -/
  evt : Tbl EvtRegs
  /-- FAB_MISS_STAT and FAB_MISS_CLR | 32, 8 | 09_fabric, R311 | 0 -/
  fabMiss : Sqc
  /-- TALLY_DL_STAT and TALLY_DL_CLR | 32, 8 | 10_tallies_dma, R338 | 0 -/
  tallyDl : Sqc
  /-- GLB_CTL.CFG_LOCK | 1 | 16_registers, R506 | 0 -/
  cfgLock : Bool
  /-- XLATE_CTL.CFG_LOCK | 1 | 08_translation, R292 | 0 -/
  xlateLock : Bool
  /-- PW_DROP | 4 | 16_registers, R506 | 0 -/
  pwDrop : BitVec 4
  /-- Posted write in progress per block (the BUSY bits): offset and value | 4 | 16_registers, R504 | 0 -/
  posted : List (PostedBlock × Nat × Nat)
  /-- TARIFF_VER | 32 | 16_registers, R506 | 1 -/
  tariffVer : Nat
  /-- A tariff change awaits the next Turn boundary | 1 | 02_turn, R65 | 0 -/
  tariffDirty : Bool
  deriving DecidableEq, Repr

/-! ### Command channel -/

/-- A command that has been fetched and not started. -/
structure Fetched where
  opcode : Nat
  packet : Packet
  deriving DecidableEq, Repr

/-- A started command that has not posted its final reply (R446, R454): `interim` once its interim reply is out. -/
structure Started where
  reply : ReplyTo
  interim : Bool
  deriving DecidableEq, Repr

/-- Registers and ring state of one source (Tables 14-2, 14-13 to 14-15). -/
structure Chan where
  /-- CMD_RING_BASE.SQ_BASE | 52 | 14_commands, R469 | 0 -/
  sqBase : Nat
  /-- CMD_CQ_BASE | 52 | 14_commands, R469 | 0 -/
  cqBase : Nat
  /-- ENABLE | 1 | 14_commands, R469 | 0 -/
  enable : Bool
  /-- SQ_LOG2 | 5 | 14_commands, R469 | 6 -/
  sqLog2 : Nat
  /-- CQ_LOG2 | 5 | 14_commands, R469 | 7 -/
  cqLog2 : Nat
  /-- IRQ_EN | 1 | 14_commands, R469 | 0 -/
  irqEn : Bool
  /-- VECTOR | 11 | 14_commands, R469 | 0 -/
  vector : Nat
  /-- SQ_HEAD | 16 | 14_commands, R469 | 0 -/
  sqHead : Nat
  /-- SQ_TAIL doorbell | 16 | 14_commands, R445 | 0 -/
  sqTail : Nat
  /-- CQ_HEAD doorbell | 17 | 14_commands, R445 | 0 -/
  cqHead : Nat
  /-- Completion tail | 17 | 14_commands, R446 | 0 -/
  cqTail : Nat
  /-- Replies written and not yet released | 18 | 14_commands, R444 | 0 -/
  cqUsed : Nat
  /-- Phase of the next reply | 1 | 14_commands, R444 | 1 -/
  phase : Bool
  /-- ERROR and ERR_CAUSE, 0 for none | 1, 3 | 14_commands, R469 | 0 -/
  errCause : Nat
  /-- Fetching has stopped on an error | 1 | 14_commands, R447 | 0 -/
  stopped : Bool
  /-- Commands fetched and not started, oldest first | - | 14_commands, R446 | none -/
  fetched : List Fetched
  /-- Started commands without a final reply (IN_FLIGHT) | 7 | 14_commands, R456 | none -/
  started : List Started
  /-- Replies held for want of a free completion entry or during the service pause, with NO_IRQ | - | 14_commands, R444, R458 | none -/
  held : List (Bytes × Bool)
  deriving DecidableEq, Repr

/-- The command channel of all eighteen sources and the staging sets. -/
structure Commands where
  /-- Sources 0-16 | - | 14_commands, R469 | Chan reset -/
  chan : Tbl Chan
  /-- Started MCTP commands, at most eight | 4 | 14_commands, R448 | none -/
  mctp : List Started
  /-- Fetched MCTP commands not started | - | 14_commands, R448 | none -/
  mctpFetched : List Fetched
  /-- Commands started so far, which numbers them (the model's own field) | - | 14_commands, R456 | 0 -/
  started : Nat
  /-- An endpoint has issued a command on source 17 | 1 | 18_reliability, R556 | 0 -/
  mctpPeer : Bool
  /-- Staging sets: source x 4 + set for sources 0 and 1, and from 8 on Kyohar's own, two for each array domain | 40 | 14_commands, R460, R552 | empty -/
  sets : Tbl StageSet
  /-- Postings accepted so far, for their order | - | 14_commands, R465 | 0 -/
  postings : Nat
  deriving DecidableEq, Repr

/-! ### Plans -/

/-- A resource of Table 2-2, by type code and index (R44). -/
structure Res where
  type : Nat
  index : Nat
  deriving DecidableEq, Repr

/-- The fields every descriptor carries (R55, R145). -/
structure Common where
  type : Nat
  len : Nat
  task : Nat
  waitEn : Bool
  waitTally : Nat
  waitN : Nat
  waitSub : Bool
  raiseEn : Bool
  raiseTally : Nat
  raiseAmount : Nat
  iterFirst : Nat
  iterCount : Nat
  iterMod : Nat
  deriving DecidableEq, Repr

/-- A pass descriptor (Table 4-4). -/
structure PassD where
  anchor : Int
  inFmt : Nat
  wFmt : Nat
  outFmt : Nat
  bank : Nat
  alt : Bool
  cont : Bool
  shoe : Bool
  preload : Bool
  inner : Nat
  outer : Nat
  vecs : Nat
  inBase : Nat
  inStepK : Nat
  inStepO : Nat
  inStepI : Nat
  wBase : Nat
  wStepK : Nat
  wStepO : Nat
  wStepI : Nat
  outBase : Nat
  outStepO : Nat
  outStepI : Nat
  outPitch : Nat
  status : Nat
  deriving DecidableEq, Repr

/-- A WLOAD (Table 4-5). -/
structure WloadD where
  wFmt : Nat
  wBase : Nat
  wStepI : Nat
  status : Nat
  deriving DecidableEq, Repr

/-- A DRAIN (Table 4-6). -/
structure DrainD where
  bank : Nat
  outFmt : Nat
  rows : Nat
  outBase : Nat
  outStepI : Nat
  outPitch : Nat
  status : Nat
  deriving DecidableEq, Repr

/-- A SHOE_HEAD (Table 4-9). -/
structure ShoeHeadD where
  maxBatches : Nat
  complLog2 : Nat
  complBase : Nat
  status : Nat
  deriving DecidableEq, Repr

/-- A BOLT (Table 4-7). -/
structure BoltD where
  anchor : Int
  srcA : Nat
  srcB : Nat
  aFmt : Nat
  bFmt : Nat
  outFmt : Nat
  bf16 : Bool
  axis : Bool
  k : Nat
  rows : Nat
  cols : Nat
  aOff : Nat
  aPitch : Nat
  bOff : Nat
  bPitch : Nat
  outOff : Nat
  outPitch : Nat
  stepI : Nat
  status : Nat
  deriving DecidableEq, Repr

/-- A reduction descriptor (Table 5-6). -/
structure RedD where
  anchor : Int
  srcKind : Nat
  outFmt : Nat
  compact : Bool
  count : Nat
  src : Nat
  dst : Nat
  srcStepI : Nat
  dstStepI : Nat
  status : Option Nat
  raiseHub : Option Nat
  deriving DecidableEq, Repr

/-- A DMA_COPY (Table 10-4) or a DMA_FILL (Table 10-5), which has a pattern and no source. -/
structure DmaD where
  fill : Option Nat
  hint : Nat
  target : Nat
  srcHost : Bool
  dstHost : Bool
  src : Nat
  dst : Nat
  rowBytes : Nat
  rows : Nat
  planes : Nat
  srcRow : Nat
  dstRow : Nat
  srcPlane : Nat
  dstPlane : Nat
  srcStepI : Nat
  dstStepI : Nat
  status : Option Nat
  raiseHub : Option Nat
  deriving DecidableEq, Repr

/-- A TALLY_OP (Table 10-6). -/
structure TallyOpD where
  sub : Bool
  hub : Option Nat
  tally : Nat
  amount : Nat
  deriving DecidableEq, Repr

/-- A SITE_CALL (Table 12-7). -/
structure SiteD where
  args : Bytes
  inVa : Option Nat
  inLen : Nat
  outVa : Option Nat
  outLen : Nat
  status : Option Nat
  raiseHub : Option Nat
  units : Nat
  stepI : Nat
  deriving DecidableEq, Repr

/-- What a descriptor does besides its common fields. -/
inductive Body where
  | pass (d : PassD)
  | wload (d : WloadD)
  | drain (d : DrainD)
  | shoeHead (d : ShoeHeadD)
  | sync
  | bolt (d : BoltD)
  | red (d : RedD)
  | dma (d : DmaD)
  | tallyOp (d : TallyOpD)
  | site (d : SiteD)
  deriving DecidableEq, Repr

/-- A descriptor, with its offset in its pool. -/
structure Desc where
  off : Nat
  c : Common
  b : Body
  deriving DecidableEq, Repr

/-- A slot record with its descriptors (R54). -/
structure Slot where
  res : Res
  ctx : Nat
  shoe : Bool
  descs : List Desc
  deriving DecidableEq, Repr

/-- One bucket-table entry as PLAN_LOAD accepted it: idle, or owned with its slot number (R46). -/
structure ResTable where
  res : Res
  entries : List (Option Nat)
  deriving DecidableEq, Repr

/-- A transit claim (R56). -/
structure Transit where
  port : Nat
  bucket : Nat
  bytes : Nat
  deriving DecidableEq, Repr

/-- States of a plan handle other than free (R58). -/
inductive PlanState where
  | loaded | admitted | active
  deriving DecidableEq, Repr

/-- A plan held under a handle (R52, R58). -/
structure Plan where
  part : Nat
  store : Nat
  totalLen : Nat
  bucketLen : Nat
  tailraceLen : Nat
  tariffVer : Nat
  tables : List ResTable
  slots : List Slot
  transits : List Transit
  state : PlanState
  /-- Marked unfit (R78). -/
  unfit : Bool
  /-- Handle named for takeover (R49). -/
  takeover : Option Nat
  /-- Turn at which the plan became ACTIVE (R146). -/
  tAct : Nat
  /-- Activation pending: Turn, handle to retire, where the final reply goes (R59). -/
  pendAct : Option (Nat × Option Nat × ReplyTo)
  /-- Retirement pending: Turn, and the reply of a PLAN_RETIRE (R59). -/
  pendRet : Option (Nat × Option ReplyTo)
  deriving DecidableEq, Repr

/-- The rail costs of a tariff entry for one rail group (Table 2-8). -/
structure RailCost where
  baseNj : Nat
  unitPj : Nat
  peakCw : Nat
  deriving DecidableEq, Repr

/-- The plan store table and the tariff's energy figures. -/
structure Plans where
  /-- Plan handles | 64 | 02_turn, R58 | free -/
  plan : Tbl Plan
  /-- Energy figures of the tariff, by ((type x 256 + domain) x 16 + step) x 8 + group | - | 02_turn, R63 | DESIGN CHOICE none: zero -/
  energy : Tbl RailCost
  /-- Idle energy per 0.2 us that a site in service at 16 GT/s adds to its domain's idle entry, by site x 8 + group, in nJ | - |
  01_architecture, R38 | DESIGN CHOICE none: zero -/
  fast : Tbl Nat
  /-- Lanes that the capacity records of the ports count, by link | 64 x 3 | 02_turn, R64, R65 | 0 -/
  linkRec : Tbl Nat
  /-- Pseudo-channels lost that the capacity records count, by channel group | 16 x 5 | 06_memory, R233 | 0 -/
  pcRec : Tbl Nat
  /-- Host rate code and width that the host entries are built for | 2, 5 | 15_host_endpoint, R471 | 3, 16 (64 GT/s x16) -/
  hostRec : Nat × Nat
  /-- Spares designated to the four domain groups | 4 x 9 | 02_turn, R70 | none -/
  designated : Tbl Nat
  deriving DecidableEq, Repr

/-! ### Memory -/

/-- One of the eight HBM stacks (Table 6-8). -/
structure Stack where
  /-- RATE | 3 | 06_memory, R237 | 0 -/
  rate : Nat
  /-- HEIGHT: 12-high | 1 | 06_memory, R237 | 0 -/
  high12 : Bool
  /-- TRAINED | 1 | 06_memory, R237 | 0 -/
  trained : Bool
  /-- SAVED | 1 | 06_memory, R237 | 0 -/
  saved : Bool
  /-- CATTRIP | 1 | 06_memory, R225 | 0 -/
  cattrip : Bool
  /-- TEMP | 8 | 06_memory, R237 | 0 -/
  temp : Nat
  /-- HBM_PC_LOSTn: pseudo-channels lost | 32 | 06_memory, R233 | 0 -/
  pcLost : List Nat
  /-- Pseudo-channels lost from the next Turn boundary on | 32 | 06_memory, R233 | none -/
  pcNext : List Nat
  deriving DecidableEq, Repr

/-- A line held in a Granary cache way (R209-R213, R303): line number, way, class, dirty; newest use first in the
list that holds them. -/
structure CacheLine where
  line : Nat
  way : Nat
  cls : Nat
  dirty : Bool
  deriving DecidableEq, Repr

/-- A poison record (Table 6-5). -/
structure PoisonRec where
  addr : Nat
  source : Nat
  symbols : Nat
  turn : Nat
  deriving DecidableEq, Repr

/-- A deed entry (Table 8-5). -/
inductive DeedKind where
  | none | owned | shared
  deriving DecidableEq, Repr

structure Deed where
  kind : DeedKind
  owner : Nat
  members : BitVec 16
  memberWrite : Bool
  deriving DecidableEq, Repr

/-- A DEED_SET on its way (R283): run, entry, earliest Turn, whether it still zeroes. -/
structure DeedMove where
  first : Nat
  count : Nat
  deed : Deed
  turn : Nat
  zeroing : Bool
  /-- The hub has reported that it has written the zeros. -/
  zeroed : Bool
  reply : ReplyTo
  deriving DecidableEq, Repr

/-- HBM, Granary and bins. -/
structure Mem where
  /-- HBM, scratch and bin bytes, canonical | up to 288 GiB + 8 GiB + 9 GiB | 06_memory, R204, R514 | zero -/
  cells : List Host.Cell
  /-- Poisoned 64-byte units | 1 per 64 bytes | 06_memory, R204 | none -/
  poison : List Nat
  /-- Poison records | - | 06_memory, R235 | none -/
  records : List PoisonRec
  /-- Corrections per 64-byte unit since reset | - | 06_memory, R227 | 0 -/
  corrected : Tbl Nat
  /-- HBM stacks | 8 | 06_memory, R237 | untrained -/
  hbm : Tbl Stack
  /-- Retired pages, PA / 64 KiB | 4,096 | 06_memory, R234 | none -/
  retired : List Nat
  /-- Epoch of each Granary slice (Table 17-3) | 64 x 8 | 17_bring_up, R528 | 0 -/
  sliceEpoch : Tbl Nat
  /-- MEM_SCRUB interval in hours | 10 | 06_memory, R232 | 24 -/
  scrubHours : Nat
  /-- Cache lines held, most recently used first | - | 06_memory, R209 | none -/
  cache : List CacheLine
  /-- Victim entries: dirty lines that wait for HBM, each with the class that allocated it | 64 x 16 x 32 | 06_memory, R212, R300 | none -/
  victims : List CacheLine
  /-- GRAN_WAYS.DRAINING | 16 | 06_memory, R217 | 0 -/
  draining : List Nat
  /-- Deeds by granule PA / 2 MiB | 155,648 x 32 | 08_translation, R280 | NONE -/
  deeds : Tbl Deed
  /-- DEED_SETs not yet in effect | - | 08_translation, R283 | none -/
  moves : List DeedMove
  deriving DecidableEq, Repr

/-! ### Coherence -/

/-- A caching agent (Table 7-5). Its partition and enable follow the settings. -/
structure Agent where
  /-- FENCED | 1 | 07_coherence, R258 | 0 -/
  fenced : Bool
  /-- FLUSHED | 1 | 07_coherence, R259 | 0 -/
  flushed : Bool
  /-- A flush has been asked for and not answered | 1 | 07_coherence, R259 | 0 -/
  flushing : Bool
  /-- LATE_SNOOPS | 8 | 07_coherence, R257 | 0 -/
  late : Nat
  /-- STASH_DROP | 8 | 07_coherence, R251 | 0 -/
  stashDrop : Nat
  /-- EPOCH | 8 | 07_coherence, R262 | 0 -/
  epoch : Nat
  deriving DecidableEq, Repr

/-- A directory entry (R243): way, home state O (else S), holders. -/
structure DirEntry where
  way : Nat
  owned : Bool
  holders : List Nat
  deriving DecidableEq, Repr

/-- A Granary atomic operation with its operands (Table 5-3); `put` is the PUT of a cell, with the cause it carries when its
source was in error (R188). -/
inductive AtomOp where
  | mintInit (anchor : Int)
  | mintAdd (w : MintWord)
  | mintRead
  | put (w : MintWord) (err : Option Nat)
  | iadd (w64 fetch : Bool) (v : Nat)
  | cas (w64 : Bool) (cmp new : Nat)
  | fpick (isMax bf16 : Bool) (v : Nat)
  deriving DecidableEq, Repr

/-- What a home transaction is for. A caching request carries what the check of the line's bytes will find. `evict` takes a victim's
entry, `clear` empties a granule's line, `stashTo` is an offer and `stashIn` enters an accepted one; `purge` snoops for a request of
another unit, with SNP_S where it only reads. `visit` never opens: it is such a request's place in the order of its line (R242), by
the number of its arrival. -/
inductive TxnKind where
  | rdS (agent : Nat) (ecc : EccResult)
  | rdO (agent : Nat) (ecc : EccResult)
  | upg (agent : Nat) (ecc : EccResult)
  | flush (agent : Nat)
  | evict
  | clear
  | stashTo (agent : Nat)
  | stashIn (agent : Nat)
  | purge (share : Bool)
  | visit (num : Nat) (share : Bool)
  deriving DecidableEq, Repr

/-- The open transaction of a line (R242): agents whose responses are awaited, dirty data returned, a WB held with it,
agents that answered RSP_I_INFLIGHT. -/
structure Txn where
  line : Nat
  kind : TxnKind
  awaiting : List Nat
  dirty : Option Bytes
  wb : Option (Nat × Bytes)
  inflight : Option Nat
  keepS : List Nat
  deriving DecidableEq, Repr

/-- The directory and its transactions. -/
structure Coh where
  /-- Agents 0-15 | 16 x 32 | 07_coherence, R262 | COH_AGENT reset -/
  agent : Tbl Agent
  /-- Directory entries by line PA / 128 | 64 x 1,024 x 16 | 07_coherence, R243 | none -/
  dir : Tbl DirEntry
  /-- Open transactions | - | 07_coherence, R242 | none -/
  txns : List Txn
  /-- Requests that wait at their slice, in order of arrival | - | 07_coherence, R242 | none -/
  waiting : List (Nat × TxnKind)
  /-- Hold windows running: agent and line | - | 07_coherence, R256 | none -/
  hold : List (Nat × Nat)
  /-- STASH offers not yet answered: agent and line | - | 07_coherence, R251 | none -/
  offers : List (Nat × Nat)
  /-- DirtyEvicts whose data has not arrived: site and line | - | 07_coherence, R261 | none -/
  evicts : List (Nat × Nat)
  /-- Directory ways being emptied by a posting | 16 | 07_coherence, R245 | none -/
  emptying : List Nat
  deriving DecidableEq, Repr

/-! ### Translation -/

/-- A context record (Table 8-1). -/
structure Ctx where
  bound : Bool
  part : Nat
  root : Nat
  epoch : Nat
  deriving DecidableEq, Repr

/-- A cached translation of one unit (R273): context, virtual page base, page size, physical base, permissions. -/
structure Xent where
  ctx : Nat
  va : Nat
  size : Nat
  pa : Nat
  read : Bool
  write : Bool
  atomic : Bool
  coherent : Bool
  deriving DecidableEq, Repr

/-- A cached non-leaf entry (R274): context, the range that it maps, and the table that it names. -/
structure Xnode where
  ctx : Nat
  va : Nat
  size : Nat
  table : Nat
  deriving DecidableEq, Repr

/-- An invalidation in progress (R276): context or partition, range, the units still to acknowledge, its reply, and
what follows when all have acknowledged. -/
structure Inval where
  ctx : Option Nat
  part : Nat
  lo : Nat
  len : Nat
  units : List Nat
  lost : List Nat
  reply : Option ReplyTo
  /-- A CTX_CLEAR or CTX_ROOT that this invalidation belongs to: its context. -/
  after : Option Nat
  deriving DecidableEq, Repr

/-- A binding or unbinding that awaits its Turn (R265). -/
structure BindMove where
  ctx : Nat
  part : Option Nat
  turn : Nat
  reply : ReplyTo
  /-- The CTX_CLEAR of an unbinding has begun (R267). -/
  clearing : Bool
  deriving DecidableEq, Repr

structure Xlate where
  /-- Context records | 4,096 x 71 | 08_translation, R264 | contexts 0-15 bound to 0, others unbound, ROOT 0, EPOCH 0 -/
  ctx : Tbl Ctx
  /-- Cached translations per unit (0-63 engines, 64-75 site adapters) | - | 08_translation, R273 | none -/
  tlb : Tbl (List Xent)
  /-- Non-leaf entries of the 16 most recent walks of each unit, the latest first | - | 08_translation, R274 | none -/
  walks : Tbl (List (List Xnode))
  /-- XLATE_STAT.FORCED | 1 | 08_translation, R292 | 0 -/
  forced : Bool
  /-- Invalidations in progress, at most 16, then queued | 5, 11 | 08_translation, R277 | none -/
  invals : List Inval
  /-- Bindings awaiting their Turn | - | 08_translation, R265 | none -/
  binds : List BindMove
  deriving DecidableEq, Repr

/-! ### Mesh -/

/-- One queue of a target (R299): slots granted and waiting reservations, each by initiator, class and partition; and the flits still to
come of the packets that have begun to arrive, by initiator (R296). -/
structure Queue where
  granted : List (Nat × Nat × Nat)
  waiting : List (Nat × Nat × Nat)
  coming : Tbl Nat
  deriving DecidableEq, Repr

/-- Counters of one initiator for one partition (R308). -/
structure Counters where
  bins : Tbl Nat
  readBytes : Nat
  writeBytes : Nat
  deriving DecidableEq, Repr

/-- A request on another hub that is not answered yet: its number, whether it reads, its local address there, the bytes still to be read or the
acknowledgements still to come, the bytes read, and whether a part was refused, or dropped and reported as poisoned (R36, R233, R347). -/
structure Abroad where
  num : Nat
  read : Bool
  addr : Nat
  left : Nat
  got : List (Byte × Bool)
  refused : Bool
  lost : Bool
  deriving DecidableEq, Repr

/-- A raise on another hub that is not answered yet: its tag, the unit that translates for its descriptor, context, partition and share
class, and the EVENTS byte of its status record, by virtual address (R322). -/
structure FarRaise where
  tag : Nat
  unit : Nat
  ctx : Nat
  part : Nat
  share : Nat
  events : Option (Nat × Nat)
  deriving DecidableEq, Repr

/-- A request that has arrived and cannot be served yet: a packet of another hub with its partition; a packet of a chiplet, by OP, with
the operation of an ATOMIC; a request or an atomic operation of another unit; a mint transfer packet; a row record; an engine's next
access, and a site's call. -/
inductive Arrival where
  | leat (part : Nat) (b : Bytes)
  | site (op : Nat) (p : SitePkt) (a : Option SiteAtom)
  | mem (r : MemReq)
  | atom (q : AtomReq) (op : AtomOp)
  | packet (part : Nat) (b : Bytes)
  | shoe (w : ShoeWrite)
  | engine (de : Nat) (isCmd : Bool)
  | call (site : Nat)
  | stale (e : FarRaise)
  deriving DecidableEq, Repr

/-- Its place among the arrivals: its number, and whether it writes an intake area after intake has closed (R77). -/
structure Waiting where
  num : Nat
  tick : Bool
  what : Arrival
  deriving DecidableEq, Repr

structure Fabric where
  /-- Requests that wait for snoops, for those before them on their lines, or for intake to open | - | 07_coherence, R242, R248 | none -/
  arrivals : List Waiting
  /-- Number of the next one | - | 07_coherence, R242 | 0 -/
  arrSeq : Nat
  /-- Target queues by target x 4 + VN | 64 slots each | 09_fabric, R299 | empty -/
  queue : Tbl Queue
  /-- Histograms and byte counters by initiator x 16 + partition | 16 x 32, 2 x 64 | 09_fabric, R308 | 0 -/
  counters : Tbl Counters
  /-- Their snapshot at the last Turn boundary, and its Turn | as above, 48 | 09_fabric, R308 | 0 -/
  snapshot : Tbl Counters
  snapTurn : Nat
  /-- LAT_MISS and WAY_MISS of the window in progress, by class | 64 x 2 | 09_fabric, R309 | 0 -/
  latMiss : Tbl Nat
  wayMiss : Tbl Nat
  /-- The same of the last window | 64 x 2 x 32 | 09_fabric, R310 | 0 -/
  latLast : Tbl Nat
  wayLast : Tbl Nat
  /-- Windows missed since reset, by class | 64 x 32 | 09_fabric, R310 | 0 -/
  missed : Tbl Nat
  deriving DecidableEq, Repr

/-! ### Tallies -/

structure Tally where
  /-- VALUE | 31 | 10_tallies_dma, R313 | 0 -/
  value : Nat
  /-- PARTITION | 4 | 10_tallies_dma, R313 | 0 -/
  part : Nat
  /-- CONTEXT | 12 | 10_tallies_dma, R313 | 0 -/
  ctx : Nat
  /-- ASSIGNED | 1 | 10_tallies_dma, R313 | 0 -/
  assigned : Bool
  /-- UNDER | 1 | 10_tallies_dma, R313 | 0 -/
  underflow : Bool
  /-- OVER | 1 | 10_tallies_dma, R313 | 0 -/
  overflow : Bool
  /-- REMOTE_OK | 1 | 10_tallies_dma, R313 | 0 -/
  remoteOk : Bool
  deriving DecidableEq, Repr

/-- A queue of work of R334: an array's, an engine's plan slots, a site's, or an engine's command queue. -/
inductive Work where
  | array (la : Nat)
  | dma (de : Nat)
  | site (s : Nat)
  | cmd (de : Nat)
  deriving DecidableEq, Repr

/-- An entry of the waiter table (R317). -/
structure Waiter where
  tally : Nat
  n : Nat
  sub : Bool
  who : Work
  deriving DecidableEq, Repr

structure Tallies where
  /-- Tally words | 16,384 x 64 | 10_tallies_dma, R313 | 0 -/
  tally : Tbl Tally
  /-- Waiter table, in order of arrival | 512 | 10_tallies_dma, R317 | none -/
  waiters : List Waiter
  deriving DecidableEq, Repr

/-! ### Work in progress -/

/-- Where the wait of a descriptor stands (R147, R321). -/
inductive WaitState where
  | none | waiting | released | stale
  deriving DecidableEq, Repr

/-- A slot of an active plan as it runs in one Turn (R74): handle, slot, the Turn it belongs to, the next descriptor;
suspended at a resource boundary (R50). -/
structure Job where
  handle : Nat
  slot : Nat
  turn : Nat
  next : Nat
  suspended : Bool
  overrun : Bool
  /-- The wait of its next descriptor as it stood when the resource turned to other work. -/
  saved : WaitState
  deriving DecidableEq, Repr

/-- Counts that a status record reports (Tables 4-11, 5-8, 10-7). -/
structure Counts where
  flagsOr : Nat
  ovf : Nat
  loss : Nat
  sat : Nat
  ecc : Nat
  nanInf : Nat
  deriving DecidableEq, Repr

/-- An accumulator entry: its exact sum, flag byte, and the mod-3 residue of the sum (R113, R116, R130). -/
structure MEntry where
  value : Int
  flags : Nat
  residue : Nat
  deriving DecidableEq, Repr

/-- An accumulator bank (R98, R159, R162): anchor, whether the last pass was of the half class, continuing passes
since it was started afresh (R113), entries by row x 128 + column. -/
structure Bank where
  anchor : Option Int
  half : Bool
  conts : Nat
  entries : Tbl MEntry
  deriving DecidableEq, Repr

/-- A row of a Shoe queue (Table 3-11, R92). -/
structure ShoeRow where
  turn : Nat
  reqId : Nat
  inOff : Nat
  outOff : Nat
  tag : Nat
  last : Bool
  /-- Context that submitted it; a request without one has none. -/
  ctx : Option Nat
  deriving DecidableEq, Repr

/-- A row of the batch in progress: its record, refused at batching (R168), the flags drained for it (Table 4-10). -/
structure BatchRow where
  row : ShoeRow
  refused : Bool
  mint : Nat
  deriving DecidableEq, Repr

/-- An array descriptor that has started and not completed (R147-R148, R152, R540). -/
structure ArrRun where
  part : Nat
  job : Job
  desc : Desc
  /-- j of R146. -/
  j : Nat
  /-- Read extents, lowest and highest bin offset (R152). -/
  extents : List (Nat × Nat)
  /-- Bin writes to land at completion (R148). -/
  writes : List (Nat × Bytes)
  counts : Counts
  status : Option Nat
  raise : Option (Nat × Nat)
  anchorErr : Bool
  replayed : Bool
  poison : Bool
  /-- It has been suspended (R163). -/
  halted : Bool
  /-- The image of both banks as the descriptor found them (R540). -/
  bank0 : Bank
  bank1 : Bank
  /-- Flags drained for the rows of a batch, by place in the batch (Table 4-10). -/
  rows : List (Nat × Nat)
  deriving DecidableEq, Repr

/-- The Shoe work of a SHOE slot in one Turn (R133, R167-R172). -/
structure ShoeTurn where
  job : Job
  head : ShoeHeadD
  raise : Option Nat
  batches : Nat
  rows : Nat
  deferred : Nat
  refused : Nat
  gated : Bool
  limit : Bool
  batch : List BatchRow
  /-- Rows left out of the batch in progress (R171). -/
  left : Nat
  deriving DecidableEq, Repr

/-- A weight tile read from a bin: its format, and its bytes with their poison. -/
structure Tile where
  fmt : Nat
  data : List (Byte × Bool)
  deriving DecidableEq, Repr

/-- What a suspension saves for a slot's work (R163): the banks, and the weights that the cells hold. -/
structure Stored where
  job : Job
  bank0 : Bank
  bank1 : Bank
  active : Tile
  shadow : Tile
  deriving DecidableEq, Repr

/-- A logical array as the plans see it. -/
structure LogArr where
  /-- Physical array carrying it | 9 | 17_bring_up, R518 | none -/
  phys : Option Nat
  /-- Slots that have work, oldest first | - | 02_turn, R74 | none -/
  jobs : List Job
  wait : WaitState
  run : Option ArrRun
  /-- Descriptors suspended at a resource boundary | - | 02_turn, R50 | none -/
  parked : List ArrRun
  /-- Shoe slots of the Turns in progress | - | 04_array_programs, R167 | none -/
  shoe : List ShoeTurn
  /-- Active weight registers: format, and the tile with its poison | 128 x 128 | 03_arrays, R98, R127 | DESIGN CHOICE zero -/
  active : Tile
  /-- Shadow weight registers | 128 x 128 | 03_arrays, R98, R127, R161 | DESIGN CHOICE zero -/
  shadow : Tile
  /-- Shoe queues by partition | 16 x 255 | 03_arrays, R131 | empty -/
  queue : Tbl (List ShoeRow)
  /-- Request IDs accepted in this Turn, by partition | - | 03_arrays, R92 | none -/
  accepted : List Nat
  /-- Banks and loaded weights of suspended partitions: (the suspension store) | - | 04_array_programs, R163 | none -/
  store : List Stored
  /-- Retention log: bin lines with their prior content, at most 4,096 | 4,096 x 1,024 | 18_reliability, R540 | none -/
  log : List (Nat × List (Byte × Bool))
  /-- Partition of the last valid entry that the array reached (R50) | - | 02_turn, R50 | none -/
  lastPart : Option Nat
  /-- Out of service with work held: fault seen, or no spare (R546) | 1 | 18_reliability, R546 | 0 -/
  held : Bool
  replay : Bool
  blocked : Bool
  moved : Bool
  deriving DecidableEq, Repr

/-- States of a physical array (Table 18-6). -/
inductive ArrState where
  | excluded | carrying | spare | quarantined | testing | retired
  deriving DecidableEq, Repr

/-- A physical array (Table 18-6, R98, R540). -/
structure PhysArr where
  /-- STATE | 3 | 18_reliability, R549 | 0 -/
  state : ArrState
  /-- LA | 8 | 18_reliability, R549 | 0 -/
  la : Nat
  /-- EPOCH | 8 | 18_reliability, R549 | 0 -/
  epoch : Nat
  /-- FAULTS | 4 | 18_reliability, R549 | 0 -/
  faults : Nat
  /-- Turns of the newest corrected bin errors, newest first | 64 x 48 | 18_reliability, R539 | empty -/
  ces : List Nat
  /-- BK0 and BK1 | 2 x 128 x 128 x (256 + 8) | 03_arrays, R98 | zero, clear flags (R158) -/
  bank0 : Bank
  bank1 : Bank
  /-- In patrol: hot spare under R548 | 1 | 18_reliability, R548 | 0 -/
  patrol : Bool
  deriving DecidableEq, Repr

/-- A request that an engine waits for: to the host by function number (R485), a read of another hub by 17, a write or operation there
by 18, to a chiplet by 32 and the site; tag, address, bytes, and the offset in the transfer that it belongs to. -/
structure HostReq where
  fn : Nat
  tag : Nat
  addr : Nat
  len : Nat
  dst : Nat
  deriving DecidableEq, Repr

/-- A piece of a transfer that one request reads: offset in the transfer, source address, bytes. -/
structure Piece where
  off : Nat
  src : Nat
  len : Nat
  deriving DecidableEq, Repr

/-- How far a descriptor of an engine has come: at its work, or with its status record written and not yet acknowledged. -/
inductive RunPhase where
  | work | status
  deriving DecidableEq, Repr

/-- A DMA, tally or reduction descriptor that has started and not completed. -/
structure DmaRun where
  isCmd : Bool
  job : Job
  seq : Nat
  part : Nat
  ctx : Nat
  /-- The context's epoch that its requests carry: as it stood when the descriptor started or was last resumed (R268, R332). -/
  epoch : Nat
  desc : Desc
  iter : Nat
  j : Nat
  /-- EVENTS bits of its status record. -/
  refused : Bool
  guard : Bool
  poison : Bool
  stale : Bool
  tallyErr : Bool
  anchorErr : Bool
  stateErr : Bool
  errSeen : Bool
  /-- DONE, FAULT_OFFSET. -/
  done : Nat
  faultOff : Option Nat
  counts : Counts
  compact : Nat
  errCount : Nat
  /-- Requests in flight, not yet answered. -/
  issued : List HostReq
  /-- Pieces of a transfer not begun; pieces whose bytes are being read; and bytes read, by offset, not yet written: those of a status
  record, once the work is over. -/
  todo : List Piece
  flight : List Piece
  buf : Tbl (List (Byte × Bool))
  /-- The next cell or element of a reduction. -/
  next : Nat
  /-- Its next access waits among the arrivals (R248). -/
  blocked : Bool
  phase : RunPhase
  /-- EVENTS of its status record as written (Tables 5-8, 10-7). -/
  events : Nat
  paused : Bool
  /-- It has been suspended or paused (R332). -/
  halted : Bool
  deriving DecidableEq, Repr

/-- A descriptor in an engine's command queue (R325, R337). -/
structure CmdDesc where
  seq : Nat
  ctx : Nat
  desc : Desc
  deriving DecidableEq, Repr

/-- A DMA engine (Table 10-10). -/
structure Engine where
  /-- QUEUE_OWNER | 4 | 10_tallies_dma, R338 | 0 -/
  owner : Nat
  /-- Command queue | 256 | 10_tallies_dma, R325 | empty -/
  queue : List CmdDesc
  /-- Sequence number of the last submission and of the last completion | 32, 32 | 10_tallies_dma, R337 | 0 -/
  seq : Nat
  doneSeq : Nat
  jobs : List Job
  wait : WaitState
  cmdWait : WaitState
  run : Option DmaRun
  /-- Plan descriptors suspended at a resource boundary | - | 02_turn, R50 | none -/
  parked : List DmaRun
  cmdRun : Option DmaRun
  /-- Engine epoch (Table 17-3) | 8 | 17_bring_up, R528 | 0 -/
  epoch : Nat
  blocked : Bool
  moved : Bool
  cmdBlocked : Bool
  cmdMoved : Bool
  deriving DecidableEq, Repr

structure Arrays where
  /-- Logical arrays LA0-LA255 | 256 | 01_architecture, R18 | unmapped -/
  log : Tbl LogArr
  /-- Physical arrays 0-287 | 288 | 01_architecture, R17 | ARR_STAT reset -/
  phys : Tbl PhysArr
  deriving DecidableEq, Repr

/-! ### Leat -/

/-- STATE of a link (Table 11-13). -/
inductive LinkState where
  | down | training | inService | excluded
  deriving DecidableEq, Repr

/-- The link bit-error check of a link (R525, R526): `again` says that it has failed once before. -/
inductive BerState where
  | never | agreed (turn : Nat) (again : Bool) | failedOnce | passed
  deriving DecidableEq, Repr

/-- A data flit held for resend: LSEQ, partition, PSEQ, bytes, times resent (R348). -/
structure Replay where
  lseq : Nat
  part : Nat
  pseq : Nat
  mgmt : Bool
  data : Bytes
  resent : Nat
  deriving DecidableEq, Repr

structure Link where
  /-- STATE | 2 | 11_leat_links, R371 | 0 -/
  state : LinkState
  /-- WIDTH | 2 | 11_leat_links, R371 | 0 -/
  width : Nat
  /-- GOOD_LANES | 4 | 11_leat_links, R371 | 0 -/
  lanes : BitVec 4
  /-- SAVED | 1 | 11_leat_links, R371 | 0 -/
  saved : Bool
  /-- SEALING_HELD: partitions held (R369) | 1 | 11_leat_links, R371 | 0 -/
  sealHeld : List Nat
  /-- CAUSE | 4 | 11_leat_links, R371 | 0 -/
  cause : Nat
  /-- DELAY | 16 | 11_leat_links, R371 | 0 -/
  delay : Nat
  /-- Turn of the last state change | 32 | 11_leat_links, R370 | 0 -/
  turn : Nat
  /-- The training in progress uses saved settings; a failed one is followed by full training | 1 | 11_leat_links, R354 | 0 -/
  fromSaved : Bool
  /-- Next LSEQ to send, last LSEQ accepted | 12, 12 | 11_leat_links, R345 | 0 -/
  txSeq : Nat
  rxSeq : Nat
  /-- Replay buffer | 128 flits | 11_leat_links, R348 | empty -/
  replay : List Replay
  /-- LEAT_FECn: corrected and uncorrectable | 32, 32 | 11_leat_links, R371 | 0 -/
  fecOk : Nat
  fecBad : Nat
  /-- Times of the uncorrectable codewords of the last millisecond, in 0.2 us units | - | 11_leat_links, R354 | none -/
  burst : List Nat
  ber : BerState
  /-- Far-end unit identity of the last training | 256 | 11_leat_links, R354 | 0 -/
  farUnit : Nat
  /-- Rejoins its port's rotation at the next Turn boundary | 1 | 11_leat_links, R355 | 0 -/
  rejoin : Bool
  /-- Seal counters by partition | 16 x 64 | 11_leat_links, R367 | 0 -/
  sealCtr : Tbl Nat
  deriving DecidableEq, Repr

/-- A key exchange on a port for a partition (R584): its number names the ephemeral key; `failed` says that the neighbour
has refused it. -/
structure KeyEx where
  keyId : Nat
  num : Nat
  failed : Bool
  /-- Fragments of the far end's offer received so far, and those of ours it has. -/
  got : Tbl Bytes
  theyHave : BitVec 10
  initiator : Bool
  deriving DecidableEq, Repr

/-- Keys installed for a partition on a port: KEY_ID, the send and receive keys with salts, an old key kept until its
packets are acknowledged (R366, R368). -/
structure Keys where
  keyId : Nat
  material : Bytes
  old : Option (Nat × Bytes)
  /-- A packet under the new key has been delivered, so that none under the old one is still to come. -/
  newSeen : Bool
  deriving DecidableEq, Repr

/-- A flit received ahead of its PSEQ: its partition, the KEY_ID of its sealed packets, and its packets, opened (R349, R366). -/
structure Ahead where
  pseq : Nat
  part : Nat
  key : Option Nat
  data : Bytes
  deriving DecidableEq, Repr

/-- A packet that waits for a port: its partition, the context and context epoch of a request that an engine issued under one, and its
bytes (R264, R268). -/
structure Queued where
  part : Nat
  ctx : Option (Nat × Nat)
  data : Bytes
  deriving DecidableEq, Repr

structure Port where
  /-- Next PSEQ to send and next to deliver | 24, 24 | 11_leat_links, R349 | 0 -/
  txSeq : Nat
  rxSeq : Nat
  /-- Flits received ahead of their PSEQ | - | 11_leat_links, R349 | none -/
  reorder : List Ahead
  /-- Packets waiting for the port | - | 11_leat_links, R352, R369 | none -/
  queue : List Queued
  /-- REROUTED | 1 | 11_leat_links, R356 | 0 -/
  rerouted : Bool
  /-- Credits held by partition x 6 + VC, in 64-byte units, as used of 512 | 16 x 6 x 10 | 11_leat_links, R352 | 0 used -/
  used : Tbl Nat
  /-- Keys by partition | 16 | 11_leat_links, R366 | none -/
  keys : Tbl Keys
  /-- Key exchanges by partition | 16 | 19_security, R584 | none -/
  keyEx : Tbl KeyEx
  deriving DecidableEq, Repr

structure Leat where
  /-- LEAT_CFG.HUB_ID | 17 | 11_leat_links, R371 | 0 -/
  hub : Nat
  /-- EX - 1, EY - 1, EZ - 1, EW - 1 | 5, 5, 4, 3 | 11_leat_links, R371 | 0 -/
  exm1 : Nat
  eym1 : Nat
  ezm1 : Nat
  ewm1 : Nat
  /-- LEAT_STAT.TRAIN_DONE | 1 | 11_leat_links, R371 | 0 -/
  trainDone : Bool
  /-- Links | 64 | 11_leat_links, R371 | down -/
  link : Tbl Link
  /-- Ports | 8 | 11_leat_links, R371 | none in service -/
  port : Tbl Port
  /-- Requests that rows have sent to other hubs and that are not answered | 8 | 01_architecture, R36 | none -/
  own : List Abroad
  /-- Raises on other hubs that are not answered | - | 10_tallies_dma, R322 | none -/
  raises : List FarRaise
  /-- A LEAT_TRAIN awaiting its links: mask and reply | - | 11_leat_links, R370 | none -/
  training : Option (List Nat × ReplyTo)
  deriving DecidableEq, Repr

/-! ### Sites -/

/-- STATE of a site (Table 12-13). -/
inductive SiteState where
  | off | absent | training | inService | failed | down
  deriving DecidableEq, Repr

/-- Who is answered when a chiplet replies to a request at its aperture: the requester of a row, or an engine; another hub, by its number,
tag, partition and share class; a chiplet, by OP and TAG; or a site's call, for its status record. -/
inductive Asker where
  | row
  | far (src tag part share : Nat)
  | chiplet (site op tag : Nat)
  | call (site : Nat)
  deriving DecidableEq, Repr

/-- An aperture request without a reply (R386). -/
structure ApertureReq where
  tag : Nat
  addr : Nat
  len : Nat
  asker : Asker
  deriving DecidableEq, Repr

/-- A request of a chiplet on another hub: what is still to come, TAG, OP (0x100 for a status record), bytes written and whether any
are poisoned (R384). -/
structure SiteReq where
  req : Abroad
  tag : Nat
  op : Nat
  bytes : Nat
  poison : Bool
  deriving DecidableEq, Repr

/-- A call that runs on a site (R398-R404). -/
structure SiteRun where
  job : Job
  tag : Nat
  part : Nat
  desc : Desc
  j : Nat
  written : Nat
  /-- Refused before it was sent (R398), fault (R403), poison seen, suspended at a boundary. -/
  refused : Bool
  fault : Bool
  stale : Bool
  poison : Bool
  suspended : Bool
  suspending : Bool
  done : Option Nat
  /-- Its status record has been sent and is not yet acknowledged (R399), and the EVENTS of it (Table 12-8). -/
  sent : Bool
  events : Nat
  deriving DecidableEq, Repr

structure Site where
  /-- STATE | 3 | 12_open_sites, R412 | 0 -/
  state : SiteState
  /-- PROTOCOL: CXL | 1 | 12_open_sites, R412 | 0 -/
  cxl : Bool
  /-- MODULES and HALF: the sixteen modules | 5, 5 | 12_open_sites, R412 | 0 in service -/
  modules : List ModuleState
  /-- The rate in force | 1 | 12_open_sites, R412 | 8 GT/s -/
  rate16 : Bool
  /-- BREACH | 1 | 12_open_sites, R412 | 0 -/
  breach : Bool
  /-- Capability table | up to 16 KiB | 12_open_sites, R405 | none -/
  table : Bytes
  /-- Request that stands (none: IDLE_FLOOR) | 16 | 12_open_sites, R392 | none -/
  req : Option Nat
  /-- Grant in force, grant for the next Turn, and the Turn of the grant | 16, 16, 48 | 12_open_sites, R392, R412 | 0 -/
  grant : Nat
  grantNext : Nat
  grantTurn : Nat
  /-- Grant of the Turn before, that a report is held against | 16 | 12_open_sites, R394 | 0 -/
  grantLast : Nat
  /-- Last report | 16 | 12_open_sites, R412 | 0 -/
  report : Nat
  /-- The report of the last Turn has arrived | 1 | 12_open_sites, R395 | 0 -/
  reported : Bool
  /-- Debit | 16 | 12_open_sites, R394 | 0 -/
  debit : Nat
  /-- Consecutive Turns more than 5 % over, consecutive missing reports | 5, 3 | 12_open_sites, R396 | 0 -/
  overRun : Nat
  missing : Nat
  jobs : List Job
  wait : WaitState
  run : Option SiteRun
  /-- Calls suspended at a resource boundary | - | 12_open_sites, R400 | none -/
  parked : List SiteRun
  blocked : Bool
  moved : Bool
  /-- Aperture requests without a reply, in order of arrival | - | 12_open_sites, R386 | none -/
  aperture : List ApertureReq
  /-- A posting of SITE_PART waits for this site's flush (R391) | 1 | 12_open_sites, R391 | 0 -/
  moving : Bool
  /-- A SITE_RESET that waits for this site's flush, with what its bring-up will find | - | 12_open_sites, R410 | none -/
  resetting : Option (ReplyTo × SiteEnv)
  /-- Requests of the chiplet on other hubs | - | 12_open_sites, R384 | none -/
  remote : List SiteReq
  /-- Such requests that wait for a number: OP and packet | - | 12_open_sites, R384 | none -/
  remoteWait : List (Nat × SitePkt)
  deriving DecidableEq, Repr

structure Sites where
  /-- ST0-ST11 | 12 | 12_open_sites, R412 | off -/
  site : Tbl Site
  deriving DecidableEq, Repr

/-! ### Power, heat and age -/

/-- A PWR_DOMAIN in progress (R417): domains still to switch in order, on or off, when it starts, its reply. -/
structure Switching where
  left : List Nat
  on : Bool
  turn : Nat
  started : Bool
  reply : ReplyTo
  count : Nat
  deriving DecidableEq, Repr

/-- Ageing of one array domain (R550-R554): margins, the margins of the last re-plans with their times and less the credit, what is
proposed and under which number, the decline in ps per day as Q16.16, days left, last re-plan, credit so far. -/
structure Age where
  margin : Nat
  worst : Option Nat
  history : List (Nat × Int)
  proposed : Option Nat
  rate : Int
  days : Option Nat
  turn : Nat
  credit : Int
  propNo : Nat
  deriving DecidableEq, Repr

structure Power where
  /-- PWR_DOM_STAT.ON | 30 | 13_power_energy, R438 | 0 -/
  on : List Nat
  /-- PWR_DOM_STAT.SWITCHING | 1 | 13_power_energy, R438 | none -/
  switching : Option Switching
  /-- Levels of the physical arrays, and from 288 on of the DMA engines, at the start of the bucket in progress, in sixteenths of their
  hold power | 352 x 5 | 13_power_energy, R425, R426 | 0 -/
  level : Tbl Nat
  /-- Temperatures of the 96 sensors | 96 x 8 | 13_power_energy, R434 | 0 -/
  temps : Tbl Nat
  /-- THERM_WARN | 8 | 13_power_energy, R438 | 90 -/
  warnAt : Nat
  /-- ALERT# held for THERM_WARN | 1 | 13_power_energy, R435 | 0 -/
  warned : Bool
  /-- Profiler RUNNING, ring address, length, period, records written since start | 1, 64, 64, 25, 64 | 13_power_energy, R433 | 0 -/
  profOn : Bool
  profBase : Nat
  profLen : Nat
  profPeriod : Nat
  profCount : Nat
  /-- PROF_STAT.SKIPPED and DROPPED | 15, 16 | 13_power_energy, R438 | 0 -/
  skipped : Nat
  dropped : Nat
  /-- Ageing per domain | 16 | 18_reliability, R554 | none sampled -/
  age : Tbl Age
  /-- AGE_POLICY: AUTO, and LEAD | 1, 21 | 18_reliability, R554 | 0, 4,096 -/
  auto : Bool
  lead : Nat
  /-- Proposals made so far | - | 18_reliability, R536 | 0 -/
  proposals : Nat
  deriving DecidableEq, Repr

/-! ### Host endpoint -/

/-- An MSI-X table entry with its mask and pending bits (R482). -/
structure Msix where
  addr : Nat
  data : Nat
  masked : Bool
  pending : Bool
  deriving DecidableEq, Repr

/-- A PCIe function's endpoint state (R473-R489). -/
structure Func where
  /-- HOST_FNf.SHARE | 6 | 15_host_endpoint, R487 | 0 -/
  share : Nat
  /-- HOST_FNf.TAGS | 13 | 15_host_endpoint, R487 | 4,096 for the PF, 0 otherwise -/
  tags : Nat
  /-- HOST_BAR4f.BASE | 41 | 15_host_endpoint, R487 | 0 -/
  bar4 : Nat
  /-- MSI-X Enable, Function Mask, table and PBA | 1, 1, 2,048 x 128 | 15_host_endpoint, R481 | 0, 0, masked -/
  msixEn : Bool
  fnMask : Bool
  msix : Tbl Msix
  /-- MSI Enable, Multiple Message Enable | 1, 3 | 15_host_endpoint, R483 | 0 -/
  msiEn : Bool
  mme : Nat
  /-- MSI mask and pending bits | 32, 32 | 15_host_endpoint, R483 | 0 -/
  msiMask : List Nat
  msiPend : List Nat
  /-- D3hot | 1 | 15_host_endpoint, R489 | 0 -/
  d3 : Bool
  deriving DecidableEq, Repr

structure HostEnd where
  /-- HOST_LINK.RATE | 2 | 15_host_endpoint, R487 | 0 -/
  rate : Nat
  /-- HOST_LINK.WIDTH | 5 | 15_host_endpoint, R487 | 0 -/
  width : Nat
  /-- HOST_LINK.FLIT | 1 | 15_host_endpoint, R487 | 0 -/
  flit : Bool
  /-- HOST_LINK.DOWN_COUNT | 16 | 15_host_endpoint, R487 | 0 -/
  downs : Nat
  /-- The endpoint may train: step 4 has ended | 1 | 17_bring_up, R513 | 0 -/
  mayTrain : Bool
  /-- HOST_RD_LIMIT.LIMIT | 13 | 15_host_endpoint, R487 | 4,096 -/
  limit : Nat
  /-- Functions 0 (PF) to 16 | 17 | 15_host_endpoint, R487 | Func reset -/
  func : Tbl Func
  /-- BAR4 size of the PF, log2 | - | 15_host_endpoint, R478 | 36 (64 GiB) -/
  barLog2 : Nat
  /-- Memory Space Enable of the PF | 1 | 15_host_endpoint, R478 | 0 -/
  memSpace : Bool
  /-- VF Enable and NumVFs | 1, 5 | 15_host_endpoint, R475 | 0 -/
  vfEnable : Bool
  numVfs : Nat
  /-- DOE: an object awaits its answer | - | 15_host_endpoint, R493 | none -/
  doe : Option Bytes
  /-- Next tag of host reads | 14 | 15_host_endpoint, R485 | 0 -/
  nextTag : Nat
  deriving DecidableEq, Repr

/-! ### Security -/

/-- A warrant held (Table 19-11). -/
structure Warrant where
  signer : Nat
  expiry : Nat
  rights : BitVec 4
  serial : Nat
  deriving DecidableEq, Repr

structure Security where
  /-- BOOT_NONCE | 64 | 19_security, R577 | drawn at cold start; DESIGN CHOICE 0 before it -/
  nonce : Nat
  /-- Warrants held, at most four | 4 | 19_security, R576 | none -/
  warrants : List Warrant
  /-- SEC_SEALED.HELD | 16 | 19_security, R586 | 0 -/
  held : List Nat
  /-- Measurements 1 to 6 | 6 x 384 | 19_security, R567 | taken at every boot; DESIGN CHOICE 0 before it -/
  measured : Tbl Nat
  deriving DecidableEq, Repr

/-! ### Firmware -/

/-- One flash bank (R589, R596). -/
structure FlashBank where
  /-- Chunk contents by index | 7,152 x 4 KiB | 20_firmware_update, R589 | DESIGN CHOICE erased -/
  chunk : Tbl Bytes
  /-- Chunks whose map byte is 0x00 | 7,152 | 20_firmware_update, R589 | DESIGN CHOICE none -/
  held : List Nat
  /-- IMAGE_ID and CHUNKS fixed by the first chunk | 64, 16 | 20_firmware_update, R596 | DESIGN CHOICE 0 -/
  imageId : Nat
  chunks : Nat
  /-- The seal word is present (the last erase completed) | 64 | 20_firmware_update, R593 | DESIGN CHOICE true -/
  sealOk : Bool
  /-- A background erase runs: ordinary, or of an erase found cut short (R594) | 1, 1 | 20_firmware_update, R603 | 0 -/
  erasing : Bool
  cutShort : Bool
  deriving DecidableEq, Repr

/-- A journal entry (R593): SEQ, OFFSET, LENGTH, DONE programmed. -/
structure Journal where
  seq : Nat
  off : Nat
  len : Nat
  done : Bool
  deriving DecidableEq, Repr

/-- FW_ACTIVATE in progress: the reply, and the phase: the cores flush; the new section starts; or the old one restarts. -/
structure Activation where
  reply : ReplyTo
  version : Nat
  flushing : Bool
  oldRestart : Bool
  deriving DecidableEq, Repr

/-- Training records in flash (R519, R520): per link far unit and lanes; HBM records present; hub number and extents. -/
structure Saved where
  links : Tbl (Nat × Nat)
  hbm : Bool
  leat : Option (Nat × Nat × Nat × Nat × Nat)
  sealOk : Bool
  deriving DecidableEq, Repr

structure Firmware where
  /-- Banks 0 and 1 | 2 x 28 MiB | 20_firmware_update, R588 | DESIGN CHOICE erased -/
  bank : Tbl FlashBank
  /-- Valid boot records: GEN, SELECT, IMAGE_ID | 2 blocks | 20_firmware_update, R590 | DESIGN CHOICE none -/
  records : List (Nat × Nat × Nat)
  /-- Erase journal, and the SEQ of its next entry | 1 MiB, 32 | 20_firmware_update, R593 | DESIGN CHOICE none, 0 -/
  journal : List Journal
  journalSeq : Nat
  /-- Saved training | 2 MiB | 17_bring_up, R519 | DESIGN CHOICE none -/
  saved : Saved
  /-- Wear record: retired arrays, TRIM codes, frequency steps | 1 MiB | 18_reliability, R547, R552 | DESIGN CHOICE none -/
  wearRetired : List Nat
  wearTrim : Tbl Nat
  wearStep : Tbl Nat
  /-- Activation in progress | - | 20_firmware_update, R601 | none -/
  activation : Option Activation
  /-- Command fetching has stopped until reset (both sections failed) | 1 | 20_firmware_update, R601 | 0 -/
  halted : Bool
  deriving DecidableEq, Repr

/-! ### The whole hub -/

/-- The state of the hub. -/
structure State where
  /-- Commands waiting, first in first out (the block form's own queue). -/
  pending : List Instr
  /-- Outputs of the latest command (the model's own field). -/
  out : List Output
  /-- Free values taken so far (the model's own field). -/
  fresh : Nat
  fuse : Fuses
  otp : Otp
  pins : Pins
  boot : Boot
  turn : TurnUnit
  set : Settings
  ledger : Ledger
  glob : Global
  cmd : Commands
  plans : Plans
  mem : Mem
  coh : Coh
  xlate : Xlate
  fab : Fabric
  tallies : Tallies
  dma : Tbl Engine
  arr : Arrays
  leat : Leat
  sites : Sites
  power : Power
  host : HostEnd
  sec : Security
  fw : Firmware
  deriving DecidableEq, Repr

/-! ### What the shared operations answer -/

/-- An event to be recorded in the ledger (Table 18-1). -/
structure Rec where
  cls : Nat
  flags : Nat := 0
  kind : Nat := 0
  index : Nat := 0
  part : Option Nat := Option.none
  task : Nat := 0
  addr : Nat := 0
  d0 : Nat := 0
  d1 : Nat := 0
  d2 : Nat := 0
  d3 : Nat := 0
  deriving DecidableEq, Repr

/-- How a command that has started goes on: its final reply with status, DETAIL, the Turn of effect where it has one
and the bytes it writes to a host address; an interim reply with the Turn of effect; or neither yet (R451). -/
inductive Ending where
  | done (st : Status) (detail : Nat) (turn : Option Nat) (out : Option (Nat × Bytes))
  | interim (turn : Nat)
  | later
  deriving DecidableEq, Repr

/-- The kinds of address of Table 1-4. -/
inductive Region where
  | hbm | scratch
  | bin (la : Nat) (off : Nat)
  | site (site : Nat) (off : Nat)
  | regs (off : Nat)
  | reserved
  deriving DecidableEq, Repr

/-! ### Why a step stops -/

/-- Reasons a step would stop the machine. The spec gives the hub no such event: faults of the hardware are ledger
entries, error completions and pins, which are effects on State. Safe: nothing raises it. -/
inductive Fault where
  /-- No command raises it; it stands so that the type has a value. Safe. -/
  | none
  deriving DecidableEq, Repr

/-- Reasons the model answers without a next state. -/
inductive Refusal where
  /-- The command has no meaning in the model yet. Raised by `exec`'s arm alone. Safe. -/
  | notModelled (mnemonic : String)
  deriving DecidableEq, Repr

/-! ### Values after reset -/

def Fuses.reset : Fuses :=
  { unitId := 0, silicon := 0, bolter := 0, excluded := [], varrSet := 0, trim := [], trimPs := [], stepPs := [],
    lcKeyHash := 0, fwKeyHash := 0, caKey := 0, deviceKey := 0, endorsement := 0,
    rowRepairs := [], laneMaps := [], siteRepairs := [], subsystem := 0 }

def Otp.reset : Otp := { sealBits := 0x000F#16, ownerHash := 0, ownerWritten := true }

def Pins.reset : Pins :=
  { pwrok := false, perstLow := false, warmLow := false, thermtrip := false, replace := 0#5, replaceTurn := 0,
    replaceMsg := false, railOut := false, railCount := [], observe := false, observeNext := false,
    turnOutQuiet := false }

def Boot.reset : Boot :=
  { ready := false, fatal := false, bank := 0, step := 0, kind := 0, fallback := false, hbmSaved := false,
    leatSaved := false, leatCfg := false, blocked := false, katFail := 0, berFail := 0, time := 0, stepTime := [],
    coresRun := false, recovery := false, checksDone := false, excluded := [] }

def TurnUnit.reset : TurnUnit :=
  { src := 1, outEn := false, cfgLock := false, count := 0, bucket := 0, aligned := false, isHeadrace := false,
    mismatch := false, hops := 0, stretches := 0, stretchTime := 0, inOffset := 0, headrace := 0, refclk := true,
    edges := 0, f := 0, u := 0, kNow := 0, kHub := 0, kSum := 0, stretchNow := 0, inStretch := false, forwarded := [], commit := false,
    holdover := false, parent := Option.none, heard := [], heardLast := [], offCount := [], sysMin := 0,
    lastRecord := Option.none, busyNow := [], busyLast := [], elapsed := 0 }

def Window.reset : Window :=
  { valid := false, prio := 0, read := false, write := false, atomic := false, sizeLog2 := 0, part := 0, srcHub := 0,
    srcMask := 0, inBase := 0, outBase := 0 }

def Route.reset : Route := { valid := false, prio := 0, dim := 0, negative := false, dest := 0, mask := 0 }

/-- The share table entry of a class at reset (R302). -/
def Share.reset (cls : Nat) : Share :=
  if cls = 0 ∨ cls = 63 then
    { valid := true, owner := 0, prio := 0, wayQuota := 0, reqSlots := 8, bulkSlots := 8, latBin := 15, missMax := 0 }
  else
    { valid := false, owner := 0, prio := 0, wayQuota := 0, reqSlots := 0, bulkSlots := 0, latBin := 0, missMax := 0 }

def Settings.reset : Settings :=
  { bucketLen := 4, tailraceLen := 8, scratchWays := 4, wayOwner := [], dirOwner := [], share := [], shareWindow := 16,
    windowMode := true, window := [], route := [], protoFloor := 1, owner := [], energy := [], slope := [],
    weight := [], sealed := [], sitePart := [], siteRate := [], siteCache := [], siteShare := [], siteReserve := [],
    siteMax := [], purse := 18000, trim := [], freqStep := [] }

def Ledger.reset : Ledger := { head := 0, tail := 0, entries := [], ovf := [], ovfFlag := false, groups := [] }

def Sqc.reset : Sqc := { seq := 0, stamps := [], value := 0, clr := 0 }

def EvtRegs.reset : EvtRegs := { stat := Sqc.reset, en := 0#13, vec := 0 }

def Global.reset : Global :=
  { evt := [], fabMiss := Sqc.reset, tallyDl := Sqc.reset, cfgLock := false, xlateLock := false, pwDrop := 0#4,
    posted := [], tariffVer := 1, tariffDirty := false }

def StageSet.reset : StageSet :=
  { state := .empty, items := [], turn := 0, order := 0, reply := Option.none, deferred := false }

def Chan.reset : Chan :=
  { sqBase := 0, cqBase := 0, enable := false, sqLog2 := 6, cqLog2 := 7, irqEn := false, vector := 0, sqHead := 0,
    sqTail := 0, cqHead := 0, cqTail := 0, cqUsed := 0, phase := true, errCause := 0, stopped := false, fetched := [],
    started := [], held := [] }

def Commands.reset : Commands :=
  { chan := [], mctp := [], mctpFetched := [], started := 0, mctpPeer := false, sets := [], postings := 0 }

def RailCost.reset : RailCost := { baseNj := 0, unitPj := 0, peakCw := 0 }

def Plans.reset : Plans :=
  { plan := [], energy := [], fast := [], linkRec := [], pcRec := [], hostRec := (3, 16), designated := [] }

def Stack.reset : Stack :=
  { rate := 0, high12 := false, trained := false, saved := false, cattrip := false, temp := 0, pcLost := [],
    pcNext := [] }

def Deed.reset : Deed := { kind := .none, owner := 0, members := 0#16, memberWrite := false }

def Mem.reset : Mem :=
  { cells := [], poison := [], records := [], corrected := [], hbm := [], retired := [], sliceEpoch := [], scrubHours := 24,
    cache := [], victims := [], draining := [], deeds := [], moves := [] }

def Agent.reset : Agent :=
  { fenced := false, flushed := false, flushing := false, late := 0, stashDrop := 0, epoch := 0 }

def Coh.reset : Coh :=
  { agent := [], dir := [], txns := [], waiting := [], hold := [], offers := [], evicts := [], emptying := [] }

/-- A context record after reset: contexts 0 to 15 belong to partition 0 (R264). -/
def Ctx.reset (n : Nat) : Ctx := { bound := n < 16, part := 0, root := 0, epoch := 0 }

def Xlate.reset : Xlate := { ctx := [], tlb := [], walks := [], forced := false, invals := [], binds := [] }

def Queue.reset : Queue := { granted := [], waiting := [], coming := [] }

def Counters.reset : Counters := { bins := [], readBytes := 0, writeBytes := 0 }

def Fabric.reset : Fabric :=
  { arrivals := [], arrSeq := 0, queue := [], counters := [], snapshot := [], snapTurn := 0, latMiss := [], wayMiss := [], latLast := [],
    wayLast := [], missed := [] }

def Tally.reset : Tally :=
  { value := 0, part := 0, ctx := 0, assigned := false, underflow := false, overflow := false, remoteOk := false }

def Tallies.reset : Tallies := { tally := [], waiters := [] }

def Counts.reset : Counts := { flagsOr := 0, ovf := 0, loss := 0, sat := 0, ecc := 0, nanInf := 0 }

def MEntry.reset : MEntry := { value := 0, flags := 0, residue := 0 }

/-- Weight registers that hold zero; of no format yet. -/
def Tile.reset : Tile := { fmt := 0, data := [] }

def Bank.reset : Bank := { anchor := Option.none, half := false, conts := 0, entries := [] }

def LogArr.reset : LogArr :=
  { phys := Option.none, jobs := [], wait := .none, run := Option.none, parked := [], shoe := [], active := Tile.reset, shadow := Tile.reset,
    queue := [], accepted := [], store := [], log := [], lastPart := Option.none, held := false, replay := false, blocked := false, moved := false }

def PhysArr.reset : PhysArr :=
  { state := .excluded, la := 0, epoch := 0, faults := 0, ces := [], bank0 := Bank.reset,
    bank1 := Bank.reset, patrol := false }

def Engine.reset : Engine :=
  { owner := 0, queue := [], seq := 0, doneSeq := 0, jobs := [], wait := .none, cmdWait := .none, run := Option.none,
    parked := [],
    cmdRun := Option.none, epoch := 0, blocked := false, moved := false, cmdBlocked := false, cmdMoved := false }

def Arrays.reset : Arrays := { log := [], phys := [] }

def Link.reset : Link :=
  { state := .down, width := 0, lanes := 0#4, saved := false, sealHeld := [], cause := 0, delay := 0, turn := 0,
    fromSaved := false, txSeq := 0, rxSeq := 0, replay := [], fecOk := 0, fecBad := 0, burst := [], ber := .never,
    farUnit := 0, rejoin := false, sealCtr := [] }

def Port.reset : Port :=
  { txSeq := 0, rxSeq := 0, reorder := [], queue := [], rerouted := false, used := [], keys := [], keyEx := [] }

def Leat.reset : Leat :=
  { hub := 0, exm1 := 0, eym1 := 0, ezm1 := 0, ewm1 := 0, trainDone := false, link := [], port := [], own := [], raises := [],
    training := Option.none }

def Site.reset : Site :=
  { state := .off, cxl := false, modules := [], rate16 := false, breach := false, table := [], req := Option.none,
    grant := 0, grantNext := 0, grantTurn := 0, grantLast := 0, report := 0, reported := false, debit := 0,
    overRun := 0, missing := 0, jobs := [], wait := .none, run := Option.none, parked := [], blocked := false,
    moved := false, aperture := [], moving := false, resetting := Option.none, remote := [],
    remoteWait := [] }

def Sites.reset : Sites := { site := [] }

def Age.reset : Age :=
  { margin := 0, worst := Option.none, history := [], proposed := Option.none, rate := 0, days := Option.none,
    turn := 0, credit := 0, propNo := 0 }

def Power.reset : Power :=
  { on := [], switching := Option.none, level := [], temps := [], warnAt := 90, warned := false, profOn := false, profBase := 0,
    profLen := 0, profPeriod := 0, profCount := 0, skipped := 0, dropped := 0, age := [], auto := false, lead := 4096,
    proposals := 0 }

def Msix.reset : Msix := { addr := 0, data := 0, masked := true, pending := false }

/-- A function after reset; only the PF, function 0, has tags (Table 15-8). -/
def Func.reset (fn : Nat) : Func :=
  { share := 0, tags := if fn = 0 then 4096 else 0, bar4 := 0, msixEn := false, fnMask := false, msix := [],
    msiEn := false, mme := 0, msiMask := [], msiPend := [], d3 := false }

def HostEnd.reset : HostEnd :=
  { rate := 0, width := 0, flit := false, downs := 0, mayTrain := false, limit := 4096, func := [], barLog2 := 36,
    memSpace := false, vfEnable := false, numVfs := 0, doe := Option.none, nextTag := 0 }

def Security.reset : Security := { nonce := 0, warrants := [], held := [], measured := [] }

def FlashBank.reset : FlashBank :=
  { chunk := [], held := [], imageId := 0, chunks := 0, sealOk := true, erasing := false, cutShort := false }

def Saved.reset : Saved := { links := [], hbm := false, leat := Option.none, sealOk := false }

def Firmware.reset : Firmware :=
  { bank := [], records := [], journal := [], journalSeq := 0, saved := Saved.reset, wearRetired := [], wearTrim := [], wearStep := [],
    activation := Option.none, halted := false }

/-- The hub before PWROK has risen: every register at its reset value, nothing listed in memory. -/
def State.reset : State :=
  { pending := [], out := [], fresh := 0, fuse := Fuses.reset, otp := Otp.reset, pins := Pins.reset,
    boot := Boot.reset, turn := TurnUnit.reset, set := Settings.reset, ledger := Ledger.reset, glob := Global.reset,
    cmd := Commands.reset, plans := Plans.reset, mem := Mem.reset, coh := Coh.reset, xlate := Xlate.reset,
    fab := Fabric.reset, tallies := Tallies.reset, dma := [], arr := Arrays.reset, leat := Leat.reset,
    sites := Sites.reset, power := Power.reset, host := HostEnd.reset, sec := Security.reset, fw := Firmware.reset }

end Sys2Proof.Machine
end

