-- ==== Sys2Proof/Machine/Flags.lean ====
section
/-! DEFINITION. Number formats (Tables 3-2, 3-3), exact terms and their mint flags (R110-R123, Table 3-5), and the
conversions with their CONV_SAT flag. Everything is computed exactly over integers and rounded where a rule rounds. -/

namespace Sys2Proof.Machine

/-- A floating-point format: width, exponent bits, mantissa bits, bias, and its special values: 0 infinities and NaNs,
1 the one NaN of E4M3, 2 none (Table 3-3). -/
structure FpFmt where
  width : Nat
  e : Nat
  m : Nat
  bias : Nat
  kind : Nat
  deriving DecidableEq, Repr

/-- A value: NaN, an infinity, or n × 2^x with a sign, zero included. -/
inductive Val where
  | nan
  | inf (neg : Bool)
  | fin (neg : Bool) (n : Nat) (x : Int)
  deriving DecidableEq, Repr

def fmtE4M3 : FpFmt := ⟨8, 4, 3, 7, 1⟩
def fmtE5M2 : FpFmt := ⟨8, 5, 2, 15, 0⟩
def fmtE3M2 : FpFmt := ⟨6, 3, 2, 3, 2⟩
def fmtE2M3 : FpFmt := ⟨6, 2, 3, 1, 2⟩
def fmtE2M1 : FpFmt := ⟨4, 2, 1, 1, 2⟩
def fmtBF16 : FpFmt := ⟨16, 8, 7, 127, 0⟩
def fmtFP16 : FpFmt := ⟨16, 5, 10, 15, 0⟩
def fmtFP32 : FpFmt := ⟨32, 8, 23, 127, 0⟩

/-- The element format of a code of Table 3-2; none for the integer formats and MINT256. -/
def fpOf : Nat → Option FpFmt
  | 0x01 => some fmtE4M3
  | 0x02 => some fmtE5M2
  | 0x03 => some fmtE3M2
  | 0x04 => some fmtE2M3
  | 0x05 => some fmtE2M1
  | 0x06 => some fmtBF16
  | 0x07 => some fmtFP16
  | 0x08 => some fmtFP32
  | 0x11 => some fmtE4M3
  | 0x12 => some fmtE5M2
  | 0x13 => some fmtE3M2
  | 0x14 => some fmtE2M3
  | 0x15 => some fmtE2M1
  | _ => none

/-- The codes of Table 3-2. -/
def isFormat (c : Nat) : Bool :=
  [0x00, 0x01, 0x02, 0x03, 0x04, 0x05, 0x06, 0x07, 0x08, 0x10, 0x11, 0x12, 0x13, 0x14, 0x15, 0x20].contains c

def isMx (c : Nat) : Bool := 0x10 ≤ c && c ≤ 0x15

/-- Element bits of a format (Table 3-2). -/
def elemBits (c : Nat) : Nat :=
  match fpOf c with
  | some f => f.width
  | none => if c = 0x20 then 256 else 8

/-- Operand class of a format: 1 byte, 2 nibble, 3 half (Table 3-1). -/
def classOf (c : Nat) : Option Nat :=
  if c ≤ 0x04 ∨ (0x10 ≤ c ∧ c ≤ 0x14) then some 1
  else if c = 0x05 ∨ c = 0x15 then some 2
  else if c = 0x06 ∨ c = 0x07 then some 3
  else none

/-- The value of an encoded number (R104). -/
def FpFmt.decode (f : FpFmt) (v : Nat) : Val :=
  let s := bit v (f.e + f.m)
  let e := bits v (f.e + f.m - 1) f.m
  let m := v % 2 ^ f.m
  let top := 2 ^ f.e - 1
  if f.kind = 0 ∧ e = top then (if m = 0 then .inf s else .nan)
  else if f.kind = 1 ∧ e = top ∧ m = 2 ^ f.m - 1 then .nan
  else if e = 0 then .fin s m (1 - (f.bias : Int) - f.m)
  else .fin s (m + 2 ^ f.m) ((e : Int) - f.bias - f.m)

/-- The value of an element of a format code, before any shared scale (R104, R106). -/
def decodeElem (c v : Nat) : Val :=
  match fpOf c with
  | some f => f.decode v
  | none =>
    let n := sext 8 v
    .fin (n < 0) n.natAbs (if c = 0x10 then -6 else 0)

/-- The exponent of the leading one. -/
def topExp (n : Nat) (x : Int) : Int := (Nat.log2 n : Int) + x

/-- n × 2^x as a multiple of 2^q, rounded to nearest, ties to even. -/
def roundAt (n : Nat) (x q : Int) : Nat :=
  if x ≥ q then n * 2 ^ (x - q).toNat
  else
    let d := 2 ^ (q - x).toNat
    let k := n / d
    let r := n % d
    if 2 * r > d ∨ (2 * r = d ∧ k % 2 = 1) then k + 1 else k

/-- The largest finite magnitude, as mantissa and exponent. -/
def FpFmt.largest (f : FpFmt) : Nat × Int :=
  match f.kind with
  | 0 => (2 ^ (f.m + 1) - 1, (2 ^ f.e : Nat) - 2 - (f.bias : Int) - f.m)
  | 1 => (2 ^ (f.m + 1) - 2, (2 ^ f.e : Nat) - 1 - (f.bias : Int) - f.m)
  | _ => (2 ^ (f.m + 1) - 1, (2 ^ f.e : Nat) - 1 - (f.bias : Int) - f.m)

/-- a × 2^x > b × 2^y. -/
def gtExp (a : Nat) (x : Int) (b : Nat) (y : Int) : Bool :=
  if x ≥ y then a * 2 ^ (x - y).toNat > b else a > b * 2 ^ (y - x).toNat

/-- The magnitude n × 2^x rounded to a format's precision with an unbounded exponent above, as k × 2^q (R122). -/
def FpFmt.round (f : FpFmt) (n : Nat) (x : Int) : Nat × Int :=
  let q := max (topExp n x - f.m) (1 - (f.bias : Int) - f.m)
  (roundAt n x q, q)

/-- The sign bit of a format. -/
def FpFmt.sign (f : FpFmt) (neg : Bool) : Nat := if neg then 2 ^ (f.e + f.m) else 0

/-- The bits of a magnitude k × 2^q that the format holds exactly. -/
def FpFmt.pack (f : FpFmt) (k : Nat) (q : Int) : Nat :=
  if k = 0 then 0
  else if k < 2 ^ f.m then k
  else
    let k1 := if k = 2 ^ (f.m + 1) then 2 ^ f.m else k
    let q1 := if k = 2 ^ (f.m + 1) then q + 1 else q
    (q1 + f.m + f.bias).toNat * 2 ^ f.m + (k1 - 2 ^ f.m)

/-- The bits of the largest finite magnitude and of infinity. -/
def FpFmt.maxBits (f : FpFmt) : Nat := let (k, q) := f.largest; f.pack k q
def FpFmt.infBits (f : FpFmt) : Nat := (2 ^ f.e - 1) * 2 ^ f.m

/-- The canonical NaN (R123). -/
def FpFmt.nanBits (f : FpFmt) : Nat :=
  if f.kind = 1 then 2 ^ (f.e + f.m) - 1 else (2 ^ f.e - 1) * 2 ^ f.m + 2 ^ (f.m - 1)

/-- A finite value in a format, with CONV_SAT: overflow gives infinity where the format has one, and otherwise saturates
(R122, R140). -/
def FpFmt.encodeFin (f : FpFmt) (neg : Bool) (n : Nat) (x : Int) : Nat × Bool :=
  if n = 0 then (f.sign neg, false)
  else
    let (k, q) := f.round n x
    let (lk, lq) := f.largest
    if gtExp k q lk lq then
      if f.kind = 0 then (f.sign neg + f.infBits, false) else (f.sign neg + f.maxBits, true)
    else (f.sign neg + f.pack k q, false)

/-- A value in a format, with CONV_SAT: the special values under R122 and R140. -/
def FpFmt.encode (f : FpFmt) : Val → Nat × Bool
  | .nan => if f.kind = 2 then (0, true) else (f.nanBits, false)
  | .inf s =>
    if f.kind = 0 then (f.sign s + f.infBits, false)
    else if f.kind = 1 then (f.sign s + f.nanBits, true)
    else (f.sign s + f.maxBits, true)
  | .fin s n x => f.encodeFin s n x

/-! ### Exact arithmetic on values -/

def Val.mul : Val → Val → Val
  | .nan, _ => .nan
  | _, .nan => .nan
  | .inf s, .inf t => .inf (s != t)
  | .inf s, .fin t n _ => if n = 0 then .nan else .inf (s != t)
  | .fin s n _, .inf t => if n = 0 then .nan else .inf (s != t)
  | .fin s n x, .fin t m y => .fin (s != t) (n * m) (x + y)

/-- The signed integer of a finite value in units of 2^x. -/
def scaled (neg : Bool) (n : Nat) (x u : Int) : Int :=
  let v : Int := n * 2 ^ (x - u).toNat
  if neg then -v else v

/-- The sum; a sum of zero is +0 unless both are −0 (IEEE 754, round to nearest). Infinities of both signs give NaN; so does an MX
block whose products hold both, of which the spec says nothing (log entry 80). -/
def Val.add : Val → Val → Val
  | .nan, _ => .nan
  | _, .nan => .nan
  | .inf s, .inf t => if s = t then .inf s else .nan
  | .inf s, .fin _ _ _ => .inf s
  | .fin _ _ _, .inf t => .inf t
  | .fin s n x, .fin t m y =>
    let u := min x y
    let v := scaled s n x u + scaled t m y u
    if v = 0 then .fin (s && t) 0 u else .fin (v < 0) v.natAbs u

def Val.neg : Val → Val
  | .nan => .nan
  | .inf s => .inf (!s)
  | .fin s n x => .fin (!s) n x

/-- Order of two values that are not NaN: −1, 0 or 1, with +0 equal to −0. -/
def Val.cmp : Val → Val → Int
  | .inf s, .inf t => if s = t then 0 else if s then -1 else 1
  | .inf s, _ => if s then -1 else 1
  | _, .inf t => if t then 1 else -1
  | .fin s n x, .fin t m y =>
    let u := min x y
    (scaled s n x u - scaled t m y u).sign
  | _, _ => 0

def Val.isNan : Val → Bool
  | .nan => true
  | _ => false

def Val.isNeg : Val → Bool
  | .nan => false
  | .inf s => s
  | .fin s _ _ => s

/-- MAX and MIN of R182: a NaN operand gives NaN; +0 lies above −0. -/
def Val.maxMin (isMax : Bool) (a b : Val) : Val :=
  if a.isNan || b.isNan then .nan
  else
    let c := Val.cmp a b
    let aIsMax := c > 0 || (c = 0 && !a.isNeg)
    if aIsMax = isMax then a else b

/-- The value times 2^k. -/
def Val.shift : Val → Int → Val
  | .fin s n x, k => .fin s n (x + k)
  | v, _ => v

/-! ### Mint entries -/

def mintOvf : Nat := 1
def mintLoss : Nat := 2
def mintNan : Nat := 4
def mintInfPos : Nat := 8
def mintInfNeg : Nat := 16
def convSat : Nat := 32

/-- The valid range of a mint value (R112). -/
def mintLo : Int := -(2 ^ 254 : Nat)
def mintHi : Int := (2 ^ 254 : Nat) - 1

/-- A value clamped to the valid range, and whether that changed it (R112). -/
def clampMint (v : Int) : Int × Bool :=
  if v < mintLo then (mintLo, true) else if v > mintHi then (mintHi, true) else (v, false)

/-- floor(± n × 2^(x − A)) (R111). -/
def quantise (neg : Bool) (n : Nat) (x a : Int) : Int :=
  if x ≥ a then scaled neg n x a
  else
    let d : Int := (2 : Int) ^ (a - x).toNat
    (if neg then -(n : Int) else n) / d

/-- The mod-3 residue of a sum (R130). -/
def residueOf (v : Int) : Nat := (v % 3).toNat

/-- An exact term added to an entry under anchor `a`; its residue follows from the terms (R111-R115, R130). -/
def addTerm (a : Int) (e : MEntry) : Val → MEntry
  | .nan => { e with flags := e.flags ||| mintNan }
  | .inf s => { e with flags := e.flags ||| (if s then mintInfNeg else mintInfPos) }
  | .fin s n x =>
    if n = 0 then e
    else
      let (q, o) := clampMint (quantise s n x a)
      let loss := x < a && n < 2 ^ (a - x).toNat
      { value := e.value + q,
        flags := e.flags ||| (if o then mintOvf else 0) ||| (if loss then mintLoss else 0),
        residue := (e.residue + residueOf q) % 3 }

/-- An entry as it is read out: clamped, with MINT_OVF; the residue of a clamped sum is that of its clamped value (R113, R130). -/
def readOut (e : MEntry) : MEntry :=
  let (v, o) := clampMint e.value
  { value := v, flags := e.flags ||| (if o then mintOvf else 0), residue := if o then residueOf v else e.residue }

/-- The residue of an entry that is read out disagrees with its sum (R130). -/
def MEntry.mismatch (e : MEntry) : Bool := (readOut e).residue ≠ residueOf (readOut e).value

/-- The bytes of a MINT256 word (R117). -/
def mintBytes (v : Int) : Bytes := leBytes 32 (unsext 256 v)

/-- The value of a MINT256 word. -/
def mintOfBytes (b : Bytes) : Int := sext 256 (leVal b)

/-- The conversion of V × 2^A with its flags to a format (R121-R123, Table 3-8): bits and CONV_SAT. -/
def convertMint (f : FpFmt) (v a : Int) (flags : Nat) : Nat × Bool :=
  if bit flags 2 || (bit flags 3 && bit flags 4) then (f.nanBits, false)
  else if bit flags 3 then f.encode (.inf false)
  else if bit flags 4 then f.encode (.inf true)
  else if v = 0 then (0, false)
  else f.encodeFin (v < 0) v.natAbs a

/-- Entries counted in a status record (Table 4-11): flags ORed, overflows, losses, NaN or infinite ones. -/
def Counts.entry (c : Counts) (flags : Nat) : Counts :=
  { c with flagsOr := c.flagsOr ||| flags, ovf := c.ovf + flag (bit flags 0), loss := c.loss + flag (bit flags 1),
           nanInf := c.nanInf + flag (bit flags 2 || bit flags 3 || bit flags 4) }

/-- An element converted with CONV_SAT counted. -/
def Counts.element (c : Counts) (sat : Bool) : Counts :=
  if sat then { c with sat := c.sat + 1, flagsOr := c.flagsOr ||| convSat } else c

end Sys2Proof.Machine
end

