-- ==== Sys2Proof/Machine/Descriptors.lean ====
section
/-! DEFINITION. Descriptors: their encodings (Tables 2-6, 4-2 to 4-9, 5-6, 10-4 to 10-6, 12-7) and the checks that
PLAN_LOAD and DMA_SUBMIT make of each (R55, R101, R103, R144-R168, R189-R191, R324-R328). -/

namespace Sys2Proof.Machine

/-- A field of all ones in `n` bytes stands for none. -/
def noneIf (n v : Nat) : Option Nat := if v = 2 ^ (8 * n) - 1 then none else some v

/-- The common header and the WAIT, RAISE and ITER fields (Tables 2-6, 4-2). -/
def parseCommon (b : Bytes) : Option Common :=
  let h := rd b 4 4
  let w := rd b 8 8
  let r := rd b 16 8
  let m := rd b 0x1C 2
  if bits h 31 6 ≠ 0 ∨ bits w 15 14 ≠ 0 ∨ bits w 62 48 ≠ 0 ∨ bits r 15 14 ≠ 0 ∨ bits r 62 47 ≠ 0 ∨ m = 0 ∨ m > 4096 then
    none
  else
    some { type := rd b 0 2, len := rd b 2 2, task := bits h 5 0, waitEn := bit w 63, waitTally := bits w 13 0,
           waitN := bits w 46 16, waitSub := bit w 47, raiseEn := bit r 63, raiseTally := bits r 13 0,
           raiseAmount := bits r 46 16, iterFirst := rd b 0x18 2, iterCount := rd b 0x1A 2, iterMod := m }

/-- The highest iteration index a descriptor reaches (R146). -/
def Common.lastIter (c : Common) : Nat := (if c.iterCount = 0 then c.iterMod else min c.iterMod c.iterCount) - 1

/-- A raise that is enabled has an amount (R148). -/
def Common.raiseOk (c : Common) : Bool := !c.raiseEn || c.raiseAmount ≠ 0

/-! ### Array descriptors -/

/-- The range that a descriptor may touch ends before the Shoe intake area (R149). -/
def binLimit : Nat := 0x1FF_0000

def aligned (l : List Nat) : Bool := l.all fun v => v % 128 = 0

/-- STATUS_OFF: none, or a multiple of 32 within the permitted offsets (R149). -/
def statusOk (v : Nat) : Bool := v = 0xFFFF_FFFF || (v % 32 = 0 && v + 32 ≤ binLimit)

/-- Bytes of `n` elements of a format. -/
def elemBytes (fmt n : Nat) : Nat := (n * elemBits fmt + 7) / 8

/-- Extent of a weight tile (Table 4-3). -/
def weightExtent (fmt : Nat) : Nat := if isMx fmt then 0x4400 else if classOf fmt = some 3 then 0x2000 else 0x4000

def isPass (t : Nat) : Bool := 1 ≤ t && t ≤ 4
def isPreskew (t : Nat) : Bool := t = 2 || t = 4
def isKept (t : Nat) : Bool := t = 3 || t = 4

/-- Formats a bank drains to (R121, Table 4-4). -/
def drainFormats : List Nat := [0x01, 0x02, 0x06, 0x07, 0x08, 0x20]

/-- Bytes of one output row of a drain (R157). -/
def drainRow (fmt cols : Nat) : Nat := elemBytes fmt cols

def parsePass (b : Bytes) : Option PassD :=
  let ctl := rd b 0x23 1
  if bits ctl 7 5 ≠ 0 ∨ rd b 0x29 3 ≠ 0 then none
  else
    some { anchor := sext 16 (rd b 0x1E 2), inFmt := rd b 0x20 1, wFmt := rd b 0x21 1, outFmt := rd b 0x22 1,
           bank := bits ctl 0 0, alt := bit ctl 1, cont := bit ctl 2, shoe := bit ctl 3, preload := bit ctl 4,
           inner := rd b 0x24 2, outer := rd b 0x26 2, vecs := rd b 0x28 1, inBase := rd b 0x2C 4,
           inStepK := rd b 0x30 4, inStepO := rd b 0x34 4, inStepI := rd b 0x38 4, wBase := rd b 0x3C 4,
           wStepK := rd b 0x40 4, wStepO := rd b 0x44 4, wStepI := rd b 0x48 4, outBase := rd b 0x4C 4,
           outStepO := rd b 0x50 4, outStepI := rd b 0x54 4, outPitch := rd b 0x58 4, status := rd b 0x5C 4 }

/-- Vectors in all the passes of one iteration, the stream length of R151. -/
def PassD.stream (d : PassD) : Nat := d.inner * d.outer * d.vecs

/-- End of the input range of a pass over every pass, group and iteration index (R149-R151, R155). -/
def PassD.inEnd (d : PassD) (pre : Bool) (i : Nat) : Nat :=
  let mx := isMx d.inFmt
  if pre then d.inBase + i * d.inStepI + (d.stream + 127) * 128 + (if mx then d.stream * 8 else 0)
  else
    d.inBase + i * d.inStepI + (d.outer - 1) * d.inStepO + (d.inner - 1) * d.inStepK +
      (if d.shoe then 128 else if mx then 0x4400 else d.vecs * 128)

def PassD.wEnd (d : PassD) (i : Nat) : Nat :=
  d.wBase + i * d.wStepI + (d.outer - 1) * d.wStepO + (d.inner - 1) * d.wStepK + weightExtent d.wFmt

/-- Columns of a pass's class (Table 3-1). -/
def PassD.cols (d : PassD) : Nat := if classOf d.inFmt = some 3 then 64 else 128

/-- Bytes one group's drain covers from its base (R157). -/
def PassD.outExtent (d : PassD) : Nat :=
  if d.outFmt = 0x20 then (if d.shoe then 0x1080 else 0x8_4000)
  else if d.shoe then drainRow d.outFmt d.cols
  else (d.vecs - 1) * d.outPitch + drainRow d.outFmt d.cols

/-- The checks of a pass (R101, R103, R149, R151, R156, R157, R160). -/
def passOk (c : Common) (d : PassD) (shoeSlot : Bool) (prev : Option Desc) : Bool :=
  let pre := isPreskew c.type
  let i := c.lastIter
  let drains := d.outFmt ≠ 0xFF
  1 ≤ d.inner && d.inner ≤ 4096 && 1 ≤ d.outer && d.outer ≤ 4096 &&
  isFormat d.inFmt && isFormat d.wFmt && (classOf d.inFmt).isSome && classOf d.inFmt = classOf d.wFmt &&
  (isMx d.inFmt == isMx d.wFmt) &&
  (drainFormats.contains d.outFmt || d.outFmt = 0xFF) && (drains || d.outer = 1) &&
  (!isKept c.type || d.wStepK = 0) && (!pre || (d.inStepK = 0 && d.inStepO = 0)) &&
  (d.shoe == shoeSlot) && (!d.shoe || (!pre && !isMx d.inFmt)) &&
  (if d.shoe then d.vecs = 0 else 1 ≤ d.vecs && d.vecs ≤ 128) &&
  (!d.preload || (match prev with
    | some { b := .wload w, .. } => w.wFmt = d.wFmt
    | _ => false)) &&
  aligned [d.inBase, d.inStepK, d.inStepO, d.inStepI, d.wBase, d.wStepK, d.wStepO, d.wStepI, d.outBase, d.outStepO,
           d.outStepI, d.outPitch] &&
  (if d.shoe || d.outFmt = 0x20 then d.outPitch = 0
   else !drains || drainRow d.outFmt d.cols ≤ d.outPitch) &&
  d.inEnd pre i ≤ binLimit && d.wEnd i ≤ binLimit &&
  (!drains || d.outBase + i * d.outStepI + (d.outer - 1) * d.outStepO + d.outExtent ≤ binLimit) &&
  statusOk d.status

def parseWload (b : Bytes) : Option WloadD :=
  if rd b 0x1E 2 ≠ 0 ∨ rd b 0x21 3 ≠ 0 then none
  else some { wFmt := rd b 0x20 1, wBase := rd b 0x24 4, wStepI := rd b 0x28 4, status := rd b 0x2C 4 }

def wloadOk (c : Common) (d : WloadD) : Bool :=
  isFormat d.wFmt && (classOf d.wFmt).isSome && aligned [d.wBase, d.wStepI] &&
  d.wBase + c.lastIter * d.wStepI + weightExtent d.wFmt ≤ binLimit && statusOk d.status

def parseDrain (b : Bytes) : Option DrainD :=
  if rd b 0x1E 1 > 1 ∨ rd b 0x21 3 ≠ 0 ∨ rd b 0x34 4 ≠ 0 then none
  else
    some { bank := rd b 0x1E 1, outFmt := rd b 0x1F 1, rows := rd b 0x20 1, outBase := rd b 0x24 4,
           outStepI := rd b 0x28 4, outPitch := rd b 0x2C 4, status := rd b 0x30 4 }

/-- Bytes a DRAIN covers from its base with a number of columns (R157, R162). -/
def DrainD.extent (d : DrainD) (cols : Nat) : Nat :=
  if d.outFmt = 0x20 then 0x8_4000 else (d.rows - 1) * d.outPitch + drainRow d.outFmt cols

def drainOk (c : Common) (d : DrainD) : Bool :=
  drainFormats.contains d.outFmt && (d.outFmt = 0x20 || (1 ≤ d.rows && d.rows ≤ 128)) &&
  aligned [d.outBase, d.outStepI, d.outPitch] &&
  (if d.outFmt = 0x20 then d.outPitch = 0 else drainRow d.outFmt 64 ≤ d.outPitch) &&
  d.outBase + c.lastIter * d.outStepI + d.extent 128 ≤ binLimit && statusOk d.status

def parseShoeHead (b : Bytes) : Option ShoeHeadD :=
  if rd b 0x1E 2 ≠ 0 ∨ rd b 0x22 2 ≠ 0 ∨ rd b 0x2C 4 ≠ 0 then none
  else some { maxBatches := rd b 0x20 1, complLog2 := rd b 0x21 1, complBase := rd b 0x24 4, status := rd b 0x28 4 }

def shoeHeadOk (c : Common) (d : ShoeHeadD) : Bool :=
  c.raiseAmount = 0 && 1 ≤ d.maxBatches && 8 ≤ d.complLog2 && d.complLog2 ≤ 12 && d.complBase % 4096 = 0 &&
  d.complBase + 64 + 2 ^ d.complLog2 * 16 ≤ binLimit && statusOk d.status

/-- The operation codes of Table 4-8. -/
def boltOps : List Nat :=
  [0x01, 0x02, 0x03, 0x04, 0x05, 0x06, 0x07, 0x08, 0x10, 0x11, 0x12, 0x13, 0x14, 0x15, 0x20, 0x21, 0x30, 0x31, 0x38,
   0x40, 0x41]

/-- Bolter cycles of an operation on a 128 × 128 block (Table 4-8). -/
def boltCycles (op : Nat) : Nat := if op = 0x14 ∨ op = 0x15 ∨ op = 0x31 ∨ op = 0x40 then 128 else if op = 0x41 then 256 else 64

def parseBolt (b : Bytes) : Option BoltD :=
  let src := rd b 0x20 1
  let mode := rd b 0x24 1
  if bits src 7 4 ≠ 0 ∨ bits mode 7 2 ≠ 0 ∨ rd b 0x48 8 ≠ 0 then none
  else
    some { anchor := sext 16 (rd b 0x1E 2), srcA := bits src 1 0, srcB := bits src 3 2, aFmt := rd b 0x21 1,
           bFmt := rd b 0x22 1, outFmt := rd b 0x23 1, bf16 := bit mode 0, axis := bit mode 1, k := rd b 0x25 1,
           rows := rd b 0x26 1, cols := rd b 0x27 1, aOff := rd b 0x28 4, aPitch := rd b 0x2C 4, bOff := rd b 0x30 4,
           bPitch := rd b 0x34 4, outOff := rd b 0x38 4, outPitch := rd b 0x3C 4, stepI := rd b 0x40 4,
           status := rd b 0x44 4 }

/-- The formats of elements that the Bolter reads and writes one by one (log entry 17). -/
def isLaneElem (f : Nat) : Bool := f ≤ 0x08

/-- Output formats that Table 3-12 allows for an operation (R166). -/
def boltOutOk (op : Nat) (d : BoltD) : Bool :=
  if op ≤ 0x15 then d.outFmt = 0x06 || d.outFmt = 0x08
  else if op = 0x20 ∨ op = 0x21 then drainFormats.contains d.outFmt
  else if op = 0x30 then 1 ≤ d.outFmt && d.outFmt ≤ 5
  else if op = 0x31 then isMx d.outFmt
  else if op = 0x38 then [0x01, 0x02, 0x06, 0x07, 0x08].contains d.outFmt
  else if op = 0x40 then
    isLaneElem d.outFmt && (if d.srcA = 0 then d.outFmt = d.aFmt else d.outFmt = 0x08)
  else d.outFmt = (if d.bf16 then 0x06 else 0x08)

/-- Bytes of a block of `n` rows of a width. -/
def blockEnd (off pitch n width : Nat) : Nat := off + (n - 1) * pitch + width

/-- Ends of the ranges a BOLT touches, at iteration offset 0 (R149, R164, R165). -/
def boltEnds (op : Nat) (d : BoltD) : List Nat :=
  (if d.srcA = 0 then [blockEnd d.aOff d.aPitch d.rows (elemBytes d.aFmt d.cols)] else []) ++
  (if d.srcB = 1 then [blockEnd d.bOff d.bPitch d.rows (elemBytes d.bFmt d.cols)]
   else if d.srcB = 2 then [d.bOff + elemBytes d.bFmt d.rows]
   else if d.srcB = 3 then [d.bOff + elemBytes d.bFmt d.cols] else []) ++
  (if op = 0x20 ∨ op = 0x21 then
     let n := if op = 0x20 then d.rows else d.cols
     [d.outOff + (if d.outFmt = 0x20 then 0x1000 + n else elemBytes d.outFmt n)]
   else if op = 0x41 then
     [blockEnd d.outOff d.outPitch d.rows (elemBytes d.outFmt d.k), blockEnd d.bOff d.bPitch d.rows d.k]
   else if op = 0x31 then [d.outOff + 0x4400]
   else if op = 0x40 then [blockEnd d.outOff d.outPitch d.cols (elemBytes d.outFmt d.rows)]
   else [blockEnd d.outOff d.outPitch d.rows (elemBytes d.outFmt d.cols)])

/-- The checks of a BOLT (R149, R164-R166). -/
def boltOk (c : Common) (d : BoltD) : Bool :=
  let op := c.type - 0x80
  let mint := op = 0x20 || op = 0x21
  boltOps.contains op && d.srcA ≤ 2 && 1 ≤ d.rows && d.rows ≤ 128 && 1 ≤ d.cols && d.cols ≤ 128 &&
  ((d.srcB ≠ 0) == decide (op ≤ 8)) &&
  (if op = 0x41 then 1 ≤ d.k && d.k ≤ d.cols else d.k = 0) && (mint || d.anchor = 0) &&
  (d.srcB ≠ 0 || op = 0x41 || (d.bOff = 0 && d.bPitch = 0)) && (d.srcB < 2 || d.bPitch = 0) &&
  (!(op = 0x31 || mint) || d.outPitch = 0) &&
  (if d.srcA = 0 then isLaneElem d.aFmt else d.aFmt = 0 && d.aOff = 0 && d.aPitch = 0) &&
  (if d.srcB = 0 then d.bFmt = 0 else isLaneElem d.bFmt) && (op = 0x31 || !d.axis) && boltOutOk op d &&
  aligned [d.aOff, d.aPitch, d.bOff, d.bPitch, d.outOff, d.outPitch, d.stepI] &&
  (boltEnds op d).all (fun e => e + c.lastIter * d.stepI ≤ binLimit) && statusOk d.status

/-! ### DMA, reduction and site descriptors -/

/-- A virtual address field: bits above 56 are zero, or all ones where that means none (R328). -/
def vaOk (v : Nat) : Bool := v < 2 ^ 57
def vaOrNone (v : Nat) : Bool := v < 2 ^ 57 || v = 2 ^ 64 - 1

/-- RAISE_HUB: the hub named, where REMOTE is set (Table 5-6). -/
def parseHub (v : Nat) : Option (Option Nat) :=
  if bits v 30 17 ≠ 0 then none else some (if bit v 31 then some (bits v 16 0) else none)

def redTypes : List Nat :=
  [0x0301, 0x0302, 0x0303, 0x0304, 0x0305, 0x0310, 0x0311, 0x0312, 0x0313, 0x0314, 0x0315]

def parseRed (b : Bytes) : Option RedD :=
  let ctl := rd b 0x22 1
  match parseHub (rd b 0x50 4) with
  | none => none
  | some hub =>
    if bits ctl 7 1 ≠ 0 ∨ rd b 0x23 1 ≠ 0 ∨ rd b 0x54 8 ≠ 0 ∨ rd b 0x5C 4 ≠ 0 ∨ !vaOk (rd b 0x28 8) ∨
       !vaOk (rd b 0x30 8) ∨ !vaOrNone (rd b 0x48 8) then none
    else
      some { anchor := sext 16 (rd b 0x1E 2), srcKind := rd b 0x20 1, outFmt := rd b 0x21 1, compact := bit ctl 0,
             count := rd b 0x24 4, src := rd b 0x28 8, dst := rd b 0x30 8, srcStepI := rd b 0x38 8,
             dstStepI := rd b 0x40 8, status := noneIf 8 (rd b 0x48 8), raiseHub := hub }

/-- Bytes of one element of a vector operation; 64 for cells. -/
def redElem (t : Nat) : Nat :=
  if t < 0x0310 then 64 else if t = 0x0310 then 8 else if t ≤ 0x0313 then 4 else 2

/-- Bytes of one item at the destination: a MINT_READ writes words or converted values (R193). -/
def redDstElem (t outFmt : Nat) : Nat := if t = 0x0303 then (if outFmt = 0x20 then 32 else elemBytes outFmt 1) else redElem t

/-- The checks of a reduction descriptor (R189-R191, R328, Table 5-6). -/
def redOk (c : Common) (d : RedD) : Bool :=
  let t := c.type
  redTypes.contains t && 1 ≤ d.count && d.count ≤ 2 ^ 20 && (t = 0x0301 || t = 0x0302 || d.anchor = 0) &&
  (if t = 0x0302 then d.srcKind ≤ 1 && d.count ≤ (if d.srcKind = 0 then 16384 else 128) else d.srcKind = 0) &&
  (if t = 0x0303 then drainFormats.contains d.outFmt else d.outFmt = 0) &&
  (t ≠ 0x0301 || (d.src = 0 && d.srcStepI = 0)) &&
  (t = 0x0301 || d.src + c.lastIter * d.srcStepI + (if t = 0x0302 then 32 else redElem t) * d.count ≤ 2 ^ 57) &&
  d.dst + c.lastIter * d.dstStepI + redDstElem t d.outFmt * d.count ≤ 2 ^ 57 &&
  (t = 0x0301 || (if t = 0x0302 then d.src % 64 = 0 && d.srcStepI % 64 = 0
                  else d.src % redElem t = 0 && d.srcStepI % redElem t = 0)) &&
  d.dst % redDstElem t d.outFmt = 0 && d.dstStepI % redDstElem t d.outFmt = 0

def parseCopy (b : Bytes) : Option DmaD :=
  let place := rd b 0x1E 1
  let ctl := rd b 0x1F 1
  match parseHub (rd b 0x78 4) with
  | none => none
  | some hub =>
    if bits place 7 6 ≠ 0 ∨ bits ctl 7 2 ≠ 0 ∨ rd b 0x3C 4 ≠ 0 ∨ rd b 0x7C 4 ≠ 0 ∨ !vaOrNone (rd b 0x70 8) ∨
       (!bit ctl 0 ∧ !vaOk (rd b 0x20 8)) ∨ (!bit ctl 1 ∧ !vaOk (rd b 0x28 8)) then none
    else
      some { fill := none, hint := bits place 1 0, target := bits place 5 2, srcHost := bit ctl 0, dstHost := bit ctl 1,
             src := rd b 0x20 8, dst := rd b 0x28 8, rowBytes := rd b 0x30 4, rows := rd b 0x34 4, planes := rd b 0x38 4,
             srcRow := rd b 0x40 8, dstRow := rd b 0x48 8, srcPlane := rd b 0x50 8, dstPlane := rd b 0x58 8,
             srcStepI := rd b 0x60 8, dstStepI := rd b 0x68 8, status := noneIf 8 (rd b 0x70 8), raiseHub := hub }

def parseFill (b : Bytes) : Option DmaD :=
  let place := rd b 0x1E 1
  let ctl := rd b 0x1F 1
  match parseHub (rd b 0x50 4) with
  | none => none
  | some hub =>
    if bits place 7 6 ≠ 0 ∨ (ctl ≠ 0 ∧ ctl ≠ 2) ∨ rd b 0x54 8 ≠ 0 ∨ rd b 0x5C 4 ≠ 0 ∨ !vaOrNone (rd b 0x48 8) ∨
       (!bit ctl 1 ∧ !vaOk (rd b 0x20 8)) then none
    else
      some { fill := some (rd b 0x40 8), hint := bits place 1 0, target := bits place 5 2, srcHost := false,
             dstHost := bit ctl 1, src := 0, dst := rd b 0x20 8, rowBytes := rd b 0x28 4, rows := rd b 0x2C 4, planes := 1,
             srcRow := 0, dstRow := rd b 0x30 8, srcPlane := 0, dstPlane := 0, srcStepI := 0, dstStepI := rd b 0x38 8,
             status := noneIf 8 (rd b 0x48 8), raiseHub := hub }

/-- The last byte of a range lies within its address space (R327). -/
def spanOk (host : Bool) (base i stepI planes planeStep rows rowStep rowBytes : Nat) : Bool :=
  base + i * stepI + (planes - 1) * planeStep + (rows - 1) * rowStep + rowBytes ≤ 2 ^ (if host then 64 else 57)

/-- The checks of a DMA_COPY or DMA_FILL (R250, R327, Tables 10-4, 10-5). -/
def dmaOk (c : Common) (d : DmaD) : Bool :=
  d.hint ≠ 3 && 1 ≤ d.rowBytes && d.rowBytes ≤ 2 ^ 24 && 1 ≤ d.rows && d.rows ≤ 2 ^ 20 && 1 ≤ d.planes &&
  d.planes ≤ 2 ^ 16 &&
  (d.fill.isSome || spanOk d.srcHost d.src c.lastIter d.srcStepI d.planes d.srcPlane d.rows d.srcRow d.rowBytes) &&
  spanOk d.dstHost d.dst c.lastIter d.dstStepI d.planes d.dstPlane d.rows d.dstRow d.rowBytes

def parseTallyOp (b : Bytes) : Option TallyOpD :=
  match parseHub (rd b 0x20 4) with
  | none => none
  | some hub =>
    let op := rd b 0x1E 1
    let n := rd b 0x28 4
    if rd b 0x1F 1 ≠ 0 ∨ bits (rd b 0x24 2) 15 14 ≠ 0 ∨ rd b 0x26 2 ≠ 0 ∨ rd b 0x2C 4 ≠ 0 ∨ n = 0 ∨ n ≥ 2 ^ 31 ∨ op = 0 ∨
       op > 2 then none
    else some { sub := op = 2, hub := hub, tally := rd b 0x24 2, amount := n }

def parseSite (b : Bytes) : Option SiteD :=
  match parseHub (rd b 0x68 4) with
  | none => none
  | some hub =>
    let inVa := noneIf 8 (rd b 0x40 8)
    let outVa := noneIf 8 (rd b 0x50 8)
    if rd b 0x1E 2 ≠ 0 ∨ rd b 0x78 8 ≠ 0 ∨ !vaOrNone (rd b 0x40 8) ∨ !vaOrNone (rd b 0x50 8) ∨ !vaOrNone (rd b 0x60 8) then
      none
    else
      some { args := sub b 0x20 32, inVa := inVa, inLen := rd b 0x48 8, outVa := outVa, outLen := rd b 0x58 8,
             status := noneIf 8 (rd b 0x60 8), raiseHub := hub, units := rd b 0x6C 4, stepI := rd b 0x70 8 }

/-- A virtual range of a site call stays within 2^57 (R327). -/
def siteOk (c : Common) (d : SiteD) : Bool :=
  (match d.inVa with | some v => v + c.lastIter * d.stepI + d.inLen ≤ 2 ^ 57 | none => true) &&
  (match d.outVa with | some v => v + c.lastIter * d.stepI + d.outLen ≤ 2 ^ 57 | none => true)

/-- LENGTH that a type must have (R144, R189, R324, R397). -/
def lengthOf (t : Nat) : Option Nat :=
  if isPass t then some 96
  else if t = 0x10 then some 48
  else if t = 0x11 then some 56
  else if t = 0x30 then some 48
  else if t = 0x40 then some 32
  else if 0x81 ≤ t ∧ t ≤ 0xC1 then some 80
  else if redTypes.contains t then some 96
  else if t = 0x0201 then some 128
  else if t = 0x0202 then some 96
  else if t = 0x0501 then some 48
  else if 0x0401 ≤ t ∧ t ≤ 0x04FF then some 128
  else none

/-- Types that a slot of a resource type may hold: 1 array, 2 engine, 6 site; 0 stands for a command queue (R144, R189,
R324, R397). -/
def typeAllowed (res t : Nat) : Bool :=
  match res with
  | 1 => t < 0x0100
  | 2 => t = 0x0201 || t = 0x0202 || t = 0x0501 || redTypes.contains t
  | 6 => 0x0401 ≤ t && t ≤ 0x04FF
  | _ => t = 0x0201 || t = 0x0202 || t = 0x0501

/-- A body that a parse gives, where its checks pass. -/
def bodyIf {α : Type} (x : Option α) (ok : α → Bool) (mk : α → Body) : Option Body :=
  x.bind fun d => if ok d then some (mk d) else none

/-- What a descriptor does, read from its bytes and checked. -/
def parseBody (c : Common) (b : Bytes) (shoeSlot : Bool) (prev : Option Desc) : Option Body :=
  let t := c.type
  if isPass t then bodyIf (parsePass b) (fun d => passOk c d shoeSlot prev) .pass
  else if t = 0x10 then bodyIf (parseWload b) (wloadOk c) .wload
  else if t = 0x11 then bodyIf (parseDrain b) (drainOk c) .drain
  else if t = 0x30 then bodyIf (parseShoeHead b) (shoeHeadOk c) .shoeHead
  else if t = 0x40 then (if rd b 0x1E 2 = 0 then some .sync else none)
  else if t < 0x0100 then bodyIf (parseBolt b) (boltOk c) .bolt
  else if t = 0x0201 then bodyIf (parseCopy b) (dmaOk c) .dma
  else if t = 0x0202 then bodyIf (parseFill b) (dmaOk c) .dma
  else if t = 0x0501 then bodyIf (parseTallyOp b) (fun _ => true) .tallyOp
  else if t < 0x0400 then bodyIf (parseRed b) (redOk c) .red
  else bodyIf (parseSite b) (siteOk c) .site

/-- A descriptor at an offset of a pool, for a slot of a resource type (R55, R145). The raise of a SHOE_HEAD has no
amount of its own; every other enabled raise has one (R148, R167). -/
def parseDesc (pool : Bytes) (off res : Nat) (shoeSlot : Bool) (prev : Option Desc) : Option Desc :=
  let b := pool.drop off
  if b.length < 32 then none
  else
    match parseCommon b with
    | none => none
    | some c =>
      if lengthOf c.type ≠ some c.len ∨ c.len > b.length ∨ !typeAllowed res c.type ∨ (c.type ≠ 0x30 ∧ !c.raiseOk) ∨
         (res = 0 ∧ (c.iterFirst ≠ 0 ∨ c.iterCount ≠ 0 ∨ c.iterMod ≠ 1)) then none
      else (parseBody c (b.take c.len) shoeSlot prev).map fun body => { off := off, c := c, b := body }

/-- `n` descriptors in pool order from an offset, each after the last. -/
def parseDescs : Nat → Bytes → Nat → Nat → Bool → Option Desc → Option (List Desc)
  | 0, _, _, _, _, _ => some []
  | n + 1, pool, off, res, shoe, prev =>
    match parseDesc pool off res shoe prev with
    | none => none
    | some d =>
      match parseDescs n pool (off + d.c.len) res shoe (some d) with
      | none => none
      | some r => some (d :: r)

end Sys2Proof.Machine
end

