-- ==== Sys2Proof/Machine/PlanParse.lean ====
section
/-! DEFINITION. Plan objects: header, resource tables, slot records, descriptor pool and transit claims (R46-R56). -/

namespace Sys2Proof.Machine

/-- How many of a resource type there are (Table 2-2). -/
def resCount : Nat → Nat
  | 1 => 256
  | 2 => 64
  | 3 => 8
  | 4 => 16
  | 5 => 64
  | 6 => 12
  | _ => 0

/-- Active resources run descriptors (R44). -/
def isActive (t : Nat) : Bool := t = 1 || t = 2 || t = 6

/-- The header of Table 2-4. -/
structure PlanHeader where
  totalLen : Nat
  crc : Nat
  part : Nat
  bucketLen : Nat
  tailraceLen : Nat
  tariffVer : Nat
  tables : Nat
  slots : Nat
  tableOff : Nat
  slotOff : Nat
  descOff : Nat
  descLen : Nat
  transitOff : Nat
  transits : Nat
  deriving DecidableEq, Repr

def parseHeader (b : Bytes) : PlanHeader :=
  { totalLen := rd b 0x08 4, crc := rd b 0x0C 4, part := bits (rd b 0x10 1) 3 0, bucketLen := rd b 0x11 1,
    tailraceLen := rd b 0x12 1, tariffVer := rd b 0x14 4, tables := rd b 0x18 2, slots := rd b 0x1A 2,
    tableOff := rd b 0x1C 4, slotOff := rd b 0x20 4, descOff := rd b 0x24 4, descLen := rd b 0x28 4,
    transitOff := rd b 0x2C 4, transits := rd b 0x30 2 }

/-- The regions of an object: start and length (R52). -/
def PlanHeader.regions (h : PlanHeader) : List (Nat × Nat) :=
  [(h.tableOff, h.tables * 264), (h.slotOff, h.slots * 32), (h.descOff, h.descLen), (h.transitOff, h.transits * 8)]

/-- Two regions share no byte. -/
def apart (x y : Nat × Nat) : Bool := x.2 = 0 || y.2 = 0 || x.1 + x.2 ≤ y.1 || y.1 + y.2 ≤ x.1

/-- No region of a list overlaps a later one. -/
def allApart : List (Nat × Nat) → Bool
  | [] => true
  | x :: r => r.all (apart x) && allApart r

/-- The rules of Table 2-4 and R52 that PLAN_LOAD checks. -/
def headerOk (b : Bytes) (h : PlanHeader) : Bool :=
  rd b 0 4 = 0x4E4C5048 && rd b 4 2 = 1 && rd b 6 2 = 64 && h.totalLen = b.length && h.totalLen % 8 = 0 &&
  h.totalLen ≤ 2 ^ 28 && 64 ≤ h.totalLen && bits (rd b 0x10 1) 7 4 = 0 && rd b 0x13 1 = 0 && rd b 0x32 14 = 0 &&
  1 ≤ h.tables && h.tables ≤ 420 && 1 ≤ h.slots && h.slots ≤ 2047 &&
  h.tableOff % 8 = 0 && h.slotOff % 8 = 0 && h.descOff % 8 = 0 &&
  64 ≤ h.tableOff && 64 ≤ h.slotOff && 64 ≤ h.descOff && (h.transitOff = 0 || 64 ≤ h.transitOff) &&
  ((h.transitOff = 0) == (h.transits = 0)) && h.regions.all (fun r => r.1 + r.2 ≤ h.totalLen) &&
  allApart h.regions && crc32 (b.take 0x0C ++ leBytes 4 0 ++ b.drop 0x10) = h.crc

/-- A bucket-table entry (Table 2-3): `none` where it breaks the table, otherwise idle or owned with its slot. -/
def parseEntry (active : Bool) (part slots e : Nat) : Option (Option Nat) :=
  let n := e % 2 ^ 11
  if !bit e 15 then (if e = 0 then some none else none)
  else if bits e 14 11 ≠ part then none
  else if active then (if n < slots then some (some n) else none)
  else if n = 0x7FF then some (some n) else none

/-- A resource table of 264 bytes (R53). -/
def parseTable (part slots : Nat) (b : Bytes) : Option ResTable :=
  let t := rd b 0 1
  let i := rd b 2 2
  if rd b 1 1 ≠ 0 ∨ rd b 4 4 ≠ 0 ∨ i ≥ resCount t then none
  else
    match (List.range 128).mapM fun k => parseEntry (isActive t) part slots (rd b (8 + 2 * k) 2) with
    | some es => some { res := { type := t, index := i }, entries := es }
    | none => none

/-- A SHOE_HEAD stands first in a slot with the SHOE flag, and nowhere else (R167). -/
def shoeOk (shoe : Bool) (ds : List Desc) : Bool :=
  let heads : List Bool := ds.map fun d => d.c.type = 0x30
  if shoe then heads.head? = some true && !heads.tail.contains true else !heads.contains true

/-- A slot record with its descriptors (R54). -/
def parseSlot (pool b : Bytes) : Option Slot :=
  let t := rd b 0 1
  let i := rd b 2 2
  let ctx := rd b 4 2
  let fl := rd b 6 1
  if !isActive t ∨ rd b 1 1 ≠ 0 ∨ i ≥ resCount t ∨ ctx ≥ 4096 ∨ fl > 1 ∨ (fl = 1 ∧ t ≠ 1) ∨ rd b 7 1 ≠ 0 ∨
     rd b 0x10 16 ≠ 0 ∨ rd b 0x0C 4 > pool.length then none
  else
    match parseDescs (rd b 0x0C 4) pool (rd b 8 4) t (fl = 1) none with
    | some ds =>
      if shoeOk (fl = 1) ds then some { res := { type := t, index := i }, ctx := ctx, shoe := fl = 1, descs := ds }
      else none
    | none => none

/-- A transit claim (R56). -/
def parseTransit (b : Bytes) : Option Transit :=
  let v := rd b 0 8
  if bits v 7 3 ≠ 0 ∨ bits v 31 15 ≠ 0 then none
  else some { port := bits v 2 0, bucket := bits v 14 8, bytes := bits v 63 32 }

/-- No resource stands in two tables (R53). -/
def noTwice : List Res → Bool
  | [] => true
  | x :: r => !r.contains x && noTwice r

/-- A table of an active resource names only slots of that resource (R46, R47). -/
def tableOk (slots : List Slot) (t : ResTable) : Bool :=
  !isActive t.res.type ||
    t.entries.all fun e =>
      match e with
      | none => true
      | some n => match slots[n]? with | some x => x.res = t.res | none => false

/-- The plan that an object holds, where it keeps R52 to R56. -/
def parsePlan (b : Bytes) (store : Nat) : Option Plan :=
  let h := parseHeader b
  if !headerOk b h then none
  else
    let pool := sub b h.descOff h.descLen
    match (List.range h.tables).mapM (fun k => parseTable h.part h.slots (sub b (h.tableOff + 264 * k) 264)),
          (List.range h.slots).mapM (fun k => parseSlot pool (sub b (h.slotOff + 32 * k) 32)),
          (List.range h.transits).mapM (fun k => parseTransit (sub b (h.transitOff + 8 * k) 8)) with
    | some ts, some ss, some tr =>
      if noTwice (ts.map ResTable.res) && ts.all (tableOk ss) then
        some { part := h.part, store := store, totalLen := h.totalLen, bucketLen := h.bucketLen,
               tailraceLen := h.tailraceLen, tariffVer := h.tariffVer, tables := ts, slots := ss, transits := tr,
               state := .loaded, unfit := false, takeover := none, tAct := 0, pendAct := none, pendRet := none }
      else none
    | _, _, _ => none

/-! ### Runs of a slot -/

/-- The table of a resource in a plan. -/
def Plan.tableOf (p : Plan) (r : Res) : List (Option Nat) :=
  match p.tables.find? fun t => t.res = r with
  | some t => t.entries
  | none => []

/-- Entry of a plan's table in a bucket. -/
def Plan.entry (p : Plan) (r : Res) (b : Nat) : Option Nat := (p.tableOf r).getD b none

/-- The buckets of a slot, in order. -/
def Plan.bucketsOf (p : Plan) (n : Nat) : List Nat :=
  match p.slots[n]? with
  | some s => (List.range 128).filter fun b => p.entry s.res b = some n
  | none => []

/-- Consecutive buckets gathered into runs: start and end (exclusive). -/
def runsOf : List Nat → List (Nat × Nat)
  | [] => []
  | b :: r =>
    match runsOf r with
    | (x, y) :: t => if x = b + 1 then (b, y) :: t else (b, b + 1) :: (x, y) :: t
    | [] => [(b, b + 1)]

/-- The runs of a slot (R47). -/
def Plan.runs (p : Plan) (n : Nat) : List (Nat × Nat) := runsOf (p.bucketsOf n)

end Sys2Proof.Machine
end

