-- ==== Sys2Proof/Machine/Ops.lean ====
section
/-! DEFINITION. The operations that every family of commands shares: outputs, events and interrupts, the fault ledger,
replies, functions and partitions, power domains, and the gate that every command passes. -/

namespace Sys2Proof.Machine

/-! ### Gate and outputs -/

/-- The always-on domain answers while PWROK is high and THERMTRIP# has not been asserted (R510, R436). -/
def aon (s : State) : Bool := s.pins.pwrok && !s.pins.thermtrip

/-- The rest of the hub answers while WARM_RST# is high as well (R511). -/
def live (s : State) : Bool := aon s && !s.pins.warmLow

/-- A command's effect on a hub that answers; on one that does not, nothing happens. The outputs are those of this
command alone. -/
def act (s : State) (f : State → State) : Host.Outcome State Fault Refusal :=
  if live s then .next (f { s with out := [] }) else .next { s with out := [] }

/-- The effect of an event that the always-on domain sees. -/
def actAon (s : State) (f : State → State) : Host.Outcome State Fault Refusal :=
  if aon s then .next (f { s with out := [] }) else .next { s with out := [] }

/-- The hub drives one more output. -/
def emit (s : State) (o : Output) : State := { s with out := s.out ++ [o] }

/-- A Leat flit that is neither training nor a marker: none leaves in holdover (R90). -/
def emitLeat (s : State) (o : Output) : State := if s.turn.holdover then s else emit s o

/-- An output that answers a requester. -/
def isAnswer : Output → Bool
  | .readData _ _ => true
  | .zeroData _ => true
  | .ack => true
  | .ackPoisoned => true
  | .mintAck _ => true
  | .value _ => true
  | .errorCompletion => true
  | _ => false

/-- What a request answers, taken from the outputs. -/
def capture (s : State) (f : State → State) : State × List Output :=
  let t := f { s with out := [] }
  ({ t with out := s.out ++ t.out.filter fun o => !isAnswer o }, t.out.filter isAnswer)

/-- A request that cannot be served yet is kept among the arrivals, with the next number. -/
def fileArrival (s : State) (what : Arrival) (tick : Bool) : State :=
  let n := s.fab.arrSeq
  { s with fab := { s.fab with arrSeq := n + 1, arrivals := s.fab.arrivals ++ [{ num := n, tick := tick, what := what }] } }

/-! ### Time -/

/-- The Turn in progress. -/
def now (s : State) : Nat := s.turn.count

/-- BUCKET of a ledger entry: 0xFF in a stretch segment (Table 18-1). -/
def bucketNow (s : State) : Nat := if s.turn.inStretch then 255 else s.turn.bucket

/-- Turn counts are 48 bits wide (R43). -/
def turnMod (n : Nat) : Nat := n % 2 ^ 48

/-- A resource worked for a partition in the bucket in progress (R94). -/
def noteBusy (s : State) (r : Res) (p : Nat) : State :=
  let e := (bucketNow s, r.type * 256 + r.index, p)
  if s.turn.busyNow.contains e then s else { s with turn := { s.turn with busyNow := e :: s.turn.busyNow } }

/-! ### Functions, partitions, domains -/

/-- The partition a command source acts for (Table 14-1). -/
def srcPart (src : Nat) : Nat := if src = 0 ∨ src = 17 then 0 else src - 1

/-- The function that issues a partition's host requests (R475). -/
def partFn (p : Nat) : Nat := if p = 0 then 0 else p + 1

/-- Function `f` exists: the PF, and VF1 to VF(NumVFs) while VF Enable is set (R475). -/
def fnExists (s : State) (f : Nat) : Bool := f = 0 || (s.host.vfEnable && f ≤ s.host.numVfs)

def func (s : State) (f : Nat) : Func := s.host.func.get f (Func.reset f)

def setFunc (s : State) (f : Nat) (v : Func) : State := { s with host := { s.host with func := s.host.func.put f v } }

/-- A power domain of Table 1-3 is on. -/
def domainOn (s : State) (d : Nat) : Bool := s.power.on.contains d

/-- The units of a domain answer requests: it is on and its switching off has not begun (R27, Table 13-2, step 1). -/
def answers (s : State) (d : Nat) : Bool :=
  domainOn s d && !(s.power.switching.any fun w => w.started && !w.on && decide (w.left.head? = some d))

/-- The power domain of a physical array, a Granary slice, a Leat link, an HBM stack and a site (Table 1-1). -/
def domOfArray (pa : Nat) : Nat := pa / 18
def domOfSlice (n : Nat) : Nat := 16 + n / 16
def domOfLink (n : Nat) : Nat := 20 + n / 16
def domOfStack (n : Nat) : Nat := 24 + n / 4
def domOfSite (n : Nat) : Nat := 26 + n / 6

/-! ### Interrupts and events -/

def setMsix (s : State) (f v : Nat) (e : Msix) : State :=
  setFunc s f { func s f with msix := (func s f).msix.put v e }

/-- A vector of a function falls due (R481-R483). In D3hot it is kept pending (R489). -/
def signal (s : State) (f v : Nat) : State :=
  let fn := func s f
  if fn.msixEn then
    let e := fn.msix.get v Msix.reset
    if fn.fnMask || e.masked || fn.d3 then setMsix s f v { e with pending := true }
    else emit s (.msix f e.addr e.data)
  else if fn.msiEn then
    let w := v % 32 % 2 ^ fn.mme
    if fn.msiMask.contains w || fn.d3 then setFunc s f { fn with msiPend := addNew fn.msiPend w }
    else emit s (.interrupt f w)
  else s

/-- An event is recorded in a sequence-clear register (R500). -/
def Sqc.record (r : Sqc) (b : Nat) : Sqc :=
  let q := (r.seq + 1) % 256
  { r with seq := q, stamps := r.stamps.put b q }

/-- The same with a value field (R500). -/
def Sqc.recordValue (r : Sqc) (b v : Nat) : Sqc := { r.record b with value := v }

/-- A write of the paired clear register (R501). -/
def Sqc.clear (r : Sqc) (n : Nat) : Sqc :=
  if (r.seq + 256 - n) % 256 ≥ 128 then { r with clr := n }
  else
    let left := r.stamps.filter fun e => !((n + 256 - e.2) % 256 < 128)
    { r with stamps := left, clr := n, value := if left.isEmpty then 0 else r.value }

/-- The event bits that stand, as a number. -/
def Sqc.events (r : Sqc) : Nat := ofBits (r.stamps.map Prod.fst)

def evtRegs (s : State) (f : Nat) : EvtRegs := s.glob.evt.get f EvtRegs.reset

/-- An event at one function (R509). -/
def eventAt (s : State) (b f : Nat) : State :=
  if fnExists s f then
    let e := evtRegs s f
    let s1 := { s with glob := { s.glob with evt := s.glob.evt.put f { e with stat := e.stat.record b } } }
    if e.en.getLsbD b then signal s1 f e.vec else s1
  else s

/-- An event at the PF alone. -/
def event (s : State) (b : Nat) : State := eventAt s b 0

/-- An event at the PF and at the function of a partition; partition 0's is the PF (R509, log entry 12). -/
def eventFor (s : State) (b p : Nat) : State :=
  if p = 0 then event s b else eventAt (event s b) b (partFn p)

/-- An event at every function that exists. -/
def eventAll (s : State) (b : Nat) : State := (List.range 17).foldl (fun t f => eventAt t b f) s

/-! ### Fault ledger -/

/-- The classes that the class tables mark fatal. -/
def fatalClasses : List Nat :=
  [0x00, 0x19, 0x26, 0x27, 0x33, 0x36, 0x44, 0x50, 0x57, 0x67, 0x89, 0x90, 0x92, 0x93, 0xA8, 0xA9, 0xB0, 0xB2, 0xB8]

def isFatal (cls : Nat) : Bool := fatalClasses.contains cls

/-- Entries held and not released (R531). -/
def Ledger.used (l : Ledger) : Nat := (l.head + 2 ^ 32 - l.tail) % 2 ^ 32

/-- There is room for an entry: the last sixteen slots hold only fatal ones (R532). -/
def Ledger.room (l : Ledger) (fatal : Bool) : Bool := l.used < (if fatal then 1024 else 1008)

/-- An entry is written, or counted in its class's overflow counter (R532). -/
def Ledger.push (l : Ledger) (fatal : Bool) (e : LedgerEntry) : Ledger :=
  if l.room fatal then
    { l with head := (l.head + 1) % 2 ^ 32,
             entries := (l.entries.filter fun x => x.seq % 1024 ≠ l.head % 1024) ++ [{ e with seq := l.head }] }
  else
    { l with ovf := l.ovf.put e.cls (satAdd 32 (l.ovf.get e.cls 0) 1), ovfFlag := true }

/-- The 64 bytes of an entry (Table 18-1). -/
def LedgerEntry.bytes (e : LedgerEntry) : Bytes :=
  leBytes 4 e.seq ++ leBytes 1 e.cls ++ leBytes 1 e.flags ++ leBytes 2 e.count ++ leBytes 6 e.turn ++
    leBytes 1 e.bucket ++ leBytes 1 0 ++ leBytes 1 e.unitKind ++ leBytes 1 0 ++ leBytes 2 e.unitIndex ++
    leBytes 1 (match e.part with | some p => 128 + p % 16 | none => 0) ++ leBytes 1 e.task ++ leBytes 2 0 ++
    leBytes 8 e.addr ++ leBytes 8 e.d0 ++ leBytes 8 e.d1 ++ leBytes 8 e.d2 ++ leBytes 8 e.d3

/-- The entry of an event at a moment (Table 18-1). -/
def Rec.entry (r : Rec) (turn bucket : Nat) : LedgerEntry :=
  { seq := 0, cls := r.cls, flags := r.flags ||| flag (isFatal r.cls), count := 1, turn := turn, bucket := bucket,
    unitKind := r.kind, unitIndex := r.index, part := r.part, task := r.task, addr := r.addr, d0 := r.d0, d1 := r.d1,
    d2 := r.d2, d3 := r.d3 }

/-- An entry goes to the ledger, with the events LEDGER and FATAL (R532, R535, Table 16-8). -/
def writeEntry (s : State) (e : LedgerEntry) : State :=
  let fatal := isFatal e.cls
  let s1 := { s with ledger := s.ledger.push fatal e }
  let s2 := if s.ledger.room fatal then event s1 1 else s1
  if fatal then event { s2 with boot := { s2.boot with fatal := true } } 2 else s2

/-- An event is recorded. -/
def record (s : State) (r : Rec) : State := writeEntry s (r.entry (now s) (bucketNow s))

/-- The summary entry of a group (R534). -/
def summaryOf (s : State) (n : Nat) (advised : Bool) (e : LedgerEntry) : LedgerEntry :=
  { e with flags := e.flags ||| 0x10 ||| (if advised then 2 else 0), count := min n 65535, turn := now s,
           bucket := bucketNow s }

def dropGroup (s : State) (key : Nat) : State :=
  { s with ledger := { s.ledger with groups := s.ledger.groups.drop key } }

/-- A group ends: a second entry where it held more than one event (R534). -/
def endGroup (s : State) (key : Nat) : State :=
  match s.ledger.groups.find? key with
  | some (n, adv, e) =>
    let s1 := dropGroup s key
    if n > 1 then writeEntry s1 (summaryOf s n adv e) else s1
  | none => s

/-- The groups of one owner end: 0 for the count groups, otherwise a descriptor. -/
def endGroups (s : State) (owner : Nat) : State :=
  ((s.ledger.groups.map Prod.fst).filter (fun k => k / 256 = owner)).foldl endGroup s

/-- An event of a class that is recorded once per group: per descriptor, or per 1,024 events with owner 0 (R534). -/
def recordIn (s : State) (owner : Nat) (r : Rec) : State :=
  let key := r.cls + 256 * owner
  match s.ledger.groups.find? key with
  | some (n, adv, e) =>
    let s1 := { s with ledger := { s.ledger with
                  groups := s.ledger.groups.put key (n + 1, adv || bit r.flags 1, e) } }
    if owner = 0 ∧ n + 1 ≥ 1024 then endGroup s1 key else s1
  | none =>
    let e := r.entry (now s) (bucketNow s)
    let s1 := writeEntry s e
    { s1 with ledger := { s1.ledger with groups := s1.ledger.groups.put key (1, bit r.flags 1, e) } }

/-- An event of a class recorded once per 1,024 (R534). -/
def recordCount (s : State) (r : Rec) : State := recordIn s 0 r

/-- An entry or record of the tariff changes: the next Turn boundary raises VERSION (R65). -/
def tariffChanged (s : State) : State := { s with glob := { s.glob with tariffDirty := true } }

/-! ### Replacement and alarms -/

/-- Life-cycle state: the number of the thermometer code that the seal bits show; SCRAPPED, 6, where they show none (R570). -/
def lcState (s : State) : Nat := ((List.range 7).find? fun n => s.otp.sealBits.toNat = 2 ^ n - 1).getD 6

/-- The MCTP message that reports the replacement causes and the Turn of assertion (R556). -/
def replaceMessage (p : Pins) : Output :=
  .mctp (leBytes 2 0 ++ leBytes 2 0xFFFF ++ leBytes 4 0 ++ leBytes 8 p.replace.toNat ++ leBytes 6 p.replaceTurn ++ leBytes 2 0 ++
    leBytes 2 0xFFFF ++ leBytes 6 0)

/-- A replacement cause is added (R555, R556). -/
def addCause (s : State) (b : Nat) : State :=
  if s.pins.replace.getLsbD b then s
  else
    let first := s.pins.replace = 0#5
    let pins := { s.pins with replace := s.pins.replace ||| BitVec.ofNat 5 (2 ^ b),
                              replaceTurn := if first then now s else s.pins.replaceTurn, replaceMsg := true }
    let s1 := record (event { s with pins := pins } 3) { cls := 0x98, d0 := pins.replace.toNat }
    if s.cmd.mctpPeer then emit s1 (replaceMessage pins) else s1

/-! ### Replies -/

/-- The code of a status (Table 14-6). -/
def Status.code : Status → Nat
  | .ok => 0x0000
  | .pendingTurn => 0x0001
  | .badOpcode => 0x0100
  | .badParam => 0x0101
  | .notPermitted => 0x0102
  | .busy => 0x0103
  | .notReady => 0x0104
  | .aborted => 0x0105
  | .turnPassed => 0x0106
  | .checkFailed => 0x0200
  | .planTiming => 0x0201
  | .planEnergy => 0x0202
  | .planReserve => 0x0203
  | .planOwnership => 0x0204
  | .notBlank => 0x0300
  | .eraseIncomplete => 0x0301
  | .imageIncomplete => 0x0302
  | .sigInvalid => 0x0400
  | .wrongUnit => 0x0401
  | .warrantExpired => 0x0402
  | .lcOrder => 0x0403

def chan (s : State) (f : Nat) : Chan := s.cmd.chan.get f Chan.reset

def setChan (s : State) (f : Nat) (c : Chan) : State := { s with cmd := { s.cmd with chan := s.cmd.chan.put f c } }

/-- A status reply but for its PHASE bit (Table 14-4). -/
def replyBytes (sqHead : Nat) (r : ReplyTo) (st : Status) (interim : Bool) (detail turn : Nat) : Bytes :=
  leBytes 2 st.code ++ leBytes 2 r.tag ++ leBytes 2 sqHead ++ [BitVec.ofNat 8 (2 * flag interim), 0#8] ++
    leBytes 8 detail ++ leBytes 6 turn ++ leBytes 2 0 ++ leBytes 2 r.opcode ++ leBytes 6 0

/-- The reply with its PHASE bit. -/
def withPhase (b : Bytes) (ph : Bool) : Bytes := b.set 6 (b.getD 6 0#8 ||| BitVec.ofNat 8 (flag ph))

/-- A reply takes the next completion entry of its source and signals (R444, R445, R484). -/
def ringWrite (s : State) (f : Nat) (b : Bytes) (noIrq : Bool) : State :=
  let c := chan s f
  let size := 2 ^ c.cqLog2
  let s1 := emit s (.hostWrite f (c.cqBase * 4096 + c.cqTail * 32) (withPhase b c.phase))
  let last := c.cqTail + 1 = size
  let s2 := setChan s1 f { c with cqTail := if last then 0 else c.cqTail + 1, cqUsed := c.cqUsed + 1,
                                  phase := if last then !c.phase else c.phase }
  if c.irqEn && !noIrq then signal s2 f c.vector else s2

/-- The service pause of FW_ACTIVATE: nothing is fetched and no reply is posted (R458). -/
def servicePause (s : State) : Bool := s.fw.activation.isSome

/-- A reply may be written to a source's ring now (R444, R458). -/
def canReply (s : State) (f : Nat) : Bool :=
  let c := chan s f
  !servicePause s && c.held.isEmpty && c.cqUsed < 2 ^ c.cqLog2

/-- A reply goes to its source; over MCTP the output goes with it (R444, R448). -/
def sendReply (s : State) (r : ReplyTo) (b out : Bytes) : State :=
  if r.source = 17 then emit s (.mctp (b ++ out.take 4096))
  else if canReply s r.source then ringWrite s r.source b r.noIrq
  else
    let c := chan s r.source
    setChan s r.source { c with held := c.held ++ [(b, r.noIrq)] }

/-- Replies that were held are posted as far as the ring has room, at most `n` of them (R444). -/
def flushHeld (n : Nat) (s : State) (f : Nat) : State :=
  match n with
  | 0 => s
  | n + 1 =>
    let c := chan s f
    match c.held with
    | [] => s
    | (b, q) :: rest =>
      if !servicePause s && c.cqUsed < 2 ^ c.cqLog2 then
        flushHeld n (ringWrite (setChan s f { c with held := rest }) f b q) f
      else s

/-- A final reply that waits for a completion entry: bit 1 of byte 6 is INTERIM (Table 14-4). -/
def isFinal (h : Bytes × Bool) : Bool := !bit (rd h.1 6 1) 1

/-- Started commands of a ring whose final reply has not been posted (IN_FLIGHT, Table 14-15). -/
def Chan.inFlight (c : Chan) : Nat := c.started.length + (c.held.filter isFinal).length

/-- The started commands of a source. -/
def startedOf (s : State) (src : Nat) : List Started := if src = 17 then s.cmd.mctp else (chan s src).started

def setStarted (s : State) (src : Nat) (l : List Started) : State :=
  if src = 17 then { s with cmd := { s.cmd with mctp := l } } else setChan s src { chan s src with started := l }

/-- A command has started. -/
def isStarted (s : State) (r : ReplyTo) : Bool := (startedOf s r.source).any fun x => x.reply = r

/-- The final reply of a started command. After a reset of its function it is discarded (R451, R488). Output bytes for
a host address are written before the reply. -/
def postFinal (s : State) (r : ReplyTo) (st : Status) (detail : Nat) (turn : Option Nat) (out : Option (Nat × Bytes)) :
    State :=
  if isStarted s r then
    let s1 := setStarted s r.source ((startedOf s r.source).filter fun x => x.reply ≠ r)
    let s2 := match out with
      | some (a, d) => if r.source = 17 ∨ d.isEmpty then s1 else emit s1 (.hostWrite r.source a d)
      | none => s1
    sendReply s2 r (replyBytes (chan s r.source).sqHead r st false detail (turn.getD (now s)))
      (match out with | some (_, d) => d | none => [])
  else s

/-- The interim reply of a started command (R451). -/
def postInterim (s : State) (r : ReplyTo) (turn : Nat) : State :=
  if isStarted s r then
    let s1 := setStarted s r.source
      ((startedOf s r.source).map fun x => if x.reply = r then { x with interim := true } else x)
    sendReply s1 r (replyBytes (chan s r.source).sqHead r .pendingTurn true 0 turn) []
  else s

/-! ### Settings in force -/

/-- Owner-table key of a resource's bucket (Table 19-3): type code, index, bucket. -/
def ownKey (type index bucket : Nat) : Nat := (type * 256 + index) * 128 + bucket

/-- The partition that owns a bucket of a resource; 16 for none. At reset partition 0 owns all (R48). -/
def Settings.ownerOf (g : Settings) (type index bucket : Nat) : Nat := g.owner.get (ownKey type index bucket) 0

/-- Mesh weight of a partition in a bucket; at reset partition 0 holds 60 (R306). -/
def Settings.weightOf (g : Settings) (p bucket : Nat) : Nat := g.weight.get (p * 128 + bucket) (if p = 0 then 60 else 0)

/-- Energy share of a partition in a group and bucket, 0.1 W; 0xFFFF the remainder (R69). -/
def Settings.energyOf (g : Settings) (p grp bucket : Nat) : Nat :=
  g.energy.get ((p * 8 + grp) * 128 + bucket) (if p = 0 then 0xFFFF else 0)

/-- Slope share of a partition in a group, 0.1 A (R429). -/
def Settings.slopeOf (g : Settings) (p grp : Nat) : Nat := g.slope.get (p * 8 + grp) (if p = 0 then 240 else 0)

def Settings.shareOf (g : Settings) (cls : Nat) : Share := g.share.get cls (Share.reset cls)

def Settings.windowOf (g : Settings) (n : Nat) : Window := g.window.get n Window.reset

def Settings.routeOf (g : Settings) (n : Nat) : Route := g.route.get n Route.reset

def Settings.siteRateOf (g : Settings) (n : Nat) : Nat := g.siteRate.get n 8
def Settings.sitePartOf (g : Settings) (n : Nat) : Nat := g.sitePart.get n 0
def Settings.siteReserveOf (g : Settings) (n : Nat) : Nat := g.siteReserve.get n 1500
def Settings.siteMaxOf (g : Settings) (n : Nat) : Nat := g.siteMax.get n 2500
def Settings.siteCacheOf (g : Settings) (n : Nat) : Nat := g.siteCache.get n 0
def Settings.siteShareOf (g : Settings) (n : Nat) : Nat := g.siteShare.get n 0

/-- Way `w` is a scratch way (R206). -/
def Settings.isScratch (g : Settings) (w : Nat) : Bool := w < g.scratchWays

/-- The cache ways that a partition owns (R206). -/
def Settings.cacheWays (g : Settings) (p : Nat) : List Nat :=
  (List.range 16).filter fun w => !g.isScratch w && g.wayOwner.get w 0 = p

/-- The directory ways that a partition owns (R244). -/
def Settings.dirWays (g : Settings) (p : Nat) : List Nat := (List.range 16).filter fun w => g.dirOwner.get w 0 = p

/-! ### Erases of the flash -/

/-- A journal entry is written. -/
def Firmware.enter (f : Firmware) (off len : Nat) (done : Bool) : Firmware :=
  { f with journal := f.journal ++ [{ seq := f.journalSeq, off := off, len := len, done := done }],
           journalSeq := (f.journalSeq + 1) % 2 ^ 32 }

/-- An erase is journalled (R593). A journal block holds its seal word and 2,047 entries, the last of them for the erase of the
next block. -/
def Firmware.erase (f : Firmware) (off len : Nat) (done : Bool) : Firmware :=
  if f.journalSeq % 2047 = 2046 then
    let b := (f.journalSeq / 2047 + 1) % 16
    let kept := f.journal.filter fun e => e.seq / 2047 % 16 ≠ b
    (({ f with journal := kept }).enter (0x390_0000 + b * 0x1_0000) 0x1_0000 true).enter off len done
  else f.enter off len done

/-- The saved training region is erased and written anew; the wear record likewise (Table 20-3). -/
def Firmware.eraseSaved (f : Firmware) : Firmware := f.erase 0x3A0_0000 0x20_0000 true
def Firmware.eraseWear (f : Firmware) : Firmware := f.erase 0x3C0_0000 0x10_0000 true

/-! ### Values that the spec leaves open -/

/-- The next free value's number is taken. -/
def takeFresh (s : State) : State := { s with fresh := s.fresh + 1 }

end Sys2Proof.Machine
end

