-- ==== Sys2Proof/Machine/Memory.lean ====
section
/-! DEFINITION. The address map, the cells of memory with their poison, the deed check, and the checks a request
meets at the memory. -/

namespace Sys2Proof.Machine

/-! ### Address map (Table 1-4, Table 1-5) -/

def hbmEnd : Nat := 0x048_0000_0000
def scratchBase : Nat := 0x100_0000_0000
def binBase : Nat := 0x140_0000_0000
def siteBase : Nat := 0x180_0000_0000
def regBase : Nat := 0x1F0_0000_0000
def binSize : Nat := 0x200_0000
def granule : Nat := 0x20_0000

/-- Where a local address lies (R29). -/
def regionOf (pa : Nat) : Region :=
  if pa < hbmEnd then .hbm
  else if scratchBase ≤ pa ∧ pa < 0x102_0000_0000 then .scratch
  else if binBase ≤ pa ∧ pa < 0x142_0000_0000 then .bin ((pa - binBase) / binSize) ((pa - binBase) % binSize)
  else if siteBase ≤ pa ∧ pa < 0x1B0_0000_0000 then
    .site ((pa - siteBase) / 0x4_0000_0000) ((pa - siteBase) % 0x4_0000_0000)
  else if regBase ≤ pa ∧ pa < 0x1F0_0400_0000 then .regs (pa - regBase)
  else .reserved

/-- The hub number of a physical address, and its local part (R34). -/
def hubOf (pa : Nat) : Nat := bits pa 57 41
def localOf (pa : Nat) : Nat := bits pa 40 0

/-- The tally window of R33. -/
def inTallyWindow (off : Nat) : Bool := 0x80_0000 ≤ off && off < 0x82_0000

/-- The Shoe intake area of a bin (R131). -/
def inShoeArea (off : Nat) : Bool := 0x1FF_0000 ≤ off && off < 0x200_0000

/-! ### Leat links and ports -/

def linkOf (s : State) (n : Nat) : Link := s.leat.link.get n Link.reset

def portOf (s : State) (n : Nat) : Port := s.leat.port.get n Port.reset

/-! ### HBM geometry -/

def stackOf (s : State) (n : Nat) : Stack := s.mem.hbm.get n Stack.reset

def setStack (s : State) (n : Nat) (v : Stack) : State := { s with mem := { s.mem with hbm := s.mem.hbm.put n v } }

/-- Pseudo-channel index of an HBM address (R223). -/
def pcIndex (pa : Nat) : Nat := bits pa 15 8 ^^^ bits pa 23 16

/-- HBM capacity in bytes: all eight stacks have trained at a rate, and are of one height (R221, R222). A stack that goes out of service
later stays mapped: its requests return poison (R225). -/
def fitted (s : State) : Nat :=
  if (List.range 8).all fun n => (stackOf s n).rate ≠ 0 then
    (if (stackOf s 0).high12 then 288 else 192) * 2 ^ 30
  else 0

/-- The address lies on a stack out of service or on a lost pseudo-channel (R225, R233). -/
def deadAt (s : State) (pa : Nat) : Bool :=
  let p := pcIndex pa
  let st := stackOf s (p / 32)
  st.cattrip || st.pcLost.contains (p % 32)

/-- Slice of an HBM line: the 6-bit XOR fold of PA[40:7] (R209). -/
def foldSlice (line : Nat) : Nat :=
  (List.range 6).foldl (fun a k => a ^^^ (line / 2 ^ (6 * k)) % 64) 0

/-- Home slice of a line PA/128 (R207, R242). -/
def sliceOf (line : Nat) : Nat := if line * 128 < hbmEnd then foldSlice line else line % 64

/-- Backed scratch, in bytes (R207). -/
def Settings.backed (g : Settings) : Nat := g.scratchWays * 0x2000_0000

/-! ### Cells -/

def logArr (s : State) (la : Nat) : LogArr := s.arr.log.get la LogArr.reset

def setLog (s : State) (la : Nat) (v : LogArr) : State := { s with arr := { s.arr with log := s.arr.log.put la v } }

def physArr (s : State) (n : Nat) : PhysArr := s.arr.phys.get n PhysArr.reset

def setPhys (s : State) (n : Nat) (v : PhysArr) : State := { s with arr := { s.arr with phys := s.arr.phys.put n v } }

/-- Key of a byte of a physical array's bin. -/
def binKey (phys off : Nat) : Nat := binBase + phys * binSize + off

/-- Key of the byte at a local address: bins follow the array map (R31). -/
def keyOf (s : State) (pa : Nat) : Nat :=
  match regionOf pa with
  | .bin la off => binKey ((logArr s la).phys.getD 0) off
  | _ => pa

/-- Addresses of memory rise strictly and no cell holds zero. -/
def Mem.sorted : List Host.Cell → Bool
  | (a, x) :: (b, y) :: r => decide (a < b) && decide (x ≠ 0#8) && Mem.sorted ((b, y) :: r)
  | [(_, x)] => decide (x ≠ 0#8)
  | [] => true

/-- The canonical form of memory. -/
def Mem.wf (m : Mem) : Bool := Mem.sorted m.cells

/-- The byte a cell holds; one that is not listed holds zero (R204, R514). -/
def Mem.byte (m : Mem) (k : Nat) : Byte := Tbl.get m.cells k 0#8

/-- One byte written. -/
def Mem.put (m : Mem) (k : Nat) (b : Byte) : Mem :=
  { m with cells := if b = 0#8 then Tbl.drop m.cells k else Tbl.put m.cells k b }

/-- Bytes written from a key on. -/
def Mem.putAll : Mem → Nat → Bytes → Mem
  | m, _, [] => m
  | m, k, b :: r => Mem.putAll (m.put k b) (k + 1) r

/-- `n` bytes from a key on. -/
def Mem.bytes (m : Mem) (k n : Nat) : Bytes := (upto k n).map m.byte

/-- Zero written to a range of keys, with clear poison bits (R204, R215). -/
def Mem.zero (m : Mem) (k n : Nat) : Mem :=
  { m with cells := m.cells.filter fun c => c.1 < k || k + n ≤ c.1,
           poison := m.poison.filter fun u => u * 64 < k || k + n ≤ u * 64 }

def Mem.poisoned (m : Mem) (k : Nat) : Bool := m.poison.contains (k / 64)

/-- A 64-byte unit is marked poisoned. -/
def Mem.taint (m : Mem) (u : Nat) : Mem := { m with poison := addNew m.poison u }

/-- Bytes written within one 64-byte unit: poison among them poisons the unit; all 64 bytes clean replace its poison; a
partial write leaves it (R229, R231). -/
def Mem.storeUnit (m : Mem) (k : Nat) (d : List (Byte × Bool)) : Mem :=
  let m1 := m.putAll k (d.map Prod.fst)
  if d.any Prod.snd then m1.taint (k / 64)
  else if d.length = 64 then { m1 with poison := without m1.poison (k / 64) } else m1

/-- Bytes with their poison written from a key on, unit by unit; `n` bounds the units. -/
def Mem.store : Nat → Mem → Nat → List (Byte × Bool) → Mem
  | 0, m, _, _ => m
  | n + 1, m, k, d =>
    if d.isEmpty then m
    else
      let w := 64 - k % 64
      Mem.store n (m.storeUnit k (d.take w)) (k + w) (d.drop w)

/-- Bytes without poison. -/
def clean (d : Bytes) : List (Byte × Bool) := d.map fun b => (b, false)

/-- Bytes all poisoned or all clean. -/
def marked (d : Bytes) (p : Bool) : List (Byte × Bool) := d.map fun b => (b, p)

/-- The poison of the 64-byte units that `n` bytes at an address cover, all alike. -/
def allUnits (a n : Nat) (p : Bool) : List Bool := if p then List.replicate ((a % 64 + n + 63) / 64) true else []

/-- Bytes at an address with the poison of their units. -/
def markUnits (a : Nat) (d : Bytes) (l : List Bool) : List (Byte × Bool) :=
  (indexed d).map fun x => (x.2, l.getD ((a % 64 + x.1) / 64) false)

/-- The poison of the 64-byte units of bytes at an address; none where all are clean. -/
def badUnits (a : Nat) (d : List (Byte × Bool)) : List Bool :=
  if d.any Prod.snd then
    (List.range ((a % 64 + d.length + 63) / 64)).map fun k => ((d.take (64 * (k + 1) - a % 64)).drop (64 * k - a % 64)).any Prod.snd
  else []

/-- The copy of a line in a cache way (R211). -/
def cacheLine (s : State) (line : Nat) : Option CacheLine := s.mem.cache.find? fun c => c.line = line

/-- An access reaches HBM at an address that answers nothing any more: it has no copy in the Granary, and its stack is out of service or
its pseudo-channel lost (R211, R225, R233). -/
def lostAt (s : State) (pa : Nat) : Bool := decide (pa < hbmEnd) && deadAt s pa && (cacheLine s (pa / 128)).isNone

/-- What a read of `n` bytes from a local address of memory delivers, byte by byte with its poison. -/
def memRead (s : State) (pa n : Nat) : List (Byte × Bool) :=
  (upto pa n).map fun a =>
    let k := keyOf s a
    (s.mem.byte k, s.mem.poisoned k || lostAt s a)

/-- Bytes of a read without regard to poison. -/
def memBytes (s : State) (pa n : Nat) : Bytes := (memRead s pa n).map Prod.fst

/-- A write of bytes with poison from a local address of memory on, at most `n` pieces that no line boundary crosses: a piece that no
copy in the Granary takes and whose pseudo-channel is dead has no effect (R225, R233). -/
def memWritePieces : Nat → State → Nat → List (Byte × Bool) → State
  | 0, s, _, _ => s
  | n + 1, s, pa, d =>
    if d.isEmpty then s
    else
      let w := 128 - pa % 128
      let piece := d.take w
      let s1 :=
        if lostAt s pa then s
        else { s with mem := s.mem.store (piece.length / 64 + 2) (keyOf s pa) piece }
      memWritePieces n s1 (pa + w) (d.drop w)

def memWrite (s : State) (pa : Nat) (d : List (Byte × Bool)) : State := memWritePieces (d.length / 128 + 2) s pa d

/-- Some line of a range takes no write (R233). -/
def lostRange (s : State) (pa n : Nat) : Bool :=
  (upto (pa / 128) ((pa % 128 + n + 127) / 128)).any fun l => lostAt s (max pa (l * 128))

/-- Clean bytes written. -/
def memPut (s : State) (pa : Nat) (d : Bytes) : State := memWrite s pa (clean d)

/-! ### Deeds -/

def deedAt (s : State) (pa : Nat) : Deed := s.mem.deeds.get (pa / granule) Deed.reset

/-- A deed names a partition (R241, R281). -/
def Deed.names (d : Deed) (p : Nat) : Bool :=
  match d.kind with
  | .none => false
  | .owned => d.owner = p
  | .shared => d.members.getLsbD p

/-- The deed check (Table 8-6). -/
def Deed.allows (d : Deed) (q : Nat) (k : Access) : Bool :=
  if q = 0 then true
  else
    match d.kind with
    | .none => false
    | .owned => d.owner = q
    | .shared => d.owner = q || (d.members.getLsbD q && (k = .read || d.memberWrite))

/-- The word of a deed entry (Table 8-5). -/
def Deed.word (d : Deed) : Nat :=
  (match d.kind with | .none => 0 | .owned => 1 | .shared => 2) + d.owner * 16 + d.members.toNat * 256 +
    flag d.memberWrite * 2 ^ 24

/-- The deed entry that a word spells, where it keeps Table 8-5. -/
def Deed.ofWord (w : Nat) : Option Deed :=
  let owner := bits w 7 4
  let members := bits w 23 8
  if bits w 3 2 ≠ 0 ∨ bits w 63 25 ≠ 0 then none
  else
    match bits w 1 0 with
    | 0 => if owner = 0 ∧ members = 0 ∧ !bit w 24 then some Deed.reset else none
    | 1 => if members = 0 ∧ !bit w 24 then some { Deed.reset with kind := .owned, owner := owner } else none
    | 2 => if bit members owner then
             some { kind := .shared, owner := owner, members := BitVec.ofNat 16 members, memberWrite := bit w 24 }
           else none
    | _ => none

/-! ### Checks at the memory -/

/-- The class under which the address of a memory byte is refused, if it is: domain off or going off, reserved or beyond the fitted
capacity, unbacked, retired (R27, R30, R208, R234). -/
def addrFault (s : State) (pa : Nat) : Option Nat :=
  match regionOf pa with
  | .hbm =>
    if !answers s (domOfStack (pcIndex pa / 32)) then some 0x30
    else if pa ≥ fitted s then some 0x40
    else if s.mem.retired.contains (pa / 65536) then some 0x25
    else none
  | .scratch =>
    if !answers s (domOfSlice ((pa / 128) % 64)) then some 0x30
    else if pa - scratchBase ≥ s.set.backed then some 0x25
    else none
  | .bin la _ =>
    match (logArr s la).phys with
    | some n => if answers s (domOfArray n) then none else some 0x30
    | none => some 0x30
  | _ => some 0x40

/-- The class under which a byte access by a partition is refused, if it is (R282, steps 2 and 3). -/
def accessFault (s : State) (q : Nat) (k : Access) (pa : Nat) : Option Nat :=
  match addrFault s pa with
  | some c => some c
  | none => if (deedAt s pa).allows q k then none else some 0x42

/-- The first refused offset of an access of `n` bytes, looked for line by line, with its class. -/
def firstFault (s : State) (q : Nat) (k : Access) (pa n : Nat) : Option (Nat × Nat) :=
  let lines := if n = 0 then [] else upto (pa / 128) ((pa % 128 + n + 127) / 128)
  lines.findSome? fun l => (accessFault s q k (max pa (l * 128))).map fun c => (max pa (l * 128) - pa, c)

/-- A range lies in the fitted HBM, in the backed scratch or in a bin (R284, R57). -/
def isMemory (s : State) (pa n : Nat) : Bool :=
  pa + n ≤ fitted s || (scratchBase ≤ pa && pa + n ≤ scratchBase + s.set.backed) ||
    (binBase ≤ pa && pa + n ≤ 0x142_0000_0000)

/-! ### Poison records -/

/-- SOURCE of a poison record by address (Table 6-5). -/
def poisonSource (pa : Nat) : Nat := match regionOf pa with | .hbm => 0 | .scratch => 1 | _ => 3

/-- A unit is poisoned by an uncorrectable error: a record is kept (R228, R230, R235). -/
def taintWith (s : State) (pa source symbols : Nat) : State :=
  let a := pa / 64 * 64
  { s with mem := { s.mem.taint (keyOf s a / 64) with
      records := s.mem.records ++ [{ addr := a, source := source, symbols := symbols, turn := now s }] } }

end Sys2Proof.Machine
end

