-- ==== Sys2Proof/Machine/Operands.lean ====
section
/-! DEFINITION. How an engine's virtual address becomes a physical one: contexts, the table walk and the translation
caches (R264-R274). -/

namespace Sys2Proof.Machine

def ctxOf (s : State) (c : Nat) : Ctx := s.xlate.ctx.get c (Ctx.reset c)

def setCtx (s : State) (c : Nat) (v : Ctx) : State := { s with xlate := { s.xlate with ctx := s.xlate.ctx.put c v } }

/-- A context is bound to a partition (R266). -/
def boundTo (s : State) (c p : Nat) : Bool := (ctxOf s c).bound && (ctxOf s c).part = p

/-- The levels of a walk: lowest index bit, index width, leaf page size (0: no leaf), table alignment (Table 8-2). -/
def walkLevels : List (Nat × Nat × Nat × Nat) :=
  [(48, 9, 0, 4096), (39, 9, 0, 4096), (30, 9, 2 ^ 30, 4096), (21, 9, 2 ^ 21, 4096), (16, 5, 2 ^ 16, 256)]

/-- A table pointer may be followed: it names this hub's HBM or backed scratch, is aligned, and the entry is readable
by the partition and not poisoned (R271). -/
def tableReadable (s : State) (p ptr align entry : Nat) : Bool :=
  let a := localOf entry
  hubOf ptr = s.leat.hub && ptr % align = 0 && (regionOf a = .hbm || regionOf a = .scratch) &&
    (accessFault s p .read a).isNone && !(memRead s a 8).any Prod.snd

/-- The kind a leaf permits; ATOMIC requires READ and WRITE (Table 8-3, R272). -/
def Xent.permits (e : Xent) : Access → Bool
  | .read => e.read
  | .write => e.write
  | .atomic => e.read && e.write && e.atomic

/-- What a walk comes to: a page or the class of its failure, the non-leaf entries that it follows, and the local addresses of the
entries that it reads. -/
structure Walked where
  page : Except Nat Xent
  nodes : List Xnode
  reads : List Nat

/-- A failed walk. -/
def Walked.fails (cls : Nat) (nodes : List Xnode) (reads : List Nat) : Walked := { page := .error cls, nodes := nodes, reads := reads }

/-- The walk through the levels that are left, from a table (R269-R272); the entries followed and read so far go along. -/
def walkLevel (s : State) (c p va : Nat) : List (Nat × Nat × Nat × Nat) → Nat → List Xnode → List Nat → Walked
  | [], _, ns, rs => .fails 0x43 ns rs
  | (lo, w, page, align) :: rest, tbl, ns, rs =>
    let entry := tbl + 8 * bits va (lo + w - 1) lo
    let rs1 := if hubOf tbl = s.leat.hub then rs ++ [localOf entry] else rs
    if !tableReadable s p tbl align entry then .fails 0x43 ns rs1
    else
      let e := leVal (memBytes s (localOf entry) 8)
      if !bit e 0 then .fails 0x41 ns rs1
      else if bits e 7 6 ≠ 0 ∨ bits e 63 58 ≠ 0 then .fails 0x43 ns rs1
      else
        let addr := bits e 57 8 * 256
        if bit e 1 then
          if page = 0 ∨ addr % page ≠ 0 then .fails 0x43 ns rs1
          else
            { page := .ok { ctx := c, va := va / page * page, size := page, pa := addr, read := bit e 2, write := bit e 3,
                            atomic := bit e 4, coherent := bit e 5 }, nodes := ns, reads := rs1 }
        else walkLevel s c p va rest addr (ns ++ [{ ctx := c, va := va / 2 ^ lo * 2 ^ lo, size := 2 ^ lo, table := addr }]) rs1

/-- A walk for a context from its ROOT (R269). A ROOT of 0 means none: no valid entry (log entry 13). -/
def walk (s : State) (c va : Nat) : Walked :=
  let x := ctxOf s c
  if x.root = 0 ∨ va ≥ 2 ^ 57 then .fails 0x41 [] [] else walkLevel s c x.part va walkLevels x.root [] []

/-- The non-leaf entries of a unit's 16 most recent walks that map an address for a context (R274). -/
def cachedNodes (s : State) (unit c va : Nat) : List Xnode :=
  (s.xlate.walks.get unit []).flatten.filter fun e => e.ctx = c && e.va ≤ va && va < e.va + e.size

/-- A walk of a unit: from the deepest non-leaf entry that it has cached, or from ROOT (R269, R274). -/
def unitWalk (s : State) (unit c va : Nat) : Walked :=
  match cachedNodes s unit c va with
  | [] => walk s c va
  | e :: r =>
    let n := r.foldl (fun (a : Xnode) b => if b.size < a.size then b else a) e
    walkLevel s c (ctxOf s c).part va (walkLevels.filter fun l => 2 ^ l.1 < n.size) n.table [n] []

/-- The physical address that an entry gives, where it permits the kind (R272). -/
def Xent.apply (e : Xent) (k : Access) (va : Nat) : Except Nat Nat :=
  if e.permits k then .ok (e.pa + (va - e.va)) else .error 0x41

/-- Translation without a cache, as admission does it (R623). -/
def translatePure (s : State) (c : Nat) (k : Access) (va : Nat) : Except Nat Nat :=
  match (walk s c va).page with
  | .ok e => e.apply k va
  | .error n => .error n

/-- The cached translations of a unit. -/
def tlbOf (s : State) (unit : Nat) : List Xent := s.xlate.tlb.get unit []

/-- The cached entry of a unit that covers an address. -/
def cached (s : State) (unit c va : Nat) : Option Xent :=
  (tlbOf s unit).find? fun e => e.ctx = c && e.va ≤ va && va < e.va + e.size

/-- Translation by a unit: a cached entry is used as it stands; a walk that finds a valid page is cached, and its non-leaf entries with
those of the fifteen walks before it (R273-R275). A unit's walks follow one another in this model, so that never more than 16 run at
once. -/
def translate (s : State) (unit c : Nat) (k : Access) (va : Nat) : State × Except Nat Nat :=
  match cached s unit c va with
  | some e => (s, e.apply k va)
  | none =>
    let w := unitWalk s unit c va
    let x := s.xlate
    let s1 := { s with xlate := { x with walks := x.walks.put unit ((w.nodes :: x.walks.get unit []).take 16) } }
    match w.page with
    | .ok e => ({ s1 with xlate := { s1.xlate with tlb := x.tlb.put unit (tlbOf s unit ++ [e]) } }, e.apply k va)
    | .error n => (s1, .error n)

/-- Every cached translation whose context and range a test picks is dropped in every unit, leaf or not (R276). -/
def dropXents (s : State) (p : Nat → Nat → Nat → Bool) : State :=
  let x := s.xlate
  { s with xlate := { x with
      tlb := x.tlb.map fun u => (u.1, u.2.filter fun e => !p e.ctx e.va e.size),
      walks := x.walks.map fun u => (u.1, u.2.map fun l => l.filter fun e => !p e.ctx e.va e.size) } }

/-- A unit's cached translations are gone. -/
def dropUnit (s : State) (unit : Nat) : State :=
  { s with xlate := { s.xlate with tlb := s.xlate.tlb.drop unit, walks := s.xlate.walks.drop unit } }

/-- A hub number belongs to the system (R35, R36). -/
def hubExists (s : State) (h : Nat) : Bool :=
  bits h 4 0 ≤ s.leat.exm1 && bits h 9 5 ≤ s.leat.eym1 && bits h 13 10 ≤ s.leat.ezm1 && bits h 16 14 ≤ s.leat.ewm1

/-- Where a translated address leads: here, to another hub under the remote mode, or refused (R36, R285, R286). -/
def route (s : State) (p pa : Nat) : Except Nat (Option Nat) :=
  let h := hubOf pa
  if h = s.leat.hub then .ok none
  else if !hubExists s h then .error 0x60
  else if s.set.windowMode ∧ p ≠ 0 then .error 0x41
  else .ok (some h)

end Sys2Proof.Machine
end

