-- ==== Sys2Proof/Machine/Routes.lean ====
section
/-! DEFINITION. The torus: coordinates, the dimension-order route with its overrides, and the ports (R34, R341, R342,
R356-R359). -/

namespace Sys2Proof.Machine

/-- Coordinate of a hub number in a dimension: 0 X, 1 Y, 2 Z, 3 W (Table 1-5). -/
def coord (h dim : Nat) : Nat :=
  match dim with
  | 0 => bits h 4 0
  | 1 => bits h 9 5
  | 2 => bits h 13 10
  | _ => bits h 16 14

/-- A hub number with one coordinate replaced. -/
def setCoord (h dim c : Nat) : Nat :=
  let v := fun d => if d = dim then c else coord h d
  v 0 + v 1 * 2 ^ 5 + v 2 * 2 ^ 10 + v 3 * 2 ^ 14

/-- Extent of a dimension. -/
def extent (s : State) (dim : Nat) : Nat :=
  match dim with
  | 0 => s.leat.exm1 + 1
  | 1 => s.leat.eym1 + 1
  | 2 => s.leat.ezm1 + 1
  | _ => s.leat.ewm1 + 1

/-- The hop diameter D (R342). -/
def diameter (s : State) : Nat := sumOf ((List.range 4).map fun d => extent s d / 2)

/-- The first dimension in which two hubs differ (R357). -/
def firstDim (a b : Nat) : Option Nat := (List.range 4).find? fun d => coord a d ≠ coord b d

/-- The last one. -/
def lastDim (a b : Nat) : Option Nat := [3, 2, 1, 0].find? fun d => coord a d ≠ coord b d

/-- The route of R357 goes in the negative direction. -/
def goesNegative (e from_ to_ : Nat) : Bool :=
  let delta := (to_ + e - from_ % e) % e
  delta > e - delta

/-- The override that applies to a packet in a dimension (R359). -/
def overrideFor (g : Settings) (dim dest : Nat) : Option Route :=
  let hits := (List.range 64).filter fun n =>
    let r := g.routeOf n
    r.valid && r.dim = dim && (r.dest &&& r.mask) = (dest &&& r.mask)
  let best := maxOf (hits.map fun n => (g.routeOf n).prio)
  (hits.find? fun n => (g.routeOf n).prio = best).map g.routeOf

/-- Port of a dimension and direction (Table 11-1). -/
def portNo (dim : Nat) (negative : Bool) : Nat := 2 * dim + flag negative

/-- The port that the route to a hub leaves by under given settings, before R356; none at the hub itself. -/
def routePort (s : State) (g : Settings) (dest : Nat) : Option Nat :=
  (firstDim s.leat.hub dest).map fun d =>
    match overrideFor g d dest with
    | some r => portNo d r.negative
    | none => portNo d (goesNegative (extent s d) (coord s.leat.hub d) (coord dest d))

/-- The port by which the far hub's route of R357 reaches this hub (R350). -/
def arrivalPort (s : State) (far : Nat) : Option Nat :=
  (lastDim far s.leat.hub).map fun d =>
    portNo d (!goesNegative (extent s d) (coord far d) (coord s.leat.hub d))

def setLink (s : State) (n : Nat) (v : Link) : State := { s with leat := { s.leat with link := s.leat.link.put n v } }

def setPort (s : State) (n : Nat) (v : Port) : State := { s with leat := { s.leat with port := s.leat.port.put n v } }

/-- The links of a port that are in service. -/
def liveLinks (s : State) (port : Nat) : List Nat :=
  (upto (8 * port) 8).filter fun n => (linkOf s n).state = .inService

/-- The port that a packet for a hub takes now: the opposite one where its own is down (R356). -/
def portFor (s : State) (dest : Nat) : Option Nat :=
  (routePort s s.set dest).map fun p =>
    if (liveLinks s p).isEmpty ∧ !(liveLinks s (p ^^^ 1)).isEmpty then p ^^^ 1 else p

/-- Number of the neighbour that a port leads to (Table 11-1). -/
def neighbour (s : State) (port : Nat) : Nat :=
  let d := port / 2
  let e := extent s d
  let c := coord s.leat.hub d
  setCoord s.leat.hub d (if port % 2 = 0 then (c + 1) % e else (c + e - 1) % e)

end Sys2Proof.Machine
end

