-- ==== Sys2Proof/Machine/Tariff.lean ====
section
/-! DEFINITION. The tariff: cycle terms, capacity records, energy figures, and the bytes of TARIFF_READ (R62-R66, R174,
R222, R333, R471, R545, R622). The spec gives no energy figure: State holds them (log entry 20). -/

namespace Sys2Proof.Machine

/-- Terms of a tariff entry: clock, BASE_CYCLES, UNIT_CYCLES in Q24.8, SUSPEND_DIST, PEAK_BYTES (Table 2-8). -/
structure Terms where
  clock : Nat
  base : Nat
  unit : Nat
  suspend : Nat
  peak : Nat
  deriving DecidableEq, Repr

/-- Share of the full host rate, as a fraction (R471): the rate code of Table 15-6 and the width. -/
def hostShare (r : Nat × Nat) : Nat × Nat :=
  let g := match r.1 with | 1 => 16 | 2 => 32 | _ => 64
  (g * (if r.2 = 0 then 16 else r.2), 1024)

/-- TYPE of the entry that charges a descriptor: the host types stand in for DMA with a host side (R333). -/
def chargeType (d : Desc) : Nat :=
  match d.b with
  | .dma x => if x.srcHost || x.dstHost then d.c.type + 0x80 else d.c.type
  | _ => d.c.type

/-- The function record of a site's capability table for F (R405). -/
def siteRecord (s : State) (site f : Nat) : Option Bytes :=
  let t := (s.sites.site.get site Site.reset).table
  let n := rd t 11 1
  ((List.range n).map fun k => sub t (32 + 32 * k) 32).find? fun r => rd r 0 1 = f

def siteMhz (s : State) (site : Nat) : Nat := rd (s.sites.site.get site Site.reset).table 12 2

/-- Terms of a type, with the site for site types (Tables 4-13, 10-8, R401, R622). -/
def termsOf (s : State) (type site : Nat) : Option Terms :=
  if type = 1 ∨ type = 3 then some ⟨0, 407, (if type = 1 then 128 else 1) * 256, 1439, 0⟩
  else if type = 2 ∨ type = 4 then some ⟨0, 534, (if type = 2 then 128 else 1) * 256, 1566, 0⟩
  else if type = 0x10 then some ⟨0, 152, 0, 152, 0⟩
  else if type = 0x11 then some ⟨0, 24, 0, 552, 0⟩
  else if type = 0x30 then some ⟨0, 64, 0, 64, 0⟩
  else if type = 0x40 then some ⟨0, 8, 0, 8, 0⟩
  else if 0x81 ≤ type ∧ type ≤ 0xC1 then (if boltOps.contains (type - 0x80) then some ⟨0, 24, 256, 280, 0⟩ else none)
  else if type = 0x0201 ∨ type = 0x0202 then some ⟨1, 5200, 128, 2064, 512000⟩
  else if type = 0x0281 ∨ type = 0x0282 then
    let (a, b) := hostShare s.plans.hostRec
    some ⟨1, 9200, ceilDiv (640 * b) a, 6064, 128000 * a / b⟩
  else if type = 0x0501 then some ⟨1, 200, 0, 200, 512000⟩
  else if 0x0301 ≤ type ∧ type ≤ 0x0305 then some ⟨1, 5200, 1024, 2064, 512000⟩
  else if type = 0x0310 then some ⟨1, 5200, 512, 2512, 512000⟩
  else if 0x0311 ≤ type ∧ type ≤ 0x0313 then some ⟨1, 5200, 512, 3024, 512000⟩
  else if type = 0x0314 ∨ type = 0x0315 then some ⟨1, 5200, 512, 4048, 512000⟩
  else if 0x0401 ≤ type ∧ type ≤ 0x04FF then
    (siteRecord s site (type - 0x0400)).map fun r => ⟨2, rd r 4 4, rd r 8 4, rd r 12 4, rd r 16 4⟩
  else none

/-- Energy figures of an entry for a rail group. -/
def railCost (s : State) (type domain step grp : Nat) : RailCost :=
  s.plans.energy.get (((type * 256 + domain) * 16 + step) * 8 + grp) RailCost.reset

/-- The idle entry of a domain: its own figures, and what each site of it in service at 16 GT/s adds (R38, R63). -/
def idleCost (s : State) (domain step grp : Nat) : RailCost :=
  let c := railCost s 0xFFFF domain step grp
  let fast := (List.range 12).filter fun n =>
    let x := s.sites.site.get n Site.reset
    decide (domOfSite n = domain) && decide (x.state = .inService) && x.rate16
  { c with baseNj := c.baseNj + sumOf (fast.map fun n => s.plans.fast.get (n * 8 + grp) 0) }

/-! ### Domains and clocks -/

/-- The array domain that carries a logical array (R545). -/
def domainOf (s : State) (la : Nat) : Option Nat := (logArr s la).phys.map domOfArray

/-- Array clock of a frequency step, in MHz (R62). -/
def stepMhz (k : Nat) : Nat := 1100 - 25 * k

/-- DOMAIN and FREQ_STEP of the entry that charges a slot's resource under given settings. -/
def chargeDomain (s : State) (g : Settings) (r : Res) : Nat × Nat :=
  match r.type with
  | 1 => let d := (domainOf s r.index).getD 0; (d, g.freqStep.get d 0)
  | 6 => (0x20 + r.index, 0)
  | _ => (0xFF, 0)

/-- Clock of a resource in MHz. -/
def clockMhz (s : State) (g : Settings) (r : Res) : Nat :=
  match r.type with
  | 1 => stepMhz (chargeDomain s g r).2
  | 6 => max 1 (siteMhz s r.index)
  | _ => 2000

/-! ### Capacity records (R64, R205, R222, R233, R356) -/

/-- Bytes per µs of a link at a number of lanes. -/
def linkBytes (lanes : Nat) : Nat := if lanes = 4 then 98000 else if lanes = 2 then 49000 else if lanes = 1 then 24500 else 0

/-- Bytes per µs of a channel group at a rate code (Table 6-2). -/
def groupBytes : Nat → Nat
  | 1 => 409600
  | 2 => 512000
  | 3 => 563200
  | 4 => 588800
  | 5 => 614400
  | _ => 0

/-- Bytes per µs of a site: 64 GB/s for an x64 module and 32 GB/s for an x32 one at 8 GT/s, double at 16 GT/s (R377). -/
def siteBytes (x : Site) : Nat :=
  sumOf (x.modules.map fun m => match m with | .x64 => 64000 | .x32 => 32000 | .excluded => 0) * (if x.rate16 then 2 else 1)

/-- CAP_BYTES and HEADROOM_BYTES of a passive resource. -/
def capOf (s : State) (r : Res) : Nat × Nat :=
  match r.type with
  | 3 =>
    let l := (upto (8 * r.index) 8).map fun n => linkBytes (s.plans.linkRec.get n 0)
    (sumOf l, sumOf l - maxOf l)
  | 4 =>
    let c := groupBytes (stackOf s (r.index / 2)).rate * (16 - s.plans.pcRec.get r.index 0) / 16
    (c, c)
  | 5 => (256000, 256000)
  | 6 =>
    let x := s.sites.site.get r.index Site.reset
    let c := if x.state = .inService then siteBytes x else 0
    (c, c)
  | _ => (0, 0)

/-! ### TARIFF_READ -/

/-- The descriptor types that have entries, array types first, each with the domains in which it runs. -/
def arrayTypes : List Nat := [1, 2, 3, 4, 0x10, 0x11, 0x30, 0x40] ++ boltOps.map (0x80 + ·)
def engineTypes : List Nat := [0x0201, 0x0202, 0x0281, 0x0282] ++ redTypes ++ [0x0501]

/-- Types that the chiplet of a site in site packet mode declares. -/
def siteTypes (s : State) (site : Nat) : List Nat :=
  let st := s.sites.site.get site Site.reset
  if st.state = .inService ∧ !st.cxl then
    ((upto 1 255).filter fun f => (siteRecord s site f).isSome).map (0x0400 + ·)
  else []

/-- TYPE and DOMAIN of every entry, in order of type and domain (log entry 20). -/
def entryKeys (s : State) : List (Nat × Nat) :=
  (arrayTypes.flatMap fun t => (List.range 16).map fun d => (t, d)) ++ engineTypes.map (fun t => (t, 0xFF)) ++
  ((List.range 12).flatMap fun k => (siteTypes s k).map fun t => (t, 0x20 + k)) ++
  ((List.range 16).map fun d => (0xFFFE, d)) ++ [(0xFFFE, 0xFF)] ++ (List.range 30).map fun d => (0xFFFF, d)

/-- The 96 bytes of an entry at a step (Table 2-8). -/
def entryBytes (s : State) (type domain step : Nat) : Bytes :=
  let t := (termsOf s type (domain - 0x20)).getD ⟨0, 0, 0, 0, 0⟩
  leBytes 2 type ++ leBytes 1 domain ++ leBytes 1 step ++ leBytes 4 t.clock ++ leBytes 4 t.base ++ leBytes 4 t.unit ++
    leBytes 4 t.suspend ++ leBytes 4 t.peak ++ leBytes 8 0 ++
    (List.range 8).flatMap fun g =>
      let c := if type = 0xFFFF then idleCost s domain step g else railCost s type domain step g
      leBytes 2 c.baseNj ++ leBytes 2 c.unitPj ++ leBytes 2 c.peakCw ++ leBytes 2 0

/-- The passive resources, in order of type and index. -/
def passives : List Res :=
  [3, 4, 5].flatMap fun t => (List.range (resCount t)).map fun i => { type := t, index := i }

/-- The resources that have a capacity record: the passive ones, and the sites in service (R64, R377). -/
def capRes (s : State) : List Res :=
  passives ++ ((List.range 12).filter fun n => (s.sites.site.get n Site.reset).state = .inService).map fun n => { type := 6, index := n }

/-- A capacity record (R64). -/
def capBytes (s : State) (r : Res) : Bytes :=
  let (c, h) := capOf s r
  leBytes 2 r.type ++ leBytes 2 r.index ++ leBytes 4 c ++ leBytes 4 h ++ leBytes 4 0

/-- The whole tariff under given settings and version, with the entries of one type or of all (R62). -/
def tariffBytes (s : State) (g : Settings) (version sel : Nat) : Bytes :=
  let keys := (entryKeys s).filter fun k => sel = 0xFFFF || k.1 = sel
  let ents := keys.flatMap fun k => (List.range 9).map fun f => (k.1, k.2, f)
  leBytes 4 version ++ leBytes 1 g.bucketLen ++ leBytes 1 g.tailraceLen ++ leBytes 2 ents.length ++
    leBytes 2 (capRes s).length ++ leBytes 2 8 ++ (List.range 16).flatMap (fun d => leBytes 1 (g.freqStep.get d 0)) ++
    leBytes 4 0 ++ ents.flatMap (fun e => entryBytes s e.1 e.2.1 e.2.2) ++ (capRes s).flatMap (capBytes s)

end Sys2Proof.Machine
end

