-- ==== Sys2Proof/Machine/Ranges.lean ====
section
/-! DEFINITION. The address ranges of a descriptor, the bytes it places on passive resources, and its time (R174, R195,
R333, R350, R401, R622, R623). -/

namespace Sys2Proof.Machine

/-- A range of virtual addresses: rows of `len` bytes in planes, with the step per iteration index and the kind of
access. -/
structure VRange where
  va : Nat
  len : Nat
  rows : Nat
  rowStep : Nat
  planes : Nat
  planeStep : Nat
  stepI : Nat
  kind : Access
  deriving DecidableEq, Repr

/-- A range of one row. -/
def VRange.one (va len stepI : Nat) (k : Access) : VRange := ⟨va, len, 1, 0, 1, 0, stepI, k⟩

/-- The source range of a descriptor, where it has one that is translated. -/
def srcRange (t : Nat) : Body → Option VRange
  | .dma d =>
    if d.fill.isSome ∨ d.srcHost then none
    else some ⟨d.src, d.rowBytes, d.rows, d.srcRow, d.planes, d.srcPlane, d.srcStepI, .read⟩
  | .red d =>
    if t = 0x0301 then none
    else if t = 0x0302 then some (.one d.src (32 * d.count) d.srcStepI .read)
    else some (.one d.src (redElem t * d.count) d.srcStepI (if t < 0x0310 then .atomic else .read))
  | .site d => d.inVa.map fun v => .one v d.inLen d.stepI .read
  | _ => none

/-- Bytes of a reduction's output per unit, flag byte included (Table 5-9, destination column). -/
def redDest (t outFmt : Nat) : Nat :=
  if t = 0x0301 then 2
  else if t = 0x0303 then (if outFmt = 0x20 then 33 else elemBytes outFmt 1)
  else if t ≤ 0x0305 then 34
  else if t = 0x0310 then 10 else if t ≤ 0x0313 then 6 else 4

/-- The destination range of a descriptor, where it has one that is translated. -/
def dstRange (t : Nat) : Body → Option VRange
  | .dma d =>
    if d.dstHost then none
    else some ⟨d.dst, d.rowBytes, d.rows, d.dstRow, d.planes, d.dstPlane, d.dstStepI, .write⟩
  | .red d =>
    some (if t = 0x0303 then .one d.dst (redDest t d.outFmt * d.count) d.dstStepI .write
          else .one d.dst (redElem t * d.count) d.dstStepI .atomic)
  | .site d => d.outVa.map fun v => .one v d.outLen d.stepI .write
  | _ => none

/-- The flag bytes of a MINT_ADD's source (R191) and the status record of a descriptor. -/
def sideRanges (t : Nat) : Body → List VRange
  | .dma d => (d.status.map fun v => VRange.one v 32 0 .write).toList
  | .red d =>
    (if t = 0x0302 then [VRange.one (d.src + (if d.srcKind = 0 then 0x8_0000 else 0x1000)) d.count d.srcStepI .read]
     else []) ++ (d.status.map fun v => VRange.one v 32 0 .write).toList
  | .site d => (d.status.map fun v => VRange.one v 32 0 .write).toList
  | _ => []

def allRanges (d : Desc) : List VRange :=
  (srcRange d.c.type d.b).toList ++ (dstRange d.c.type d.b).toList ++ sideRanges d.c.type d.b

/-- Starts of the rows of a range at an iteration index. -/
def VRange.starts (r : VRange) (i : Nat) : List Nat :=
  (List.range r.planes).flatMap fun p => (List.range r.rows).map fun k =>
    r.va + i * r.stepI + p * r.planeStep + k * r.rowStep

/-- A row cut at 64 KiB boundaries, the smallest page: start and length of each part. -/
def cutPages : Nat → Nat → Nat → List (Nat × Nat)
  | 0, _, _ => []
  | f + 1, a, n =>
    if n = 0 then [] else let w := min n (65536 - a % 65536); (a, w) :: cutPages f (a + w) (n - w)

def pagesOf (a n : Nat) : List (Nat × Nat) := cutPages (n / 65536 + 2) a n

/-- Every page of a range translates at an iteration index (R623). -/
def rangeTranslates (s : State) (ctx i : Nat) (r : VRange) : Bool :=
  (r.starts i).all fun a => (pagesOf a r.len).all fun p =>
    match translatePure s ctx r.kind p.1 with | .ok _ => true | .error _ => false

/-- Every range of a descriptor translates, over indices 0 to ITER_MOD − 1 (R623). -/
def descTranslates (s : State) (ctx : Nat) (d : Desc) : Bool :=
  (List.range d.c.iterMod).all fun i => (allRanges d).all (rangeTranslates s ctx i)

/-- The physical pieces of a range at an iteration index, row by row (R623). -/
def rowsAt (s : State) (ctx i : Nat) (r : VRange) : List (List (Nat × Nat)) :=
  (r.starts i).map fun a => (pagesOf a r.len).filterMap fun p =>
    match translatePure s ctx r.kind p.1 with | .ok pa => some (pa, p.2) | .error _ => none

def piecesAt (s : State) (ctx i : Nat) (r : VRange) : List (Nat × Nat) := (rowsAt s ctx i r).flatten

/-- The pieces of a descriptor's range over indices 0 to ITER_MOD − 1 (R623). -/
def piecesOf (s : State) (ctx : Nat) (d : Desc) (r : VRange) : List (Nat × Nat) :=
  (List.range d.c.iterMod).flatMap fun i => piecesAt s ctx i r

/-- The other hubs that a list of pieces names. -/
def farHubs (s : State) (ps : List (Nat × Nat)) : List Nat := ((ps.map fun p => hubOf p.1).filter fun k => k ≠ s.leat.hub).eraseDups

/-- Bytes of a list of pieces on a hub. -/
def hubBytes (k : Nat) (ps : List (Nat × Nat)) : Nat := sumOf ((ps.filter fun p => hubOf p.1 = k).map Prod.snd)

/-! ### Units, lines and time -/

/-- Lines that the rows of a destination touch at an iteration index (R333). -/
def linesAt (r : VRange) (i : Nat) : Nat := sumOf ((r.starts i).map fun a => (a % 128 + r.len + 127) / 128)

/-- The destination rows of a DMA descriptor, whether translated or at bus addresses. -/
def DmaD.rowsTo (x : DmaD) : VRange := ⟨x.dst, x.rowBytes, x.rows, x.dstRow, x.planes, x.dstPlane, x.dstStepI, .write⟩

/-- lines(x) of R333; pages keep the low address bits. A host destination's rows count at their bus addresses. -/
def linesOf (d : Desc) : Nat :=
  match d.b with
  | .dma x => maxOf ((List.range d.c.iterMod).map (linesAt x.rowsTo))
  | _ => 0

/-- Units of a descriptor for UNIT_CYCLES and UNIT_PJ (Tables 4-13, 10-8, R401). -/
def unitsOf (d : Desc) : Nat :=
  match d.b with
  | .pass x => if isKept d.c.type then x.inner * x.outer * (if x.shoe then 128 else x.vecs) else x.inner * x.outer
  | .bolt x => ceilDiv (boltCycles (d.c.type - 0x80) * x.rows * x.cols) 16384
  | .dma _ => linesOf d
  | .red x => x.count
  | .site x => x.units
  | _ => 0

/-- Cycles of the drain of an output format (R174). -/
def drainCycles (fmt : Nat) : Nat := if fmt = 0xFF then 0 else if fmt = 0x20 then 528 else 64

/-- cycles(x) of R174. -/
def arrayCycles (t : Terms) (d : Desc) : Nat :=
  match d.b with
  | .pass x =>
    let dr := drainCycles x.outFmt
    let v := if x.shoe then 128 else x.vecs
    let g0 := if isKept d.c.type then x.inner * v * t.unit / 256 else x.inner * t.unit / 256
    let g := if isKept d.c.type && x.wStepO ≠ 0 then max g0 128 else g0
    let h := 255 + dr
    let p := if x.alt then (g + max g h + 1) / 2 else g + h
    t.base - (if x.preload then 128 else 0) + g + (x.outer - 1) * p + dr
  | .drain x => t.base + drainCycles x.outFmt
  | .bolt _ => t.base + t.unit / 256 * unitsOf d
  | _ => t.base

/-- MAX_BATCHES of a Shoe slot; 1 elsewhere (R174). -/
def batchesOf (sl : Slot) : Nat :=
  match sl.shoe, sl.descs with
  | true, { b := .shoeHead h, .. } :: _ => h.maxBatches
  | _, _ => 1

/-- Array domains of the bins that a descriptor reads or writes. -/
def binDomains (s : State) (ctx : Nat) (d : Desc) : List Nat :=
  ((srcRange d.c.type d.b).toList ++ (dstRange d.c.type d.b).toList).flatMap fun r =>
    (piecesOf s ctx d { r with rows := 1, planes := 1, len := 1 }).filterMap fun p =>
      if hubOf p.1 = s.leat.hub then
        match regionOf (localOf p.1) with
        | .bin la _ => domainOf s la
        | _ => none
      else none

/-- bin_rate(x) in bytes per µs (R202, R333). -/
def binRate (s : State) (g : Settings) (ctx : Nat) (d : Desc) : Option Nat :=
  match (binDomains s ctx d).map fun k => min 512000 (512 * stepMhz (g.freqStep.get k 0)) with
  | [] => none
  | x :: r => some (r.foldl min x)

/-- Router row of a DMA engine (Table 9-1). -/
def engineRow (n : Nat) : Nat := 2 + n % 32 / 4

/-- n(x, b) of R333. -/
def enginesAt (p : Plan) (de b : Nat) : Nat :=
  ((List.range 64).filter fun n =>
    n = de || (engineRow n = engineRow de && (p.entry { type := 2, index := n } b).isSome)).length

/-- remote(x) of R333: RAISE_HUB or any destination, the status record's too, names another hub; a TALLY_OP's own tally does
(Table 10-8). -/
def isRemote (s : State) (ctx : Nat) (d : Desc) : Bool :=
  let far := fun (h : Option Nat) => h.isSome && h ≠ some s.leat.hub
  let written := (dstRange d.c.type d.b).toList ++ (sideRanges d.c.type d.b).filter fun r => r.kind = .write
  let dst := written.any fun r => !(farHubs s (piecesOf s ctx d r)).isEmpty
  match d.b with
  | .dma x => dst || (d.c.raiseEn && far x.raiseHub)
  | .red x => dst || (d.c.raiseEn && far x.raiseHub)
  | .tallyOp x => far x.hub
  | _ => false

/-- Bytes that a descriptor moves, for the rate term of R333 (R195). -/
def movedBytes (d : Desc) : Nat :=
  match d.b with
  | .dma x => x.rowBytes * x.rows * x.planes
  | .red x => x.count * redDest d.c.type x.outFmt
  | _ => 0

/-- Bucket length in µs. -/
def Settings.bucketUs (g : Settings) : Rat := (g.bucketLen : Rat) / 5

/-- A moment `dur` of run time after `t`, within the runs of a slot; none past the last run (R67). -/
def advance (len : Rat) : List (Nat × Nat) → Rat → Rat → Option Rat
  | [], _, _ => none
  | (a, b) :: r, t, dur =>
    let e := (b : Rat) * len
    if e ≤ t then advance len r t dur
    else
      let t1 := max t ((a : Rat) * len)
      if dur ≤ e - t1 then some (t1 + dur) else advance len r e (dur - (e - t1))

/-- The time that `left` bytes take from moment `t` on, bucket by bucket at each bucket's rate in bytes per µs (R333);
none where they do not fit the buckets. -/
def transfer (len : Rat) (rate : Nat → Rat) : List Nat → Rat → Rat → Option Rat
  | [], _, left => if left ≤ 0 then some 0 else none
  | b :: r, t, left =>
    if left ≤ 0 then some 0
    else
      let e := ((b : Rat) + 1) * len
      if e ≤ t then transfer len rate r t left
      else
        let t1 := max t ((b : Rat) * len)
        let v := rate b
        if 0 < v ∧ left ≤ v * (e - t1) then some (left / v)
        else (transfer len rate r e (left - v * (e - t1))).map fun u => u + (e - t1)

/-- The run time of a descriptor that starts at moment `t`, in µs; none where it can never finish (R174, R195, R333,
R401). -/
def timeOf (s : State) (g : Settings) (p : Plan) (n : Nat) (sl : Slot) (d : Desc) (t : Rat) : Option Rat :=
  match termsOf s (chargeType d) sl.res.index with
  | none => none
  | some x =>
    let clk : Rat := clockMhz s g sl.res
    if sl.res.type = 1 then some ((batchesOf sl * arrayCycles x d : Nat) / clk)
    else if sl.res.type = 6 then some (((x.base : Rat) + (x.unit : Rat) * unitsOf d / 256) / clk)
    else
      let base : Rat := (x.base : Rat) / clk
      let rem : Rat := if isRemote s sl.ctx d then (2 * diameter s * 1000 : Nat) / clk else 0
      if d.c.type = 0x0501 then some (base + rem)
      else
        let units : Rat := (x.unit : Rat) * unitsOf d / 256 / clk
        let cap := binRate s g sl.ctx d
        let rate := fun b : Nat =>
          let r : Rat := (g.weightOf p.part b * 8000 : Nat) / ((enginesAt p sl.res.index b : Nat) : Rat)
          match cap with | some c => min r c | none => r
        match advance g.bucketUs (p.runs n) t base with
        | none => none
        | some t1 =>
          (transfer g.bucketUs rate (p.bucketsOf n) t1 (movedBytes d)).map fun u => base + max units u + rem

/-! ### Bytes on passive resources -/

/-- Bytes of a piece on each channel group (R45, R223), counted in its 256-byte pieces. -/
def groupsOf : Nat → Nat → Nat → List (Nat × Nat)
  | 0, _, _ => []
  | f + 1, a, n =>
    if n = 0 then [] else let w := min n (256 - a % 256); (pcIndex a / 16, w) :: groupsOf f (a + w) (n - w)

/-- Bytes of a piece on each slice, counted line by line. -/
def slicesOf : Nat → Nat → Nat → List (Nat × Nat)
  | 0, _, _ => []
  | f + 1, a, n =>
    if n = 0 then [] else let w := min n (128 - a % 128); (sliceOf (a / 128), w) :: slicesOf f (a + w) (n - w)

/-- What a local piece places on channel groups and slices, as resource and bytes (R623). -/
def placedBytes (s : State) (alloc : Bool) (p : Nat × Nat) : List (Res × Nat) :=
  if hubOf p.1 ≠ s.leat.hub then []
  else
    let a := localOf p.1
    match regionOf a with
    | .hbm =>
      (groupsOf (p.2 / 256 + 2) a p.2).map (fun x => ({ type := 4, index := x.1 }, x.2)) ++
        (if alloc then (slicesOf (p.2 / 128 + 2) a p.2).map (fun x => ({ type := 5, index := x.1 }, x.2)) else [])
    | .scratch => (slicesOf (p.2 / 128 + 2) a p.2).map fun x => ({ type := 5, index := x.1 }, x.2)
    | _ => []

/-- Bytes of a list on one resource. -/
def onRes (r : Res) (l : List (Res × Nat)) : Nat := sumOf ((l.filter fun x => x.1 = r).map Prod.snd)

/-- Charged bytes and header term on a port (R350). -/
def portCharge (g : Settings) (part b packets header : Nat) : Nat :=
  b + (packets * (header + (if g.sealed.get part 0 ≠ 0 then 32 else 0)) - b / 64)

/-- Packets and header bytes for `n` units of a reduction on a port (R350). -/
def redPackets (t outFmt n : Nat) : Nat × Nat :=
  if t ≤ 0x0302 then (ceilDiv n 16, 8)
  else if t = 0x0304 ∨ t = 0x0305 then (n, 8)
  else (ceilDiv (n * (if t = 0x0303 then redDest t outFmt else redElem t)) 2048, 16)

/-- Packets of rows towards a hub: one per 2,048 bytes of each row (R350). -/
def rowPackets (k : Nat) (rows : List (List (Nat × Nat))) : Nat := sumOf (rows.map fun l => ceilDiv (hubBytes k l) 2048)

/-- Lines that pieces on a hub touch. -/
def hubLines (k : Nat) (ps : List (Nat × Nat)) : Nat :=
  sumOf ((ps.filter fun p => hubOf p.1 = k).map fun p => (p.1 % 128 + p.2 + 127) / 128)

/-- Charge of what a descriptor sends to a hub at an iteration index, on the port by which it leaves (R195, R350). -/
def chargeOut (g : Settings) (part : Nat) (d : Desc) (rows : List (List (Nat × Nat))) (k : Nat) : Nat :=
  let ps := rows.flatten
  match d.b with
  | .dma _ => portCharge g part (128 * hubLines k ps) (rowPackets k rows) 16
  | .red x =>
    let n := ceilDiv (hubBytes k ps) (if d.c.type = 0x0303 then redDest d.c.type x.outFmt else redElem d.c.type)
    let (m, h) := redPackets d.c.type x.outFmt n
    portCharge g part (n * redDest d.c.type x.outFmt) m h
  | _ => portCharge g part (hubBytes k ps) (rowPackets k rows) 16

/-- Charge of read data that comes from a hub at an iteration index, on the port by which it arrives (R350): the same rule, with the
destination lines of a DMA shared out over the hubs by their bytes (log entry 21). -/
def chargeIn (g : Settings) (part i : Nat) (d : Desc) (rows : List (List (Nat × Nat))) (k : Nat) : Nat :=
  let ps := rows.flatten
  let n := hubBytes k ps
  match d.b with
  | .dma x => portCharge g part (128 * ceilDiv (linesAt x.rowsTo i * n) (max 1 (sumOf (ps.map Prod.snd)))) (rowPackets k rows) 16
  | .red x =>
    let c := ceilDiv n (redElem d.c.type)
    let (m, h) := redPackets d.c.type x.outFmt c
    portCharge g part (c * redDest d.c.type x.outFmt) m h
  | _ => portCharge g part n (rowPackets k rows) 16

def raiseHubOf (d : Desc) : Option Nat :=
  if d.c.raiseEn then
    match d.b with
    | .dma x => x.raiseHub
    | .red x => x.raiseHub
    | .site x => x.raiseHub
    | _ => none
  else none

/-- Bytes that a descriptor places on a port at an iteration index (R350, R623). -/
def portBytesAt (s : State) (g : Settings) (p : Plan) (sl : Slot) (d : Desc) (port i : Nat) : Nat :=
  let rows := fun (x : VRange) => rowsAt s sl.ctx i x
  let out := fun (l : List (List (Nat × Nat))) (c : Nat → Nat) =>
    sumOf (((farHubs s l.flatten).filter fun k => routePort s g k = some port).map c)
  let dst := match dstRange d.c.type d.b with
    | some x => out (rows x) (chargeOut g p.part d (rows x))
    | none => 0
  let side := sumOf (((sideRanges d.c.type d.b).filter fun x => x.kind = .write).map fun x =>
    out (rows x) fun k => portCharge g p.part (hubBytes k (rows x).flatten) 1 16)
  let src := match srcRange d.c.type d.b with
    | some x => sumOf (((farHubs s (rows x).flatten).filter fun k => arrivalPort s k = some port).map (chargeIn g p.part i d (rows x)))
    | none => 0
  let op := match d.b with
    | .tallyOp x => (match x.hub with
      | some k => if k ≠ s.leat.hub ∧ routePort s g k = some port then portCharge g p.part 16 1 16 else 0
      | none => 0)
    | _ => 0
  dst + side + src + op + (match raiseHubOf d with
    | some k => if k ≠ s.leat.hub ∧ routePort s g k = some port then portCharge g p.part 16 1 16 else 0
    | none => 0)

/-- Bytes that a descriptor places on a channel group or slice at an iteration index: by address, with the columns of Table 5-9
(R195, R623). -/
def localBytesAt (s : State) (sl : Slot) (d : Desc) (r : Res) (i : Nat) : Nat :=
  let t := d.c.type
  let on := fun (alloc : Bool) (x : Option VRange) => match x with
    | some v => onRes r ((piecesAt s sl.ctx i v).flatMap (placedBytes s alloc))
    | none => 0
  let a := on false (srcRange t d.b)
  let b := on (match d.b with | .dma x => x.hint = 1 || x.hint = 2 | _ => false) (dstRange t d.b)
  let c := sumOf ((sideRanges t d.b).map fun v => on false (some v))
  match d.b with
  | .red x =>
    (if t = 0x0302 then 0 else if t < 0x0310 then ceilDiv (a * 34) 64 else a) +
      (if t = 0x0303 then b else ceilDiv (b * redDest t x.outFmt) (redElem t)) + c
  | _ => a + b + c

/-- Bytes that a descriptor places on one passive resource: the most over indices 0 to ITER_MOD − 1, of which a Turn runs one (R350,
R623, log entry 21). -/
def bytesOn (s : State) (g : Settings) (p : Plan) (sl : Slot) (d : Desc) (r : Res) : Nat :=
  maxOf ((List.range d.c.iterMod).map fun i =>
    if r.type = 3 then portBytesAt s g p sl d r.index i else localBytesAt s sl d r i)

end Sys2Proof.Machine
end

