-- ==== Sys2Proof/Machine/Admit.lean ====
section
/-! DEFINITION. Admission: the checks of R67 in their order, the reserves and the energy rules, and the admission report
(R49, R51, R60, R67-R73, R401, R418, R423-R429). -/

namespace Sys2Proof.Machine

/-- The answer of a check: a status of Table 14-6 with its DETAIL, or passed. -/
abbrev Verdict := Option (Status × Nat)

/-- DETAIL of R71. -/
def admitDetail (bucket type index code : Nat) : Nat := bucket % 256 + type * 2 ^ 8 + index * 2 ^ 16 + code * 2 ^ 32

/-- The first check that fails. -/
def firstOf (l : List Verdict) : Verdict := l.findSome? id

def planOf (s : State) (h : Nat) : Option Plan := s.plans.plan.find? h

def setPlan (s : State) (h : Nat) (p : Plan) : State := { s with plans := { s.plans with plan := s.plans.plan.put h p } }

def dropPlan (s : State) (h : Nat) : State := { s with plans := { s.plans with plan := s.plans.plan.drop h } }

/-! ### Devices in force -/

/-- The power domains of a resource (Tables 1-1, 1-3); a DMA engine and a port's links lie in PD28 and a quadrant. -/
def domainsOf (s : State) (r : Res) : List Nat :=
  match r.type with
  | 1 => match domainOf s r.index with | some d => [d] | none => [31]
  | 2 => [28]
  | 3 => [domOfLink (8 * r.index)]
  | 4 => [domOfStack (r.index / 2)]
  | 5 => [domOfSlice r.index]
  | _ => [domOfSite r.index]

/-- A domain is on and not switching (R418). -/
def steady (s : State) (d : Nat) : Bool :=
  domainOn s d && (match s.power.switching with | some w => !w.left.contains d || !w.started | none => true)

/-- Plans that hold claims: handle and plan (R49). -/
def holders (s : State) : List (Nat × Plan) := s.plans.plan.filter fun x => x.2.state ≠ .loaded

/-- A bucket of a resource is free for a plan: every other plan that holds it names the plan for takeover or is named by
it (R49). -/
def claimFree (s : State) (h : Nat) (p : Plan) (r : Res) (b : Nat) : Bool :=
  (holders s).all fun x => x.1 = h || (x.2.entry r b).isNone || p.takeover = some x.1 || x.2.takeover = some h

/-! ### Steps 0 and 1 -/

def checkHeader (s : State) (g : Settings) (p : Plan) : Verdict :=
  if p.bucketLen ≠ g.bucketLen then some (.planTiming, admitDetail 255 0 0 4)
  else if p.tailraceLen ≠ g.tailraceLen then some (.planTiming, admitDetail 255 0 0 5)
  else if p.tariffVer ≠ 0 ∧ p.tariffVer ≠ s.glob.tariffVer then some (.planTiming, admitDetail 255 0 0 6)
  else none

/-- A site slot needs a site in site packet mode and declared functions (R397). -/
def siteSlotOk (s : State) (sl : Slot) : Bool :=
  sl.res.type ≠ 6 || sl.descs.all fun d => (siteTypes s sl.res.index).contains d.c.type &&
    decide ((s.sites.site.get sl.res.index Site.reset).state = .inService)

/-- Contexts bound to the plan's partition (R266), sites (R397) and translations (R623). -/
def checkSlot (s : State) (p : Plan) (n : Nat) (sl : Slot) : Verdict :=
  if boundTo s sl.ctx p.part ∧ siteSlotOk s sl ∧ ((p.bucketsOf n).isEmpty ∨ sl.descs.all (descTranslates s sl.ctx)) then
    none
  else some (.planOwnership, admitDetail 255 sl.res.type sl.res.index 0)

def checkEntry (s : State) (g : Settings) (h : Nat) (p : Plan) (t : ResTable) (b : Nat) : Verdict :=
  if (t.entries.getD b none).isNone then none
  else if b + g.tailraceLen ≥ 128 then some (.planReserve, admitDetail b t.res.type t.res.index 1)
  else if g.ownerOf t.res.type t.res.index b ≠ p.part ∨ !claimFree s h p t.res b ∨ !(domainsOf s t.res).all (steady s) then
    some (.planOwnership, admitDetail b t.res.type t.res.index 0)
  else none

/-! ### Step 2: timing -/

/-- Worst-case start and finish of a slot's descriptors, in µs: by slot and place in the slot. -/
abbrev Times := List ((Nat × Nat) × (Rat × Rat))

def Times.finish (t : Times) (k : Nat × Nat) : Rat :=
  match t.find? fun x => x.1 = k with | some x => x.2.2 | none => 0

/-- The raises of a plan on local tallies whose amount it fixes: tally, amount, place (R68). -/
def raisesOf (s : State) (p : Plan) : List (Nat × Nat × (Nat × Nat)) :=
  let here := fun (h : Option Nat) => h = none || h = some s.leat.hub
  (indexed p.slots).flatMap fun (n, sl) =>
    if (p.bucketsOf n).isEmpty then []
    else
      (indexed sl.descs).flatMap fun (k, d) =>
        (if d.c.raiseEn ∧ d.c.type ≠ 0x30 ∧ here (raiseHubOf d) then [(d.c.raiseTally, d.c.raiseAmount, (n, k))] else []) ++
        (match d.b with
         | .tallyOp x => if !x.sub ∧ here x.hub then [(x.tally, x.amount, (n, k))] else []
         | _ => [])

/-- Insertion by time. -/
def insTime (x : Rat × Nat) : List (Rat × Nat) → List (Rat × Nat)
  | [] => [x]
  | y :: r => if x.1 ≤ y.1 then x :: y :: r else y :: insTime x r

/-- The moment at which amounts in order of time bring a tally from zero to `n`. -/
def reach (n : Nat) : Nat → List (Rat × Nat) → Option Rat
  | _, [] => none
  | got, (t, a) :: r => if got + a ≥ n then some t else reach n (got + a) r

/-- intra_plan_ready of R67, R68: none where the plan's raises never satisfy the wait. -/
def readyAt (rs : List (Nat × Nat × (Nat × Nat))) (t : Times) (c : Common) : Option Rat :=
  if !c.waitEn ∨ c.waitN = 0 then none
  else
    let l := (rs.filter fun x => x.1 = c.waitTally).map fun x => (t.finish x.2.2, x.2.1)
    reach c.waitN 0 (l.foldr insTime [])

/-- Last bucket of a slot's last run. -/
def Plan.lastBucket (p : Plan) (n : Nat) : Nat := maxOf (p.bucketsOf n)

/-- A slot ends at a resource boundary (R51). -/
def endsAtBoundary (g : Settings) (p : Plan) (n : Nat) (sl : Slot) : Bool :=
  let later := (upto (p.lastBucket n + 1) 128).filter fun b => b + g.tailraceLen < 128
  let mine := later.find? fun b => (p.entry sl.res b).isSome
  let other := later.find? fun b =>
    let o := g.ownerOf sl.res.type sl.res.index b
    o ≠ p.part && o ≠ 16
  match other, mine with
  | some x, some y => x < y
  | some _, none => true
  | none, _ => false

/-- Suspend distance of a slot in µs (R51). -/
def suspendUs (s : State) (sl : Slot) : Rat :=
  let c := maxOf (sl.descs.map fun d => match termsOf s (chargeType d) sl.res.index with | some t => t.suspend | none => 0)
  let clk := match sl.res.type with | 1 => 900 | 6 => max 1 (siteMhz s sl.res.index) | _ => 2000
  (c : Rat) / (clk : Rat)

/-- The descriptors of a slot, one after another from a moment on: their times, or none past the last run. -/
def slotTimes (s : State) (g : Settings) (p : Plan) (rs : List (Nat × Nat × (Nat × Nat))) (old : Times) (n : Nat)
    (sl : Slot) : List (Nat × Desc) → Rat → Times → Option (Times × Rat)
  | [], t, acc => some (acc, t)
  | (k, d) :: r, t, acc =>
    let t1 := match readyAt rs (acc ++ old) d.c with | some x => max t x | none => t
    match (timeOf s g p n sl d t1).bind fun u => advance g.bucketUs (p.runs n) t1 u with
    | none => none
    | some t2 => slotTimes s g p rs old n sl r t2 (((n, k), (t1, t2)) :: acc)

/-- One slot in a round of step 2. -/
def checkSlotTime (s : State) (g : Settings) (p : Plan) (rs : List (Nat × Nat × (Nat × Nat))) (old : Times)
    (n : Nat) (sl : Slot) : Except (Status × Nat) Times :=
  match p.runs n with
  | [] => .ok old
  | (a, _) :: _ =>
    let bad := (Status.planTiming, admitDetail (p.lastBucket n) sl.res.type sl.res.index 0)
    match slotTimes s g p rs old n sl (indexed sl.descs) ((a : Rat) * g.bucketUs) [] with
    | none => .error bad
    | some (t, e) =>
      if endsAtBoundary g p n sl ∧ e > ((p.lastBucket n + 1 : Nat) : Rat) * g.bucketUs - suspendUs s sl then .error bad
      else .ok (t ++ old.filter fun x => x.1.1 ≠ n)

/-- All slots of a round, in order. -/
def roundTimes (s : State) (g : Settings) (p : Plan) (rs : List (Nat × Nat × (Nat × Nat))) :
    List (Nat × Slot) → Times → Except (Status × Nat) Times
  | [], t => .ok t
  | (n, sl) :: r, t =>
    match checkSlotTime s g p rs t n sl with
    | .error e => .error e
    | .ok t1 => roundTimes s g p rs r t1

/-- The rounds of step 2, until nothing changes. -/
def timing (s : State) (g : Settings) (p : Plan) (rs : List (Nat × Nat × (Nat × Nat))) : Nat → Times →
    Except (Status × Nat) Times
  | 0, t => .ok t
  | k + 1, t =>
    match roundTimes s g p rs (indexed p.slots) t with
    | .error e => .error e
    | .ok t1 => if t1 = t then .ok t else timing s g p rs k t1

/-! ### Step 3: passive resources -/

/-- Time shared by a bucket and an interval. -/
def overlap (len : Rat) (b : Nat) (x : Rat × Rat) : Rat :=
  max 0 (min x.2 (((b : Rat) + 1) * len) - max x.1 ((b : Rat) * len))

/-- The start of the run in which a moment lies: the earliest that a descriptor may begin (R67). -/
def runStart (len : Rat) (runs : List (Nat × Nat)) (t : Rat) : Rat :=
  match runs.find? fun x => t < (x.2 : Rat) * len with
  | some x => (x.1 : Rat) * len
  | none => t

/-- A descriptor as steps 3 and 4 charge it: its slot, itself, its span from the start of its run, and its start. -/
structure Charged where
  slot : Slot
  desc : Desc
  span : Rat × Rat
  start : Rat

/-- The descriptors that run, with their spans. -/
def chargedOf (g : Settings) (p : Plan) (t : Times) : List Charged :=
  (indexed p.slots).flatMap fun (n, sl) =>
    if (p.bucketsOf n).isEmpty then []
    else
      (indexed sl.descs).filterMap fun (k, d) =>
        (t.find? fun x => x.1 = (n, k)).map fun x =>
          { slot := sl, desc := d, span := (runStart g.bucketUs (p.runs n) x.2.1, x.2.2), start := x.2.1 }

def peakOf (s : State) (x : Charged) : Nat :=
  match termsOf s (chargeType x.desc) x.slot.res.index with | some t => t.peak | none => 0

/-- Bytes that a plan places on a passive resource in a bucket (step 3 of R67, R56). -/
def placedIn (s : State) (g : Settings) (p : Plan) (cs : List (Nat × Charged)) (r : Res) (b : Nat) : Rat :=
  let tr := sumOf ((p.transits.filter fun x => r.type = 3 && x.port = r.index && x.bucket = b).map Transit.bytes)
  cs.foldl (fun a x => a + min (x.1 : Rat) ((peakOf s x.2 : Rat) * overlap g.bucketUs b x.2.span)) (tr : Rat)

def checkPassive (s : State) (g : Settings) (p : Plan) (cs : List Charged) (r : Res) : Verdict :=
  let (cap, head) := capOf s r
  let ys := (cs.map fun x => (bytesOn s g p x.slot x.desc r, x)).filter fun y => y.1 ≠ 0
  (List.range (128 - g.tailraceLen)).findSome? fun b =>
    let q := placedIn s g p ys r b
    if q > (cap : Rat) * g.bucketUs then some (.planTiming, admitDetail b r.type r.index 0)
    else if r.type = 3 ∧ q > (head : Rat) * g.bucketUs then some (.planReserve, admitDetail b r.type r.index 3)
    else none

/-! ### Step 4: energy -/

/-- V_REF in 10 mV and LIMIT in W of a rail group (Table 13-1). -/
def vRef (grp : Nat) : Nat := if grp ≤ 1 then 65 else if grp = 4 then 90 else 75
def groupLimit : Nat → Nat
  | 0 => 330 | 1 => 330 | 2 => 175 | 3 => 110 | 4 => 180 | 5 => 70 | 6 => 170 | _ => 15

/-- The highest PEAK_CW of any array type in a domain at its step. -/
def highestPeak (s : State) (g : Settings) (d grp : Nat) : Nat :=
  maxOf (arrayTypes.map fun t => (railCost s t d (g.freqStep.get d 0) grp).peakCw)

/-- RES_g in 10 mW (R423): an array domain feeds the group of its half and group 2. -/
def reservedCw (s : State) (g : Settings) (grp : Nat) : Nat :=
  sumOf (((s.plans.designated.map Prod.snd).filter fun pa => grp = 2 || grp = domOfArray pa / 8).map
    fun pa => highestPeak s g (domOfArray pa) grp)

/-- The limit of R423 in a bucket, in nJ. -/
def limitNj (s : State) (g : Settings) (grp : Nat) : Rat :=
  (((groupLimit grp * 100 : Nat) : Rat) - (reservedCw s g grp : Rat)) * 10 * g.bucketUs

/-- Idle energy of every powered domain in a group and bucket, each at its step in force, in nJ (R38, R63, R69). -/
def idleNj (s : State) (g : Settings) (grp : Nat) : Rat :=
  ((sumOf (s.power.on.map fun d => (idleCost s d (if d < 16 then g.freqStep.get d 0 else 0) grp).baseNj) * g.bucketLen : Nat) : Rat)

/-- One unit of an energy share, 0.1 W, over a bucket, in nJ. -/
def shareUnit (g : Settings) : Rat := 100 * g.bucketUs

/-- Fixed shares of all partitions in a group and bucket, in nJ. -/
def fixedNj (g : Settings) (grp b : Nat) : Rat :=
  ((sumOf ((List.range 16).map fun p => let e := g.energyOf p grp b; if e = 0xFFFF then 0 else e) : Nat) : Rat) * shareUnit g

/-- The remainder of partition 0 in a group and bucket before the common fraction, in nJ; zero where its share is fixed. -/
def rawRemainder (s : State) (g : Settings) (grp b : Nat) : Rat :=
  if g.energyOf 0 grp b = 0xFFFF then max 0 (limitNj s g grp - idleNj s g grp - fixedNj g grp b) else 0

/-- The energy share of a partition in a group and bucket, in nJ; remainders that exceed 1,200 W together are lowered by one fraction and
rounded down to 0.1 W (R69). -/
def shareNj (s : State) (g : Settings) (p grp b : Nat) : Rat :=
  let e := g.energyOf p grp b
  if e ≠ 0xFFFF then (e : Rat) * shareUnit g
  else
    let groups := List.range 8
    let rems := groups.foldl (fun a k => a + rawRemainder s g k b) 0
    let rest := (1200000 : Rat) * g.bucketUs - groups.foldl (fun a k => a + idleNj s g k + fixedNj g k b) 0
    let r := rawRemainder s g grp b
    if rems > rest ∧ rems > 0 then ((r * (max 0 rest / rems) / shareUnit g).floor : Rat) * shareUnit g else r

/-- Hold power of a resource in a group, in 10 mW (R424). -/
def holdCw (s : State) (g : Settings) (r : Res) (grp : Nat) : Nat :=
  let (d, k) := chargeDomain s g r
  (railCost s 0xFFFE d k grp).peakCw

/-- Energy of a descriptor in a group, in nJ, and its peak in 10 mW. -/
def energyNj (s : State) (g : Settings) (x : Charged) (grp : Nat) : Rat :=
  let (d, k) := chargeDomain s g x.slot.res
  let c := railCost s (chargeType x.desc) d k grp
  (batchesOf x.slot : Rat) * ((c.baseNj : Rat) + (c.unitPj : Rat) * unitsOf x.desc / 1000)

def peakCw (s : State) (g : Settings) (x : Charged) (grp : Nat) : Nat :=
  let (d, k) := chargeDomain s g x.slot.res
  (railCost s (chargeType x.desc) d k grp).peakCw

/-- Resources of a plan that hold runs: arrays and engines (R424). -/
def heldRes (p : Plan) : List Res :=
  (p.tables.filter fun t => t.res.type ≤ 2 && t.entries.any Option.isSome).map ResTable.res

/-- A resource is in a run in an interval; K intervals make a Turn. -/
def inRun (g : Settings) (p : Plan) (r : Res) (k : Nat) : Bool :=
  (p.entry r (k % (128 * g.bucketLen) / g.bucketLen)).isSome

/-- The level of a resource in an interval, in sixteenths (R425). -/
def levelOf (g : Settings) (p : Plan) (r : Res) (k : Nat) : Nat :=
  if inRun g p r k then 16
  else
    let n := 128 * g.bucketLen
    match (upto 1 16).find? fun d => inRun g p r (k + d) || inRun g p r (k + n - d % n) with
    | some d => 17 - d
    | none => 0

/-- A span reaches into an interval. -/
def touches (x : Rat × Rat) (k : Nat) : Bool := decide (x.1 < ((k : Rat) + 1) / 5 ∧ (k : Rat) / 5 < x.2)

/-- i_lo and i_hi of R428 in units of 10 mW; the division by V comes at the comparison. -/
def powerLo (s : State) (g : Settings) (p : Plan) (grp k : Nat) : Rat :=
  (heldRes p).foldl (fun a r => a + ((levelOf g p r k * holdCw s g r grp : Nat) : Rat) / 16) 0

def powerHi (s : State) (g : Settings) (p : Plan) (cs : List Charged) (grp k : Nat) : Rat :=
  let a := (heldRes p).foldl (fun a r =>
    a + (if inRun g p r k then
           ((maxOf (holdCw s g r grp :: ((cs.filter fun x => x.slot.res = r && touches x.span k).map
             fun x => peakCw s g x grp)) : Nat) : Rat)
         else ((levelOf g p r k * holdCw s g r grp : Nat) : Rat) / 16)) 0
  (cs.filter fun x => 2 < x.slot.res.type && touches x.span k).foldl (fun a x => a + (peakCw s g x grp : Rat)) a

/-- slope_ok of R428: a difference in 10 mW over V_REF in 10 mV gives amperes. -/
def slopeOk (s : State) (g : Settings) (p : Plan) (cs : List Charged) (b grp : Nat) : Bool :=
  let n := g.bucketLen
  (upto (b * n) n).all fun k =>
    let k1 := (k + 1) % (128 * n)
    let hi := max (powerHi s g p cs grp k) (powerHi s g p cs grp k1)
    let lo := min (powerLo s g p grp k) (powerLo s g p grp k1)
    decide ((hi - lo) / (vRef grp : Rat) ≤ (g.slopeOf p.part grp : Rat) / 10)

/-- Energy of a plan in a bucket and group, in nJ: hold and ramps of its own runs, and its descriptors (R67, R428). -/
def usedNj (s : State) (g : Settings) (p : Plan) (cs : List Charged) (b grp : Nat) : Rat :=
  let n := g.bucketLen
  let idle := (upto (b * n) n).foldl (fun a k => a + powerLo s g p grp k * 2) 0
  cs.foldl (fun a x => a + min (energyNj s g x grp) (((peakCw s g x grp * 10 : Nat) : Rat) * overlap g.bucketUs b x.span)) idle

def checkEnergy (s : State) (g : Settings) (p : Plan) (cs : List Charged) : Verdict :=
  (List.range 128).findSome? fun b => (List.range 8).findSome? fun grp =>
    if usedNj s g p cs b grp > shareNj s g p.part grp b ∨ !slopeOk s g p cs b grp then
      some (.planEnergy, admitDetail b grp 0 0)
    else none

/-- Site energy of a plan on a site, in nJ (R401). -/
def siteNj (s : State) (p : Plan) (site : Nat) : Nat :=
  sumOf ((indexed p.slots).flatMap fun (n, sl) =>
    if sl.res = { type := 6, index := site } ∧ !(p.bucketsOf n).isEmpty then
      sl.descs.map fun d =>
        match siteRecord s site (d.c.type - 0x0400), d.b with
        | some r, .site x => rd r 20 4 * 1000 + x.units * rd r 24 4
        | _, _ => 0
    else [])

/-- The site energy of all admitted plans with this one stays within SITE_RESERVE × Turn length, for every site that the
plan claims (R401). -/
def checkSites (s : State) (g : Settings) (h : Nat) (p : Plan) : Verdict :=
  (List.range 12).findSome? fun k =>
    if (p.tableOf { type := 6, index := k }).all Option.isNone then none
    else
      let others := sumOf (((holders s).filter fun x => x.1 ≠ h && p.takeover ≠ some x.1).map fun x => siteNj s x.2 k)
      if ((others + siteNj s p k : Nat) : Rat) > (g.siteReserveOf k : Rat) * shareUnit g * 128 then
        some (.planEnergy, admitDetail 0 (0x10 + k) 0 0)
      else none

/-! ### Step 5: spares -/

/-- Spares that count for designation: in a powered domain, free or in patrol (R70). -/
def countedSpares (s : State) : List Nat :=
  (List.range 288).filter fun n =>
    decide ((physArr s n).state = .spare) && domainOn s (domOfArray n)

/-- Domain group of an array. -/
def spareGroup (n : Nat) : Nat := domOfArray n / 4

/-- The spare that a pool gives a domain group: the lowest inside it, or of the lowest-numbered other group (R70). -/
def spareFor (pool : List Nat) (g : Nat) : Option Nat :=
  (pool.find? fun n => spareGroup n = g).orElse fun _ =>
    (List.range 4).findSome? fun k => pool.find? fun n => spareGroup n = k && k ≠ g

/-- The designation for the groups that are left (R70). -/
def designate (pool : List Nat) : List Nat → Option (List Nat)
  | [] => some []
  | g :: r =>
    match spareFor pool g with
    | none => none
    | some n => (designate (without pool n) r).map (n :: ·)

/-- The designation that the spares of the state allow. -/
def designation (s : State) : Option (List Nat) := designate (countedSpares s) [0, 1, 2, 3]

/-- The hub keeps the designation current (R70): as many groups as can be served. -/
def designateNow (s : State) : State :=
  let pick := fun (x : List Nat × Tbl Nat) (g : Nat) =>
    match spareFor x.1 g with
    | some n => (without x.1 n, x.2.put g n)
    | none => x
  { s with plans := { s.plans with designated := ((List.range 4).foldl pick (countedSpares s, [])).2 } }

/-! ### The whole -/

/-- Admission of a plan under settings: its verdict and the times of its descriptors (R67). Where it fails at or before step 2 no times
stand, and the report's entries carry no charge of a descriptor: the spec does not say what they hold then (log entry 78). -/
def admission (s : State) (g : Settings) (h : Nat) (p : Plan) : Verdict × List Charged :=
  match firstOf [checkHeader s g p, firstOf ((indexed p.slots).map fun x => checkSlot s p x.1 x.2),
                 firstOf (p.tables.flatMap fun t => (List.range 128).map (checkEntry s g h p t))] with
  | some e => (some e, [])
  | none =>
    match timing s g p (raisesOf s p) 16 [] with
    | .error e => (some e, [])
    | .ok t =>
      let cs := chargedOf g p t
      (firstOf [firstOf (passives.map (checkPassive s g p cs)), checkEnergy s g p cs, checkSites s g h p,
                if (designation s).isSome then none else some (.planReserve, admitDetail 0 0 0 2)], cs)

/-! ### The admission report (R73) -/

/-- A ratio as Q0.16; 1 and more reads 0xFFFF. -/
def q16 (v : Rat) : Nat := if v ≥ 1 then 0xFFFF else ((v * 65536).floor).toNat

/-- The entry with the highest value, the first among equals. -/
def best : List (Rat × Nat × Nat) → Rat × Nat × Nat
  | [] => (0, 0, 0)
  | x :: r => let y := best r; if y.1 > x.1 then y else x

/-- Time utilisation of the plan's resources in a bucket: on active ones the share of the bucket from the starts to the finishes of their
descriptors, which follow one another; bytes against capacity on passive ones. -/
def utilOf (s : State) (g : Settings) (p : Plan) (cs : List Charged) (b : Nat) : Rat × Nat × Nat :=
  let act := (p.tables.filter fun t => isActive t.res.type).map fun t =>
    ((cs.filter fun x => x.slot.res = t.res).foldl (fun a x => a + overlap g.bucketUs b (x.start, x.span.2)) 0 / g.bucketUs,
      t.res.type, t.res.index)
  let pas := (p.tables.filter fun t => !isActive t.res.type).map fun t =>
    let ys := (cs.map fun x => (bytesOn s g p x.slot x.desc t.res, x)).filter fun y => y.1 ≠ 0
    let cap := ((capOf s t.res).1 : Rat) * g.bucketUs
    ((if cap = 0 then 0 else placedIn s g p ys t.res b / cap), t.res.type, t.res.index)
  let u := best (act ++ pas)
  if u.1 = 0 then (0, 0, 0) else u

/-- Eight bytes of one bucket. Energy against a share of zero is a utilisation of 1 or more, unless none is used. -/
def reportEntry (s : State) (g : Settings) (p : Plan) (cs : List Charged) (b : Nat) : Bytes :=
  let u := utilOf s g p cs b
  let e := best ((List.range 8).map fun k =>
    let sh := shareNj s g p.part k b
    let used := usedNj s g p cs b k
    ((if sh ≠ 0 then used / sh else if used = 0 then 0 else 1), k, 0))
  leBytes 1 u.2.1 ++ leBytes 1 e.2.1 ++ leBytes 2 u.2.2 ++ leBytes 2 (q16 u.1) ++ leBytes 2 (q16 e.1)

/-- The report of an admission: 16-byte header and 128 entries. -/
def reportBytes (s : State) (g : Settings) (p : Plan) (v : Verdict) (cs : List Charged) : Bytes :=
  let (st, bk) := match v with
    | some (st, d) => (st.code, if d % 256 = 255 then 0xFFFF else d % 256)
    | none => (0, 0xFFFF)
  leBytes 4 s.glob.tariffVer ++ leBytes 2 st ++ leBytes 2 bk ++ leBytes 8 0 ++
    (List.range 128).flatMap (reportEntry s g p cs)

end Sys2Proof.Machine
end

