-- ==== Sys2Proof/Machine/Items.lean ====
section
/-! DEFINITION. Staged items: their form, what each changes, and the checks of a staging set (R460-R464, Tables 14-9 to
14-11, 19-2, 12-5, and the rules that these name). -/

namespace Sys2Proof.Machine

/-- LEN of an item and how many values its INDEX has (Tables 14-10, 19-2); OWNER_TABLE's INDEX is checked apart. -/
def itemSpec (item : Nat) : Option (Nat × Nat) :=
  if item = 0x0001 ∨ item = 0x0002 ∨ item = 0x0101 ∨ item = 0x0202 ∨ item = 0x0301 ∨ item = 0x0402 ∨ item = 0x0607 then
    some (8, 1)
  else if item = 0x0102 ∨ item = 0x0103 ∨ item = 0x0505 ∨ item = 0x0701 ∨ item = 0x0702 then some (8, 16)
  else if item = 0x0201 ∨ item = 0x0401 then some (8, 64)
  else if item = 0x0302 then some (32, 64)
  else if item = 0x0501 then some (128, 0)
  else if item = 0x0502 then some (256, 128)
  else if item = 0x0503 then some (16, 16)
  else if item = 0x0504 then some (128, 16)
  else if 0x0601 ≤ item ∧ item ≤ 0x0606 then some (8, 12)
  else none

def indexOk (item index : Nat) : Bool :=
  match itemSpec item with
  | none => false
  | some (_, n) => if item = 0x0501 then index % 256 < resCount (index / 256) else index < n

/-- The items of a payload (R461); `n` bounds their number. -/
def parseItems : Nat → Bytes → Option (List Item)
  | 0, b => if b.isEmpty then some [] else none
  | n + 1, b =>
    if b.isEmpty then some []
    else if b.length < 8 then none
    else
      let item := rd b 0 2
      let index := rd b 2 2
      let len := rd b 4 2
      match itemSpec item with
      | none => none
      | some (l, _) =>
        if len ≠ l ∨ !indexOk item index ∨ rd b 6 2 ≠ 0 ∨ b.length < 8 + len then none
        else (parseItems n (b.drop (8 + len))).map fun r => { item := item, index := index, value := sub b 8 len } :: r

/-- An item in the form of Table 14-9. -/
def Item.bytes (i : Item) : Bytes := leBytes 2 i.item ++ leBytes 2 i.index ++ leBytes 2 i.value.length ++ leBytes 2 0 ++ i.value

/-- A value as a number. -/
def Item.num (i : Item) : Nat := leVal i.value

def Item.u16 (i : Item) (k : Nat) : Nat := rd i.value (2 * k) 2

/-! ### What an item changes -/

/-- A table with `n` values put from a key on. -/
def putRow (t : Tbl Nat) (key : Nat) (l : List Nat) : Tbl Nat :=
  (indexed l).foldl (fun a x => a.put (key + x.1) x.2) t

def shareOfWord (v : Nat) : Share :=
  { valid := bit v 0, owner := bits v 4 1, prio := bits v 6 5, wayQuota := bits v 12 8, reqSlots := bits v 21 16,
    bulkSlots := bits v 29 24, latBin := bits v 35 32, missMax := bits v 47 40 }

def routeOfWord (v : Nat) : Route :=
  { valid := bit v 0, prio := bits v 2 1, dim := bits v 4 3, negative := bit v 5, dest := bits v 24 8,
    mask := bits v 41 25 }

/-- The window of 32 bytes (Table 8-7). -/
def windowOfBytes (b : Bytes) : Window :=
  let c := rd b 0 1
  { valid := bit c 0, prio := bits c 2 1, read := bit c 3, write := bit c 4, atomic := bit c 5, sizeLog2 := rd b 1 1,
    part := bits (rd b 2 1) 3 0, srcHub := bits (rd b 4 4) 16 0, srcMask := bits (rd b 8 4) 16 0,
    inBase := bits (rd b 16 8) 40 0, outBase := bits (rd b 24 8) 40 0 }

/-- The format of Table 8-7. -/
def windowFormat (b : Bytes) : Bool :=
  let w := windowOfBytes b
  bits (rd b 0 1) 7 6 = 0 && 16 ≤ w.sizeLog2 && w.sizeLog2 ≤ 41 && bits (rd b 2 1) 7 4 = 0 && rd b 3 1 = 0 &&
    bits (rd b 4 4) 31 17 = 0 && bits (rd b 8 4) 31 17 = 0 && rd b 12 4 = 0 && bits (rd b 16 8) 63 41 = 0 &&
    bits (rd b 24 8) 63 41 = 0 && w.inBase % 2 ^ w.sizeLog2 = 0 && w.outBase % 2 ^ w.sizeLog2 = 0

/-- BUCKET_LEN and TAILRACE_LEN as written (R40, R41). -/
def bucketLenOf (v : Nat) : Nat := if 1 ≤ v ∧ v ≤ 64 then v else 4
def tailraceLenOf (v : Nat) : Nat := if 8 ≤ v ∧ v ≤ 32 then v else 8

/-- The settings with an item in force. -/
def applyItem (g : Settings) (i : Item) : Settings :=
  let v := i.num
  let x := i.index
  if i.item = 0x0001 then { g with bucketLen := bucketLenOf v }
  else if i.item = 0x0002 then { g with tailraceLen := tailraceLenOf v }
  else if i.item = 0x0101 then { g with scratchWays := v }
  else if i.item = 0x0102 then { g with wayOwner := g.wayOwner.put x v }
  else if i.item = 0x0103 then { g with dirOwner := g.dirOwner.put x v }
  else if i.item = 0x0201 then { g with share := g.share.put x (shareOfWord v) }
  else if i.item = 0x0202 then { g with shareWindow := v }
  else if i.item = 0x0301 then { g with windowMode := bit v 0 }
  else if i.item = 0x0302 then { g with window := g.window.put x (windowOfBytes i.value) }
  else if i.item = 0x0401 then { g with route := g.route.put x (routeOfWord v) }
  else if i.item = 0x0402 then { g with protoFloor := v }
  else if i.item = 0x0501 then
    { g with owner := putRow g.owner (x * 128) (i.value.map fun b => if b.getLsbD 7 then 16 else b.toNat % 16) }
  else if i.item = 0x0502 then { g with energy := putRow g.energy (x * 128) ((List.range 128).map i.u16) }
  else if i.item = 0x0503 then { g with slope := putRow g.slope (x * 8) ((List.range 8).map i.u16) }
  else if i.item = 0x0504 then { g with weight := putRow g.weight (x * 128) (i.value.map BitVec.toNat) }
  else if i.item = 0x0505 then { g with sealed := g.sealed.put x (v % 2) }
  else if i.item = 0x0601 then { g with sitePart := g.sitePart.put x v }
  else if i.item = 0x0602 then { g with siteRate := g.siteRate.put x v }
  else if i.item = 0x0603 then { g with siteCache := g.siteCache.put x v }
  else if i.item = 0x0604 then { g with siteShare := g.siteShare.put x v }
  else if i.item = 0x0605 then { g with siteReserve := g.siteReserve.put x v }
  else if i.item = 0x0606 then { g with siteMax := g.siteMax.put x v }
  else if i.item = 0x0607 then { g with purse := v }
  else if i.item = 0x0701 then { g with trim := g.trim.put x v }
  else if i.item = 0x0702 then { g with freqStep := g.freqStep.put x v }
  else g

def applyItems (g : Settings) (l : List Item) : Settings := l.foldl applyItem g

/-! ### Rules of one item -/

/-- Bits that a value may set, for the items of eight bytes (Tables 14-10, 9-6, 11-8, 12-5, 19-2). -/
def valueMask (item : Nat) : Nat :=
  if item = 0x0001 then 0x7F
  else if item = 0x0002 then 0x3F
  else if item = 0x0101 then 0x1F
  else if item = 0x0102 ∨ item = 0x0103 ∨ item = 0x0701 ∨ item = 0x0702 then 0xF
  else if item = 0x0201 then 0xFF0F_3F3F_1F7F
  else if item = 0x0202 then 0x7FF
  else if item = 0x0301 ∨ item = 0x0505 then 1
  else if item = 0x0401 then 0x3FF_FFFF_FF3F
  else 0xFFFF

/-- REASON 1: the format of an item. -/
def formatOk (i : Item) : Bool :=
  if i.item = 0x0302 then windowFormat i.value
  else if i.item = 0x0501 then i.value.all fun b => b.toNat / 16 % 8 = 0
  else if i.item = 0x0502 ∨ i.item = 0x0503 ∨ i.item = 0x0504 then true
  else (i.num &&& valueMask i.item) = i.num

/-- Capability of the chiplet at a site: MAX_RATE, FEATURES, IDLE_FLOOR, MAX_POWER; none where no chiplet has presented a
table (Table 12-9). -/
def siteCap (s : State) (n : Nat) : Option (Nat × Nat × Nat × Nat) :=
  let st := s.sites.site.get n Site.reset
  if st.table.isEmpty then none
  else some (rd st.table 6 1, rd st.table 10 1, rd st.table 14 2, rd st.table 16 2)

/-- A plan claims some bucket of a resource (admitted or active). -/
def claimed (s : State) (r : Res) : Bool := (holders s).any fun x => (x.2.tableOf r).any Option.isSome

def siteRes (n : Nat) : Res := { type := 6, index := n }

/-- REASON 2: the rule of an item by itself. -/
def itemRule (s : State) (i : Item) : Bool :=
  let v := i.num
  let n := i.index
  if i.item = 0x0101 then v ≤ 16
  else if i.item = 0x0201 then
    let e := shareOfWord v
    e.wayQuota ≤ 16 && e.reqSlots ≤ 48 && e.bulkSlots ≤ 48
  else if i.item = 0x0202 then 1 ≤ v && v ≤ 1024
  else if i.item = 0x0302 then
    let w := windowOfBytes i.value
    w.outBase + 2 ^ w.sizeLog2 ≤ hbmEnd ||
      (scratchBase ≤ w.outBase && w.outBase + 2 ^ w.sizeLog2 ≤ 0x102_0000_0000) ||
      (binBase ≤ w.outBase && w.outBase + 2 ^ w.sizeLog2 ≤ 0x142_0000_0000)
  else if i.item = 0x0401 then
    let r := routeOfWord v
    !r.valid || extent s r.dim ≠ 1
  else if i.item = 0x0402 then s.set.protoFloor ≤ v && v ≤ s.turn.sysMin
  else if i.item = 0x0502 then n < 8 || (List.range 128).all fun b => i.u16 b ≠ 0xFFFF
  else if i.item = 0x0503 then (List.range 8).all fun g => i.u16 g ≤ 300
  else if i.item = 0x0504 then i.value.all fun b => b.toNat ≤ 60
  else if i.item = 0x0505 then lcState s = 3 || lcState s = 4
  else if i.item = 0x0601 then v ≤ 15 && (v = s.set.sitePartOf n || !claimed s (siteRes n))
  else if i.item = 0x0602 then
    (v = 8 || v = 16) && (v = s.set.siteRateOf n || !claimed s (siteRes n)) &&
      (v = 8 || match siteCap s n with | some c => 2 ≤ c.1 | none => true)
  else if i.item = 0x0603 then v = 0 || (v = 1 && match siteCap s n with | some c => bit c.2.1 0 | none => false)
  else if i.item = 0x0604 then v ≤ 62
  else if i.item = 0x0605 then v ≤ 2500 && (match siteCap s n with | some c => c.2.2.1 ≤ v | none => true)
  else if i.item = 0x0606 then v ≤ 2500 && (match siteCap s n with | some c => v ≤ c.2.2.2 | none => true)
  else if i.item = 0x0607 then v ≤ 30000
  else if i.item = 0x0701 then v ≤ 12 && v ≤ s.set.trim.get n 0 + 1 && s.set.trim.get n 0 ≤ v + 1
  else if i.item = 0x0702 then s.set.freqStep.get n 0 ≤ v && v ≤ 8
  else true

/-! ### Rules of a set -/

/-- An item that a rule involves, by ITEM and INDEX. -/
abbrev Involved := List (Nat × Nat)

/-- A broken rule names the items involved. -/
def brokenIf (b : Bool) (l : Involved) : List Involved := if b then [l] else []

def row (item : Nat) (l : List Nat) : Involved := l.map fun k => (item, k)

def validClasses (g : Settings) : List Nat := (List.range 64).filter fun c => (g.shareOf c).valid

/-- Deeds of scratch granules at or beyond a backed limit name no partition; plan stores lie in backed ranges (R216). -/
def scratchRule (s : State) (g : Settings) : List Involved :=
  let lim := scratchBase + g.backed
  let deeds := s.mem.deeds.any fun d =>
    lim ≤ d.1 * granule && d.1 * granule < 0x102_0000_0000 && d.2.kind ≠ .none
  let stores := (holders s).any fun x =>
    scratchBase ≤ x.2.store + x.2.totalLen && x.2.store < 0x102_0000_0000 && lim < x.2.store + x.2.totalLen
  brokenIf (deeds || stores) [(0x0101, 0)]

/-- Way quotas of a partition's classes against its cache ways (R216, R302). -/
def quotaRule (s : State) (g : Settings) : List Involved :=
  (List.range 16).flatMap fun p =>
    let mine := (validClasses g).filter fun c => (g.shareOf c).owner = p
    brokenIf (sumOf (mine.map fun c => (g.shareOf c).wayQuota) > (g.cacheWays p).length)
      ((0x0101, 0) :: row 0x0201 mine ++
        row 0x0102 ((List.range 16).filter fun w => g.wayOwner.get w 0 = p || s.set.wayOwner.get w 0 = p))

/-- Class 63 and the sums of slots (R302). -/
def shareRule (g : Settings) : List Involved :=
  let v := validClasses g
  brokenIf (!(g.shareOf 63).valid || (g.shareOf 63).owner ≠ 0) [(0x0201, 63)] ++
  brokenIf (sumOf (v.map fun c => (g.shareOf c).reqSlots) > 48) (row 0x0201 (v.filter fun c => (g.shareOf c).reqSlots ≠ 0)) ++
  brokenIf (sumOf (v.map fun c => (g.shareOf c).bulkSlots) > 48)
    (row 0x0201 (v.filter fun c => (g.shareOf c).bulkSlots ≠ 0))

/-- A partition with a caching-enabled agent keeps a directory way (R239, R244, Table 12-5). -/
def dirRule (g : Settings) : List Involved :=
  let caching := fun k => g.siteCacheOf k = 1
  (List.range 16).flatMap fun p =>
    let agents := (List.range 12).filter fun k => caching k && g.sitePartOf k = p
    brokenIf ((p = 0 || !agents.isEmpty) && (g.dirWays p).isEmpty)
      (row 0x0103 (List.range 16) ++ row 0x0601 agents ++ row 0x0603 agents)

/-- Mesh weights, slope shares and fixed energy shares (R69, R306, R429). -/
def powerRule (s : State) (g : Settings) : List Involved :=
  ((List.range 128).flatMap fun b =>
    brokenIf (sumOf ((List.range 16).map fun p => g.weightOf p b) > 60)
      (row 0x0504 ((List.range 16).filter fun p => g.weightOf p b ≠ 0))) ++
  ((List.range 8).flatMap fun k =>
    brokenIf (sumOf ((List.range 16).map fun p => g.slopeOf p k) > 240)
      (row 0x0503 ((List.range 16).filter fun p => g.slopeOf p k ≠ 0))) ++
  (List.range 128).flatMap fun b =>
    let fixed := fun k => (List.range 16).filter fun p => g.energyOf p k b ≠ 0 && g.energyOf p k b ≠ 0xFFFF
    ((List.range 8).flatMap fun k =>
      brokenIf (decide (fixedNj g k b + idleNj s g k > limitNj s g k))
        (row 0x0502 ((fixed k).map fun p => p * 8 + k))) ++
    brokenIf (decide ((List.range 8).foldl (fun a k => a + fixedNj g k b + idleNj s g k) 0 > (1200000 : Rat) * g.bucketUs))
      (row 0x0502 ((List.range 8).flatMap fun k => (fixed k).map fun p => p * 8 + k))

/-- Pairs of a list, each once. -/
def pairs : List Nat → List (Nat × Nat)
  | [] => []
  | x :: r => r.map (fun y => (x, y)) ++ pairs r

/-- Windows and route overrides that would tie (R288, R360). -/
def tieRule (g : Settings) : List Involved :=
  ((pairs ((List.range 64).filter fun n => (g.windowOf n).valid)).flatMap fun x =>
    let a := g.windowOf x.1
    let b := g.windowOf x.2
    let m := a.srcMask &&& b.srcMask
    brokenIf (a.prio = b.prio && a.inBase < b.inBase + 2 ^ b.sizeLog2 && b.inBase < a.inBase + 2 ^ a.sizeLog2 &&
        decide ((a.srcHub &&& m) = (b.srcHub &&& m))) [(0x0302, x.1), (0x0302, x.2)]) ++
  (pairs ((List.range 64).filter fun n => (g.routeOf n).valid)).flatMap fun x =>
    let a := g.routeOf x.1
    let b := g.routeOf x.2
    let m := a.mask &&& b.mask
    brokenIf (a.prio = b.prio && a.dim = b.dim && decide ((a.dest &&& m) = (b.dest &&& m)))
      [(0x0401, x.1), (0x0401, x.2)]

/-- Sites: owner tables, share classes, reserves and the allowance (R301, R390, Table 12-5). -/
def siteRule (g : Settings) : List Involved :=
  ((List.range 12).flatMap fun k =>
    let p := g.sitePartOf k
    let e := g.shareOf (g.siteShareOf k)
    brokenIf ((List.range 128).any fun b => let o := g.ownerOf 6 k b; o ≠ 16 && o ≠ p)
      [(0x0501, 6 * 256 + k), (0x0601, k)] ++
    brokenIf (!e.valid || e.owner ≠ p) [(0x0201, g.siteShareOf k), (0x0601, k), (0x0604, k)] ++
    brokenIf (g.siteReserveOf k > g.siteMaxOf k) [(0x0605, k), (0x0606, k)]) ++
  brokenIf (sumOf ((List.range 12).map g.siteReserveOf) > g.purse) ((0x0607, 0) :: row 0x0605 (List.range 12))

/-- Every rule of a set that a candidate breaks. -/
def setRules (s : State) (g : Settings) : List Involved :=
  brokenIf (g.bucketLen * g.tailraceLen < 16) [(0x0001, 0), (0x0002, 0)] ++ scratchRule s g ++ quotaRule s g ++
    shareRule g ++ dirRule g ++ powerRule s g ++ tieRule g ++ siteRule g

/-! ### The check of a set (R462, R464, Table 14-11) -/

def checkDetail (num reason arg : Nat) : Nat := num + reason * 2 ^ 32 + arg * 2 ^ 48

def setOf (s : State) (n : Nat) : StageSet := s.cmd.sets.get n StageSet.reset

def setSet (s : State) (n : Nat) (v : StageSet) : State := { s with cmd := { s.cmd with sets := s.cmd.sets.put n v } }

/-- Numbers of the sets: eight of the sources, and Kyohar's own (R460, R552). -/
def setNumbers : List Nat := List.range 40

/-- ARG of REASON 3 (Table 14-11, R552). -/
def setArg (n : Nat) : Nat := if n ≥ 8 then 0xFF else n

/-- POSTED sets in order of Turn and acceptance. -/
def insSet (x : Nat × StageSet) : List (Nat × StageSet) → List (Nat × StageSet)
  | [] => [x]
  | y :: r =>
    if x.2.turn < y.2.turn ∨ (x.2.turn = y.2.turn ∧ x.2.order ≤ y.2.order) then x :: y :: r else y :: insSet x r

def postedSets (s : State) : List (Nat × StageSet) :=
  ((setNumbers.map fun n => (n, setOf s n)).filter fun x => x.2.state = .posted).foldr insSet []

/-- The state in force with every POSTED set applied (R464). -/
def postedSettings (s : State) : Settings := (postedSets s).foldl (fun g x => applyItems g x.2.items) s.set

/-- A change of these items re-admits every admitted and active plan (R462): bucket timing, tariff, owner tables, shares
and the availability of a resource. -/
def readmits (item : Nat) : Bool :=
  [0x0001, 0x0002, 0x0201, 0x0501, 0x0502, 0x0503, 0x0504, 0x0505, 0x0602, 0x0605, 0x0702].contains item || item / 256 = 4

/-- Items of a list by themselves: number, REASON and ARG of the first that fails. -/
def itemFailure (s : State) (self : Nat) (l : List Item) : Option Nat :=
  (indexed l).findSome? fun (k, i) =>
    if !formatOk i then some (checkDetail k 1 0)
    else if !itemRule s i then some (checkDetail k 2 0)
    else
      ((postedSets s).find? fun x => x.1 ≠ self && x.2.items.any fun j => j.item = i.item && j.index = i.index).map
        fun x => checkDetail k 3 (setArg x.1)

/-- The lowest number of a staged item that a list of rules involves. -/
def lowestOf (l : List Item) (rules : List Involved) : Nat :=
  (((indexed l).find? fun x => rules.any fun r => r.contains (x.2.item, x.2.index)).map Prod.fst).getD 0

/-- A candidate against the rules of the set and the plans. -/
def candidateFailure (s : State) (g : Settings) (l : List Item) : Option Nat :=
  let rules := setRules s g
  if !rules.isEmpty then some (checkDetail (lowestOf l rules) 2 0)
  else
    match (indexed l).find? fun x => readmits x.2.item with
    | none => none
    | some (k, _) =>
      ((holders s).find? fun x => (admission s g x.1 x.2).1.isSome).map fun x => checkDetail k 4 x.1

/-- The DETAIL of CHECK_FAILED, or passed: against the state in force and with every POSTED set. -/
def checkSet (s : State) (self : Nat) (l : List Item) : Option Nat :=
  firstOf' [itemFailure s self l, candidateFailure s (applyItems s.set l) l,
           candidateFailure s (applyItems (postedSettings s) l) l]
where
  firstOf' : List (Option Nat) → Option Nat := fun l => l.findSome? id

end Sys2Proof.Machine
end

