-- ==== Sys2Proof/Machine/Links.lean ====
section
/-! DEFINITION. The sending side of the Leat ports: headers, virtual channels and credits, sealing, striping over the links, and the
packets that wait (R345-R352, R355-R358, R366-R369, R583). -/

namespace Sys2Proof.Machine

/-! ### Headers -/

/-- A long header for a packet of this hub (Table 11-4). LEN counts whole words: where the last one of a body is not full, bits 124 to 122
hold how many of its bytes count, since the table gives no place for it (log entry 23). -/
def longHeader (s : State) (dest share op tag addr len : Nat) (poisoned : Bool) : Bytes :=
  leBytes 16 (s.leat.hub + share * 2 ^ 17 + op * 2 ^ 23 + flag poisoned * 2 ^ 29 + flag s.set.windowMode * 2 ^ 30 +
    ceilDiv len 8 % 512 * 2 ^ 31 + tag % 4096 * 2 ^ 40 + dest * 2 ^ 64 + addr % 2 ^ 41 * 2 ^ 81 + len % 8 * 2 ^ 122)

/-- A short header, for a mint transfer packet. -/
def shortHeader (s : State) (share tag len : Nat) (poisoned : Bool) : Bytes :=
  leBytes 8 (s.leat.hub + share * 2 ^ 17 + 4 * 2 ^ 23 + flag poisoned * 2 ^ 29 + flag s.set.windowMode * 2 ^ 30 +
    ceilDiv len 8 % 512 * 2 ^ 31 + tag % 4096 * 2 ^ 40)

def pktOp (b : Bytes) : Nat := bits (rd b 0 8) 26 23
def pktShare (b : Bytes) : Nat := bits (rd b 0 8) 22 17
def pktSealed (b : Bytes) : Bool := bit (rd b 0 8) 27
def pktDvc (b : Bytes) : Bool := bit (rd b 0 8) 28
def pktTag (b : Bytes) : Nat := bits (rd b 0 8) 51 40
/-- Body length in bytes. -/
def pktLen (b : Bytes) : Nat := 8 * bits (rd b 0 8) 39 31
/-- Bytes of the header: short for a mint transfer. -/
def pktHead (b : Bytes) : Nat := if pktOp b = 4 then 8 else 16

/-- Destination hub: a mint transfer's is in its own header's DST (R347). -/
def pktDest (b : Bytes) : Nat :=
  if pktOp b = 4 then hubOf (rd b (8 + (if pktSealed b then 16 else 0) + 8) 8) else bits (rd b 0 16) 80 64

/-- Virtual channel (R351). -/
def pktVc (b : Bytes) : Nat :=
  let o := pktOp b
  let c := if o = 2 ∨ o = 3 ∨ o = 9 then 1 else if o = 4 ∨ (o = 0 ∧ pktLen b > 256) then 2 else 0
  2 * c + flag (pktDvc b)

/-- Buffer units of 64 bytes that a packet takes (R352). -/
def pktUnits (b : Bytes) : Nat := ceilDiv b.length 64

/-- The packet with its DVC bit set or clear. -/
def setDvc (b : Bytes) (on : Bool) : Bytes :=
  let x := b.getD 3 0#8
  b.set 3 ((x &&& 0xEF#8) ||| (if on then 0x10#8 else 0#8))

/-- Leaving by a port crosses the wrap link of its dimension (R358). -/
def crossesWrap (s : State) (p : Nat) : Bool :=
  let e := extent s (p / 2)
  let c := coord s.leat.hub (p / 2)
  if p % 2 = 0 then c + 1 = e else c = 0

/-! ### Sealing -/

/-- A partition is sealed (R583). -/
def isSealed (s : State) (p : Nat) : Bool := s.set.sealed.get p 0 = 1

/-- Key and eight link salts of one direction, in the 128 bytes of R584: the first half from PT(2d) to PT(2d+1). -/
def keyHalf (m : Bytes) (first : Bool) : Bytes × Bytes := let o := if first then 0 else 64; (sub m o 32, sub m (o + 32) 32)

/-- The nonce: the link's salt and the counter, each with its most significant byte first (R366). -/
def nonceOf (salts : Bytes) (k ctr : Nat) : Nat := rd salts (4 * k) 4 * 2 ^ 64 + ctr

/-- A packet sealed on link `k` of a port under the installed keys (R366). -/
def sealPacket (port k ctr : Nat) (keys : Keys) (b : Bytes) : Bytes :=
  let h := b.take (pktHead b)
  let h1 := h.set 3 (h.getD 3 0#8 ||| 0x08#8)
  let ext := leBytes 8 ctr ++ leBytes 1 keys.keyId ++ leBytes 1 k ++ List.replicate 6 0#8
  let (key, salts) := keyHalf keys.material (port % 2 = 0)
  h1 ++ ext ++ Config.gcmSeal key (nonceOf salts k ctr) (h1 ++ ext) (b.drop (pktHead b))

/-! ### Sending -/

/-- The partition whose packets a port sends in the bucket in progress (R346); no plan entry counts under a mismatch (R91). -/
def portOwner (s : State) (p : Nat) : Nat :=
  let r : Res := { type := 3, index := p }
  match (holders s).find? fun x => !s.turn.mismatch && (x.2.entry r s.turn.bucket).isSome with
  | some x => x.2.part
  | none => s.set.ownerOf 3 p s.turn.bucket

/-- Lanes of a link in service. -/
def lanesOf (l : Link) : Nat := match l.width with | 1 => 1 | 2 => 2 | 3 => 4 | _ => 0

/-- The bit-error check of a link runs: it carries neither traffic nor markers (R525). -/
def inCheck (s : State) (l : Link) : Bool := match l.ber with | .agreed t _ => t ≤ now s | _ => false

/-- A link in service carries traffic: past its bit-error check, and in its port's rotation again (R355, R526). -/
def Link.carries (l : Link) : Bool := !l.rejoin && l.ber = .passed

/-- The links of a port that may carry a partition's packets, one entry per lane (R355, R369). -/
def rotation (s : State) (p part : Nat) : List Nat :=
  ((liveLinks s p).filter fun n =>
    (linkOf s n).carries && !(isSealed s part && (linkOf s n).sealHeld.contains part)).flatMap fun n =>
      List.replicate (lanesOf (linkOf s n)) n

/-- The link that carries the next flit: the port's rotation, by PSEQ. -/
def nextLink (s : State) (p part : Nat) : Option Nat :=
  let r := rotation s p part
  r[(portOf s p).txSeq % max 1 r.length]?

/-- A packet may leave by a port now (R90, R346, R352, R366, R583). -/
def mayLeave (s : State) (p part : Nat) (b : Bytes) : Bool :=
  let q := portOf s p
  !s.turn.holdover && ((nextLink s p part).any fun n => (linkOf s n).replay.length < 128) &&
    (portOwner s p = part || (part = 0 && pktShare b = 63)) &&
    q.used.get (part * 6 + pktVc b) 0 + pktUnits b ≤ 512 && (!isSealed s part || pktSealed b || (q.keys.find? part).isSome)

/-- A flit of a link's replay buffer as it is sent, with the last LSEQ accepted on the link (Table 11-3). -/
def flitOf (s : State) (n : Nat) (r : Replay) : Output := .leatFlit n r.lseq r.pseq r.part (linkOf s n).rxSeq r.mgmt r.data

/-- A packet leaves in a data flit, that of the management slot outside its partition's buckets: sealed where its partition is, dealt to the next link, and kept for resend (R345, R348,
R355, R367). -/
def sendFlit (s : State) (p part : Nat) (b : Bytes) : State :=
  match nextLink s p part with
  | none => s
  | some n =>
    let l := linkOf s n
    let q := portOf s p
    let ctr := l.sealCtr.get part 0
    let (body, ctr1) := match isSealed s part, q.keys.find? part with
      | true, some k => if pktSealed b then (b, ctr) else (sealPacket p (n % 8) ctr k b, ctr + 1)
      | _, _ => (b, ctr)
    let rep : Replay := { lseq := l.txSeq, part := part, pseq := q.txSeq, mgmt := portOwner s p ≠ part, data := body, resent := 0 }
    let s1 := setLink s n { l with txSeq := (l.txSeq + 1) % 4096, replay := l.replay ++ [rep],
                                   sealCtr := if ctr1 = ctr then l.sealCtr else l.sealCtr.put part ctr1 }
    let s2 := setPort s1 p { q with txSeq := (q.txSeq + 1) % 2 ^ 24,
                                    used := q.used.put (part * 6 + pktVc b) (q.used.get (part * 6 + pktVc b) 0 + pktUnits b) }
    emit (noteBusy s2 { type := 3, index := p } part) (flitOf s n rep)

/-- The epoch of a packet's context is no longer the current one (R268). -/
def Queued.old (s : State) (x : Queued) : Bool := x.ctx.any fun c => (ctxOf s c.1).epoch ≠ c.2 % 256

/-- The group of class 0x47 that a refused packet counts in: its descriptor's, where its tag is one of a queue of an engine (R293, log
entry 23). -/
def tagGroup (tag : Nat) : Nat := if tag % 32 < 30 then 1 + tag / 32 else 0

/-- A packet under an old epoch does not leave: class 0x47, and its unit is answered with an error (R268). -/
def refuseOld (s : State) (p : Nat) (x : Queued) : State :=
  let tag := pktTag x.data
  let s1 := recordIn s (tagGroup tag) { cls := 0x47, kind := 6, index := p, part := some x.part }
  fileArrival s1 (.leat x.part (longHeader s1 s1.leat.hub (pktShare x.data) 9 tag 0 0 false)) false

/-- A packet for a port: it leaves, waits behind those of its partition and channel, or is refused for its epoch (R268). -/
def portSubmit (s : State) (p : Nat) (x : Queued) : State :=
  let q := portOf s p
  let behind := q.queue.any fun y => y.part = x.part && pktVc y.data = pktVc x.data
  if x.old s then refuseOld s p x
  else if !behind && mayLeave s p x.part x.data then sendFlit s p x.part x.data
  else setPort s p { q with queue := q.queue ++ [x] }

/-- The packets that wait for a port are submitted again, in order. -/
def releasePort (s : State) (p : Nat) : State :=
  let q := portOf s p
  q.queue.foldl (fun a x => portSubmit a p x) (setPort s p { q with queue := [] })

def releasePorts (s : State) : State := (List.range 8).foldl releasePort s

/-- Holdover has ended: what is not acknowledged is sent again on every link in service, unchanged, and the packets that wait go
(R90, R348). -/
def resumeLeat (s : State) : State :=
  let one := fun (a : State) (n : Nat) => (linkOf a n).replay.foldl (fun b r => emit b (flitOf b n r)) a
  releasePorts (((List.range 64).filter fun n => (linkOf s n).state = .inService).foldl one s)

/-- The class under which a request to another hub is refused as it is issued, if it is: no such hub 0x60; a window request of a partition
other than 0 0x41 (R36, R286). -/
def abroadFault (s : State) (p h : Nat) : Option Nat :=
  if !hubExists s h then some 0x60 else if s.set.windowMode ∧ p ≠ 0 then some 0x41 else none

/-- A packet sets out for another hub: it enters its first dimension with DVC 0 (R357, R358). -/
def sendPacket (s : State) (x : Queued) : State :=
  match portFor s (pktDest x.data) with
  | some p => portSubmit s p { x with data := setDvc x.data (crossesWrap s p) }
  | none => s

/-- A request under a context, or another packet, in the long form; window codes in WINDOW mode (R264, R285, Table 11-4). -/
def sendUnder (s : State) (ctx : Option (Nat × Nat)) (part dest share op tag addr : Nat) (body : Bytes) (poisoned : Bool) : State :=
  let o := if s.set.windowMode ∧ op = 0 then 7 else if s.set.windowMode ∧ op = 1 then 8 else op
  let words := body ++ List.replicate (8 * ceilDiv body.length 8 - body.length) 0#8
  sendPacket s { part := part, ctx := ctx, data := longHeader s dest share o tag addr body.length poisoned ++ words }

/-- A request without a context, a response or an acknowledgement. -/
def sendTo (s : State) (part dest share op tag addr : Nat) (body : Bytes) (poisoned : Bool) : State :=
  sendUnder s none part dest share op tag addr body poisoned

/-- Local address of a tally word (R33). -/
def tallyAddr (t : Nat) : Nat := regBase + 0x80_0000 + 8 * t

/-- A tally operation on another hub (R319). -/
def sendTally (s : State) (ctx : Option (Nat × Nat)) (part dest share tag t : Nat) (sub : Bool) (n : Nat) : State :=
  sendUnder s ctx part dest share 5 tag (tallyAddr t) (leBytes 8 (n + (if sub then 2 else 1) * 2 ^ 32)) false

/-- Neighbouring parts of data that one packet carries: at most 2,048 bytes, all of them poisoned or none (R347). -/
def joinParts : List (Bytes × Bool) → List (Bytes × Bool)
  | [] => []
  | x :: r =>
    match joinParts r with
    | [] => [x]
    | y :: t => if x.2 = y.2 ∧ x.1.length + y.1.length ≤ 2048 then (x.1 ++ y.1, y.2) :: t else x :: y :: t

/-- Data at an address in the packets that carry it, in order, each with its poison; no data go in one packet too (R347). -/
def dataParts (a : Nat) (d : Bytes) (bad : List Bool) : List (Bytes × Bool) :=
  if d.isEmpty then [([], false)]
  else joinParts ((cutAt 64 a d.length).map fun p => ((d.drop (p.1 - a)).take p.2, bad.getD (p.1 / 64 - a / 64) false))

/-- The packets of a write, one after another. -/
def sendParts (s : State) (ctx : Option (Nat × Nat)) (part dest share tag : Nat) : Nat → List (Bytes × Bool) → State
  | _, [] => s
  | a, x :: r => sendParts (sendUnder s ctx part dest share 0 tag a x.1 x.2) ctx part dest share tag (a + x.1.length) r

/-- A read or write of another hub's memory leaves, with what is to come of it (R36, R347). -/
def sendAccess (s : State) (k : Nat) (ctx : Option (Nat × Nat)) (part dest share : Nat) (read : Bool) (tag addr len : Nat) (d : Bytes)
    (bad : List Bool) : State × Abroad :=
  let e : Abroad := { num := k, read := read, addr := addr, left := len, got := [], refused := false, lost := false }
  if read then (sendUnder s ctx part dest share 1 tag addr (leBytes 8 len) false, e)
  else
    let l := dataParts addr d bad
    (sendParts s ctx part dest share tag addr l, { e with left := l.length })

/-- A part of the answer to a request on another hub has come. -/
def Abroad.take (e : Abroad) : Output → Abroad
  | .readData d bad => { e with left := e.left - d.length, got := e.got ++ marked d (bad.any id) }
  | .ack => { e with left := e.left - 1 }
  | .ackPoisoned => { e with left := e.left - 1, lost := true }
  | _ => { e with left := if e.read then 0 else e.left - 1, refused := true }

/-- The whole answer. -/
def Abroad.answer (e : Abroad) : Output :=
  if e.refused then .errorCompletion
  else if e.read then .readData (e.got.map Prod.fst) (badUnits e.addr e.got)
  else if e.lost then .ackPoisoned
  else .ack

end Sys2Proof.Machine
end

