-- ==== Sys2Proof/Machine/Commands.lean ====
section
/-! DEFINITION. How a command packet starts, is checked and is answered, whatever it asks for (R440-R458). -/

namespace Sys2Proof.Machine

/-- Opcode group: the high byte (R440). -/
def groupOf (op : Nat) : Nat := op / 256

/-- Table 14-5: the opcodes that exist. -/
def opcodes : List Nat :=
  [0x0101, 0x0102, 0x0103, 0x0104, 0x0105, 0x0201, 0x0202, 0x0203, 0x0204, 0x0205, 0x0301, 0x0302, 0x0303, 0x0304,
   0x0310, 0x0311, 0x0320, 0x0340, 0x0341, 0x0342, 0x0343, 0x0350, 0x0351, 0x0352, 0x0360, 0x0361, 0x0362, 0x0363] ++
  [0x0401, 0x0402, 0x0403, 0x0404, 0x0501, 0x0502, 0x0503, 0x0504, 0x0601, 0x0602, 0x0603, 0x0604, 0x0701, 0x0710,
   0x0711, 0x0720, 0x0721, 0x0722, 0x0801, 0x0802, 0x0803, 0x0804, 0x0901, 0x0902, 0x0903, 0x0904, 0x0A01, 0x0A02,
   0x0A03, 0x0A04, 0x0A10, 0x0A11]

/-- Kyohar serves a source; without a verified bank only the recovery service over MCTP does (R599, R601). -/
def served (s : State) (op src : Nat) : Bool :=
  if s.boot.recovery then src = 17 && 0x0901 ≤ op && op ≤ 0x0904
  else s.boot.coresRun && !s.fw.halted && (src = 17 || (fnExists s src && !(func s src).d3 && !s.pins.warmLow))

/-- The commands of a source that are fetched and have not started, oldest first. -/
def fetchedOf (s : State) (src : Nat) : List Fetched := if src = 17 then s.cmd.mctpFetched else (chan s src).fetched

def setFetched (s : State) (src : Nat) (l : List Fetched) : State :=
  if src = 17 then { s with cmd := { s.cmd with mctpFetched := l } } else setChan s src { chan s src with fetched := l }

/-- Opcodes whose latest reply a source's ring still holds back. -/
def heldOps (s : State) (src : Nat) : List Nat := if src = 17 then [] else (chan s src).held.map fun h => rd h.1 24 2

/-- Commands that have started and have no final reply, of every source (R456). -/
def startedAll (s : State) : Nat := sumOf ((List.range 18).map fun f => (startedOf s f).length)

/-- A command may start: it is served, no service pause runs, every earlier command of its source and group has posted its final or
interim reply, with FENCE every earlier command of its source its final one, neither limit is reached, and no command fetched before
it waits (R454, R456, R458). A packet that no ring holds is taken as delivered directly (log entry 5). -/
def canStart (s : State) (op : Nat) (c : Packet) : Bool :=
  let st := startedOf s c.source
  let f := fetchedOf s c.source
  let me : Fetched := { opcode := op, packet := c }
  served s op c.source && !servicePause s && (!c.fence || (st.isEmpty && (heldOps s c.source).isEmpty)) &&
    st.all (fun x => x.interim || groupOf x.reply.opcode != groupOf op) &&
    (heldOps s c.source).all (fun o => groupOf o != groupOf op) &&
    decide (st.length < 64) && decide (startedAll s < 256) &&
    (f.head? = some me || !f.contains me)

/-- The command leaves the fetched ones and is among the started ones. -/
def begin (s : State) (op : Nat) (c : Packet) : State × ReplyTo :=
  let me : Fetched := { opcode := op, packet := c }
  let f := fetchedOf s c.source
  let s1 := if f.head? = some me then setFetched s c.source f.tail else s
  let r : ReplyTo := { id := s.cmd.started, source := c.source, tag := c.tag.toNat, opcode := op, noIrq := c.noIrq }
  let peer := s1.cmd.mctpPeer || c.source.val = 17
  let s2 := { s1 with cmd := { s1.cmd with started := s1.cmd.started + 1, mctpPeer := peer } }
  (setStarted s2 c.source (startedOf s2 c.source ++ [{ reply := r, interim := false }]), r)

/-- What the header alone makes of a command, in the order reserved bits, payload length, partition, group of source
17, readiness (R15, R440, R441, R449, R458; the order is log entry 6). -/
def headerRefusal (s : State) (op : Nat) (lens : Nat → Bool) (c : Packet) : Option (Status × Nat) :=
  if c.rsvd then some (.badParam, 0)
  else if !lens c.payload.length then some (.badParam, 6)
  else if c.part.toNat ≠ srcPart c.source then some (.notPermitted, 0)
  else if c.source.val = 17 ∧ !([7, 8, 9].contains (groupOf op) || op = 0x0A02) then some (.notPermitted, 0)
  else if !s.boot.ready ∧ !([7, 8, 9].contains (groupOf op)) then some (.notReady, 0)
  else none

/-- A started command ends, or goes on. -/
def finish (s : State) (r : ReplyTo) : Ending → State
  | .done st d t out => postFinal s r st d t out
  | .interim t => postInterim s r t
  | .later => s

/-- A command that starts. -/
def runCommand (s : State) (op : Nat) (lens : Nat → Bool) (c : Packet)
    (body : State → ReplyTo → State × Ending) : State :=
  let (s1, r) := begin s op c
  if c.source.val = 17 ∧ s1.cmd.mctp.length + s1.cmd.mctpFetched.length > 8 then
    finish s1 r (.done .busy 0 none none)
  else
    match headerRefusal s1 op lens c with
    | some (st, d) => finish s1 r (.done st d none none)
    | none =>
      let (s2, e) := body s1 r
      finish s2 r e

/-- The meaning of a command row: the command starts if it may, and otherwise goes on waiting. -/
def command (op : Nat) (lens : Nat → Bool) (c : Packet) (s : State) (body : State → ReplyTo → State × Ending) :
    Host.Outcome State Fault Refusal :=
  act s fun t => if canStart t op c then runCommand t op lens c body else t

/-- No payload. -/
def noPayload (n : Nat) : Bool := n = 0

/-! ### Endings and parameters -/

def okay (d : Nat) : Ending := .done .ok d none none
def bad (n : Nat) : Ending := .done .badParam n none none
def denied : Ending := .done .notPermitted 0 none none
def busy (d : Nat) : Ending := .done .busy d none none

/-- The first parameter of a list that is not zero (R15). -/
def firstNonZero (ps : List (Nat × BitVec 64)) : Option Nat := (ps.find? fun x => x.2 ≠ 0#64).map Prod.fst

/-- The parameters P`n` to P5 of a packet, with their numbers. -/
def paramsFrom (c : Packet) (n : Nat) : List (Nat × BitVec 64) :=
  [(0, c.p0), (1, c.p1), (2, c.p2), (3, c.p3), (4, c.p4), (5, c.p5)].drop n

/-- A host address: zero over MCTP, a bus address of the function otherwise (R448). -/
def hostAddrOk (c : Packet) (a : Nat) : Bool := c.source.val ≠ 17 || a = 0

/-- The bytes of a buffer that a command fills: over MCTP at most 4,096 (R448). -/
def bufLen (c : Packet) (n : Nat) : Nat := if c.source.val = 17 then min n 4096 else n

/-- A status reply with output for a host address. -/
def output (d : Nat) (addr : Nat) (b : Bytes) : Ending := .done .ok d none (some (addr, b))

/-- The partition that a command acts for. -/
def partOf (c : Packet) : Nat := srcPart c.source

end Sys2Proof.Machine
end

