-- ==== Sys2Proof/Machine/Plans.lean ====
section
/-! DEFINITION. The plan commands: PLAN_LOAD, PLAN_ADMIT, PLAN_ACTIVATE, PLAN_RETIRE and TARIFF_READ (R49, R57-R62, R67,
R73), and what a Turn boundary does with plans that await it (R59-R61). -/

namespace Sys2Proof.Machine

/-- The first parameter of a packet from `n` on that is not zero ends the command (R15). -/
def reservedFrom (c : Packet) (n : Nat) (s : State) (k : Unit → State × Ending) : State × Ending :=
  match firstNonZero (paramsFrom c n) with
  | some i => (s, bad i)
  | none => k ()

/-- Host memory answers a read of the hub, or refuses it: class 0x83 (R486). -/
def hostRefused (s : State) : State := record s { cls := 0x83 }

/-! ### PLAN_LOAD -/

/-- The lowest free handle. -/
def freeHandle (s : State) : Option Nat := (List.range 64).find? fun h => (planOf s h).isNone

/-- A plan store lies in HBM granules OWNED by a partition (Table 2-7). -/
def storeOk (s : State) (part a n : Nat) : Bool :=
  a + n ≤ fitted s && (upto (a / granule) ((a % granule + n + granule - 1) / granule)).all fun k =>
    let d := s.mem.deeds.get k Deed.reset
    decide (d.kind = .owned) && d.owner = part

/-- The store of a plan that has been checked. -/
def loadPlan (s : State) (c : Packet) (obj : Bytes) (p : Plan) : State × Ending :=
  if partOf c ≠ 0 ∧ p.part ≠ partOf c then (s, denied)
  else if !storeOk s p.part p.store p.totalLen then (s, bad 2)
  else
    match freeHandle s with
    | none => (s, busy 0)
    | some h => (setPlan (memPut s p.store obj) h p, okay h)

/-- The work of PLAN_LOAD (R52, R57, R58). -/
def planLoadBody (c : Packet) (obj : Option Bytes) (s : State) (_ : ReplyTo) : State × Ending :=
  reservedFrom c 3 s fun _ =>
    if c.p1.toNat < 64 ∨ c.p1.toNat > 2 ^ 28 then (s, bad 1)
    else
      match obj with
      | none => (hostRefused s, bad 0)
      | some b =>
        if b.length ≠ c.p1.toNat ∨ rd b 8 4 ≠ c.p1.toNat then (s, bad 1)
        else
          match parsePlan b c.p2.toNat with
          | none => (s, bad 0)
          | some p => loadPlan s c b p

/-- PLAN_LOAD (R58). -/
def execPlanLoad (c : Packet) (obj : Option Bytes) (s : State) : Host.Outcome State Fault Refusal :=
  command 0x0201 noPayload c s (planLoadBody c obj)

/-! ### PLAN_ADMIT -/

/-- A handle that a command of a source may name, in a state (R57, R58). -/
def handleFor (s : State) (c : Packet) (h : Nat) (ok : Plan → Bool) (idx : Nat) : Except Ending Plan :=
  match planOf s h with
  | none => .error (bad idx)
  | some p =>
    if partOf c ≠ 0 ∧ p.part ≠ partOf c then .error denied
    else if ok p then .ok p else .error (bad idx)

/-- The takeover handle of a PLAN_ADMIT (R49). -/
def takeoverFor (s : State) (h t : Nat) (p : Plan) : Except Ending (Option Nat) :=
  if t = 0xFFFF then .ok none
  else
    match planOf s t with
    | none => .error (bad 3)
    | some q =>
      if t = h ∨ q.state = .loaded ∨ q.part ≠ p.part then .error (bad 3)
      else if s.plans.plan.any fun x => x.1 ≠ h && x.2.state ≠ .loaded && x.2.takeover = some t then
        .error (.done .planOwnership 0 none none)
      else .ok (some t)

/-- Admission of a plan against the state in force and the state with every POSTED set applied (R464). -/
def admitBoth (s : State) (h : Nat) (p : Plan) : Verdict × Bytes :=
  let (v, cs) := admission s s.set h p
  let v1 := match v with | some e => some e | none => (admission s (postedSettings s) h p).1
  (v1, reportBytes s s.set p v1 cs)

/-- The work of PLAN_ADMIT. -/
def planAdmitBody (c : Packet) (s : State) (_ : ReplyTo) : State × Ending :=
  reservedFrom c 4 s fun _ =>
    match handleFor s c c.p0.toNat (fun p => p.state = .loaded) 0 with
    | .error e => (s, e)
    | .ok p =>
      if c.p1 ≠ 0#64 ∧ c.p2.toNat < 1040 then (s, bad 2)
      else
        match takeoverFor s c.p0.toNat c.p3.toNat p with
        | .error e => (s, e)
        | .ok t =>
          let s1 := designateNow s
          let q := { p with takeover := t }
          let (v, rep) := admitBoth s1 c.p0.toNat q
          let out := if c.p1 = 0#64 then none else some (c.p1.toNat, rep)
          match v with
          | some (st, d) => (s1, .done st d none out)
          | none => (setPlan s1 c.p0.toNat { q with state := .admitted }, .done .ok s1.glob.tariffVer none out)

/-- PLAN_ADMIT (R67). -/
def execPlanAdmit (c : Packet) (s : State) : Host.Outcome State Fault Refusal :=
  command 0x0202 noPayload c s (planAdmitBody c)

/-! ### Turns of effect -/

/-- The Turn that a command names, between N + 2 and N + 2^24; 0 means N + 2 (R59, R463). -/
def turnFor (s : State) (t idx : Nat) : Except Ending Nat :=
  if t = 0 then .ok (turnMod (now s + 2))
  else if t < now s + 2 then .error (.done .turnPassed (now s + 2) none none)
  else if t > now s + 2 ^ 24 then .error (bad idx)
  else .ok t

/-! ### PLAN_ACTIVATE and PLAN_RETIRE -/

/-- A plan is marked for retirement at a Turn. -/
def markRetire (s : State) (h t : Nat) (r : Option ReplyTo) : State :=
  match planOf s h with
  | some p => setPlan s h { p with pendRet := some (t, r) }
  | none => s

/-- The work of PLAN_ACTIVATE (R49, R59). -/
def planActivateBody (c : Packet) (s : State) (r : ReplyTo) : State × Ending :=
  reservedFrom c 3 s fun _ =>
    match handleFor s c c.p0.toNat (fun p => p.state = .admitted) 0 with
    | .error e => (s, e)
    | .ok p =>
      if p.pendAct.isSome then (s, busy 0)
      else
        match turnFor s c.p1.toNat 1 with
        | .error e => (s, e)
        | .ok t =>
          let h2 := if c.p2 = 0xFFFF#64 then none else some c.p2.toNat
          if p.takeover.isSome ∧ p.takeover ≠ h2 then (s, bad 2)
          else
            match h2 with
            | none => (setPlan s c.p0.toNat { p with pendAct := some (t, none, r) }, .interim t)
            | some h =>
              match handleFor s c h (fun q => q.state ≠ .loaded && h ≠ c.p0.toNat) 2 with
              | .error e => (s, e)
              | .ok q =>
                if q.pendRet.isSome then (s, busy 0)
                else
                  (markRetire (setPlan s c.p0.toNat { p with pendAct := some (t, some h, r) }) h t none, .interim t)

/-- PLAN_ACTIVATE (R59). -/
def execPlanActivate (c : Packet) (s : State) : Host.Outcome State Fault Refusal :=
  command 0x0203 noPayload c s (planActivateBody c)

/-- A handle becomes free; plans that named it for takeover hold their claims alone (R49, R61). -/
def freePlan (s : State) (h : Nat) : State :=
  let s1 := dropPlan s h
  let release := fun (p : Plan) => if p.takeover = some h then { p with takeover := none } else p
  { s1 with plans := { s1.plans with plan := s1.plans.plan.map fun x => (x.1, release x.2) } }

/-- The retirement that a plan's activation would have made is called off. -/
def unmark (s : State) (h : Option Nat) : State :=
  match h with
  | none => s
  | some k => match planOf s k with | some q => setPlan s k { q with pendRet := none } | none => s

/-- The work of PLAN_RETIRE: at once for a plan that is not ACTIVE, otherwise at its Turn (R58, R59). An activation that
awaits its Turn ends with ABORTED. -/
def planRetireBody (c : Packet) (s : State) (r : ReplyTo) : State × Ending :=
  reservedFrom c 2 s fun _ =>
    match handleFor s c c.p0.toNat (fun _ => true) 0 with
    | .error e => (s, e)
    | .ok p =>
      if p.state = .active then
        if p.pendRet.isSome then (s, busy 0)
        else
          match turnFor s c.p1.toNat 1 with
          | .error e => (s, e)
          | .ok t => (markRetire s c.p0.toNat t (some r), .interim t)
      else
        match p.pendAct with
        | none => (freePlan s c.p0.toNat, okay 0)
        | some (_, h, q) =>
          (freePlan (unmark (postFinal s q .aborted 0 none none) h) c.p0.toNat, okay 0)

/-- PLAN_RETIRE (R61). -/
def execPlanRetire (c : Packet) (s : State) : Host.Outcome State Fault Refusal :=
  command 0x0204 noPayload c s (planRetireBody c)

/-! ### The boundary -/

/-- A retirement that is due at a Turn, with its reply. An activation of the plan that still awaits a later Turn ends with ABORTED, as
under PLAN_RETIRE, and the plan that it was to retire stays (R59). -/
def retireDue (t : Nat) (s : State) (h : Nat) : State :=
  match planOf s h with
  | some p =>
    match p.pendRet with
    | some (u, r) =>
      if u ≤ t then
        let s0 := match p.pendAct with
          | some (_, old, q) => unmark (postFinal s q .aborted 0 none none) old
          | none => s
        let s1 := freePlan s0 h
        match r with | some q => postFinal s1 q .ok 0 (some t) none | none => s1
      else s
    | none => s
  | none => s

/-- An activation that is due at a Turn: the plan is admitted again under the state in force then (R60). -/
def activateDue (t : Nat) (s : State) (h : Nat) : State :=
  match planOf s h with
  | some p =>
    match p.pendAct with
    | some (u, old, q) =>
      if u ≤ t then
        match (admitBoth s h p).1 with
        | none =>
          postFinal (setPlan s h { p with state := .active, tAct := t, pendAct := none }) q .ok 0 (some t) none
        | some (st, d) =>
          postFinal (unmark (setPlan s h { p with state := .loaded, pendAct := none, takeover := none }) old) q st d
            (some t) none
      else s
    | none => s
  | none => s

/-- Activations and then retirements of a boundary, in order of handle (R59). -/
def plansDue (s : State) (t : Nat) : State :=
  (List.range 64).foldl (retireDue t) ((List.range 64).foldl (activateDue t) s)

/-- Every ACTIVE plan is admitted again: one that fails is marked unfit, with class 0x02, the failing detail of R71 and event
PLAN_UNFIT (R71, R78, Table 16-8). The spec does not say when the mark ends: the model takes it off at a later re-admission that
succeeds (log entry 78). -/
def readmitPlan (s : State) (h : Nat) : State :=
  match planOf s h with
  | some p =>
    if p.state = .active then
      match (admission s s.set h p).1 with
      | some (_, d) =>
        eventFor (record (setPlan s h { p with unfit := true }) { cls := 0x02, part := some p.part, d0 := d }) 8 p.part
      | none => setPlan s h { p with unfit := false }
    else s
  | none => s

def readmitAll (s : State) : State := (List.range 64).foldl readmitPlan s

/-! ### TARIFF_READ -/

/-- Settings of the tariff that staged frequency steps would install: POSTED sets, then the caller's own sets (R553). -/
def stagedSettings (s : State) (src : Nat) : Settings :=
  let own := if src < 2 then (List.range 4).flatMap fun k => (setOf s (src * 4 + k)).items else []
  applyItems (postedSettings s) (own.filter fun i => i.item = 0x0702)

/-- The work of TARIFF_READ (R62). A buffer shorter than the tariff takes as much of it as fits, with OK: the spec states no refusal and
no other outcome (log entry 78). -/
def tariffReadBody (c : Packet) (s : State) (_ : ReplyTo) : State × Ending :=
  reservedFrom c 4 s fun _ =>
    if c.p2.toNat > 0xFFFF then (s, bad 2)
    else if c.p3.toNat > 1 then (s, bad 3)
    else
      let g := if c.p3 = 1#64 then stagedSettings s c.source else s.set
      let changed := (List.range 16).any fun d => g.freqStep.get d 0 ≠ s.set.freqStep.get d 0
      let ver := if changed then s.glob.tariffVer + 1 else s.glob.tariffVer
      (s, output ver c.p0.toNat ((tariffBytes s g ver c.p2.toNat).take c.p1.toNat))

/-- TARIFF_READ (R62). -/
def execTariffRead (c : Packet) (s : State) : Host.Outcome State Fault Refusal :=
  command 0x0205 noPayload c s (tariffReadBody c)

/-! ### Bucket tables in force -/

/-- Handle and slot that an active plan gives a resource in a bucket; every entry is idle while the Turn parameters disagree with
the Headrace's (R91). -/
def activeAt (s : State) (r : Res) (b : Nat) : Option (Nat × Nat) :=
  if s.turn.mismatch then none
  else s.plans.plan.findSome? fun x =>
    if x.2.state = .active then (x.2.entry r b).map fun n => (x.1, n) else none

/-- An active plan claims a passive resource in a bucket; under a mismatch every entry is idle (R91). -/
def activeClaim (s : State) (r : Res) (b : Nat) : Bool :=
  !s.turn.mismatch && s.plans.plan.any fun x => decide (x.2.state = .active) && (x.2.entry r b).isSome

/-- Partition of the slot that runs in a bucket. -/
def partAt (s : State) (r : Res) (b : Nat) : Option Nat :=
  match activeAt s r b with
  | some (h, _) => (planOf s h).map Plan.part
  | none => none

/-- The bucket in progress belongs to the tailrace (R41). -/
def inTailrace (s : State) : Bool := s.turn.inStretch || s.turn.bucket + s.set.tailraceLen ≥ 128

end Sys2Proof.Machine
end

