-- ==== Sys2Proof/Machine/Tally.lean ====
section
/-! DEFINITION. The tally memory: words, operations, waits and their commands (R313-R322, R336). -/

namespace Sys2Proof.Machine

def engine (s : State) (n : Nat) : Engine := s.dma.get n Engine.reset

def setEngine (s : State) (n : Nat) (v : Engine) : State := { s with dma := s.dma.put n v }

def siteOf (s : State) (n : Nat) : Site := s.sites.site.get n Site.reset

def setSite (s : State) (n : Nat) (v : Site) : State := { s with sites := { s.sites with site := s.sites.site.put n v } }

/-- Where the wait of a queue's descriptor stands. -/
def waitOf (s : State) : Work → WaitState
  | .array n => (logArr s n).wait
  | .dma n => (engine s n).wait
  | .cmd n => (engine s n).cmdWait
  | .site n => (siteOf s n).wait

def setWait (s : State) (w : Work) (v : WaitState) : State :=
  match w with
  | .array n => setLog s n { logArr s n with wait := v }
  | .dma n => setEngine s n { engine s n with wait := v }
  | .cmd n => setEngine s n { engine s n with cmdWait := v }
  | .site n => setSite s n { siteOf s n with wait := v }

/-- The resource that a queue of work belongs to. -/
def workRes : Work → Res
  | .array n => { type := 1, index := n }
  | .dma n => { type := 2, index := n }
  | .site n => { type := 6, index := n }
  | .cmd n => { type := 2, index := n }


/-- A queue's descriptor, of partition `p`, started, completed or was released: the queue is not blocked in this Turn (R334). -/
def setMoved (s0 : State) (w : Work) (p : Nat) : State :=
  let s := noteBusy s0 (workRes w) p
  match w with
  | .array n => setLog s n { logArr s n with moved := true }
  | .dma n => setEngine s n { engine s n with moved := true }
  | .cmd n => setEngine s n { engine s n with cmdMoved := true }
  | .site n => setSite s n { siteOf s n with moved := true }

/-! ### Words -/

def tallyAt (s : State) (t : Nat) : Tally := s.tallies.tally.get t Tally.reset

def setTally (s : State) (t : Nat) (v : Tally) : State :=
  { s with tallies := { s.tallies with tally := s.tallies.tally.put t v } }

def waitersOn (s : State) (t : Nat) : List Waiter := s.tallies.waiters.filter fun w => w.tally = t

def maxTally : Nat := 2 ^ 31 - 1

/-- The word of Table 10-1. -/
def tallyWord (s : State) (t : Nat) : Nat :=
  let v := tallyAt s t
  v.value + v.part * 2 ^ 32 + v.ctx * 2 ^ 36 + min (waitersOn s t).length 511 * 2 ^ 48 + flag v.assigned * 2 ^ 57 +
    flag v.underflow * 2 ^ 58 + flag v.overflow * 2 ^ 59 + flag v.remoteOk * 2 ^ 60

/-- A partition may operate on a tally or read it (R314). -/
def mayTally (s : State) (t p : Nat) : Bool := p = 0 || (tallyAt s t).part = p

def tallyRec (cls t p : Nat) : Rec := { cls := cls, kind := 14, index := t, part := some p }

/-! ### Waits -/

/-- One waiter is evaluated: released where VALUE reaches its N (R317). The count of releases goes along. -/
def evalWaiter (t : Nat) (x : State × Nat) (w : Waiter) : State × Nat :=
  let s := x.1
  let v := tallyAt s t
  if w.n ≤ v.value then
    let s1 := if w.sub then setTally s t { v with value := v.value - w.n } else s
    let s2 := { s1 with tallies := { s1.tallies with waiters := s1.tallies.waiters.filter (· ≠ w) } }
    (setWait s2 w.who .released, x.2 + 1)
  else x

/-- The waiters of a tally are evaluated in order of arrival (R317). -/
def evalWaiters (s : State) (t : Nat) : State × Nat := (waitersOn s t).foldl (evalWaiter t) (s, 0)

/-- A queue files a WAIT on a local tally for a partition: refused under class 0x53 where the partition does not own it,
and the descriptor is then skipped as stale (R147, R314, R322). -/
def fileWait (s : State) (w : Work) (t n : Nat) (sub : Bool) (p : Nat) : State :=
  if !mayTally s t p then setWait (record s (tallyRec 0x53 t p)) w .stale
  else if n = 0 then setWait s w .released
  else
    let s1 := setWait s w .waiting
    let s2 := { s1 with tallies := { s1.tallies with
      waiters := s1.tallies.waiters ++ [{ tally := t, n := n, sub := sub, who := w }] } }
    (evalWaiters s2 t).1

/-! ### Operations -/

/-- What became of an operation: applied, refused, or held back by UNDER or OVER. -/
inductive TallyResult where
  | done | refused | held
  deriving DecidableEq, Repr

/-- ADD or SUB on a tally by a partition that may (Table 10-2). -/
def tallyApply (s : State) (t : Nat) (sub : Bool) (n p : Nat) : State × TallyResult :=
  let v := tallyAt s t
  if sub then
    if v.value < n then (record (setTally s t { v with underflow := true }) (tallyRec 0x51 t p), .held)
    else ((evalWaiters (setTally s t { v with value := v.value - n }) t).1, .done)
  else if v.value + n > maxTally then (record (setTally s t { v with overflow := true }) (tallyRec 0x52 t p), .held)
  else ((evalWaiters (setTally s t { v with value := v.value + n }) t).1, .done)

/-- An operation that reaches the tally memory, from this hub or over a Leat port (R314, R319). -/
def tallyOp (s : State) (t : Nat) (sub : Bool) (n p : Nat) (remote : Bool) : State × TallyResult :=
  if remote ∧ !((tallyAt s t).remoteOk && mayTally s t p) then (record s (tallyRec 0x54 t p), .refused)
  else if !mayTally s t p then (record s (tallyRec 0x53 t p), .refused)
  else tallyApply s t sub n p

/-- A window write of R318 that carries operation code `op`: malformed ones are refused under class 0x53. -/
def tallyWrite (s : State) (q : TallyReq) (op : Nat) : State :=
  let w := q.word.toNat
  let n := bits w 30 0
  if q.width ≠ 8 ∨ bits w 34 32 ≠ op ∨ w ≠ n + op * 2 ^ 32 ∨ n = 0 then
    emit (record s (tallyRec 0x53 q.tally q.part)) .errorCompletion
  else
    let (s1, r) := tallyOp s q.tally (op = 2) n q.part q.remote
    emit s1 (if r = .refused then .errorCompletion else .ack)

/-- TALLY_ADD (R315, R318). -/
def execTallyAdd (q : TallyReq) (s : State) : Host.Outcome State Fault Refusal := act s fun t => tallyWrite t q 1

/-- TALLY_SUB (R315, R318). -/
def execTallySub (q : TallyReq) (s : State) : Host.Outcome State Fault Refusal := act s fun t => tallyWrite t q 2

/-! ### Clearing -/

/-- A tally as a clearing leaves it; unbinding returns it to its reset state (R321). -/
def Tally.cleared (v : Tally) (unbind : Bool) : Tally :=
  if unbind then Tally.reset else { v with value := 0, underflow := false, overflow := false }

/-- The tallies of a context are cleared, and the waiters on them end stale (R321). -/
def clearTallies (s : State) (ctx : Nat) (unbind : Bool) : State :=
  let hit := fun (w : Waiter) => (tallyAt s w.tally).ctx = ctx
  let s1 := (s.tallies.waiters.filter hit).foldl (fun a w => setWait a w.who .stale) s
  { s1 with tallies := { waiters := s.tallies.waiters.filter fun w => !hit w,
                         tally := s.tallies.tally.map fun x => if x.2.ctx = ctx then (x.1, x.2.cleared unbind) else x } }

/-! ### Commands -/

/-- TALLY_ASSIGN over a run of tallies (R320). -/
def assignRun (s : State) (first n : Nat) (v : Tally) : State :=
  (upto first n).foldl (fun a t => setTally a t v) s

def tallyAssignBody (c : Packet) (s : State) (_ : ReplyTo) : State × Ending :=
  if partOf c ≠ 0 then (s, denied)
  else
    reservedFrom c 3 s fun _ =>
      let first := c.p0.toNat
      let n := c.p1.toNat
      let p2 := c.p2.toNat
      if first ≥ 16384 then (s, bad 0)
      else if n = 0 ∨ first + n > 16384 then (s, bad 1)
      else if bits p2 63 17 ≠ 0 ∨ !boundTo s (bits p2 15 4) (bits p2 3 0) then (s, bad 2)
      else if s.tallies.waiters.any fun w => first ≤ w.tally && w.tally < first + n then (s, busy 0)
      else
        (assignRun s first n { Tally.reset with part := bits p2 3 0, ctx := bits p2 15 4, assigned := true,
                                                remoteOk := bit p2 16 }, okay n)

/-- TALLY_ASSIGN (R320). -/
def execTallyAssign (c : Packet) (s : State) : Host.Outcome State Fault Refusal :=
  command 0x0350 noPayload c s (tallyAssignBody c)

def tallyReadBody (c : Packet) (s : State) (_ : ReplyTo) : State × Ending :=
  reservedFrom c 3 s fun _ =>
    let first := c.p1.toNat
    let n := c.p2.toNat
    if first ≥ 16384 then (s, bad 1)
    else if n = 0 ∨ first + n > 16384 then (s, bad 2)
    else
      (s, output n c.p0.toNat ((upto first n).flatMap fun t =>
        leBytes 8 (if mayTally s t (partOf c) then tallyWord s t else 0)))

/-- TALLY_READ (R314, R336). -/
def execTallyRead (c : Packet) (s : State) : Host.Outcome State Fault Refusal :=
  command 0x0351 noPayload c s (tallyReadBody c)

/-- SET v of Table 10-2, with the waiters it releases. -/
def tallySetTo (s : State) (t v : Nat) : State × Nat :=
  evalWaiters (setTally s t { tallyAt s t with value := v, underflow := false, overflow := false }) t

def tallySetBody (c : Packet) (s : State) (_ : ReplyTo) : State × Ending :=
  reservedFrom c 2 s fun _ =>
    let t := c.p0.toNat
    if t ≥ 16384 then (s, bad 0)
    else if c.p1.toNat > maxTally then (s, bad 1)
    else if !mayTally s t (partOf c) then (record s (tallyRec 0x53 t (partOf c)), denied)
    else
      let (s1, n) := tallySetTo s t c.p1.toNat
      (s1, okay n)

/-- TALLY_SET (R315, R336). -/
def execTallySet (c : Packet) (s : State) : Host.Outcome State Fault Refusal :=
  command 0x0352 noPayload c s (tallySetBody c)

end Sys2Proof.Machine
end

