-- ==== Sys2Proof/Machine/Spares.lean ====
section
/-! DEFINITION. Faults of physical arrays and their substitution by spares (R70, R173, R539-R548). -/

namespace Sys2Proof.Machine

/-! ### Spares -/

/-- DEV_STAT.SPARES (R70). -/
def spareCount (s : State) : Nat := (countedSpares s).length

/-- Hot spares of a domain. -/
def sparesIn (s : State) (d : Nat) : Nat := ((countedSpares s).filter fun n => domOfArray n = d).length

/-- The set of spares has changed: designated afresh, with cause SPARES below four (R70, R555). -/
def sparesChanged (s : State) : State :=
  let s1 := designateNow s
  if spareCount s1 < 4 then addCause s1 1 else s1

/-- The first of a pool in the order of R542 for a failed array. -/
def spareIn (s : State) (pool : List Nat) (pa : Nat) : Option Nat :=
  let own := pool.find? fun n => domOfArray n = domOfArray pa
  let named := (s.plans.designated.find? (spareGroup pa)).filter fun n => pool.contains n
  let other := (List.range 4).findSome? fun g => pool.find? fun n => spareGroup n = g && g ≠ spareGroup pa
  own.orElse fun _ => named.orElse fun _ => other

/-- The spare that takes over from an array: a free one, or else one that abandons its patrol pass (R542, R548). -/
def chooseSpare (s : State) (pa : Nat) : Option Nat :=
  let free := (countedSpares s).filter fun n => !(physArr s n).patrol
  (spareIn s free pa).orElse fun _ => spareIn s (countedSpares s) pa

/-! ### Moving a bin -/

/-- The content of one physical bin copied over another's (R543). -/
def Mem.moveBin (m : Mem) (src dst : Nat) : Mem :=
  let a := binKey src 0
  let b := binKey dst 0
  let inSrc := fun (k : Nat) => a ≤ k && k < a + binSize
  let moved := (m.cells.filter fun c => inSrc c.1).map fun c => (c.1 - a + b, c.2)
  let units := (m.poison.filter fun u => inSrc (u * 64)).map fun u => u - a / 64 + b / 64
  { m with cells := (m.cells.filter fun c => c.1 < b) ++ moved ++ m.cells.filter fun c => b + binSize ≤ c.1,
           poison := (m.poison.filter fun u => u * 64 < b || b + binSize ≤ u * 64) ++ units }

/-- The frequency step and the rail group that an array is charged at. -/
def chargedAt (s : State) (n : Nat) : Nat × Nat := (s.set.freqStep.get (domOfArray n) 0, spareGroup n)

/-- A logical array moves to a spare with its bin and banks; it issues nothing until its replay has completed (R31, R543). A
change of frequency step or rail group changes the tariff (R545). -/
def carryOn (s : State) (la old new : Nat) : State :=
  let o := physArr s old
  let n := physArr s new
  let s1 := { s with mem := s.mem.moveBin old new }
  let s2 := setPhys s1 new { n with state := .carrying, la := la, epoch := (n.epoch + 1) % 256, bank0 := o.bank0,
                                    bank1 := o.bank1, patrol := false }
  let s3 := setLog s2 la { logArr s2 la with phys := some new, replay := true, held := false }
  if chargedAt s old = chargedAt s new then s3 else tariffChanged s3

/-- A logical array gets a spare, or is held with its retained state (R542, R546). -/
def substitute (s : State) (la pa : Nat) : State :=
  match chooseSpare s pa with
  | some n => sparesChanged (carryOn s la pa n)
  | none =>
    let s1 := setLog s la { logArr s la with held := true, replay := true }
    addCause (record s1 { cls := 0x19, kind := 1, index := pa, d0 := la }) 4

/-- A spare has become free: the logical arrays that are held take it, the lowest first (R542, R546). -/
def serveHeld (s : State) : State :=
  (List.range 256).foldl (fun a la =>
    let l := logArr a la
    match l.held, l.phys with
    | true, some pa => match chooseSpare a pa with | some n => carryOn a la pa n | none => a
    | _, _ => a) s

/-- A spare joins: designation, held work (R70, R546). -/
def spareJoins (s : State) : State := sparesChanged (serveHeld s)

/-! ### Faults -/

/-- Class of an array fault (Table 3-13). -/
def faultClass : ArrayFaultKind → Nat
  | .residue => 0x12
  | .binEcc => 0x14
  | .binEccLost => 0x14
  | .weightParity => 0x15
  | .bolter => 0x16

/-- FLAGS of its entry (Table 18-1). -/
def faultFlags : ArrayFaultKind → Nat
  | .binEcc => 4
  | .binEccLost => 8
  | _ => 0

/-- The entry of an array fault (Table 18-2). -/
def faultRec (s : State) (la pa : Nat) (f : ArrayFaultKind) (where1 : Nat) : Rec :=
  match (logArr s la).run with
  | some r =>
    { cls := faultClass f, flags := faultFlags f, kind := 1, index := pa, part := some r.part, task := r.desc.c.task,
      d0 := la + r.desc.off % 2 ^ 32 * 256 + r.job.handle % 64 * 2 ^ 40, d1 := where1 }
  | none => { cls := faultClass f, flags := faultFlags f, kind := 1, index := pa, d0 := la, d1 := where1 }

/-- The physical array that fails is quarantined (R547). -/
def quarantine (s : State) (pa : Nat) : State :=
  let p := physArr s pa
  record (setPhys s pa { p with state := .quarantined, faults := min 15 (p.faults + 1), patrol := false })
    { cls := 0x99, kind := 1, index := pa }

/-- A bin line that could not be rebuilt is poison in the array's bin, with its records (R235, R541). -/
def loseLine (s : State) (la off : Nat) : State :=
  let a := binBase + la * binSize + off % binSize / 128 * 128
  taintWith (taintWith s a 3 0xFF) (a + 64) 3 0xFF

/-- A fault takes the array of a logical array out of service (R173, R539). -/
def arrayFails (s : State) (pa : Nat) (f : ArrayFaultKind) (where1 : Nat) : State :=
  let p := physArr s pa
  if p.state ≠ .carrying then s
  else
    let la := p.la
    let s1 := record s (faultRec s la pa f where1)
    let s2 := setLog s1 la { logArr s1 la with run := (logArr s1 la).run.map fun r => { r with replayed := true } }
    let s3 := substitute (quarantine s2 pa) la pa
    if f = .binEccLost then loseLine s3 la where1 else s3

/-- ARRAY_FAULT (R539). -/
def execArrayFault (pa : Fin 288) (f : ArrayFaultKind) (where1 : Nat) (s : State) : Host.Outcome State Fault Refusal :=
  act s fun t => if domainOn t (domOfArray pa) then arrayFails t pa f where1 else t

/-- A corrected bin error (R539): the entry after sixty-four within 2^20 Turns advises retirement, and the count of them starts again
with it (log entry 92). -/
def correctedBin (s : State) (pa part addr : Nat) : State :=
  let p := physArr s pa
  let adv := p.ces.length = 64 ∧ p.ces.headD 0 < p.ces.getLastD 0 + 2 ^ 20
  record (setPhys s pa { p with ces := if adv then [now s] else now s :: p.ces.take 63 })
    { cls := 0x13, flags := if adv then 2 else 0, kind := 1, index := pa, part := some part, addr := addr }

/-- What a read of a bin found in its check code (R204, R539, R541). -/
def binError (s : State) (la off part : Nat) (e : EccResult) : State :=
  match e, (logArr s la).phys with
  | .corrected _, some pa => correctedBin s pa part (binBase + la * binSize + off)
  | .uncorrectable, some pa => arrayFails s pa .binEcc off
  | _, _ => s

/-! ### Retest and patrol -/

/-- An array is retired and goes into the wear record (R547). -/
def retire (s : State) (pa why : Nat) : State :=
  let s1 := setPhys s pa { physArr s pa with state := .retired, patrol := false }
  let s2 := { s1 with fw := { s1.fw.eraseWear with wearRetired := addNew s1.fw.wearRetired pa } }
  record s2 { cls := 0x9A, kind := 1, index := pa, d0 := why }

/-- RETEST_COMPLETE (R547): retests run only in tailraces, and not in a service pause (R20, R602). -/
def execRetestComplete (pa : Fin 288) (pass : Bool) (s : State) : Host.Outcome State Fault Refusal :=
  act s fun t =>
    let p := physArr t pa
    if (p.state = .quarantined ∨ p.state = .testing) ∧ inTailrace t ∧ !servicePause t ∧ domainOn t (domOfArray pa) then
      if !pass then retire t pa 0
      else if p.faults > 1 then retire t pa 1
      else
        spareJoins (record (setPhys t pa { p with state := .spare, epoch := (p.epoch + 1) % 256 })
          { cls := 0x99, kind := 1, index := pa, d0 := 1 })
    else t

/-- PATROL_DUE (R548): the patrol waits for the next tailrace and runs there (R20). -/
def execPatrolDue (pa : Fin 288) (s : State) : Host.Outcome State Fault Refusal :=
  act s fun t =>
    let p := physArr t pa
    if p.state = .spare ∧ domainOn t (domOfArray pa) then setPhys t pa { p with patrol := true } else t

/-- PATROL_COMPLETE (R548, R602). -/
def execPatrolComplete (pa : Fin 288) (pass : Bool) (s : State) : Host.Outcome State Fault Refusal :=
  act s fun t =>
    let p := physArr t pa
    if p.state = .spare ∧ p.patrol ∧ inTailrace t ∧ !servicePause t then
      let t1 := setPhys t pa { p with patrol := false }
      if pass then spareJoins (record t1 { cls := 0x99, kind := 1, index := pa, d0 := 2 }) else sparesChanged (retire t1 pa 2)
    else t

end Sys2Proof.Machine
end

