-- ==== Sys2Proof/Machine/Granary.lean ====
section
/-! DEFINITION. The Granary's cache ways: which HBM lines they hold, allocation and eviction, victim entries, draining ways,
and what an error check finds (R209-R213, R217, R226-R230, R301, R303). The bytes of a line stand in memory's cells, whichever
copy holds them. -/

namespace Sys2Proof.Machine

/-! ### Share classes -/

/-- The class under which a request of a partition goes (R301); none refuses it under class 0x34. -/
def classFor (g : Settings) (p cls : Nat) : Option Nat :=
  let ok := fun c => (g.shareOf c).valid && (g.shareOf c).owner = p
  if ok cls then some cls else (List.range 64).find? ok

/-! ### Lines held -/

/-- Slice and set of an HBM line (R209); the set is the model's open function. -/
def sameSet (a b : Nat) : Bool :=
  sliceOf a = sliceOf b && Config.granarySet a % 65536 = Config.granarySet b % 65536

/-- The line becomes the most recently used one; a write marks it dirty (R211). -/
def touchLine (s : State) (c : CacheLine) (write : Bool) : State :=
  { s with mem := { s.mem with
      cache := { c with dirty := c.dirty || write } :: s.mem.cache.filter fun x => x.line ≠ c.line } }

def dropLine (s : State) (line : Nat) : State :=
  { s with mem := { s.mem with cache := s.mem.cache.filter fun x => x.line ≠ line } }

/-- A victim entry of a way and slice is free (R212). -/
def victimRoom (s : State) (way line : Nat) : Bool :=
  (s.mem.victims.filter fun v => v.way = way && sliceOf v.line = sliceOf line).length < 32

/-- A miss of class `cls` counts a refused allocation as a way miss while the class is below its quota (R303). -/
def wayMiss (s : State) (cls held : Nat) : State :=
  if held < (s.set.shareOf cls).wayQuota then
    { s with fab := { s.fab with wayMiss := s.fab.wayMiss.put cls (s.fab.wayMiss.get cls 0 + 1) } }
  else s

/-- The ways in which a partition allocates now: its own, but for draining ones (R209, R217). -/
def allocWays (s : State) (p : Nat) : List Nat := (s.set.cacheWays p).filter fun w => !s.mem.draining.contains w

/-- The last of a list that a test picks: the least recently used one. -/
def lastSome {α : Type} (l : List α) (f : α → Bool) : Option α := l.reverse.find? f

/-- A line is allocated for a class of a partition, or not (R209, R213, R303). -/
def allocate (s : State) (p cls line : Nat) (write : Bool) : State :=
  let ways := allocWays s p
  if ways.isEmpty then s
  else
    let here := s.mem.cache.filter fun c => sameSet c.line line && (s.set.cacheWays p).contains c.way
    let held := fun k => (here.filter fun c => c.cls = k).length
    let fresh : CacheLine := { line := line, way := 0, cls := cls, dirty := write }
    let free := ways.find? fun w => !here.any fun c => c.way = w
    match free with
    | some w => { s with mem := { s.mem with cache := { fresh with way := w } :: s.mem.cache } }
    | none =>
      let cand := here.filter fun c => ways.contains c.way
      let victim := (lastSome cand fun c => held c.cls > (s.set.shareOf c.cls).wayQuota).orElse
        fun _ => lastSome cand fun c => c.cls = cls
      match victim with
      | none => wayMiss s cls (held cls)
      | some v =>
        if v.dirty && !inTailrace s && !victimRoom s v.way v.line then wayMiss s cls (held cls)
        else
          let s1 := dropLine s v.line
          let s2 := if v.dirty && !inTailrace s then
            { s1 with mem := { s1.mem with victims := s1.mem.victims ++ [v] } } else s1
          { s2 with mem := { s2.mem with cache := { fresh with way := v.way } :: s2.mem.cache } }

/-- An access to an HBM line by a partition: a hit is served and touched, a miss may allocate; a line whose slice lies in a quarter that
is off bypasses the cache, and one whose stack or pseudo-channel answers nothing is not allocated (R209, R211, R220, R225, R233). -/
def cacheAccess (s : State) (p cls line : Nat) (write alloc : Bool) : State :=
  match cacheLine s line with
  | some c => touchLine s c write
  | none =>
    if alloc && answers s (domOfSlice (sliceOf line)) && !deadAt s (line * 128) then allocate s p cls line write else s

/-- The lines that a range of memory touches. -/
def lineSpan (pa n : Nat) : List Nat := upto (pa / 128) ((pa % 128 + n + 127) / 128)

/-- The lines of an access, one after another. -/
def cacheSpan (s : State) (p cls pa n : Nat) (write alloc : Bool) : State :=
  if pa < hbmEnd then
    (lineSpan pa n).foldl (fun a l => cacheAccess a p cls l write alloc) s
  else s

/-- Channel group of an HBM line (R223). -/
def chanGroup (line : Nat) : Nat := pcIndex (line * 128) / 16

/-- A channel group carries no plan's work in the bucket in progress: it is the tailrace before the commit window, or no active plan claims
it (R76, R77, R212). -/
def groupFree (s : State) (g : Nat) : Bool :=
  !s.turn.commit && (inTailrace s || !activeClaim s { type := 4, index := g } s.turn.bucket)

/-- Lines that one channel group writes in one bucket at the rate of its capacity record (R205, R222). -/
def groupLines (s : State) (g : Nat) : Nat := (capOf s { type := 4, index := g }).1 * s.set.bucketLen / 640

/-- Victims and the dirty lines of draining ways of one channel group are written to HBM, as many as a bucket takes, victims first; a
line of a draining way is invalid once it is clean (R212, R217). -/
def writeBackGroup (s : State) (lines : Nat) (g : Nat) : State :=
  let m := s.mem
  let vs := (m.victims.filter fun v => chanGroup v.line = g).take lines
  let dirty := ((m.cache.filter fun c => m.draining.contains c.way && c.dirty && chanGroup c.line = g).take (lines - vs.length)).map CacheLine.line
  { s with mem := { m with victims := m.victims.filter fun v => !vs.contains v,
                           cache := m.cache.filter fun c => !(m.draining.contains c.way && (!c.dirty || dirty.contains c.line)) } }

/-- The channel groups that are free write back (R76, R212, R217). -/
def writeBack (s : State) : State :=
  ((List.range 16).filter fun g => groupFree s g).foldl (fun a g => writeBackGroup a (groupLines s g) g) s
/-- A way is clean: it holds no dirty line (R218). -/
def wayClean (s : State) (w : Nat) : Bool := !s.mem.cache.any fun c => c.way = w && c.dirty

/-! ### Errors that a read finds -/

/-- A correction of a 64-byte unit of HBM by the hub's code, and the entry of class 0x21 with the symbol position (R227). -/
def correctedHbm (s : State) (pa part symbol : Nat) : State :=
  let u := pa / 64
  let n := s.mem.corrected.get u 0 + 1
  let s1 := { s with mem := { s.mem with corrected := s.mem.corrected.put u n } }
  record s1 { cls := 0x21, flags := if n ≥ 16 then 2 else 0, kind := 4, index := pcIndex pa, part := some part, addr := u * 64,
              d0 := symbol }

/-- Both 64-byte units of a line become poison, with their records (R228, R230). -/
def taintLine (s : State) (line source : Nat) : State :=
  taintWith (taintWith s (line * 128) source 0xFF) (line * 128 + 64) source 0xFF

/-- What an error check found in a unit of memory, where it is not poisoned already (R226-R230): HBM, or the Granary for a
cached line and for scratch. Bin errors are found by the arrays (R541). -/
def foundError (s : State) (pa part : Nat) (e : EccResult) : State :=
  let hbm : Rec := { cls := 0x21, kind := 4, index := pcIndex pa, part := some part, addr := pa / 64 * 64 }
  let gran : Rec := { cls := 0x20, kind := 3, index := sliceOf (pa / 128), part := some part, addr := pa / 64 * 64 }
  if s.mem.poisoned (keyOf s pa) then s
  else
    match e, regionOf pa, cacheLine s (pa / 128) with
    | .clean, _, _ => s
    | _, .bin _ _, _ => s
    | .corrected k, .hbm, none => correctedHbm s pa part k
    | .corrected _, _, _ => record s gran
    | .severity, .hbm, none => record s hbm
    | .severity, _, _ => s
    | .uncorrectable, .hbm, none => record (taintWith s pa 0 0xFF) { hbm with cls := 0x23 }
    | .uncorrectable, .hbm, some c =>
      if c.dirty then record (taintLine s c.line 2) { gran with cls := 0x24 } else record (dropLine s c.line) gran
    | .uncorrectable, _, _ => record (taintLine s (pa / 128) 1) { gran with cls := 0x24 }

end Sys2Proof.Machine
end

