-- ==== Sys2Proof/Machine/Cells.lean ====
section
/-! DEFINITION. Mint cells and the other Granary atomic operations: their effect on the bytes they address (R175-R182, R188,
Tables 5-1 to 5-3, 6-3). -/

namespace Sys2Proof.Machine

/-! ### Mint cells -/

/-- A mint cell (Table 5-1): STATE 0 NONE, 1 OPEN, 2 SEALED, 3 ERR. -/
structure Cell where
  value : Int
  aCur : Int
  aHi : Int
  flags : Nat
  state : Nat
  cause : Nat
  deriving DecidableEq, Repr

def Cell.ofBytes (b : Bytes) : Cell :=
  { value := sext 288 (rd b 0 36), aCur := sext 16 (rd b 36 2), aHi := sext 16 (rd b 38 2), flags := rd b 40 1,
    state := bits (rd b 41 1) 1 0, cause := bits (rd b 41 1) 4 2 }

/-- The 64 bytes of a cell; reserved bytes are written as zero (R175). -/
def Cell.bytes (c : Cell) : Bytes :=
  leBytes 36 (unsext 288 c.value) ++ leBytes 2 (unsext 16 c.aCur) ++ leBytes 2 (unsext 16 c.aHi) ++ leBytes 1 c.flags ++
    leBytes 1 (c.state + 4 * c.cause) ++ List.replicate 22 0#8

/-- ERR with a cause; VALUE, A_CUR, A_HI and FLAGS stay (R176). -/
def Cell.fail (c : Cell) (cause : Nat) : Cell := { c with state := 3, cause := cause }

/-- The cell that INIT leaves (Table 5-2). -/
def Cell.fresh (a : Int) : Cell := { value := 0, aCur := a, aHi := a, flags := 0, state := 1, cause := 0 }

/-- A value held in the 288-bit range, and whether that changed it (R178). -/
def clamp288 (v : Int) : Int × Bool := (satInt 288 v, satInt 288 v ≠ v)

/-- The word as its packet carries it: 256 bits, 16-bit anchors, a flag byte. -/
def normWord (w : MintWord) : MintWord :=
  { value := sext 256 (unsext 256 w.value), flags := w.flags % 256, anchor := sext 16 (unsext 16 w.anchor),
    hi := sext 16 (unsext 16 w.hi) }

/-- ADD to an OPEN cell (R178). -/
def Cell.addOpen (c : Cell) (w : MintWord) : Cell :=
  let lo := min c.aCur w.anchor
  let hi := max c.aHi w.hi
  if hi - lo ≥ 255 then c.fail 1
  else
    let (v, o) := clamp288 (c.value * 2 ^ (c.aCur - lo).toNat + w.value * 2 ^ (w.anchor - lo).toNat)
    { c with value := v, aCur := lo, aHi := hi, flags := c.flags ||| w.flags ||| (if o then mintOvf else 0) }

/-- INIT by state (Table 5-2). -/
def Cell.init (c : Cell) (a : Int) : Cell := if c.state = 1 then c.fail 3 else Cell.fresh (sext 16 (unsext 16 a))

/-- ADD by state (Table 5-2). -/
def Cell.add (c : Cell) (w : MintWord) : Cell :=
  if c.state = 1 then c.addOpen (normWord w) else if c.state = 3 then c else c.fail 2

/-- PUT arriving as a destination, by state (Table 5-2). -/
def Cell.put (c : Cell) (w0 : MintWord) : Cell :=
  let w := normWord w0
  if c.state = 1 then c.fail 3
  else { value := w.value, aCur := w.anchor, aHi := w.hi, flags := w.flags, state := 2, cause := 0 }

/-- An error that arrives from the source: ERR with cause 4; a cell in ERR keeps its cause (R188, Table 5-2). -/
def Cell.poisonIn (c : Cell) : Cell := if c.state = 3 then c else c.fail 4

/-- The cause with which a cell is read as an error, if it is (R188). -/
def Cell.readErr (c : Cell) : Option Nat := if c.state = 0 then some 5 else if c.state = 3 then some c.cause else none

/-- The word that leaves a cell, clamped (R179). -/
def Cell.out (c : Cell) : MintWord :=
  let (v, o) := clampMint c.value
  { value := v, flags := c.flags ||| (if o then mintOvf else 0), anchor := c.aCur, hi := c.aHi }

/-- A cell that has been read (Table 5-2): OPEN becomes SEALED. -/
def Cell.sealUp (c : Cell) : Cell := if c.state = 1 then { c with state := 2 } else c

/-- The cell as MINT_READ returns it: clamped, and ERR with its cause where it is read as an error (R179, R188). -/
def Cell.shown (c : Cell) : Cell :=
  let w := c.out
  match c.readErr with
  | some k => { c with value := w.value, flags := w.flags, state := 3, cause := k }
  | none => { c.sealUp with value := w.value, flags := w.flags }

/-- The cell at a 64-byte unit: a poisoned one is taken as ERR with cause 4 (Table 6-3). -/
def cellAt (s : State) (pa : Nat) : Cell :=
  let a := pa / 64 * 64
  let c := Cell.ofBytes (memBytes s a 64)
  if (memRead s a 64).any Prod.snd then c.fail 4 else c

def setCell (s : State) (pa : Nat) (c : Cell) : State := memPut s (pa / 64 * 64) c.bytes

/-- The fault class of a change of cell by an operation other than a read: 0x28 mismatch, 0x29 causes 2, 3 and 5, 0x2A
cause 4 (R180, R200). -/
def cellClass (old new : Cell) : Option Nat :=
  if new.state ≠ 3 ∨ old.state = 3 then none
  else if new.cause = 1 then some 0x28
  else if new.cause = 4 then some 0x2A
  else some 0x29

/-! ### Elements -/

/-- Format of FMAX and FMIN operands. -/
def pickFmt (bf16 : Bool) : FpFmt := if bf16 then fmtBF16 else fmtFP32

/-- FMAX or FMIN of two encodings (R182). -/
def pickBits (isMax bf16 : Bool) (a b : Nat) : Nat :=
  let f := pickFmt bf16
  (f.encode (Val.maxMin isMax (f.decode a) (f.decode b))).1

/-- Bytes of the element that an operation changes. -/
def AtomOp.width : AtomOp → Nat
  | .iadd w64 _ _ => if w64 then 8 else 4
  | .cas w64 _ _ => if w64 then 8 else 4
  | .fpick _ bf16 _ => if bf16 then 2 else 4
  | _ => 64

/-- What an element becomes. -/
def AtomOp.elem (old : Nat) : AtomOp → Nat
  | .iadd w64 _ v => (old + v) % 2 ^ (if w64 then 64 else 32)
  | .cas w64 c n => let m := 2 ^ (if w64 then 64 else 32); if old = c % m then n % m else old
  | .fpick isMax bf16 v => pickBits isMax bf16 old (v % 2 ^ (if bf16 then 16 else 32))
  | _ => old

/-- The operation returns the old value (Table 5-3). -/
def AtomOp.fetches : AtomOp → Bool
  | .iadd _ f _ => f
  | .cas _ _ _ => true
  | _ => false

/-- What a cell becomes. -/
def AtomOp.cell (c : Cell) : AtomOp → Cell
  | .mintInit a => c.init a
  | .mintAdd w => c.add w
  | .mintRead => c.sealUp
  | .put w none => c.put w
  | .put _ (some _) => c.poisonIn
  | _ => c

def AtomOp.isCell : AtomOp → Bool
  | .mintInit _ => true
  | .mintAdd _ => true
  | .mintRead => true
  | .put _ _ => true
  | _ => false

/-- A ledger record about an atomic operation at its slice. -/
def atomRec (cls : Nat) (q : AtomReq) : Rec :=
  { cls := cls, kind := 3, index := sliceOf (q.addr / 128), part := some q.part, addr := q.addr }

/-- The operation carries ERR from its source (R188). -/
def AtomOp.carriesErr : AtomOp → Bool
  | .put _ (some _) => true
  | _ => false

/-- An operation applied to a cell, with its record: one that carries ERR counts among the packets of class 0x2A instead, which
`noteErrPacket` counts (R200). -/
def stepCell (s : State) (q : AtomReq) (op : AtomOp) : State :=
  let c := cellAt s q.addr
  let d := op.cell c
  let s1 := setCell s q.addr d
  let cls := match op with | .mintRead => if c.readErr.isSome then some 0x2A else none | _ => cellClass c d
  match cls with
  | some k => if op.carriesErr then s1 else record s1 (atomRec k q)
  | none => s1

/-- A packet that carries ERR has arrived: class 0x2A once per 1,024 of them (R200). -/
def noteErrPacket (s : State) (q : AtomReq) : State := recordCount s (atomRec 0x2A q)

/-- An operation that arrives alone is applied to its cell and answered. -/
def applyCell (s : State) (q : AtomReq) (op : AtomOp) : State :=
  let s1 := stepCell (if op.carriesErr then noteErrPacket s q else s) q op
  emit s1 (match op with | .mintRead => .readData (cellAt s q.addr).shown.bytes [] | _ => .ack)

/-- An operation applied to an element; an old value from poisoned bytes is returned as poison (R229, R231). -/
def applyElem (s : State) (q : AtomReq) (op : AtomOp) : State :=
  let r := memRead s q.addr op.width
  let old := leVal (r.map Prod.fst)
  let p := r.any Prod.snd
  let s1 := memWrite s q.addr (marked (leBytes op.width (op.elem old)) p)
  emit s1 (if op.fetches then (if p then .readData (leBytes op.width old) [true] else .value old) else .ack)

/-- An atomic operation applied in its slice, which works for its partition (R94, R181). -/
def applyAtom (s0 : State) (q : AtomReq) (op : AtomOp) : State :=
  let s := noteBusy s0 { type := 5, index := sliceOf (q.addr / 128) } q.part
  if op.isCell then applyCell s q op else applyElem s q op

end Sys2Proof.Machine
end

