-- ==== Sys2Proof/Machine/Coherence.lean ====
section
/-! DEFINITION. The home of coherent lines: agents, directory, transactions, snoops and their responses, hold windows,
write hints, fencing and flushing (R239-R263). A line is PA[40:7]. -/

namespace Sys2Proof.Machine

/-! ### Agents -/

def agentOf (s : State) (a : Nat) : Agent := s.coh.agent.get a Agent.reset

def setAgent (s : State) (a : Nat) (v : Agent) : State := { s with coh := { s.coh with agent := s.coh.agent.put a v } }

/-- Share class of an agent's requests: SITE_SHARE of a site's, 63 for the management cores (R300). -/
def agentShare (s : State) (a : Nat) : Nat := if a < 12 then s.set.siteShareOf a else 63

/-- Partition of an agent: the site's, or 0 for the management cores (R239, R273). -/
def agentPart (s : State) (a : Nat) : Nat := if a < 12 then s.set.sitePartOf a else 0

/-- An agent caches: a core always, a site in service where its configuration says so (R239). -/
def agentEnabled (s : State) (a : Nat) : Bool :=
  decide (a ≥ 12) || (s.set.siteCacheOf a = 1 && decide ((siteOf s a).state = .inService))

/-- The line belongs to the hub's fitted HBM or backed scratch (R240). -/
def coherentLine (s : State) (line : Nat) : Bool :=
  let pa := line * 128
  decide (pa < fitted s) || (decide (scratchBase ≤ pa) && decide (pa < scratchBase + s.set.backed))

/-- A unit of Table 18-1 for a local address: kind and index. -/
def unitAt (s : State) (pa : Nat) : Nat × Nat :=
  match regionOf pa with
  | .hbm => (4, pcIndex pa)
  | .scratch => (3, sliceOf (pa / 128))
  | .bin la _ => (1, (logArr s la).phys.getD 0)
  | .site n _ => (7, n)
  | _ => (0, 0)

/-- A coherence record: unit kind 3, the home slice. -/
def cohRec (s : State) (cls agent line : Nat) : Rec :=
  { cls := cls, kind := 3, index := sliceOf line, part := some (agentPart s agent), addr := line * 128, d0 := agent }

/-! ### Directory -/

/-- Set of a line in its slice: the 10-bit XOR fold of PA[40:13] (R243). -/
def dirSet (line : Nat) : Nat :=
  let v := line / 64
  v % 1024 ^^^ v / 1024 % 1024 ^^^ v / 2 ^ 20 % 1024

def dirOf (s : State) (line : Nat) : Option DirEntry := s.coh.dir.find? line

def holdersOf (s : State) (line : Nat) : List Nat := match dirOf s line with | some d => d.holders | none => []

/-- A line is in home state O (R243). -/
def isOwned (s : State) (line : Nat) : Bool := match dirOf s line with | some d => d.owned | none => false

/-- The entry of a line; one with no holder is state I (R243). -/
def setDir (s : State) (line : Nat) (d : DirEntry) : State :=
  { s with coh := { s.coh with dir := if d.holders.isEmpty then s.coh.dir.drop line else s.coh.dir.put line d } }

def dropDir (s : State) (line : Nat) : State := { s with coh := { s.coh with dir := s.coh.dir.drop line } }

/-- A holder bit is cleared. -/
def dropHolder (s : State) (line a : Nat) : State :=
  match dirOf s line with
  | some d => setDir s line { d with holders := without d.holders a }
  | none => s

/-- Entries that share slice and set with a line: line and entry. -/
def dirPeers (s : State) (line : Nat) : List (Nat × DirEntry) :=
  s.coh.dir.filter fun x => sliceOf x.1 = sliceOf line && dirSet x.1 = dirSet line

/-- Ways in which a partition may allocate (R244, R245). -/
def dirAllocWays (s : State) (p : Nat) : List Nat := (s.set.dirWays p).filter fun w => !s.coh.emptying.contains w

/-- A free way for a line of a partition. -/
def freeDirWay (s : State) (p line : Nat) : Option Nat :=
  (dirAllocWays s p).find? fun w => !(dirPeers s line).any fun x => x.2.way = w

/-- One entry is a better victim than another (R246): S before O, fewer holders among S, the lower way. -/
def victimBefore (x y : Nat × DirEntry) : Bool :=
  if x.2.owned ≠ y.2.owned then !x.2.owned
  else if !x.2.owned && x.2.holders.length ≠ y.2.holders.length then x.2.holders.length < y.2.holders.length
  else x.2.way < y.2.way

/-- The victim that a new entry of a partition evicts (R246). -/
def dirVictim (s : State) (p line : Nat) : Option Nat :=
  let c := (dirPeers s line).filter fun x => (dirAllocWays s p).contains x.2.way
  match c with
  | [] => none
  | x :: r => some (r.foldl (fun b y => if victimBefore y b then y else b) x).1

/-! ### Data of a line -/

/-- The line becomes poison: both of its 64-byte units (R258, R228, R230). -/
def poisonLine (s : State) (line : Nat) : State :=
  taintLine s line (match regionOf (line * 128), cacheLine s line with
    | .hbm, some _ => 2
    | .hbm, none => 0
    | _, _ => 1)

/-- Dirty data goes to the line's memory: the Granary line where it is cached (R248). -/
def writeLine (s : State) (line : Nat) (d : Bytes) : State :=
  let s1 := memPut s (line * 128) (sub d 0 128)
  match cacheLine s1 line with
  | some c => touchLine s1 c true
  | none => s1

/-- What worked for an access to a line by a partition: the slice of a cached line or of scratch, and the channel group of an HBM line that
was not cached before (R94, R623); `old` is the state before the access. -/
def noteLine (old s : State) (p line : Nat) : State :=
  let slice := fun (t : State) => noteBusy t { type := 5, index := sliceOf line } p
  match regionOf (line * 128) with
  | .hbm =>
    let s1 := if (cacheLine old line).isNone then noteBusy s { type := 4, index := chanGroup line } p else s
    if (cacheLine s line).isSome then slice s1 else s1
  | .scratch => slice s
  | _ => s

/-- The lines of an access by a partition go through the Granary under its share class (R209, R211, R301). -/
def lookUp (s : State) (p share pa n : Nat) (write alloc : Bool) : State :=
  match classFor s.set p share with
  | some c => (lineSpan pa n).foldl (fun t l => noteLine s t p l) (cacheSpan s p c pa n write alloc)
  | none => s

/-- A read by an uncached requester: HBM lines go through the cache (R209, R211); errors that the check found first. -/
def serveRead (s : State) (r : MemReq) : State :=
  let s1 := lookUp (foundError s r.addr r.part r.ecc) r.part r.share r.addr r.len false (decide (r.kind = .read))
  let d := memRead s1 r.addr r.len
  emit s1 (.readData (d.map Prod.fst) (badUnits r.addr d))

/-- Bytes of one 64-byte unit that its mask leaves in place: a unit of which every byte is written goes whole to memory (R229). -/
def maskedUnit (s : State) (pa : Nat) (d : Bytes) (mask : List Bool) (poison : Bool) : State :=
  if mask.all id then memWrite s pa (marked d poison)
  else (indexed d).foldl (fun a x => if mask.getD x.1 true then memWrite a (pa + x.1) [(x.2, poison)] else a) s

/-- The bytes of a write that its mask leaves in place, unit by unit. -/
def maskedWrite (s : State) (pa : Nat) (d : Bytes) (mask poison : List Bool) : State :=
  (upto (pa / 64) ((pa % 64 + d.length + 63) / 64)).foldl (fun a u =>
    let lo := max pa (u * 64)
    let n := min (pa + d.length) ((u + 1) * 64) - lo
    maskedUnit a lo ((d.drop (lo - pa)).take n) ((mask.drop (lo - pa)).take n) (poison.getD (u - pa / 64) false)) s

/-- The write of an uncached requester, with its acknowledgement (R209, R250): hints 1 and 2 allocate HBM lines. A write that the loss of
a pseudo-channel or stack drops is reported as poisoned (R225, R233). -/
def serveWrite (s : State) (r : MemReq) : State :=
  let n := r.data.length
  let s1 := lookUp (maskedWrite s r.addr r.data r.mask r.poison) r.part r.share r.addr n true (decide (r.hint.val = 1 ∨ r.hint.val = 2))
  emit s1 (if lostRange s r.addr n then .ackPoisoned else .ack)

/-! ### Transactions -/

def txnOf (s : State) (line : Nat) : Option Txn := s.coh.txns.find? fun t => t.line = line

def putTxn (s : State) (t : Txn) : State :=
  { s with coh := { s.coh with txns := s.coh.txns.map fun x => if x.line = t.line then t else x } }

def dropTxn (s : State) (line : Nat) : State :=
  { s with coh := { s.coh with txns := s.coh.txns.filter fun x => x.line ≠ line } }

/-- The snoops a request needs: agents, and whether they downgrade to S only (R247, R248). -/
def snoopsFor (s : State) (line : Nat) : TxnKind → List Nat × Bool
  | .rdS a _ => (if isOwned s line then without (holdersOf s line) a else [], true)
  | .rdO a _ => (without (holdersOf s line) a, false)
  | .upg a _ => (without (holdersOf s line) a, false)
  | .purge share => if share then (if isOwned s line then holdersOf s line else [], true) else (holdersOf s line, false)
  | .visit _ share => if share then (if isOwned s line then holdersOf s line else [], true) else (holdersOf s line, false)
  | .stashTo _ => ([], false)
  | .stashIn _ => ([], false)
  | _ => (holdersOf s line, false)

/-- The agent that a request is for. -/
def TxnKind.agent : TxnKind → Option Nat
  | .rdS a _ => some a
  | .rdO a _ => some a
  | .upg a _ => some a
  | .flush a => some a
  | _ => none

/-- The agent for which a request enters a directory entry, where it does (R246). -/
def TxnKind.enters : TxnKind → Option Nat
  | .flush _ => none
  | .stashIn a => some a
  | k => k.agent

/-- How a caching request is refused, if it is: a fenced agent's with ERR alone (R258); otherwise by class: no share class 0x34 (R301), a
stack, slice or home slice that is off 0x30 (R27, log entry 83), unbacked scratch or a retired page 0x25 (R208, R234), and every line that
its partition may not cache 0x3A (R239-R241). -/
def cohFault (s : State) (a line : Nat) : Option (Option Nat) :=
  let p := agentPart s a
  if (agentOf s a).fenced then some none
  else if (classFor s.set p (agentShare s a)).isNone then some (some 0x34)
  else
    let place := match regionOf (line * 128) with
      | .hbm => if answers s (domOfSlice (sliceOf line)) then addrFault s (line * 128) else some 0x30
      | .scratch => addrFault s (line * 128)
      | _ => none
    match place with
    | some 0x30 => some (some 0x30)
    | some 0x25 => some (some 0x25)
    | _ => if agentEnabled s a && coherentLine s line && (deedAt s (line * 128)).names p then none else some (some 0x3A)

/-- What refuses a request at its home, with its agent: an accepted offer is entered unless its agent has been fenced. -/
def TxnKind.refusal (s : State) (line : Nat) : TxnKind → Option (Nat × Option Nat)
  | .stashIn a => if (agentOf s a).fenced then some (a, none) else none
  | k => k.agent.bind fun a => (cohFault s a line).map fun c => (a, c)

/-- A caching request is refused: ERR, with its record. -/
def refuseCoh (s : State) (a line : Nat) (cls : Option Nat) : State :=
  emit (match cls with | some c => record s (cohRec s c a line) | none => s) (.cohErr a line)

/-- An agent is granted a line: its entry, the bytes with what the check found in them, and the hold window of E and M (R209, R211, R228,
R231, R243, R247, R256). -/
def grantLine (s : State) (line a way : Nat) (g : Grant) (ecc : EccResult) : State :=
  let p := agentPart s a
  let others := if g = .s then without (holdersOf s line) a else []
  let s1 := setDir s line { way := way, owned := g ≠ .s, holders := addNew others a }
  let s2 := if g = .s then s1 else { s1 with coh := { s1.coh with hold := s1.coh.hold ++ [(a, line)] } }
  if g = .mNoData then emit s2 (.grant a line g [] false)
  else
    let s3 := lookUp (foundError s2 (line * 128) p ecc) p (agentShare s a) (line * 128) 128 false true
    let d := memRead s3 (line * 128) 128
    emit s3 (.grant a line g (d.map Prod.fst) (d.any Prod.snd))

/-- A request completes: what it was for (Table 7-1, R248-R251); `way` is the directory way of its entry. -/
def serveTxn (s : State) (line way : Nat) (k : TxnKind) : State :=
  match k with
  | .rdS a e => grantLine s line a way (if (without (holdersOf s line) a).isEmpty then .e else .s) e
  | .rdO a e => grantLine s line a way .m e
  | .upg a e => grantLine s line a way (if (holdersOf s line).contains a then .mNoData else .m) e
  | .stashIn a => setDir s line { way := way, owned := true, holders := [a] }
  | .flush _ => emit (dropDir s line) .ack
  | .purge share => if share then s else dropDir s line
  | .evict => dropDir s line
  | .clear => dropDir s line
  | .stashTo _ => s
  | .visit _ _ => s

/-- Dirty data that a transaction brought is written before it completes; a clearing discards it (R248, R249). -/
def landDirty (s : State) (t : Txn) : State :=
  match t.dirty, t.kind with
  | some _, .clear => s
  | some d, _ => writeLine s t.line d
  | none, _ => s

/-- Every response is in. -/
def Txn.over_ (t : Txn) : Bool := t.awaiting.isEmpty && t.inflight.isNone

/-- An agent is in its hold window for a line (R256). -/
def inHold (s : State) (a line : Nat) : Bool := s.coh.hold.contains (a, line)

/-- A request may be taken up: no transaction is open on its line, and no agent that it snoops is in its hold window (R242,
R256). -/
def lineFree (s : State) (line : Nat) (kind : TxnKind) : Bool :=
  (txnOf s line).isNone && (snoopsFor s line kind).1.all fun a => !inHold s a line

/-- Snoops go out to the agents named; between a DirtyEvict and its data the adapter answers RSP_I_INFLIGHT itself (R261). -/
def sendSnoops (s : State) (line : Nat) (kind : TxnKind) : State :=
  let (targets, share) := snoopsFor s line kind
  let evicting := targets.filter fun a => s.coh.evicts.contains (a, line)
  let asked := targets.filter fun a => !evicting.contains a
  let t : Txn := { line := line, kind := kind, awaiting := asked, dirty := none, wb := none, inflight := evicting.head?,
                   keepS := if share then asked else [] }
  let s1 := evicting.foldl (fun x a => dropHolder x line a) { s with coh := { s.coh with txns := s.coh.txns ++ [t] } }
  asked.foldl (fun x a => emit x (if share then .snpS a line else .snpI a line)) s1

/-- The way that the entry of a request takes: its line's, where it has one; otherwise one of its partition's that is free; none where
every one of them is taken (R244, R246). -/
def wayFor (s : State) (line a : Nat) : Option Nat :=
  match dirOf s line with
  | some d => some d.way
  | none => freeDirWay s (agentPart s a) line

/-- A new entry has no way: the victim of R246 is snooped, where it may be, and the request waits for its responses. -/
def evictFor (s : State) (line a : Nat) : State :=
  match dirVictim s (agentPart s a) line with
  | some v => if lineFree s v .evict then sendSnoops s v .evict else s
  | none => s

/-- A transaction that has all it waits for completes: a caching request is checked once more as it is granted (R241, R258), and one
that enters a line waits for its way (R246). -/
def closeTxn (s : State) (line : Nat) : State :=
  match txnOf s line with
  | none => s
  | some t =>
    if !t.over_ then s
    else
      let s1 := putTxn (landDirty s t) { t with dirty := none }
      match t.kind.refusal s1 line with
      | some (a, c) => refuseCoh (dropTxn s1 line) a line c
      | none =>
        match t.kind.enters with
        | none => serveTxn (dropTxn s1 line) line 0 t.kind
        | some a =>
          match wayFor s1 line a with
          | some w => serveTxn (dropTxn s1 line) line w t.kind
          | none => evictFor s1 line a

/-- A request is taken up, where it may; the flag says that it no longer waits. One of another unit keeps its place until it is served:
its line is snooped where it must be (R242, R248). -/
def attempt (s : State) (line : Nat) (kind : TxnKind) : State × Bool :=
  match kind with
  | .visit _ share =>
    if lineFree s line (.purge share) && !(snoopsFor s line (.purge share)).1.isEmpty then (sendSnoops s line (.purge share), false)
    else (s, false)
  | _ =>
    if !lineFree s line kind then (s, false)
    else
      match kind.refusal s line with
      | some (a, c) => (refuseCoh s a line c, true)
      | none => (closeTxn (sendSnoops s line kind) line, true)

/-- Waiting requests are taken up in order of arrival; one that cannot be keeps later ones on its line waiting (R242). -/
def drainList : List (Nat × TxnKind) → State → List Nat → List (Nat × TxnKind) → State × List (Nat × TxnKind)
  | [], s, _, kept => (s, kept)
  | x :: r, s, blocked, kept =>
    if blocked.contains x.1 then drainList r s blocked (kept ++ [x])
    else
      let (s1, done) := attempt s x.1 x.2
      if done then drainList r s1 blocked kept else drainList r s1 (x.1 :: blocked) (kept ++ [x])

/-- What waits goes on: transactions that had waited for a way, then requests. -/
def drainWaiting (s : State) : State :=
  let s0 := (s.coh.txns.map Txn.line).foldl closeTxn s
  let (s1, kept) := drainList s0.coh.waiting { s0 with coh := { s0.coh with waiting := [] } } [] []
  { s1 with coh := { s1.coh with waiting := kept } }

/-- A request arrives at the home: it is taken up, or waits behind those before it (R242). -/
def requestLine (s : State) (line : Nat) (kind : TxnKind) : State :=
  let wait := fun (x : State) => { x with coh := { x.coh with waiting := x.coh.waiting ++ [(line, kind)] } }
  if s.coh.waiting.any fun x => x.1 = line then wait s
  else
    let (s1, done) := attempt s line kind
    if done then s1 else wait s1

/-- A transaction has moved on: it closes where it can, and waiting requests follow. -/
def settle (s : State) (line : Nat) : State := drainWaiting (closeTxn s line)

/-! ### Requests of other units -/

/-- The lines of a range at which another unit's access must wait: one with a transaction open or a request waiting (R242), one that an
agent owns, and for a write one that an agent holds (R248). -/
def conflicts (s : State) (pa n : Nat) (write : Bool) : List Nat :=
  (lineSpan pa n).filter fun l =>
    (txnOf s l).isSome || (s.coh.waiting.any fun x => x.1 = l) || (if write then !(holdersOf s l).isEmpty else isOwned s l)

/-- A request takes its place on its lines, and waits (R242). -/
def enqueue (s : State) (what : Arrival) (lines : List Nat) (share tick : Bool) : State :=
  let n := s.fab.arrSeq
  let t := fileArrival s what tick
  drainWaiting { t with coh := { t.coh with waiting := t.coh.waiting ++ lines.eraseDups.map fun l => (l, TxnKind.visit n share) } }

/-- A place on a line has come up: it is the first there, no transaction is open, and no agent is to be snooped. -/
def visitReady (s : State) (line n : Nat) (share : Bool) : Bool :=
  (s.coh.waiting.find? fun x => x.1 = line) = some (line, .visit n share) && (txnOf s line).isNone &&
    (snoopsFor s line (.purge share)).1.isEmpty

/-- An arrival may be served. -/
def arrivalReady (s : State) (w : Waiting) : Bool :=
  !(w.tick && s.turn.commit) && s.coh.waiting.all fun x =>
    match x.2 with | .visit n share => n != w.num || visitReady s x.1 n share | _ => true

/-- An arrival leaves its places. -/
def leave (s : State) (w : Waiting) : State :=
  { s with
    fab := { s.fab with arrivals := s.fab.arrivals.filter fun x => x.num ≠ w.num },
    coh := { s.coh with waiting := s.coh.waiting.filter fun x => match x.2 with | .visit n _ => n != w.num | _ => true } }

/-- The table entries that a walk of a unit would read and that it must wait for: the walker reads them as uncached reads (R248, R271). -/
def walkHeld (s : State) (unit c va : Nat) : List Nat :=
  match cached s unit c va with
  | some _ => []
  | none => (unitWalk s unit c va).reads.flatMap fun a => conflicts s a 8 false

/-! ### Messages -/

/-- A message with an older epoch is refused under class 0x3B, one of a fenced agent with ERR (R247, R258, R529). -/
def cohRefused (s : State) (m : CohMsg) : Option State :=
  if m.epoch % 256 ≠ (agentOf s m.agent).epoch then some (refuseCoh s m.agent m.line (some 0x3B))
  else if (agentOf s m.agent).fenced then some (refuseCoh s m.agent m.line none)
  else none

/-- A caching request of an agent: refused as it arrives, or in its place on the line (R241, R242). -/
def cohRequest (s : State) (m : CohMsg) (kind : TxnKind) : State :=
  match cohRefused s m with
  | some t => t
  | none =>
    match cohFault s m.agent m.line with
    | some c => refuseCoh s m.agent m.line c
    | none => requestLine s m.line kind

/-- RD_S (R247). -/
def execRdS (m : CohMsg) (s : State) : Host.Outcome State Fault Refusal :=
  act s fun t => if domainOn t 28 then cohRequest t m (.rdS m.agent m.ecc) else t

/-- RD_O (R247). -/
def execRdO (m : CohMsg) (s : State) : Host.Outcome State Fault Refusal :=
  act s fun t => if domainOn t 28 then cohRequest t m (.rdO m.agent m.ecc) else t

/-- UPG (R247). -/
def execUpg (m : CohMsg) (s : State) : Host.Outcome State Fault Refusal :=
  act s fun t => if domainOn t 28 then cohRequest t m (.upg m.agent m.ecc) else t

/-- FLUSH (R248). -/
def execFlush (m : CohMsg) (s : State) : Host.Outcome State Fault Refusal :=
  act s fun t => if domainOn t 28 then cohRequest t m (.flush m.agent) else t

/-- What an agent's snoop response says. -/
inductive Rsp where
  | inv | shared
  | invData (d : Bytes)
  | sharedData (d : Bytes)
  | inflight
  deriving DecidableEq, Repr

/-- A response later than 2,000 cycles (R257). -/
def lateResponse (s : State) (m : CohMsg) : State :=
  if m.late then
    let a := agentOf s m.agent
    record (setAgent s m.agent { a with late := satAdd 8 a.late 1 }) (cohRec s 0x38 m.agent m.line)
  else s

/-- The transaction with a response in it, and the acknowledgement of a WB that it takes as the snoop data (R255). -/
def Txn.take (t : Txn) (a : Nat) (r : Rsp) : Txn × Bool :=
  let t1 := { t with awaiting := without t.awaiting a }
  match r with
  | .invData d => ({ t1 with dirty := some d }, false)
  | .sharedData d => ({ t1 with dirty := some d }, false)
  | .inflight =>
    match t1.wb with
    | some (b, d) => if b = a then ({ t1 with dirty := some d, wb := none }, true) else ({ t1 with inflight := some a }, false)
    | none => ({ t1 with inflight := some a }, false)
  | _ => (t1, false)

/-- The responses that leave the agent in S. -/
def Rsp.keeps : Rsp → Bool
  | .shared => true
  | .sharedData _ => true
  | _ => false

/-- Directory after a response: the agent is gone, or holds S and the line is owned by none (R243). -/
def dirAfter (s : State) (line a : Nat) (keeps : Bool) : State :=
  if keeps then
    match dirOf s line with
    | some d => setDir s line { d with owned := false }
    | none => s
  else dropHolder s line a

/-- A snoop response of an agent (R247-R255). One that answers no open snoop changes nothing. -/
def respond (s : State) (m : CohMsg) (r : Rsp) : State :=
  match cohRefused s m with
  | some t => t
  | none =>
    match txnOf s m.line with
    | some t =>
      if t.awaiting.contains m.agent then
        let s1 := lateResponse s m
        let keeps := r.keeps && t.keepS.contains m.agent
        let (t1, ackd) := t.take m.agent r
        let s2 := putTxn (dirAfter s1 m.line m.agent keeps) t1
        let s3 := if ackd then emit s2 (.wbAck m.agent m.line) else s2
        settle s3 m.line
      else s
    | none => s

/-- The data of a DirtyEvict has arrived (R261). -/
def dropEvict (s : State) (a line : Nat) : State :=
  { s with coh := { s.coh with evicts := s.coh.evicts.filter fun x => x ≠ (a, line) } }

/-- The data of a WB reaches its line, and the agent holds it no more (R254). -/
def landWb (s : State) (m : CohMsg) (d : Bytes) : State :=
  drainWaiting (emit (dropHolder (writeLine s m.line d) m.line m.agent) (.wbAck m.agent m.line))

/-- A WB with no snoop of its agent open: applied, and its holder bit cleared (R255). One for a line that the agent neither holds nor may
cache is refused as a caching request is (R241); one for a page that has been retired meanwhile clears its holder bit and writes nothing
(R234, log entry 83). -/
def plainWb (s : State) (m : CohMsg) (d : Bytes) : State :=
  let gone := drainWaiting (dropHolder s m.line m.agent)
  match cohFault s m.agent m.line with
  | some (some 0x25) => refuseCoh gone m.agent m.line (some 0x25)
  | some c => if (holdersOf s m.line).contains m.agent then landWb s m d else refuseCoh gone m.agent m.line c
  | none => landWb s m d

/-- A WB arrives (R254, R255): whatever becomes of it, the data of its DirtyEvict is no longer awaited (R261). -/
def takeWb (s0 : State) (m : CohMsg) (d : Bytes) : State :=
  let s := dropEvict s0 m.agent m.line
  match cohRefused s m with
  | some t => t
  | none =>
    match txnOf s m.line with
    | some t =>
      if t.inflight = some m.agent then
        settle (emit (putTxn s { t with inflight := none, dirty := some d }) (.wbAck m.agent m.line)) m.line
      else if t.awaiting.contains m.agent then putTxn s { t with wb := some (m.agent, d) }
      else plainWb s m d
    | none => plainWb s m d

/-- EVC clears the holder bit (R252). -/
def takeEvc (s : State) (m : CohMsg) : State :=
  match cohRefused s m with
  | some t => t
  | none => drainWaiting (dropHolder s m.line m.agent)

/-- An offer is answered (R251): accepted, it is entered in a way of the agent's partition, and the hold window begins (R256). -/
def answerOffer (s : State) (m : CohMsg) (accept : Bool) : State :=
  match cohRefused s m with
  | some t => t
  | none =>
    match txnOf s m.line with
    | some t =>
      if t.kind = .stashTo m.agent then
        let s1 := lateResponse s m
        let c := s1.coh
        let s2 := { s1 with coh := { c with offers := c.offers.filter fun x => x ≠ (m.agent.val, m.line),
                                            hold := if accept then c.hold ++ [(m.agent.val, m.line)] else c.hold } }
        settle (putTxn s2 { t with awaiting := [], kind := if accept then .stashIn m.agent else .stashTo m.agent }) m.line
      else s
    | none => s

/-- An engine's write with hint STASH, after the line is in memory and its holders are gone: the line is offered to a target that may take
it, and its transaction waits for the answer; any other target is counted (R250, R251). -/
def stashLine (s : State) (line p target : Nat) : State :=
  let site := siteOf s target
  let ok := agentEnabled s target && agentPart s target = p && (decide (target ≥ 12) || !site.cxl) &&
    !(agentOf s target).fenced
  if ok then
    let t : Txn := { line := line, kind := .stashTo target, awaiting := [target], dirty := none, wb := none, inflight := none, keepS := [] }
    let s1 := { s with coh := { s.coh with txns := s.coh.txns ++ [t], offers := s.coh.offers ++ [(target, line)] } }
    emit s1 (.stash target line (memBytes s (line * 128) 128))
  else setAgent s target { agentOf s target with stashDrop := satAdd 8 (agentOf s target).stashDrop 1 }

/-! ### Fencing -/

/-- The lines that an agent owns, but for those whose dirty data a WB has already brought. -/
def ownedBy (s : State) (a : Nat) : List Nat :=
  ((s.coh.dir.filter fun x => x.2.owned && x.2.holders.contains a).map Prod.fst).filter fun l =>
    match txnOf s l with | some t => !(match t.wb with | some (b, _) => b == a | none => false) | none => true

/-- A transaction without an agent: its missing response is taken as RSP_I, a WB held from it as its data (R258). -/
def Txn.without_ (t : Txn) (a : Nat) : Txn :=
  let d := match t.wb with | some (b, d) => if b = a then some d else t.dirty | none => t.dirty
  { t with awaiting := without t.awaiting a, dirty := d, inflight := if t.inflight = some a then none else t.inflight }

/-- Everything that the home keeps of an agent is dropped: holder bits, windows, offers, DirtyEvicts, and its waiting requests, each
answered with ERR (R247, R258). -/
def forget (s : State) (a : Nat) : State :=
  let held := (s.coh.dir.filter fun x => x.2.holders.contains a).map Prod.fst
  let s1 := held.foldl (fun x l => dropHolder x l a) s
  let mine := fun (x : Nat × TxnKind) => decide (x.2.agent = some a)
  let c := s1.coh
  let s2 := { s1 with coh := { c with
    txns := c.txns.map fun (t : Txn) => t.without_ a, hold := c.hold.filter fun x => x.1 ≠ a,
    offers := c.offers.filter fun x => x.1 ≠ a, evicts := c.evicts.filter fun x => x.1 ≠ a,
    waiting := c.waiting.filter fun x => !mine x } }
  (c.waiting.filter mine).foldl (fun x w => emit x (.cohErr a w.1)) s2

/-- An agent is fenced (R258): its owned lines are poisoned, with class 0x39 where there are any, its holder bits cleared, and its messages
refused until it rejoins. -/
def fence (s : State) (a : Nat) : State :=
  let mine := ownedBy s a
  let s1 := match mine with | l :: _ => record s (cohRec s 0x39 a l) | [] => s
  let s2 := mine.foldl poisonLine s1
  drainWaiting (forget (setAgent s2 a { agentOf s2 a with fenced := true, flushing := false }) a)

/-- An agent rejoins with a new epoch (R28, R258, Table 17-3): it holds nothing. -/
def rejoin (s : State) (a : Nat) : State :=
  let s1 := forget s a
  let g := agentOf s1 a
  drainWaiting (setAgent s1 a { g with fenced := false, flushed := false, flushing := false, epoch := (g.epoch + 1) % 256 })

/-! ### Granules that change hands -/

/-- Every held line of a granule is cleared before its deed changes (R249). -/
def clearGranule (s : State) (g : Nat) : State :=
  let ls := (s.coh.dir.filter fun x => x.1 * 128 / granule = g).map Prod.fst
  ls.foldl (fun x l => requestLine x l .clear) s

/-- The snoops of R249 are over in a granule: no line of it is held, in a transaction, or waits to be cleared. -/
def granuleQuiet (s : State) (g : Nat) : Bool :=
  let here := fun (l : Nat) => decide (l * 128 / granule = g)
  !(s.coh.dir.any fun x => here x.1) && !(s.coh.txns.any fun t => here t.line) && !(s.coh.waiting.any fun x => here x.1 && x.2 = .clear)

end Sys2Proof.Machine
end

