-- ==== Sys2Proof/Machine/Registers.lean ====
section
/-! DEFINITION. What the registers read as: the map of BAR0 (Tables 6-7, 6-8, 7-5, 8-9, 8-10, 9-10, 9-11, 10-10, 10-11, 11-11 to
11-14, 12-13, 12-14, 13-6 to 13-8, 14-13 to 14-15, 15-6 to 15-8, 16-4 to 16-7, 17-4, 18-4, 18-6, 18-10, 19-14), the layout of a
virtual function, bit aliases, and who reads what (R33, R469, R476, R491, R495-R499, R508, R538). -/

namespace Sys2Proof.Machine

/-! ### Values that several rules share -/

/-- The hub's own Turn source is healthy (R84). -/
def srcHealthy (s : State) : Bool :=
  match s.turn.src with
  | 1 => s.turn.refclk
  | 2 => decide (s.turn.edges ≥ 16)
  | _ => false

/-- PROTO_MAX of the image that a bank holds: bytes 6-7 of its header (Table 20-2). -/
def bankProto (s : State) (b : Nat) : Nat :=
  match s.fw.bank.find? b with
  | some k => rd (k.chunk.get 0 []) 6 2
  | none => 0

/-- OWNER_KEY_HASH holds all ones (R572). -/
def scrapPending (s : State) : Bool := s.otp.ownerHash = 2 ^ 384 - 1

/-- Paths open without a warrant in a state, as the bits of SEC_RIGHTS (Table 19-4). -/
def statePaths (lc : Nat) : Nat :=
  match lc with
  | 0 => 0x1F
  | 1 => 0x0F
  | 2 => 0x0F
  | 3 => 0x07
  | 5 => 0x0F
  | _ => 0x01

/-- The open paths: the state's and those of the warrants held (R578). -/
def openPaths (s : State) : Nat := s.sec.warrants.foldl (fun a w => a ||| 2 * w.rights.toNat) (statePaths (lcState s))

def pathBit : DebugPath → Nat
  | .bscan => 0 | .test => 1 | .observe => 2 | .mcdbg => 3 | .rtpdbg => 4

def pathOpen (s : State) (p : DebugPath) : Bool := bit (openPaths s) (pathBit p)

/-- SEC_SEALED: SEALED below, HELD above (Table 19-14). -/
def secSealed (s : State) : Nat :=
  ofBits ((List.range 16).filter fun p => s.set.sealed.get p 0 ≠ 0) + 2 ^ 16 * ofBits s.sec.held

def LinkState.code : LinkState → Nat
  | .down => 0 | .training => 1 | .inService => 2 | .excluded => 3

def SiteState.code : SiteState → Nat
  | .off => 0 | .absent => 1 | .training => 2 | .inService => 3 | .failed => 4 | .down => 5

def ArrState.code : ArrState → Nat
  | .excluded => 0 | .carrying => 1 | .spare => 2 | .quarantined => 3 | .testing => 4 | .retired => 5

/-- Links of a port in service. -/
def inService (s : State) (p : Nat) : List Nat := (upto (8 * p) 8).filter fun n => (linkOf s n).state = .inService

def widthLanes (w : Nat) : Nat := match w with | 1 => 1 | 2 => 2 | 3 => 4 | _ => 0

/-- Tj and the sensor that gives it (R434). -/
def hottest (s : State) : Nat × Nat :=
  (List.range 96).foldl (fun a n => let v := s.power.temps.get n 0; if v > a.1 then (v, n) else a) (0, 0)

/-- A block's posted write is in progress (R504). -/
def blockBusy (s : State) (b : PostedBlock) : Bool := s.glob.posted.any fun x => x.1 = b

def ageOf (s : State) (d : Nat) : Age := s.power.age.get d Age.reset

/-! ### Words of tables that registers mirror -/

def Share.word (e : Share) : Nat :=
  flag e.valid + e.owner * 2 + e.prio * 2 ^ 5 + e.wayQuota * 2 ^ 8 + e.reqSlots * 2 ^ 16 + e.bulkSlots * 2 ^ 24 +
    e.latBin * 2 ^ 32 + e.missMax * 2 ^ 40

def Route.word (r : Route) : Nat :=
  flag r.valid + r.prio * 2 + r.dim * 2 ^ 3 + flag r.negative * 2 ^ 5 + r.dest * 2 ^ 8 + r.mask * 2 ^ 25

def Window.bytes (w : Window) : Bytes :=
  leBytes 1 (flag w.valid + w.prio * 2 + flag w.read * 8 + flag w.write * 16 + flag w.atomic * 32) ++
    leBytes 1 w.sizeLog2 ++ leBytes 1 w.part ++ leBytes 1 0 ++ leBytes 4 w.srcHub ++ leBytes 4 w.srcMask ++ leBytes 4 0 ++
    leBytes 8 w.inBase ++ leBytes 8 w.outBase

/-- A 32-bit word of an SQC register: events, value field, SEQ. -/
def Sqc.word (r : Sqc) : Nat := r.events + r.seq * 2 ^ 24

/-! ### Blocks -/

/-- Identity and global registers but for those with tables of their own (Tables 16-5, 17-4, 19-14). -/
def regIdentity (s : State) (o : Nat) : Nat :=
  if o = 0x00 then 0x01601F3B
  else if o = 0x04 then s.fuse.silicon % 256 + s.fuse.bolter % 256 * 256
  else if 0x10 ≤ o ∧ o < 0x30 then s.fuse.unitId / 2 ^ (8 * (o - 0x10)) % 2 ^ 32
  else if o = 0x40 then
    flag s.boot.ready + flag (s.pins.replace ≠ 0#5) * 2 + flag s.boot.fatal * 4 + flag s.ledger.ovfFlag * 8 +
      lcState s * 16 + s.boot.bank % 2 * 128 + min (spareCount s) 255 * 256
  else if o = 0x48 then s.glob.tariffVer % 2 ^ 32
  else if o = 0x4C then s.set.protoFloor % 65536 + s.turn.sysMin % 65536 * 65536
  else if o = 0x50 then flag s.glob.cfgLock
  else if o = 0x54 then s.glob.pwDrop.toNat
  else if o = 0x60 then
    s.boot.step % 16 + s.boot.kind % 4 * 16 + flag s.boot.fallback * 2 ^ 6 + flag s.boot.hbmSaved * 2 ^ 7 +
      flag s.boot.leatSaved * 2 ^ 8 + flag s.boot.leatCfg * 2 ^ 9 + flag s.boot.blocked * 2 ^ 10 +
      min s.boot.katFail 255 * 2 ^ 16 + min s.boot.berFail 255 * 2 ^ 24
  else if o = 0x64 then s.boot.time % 2 ^ 32
  else if 0x80 ≤ o ∧ o < 0xB4 then s.boot.stepTime.get ((o - 0x80) / 4 + 1) 0 % 2 ^ 32
  else if o = 0x4000 then s.set.shareWindow
  else if o = 0x4004 then s.glob.fabMiss.word + s.glob.fabMiss.value
  else if o = 0x4008 then s.glob.fabMiss.clr
  else if 0x4100 ≤ o ∧ o < 0x4300 then
    let w := (s.set.shareOf ((o - 0x4100) / 8)).word
    if o % 8 = 0 then w % 2 ^ 32 else w / 2 ^ 32
  else if o = 0x5100 then s.glob.tallyDl.word
  else if o = 0x5104 then s.glob.tallyDl.clr
  else if o = 0x6000 then s.host.rate + s.host.width * 4 + flag s.host.flit * 2 ^ 7 + s.host.downs % 65536 * 2 ^ 16
  else if o = 0x6004 then s.host.limit
  else if 0x6100 ≤ o ∧ o < 0x6210 then
    let f := func s ((o - 0x6100) / 16)
    match o % 16 with
    | 0 => f.share + f.tags % 2 ^ 13 * 256
    | 8 => f.bar4 % 2 ^ 32
    | 12 => f.bar4 / 2 ^ 32 % 2 ^ 9
    | _ => 0
  else if o = 0x7000 then
    s.otp.sealBits.toNat + lcState s * 2 ^ 16 + flag s.otp.ownerWritten * 2 ^ 19 + s.sec.warrants.length % 8 * 2 ^ 20 +
      flag (scrapPending s) * 2 ^ 23
  else if o = 0x7004 then openPaths s
  else if o = 0x7008 then secSealed s
  else 0

/-- DMA_STATn (Table 10-10). -/
def regDma (s : State) (n : Nat) : Nat :=
  let e := engine s n
  let planWait := s.tallies.waiters.find? fun w => w.who = .dma n
  let cmdWait := s.tallies.waiters.find? fun w => w.who = .cmd n
  let wait := planWait.orElse fun _ => cmdWait
  let paused := match e.cmdRun with | some r => r.paused | none => false
  let running := e.run.isSome || (e.cmdRun.isSome && !paused)
  e.owner + min e.queue.length 256 * 16 + flag running * 2 ^ 13 + flag wait.isSome * 2 ^ 14 + flag paused * 2 ^ 15 +
    (match wait with | some w => w.tally | none => 0) * 2 ^ 16

/-- Turn unit (Table 16-6). -/
def regTurn (s : State) (o : Nat) : Nat :=
  let t := s.turn
  if o = 0x00 then t.src + flag t.outEn * 4 + flag t.cfgLock * 8
  else if o = 0x08 then t.count % 2 ^ 32
  else if o = 0x0C then t.count / 2 ^ 32 % 65536
  else if o = 0x10 then
    flag (blockBusy s .turn) + flag t.aligned * 2 + flag t.isHeadrace * 4 + flag (srcHealthy s) * 8 +
      flag t.mismatch * 16 + t.hops % 256 * 256
  else if o = 0x14 then t.stretches % 2 ^ 32
  else if o = 0x18 then t.stretchTime % 2 ^ 32
  else if o = 0x1C then unsext 32 (satInt 32 t.inOffset)
  else if o = 0x20 then s.set.bucketLen
  else if o = 0x24 then s.set.tailraceLen
  else if o = 0x28 then t.headrace
  else 0

/-- Command channel (Tables 14-13 to 14-15); `o` is the offset within one source's set. -/
def regChan (s : State) (f o : Nat) : Nat :=
  let c := chan s f
  match o with
  | 0x00 => c.sqBase % 2 ^ 20 * 2 ^ 12
  | 0x04 => c.sqBase / 2 ^ 20 % 2 ^ 32
  | 0x08 => c.cqBase % 2 ^ 20 * 2 ^ 12
  | 0x0C => c.cqBase / 2 ^ 20 % 2 ^ 32
  | 0x10 => flag c.enable + c.sqLog2 * 2 + c.cqLog2 * 2 ^ 6 + flag c.irqEn * 2 ^ 11 + c.vector * 2 ^ 12
  | 0x14 =>
    let n := c.inFlight
    c.sqHead + flag (c.enable && !c.stopped) * 2 ^ 16 + flag (n = 0) * 2 ^ 17 + flag (c.errCause ≠ 0) * 2 ^ 18 +
      c.errCause * 2 ^ 19 + min n 127 * 2 ^ 22
  | _ => 0

/-- Events block (Table 16-7). -/
def regEvents (s : State) (f o : Nat) : Nat :=
  let e := evtRegs s f
  match o with
  | 0x0 => e.stat.word
  | 0x4 => e.stat.clr
  | 0x8 => e.en.toNat
  | 0xC => e.vec
  | _ => 0

/-- Fault ledger window (Table 18-4, R531). -/
def regLedger (s : State) (o : Nat) : Nat :=
  if o = 0 then s.ledger.head
  else if o = 4 then s.ledger.tail
  else if 0x1000 ≤ o ∧ o < 0x1_1000 then
    let k := (o - 0x1000) / 64
    match s.ledger.entries.find? fun e => e.seq % 1024 = k with
    | some e => rd e.bytes ((o - 0x1000) % 64) 4
    | none => 0
  else 0

/-- A frequency proposal awaits posting: no POSTED set stages the domain's step (Table 18-10). -/
def proposalWaits (s : State) (d : Nat) : Bool :=
  (ageOf s d).proposed.isSome &&
    !(s.cmd.sets.any fun x => x.2.state = .posted && x.2.items.any fun i => i.item = 0x0702 && i.index = d)

/-- One array domain (Tables 18-6, 18-10). -/
def regArray (s : State) (d o : Nat) : Nat :=
  if o < 0x48 then
    let p := physArr s (18 * d + o / 4)
    (if p.patrol then 4 else p.state.code) + (if p.state = .carrying then p.la else 0) * 16 + p.epoch * 2 ^ 16 + min p.faults 15 * 2 ^ 24
  else if o = 0x48 then
    let a := ageOf s d
    s.set.freqStep.get d 0 + s.set.trim.get d 0 * 16 + a.margin % 256 * 256 + min (sparesIn s d) 15 * 2 ^ 16 +
      flag (proposalWaits s d) * 2 ^ 20
  else 0

/-- Owners of eight ways, four bits each. -/
def ownerWord (own : Nat → Nat) (first : Nat) : Nat := sumOf ((List.range 8).map fun k => own (first + k) * 16 ^ k)

/-- Granary (Tables 6-7, 7-5, R237, R262). -/
def regGranary (s : State) (o : Nat) : Nat :=
  let way := fun w => if s.set.isScratch w then 0 else s.set.wayOwner.get w 0
  let dir := fun w => s.set.dirOwner.get w 0
  if o = 0x00 then s.set.scratchWays + ofBits s.mem.draining * 2 ^ 16
  else if o = 0x04 then ownerWord way 0
  else if o = 0x08 then ownerWord way 8
  else if o = 0x0C then ownerWord dir 0
  else if o = 0x10 then ownerWord dir 8
  else if 0x40 ≤ o ∧ o < 0x80 then
    let n := (o - 0x40) / 4
    let a := agentOf s n
    flag (decide (n ≥ 12) || s.set.siteCacheOf n = 1) + agentPart s n * 2 + flag a.fenced * 2 ^ 5 + flag a.flushed * 2 ^ 6 +
      a.late * 2 ^ 8 + a.stashDrop * 2 ^ 16 + a.epoch * 2 ^ 24
  else 0

/-- One HBM stack (Table 6-8, R237). -/
def regHbm (s : State) (n o : Nat) : Nat :=
  let h := stackOf s n
  if o = 0 then
    h.rate + flag h.high12 * 8 + flag h.trained * 16 + flag h.saved * 32 + flag h.cattrip * 64 + min h.temp 255 * 2 ^ 24
  else if o = 4 then ofBits h.pcLost
  else 0

/-- Leat (Tables 11-11 to 11-14, R371). -/
def regLeat (s : State) (o : Nat) : Nat :=
  let l := s.leat
  if o = 0x00 then l.hub + l.exm1 * 2 ^ 17 + l.eym1 * 2 ^ 22 + l.ezm1 * 2 ^ 27
  else if o = 0x08 then
    flag (blockBusy s .leat) + flag l.trainDone * 2 + diameter s % 64 * 4 + s.turn.f % 256 * 2 ^ 8 + s.turn.u % 256 * 2 ^ 16 +
      l.ewm1 * 2 ^ 24
  else if 0x100 ≤ o ∧ o < 0x200 then
    let k := linkOf s ((o - 0x100) / 4)
    k.state.code + k.width * 4 + k.lanes.toNat * 16 + flag k.saved * 2 ^ 8 + flag (!k.sealHeld.isEmpty) * 2 ^ 9 +
      k.cause * 2 ^ 10 + min k.delay 65535 * 2 ^ 16
  else if 0x200 ≤ o ∧ o < 0x220 then
    let p := (o - 0x200) / 4
    let ls := inService s p
    ls.length + min (sumOf (ls.map fun n => widthLanes (linkOf s n).width) / 4) 15 * 16 +
      ofBits (ls.map (· % 8)) * 2 ^ 8 + flag (portOf s p).rerouted * 2 ^ 16
  else if 0x400 ≤ o ∧ o < 0x600 then
    let w := (s.set.routeOf ((o - 0x400) / 8)).word
    if o % 8 = 0 then w % 2 ^ 32 else w / 2 ^ 32
  else if 0x800 ≤ o ∧ o < 0xA00 then
    let k := linkOf s ((o - 0x800) / 8)
    if o % 8 = 0 then k.fecOk else k.fecBad
  else 0

/-- One site (Tables 12-13, 12-14). -/
def regSite (s : State) (n o : Nat) : Nat :=
  let x := siteOf s n
  if o = 0 then
    let up := (x.modules.filter fun m => m ≠ .excluded).length
    let half := (x.modules.filter fun m => m = .x32).length
    x.state.code + flag x.cxl * 8 + flag x.rate16 * 16 + up * 2 ^ 5 + half * 2 ^ 10 + s.set.sitePartOf n * 2 ^ 15 +
      s.set.siteCacheOf n * 2 ^ 19 + flag x.breach * 2 ^ 20 + flag (blockBusy s .sites) * 2 ^ 21
  else if o = 4 then x.grant % 65536 + x.report % 65536 * 65536
  else 0

/-- Translation (Tables 8-7, 8-9, 8-10, R292). -/
def regXlate (s : State) (o : Nat) : Nat :=
  if o = 0 then flag s.set.windowMode + flag s.glob.xlateLock * 2
  else if o = 4 then
    let n := s.xlate.invals.length
    min n 16 + min (n - 16) 2047 * 2 ^ 5 + flag (!s.mem.moves.isEmpty) * 2 ^ 16 + flag s.xlate.forced * 2 ^ 17
  else if 0x1000 ≤ o ∧ o < 0x1800 then rd (s.set.windowOf ((o - 0x1000) / 32)).bytes (o % 32) 4
  else 0

/-- Power and ageing (Tables 13-6 to 13-8, R438). -/
def regPower (s : State) (o : Nat) : Nat :=
  let p := s.power
  if o = 0x00 then ofBits (p.on.filter (· < 30)) + flag p.switching.isSome * 2 ^ 30 + flag (blockBusy s .power) * 2 ^ 31
  else if o = 0x04 then s.fuse.varrSet % 64
  else if o = 0x08 then ownerWord (fun k => s.set.trim.get k 0) 0
  else if o = 0x0C then ownerWord (fun k => s.set.trim.get k 0) 8
  else if o = 0x10 then
    let (tj, n) := hottest s
    min tj 255 + n * 2 ^ 8 + flag (tj ≥ p.warnAt) * 2 ^ 15 + p.warnAt * 2 ^ 16 + flag s.pins.thermtrip * 2 ^ 24
  else if o = 0x14 then flag p.profOn + min p.skipped 32767 * 2 + min p.dropped 65535 * 2 ^ 16
  else 0

/-- The power domain of a register's unit, where one other than the fabric core or the always-on domain holds it (R498). -/
def regDomain (o : Nat) : Option Nat :=
  if 0x10_0000 ≤ o ∧ o < 0x20_0000 then some ((o - 0x10_0000) / 0x1_0000)
  else if 0x30_0000 ≤ o ∧ o < 0x30_0800 then some (domOfStack ((o - 0x30_0000) / 0x100))
  else if 0x40_0100 ≤ o ∧ o < 0x40_0200 then some (domOfLink ((o - 0x40_0100) / 4))
  else if 0x40_0200 ≤ o ∧ o < 0x40_0220 then some (domOfLink ((o - 0x40_0200) / 4 * 8))
  else if 0x40_0800 ≤ o ∧ o < 0x40_0A00 then some (domOfLink ((o - 0x40_0800) / 8))
  else none

/-- The 32-bit word at an aligned offset below the tally window, with every domain on. -/
def regRaw (s : State) (o : Nat) : Nat :=
  if o < 0x1_0000 then
    if 0x5000 ≤ o ∧ o < 0x5100 then regDma s ((o - 0x5000) / 4) else regIdentity s o
  else if o < 0x2_0000 then regTurn s (o - 0x1_0000)
  else if o < 0x3_0000 then (if o < 0x2_0440 then regChan s ((o - 0x2_0000) / 0x40) (o % 0x40) else 0)
  else if o < 0x4_0000 then (if o < 0x3_0110 then regEvents s ((o - 0x3_0000) / 16) (o % 16) else 0)
  else if o < 0x10_0000 then regLedger s (o - 0x4_0000)
  else if o < 0x20_0000 then regArray s ((o - 0x10_0000) / 0x1_0000) (o % 0x1_0000)
  else if o < 0x30_0000 then regGranary s (o - 0x20_0000)
  else if o < 0x40_0000 then (if o < 0x30_0800 then regHbm s ((o - 0x30_0000) / 0x100) (o % 0x100) else 0)
  else if o < 0x50_0000 then regLeat s (o - 0x40_0000)
  else if o < 0x60_0000 then (if o < 0x50_0C00 then regSite s ((o - 0x50_0000) / 0x100) (o % 0x100) else 0)
  else if o < 0x70_0000 then regXlate s (o - 0x60_0000)
  else if o < 0x80_0000 then regPower s (o - 0x70_0000)
  else 0

/-- The 32-bit word that a read of an aligned offset returns: registers, tally words, bit aliases, zero where reserved or
where the unit's domain is off (R496, R498, R499). -/
def regWord (s : State) (o : Nat) : Nat :=
  if o < 0x80_0000 then
    match regDomain o with
    | some d => if domainOn s d then regRaw s o else 0
    | none => regRaw s o
  else if o < 0x82_0000 then
    let w := tallyWord s ((o - 0x80_0000) / 8)
    if o % 8 = 0 then w % 2 ^ 32 else w / 2 ^ 32
  else if 0x100_0000 ≤ o ∧ o < 0x180_0000 then
    let k := (o - 0x100_0000) / 4
    flag (bit (regRaw s (k / 32 * 4)) (k % 32))
  else 0

/-- Registers of 64 bits: ring bases, SHARE, HOST_FN, HOST_BAR4, routes, FEC counters and tally words (R495). -/
def wideReg (o : Nat) : Bool :=
  (0x4100 ≤ o && o < 0x4300) || (0x6100 ≤ o && o < 0x6210) || (0x2_0000 ≤ o && o < 0x2_0440 && o % 0x40 < 0x10) ||
    (0x40_0400 ≤ o && o < 0x40_0600) || (0x40_0800 ≤ o && o < 0x40_0A00) || (0x80_0000 ≤ o && o < 0x82_0000)

/-- An access is naturally aligned and of 32 or 64 bits; aliases take 32 bits (R495, R499). -/
def regAccessOk (o width : Nat) : Bool :=
  (width = 4 && o % 4 = 0) || (width = 8 && o % 8 = 0 && !(0x100_0000 ≤ o && o < 0x180_0000))

/-- What a read of the map returns (R495). -/
def regRead (s : State) (o width : Nat) : Nat :=
  if !regAccessOk o width then 0
  else if width = 8 then regWord s o + regWord s (o + 4) * 2 ^ 32
  else regWord s o

/-! ### Virtual functions -/

/-- Where an offset of a VF's BAR0 leads in the register map (Table 15-5). -/
def vfOffset (f o : Nat) : Option Nat :=
  if o = 0 then some 0x40
  else if o = 8 ∨ o = 0xC then some (0x1_0000 + o)
  else if o = 0x10 ∨ o = 0x14 then some (0x48 + (o - 0x10))
  else if 0x1000 ≤ o ∧ o < 0x1018 then some (0x2_0000 + f * 0x40 + (o - 0x1000))
  else if 0x2_0000 ≤ o ∧ o < 0x4_0000 then some (0x80_0000 + (o - 0x2_0000))
  else none

end Sys2Proof.Machine
end

