-- ==== Sys2Proof/Machine/RegWrite.lean ====
section
/-! DEFINITION. What a register write does: fields by access type, aliases, locks, posted writes, sequence clears, the command
channel's registers and doorbells, the host registers, and the tally window (R33, R318, R442-R446, R469, R475-R476, R487,
R495-R504, R506-R508). -/

namespace Sys2Proof.Machine

/-! ### Locks -/

/-- A write to fields that a lock guards is ignored and recorded, once per 1,024 (R502). -/
def lockedWrite (s : State) : State := recordCount s { cls := 0xA0 }

/-- A write under a lock. -/
def guarded (lock : Bool) (s : State) (f : State → State) : State := if lock then lockedWrite s else f s

/-! ### Command channel -/

/-- A fetched command that never starts is answered ABORTED (R446). -/
def abortOne (src : Nat) (s : State) (f : Fetched) : State :=
  let r : ReplyTo := { id := 0, source := src, tag := f.packet.tag.toNat, opcode := f.opcode, noIrq := f.packet.noIrq }
  sendReply s r (replyBytes (chan s src).sqHead r .aborted false 0 (now s)) []

/-- A write of 0 to ENABLE (R446). -/
def disableRing (s : State) (f : Nat) : State :=
  let c := chan s f
  let s1 := setChan s f { c with enable := false, fetched := [] }
  c.fetched.foldl (abortOne f) s1

/-- The rules of R442 on ring sizes; the bases are aligned by their form. -/
def Chan.sizesOk (c : Chan) : Bool := 6 ≤ c.sqLog2 && c.sqLog2 ≤ 16 && c.sqLog2 + 1 ≤ c.cqLog2 && c.cqLog2 ≤ 17

/-- A write of 1 to ENABLE of a ring that is not in use (R442, R446): the rings start empty (log entry 22). -/
def enableRing (s : State) (f : Nat) : State :=
  let c := chan s f
  if c.sizesOk then
    flushHeld c.held.length
      (setChan s f { c with enable := true, sqHead := 0, sqTail := 0, cqHead := 0, cqTail := 0, cqUsed := 0, phase := true,
                            errCause := 0, stopped := false }) f
  else setChan s f { c with errCause := 1 }

/-- The base and size fields take writes (R446). -/
def Chan.open_ (c : Chan) : Bool := !c.enable && c.inFlight = 0

/-- A write of CMD_CTL. -/
def writeCtl (s : State) (f v : Nat) : State :=
  let c := chan s f
  let c1 := { c with irqEn := bit v 11, vector := bits v 22 12 }
  let c2 := if c.open_ then { c1 with sqLog2 := bits v 5 1, cqLog2 := bits v 10 6 } else c1
  let s1 := setChan s f c2
  if bit v 0 then (if c.enable then s1 else enableRing s1 f)
  else if c.enable then disableRing s1 f else s1

/-- A word of a source's set (Tables 14-13, 14-14). -/
def writeChan (s : State) (f o v : Nat) : State :=
  let c := chan s f
  if o = 0x10 then writeCtl s f v
  else if !c.open_ then s
  else
    match o with
    | 0x00 => setChan s f { c with sqBase := c.sqBase / 2 ^ 20 * 2 ^ 20 + v / 2 ^ 12 % 2 ^ 20 }
    | 0x04 => setChan s f { c with sqBase := c.sqBase % 2 ^ 20 + v % 2 ^ 32 * 2 ^ 20 }
    | 0x08 => setChan s f { c with cqBase := c.cqBase / 2 ^ 20 * 2 ^ 20 + v / 2 ^ 12 % 2 ^ 20 }
    | 0x0C => setChan s f { c with cqBase := c.cqBase % 2 ^ 20 + v % 2 ^ 32 * 2 ^ 20 }
    | _ => s

/-! ### Host registers -/

/-- Sum of all TAGS with one function's replaced. -/
def tagSum (s : State) (f t : Nat) : Nat := sumOf ((List.range 17).map fun g => if g = f then t else (func s g).tags)

/-- HOST_FNf: a write that would make the sum of TAGS exceed LIMIT is ignored (R487). -/
def writeHostFn (s : State) (f share tags : Nat) : State :=
  if tagSum s f tags > s.host.limit then s else setFunc s f { func s f with share := share, tags := tags }

/-- HOST_RD_LIMIT (Table 15-7, R487). -/
def writeLimit (s : State) (v : Nat) : State :=
  let l := v % 2 ^ 13
  let l1 := if 16 ≤ l ∧ l ≤ 4096 then l else 4096
  if tagSum s 17 0 > l1 then s else { s with host := { s.host with limit := l1 } }

/-- A word of HOST_FNf or HOST_BAR4f (Table 15-8). -/
def writeHostWord (s : State) (o v : Nat) : State :=
  let f := (o - 0x6100) / 16
  let x := func s f
  match o % 16 with
  | 0 => writeHostFn s f (bits v 5 0) (bits v 20 8)
  | 8 => setFunc s f { x with bar4 := x.bar4 / 2 ^ 32 * 2 ^ 32 + v % 2 ^ 32 }
  | 12 => setFunc s f { x with bar4 := x.bar4 % 2 ^ 32 + v % 2 ^ 9 * 2 ^ 32 }
  | _ => s

/-! ### Words -/

/-- Events registers (Table 16-7). -/
def writeEvt (s : State) (f o v : Nat) : State :=
  let e := evtRegs s f
  let put := fun (x : EvtRegs) => { s with glob := { s.glob with evt := s.glob.evt.put f x } }
  match o with
  | 0x4 => put { e with stat := e.stat.clear (v % 256) }
  | 0x8 => put { e with en := BitVec.ofNat 13 v }
  | 0xC => guarded s.glob.cfgLock s fun _ => put { e with vec := v % 2 ^ 11 }
  | _ => s

/-- A word of a block whose writes are not posted; an RO or reserved word ignores it (R14, R496). -/
def writeWord (s : State) (o v : Nat) : State :=
  if o = 0x50 then (if bit v 0 then { s with glob := { s.glob with cfgLock := true } } else s)
  else if o = 0x54 then { s with glob := { s.glob with pwDrop := BitVec.ofNat 4 v } }
  else if o = 0x4008 then { s with glob := { s.glob with fabMiss := s.glob.fabMiss.clear (v % 256) } }
  else if o = 0x5104 then { s with glob := { s.glob with tallyDl := s.glob.tallyDl.clear (v % 256) } }
  else if o = 0x6004 then guarded s.glob.cfgLock s fun t => writeLimit t v
  else if 0x6100 ≤ o ∧ o < 0x6210 then guarded s.glob.cfgLock s fun t => writeHostWord t o v
  else if 0x2_0000 ≤ o ∧ o < 0x2_0440 then writeChan s ((o - 0x2_0000) / 0x40) (o % 0x40) v
  else if 0x3_0000 ≤ o ∧ o < 0x3_0110 then writeEvt s ((o - 0x3_0000) / 16) (o % 16) v
  else if o = 0x60_0000 then (if bit v 1 then { s with glob := { s.glob with xlateLock := true } } else s)
  else s

/-- The RW bits of a word of 0x0000_0000-0x0003_FFFF outside the Turn unit. -/
def rwMask (o : Nat) : Nat :=
  if o = 0x54 then 0xF
  else if o = 0x4008 ∨ o = 0x5104 then 0xFF
  else if o = 0x6004 then 0x1FFF
  else if 0x6100 ≤ o ∧ o < 0x6210 then
    match o % 16 with
    | 0 => 0x1FFF3F
    | 8 => 0xFFFF_FFFF
    | 12 => 0x1FF
    | _ => 0
  else if 0x2_0000 ≤ o ∧ o < 0x2_0440 then
    match o % 0x40 with
    | 0x00 => 0xFFFF_F000
    | 0x04 => 0xFFFF_FFFF
    | 0x08 => 0xFFFF_F000
    | 0x0C => 0xFFFF_FFFF
    | 0x10 => 0x7F_FFFF
    | _ => 0
  else if 0x3_0000 ≤ o ∧ o < 0x3_0110 then
    match o % 16 with
    | 0x4 => 0xFF
    | 0x8 => 0x1FFF
    | 0xC => 0x7FF
    | _ => 0
  else 0

/-- A word with one bit replaced. -/
def setBit (w b : Nat) (on : Bool) : Nat := (if bit w b then w - 2 ^ b else w) + (if on then 2 ^ b else 0)

/-! ### Posted writes -/

/-- The block behind a clock crossing that holds an offset, aliases of its registers included (Table 16-3, R503). -/
def postedBlock (o : Nat) : Option PostedBlock :=
  if 0x1_0000 ≤ o ∧ o < 0x2_0000 then some .turn
  else if 0x40_0000 ≤ o ∧ o < 0x50_0000 then some .leat
  else if 0x50_0000 ≤ o ∧ o < 0x60_0000 then some .sites
  else if 0x70_0000 ≤ o ∧ o < 0x80_0000 then some .power
  else if 0x100_0000 ≤ o ∧ o < 0x180_0000 ∧ 0x1_0000 ≤ (o - 0x100_0000) / 32 ∧ (o - 0x100_0000) / 32 < 0x2_0000 then
    some .turn
  else none

def dropBit : PostedBlock → Nat
  | .turn => 0 | .leat => 1 | .sites => 2 | .power => 3

/-- A write reaches a posted block: BUSY, or dropped while BUSY (R504). -/
def postWrite (s : State) (b : PostedBlock) (o v : Nat) : State :=
  if blockBusy s b then
    { s with glob := { s.glob with pwDrop := s.glob.pwDrop ||| BitVec.ofNat 4 (2 ^ dropBit b) } }
  else { s with glob := { s.glob with posted := s.glob.posted ++ [(b, o, v % 2 ^ 32)] } }

/-- TURN_CTL as a write lands (Table 16-6): the fields that CFG_LOCK guards, then the lock. -/
def landTurnCtl (s : State) (v : Nat) : State :=
  let t := s.turn
  if t.cfgLock then lockedWrite s
  else
    let src := if v % 4 = 3 then t.src else v % 4
    { s with turn := { t with src := src, outEn := bit v 2, cfgLock := bit v 3 } }

/-- A bit of TURN_CTL as an alias write lands (Table 16-1): a WL bit by itself. -/
def landTurnBit (s : State) (b v : Nat) : State :=
  if b = 3 then (if bit v 0 then { s with turn := { s.turn with cfgLock := true } } else s)
  else if b < 3 then landTurnCtl s (setBit (s.turn.src + flag s.turn.outEn * 4) b (bit v 0))
  else s

/-- LEAT_FEC_CLR: a write of n clears LEAT_FECn (R371). -/
def clearFec (s : State) (n : Nat) : State :=
  if n < 64 then setLink s n { linkOf s n with fecOk := 0, fecBad := 0 } else s

/-- What a posted write does when it lands. -/
def landWrite (s : State) (o v : Nat) : State :=
  if o = 0x1_0000 then landTurnCtl s v
  else if o = 0x40_0010 then clearFec s v
  else if 0x120_0000 ≤ o ∧ o < 0x120_0080 then landTurnBit s ((o - 0x120_0000) / 4) v
  else s

/-! ### Aliases -/

/-- A write of an alias word (R499, Table 16-1). -/
def aliasWrite (s : State) (o v : Nat) : State :=
  let k := (o - 0x100_0000) / 4
  let r := k / 32 * 4
  let b := k % 32
  match postedBlock o with
  | some p => postWrite s p o v
  | none =>
    if r = 0x50 ∧ b = 0 then writeWord s r (flag (bit v 0))
    else if bit (rwMask r) b then writeWord s r (setBit (regRaw s r) b (bit v 0))
    else s

/-! ### Whole accesses -/

/-- A write to the tally window by a partition (R33, R318): one that is not an aligned 64-bit write is malformed. -/
def tallyWindowWrite (s : State) (p : Fin 16) (o width v : Nat) : State :=
  let t : Fin 16384 := ⟨(o - 0x80_0000) / 8 % 16384, Nat.mod_lt _ (by decide)⟩
  let w := if o % 8 = 0 then width else 0
  tallyWrite s { tally := t, word := BitVec.ofNat 64 v, width := w, part := p, remote := false }
    (if bits v 34 32 = 1 then 1 else 2)

/-- A 32-bit word of the map that is not a tally word. -/
def writeOne (s : State) (o v : Nat) : State :=
  if 0x100_0000 ≤ o ∧ o < 0x180_0000 then aliasWrite s o v
  else
    match postedBlock o with
    | some b => postWrite s b o v
    | none => writeWord s o v

/-- A write to the register map by a partition (R495, R498). -/
def writeMap (s : State) (p : Fin 16) (o width v : Nat) : State :=
  if inTallyWindow o then tallyWindowWrite s p o width v
  else if !regAccessOk o width then s
  else
    match regDomain o with
    | some d =>
      if answers s d then writeBoth s
      else record s { cls := 0x30, kind := 12, index := d, part := some p, addr := regBase + o }
    | none => writeBoth s
where
  writeBoth : State → State := fun t =>
    match postedBlock o with
    | some b => postWrite t b o v
    | none => if width = 8 then writeOne (writeOne t o (v % 2 ^ 32)) (o + 4) (v / 2 ^ 32) else writeOne t o (v % 2 ^ 32)

/-- A word of another function's command set, or of the host registers (R476, R487). -/
def isForeignSet (o : Nat) : Bool := 0x2_0040 ≤ o && o < 0x2_0440
def isHostReg (o : Nat) : Bool := 0x6000 ≤ o && o < 0x6210

/-- The register that an alias word belongs to; other offsets stand for themselves. -/
def baseOf (o : Nat) : Nat := if 0x100_0000 ≤ o ∧ o < 0x180_0000 then (o - 0x100_0000) / 128 * 4 else o

/-- The partition that a function acts for (R475). -/
def fnPart (f : Fin 17) : Fin 16 := ⟨(f.val - 1) % 16, Nat.mod_lt _ (by decide)⟩

/-- A register write of a master: the PF reaches its own command set alone and the host registers; a VF the layout of Table
15-5; a core everything but the host registers; the test network everything while the TEST path is open (R476, R487,
R579). -/
def writeBy (s : State) (m : Master) (o width v : Nat) : State :=
  match m with
  | .core => if isHostReg (baseOf o) then s else writeMap s 0 o width v
  | .testNet =>
    if pathOpen s .test then (if isHostReg (baseOf o) then s else writeMap s 0 o width v)
    else recordCount s { cls := 0xA6, kind := 10 }
  | .host f =>
    if f.val = 0 then (if isForeignSet (baseOf o) then s else writeMap s 0 o width v)
    else if !fnExists s f then s
    else
      match vfOffset f o with
      | some a => if 0x2_0000 ≤ a ∧ a < 0x2_0440 ∨ inTallyWindow a then writeMap s (fnPart f) a width v else s
      | none => s

/-- REGISTER_WRITE (R495). -/
def execRegisterWrite (w : RegWrite) (s : State) : Host.Outcome State Fault Refusal :=
  act s fun t => if domainOn t 28 then writeBy t w.master w.off w.width w.value else t

/-- BIT_ALIAS_WRITE (R499). -/
def execBitAliasWrite (off v : Nat) (s : State) : Host.Outcome State Fault Refusal :=
  act s fun t =>
    if domainOn t 28 ∧ 0x100_0000 ≤ off ∧ off < 0x180_0000 ∧ off % 4 = 0 then aliasWrite t off v else t

/-- The offsets of the clear registers (R501, R508). -/
def isClearReg (o : Nat) : Bool :=
  o = 0x4008 || o = 0x5104 || (0x3_0000 ≤ o && o < 0x3_0110 && o % 16 = 4)

/-- SQC_CLEAR_WRITE (R501). -/
def execSqcClearWrite (off v : Nat) (s : State) : Host.Outcome State Fault Refusal :=
  act s fun t => if domainOn t 28 && isClearReg off then writeWord t off v else t

/-- CFG_LOCK_WRITE (R502): that of the Turn unit is posted. -/
def execCfgLockWrite (off v : Nat) (s : State) : Host.Outcome State Fault Refusal :=
  act s fun t =>
    if !domainOn t 28 then t
    else if off = 0x50 ∨ off = 0x60_0000 then writeWord t off v
    else if off = 0x1_0000 then postWrite t .turn off v
    else t

/-- POSTED_WRITE (R504). -/
def execPostedWrite (off v : Nat) (s : State) : Host.Outcome State Fault Refusal :=
  act s fun t =>
    match postedBlock off with
    | some b => if domainOn t 28 then postWrite t b off v else t
    | none => t

/-- LEAT_FEC_CLR, a posted write (R371). -/
def execLeatFecClr (n : Nat) (s : State) : Host.Outcome State Fault Refusal :=
  act s fun t => if domainOn t 28 then postWrite t .leat 0x40_0010 n else t

/-- HOST_RD_LIMIT_WRITE (R487). -/
def execHostRdLimitWrite (v : Nat) (s : State) : Host.Outcome State Fault Refusal :=
  act s fun t => if domainOn t 28 then writeWord t 0x6004 v else t

/-- HOST_FN_TAGS_WRITE: the TAGS field of HOST_FNf (R487). -/
def execHostFnTagsWrite (fn : Fin 17) (v : Nat) (s : State) : Host.Outcome State Fault Refusal :=
  act s fun t =>
    if domainOn t 28 then
      guarded t.glob.cfgLock t fun x => writeHostFn x fn (func x fn).share (v % 2 ^ 13)
    else t

/-- RING_ENABLE: a write of CMD_CTLf with ENABLE 1 (R442). -/
def execRingEnable (src : Fin 17) (v : Nat) (s : State) : Host.Outcome State Fault Refusal :=
  act s fun t => if domainOn t 28 && fnExists t src then writeCtl t src (setBit v 0 true) else t

/-- RING_DISABLE: a write of CMD_CTLf with ENABLE 0 (R446). -/
def execRingDisable (src : Fin 17) (v : Nat) (s : State) : Host.Outcome State Fault Refusal :=
  act s fun t => if domainOn t 28 && fnExists t src then writeCtl t src (setBit v 0 false) else t

/-- A doorbell value out of range is ignored, with ERR_CAUSE 5 (Table 14-2). -/
def badDoorbell (s : State) (f : Nat) : State := setChan s f { chan s f with errCause := 5 }

/-- SQ_TAIL (R443): the hub fetches up to it. -/
def execSqTail (src : Fin 17) (v : Nat) (s : State) : Host.Outcome State Fault Refusal :=
  act s fun t =>
    let n := v % 2 ^ 16
    if !(domainOn t 28 && fnExists t src) then t
    else if n ≥ 2 ^ (chan t src).sqLog2 then badDoorbell t src
    else setChan t src { chan t src with sqTail := n }

/-- Replies that a CQ_HEAD of `n` releases; on a full ring the standing value releases them all (log entry 22). -/
def Chan.released (c : Chan) (n : Nat) : Nat :=
  let size := 2 ^ c.cqLog2
  let d := (n + size - c.cqHead % size) % size
  if d = 0 ∧ c.cqUsed = size then size else min d c.cqUsed

/-- CQ_HEAD (R444): entries are released, and held replies follow. -/
def execCqHead (src : Fin 17) (v : Nat) (s : State) : Host.Outcome State Fault Refusal :=
  act s fun t =>
    let n := v % 2 ^ 17
    let c := chan t src
    if !(domainOn t 28 && fnExists t src) then t
    else if n ≥ 2 ^ c.cqLog2 then badDoorbell t src
    else
      let t1 := setChan t src { c with cqHead := n, cqUsed := c.cqUsed - c.released n }
      flushHeld c.held.length t1 src

end Sys2Proof.Machine
end

