-- ==== Sys2Proof/Machine/Shoe.lean ====
section
/-! DEFINITION. The Shoe intake areas: row records, the queues by partition, and SHOE_SUBMIT (R92, R131, R132, R136). -/

namespace Sys2Proof.Machine

def shoeBase : Nat := 0x1FF_0000

/-- The queue of a partition, in the order in which its rows will be batched. -/
def shoeQueue (s : State) (la p : Nat) : List ShoeRow := (logArr s la).queue.get p []

def setQueue (s : State) (la p : Nat) (q : List ShoeRow) : State :=
  setLog s la { logArr s la with queue := (logArr s la).queue.put p q }

/-- The 16 bytes of a row record (Table 3-11). -/
def ShoeRow.bytes (r : ShoeRow) : Bytes :=
  leBytes 4 r.reqId ++ leBytes 4 r.inOff ++ leBytes 4 r.outOff ++ leBytes 2 r.tag ++ leBytes 1 (flag r.last) ++ leBytes 1 0

/-- One row goes before another: the older Turn, then the lower REQ_ID (R92, R131). -/
def ShoeRow.before (a b : ShoeRow) : Bool := a.turn < b.turn || (a.turn = b.turn && a.reqId < b.reqId)

def insRow (x : ShoeRow) : List ShoeRow → List ShoeRow
  | [] => [x]
  | y :: r => if x.before y then x :: y :: r else y :: insRow x r

/-- A byte of an intake area as partition `q` reads it, and whether its queue may be read by it (R131). The submit address reads as
zero: the spec does not say what a read of it returns (log entry 81). -/
def shoeByte (s : State) (la q k : Nat) : Byte × Bool :=
  let p := k / 0x1000
  let o := k % 0x1000
  if q ≠ 0 ∧ q ≠ p then (0#8, false)
  else if o < 16 then (0#8, true)
  else
    match (shoeQueue s la p)[(o - 16) / 16]? with
    | some r => (r.bytes.getD (o % 16) 0#8, true)
    | none => (0#8, true)

/-- A Shoe record: unit kind 1, the physical array. -/
def shoeRec (s : State) (cls la p : Nat) : Rec :=
  { cls := cls, kind := 1, index := (logArr s la).phys.getD 0, part := some p, addr := binBase + la * binSize + shoeBase }

/-- The class under which a write to an intake area is refused, if it is (R27, R92, R131, R132). Of several rules that a record breaks,
the first in this order names the class: the spec gives none (log entry 81). -/
def shoeFault (s : State) (la k part : Nat) (b : Bytes) : Option Nat :=
  let l := logArr s la
  let offOk := fun v => v % 128 = 0 ∧ (v < shoeBase ∨ binSize ≤ v)
  match l.phys with
  | none => some 0x30
  | some n =>
    if !answers s (domOfArray n) then some 0x30
    else if k % 0x1000 ≠ 0 ∨ b.length ≠ 16 then some 0x1A
    else if k / 0x1000 ≠ part then some 0xA0
    else if bits (rd b 14 1) 7 1 ≠ 0 ∨ rd b 15 1 ≠ 0 ∨ ¬ offOk (rd b 4 4) ∨ ¬ offOk (rd b 8 4) then some 0x1A
    else if (shoeQueue s la part).length ≥ 255 then some 0x11
    else if l.accepted.contains (rd b 0 4) then some 0x10
    else none

/-- A write to an intake area: accepted into its partition's queue, or refused and recorded (R92, R131, R132). -/
def shoeTake (s : State) (la k part : Nat) (ctx : Option Nat) (b : Bytes) : State × Bool :=
  match shoeFault s la k part b with
  | some c => (record s (shoeRec s c la part), false)
  | none =>
    let r : ShoeRow := { turn := now s, reqId := rd b 0 4, inOff := rd b 4 4, outOff := rd b 8 4, tag := rd b 12 2,
                         last := bit (rd b 14 1) 0, ctx := ctx }
    let s1 := setQueue s la part (insRow r (shoeQueue s la part))
    (setLog s1 la { logArr s1 la with accepted := (logArr s1 la).accepted ++ [r.reqId] }, true)

/-- A row record reaches its intake area: accepted or refused, and answered. -/
def takeRow (s : State) (w : ShoeWrite) : State :=
  let (s1, ok) := shoeTake s w.la w.off w.part w.ctx w.bytes
  emit s1 (if ok then .ack else .errorCompletion)

/-- SHOE_SUBMIT (R132). Intake closes at the commit window (R77): a record that arrives later waits for the next Turn, and is acknowledged
and stamped there (log entry 81). -/
def execShoeSubmit (w : ShoeWrite) (s : State) : Host.Outcome State Fault Refusal :=
  act s fun t =>
    if !domainOn t 28 then t
    else if t.turn.commit then enqueue t (.shoe w) [] true true
    else takeRow t w

/-- The rows that a context submitted leave the queues of its partition; their number goes to class 0x11 (R136). -/
def clearShoe (s : State) (ctx p : Nat) : State :=
  let one := fun (x : State × Nat) (la : Nat) =>
    let q := shoeQueue x.1 la p
    let kept := q.filter fun r => r.ctx ≠ some ctx
    (setQueue x.1 la p kept, x.2 + (q.length - kept.length))
  let (s1, n) := ((s.arr.log.map Prod.fst).filter fun la => !(shoeQueue s la p).isEmpty).foldl one (s, 0)
  if n = 0 then s1 else record s1 { cls := 0x11, kind := 13, index := ctx, part := some p, d0 := n }

end Sys2Proof.Machine
end

