-- ==== Sys2Proof/Machine/Access.lean ====
section
/-! DEFINITION. A request at a local address: its checks, and what memory, the intake areas, a site aperture and register space
make of it; requests for another hub; window and direct requests of other hubs; the uncached requests of the coherence protocol; Granary
atomics (R26-R33, R36, R131, R152, R181, R214, R242, R248, R268, R280-R290, R300, R301, R386, R479, R504, R529). -/

namespace Sys2Proof.Machine

/-! ### Checks -/

/-- The epoch of the unit that issues a request, for the units of Table 17-3. -/
def issuerEpoch (s : State) : Issuer → Option Nat
  | .dma n => some (engine s n).epoch
  | .siteAgent n => some (agentOf s n).epoch
  | .core n => some (agentOf s (12 + n.val)).epoch
  | _ => none

/-- The class under which the epochs of a request refuse it, if they do: the unit's 0x30, the context's 0x47 (R28, R268, R282, R529). -/
def epochFault (s : State) (i : Issuer) (epoch : Nat) (ctx : Option (Nat × Nat)) : Option Nat :=
  if (issuerEpoch s i).any fun e => e ≠ epoch % 256 then some 0x30
  else if ctx.any fun c => (ctxOf s c.1).epoch ≠ c.2 % 256 then some 0x47
  else none

/-- The class that a unit's request goes under before R301: 63 for the management cores (R300). -/
def issuerShare (i : Issuer) (share : Fin 64) : Fin 64 := match i with | .core _ => 63 | _ => share

/-- Bytes that a request covers. -/
def reqSize (r : MemReq) : Nat := if r.kind = .write then r.data.length else r.len

/-- The descriptor of an array reads a range of its bin that a write would change (R152). -/
def guardHit (s : State) (la off n : Nat) : Bool :=
  let l := logArr s la
  (l.run.toList ++ l.parked).any fun r => r.extents.any fun e => off ≤ e.2 && e.1 < off + n

/-- A refused request is recorded: a translation class once per 1,024 refusals, any other by itself (R293). -/
def recordRefusal (s : State) (r : Rec) : State := if 0x40 ≤ r.cls ∧ r.cls < 0x50 then recordCount s r else record s r

/-- A request is refused to its requester and recorded. -/
def refuse (s : State) (cls part addr : Nat) : State :=
  let (k, i) := unitAt s addr
  emit (recordRefusal s { cls := cls, kind := k, index := i, part := some part, addr := addr }) .errorCompletion

/-- The part of a request that the deed table governs (R280): all of it but what lies in an intake area. -/
def deedSize (r : MemReq) : Nat :=
  match regionOf r.addr with
  | .bin _ off => min (reqSize r) (shoeBase - off)
  | _ => reqSize r

/-- A read or write reaches into an intake area. -/
def reachesShoe (r : MemReq) : Bool :=
  match regionOf r.addr with
  | .bin _ off => decide (off + reqSize r > shoeBase)
  | _ => false

/-- The first check that refuses a request at a memory: class and address (R27, R282, R301). -/
def reqFault (s : State) (r : MemReq) : Option (Nat × Nat) :=
  if (classFor s.set r.part (issuerShare r.issuer r.share)).isNone then some (0x34, r.addr)
  else
    match epochFault s r.issuer r.epoch r.ctx with
    | some c => some (c, r.addr)
    | none =>
      match regionOf r.addr with
      | .site _ _ => none
      | .regs _ => none
      | _ =>
        match firstFault s r.part r.kind r.addr (deedSize r) with
        | some (o, c) => some (c, r.addr + o)
        | none => if reachesShoe r && addrFault s r.addr = some 0x30 then some (0x30, r.addr) else none

/-! ### Memory -/

/-- Offers of an engine's write with hint STASH, one for each line (R250, R251). -/
def stashAll (s : State) (r : MemReq) : State :=
  match r.issuer with
  | .dma _ =>
    if r.kind = .write ∧ r.hint.val = 2 then (lineSpan r.addr r.data.length).foldl (fun a l => stashLine a l r.part r.target) s else s
  | _ => s

/-- A read or write of HBM or scratch whose lines have been snooped (R248). -/
def serveCoherent (s : State) (r : MemReq) : State :=
  if r.kind = .write then stashAll (serveWrite s r) r else serveRead s r

/-- A read of a bin, and of its intake area where it reaches into it (R131). -/
def serveBinRead (s0 : State) (r : MemReq) (la off : Nat) : State :=
  let s := binError s0 la off r.part r.ecc
  let n1 := min r.len (shoeBase - off)
  let d1 := memRead s r.addr n1
  let d2 := (upto (off + n1 - shoeBase) (r.len - n1)).map (shoeByte s la r.part)
  let s1 := if d2.all Prod.snd then s else record s (shoeRec s 0xA0 la r.part)
  emit s1 (.readData (d1.map Prod.fst ++ d2.map Prod.fst) (badUnits r.addr d1))

/-- A write to a bin or its intake area (R131, R152). -/
def serveBinWrite (s : State) (r : MemReq) (la off : Nat) : State :=
  if off + r.data.length > shoeBase then
    let (s1, ok) := if off < shoeBase then (record s (shoeRec s 0x1A la r.part), false)
      else shoeTake s la (off - shoeBase) r.part (r.ctx.map Prod.fst) r.data
    emit s1 (if ok then .ack else .errorCompletion)
  else if guardHit s la off r.data.length then emit s .errorCompletion
  else emit (maskedWrite s r.addr r.data r.mask r.poison) .ack

/-- A request at a memory that its checks have passed. An atomic operation is only checked here (R214). -/
def serveMemory (s : State) (r : MemReq) : State :=
  if r.kind = .atomic then
    (match regionOf r.addr with | .scratch => emit s .ack | _ => refuse s 0x25 r.part r.addr)
  else
    match regionOf r.addr with
    | .bin la off => if r.kind = .write then serveBinWrite s r la off else serveBinRead s r la off
    | _ => serveCoherent s r

/-! ### Site apertures -/

/-- The lowest tag that no aperture request of a site holds. -/
def freeTag (l : List Nat) (n : Nat) : Nat := ((List.range n).find? fun t => !l.contains t).getD 0

/-- A request to a site's aperture goes to the chiplet, in order of arrival, or is refused (R32, R280, R386). -/
def serveAperture (s : State) (r : MemReq) (site off : Nat) : State :=
  let x := siteOf s site
  if !answers s (domOfSite site) ∨ x.state ≠ .inService ∨ (r.part ≠ 0 ∧ r.part.val ≠ s.set.sitePartOf site) then
    refuse s 0x70 r.part r.addr
  else if r.kind = .atomic then refuse s 0x25 r.part r.addr
  else
    let tag := freeTag (x.aperture.map ApertureReq.tag) 4096
    let q : ApertureReq := { tag := tag, addr := off, len := if r.kind = .write then 0 else r.len, asker := .row }
    let s1 := setSite s site { x with aperture := x.aperture ++ [q] }
    emit s1 (.sitePacket site (if r.kind = .write then 2 else 1) 0 tag off r.data r.poison)

/-- The aperture request that an output sends to a chiplet: site and tag. -/
def asChiplet : Output → Option (Nat × Nat)
  | .sitePacket n op _ tag _ _ _ => if op = 1 ∨ op = 2 then some (n, tag) else none
  | _ => none

/-- The chiplet's reply to an aperture request goes to another requester than the row's. -/
def setAsker (s : State) (n tag : Nat) (a : Asker) : State :=
  let x := siteOf s n
  setSite s n { x with aperture := x.aperture.map fun q => if q.tag = tag then { q with asker := a } else q }

/-- A request is made for a requester who is answered later where it goes to a chiplet: what it answers now, and whether it does. -/
def askFor (s : State) (a : Asker) (f : State → State) : State × List Output × Bool :=
  let (t, o) := capture s f
  match (t.out.drop s.out.length).findSome? asChiplet with
  | some (n, k) => (setAsker t n k a, o, true)
  | none => (t, o, false)

/-! ### Register space -/

/-- A read of the tally window by a partition: words that it may not read are zero, under class 0x53 (R314). -/
def readTallyWindow (s : State) (p o n : Nat) : State :=
  let t := (o - 0x80_0000) / 8
  if mayTally s t p then emit s (.readData (leBytes n (regRead s o n)) [])
  else emit (record s (tallyRec 0x53 t p)) (.zeroData n)

/-- The domain that is off or going off and holds the register at an offset, its aliases included (R27, R498). -/
def regOff (s : State) (o : Nat) : Option Nat := (regDomain (baseOf o)).filter fun d => !answers s d

/-- A request to register space (R33, R495): partition 0 reaches the map, others the tally window alone. The host registers lie
behind BAR0 only (R487). A read of a unit that is off returns zero under class 0x30 (R27, R498). -/
def serveRegisters (s : State) (r : MemReq) (o : Nat) : State :=
  if r.part ≠ 0 ∧ !inTallyWindow o then refuse s 0xA0 r.part r.addr
  else if r.kind = .atomic then refuse s 0x25 r.part r.addr
  else if r.kind = .write then
    if inTallyWindow o then tallyWindowWrite s r.part o r.data.length (leVal r.data)
    else emit (if isHostReg (baseOf o) then s else writeMap s r.part o r.data.length (leVal r.data)) .ack
  else if inTallyWindow o then readTallyWindow s r.part o r.len
  else if isHostReg (baseOf o) then emit s (.zeroData r.len)
  else
    match regOff s o with
    | some d => emit (record s { cls := 0x30, kind := 12, index := d, part := some r.part, addr := r.addr }) (.zeroData r.len)
    | none => emit s (.readData (leBytes r.len (regRead s o r.len)) [])

/-- The registers that hold the BUSY bits of the posted blocks (Table 16-3). -/
def isBusyReg (o : Nat) : Bool :=
  o = 0x1_0008 || o = 0x40_0008 || (0x50_0000 ≤ o && o < 0x50_0C00 && o % 0x100 = 0) || o = 0x70_0000

/-- A read of a posted block's register waits for the write that is on its way; that of the BUSY bit's register does not (R504). -/
def regWaits (s : State) (r : MemReq) : Bool :=
  match regionOf r.addr with
  | .regs o =>
    decide (r.kind = .read ∧ r.part = 0) && !isBusyReg (baseOf o) && (postedBlock o).any fun b => blockBusy s b
  | _ => false

/-! ### The request -/

/-- A request at a local address that waits for nothing (R27-R33, R282, R301). -/
def memoryRequest (s : State) (r : MemReq) : State :=
  match reqFault s r with
  | some (c, a) => refuse s c r.part a
  | none =>
    match regionOf r.addr with
    | .site n off => serveAperture s r n off
    | .regs o => serveRegisters s r o
    | _ => serveMemory s r

/-- What a request at a local address waits for, if it does: the lines of HBM or scratch that agents hold or that earlier requests wait
for (R242, R248); or intake, where it writes a row record in the commit window (R77). One that is refused waits for nothing. -/
def reqLines (s : State) (r : MemReq) : Option (List Nat × Bool) :=
  if (reqFault s r).isSome ∨ r.kind = .atomic then none
  else
    match regionOf r.addr with
    | .bin _ _ => if r.kind = .write ∧ reachesShoe r ∧ s.turn.commit then some ([], true) else none
    | .hbm => held
    | .scratch => held
    | _ => none
where
  held : Option (List Nat × Bool) :=
    if (conflicts s r.addr (reqSize r) (decide (r.kind = .write))).isEmpty then none else some (lineSpan r.addr (reqSize r), false)

/-- A request served for its issuer. A refused access of the host is recorded under class 0x85 as well, and a write of the host is posted:
it answers nothing (R479, R480). -/
def serveFor (s : State) (r : MemReq) : State :=
  match r.issuer with
  | .host f =>
    let t := memoryRequest { s with out := [] } r
    let o := if r.kind = .write then t.out.filter fun x => !isAnswer x else t.out
    let t1 := { t with out := s.out ++ o }
    if t.out.contains .errorCompletion then
      recordCount t1 { cls := 0x85, kind := 8, index := f, part := some r.part, addr := r.addr }
    else t1
  | _ => memoryRequest s r

/-- A request at a local address arrives: it is served, or takes its place (R242). -/
def arriveLocal (s : State) (r : MemReq) : State :=
  if regWaits s r then enqueue s (.mem r) [] true false
  else
    match reqLines s r with
    | some (l, tick) => enqueue s (.mem r) l (decide (r.kind ≠ .write)) tick
    | none => serveFor s r

/-- Numbers of the requests of rows on the Leat ports (log entry 23). -/
def ownTag (k : Nat) : Nat := (120 + k) * 32 + 30

/-- The class under which its share class or an epoch refuses a request where it is issued (R268, R301). -/
def issueFault (s : State) (r : MemReq) : Option Nat :=
  if (classFor s.set r.part (issuerShare r.issuer r.share)).isNone then some 0x34 else epochFault s r.issuer r.epoch r.ctx

/-- A request of a unit of this hub for another hub's memory leaves by a port, or waits for a number (R36, R273, R286). The Leat
packets of Table 11-4 carry no atomic operation but those of mint cells, and no byte mask: such a request is refused under class 0x25
(log entry 23). -/
def sendAbroad (s : State) (r : MemReq) : State :=
  let h := hubOf r.addr
  match (abroadFault s r.part h).orElse fun _ => issueFault s r with
  | some c => refuse s c r.part r.addr
  | none =>
    if r.kind = .atomic ∨ !r.mask.all id then refuse s 0x25 r.part r.addr
    else if s.leat.own.length ≥ 8 then enqueue s (.mem r) [] true false
    else
      let k := freeTag (s.leat.own.map Abroad.num) 8
      let share := (issuerShare r.issuer r.share).val
      let (s1, e) := sendAccess s k r.ctx r.part h share (decide (r.kind = .read)) (ownTag k) (localOf r.addr) r.len r.data r.poison
      { s1 with leat := { s1.leat with own := s1.leat.own ++ [e] } }

/-- A request of a unit of this hub at a physical address (R36). -/
def arrive (s : State) (r : MemReq) : State :=
  let h := hubOf r.addr
  if h ≠ 0 ∧ h ≠ s.leat.hub then sendAbroad s r else arriveLocal s { r with addr := localOf r.addr }

/-- MEMORY_ACCESS (R282). -/
def execMemoryAccess (r : MemReq) (s : State) : Host.Outcome State Fault Refusal :=
  act s fun t => if domainOn t 28 then arrive t r else t

/-- RD_CUR: an uncached read (R248). -/
def execRdCur (r : MemReq) (s : State) : Host.Outcome State Fault Refusal :=
  act s fun t => if domainOn t 28 then arrive t { r with kind := .read } else t

/-- WR_INV: an uncached write (R248). -/
def execWrInv (r : MemReq) (s : State) : Host.Outcome State Fault Refusal :=
  act s fun t => if domainOn t 28 then arrive t { r with kind := .write } else t

/-! ### Requests of other hubs -/

/-- A request of another hub at a local address, as a partition. -/
def remoteAt (q : RemoteReq) (p : Fin 16) (a : Nat) : MemReq :=
  { issuer := .leatPort 0, epoch := 0, part := p, ctx := none, kind := q.kind, addr := a, len := q.len, data := q.data,
    mask := [], poison := allUnits a q.data.length q.poison, share := q.share, hint := 0, target := 0, ecc := .clean }

/-- A tally operation of another hub, where a request is one (R319). -/
def remoteTally (q : RemoteReq) (p : Fin 16) (a : Nat) : Option (TallyReq × Nat) :=
  match regionOf a with
  | .regs o =>
    if inTallyWindow o ∧ q.kind = .write ∧ o % 8 = 0 then
      let t : Fin 16384 := ⟨(o - 0x80_0000) / 8 % 16384, Nat.mod_lt _ (by decide)⟩
      let v := leVal q.data
      some ({ tally := t, word := BitVec.ofNat 64 v, width := q.data.length, part := p, remote := true },
        if bits v 34 32 = 1 then 1 else 2)
    else none
  | _ => none

/-- A request of another hub is served: tally operations carry that they came over a Leat port (R319). -/
def serveRemote (s : State) (q : RemoteReq) (p : Fin 16) (a : Nat) : State :=
  match remoteTally q p a with
  | some (t, op) => tallyWrite s t op
  | none => arriveLocal s (remoteAt q p a)

/-- A window matches a request of a hub at an address (R287). -/
def Window.hits (w : Window) (hub a : Nat) : Bool :=
  w.valid && decide ((hub &&& w.srcMask) = (w.srcHub &&& w.srcMask)) && w.inBase ≤ a && a < w.inBase + 2 ^ w.sizeLog2

def Window.allows (w : Window) : Access → Bool
  | .read => w.read
  | .write => w.write
  | .atomic => w.atomic

/-- The window that applies: highest PRIORITY, then lowest index (R287). -/
def windowFor (s : State) (hub a : Nat) : Option Window :=
  let hits := (List.range 64).filter fun n => (s.set.windowOf n).hits hub a
  let best := maxOf (hits.map fun n => (s.set.windowOf n).prio)
  (hits.find? fun n => (s.set.windowOf n).prio = best).map s.set.windowOf

/-- A window's output address may be reached: memory, or the tally window in WINDOW mode (R290). -/
def windowTarget (s : State) (a : Nat) : Bool :=
  match regionOf a with
  | .regs o => inTallyWindow o && s.set.windowMode
  | _ => true

/-- WINDOW_REQUEST (R286, R287, R290). -/
def execWindowRequest (q : RemoteReq) (s : State) : Host.Outcome State Fault Refusal :=
  act s fun t =>
    if !domainOn t 28 then t
    else if q.part ≠ 0 then refuse t 0x45 q.part q.addr
    else
      let a := localOf q.addr
      match windowFor t q.srcHub a with
      | some w =>
        let out := w.outBase + (a - w.inBase)
        if !w.allows q.kind ∨ !windowTarget t out then refuse t 0x45 q.part q.addr
        else serveRemote t q ⟨w.part % 16, Nat.mod_lt _ (by decide)⟩ out
      | none => refuse t 0x45 q.part q.addr

/-- DIRECT_REQUEST (R285). -/
def execDirectRequest (q : RemoteReq) (s : State) : Host.Outcome State Fault Refusal :=
  act s fun t =>
    if !domainOn t 28 then t
    else if t.set.windowMode then refuse t 0x46 q.part q.addr
    else serveRemote t q q.part (localOf q.addr)

/-! ### Atomics -/

/-- The class under which an atomic or mint operation is refused at its slice, if it is: no share class 0x34, its epochs, outside backed
scratch 0x25 — a translation fault, 0x41, for a reduction's —, a slice that is off 0x30, the deed 0x42 (R27, R190, R208, R214, R282). -/
def atomFault (s : State) (q : AtomReq) : Option Nat :=
  if (classFor s.set q.part (issuerShare q.issuer q.share)).isNone then some 0x34
  else
    match epochFault s q.issuer q.epoch q.ctx with
    | some c => some c
    | none =>
      match regionOf q.addr, accessFault s q.part .atomic q.addr with
      | .scratch, some 0x25 => some (if q.reduction then 0x41 else 0x25)
      | .scratch, c => c
      | _, _ => some (if q.reduction then 0x41 else 0x25)

/-- An atomic or mint operation at its slice: refused, or applied (R181, R214). -/
def atomNow (s : State) (q : AtomReq) (op : AtomOp) : State :=
  match atomFault s q with
  | some c => refuse s c q.part q.addr
  | none => applyAtom s q op

/-- An atomic or mint operation arrives at its slice: lines that agents hold are invalidated first (R242, R248). -/
def atomicOp (s : State) (q : AtomReq) (op : AtomOp) : State :=
  let held := conflicts s q.addr 1 true
  if (atomFault s q).isNone && !held.isEmpty then enqueue s (.atom q op) held false false else atomNow s q op

/-- A row of the Granary's atomic operations: the slice answers where PD28 is on. -/
def atomRow (s : State) (q : AtomReq) (op : AtomOp) : Host.Outcome State Fault Refusal :=
  act s fun t => if domainOn t 28 then atomicOp t q op else t

/-- MINT_INIT (R176). -/
def execMintInit (q : AtomReq) (anchor : Int) (s : State) : Host.Outcome State Fault Refusal := atomRow s q (.mintInit anchor)

/-- MINT_ADD (R178). -/
def execMintAdd (q : AtomReq) (w : MintWord) (s : State) : Host.Outcome State Fault Refusal := atomRow s q (.mintAdd w)

/-- MINT_READ (R179). -/
def execMintRead (q : AtomReq) (s : State) : Host.Outcome State Fault Refusal := atomRow s q .mintRead

/-- CELL_PUT (R176, R188). -/
def execCellPut (q : AtomReq) (w : MintWord) (err : Option (Fin 8)) (s : State) : Host.Outcome State Fault Refusal :=
  atomRow s q (.put w (err.map Fin.val))

/-- IADD (R181). -/
def execIadd (q : AtomReq) (w64 : Bool) (v : Nat) (s : State) : Host.Outcome State Fault Refusal := atomRow s q (.iadd w64 false v)

/-- IADD_FETCH (R181). -/
def execIaddFetch (q : AtomReq) (w64 : Bool) (v : Nat) (s : State) : Host.Outcome State Fault Refusal :=
  atomRow s q (.iadd w64 true v)

/-- CAS (R181). -/
def execCas (q : AtomReq) (w64 : Bool) (cmp new : Nat) (s : State) : Host.Outcome State Fault Refusal :=
  atomRow s q (.cas w64 cmp new)

/-- FMAX (R182). -/
def execFmax (q : AtomReq) (bf16 : Bool) (v : Nat) (s : State) : Host.Outcome State Fault Refusal :=
  atomRow s q (.fpick true bf16 v)

/-- FMIN (R182). -/
def execFmin (q : AtomReq) (bf16 : Bool) (v : Nat) (s : State) : Host.Outcome State Fault Refusal :=
  atomRow s q (.fpick false bf16 v)

end Sys2Proof.Machine
end

