-- ==== Sys2Proof/Machine/Measures.lean ====
section
/-! DEFINITION. The images in the flash banks and the measurements that the RTP takes (R567, R589-R592, R598, R604). -/

namespace Sys2Proof.Machine

/-! ### Banks -/

def bankOf (s : State) (b : Nat) : FlashBank := s.fw.bank.get b FlashBank.reset

def setBank (s : State) (b : Nat) (v : FlashBank) : State := { s with fw := { s.fw with bank := s.fw.bank.put b v } }

/-- Flash offset of a bank (Table 20-1). -/
def bankBase (b : Nat) : Nat := if b = 0 then 0x10_0000 else 0x1D0_0000

def erasedChunk : Bytes := List.replicate 4096 0xFF#8

/-- The 4 KiB at a chunk's place. -/
def FlashBank.at_ (k : FlashBank) (c : Nat) : Bytes := k.chunk.get c erasedChunk

/-- The bytes of a range of a bank's image. -/
def FlashBank.range (k : FlashBank) (off n : Nat) : Bytes :=
  sub ((upto (off / 4096) ((off % 4096 + n + 4095) / 4096)).flatMap k.at_) (off % 4096) n

/-- A field of the image header (Table 20-2). -/
def FlashBank.head (k : FlashBank) (off n : Nat) : Nat := rd (k.at_ 0) off n

def FlashBank.protoMax (k : FlashBank) : Nat := k.head 6 2
def FlashBank.version (k : FlashBank) : Nat := k.head 16 8

/-- The Kyohar section of a bank's image. -/
def FlashBank.kyohar (k : FlashBank) : Bytes := k.range (k.head 32 4) (k.head 36 4)

/-- Bytes `off` on, `n` of them, are erased or zero as the header has them reserved. -/
def FlashBank.zeros (k : FlashBank) (off n : Nat) : Bool := k.head off n = 0

/-- The rules of Table 20-2. -/
def FlashBank.headOk (k : FlashBank) : Bool :=
  let len := k.head 8 4
  k.head 0 4 = 0x4D49_5746 && k.head 4 2 = 1 && 1 ≤ k.protoMax && len % 4096 = 0 && 4096 ≤ len && len ≤ 29_294_592 &&
    k.head 12 2 = len / 4096 && k.zeros 14 2 && k.head 24 8 ≠ 0 && k.head 32 4 + k.head 36 4 ≤ len &&
    k.head 40 4 + k.head 44 4 ≤ len && k.zeros 48 16

/-- Digest, key and signature of a bank's image (R580, R592). -/
def imageSigned (s : State) (k : FlashBank) : Bool :=
  let b := k.range 0 (k.head 8 4)
  let msg := b.take 160 ++ List.replicate 96 0#8 ++ b.drop 256
  sha384 (sub b 64 96) = s.fuse.fwKeyHash && signedBy (sub b 64 96) (sub b 160 96) msg

/-- A bank passes verification; at a warm start its PROTO_MAX is held against the floor as well (R598). -/
def bankGood (s : State) (warm : Bool) (b : Nat) : Bool :=
  let k := bankOf s b
  k.headOk && imageSigned s k && !(warm && k.protoMax < s.set.protoFloor)

/-- The bank that the boot record of highest GEN selects; bank 0 without one (R590). -/
def selectedBank (s : State) : Nat :=
  match s.fw.records.foldl (fun (a : Option (Nat × Nat × Nat)) r =>
      match a with | some x => if x.1 < r.1 then some r else some x | none => some r) none with
  | some r => r.2.1
  | none => 0

/-- GEN of the boot record in force. -/
def bootGen (s : State) : Nat := maxOf (s.fw.records.map Prod.fst)

/-! ### Measurements -/

/-- The state of SEC_SEALED and the three locks, which measurement 6 covers (Table 19-7). -/
def lockWords (s : State) : List Nat := [secSealed s, flag s.glob.xlateLock, flag s.glob.cfgLock, flag s.turn.cfgLock]

/-- A measurement as it stands: 1 to 5 as last taken, 6 taken again at every change (R567). -/
def measureOf (s : State) (n : Nat) : Nat := if n = 6 then Config.measurement 6 (lockWords s) else s.sec.measured.get n 0

/-- The six measurements. -/
def measurements (s : State) : List Nat := (upto 1 6).map (measureOf s)

/-- The measurements that a boot takes (R567). Measurement 2 is of the bank that runs. -/
def takeMeasures (s : State) : State :=
  let m := s.sec.measured
  let m1 := m.put 1 (Config.measurement 1 [])
  let m2 := m1.put 2 (sha384 (bankOf s s.boot.bank).kyohar)
  let m3 := m2.put 3 (Config.measurement 3 [s.otp.sealBits.toNat, s.otp.ownerHash])
  let f := s.fuse
  let m4 := m3.put 4 (Config.measurement 4 (f.excluded ++ f.rowRepairs ++ f.laneMaps ++ f.siteRepairs ++ [f.unitId, f.endorsement]))
  let w := s.sec.warrants.flatMap fun w => [w.serial, w.signer, w.rights.toNat, w.expiry]
  { s with sec := { s.sec with measured := m4.put 5 (if w.isEmpty then 0 else Config.measurement 5 w) } }

end Sys2Proof.Machine
end

