-- ==== Sys2Proof/Machine/Work.lean ====
section
/-! DEFINITION. What arrays, engines and sites share: the jobs that their plan slots become, which of them may run, the next
descriptor of a job, its wait and its raise (R47, R50, R74-R77, R91, R146-R148, R322). -/

namespace Sys2Proof.Machine

/-! ### Jobs -/

def jobsOf (s : State) : Work → List Job
  | .array n => (logArr s n).jobs
  | .dma n => (engine s n).jobs
  | .site n => (siteOf s n).jobs
  | .cmd _ => []

def setJobs (s : State) (w : Work) (l : List Job) : State :=
  match w with
  | .array n => setLog s n { logArr s n with jobs := l }
  | .dma n => setEngine s n { engine s n with jobs := l }
  | .site n => setSite s n { siteOf s n with jobs := l }
  | .cmd _ => s

/-- Two jobs are the same slot in the same Turn. -/
def Job.same (a b : Job) : Bool := a.handle = b.handle && a.slot = b.slot && a.turn = b.turn

def mapJob (s : State) (w : Work) (j : Job) (f : Job → Job) : State :=
  setJobs s w ((jobsOf s w).map fun x => if x.same j then f x else x)

/-- The job as the queue holds it now. -/
def jobNow (s : State) (w : Work) (j : Job) : Option Job := (jobsOf s w).find? fun x => x.same j

/-- A job's slot may run in the bucket in progress: its own run, past it under R75, or the tailrace (R76, R77); none does while the
Turn parameters disagree with the Headrace's (R91). -/
def runnable (s : State) (w : Work) (j : Job) : Bool :=
  !s.turn.commit && !s.turn.mismatch && !j.suspended &&
    (inTailrace s || j.overrun || activeAt s (workRes w) s.turn.bucket = some (j.handle, j.slot))

/-- A job goes on after the end of its slot's run: the bucket in progress is not one of its slot, or its Turn is over. -/
def jobLate (s : State) (w : Work) (j : Job) : Bool :=
  inTailrace s || j.turn != now s || activeAt s (workRes w) s.turn.bucket != some (j.handle, j.slot)

/-- The wait of a job's next descriptor goes on as it stood when the queue turned to other work. -/
def wakeJob (s : State) (w : Work) (j : Job) : State :=
  match waitOf s w, jobNow s w j with
  | .none, some x =>
    if x.saved = .none then s else setWait (mapJob s w j fun y => { y with saved := .none }) w x.saved
  | _, _ => s

/-! ### Descriptors -/

/-- A descriptor runs in the iteration j of its plan (R146). -/
def Common.runsAt (c : Common) (j : Nat) : Bool :=
  c.iterFirst ≤ j && (c.iterCount = 0 || j < c.iterFirst + c.iterCount)

/-- Its iteration index there. -/
def Common.indexAt (c : Common) (j : Nat) : Nat := (j - c.iterFirst) % c.iterMod

/-- A job's plan, slot and j. -/
def jobPlan (s : State) (j : Job) : Option (Plan × Slot × Nat) :=
  match planOf s j.handle with
  | some p =>
    match p.slots[j.slot]? with
    | some sl => some (p, sl, j.turn - p.tAct)
    | none => none
  | none => none

/-- The next descriptor of a job that runs in its Turn, with its place; those that do not are skipped (R146). -/
def nextDesc (s : State) (j : Job) : Option (Nat × Desc) :=
  match jobPlan s j with
  | some (_, sl, n) => ((indexed sl.descs).drop j.next).find? fun x => x.2.c.runsAt n
  | none => none

/-- The job that a queue works on now: the first that may run and has a descriptor left. -/
def currentJob (s : State) (w : Work) : Option Job :=
  (jobsOf s w).find? fun j => runnable s w j && (nextDesc s j).isSome

/-- A job has passed a descriptor. -/
def passDesc (s : State) (w : Work) (j : Job) (k : Nat) : State := mapJob s w j fun x => { x with next := k + 1 }

/-- A tally that a raise of the descriptor would be refused, or none (R322): local raises only. -/
def badRaise (s : State) (p : Nat) (c : Common) (hub : Option Nat) : Bool :=
  c.raiseEn && (hub = none || hub = some s.leat.hub) && !mayTally s c.raiseTally p

/-- What the wait of a descriptor comes to now. -/
inductive Gate where
  | go | wait | skip
  deriving DecidableEq, Repr

/-- The wait of the next descriptor of a queue: filed where it has not been, and answered (R147, R322). -/
def gate (s : State) (w : Work) (c : Common) (p : Nat) (hub : Option Nat) : State × Gate :=
  let answer := fun (t : State) =>
    match waitOf t w with
    | .released => (setWait t w .none, Gate.go)
    | .stale => (setWait t w .none, .skip)
    | _ => (t, .wait)
  match waitOf s w with
  | .none =>
    if badRaise s p c hub then (record s (tallyRec 0x53 c.raiseTally p), .skip)
    else if c.waitEn then answer (fileWait s w c.waitTally c.waitN c.waitSub p)
    else (s, .go)
  | _ => answer s

/-- RAISE_HUB of a descriptor. -/
def Body.hub : Body → Option Nat
  | .red d => d.raiseHub
  | .dma d => d.raiseHub
  | .site d => d.raiseHub
  | _ => none

/-- The ledger groups that belong to a descriptor end with it (R534). -/
def ownerOfDma (de : Nat) (isCmd : Bool) : Nat := 1 + de * 2 + flag isCmd
def ownerOfArray (la : Nat) : Nat := 200 + la
def ownerOfSite (n : Nat) : Nat := 500 + n

def ownerOfWork : Work → Nat
  | .array la => ownerOfArray la
  | .dma de => ownerOfDma de false
  | .cmd de => ownerOfDma de true
  | .site n => ownerOfSite n

/-- Unit kind of a queue of work (Table 18-1). -/
def unitKindOf : Work → Nat
  | .array _ => 1
  | .site _ => 7
  | _ => 2

/-- The unit that translates for a queue of work. -/
def xlateUnit : Work → Nat
  | .site n => 64 + n
  | .dma de => de
  | .cmd de => de
  | .array _ => 0

/-- The raise of a descriptor: the local tally, or another hub's by a tally packet of the unit; one that may not leave is recorded, for
the resource of its queue. `events` is the EVENTS byte of its status record, by virtual address, for a refusal to come (R36, R148, R194,
R286, R322, R330). -/
def raiseTo (s : State) (w : Work) (ctx : Nat × Nat) (p tag : Nat) (c : Common) (hub : Option Nat) (events : Option (Nat × Nat)) : State :=
  let far := hub.filter fun h => h ≠ s.leat.hub
  match far with
  | none => (tallyOp s c.raiseTally false c.raiseAmount p false).1
  | some h =>
    match abroadFault s p h with
    | some cls => recordIn s (ownerOfWork w) { cls := cls, kind := unitKindOf w, index := (workRes w).index, part := some p, task := c.task }
    | none =>
      let e : FarRaise := { tag := tag, unit := xlateUnit w, ctx := ctx.1, part := p, share := c.task % 64, events := events }
      sendTally { s with leat := { s.leat with raises := s.leat.raises ++ [e] } } (some ctx) p h (c.task % 64) tag c.raiseTally false
        c.raiseAmount

end Sys2Proof.Machine
end

