-- ==== Sys2Proof/Machine/DeedCommands.lean ====
section
/-! DEFINITION. Deeds and their changes, windows written at once, poison records, page retirement, scrubbing and the loss of HBM
(R215, R225, R232-R235, R280-R284, R289, R291). -/

namespace Sys2Proof.Machine

/-! ### DEED_SET -/

/-- The granule address of a parameter: PA[40:21], every other bit zero (Table 8-8). -/
def granuleOf (v : Nat) : Option Nat := if v % granule = 0 ∧ v < 2 ^ 41 then some (v / granule) else none

/-- The granules of a run, all within the fitted HBM, the backed scratch or the bins: the parameter at fault where not. -/
def runFault (s : State) (addr count iAddr iCount : Nat) : Option Nat :=
  match granuleOf addr with
  | none => some iAddr
  | some g =>
    if !isMemory s (g * granule) granule then some iAddr
    else if count = 0 ∨ count > 155648 ∨ !isMemory s (g * granule) (count * granule) then some iCount
    else none

/-- The partition that a deed gives its granule to. -/
def Deed.holder (d : Deed) : Option Nat := if d.kind = .none then none else some d.owner

/-- A change of deed that R215 has zeroed first: to another partition, or to none. -/
def Deed.zeroes (old new : Deed) : Bool := old.holder ≠ new.holder

def deedOf (s : State) (g : Nat) : Deed := s.mem.deeds.get g Deed.reset

def setDeed (s : State) (g : Nat) (d : Deed) : State :=
  { s with mem := { s.mem with deeds := if d = Deed.reset then s.mem.deeds.drop g else s.mem.deeds.put g d } }

/-- The plan store of an admitted or active plan lies in a run. -/
def storeInRun (s : State) (g n : Nat) : Bool :=
  s.plans.plan.any fun x =>
    let p := x.2
    decide (p.state ≠ .loaded) && p.store < (g + n) * granule && g * granule < p.store + p.totalLen

def moveInRun (s : State) (g n : Nat) : Bool := s.mem.moves.any fun m => m.first < g + n && g < m.first + m.count

/-- The Turn that a command with a boundary names: 0 is the next boundary, an earlier one has passed. -/
def boundaryFor (s : State) (t : Nat) : Except Ending Nat :=
  if t = 0 then .ok (turnMod (now s + 1))
  else if t ≤ now s then .error (.done .turnPassed (now s + 1) none none)
  else .ok t

/-- A run is moved to NONE and its lines are recalled (R249, R283). -/
def emptyRun (s : State) (g n : Nat) : State :=
  (upto g n).foldl (fun a k => clearGranule (setDeed a k Deed.reset) k) s

/-- The work of DEED_SET (R283, R284). -/
def deedSetBody (c : Packet) (s : State) (r : ReplyTo) : State × Ending :=
  if partOf c ≠ 0 then (s, denied)
  else
    reservedFrom c 4 s fun _ =>
      let n := c.p1.toNat
      match runFault s c.p0.toNat n 0 1 with
      | some i => (s, bad i)
      | none =>
        let g := c.p0.toNat / granule
        match Deed.ofWord c.p2.toNat with
        | none => (s, bad 2)
        | some d =>
          if storeInRun s g n ∨ moveInRun s g n then (s, busy 0)
          else
            match boundaryFor s c.p3.toNat with
            | .error e => (s, e)
            | .ok t =>
              let z := (upto g n).any fun k => (deedOf s k).zeroes d
              let m : DeedMove := { first := g, count := n, deed := d, turn := t, zeroing := z, zeroed := false, reply := r }
              let s1 := { s with mem := { s.mem with moves := s.mem.moves ++ [m] } }
              (if z then emptyRun s1 g n else s1, .interim t)

/-- DEED_SET (R283). -/
def execDeedSet (c : Packet) (s : State) : Host.Outcome State Fault Refusal :=
  command 0x0310 noPayload c s (deedSetBody c)

/-- A run that has been reported zeroed holds zero once the snoops of R249 are over in it: what they discard never lands there. -/
def zeroRun (s : State) (m : DeedMove) : State :=
  if m.zeroing && m.zeroed && (upto m.first m.count).all (granuleQuiet s) then
    let z := (upto m.first m.count).foldl (fun (a : State) g => { a with mem := a.mem.zero (keyOf a (g * granule)) granule }) s
    { z with mem := { z.mem with
        moves := z.mem.moves.map fun x => if x.first = m.first then { x with zeroing := false } else x } }
  else s

def zeroRuns (s : State) : State := s.mem.moves.foldl zeroRun s

/-- DEED_ZEROING_COMPLETE (R283): the zeros of the run whose first granule is named have been written. -/
def execDeedZeroingComplete (first : Nat) (s : State) : Host.Outcome State Fault Refusal :=
  act s fun t =>
    zeroRuns { t with mem := { t.mem with
      moves := t.mem.moves.map fun x => if x.first = first then { x with zeroed := true } else x } }

/-- A deed change takes effect, with its final reply (R283). -/
def deedDue (turn : Nat) (s : State) (m : DeedMove) : State :=
  if m.turn ≤ turn ∧ !m.zeroing then
    let s1 := (upto m.first m.count).foldl (fun a g => setDeed a g m.deed) s
    let s2 := { s1 with mem := { s1.mem with moves := s1.mem.moves.filter fun x => x.first ≠ m.first } }
    postFinal s2 m.reply .ok m.count (some turn) none
  else s

/-- The deed changes of a boundary. -/
def deedsDue (s : State) (turn : Nat) : State := let z := zeroRuns s; z.mem.moves.foldl (deedDue turn) z

/-- The work of DEED_READ (R284). -/
def deedReadBody (c : Packet) (s : State) (_ : ReplyTo) : State × Ending :=
  reservedFrom c 3 s fun _ =>
    let n := c.p2.toNat
    match runFault s c.p1.toNat n 1 2 with
    | some i => (s, bad i)
    | none =>
      let p := partOf c
      (s, output n c.p0.toNat ((upto (c.p1.toNat / granule) n).flatMap fun g =>
        let d := deedOf s g
        leBytes 4 (if p = 0 ∨ d.names p then d.word else 3)))

/-- DEED_READ (R284). -/
def execDeedRead (c : Packet) (s : State) : Host.Outcome State Fault Refusal :=
  command 0x0311 noPayload c s (deedReadBody c)

/-! ### Windows written at once -/

def writeWindow (s : State) (n : Nat) (e : Bytes) : State :=
  { s with set := { s.set with window := s.set.window.put n (windowOfBytes e) },
           xlate := { s.xlate with forced := true } }

/-- The work of WIN_FORCE (R289). -/
def winForceBody (c : Packet) (entry : Option Bytes) (s : State) (_ : ReplyTo) : State × Ending :=
  if partOf c ≠ 0 then (s, denied)
  else
    reservedFrom c 2 s fun _ =>
      if s.glob.xlateLock then (lockedWrite s, denied)
      else if c.p0.toNat ≥ 64 then (s, bad 0)
      else
        match entry with
        | none => (hostRefused s, bad 1)
        | some e =>
          if e.length ≠ 32 ∨ !windowFormat e then (s, bad 1)
          else (writeWindow s c.p0.toNat e, okay c.p0.toNat)

/-- WIN_FORCE (R289). -/
def execWinForce (c : Packet) (entry : Option Bytes) (s : State) : Host.Outcome State Fault Refusal :=
  command 0x0320 noPayload c s (winForceBody c entry)

/-- TEST_WINDOW_WRITE: the test network, while the TEST path is open (R289, R579). -/
def execTestWindowWrite (win : Fin 64) (entry : Bytes) (s : State) : Host.Outcome State Fault Refusal :=
  act s fun t =>
    if !domainOn t 28 then t
    else if !pathOpen t .test then recordCount t { cls := 0xA6, kind := 10 }
    else if t.glob.xlateLock then lockedWrite t
    else writeWindow t win (sub entry 0 32)

/-! ### Memory commands -/

/-- A poison record (Table 6-5). -/
def PoisonRec.bytes (p : PoisonRec) : Bytes :=
  leBytes 6 p.addr ++ leBytes 1 p.source ++ leBytes 1 p.symbols ++ leBytes 6 p.turn ++ leBytes 2 0

/-- The work of MEM_POISON_READ (R235). -/
def memPoisonReadBody (c : Packet) (s : State) (_ : ReplyTo) : State × Ending :=
  reservedFrom c 3 s fun _ =>
    if c.p1.toNat % 16 ≠ 0 then (s, bad 1)
    else
      let p := partOf c
      let mine := s.mem.records.filter fun x => p = 0 || (deedAt s x.addr).names p
      let out := (mine.drop c.p2.toNat).take (bufLen c c.p1.toNat / 16)
      (s, output out.length c.p0.toNat (out.flatMap PoisonRec.bytes))

/-- MEM_POISON_READ (R235). -/
def execMemPoisonRead (c : Packet) (s : State) : Host.Outcome State Fault Refusal :=
  command 0x0340 noPayload c s (memPoisonReadBody c)

/-- The work of MEM_RETIRE (R234, R235). -/
def memRetireBody (c : Packet) (s : State) (_ : ReplyTo) : State × Ending :=
  if partOf c ≠ 0 then (s, denied)
  else
    reservedFrom c 2 s fun _ =>
      let a := c.p0.toNat
      let set := fun (l : List Nat) => ({ s with mem := { s.mem with retired := l } }, okay l.length)
      if a % 65536 ≠ 0 ∨ a ≥ fitted s then (s, bad 0)
      else if c.p1.toNat > 1 then (s, bad 1)
      else if c.p1.toNat = 1 then set (without s.mem.retired (a / 65536))
      else if !s.mem.retired.contains (a / 65536) && s.mem.retired.length ≥ 4096 then (s, busy 0)
      else set (addNew s.mem.retired (a / 65536))

/-- MEM_RETIRE (R234). -/
def execMemRetire (c : Packet) (s : State) : Host.Outcome State Fault Refusal :=
  command 0x0341 noPayload c s (memRetireBody c)

/-- The work of MEM_RETIRE_LIST: addresses of eight bytes each (Table 6-4). -/
def memRetireListBody (c : Packet) (s : State) (_ : ReplyTo) : State × Ending :=
  if partOf c ≠ 0 then (s, denied)
  else
    reservedFrom c 2 s fun _ =>
      if c.p1.toNat % 8 ≠ 0 then (s, bad 1)
      else
        let out := s.mem.retired.take (bufLen c c.p1.toNat / 8)
        (s, output out.length c.p0.toNat (out.flatMap fun k => leBytes 8 (k * 65536)))

/-- MEM_RETIRE_LIST (R234). -/
def execMemRetireList (c : Packet) (s : State) : Host.Outcome State Fault Refusal :=
  command 0x0342 noPayload c s (memRetireListBody c)

/-- The work of MEM_SCRUB (R232). -/
def memScrubBody (c : Packet) (s : State) (_ : ReplyTo) : State × Ending :=
  if partOf c ≠ 0 then (s, denied)
  else
    reservedFrom c 1 s fun _ =>
      let h := c.p0.toNat
      if h = 0 ∨ h > 720 then (s, bad 0)
      else ({ s with mem := { s.mem with scrubHours := h } }, okay h)

/-- MEM_SCRUB (R232). -/
def execMemScrub (c : Packet) (s : State) : Host.Outcome State Fault Refusal :=
  command 0x0343 noPayload c s (memScrubBody c)

/-! ### Scrubbing and losses -/

/-- The scrubber may read an address in the bucket in progress: no plan claims its channel group, or its slice, where the line lies in the
Granary (R232). -/
def scrubFree (s : State) (addr : Nat) : Bool :=
  let line := addr / 128
  let slice := !s.turn.commit && (inTailrace s || !activeClaim s { type := 5, index := sliceOf line } s.turn.bucket)
  match regionOf addr with
  | .hbm => if (cacheLine s line).isSome then slice else groupFree s (chanGroup line)
  | _ => slice

/-- SCRUB_READ: a patrol read of HBM or the Granary, and what it found (R226-R232). -/
def execScrubRead (addr : Nat) (e : EccResult) (s : State) : Host.Outcome State Fault Refusal :=
  act s fun t =>
    match regionOf addr with
    | .hbm => if (addrFault t addr).isNone && !lostAt t addr && scrubFree t addr then foundError t addr 0 e else t
    | .scratch => if (addrFault t addr).isNone && scrubFree t addr then foundError t addr 0 e else t
    | _ => t

/-- SCRUB_INTERVAL_END with its pass unfinished (R232). -/
def execScrubIntervalEnd (s : State) : Host.Outcome State Fault Refusal :=
  act s fun t => record t { cls := 0x2C, kind := 4 }

/-- HBM_CATTRIP (R225): the stack is out of service at once. -/
def execHbmCattrip (stack : Fin 8) (s : State) : Host.Outcome State Fault Refusal :=
  act s fun t =>
    record (setStack t stack { stackOf t stack with cattrip := true, trained := false }) { cls := 0x27, kind := 4, index := stack.val * 32 }

/-- PC_RETRAIN_FAIL (R233): lost from the next Turn boundary. -/
def execPcRetrainFail (stack : Fin 8) (pc : Fin 32) (s : State) : Host.Outcome State Fault Refusal :=
  act s fun t =>
    let h := stackOf t stack
    record (setStack t stack { h with pcNext := addNew h.pcNext pc })
      { cls := 0x26, kind := 4, index := stack.val * 32 + pc.val }

/-- The pseudo-channels of a stack that are lost from a boundary on; the capacity record of their group drops and the tariff
changes (R65, R233). -/
def losePc (s : State) (n : Nat) : State :=
  let h := stackOf s n
  if h.pcNext.isEmpty then s
  else
    let fresh := h.pcNext.filter fun p => !h.pcLost.contains p
    let s1 := setStack s n { h with pcNext := [], pcLost := h.pcLost ++ fresh }
    let bump := fun (t : Tbl Nat) (p : Nat) => let k := 2 * n + p / 16; t.put k (t.get k 0 + 1)
    { s1 with plans := { s1.plans with pcRec := fresh.foldl bump s1.plans.pcRec },
              glob := { s1.glob with tariffDirty := s1.glob.tariffDirty || !fresh.isEmpty } }

end Sys2Proof.Machine
end

