-- ==== Sys2Proof/Machine/XlateCommands.lean ====
section
/-! DEFINITION. Contexts and invalidations: CTX_BIND, CTX_ROOT, CTX_CLEAR, XLATE_INVAL, and a unit that does not acknowledge
(R264-R268, R275-R278, R291). -/

namespace Sys2Proof.Machine

/-! ### Work under a context -/

/-- The slot that a job runs. -/
def jobSlot (s : State) (j : Job) : Option Slot :=
  match planOf s j.handle with
  | some p => p.slots[j.slot]?
  | none => none

/-- The contexts of a site's calls: those of the slots they belong to. -/
def siteRunCtx (s : State) (x : Site) : List Nat :=
  (x.run.toList ++ x.parked).filterMap fun r => (jobSlot s r.job).map Slot.ctx

/-- The descriptors of an engine that have started and not completed. -/
def Engine.runs (e : Engine) : List DmaRun := e.run.toList ++ e.cmdRun.toList ++ e.parked

def Engine.mapRuns (e : Engine) (f : DmaRun → DmaRun) : Engine :=
  { e with run := e.run.map f, cmdRun := e.cmdRun.map f, parked := e.parked.map f }

/-- A DMA descriptor has requests in flight (R267, R276). -/
def DmaRun.inFlight (r : DmaRun) : Bool := !r.issued.isEmpty

/-- An invalidation concerns a context: the named one, or every context of its partition. -/
def Inval.hits (s : State) (v : Inval) (c : Nat) : Bool :=
  match v.ctx with
  | some k => k = c
  | none => (ctxOf s c).part = v.part

/-- A translating unit still has requests under entries that the invalidation drops: engines 0-63, site adapters 64-75. -/
def unitBusy (s : State) (v : Inval) (u : Nat) : Bool :=
  if u < 64 then
    (engine s u).runs.any fun x => v.hits s x.ctx && x.inFlight
  else (siteRunCtx s (siteOf s (u - 64))).any fun c => v.hits s c

/-- A cached translation overlaps the range of an invalidation (R276). -/
def Inval.drops (s : State) (v : Inval) (ctx va size : Nat) : Bool := v.hits s ctx && va < v.lo + v.len && v.lo < va + size

/-! ### Clearing and binding -/

/-- What CTX_CLEAR does last: the tallies and Shoe rows of the context (R136, R267, R321). -/
def clearWork (s : State) (c : Nat) (unbind : Bool) : State := clearShoe (clearTallies s c unbind) c (ctxOf s c).part

/-- The final reply of an invalidation: BUSY with the engine where one did not acknowledge (R278); DETAIL is the units for
XLATE_INVAL, the context's epoch otherwise (Table 8-8). -/
def invalReply (s : State) (v : Inval) : State :=
  match v.reply with
  | none => s
  | some r =>
    match v.lost with
    | u :: _ => postFinal s r .busy u none none
    | [] => postFinal s r .ok (match v.after with | some c => (ctxOf s c).epoch | none => 76) none none

/-- It belongs to a CTX_CLEAR: a command's, or that of an unbinding, which has no reply of its own. -/
def Inval.clears (v : Inval) : Bool := v.after.isSome && (match v.reply with | some r => r.opcode = 0x0304 | none => true)

/-- A context is being cleared: nothing starts or resumes under it (R267). -/
def clearing (s : State) (c : Nat) : Bool := s.xlate.invals.any fun v => v.after = some c && v.clears

/-- An invalidation ends: a clearing drops every translation of its context and clears, an unbinding goes on to its boundary (R267). -/
def endInval (s : State) (v : Inval) : State :=
  match v.after with
  | none => invalReply s v
  | some c =>
    let t := if v.clears then dropXents s fun k _ _ => k = c else s
    match v.reply with
    | none => clearWork t c true
    | some _ => invalReply (if v.clears then clearWork t c false else t) v

/-- An invalidation is applied: entries dropped; the units that must still acknowledge stay listed (R276). -/
def applyInval (s : State) (v : Inval) : State × Inval :=
  let s1 := dropXents s (v.drops s)
  (s1, { v with units := (List.range 76).filter (unitBusy s1 v) })

/-- Applied invalidations that every unit has acknowledged end; queued ones take their places, at most 16 at once (R277). -/
def advanceInvals : Nat → State → State
  | 0, s => s
  | n + 1, s =>
    let l := s.xlate.invals
    let act16 := (l.take 16).map fun v => { v with units := v.units.filter (unitBusy s v) }
    match act16.find? fun v => v.units.isEmpty with
    | none => { s with xlate := { s.xlate with invals := act16 ++ l.drop 16 } }
    | some _ =>
      let done := act16.filter fun v => v.units.isEmpty
      let left := act16.filter fun v => !v.units.isEmpty
      let next := (l.drop 16).take done.length
      let s1 := { s with xlate := { s.xlate with invals := left } }
      let s2 := next.foldl (fun a v =>
        let (b, w) := applyInval a v
        { b with xlate := { b.xlate with invals := b.xlate.invals ++ [w] } }) s1
      let s3 := { s2 with xlate := { s2.xlate with invals := s2.xlate.invals ++ l.drop (16 + done.length) } }
      advanceInvals n (done.foldl endInval s3)

/-- After a unit's requests have been acknowledged. -/
def settleInvals (s : State) : State := advanceInvals (s.xlate.invals.length + 1) s

/-- An invalidation is submitted (R276, R277). -/
def submitInval (s : State) (v : Inval) : State :=
  if s.xlate.invals.length < 16 then
    let (s1, w) := applyInval s v
    settleInvals { s1 with xlate := { s1.xlate with invals := s1.xlate.invals ++ [w] } }
  else { s with xlate := { s.xlate with invals := s.xlate.invals ++ [v] } }

/-- The invalidation of every translation of a context. -/
def wholeInval (s : State) (c : Nat) (r : Option ReplyTo) : Inval :=
  { ctx := some c, part := (ctxOf s c).part, lo := 0, len := 2 ^ 57, units := List.range 76, lost := [], reply := r,
    after := some c }

/-- CTX_CLEAR begins: a new epoch, under which no request of a descriptor that has started, and no packet that waits for a port, goes any
further; then the wait for those in flight (R267, R268). -/
def beginClear (s : State) (c : Nat) (r : Option ReplyTo) : State :=
  let x := ctxOf s c
  let s1 := releasePorts (setCtx s c { x with epoch := (x.epoch + 1) % 256 })
  submitInval s1 (wholeInval s1 c r)

/-- A command on a context is open to its partition and to partition 0 (Table 8-8). -/
def mayContext (s : State) (c : Packet) (n : Nat) : Bool := partOf c = 0 || boundTo s n (partOf c)

/-- The work of CTX_CLEAR (R267). -/
def ctxClearBody (c : Packet) (s : State) (r : ReplyTo) : State × Ending :=
  reservedFrom c 1 s fun _ =>
    let n := c.p0.toNat
    if n ≥ 4096 then (s, bad 0)
    else if !mayContext s c n then (s, denied)
    else (beginClear s n (some r), .later)

/-- CTX_CLEAR (R267). -/
def execCtxClear (c : Packet) (s : State) : Host.Outcome State Fault Refusal :=
  command 0x0304 noPayload c s (ctxClearBody c)

/-- A ROOT that CTX_ROOT accepts (R291). -/
def rootOk (s : State) (v : Nat) : Bool :=
  v = 0 || (v % 4096 = 0 && v < 2 ^ 58 && hubOf v = s.leat.hub &&
    (localOf v < fitted s || (scratchBase ≤ localOf v && localOf v < scratchBase + s.set.backed)))

/-- The work of CTX_ROOT (R275, R291). -/
def ctxRootBody (c : Packet) (s : State) (r : ReplyTo) : State × Ending :=
  reservedFrom c 2 s fun _ =>
    let n := c.p0.toNat
    if n ≥ 4096 then (s, bad 0)
    else if !mayContext s c n then (s, denied)
    else if !rootOk s c.p1.toNat then (s, bad 1)
    else
      let s1 := setCtx s n { ctxOf s n with root := c.p1.toNat }
      (submitInval s1 (wholeInval s1 n (some r)), .later)

/-- CTX_ROOT (R275). -/
def execCtxRoot (c : Packet) (s : State) : Host.Outcome State Fault Refusal :=
  command 0x0302 noPayload c s (ctxRootBody c)

/-- The work of XLATE_INVAL (R276). -/
def xlateInvalBody (c : Packet) (s : State) (r : ReplyTo) : State × Ending :=
  reservedFrom c 3 s fun _ =>
    let n := c.p0.toNat
    let lo := c.p1.toNat
    let len := c.p2.toNat
    if n ≥ 4096 ∧ n ≠ 0xFFFF then (s, bad 0)
    else if lo % 65536 ≠ 0 ∨ lo ≥ 2 ^ 57 then (s, bad 1)
    else if len % 65536 ≠ 0 ∨ (len ≠ 0 ∧ lo + len > 2 ^ 57) then (s, bad 2)
    else if n ≠ 0xFFFF ∧ !mayContext s c n then (s, denied)
    else
      let v : Inval := { ctx := if n = 0xFFFF then none else some n, part := partOf c, lo := if len = 0 then 0 else lo,
                         len := if len = 0 then 2 ^ 57 else len, units := List.range 76, lost := [], reply := some r,
                         after := none }
      (submitInval s v, .later)

/-- XLATE_INVAL (R276). -/
def execXlateInval (c : Packet) (s : State) : Host.Outcome State Fault Refusal :=
  command 0x0303 noPayload c s (xlateInvalBody c)

/-! ### CTX_BIND -/

/-- A slot of an admitted or active plan names a context (R265). -/
def ctxInPlan (s : State) (n : Nat) : Bool := (holders s).any fun x => x.2.slots.any fun sl => sl.ctx = n

/-- The work of CTX_BIND (R265). -/
def ctxBindBody (c : Packet) (s : State) (r : ReplyTo) : State × Ending :=
  if partOf c ≠ 0 then (s, denied)
  else
    reservedFrom c 3 s fun _ =>
      let n := c.p0.toNat
      let p := c.p1.toNat
      if n ≥ 4096 then (s, bad 0)
      else if p ≥ 16 ∧ p ≠ 0xFF then (s, bad 1)
      else if (ctxOf s n).bound ∧ p ≠ 0xFF ∧ (ctxOf s n).part ≠ p then (s, bad 1)
      else if ctxInPlan s n then (s, busy 0)
      else
        match boundaryFor s c.p2.toNat with
        | .error e => (s, e)
        | .ok t =>
          let m : BindMove := { ctx := n, part := if p = 0xFF then none else some p, turn := t, reply := r,
                                clearing := false }
          ({ s with xlate := { s.xlate with binds := s.xlate.binds ++ [m] } }, .interim t)

/-- CTX_BIND (R265). -/
def execCtxBind (c : Packet) (s : State) : Host.Outcome State Fault Refusal :=
  command 0x0301 noPayload c s (ctxBindBody c)

def dropBind (s : State) (m : BindMove) : State :=
  { s with xlate := { s.xlate with binds := s.xlate.binds.filter fun b => b.reply ≠ m.reply } }

/-- Commands on one context take effect in the order of their acceptance: no earlier one of it is still to come. -/
def bindTurn (s : State) (m : BindMove) : Bool := (s.xlate.binds.find? fun b => b.ctx = m.ctx).any fun b => b.reply = m.reply

/-- The clearing of an unbinding is over. -/
def cleared (s : State) (n : Nat) : Bool := !s.xlate.invals.any fun v => v.after = some n && v.reply.isNone

/-- An unbinding starts its clearing at its boundary. -/
def startUnbind (turn : Nat) (s : State) (m : BindMove) : State :=
  if m.turn ≤ turn ∧ m.part.isNone ∧ !m.clearing ∧ bindTurn s m then
    let mark := fun (b : BindMove) => if b.reply = m.reply then { b with clearing := true } else b
    beginClear { s with xlate := { s.xlate with binds := s.xlate.binds.map mark } } m.ctx none
  else s

/-- A binding or unbinding takes effect, with its final reply (R265). A binding of a context that an earlier command has bound to another
partition meanwhile ends with BAD_PARAM (log entry 84). -/
def bindDue (turn : Nat) (s : State) (m : BindMove) : State :=
  let x := ctxOf s m.ctx
  let fin := fun (t : State) => postFinal (dropBind t m) m.reply .ok x.epoch (some turn) none
  if m.turn > turn ∨ !bindTurn s m then s
  else
    match m.part with
    | some p =>
      if x.bound ∧ x.part ≠ p then postFinal (dropBind s m) m.reply .badParam 1 none none
      else fin (setCtx s m.ctx { x with bound := true, part := p })
    | none =>
      if m.clearing ∧ cleared s m.ctx then fin (setCtx s m.ctx { x with bound := false, part := 0 }) else s

/-- The bindings of a boundary. -/
def bindsDue (s : State) (turn : Nat) : State :=
  let s1 := s.xlate.binds.foldl (startUnbind turn) s
  s1.xlate.binds.foldl (bindDue turn) s1

/-! ### No acknowledgement -/

/-- A unit acknowledges every invalidation in progress; `lost` says that it never did. -/
def ackAll (s : State) (u : Nat) (lost : Bool) : State :=
  let one := fun (v : Inval) =>
    if v.units.contains u then { v with units := without v.units u, lost := if lost then v.lost ++ [u] else v.lost } else v
  { s with xlate := { s.xlate with invals := (s.xlate.invals.take 16).map one ++ s.xlate.invals.drop 16 } }

/-- INVAL_ACK_TIMEOUT (R278): a site adapter fences its agent and acknowledges; an engine is a fatal error. -/
def execInvalAckTimeout (unit : Fin 76) (s : State) : Host.Outcome State Fault Refusal :=
  act s fun t =>
    if !(t.xlate.invals.take 16).any fun v => v.units.contains unit.val then t
    else if unit.val ≥ 64 then settleInvals (ackAll (fence t (unit.val - 64)) unit false)
    else
      let t1 := record t { cls := 0x44, kind := 2, index := unit.val }
      settleInvals (ackAll t1 unit true)

end Sys2Proof.Machine
end

