-- ==== Sys2Proof/Machine/Engines.lean ====
section
/-! DEFINITION. How a DMA engine reaches memory: its requests with their translation, what they wait for, refusals, poison, the host
link, and the status records (R21-R23, R193, R194, R231, R248, R250, R268, R300, R323, R327-R332, R485). -/

namespace Sys2Proof.Machine

/-! ### Runs -/

def runOf (s : State) (de : Nat) (c : Bool) : Option DmaRun := if c then (engine s de).cmdRun else (engine s de).run

def setRun (s : State) (de : Nat) (c : Bool) (r : Option DmaRun) : State :=
  if c then setEngine s de { engine s de with cmdRun := r } else setEngine s de { engine s de with run := r }

/-- A run lies suspended at a resource boundary. -/
def isParked (s : State) (de : Nat) (r : DmaRun) : Bool := !r.isCmd && (engine s de).parked.any fun x => x.job.same r.job

/-- A run is written back where it lies: in progress, or suspended at a resource boundary. -/
def putRun (s : State) (de : Nat) (r : DmaRun) : State :=
  let e := engine s de
  if r.isCmd then setEngine s de { e with cmdRun := some r }
  else if isParked s de r then setEngine s de { e with parked := e.parked.map fun x => if x.job.same r.job then r else x }
  else setEngine s de { e with run := some r }

/-- A run leaves its engine. -/
def removeRun (s : State) (de : Nat) (r : DmaRun) : State :=
  let e := engine s de
  if r.isCmd then setEngine s de { e with cmdRun := none }
  else if isParked s de r then setEngine s de { e with parked := e.parked.filter fun x => !x.job.same r.job }
  else setEngine s de { e with run := none }

def workOf (de : Nat) (c : Bool) : Work := if c then .cmd de else .dma de

def engineRec (de : Nat) (r : DmaRun) (cls addr : Nat) : Rec :=
  { cls := cls, kind := 2, index := de, part := some r.part, task := r.desc.c.task, addr := addr }

/-- A descriptor that has started, under the epoch of its context as it stands. -/
def DmaRun.start (s : State) (isCmd : Bool) (job : Job) (seq part ctx : Nat) (d : Desc) (j : Nat) : DmaRun :=
  { isCmd := isCmd, job := job, seq := seq, part := part, ctx := ctx, epoch := (ctxOf s ctx).epoch, desc := d, iter := d.c.indexAt j,
    j := j, refused := false, guard := false, poison := false, stale := false, tallyErr := false, anchorErr := false,
    stateErr := false, errSeen := false, done := 0, faultOff := none, counts := Counts.reset, compact := 0, errCount := 0,
    issued := [], todo := [], flight := [], buf := [], next := 0, blocked := false, phase := .work, events := 0, paused := false, halted := false }

def DmaRun.ended (r : DmaRun) : Bool := r.refused || r.guard

/-- The context and context epoch that a descriptor's requests carry (R264). -/
def DmaRun.under (r : DmaRun) : Option (Nat × Nat) := some (r.ctx, r.epoch)

/-- An event of a descriptor is recorded once for it and its class (R293, R534). -/
def recordFor (s : State) (de : Nat) (r : DmaRun) (cls addr : Nat) : State :=
  recordIn s (ownerOfDma de r.isCmd) (engineRec de r cls addr)

/-- A request was refused: the descriptor ends early, and what it has not begun is dropped (R331). One that has ended already, whose
status record is refused, stays as it is. -/
def refuseRun (s : State) (de : Nat) (r : DmaRun) (guard : Bool) (off : Nat) : State × DmaRun :=
  let r1 := { r with todo := [], flight := [], buf := [] }
  if r.ended then (s, r1)
  else (recordFor s de r 0x56 0, { r1 with refused := !guard, guard := guard, faultOff := some off })

/-! ### Requests -/

def fin16 (n : Nat) : Fin 16 := ⟨n % 16, Nat.mod_lt _ (by decide)⟩
def fin64 (n : Nat) : Fin 64 := ⟨n % 64, Nat.mod_lt _ (by decide)⟩

/-- What a request of an engine came to: bytes read here; a write done here; sent, to be answered later; the descriptor ended; its place
among the arrivals taken; or nothing, for want of a tag. -/
inductive Went where
  | bytes (d : List (Byte × Bool))
  | done
  | sent
  | refused
  | held
  | full
  deriving DecidableEq, Repr

abbrev Worked := State × DmaRun × Went

/-- What stops an access before it is made: a refusal with its class and address, or lines that it must wait for. -/
inductive Halt where
  | refused (cls addr : Nat)
  | held (lines : List Nat) (share tick : Bool)

/-- The outcome of a part of an access, or what stopped it, with the state in which it did. -/
abbrev Halting (α : Type) := Except (State × Halt) α

/-- A request is refused with a class of its own. -/
def refuseAs (s : State) (de : Nat) (r : DmaRun) (cls addr off : Nat) : Worked :=
  let (s1, r1) := refuseRun (recordFor s de r cls addr) de r false off
  (s1, r1, .refused)

/-- The next access of a run takes its place on the lines that it waits for (R242, R248). -/
def holdRun (s : State) (de : Fin 64) (r : DmaRun) (lines : List Nat) (share tick : Bool) : Worked :=
  (enqueue s (.engine de r.isCmd) lines share tick, { r with blocked := true }, .held)

/-- An access of a run is stopped. -/
def haltRun (s : State) (de : Fin 64) (r : DmaRun) (off : Nat) : Halt → Worked
  | .refused cls addr => refuseAs s de r cls addr off
  | .held lines share tick => holdRun s de r lines share tick

/-- The transaction tag of a request on the Leat ports: thirty for each queue of an engine, one for its raises (log entry 23). -/
def leatTag (de : Nat) (c : Bool) (k : Nat) : Nat := (de * 2 + flag c) * 32 + k

/-- A tag of a queue of an engine that no request of it holds. -/
def freeLeat (s : State) (de : Nat) (r : DmaRun) : Option Nat :=
  let mine := (((engine s de).runs.filter fun x => x.isCmd = r.isCmd).flatMap DmaRun.issued) ++ r.issued
  let used := (mine.filter fun x => x.fn = 17 || x.fn = 18).map fun x => x.tag % 32
  (List.range 30).find? fun k => !used.contains k

/-- A request leaves for another hub under a tag: a read is answered with data, anything else by an acknowledgement (R36, R330). -/
def sendFrom (s : State) (de : Nat) (r : DmaRun) (read : Bool) (len off : Nat) (packet : Nat → State → State) : Worked :=
  match freeLeat s de r with
  | none => (s, r, .full)
  | some k =>
    let t := leatTag de r.isCmd k
    (packet t s, { r with issued := r.issued ++ [{ fn := if read then 17 else 18, tag := t, addr := 0, len := len, dst := off }] }, .sent)

/-- What became of a request at a local address. -/
structure Reply where
  ok : Bool
  data : List (Byte × Bool)
  /-- The write was dropped, and is reported as poisoned (R233). -/
  lost : Bool
  /-- It went to a chiplet under this tag. -/
  tag : Option Nat
  deriving DecidableEq, Repr

/-- The groups of refused requests without a descriptor stand for those of a descriptor meanwhile: its refusals are recorded once for it
and their class (R293). -/
def asDescriptor (s : State) (owner : Nat) (f : State → State) : State :=
  let mine := fun (x : Nat × Nat × Bool × LedgerEntry) => decide (x.1 / 256 = owner)
  let gs := s.ledger.groups
  let t := f { s with ledger := { s.ledger with groups := (gs.filter mine).map fun x => (x.1 % 256, x.2) } }
  { t with ledger := { t.ledger with
      groups := (gs.filter fun x => !mine x) ++ t.ledger.groups.map fun x => (x.1 % 256 + 256 * owner, x.2) } }

/-- A request at a local address by an engine, which takes its completion. -/
def ask (s : State) (owner : Nat) (r : MemReq) : State × Reply :=
  let (t, o) := capture s fun x => asDescriptor x owner fun y => memoryRequest y r
  let d := o.findSome? fun x =>
    match x with
    | .readData b p => some (markUnits r.addr b p)
    | .zeroData n => some (List.replicate n (0#8, false))
    | _ => none
  let g := ((t.out.drop s.out.length).findSome? asChiplet).map Prod.snd
  (t, { ok := !o.contains .errorCompletion, data := d.getD [], lost := o.contains .ackPoisoned, tag := g })

/-- An access of a descriptor at a virtual address: kind, bytes read or written, its offset in the transfer, and for a write where its
lines are placed (R250). -/
structure Reach where
  kind : Access
  va : Nat
  len : Nat
  off : Nat
  hint : Nat
  target : Nat
  data : List (Byte × Bool)

/-- A read of a source. -/
def Reach.read (va n off : Nat) : Reach := { kind := .read, va := va, len := n, off := off, hint := 0, target := 0, data := [] }

/-- A write of a destination. -/
def Reach.write (va off hint target : Nat) (d : List (Byte × Bool)) : Reach :=
  { kind := .write, va := va, len := d.length, off := off, hint := hint, target := target, data := d }

/-- The request of an engine's descriptor at a local address. -/
def engineReq (s : State) (de : Fin 64) (r : DmaRun) (x : Reach) (a : Nat) : MemReq :=
  { issuer := .dma de, epoch := (engine s de).epoch, part := fin16 r.part, ctx := r.under, kind := x.kind, addr := a, len := x.len,
    data := x.data.map Prod.fst, mask := [], poison := badUnits a x.data, share := fin64 r.desc.c.task,
    hint := ⟨x.hint % 4, Nat.mod_lt _ (by decide)⟩, target := fin16 x.target, ecc := .clean }

/-- Where a virtual address of a descriptor leads: to a hub, or here; or what stopped it: an old epoch, a table entry that an agent
owns, a failed translation, or a route that is refused (R36, R248, R268, R271, R286). `g` are the lines that it has waited for. -/
def locate (s : State) (de : Fin 64) (r : DmaRun) (g : List Nat) (k : Access) (va : Nat) : Halting (State × Option Nat × Nat) :=
  let held := (walkHeld s de r.ctx va).filter fun l => !g.contains l
  if (ctxOf s r.ctx).epoch ≠ r.epoch then .error (s, .refused 0x47 va)
  else if !held.isEmpty then .error (s, .held held true false)
  else
    match translate s de r.ctx k va with
    | (s1, .error c) => .error (s1, .refused c va)
    | (s1, .ok pa) =>
      match route s1 r.part pa with
      | .error c => .error (s1, .refused c pa)
      | .ok h => .ok (s1, h, pa)

/-- The bin guard stands in the way of a local write (R152). -/
def guarded_ (s : State) (pa n : Nat) : Bool :=
  match regionOf pa with
  | .bin la off => decide (off + n ≤ shoeBase) && guardHit s la off n
  | _ => false

/-- What a request of an engine waits for at a local address, but for the lines that it has waited for already. -/
def reachHeld (s : State) (q : MemReq) (g : List Nat) : Option (List Nat × Bool) :=
  if regWaits s q then some ([], false)
  else
    match reqLines s q with
    | some (l, tick) => if tick || !l.all g.contains then some (l, tick) else none
    | none => none

/-- An access of a descriptor that one request makes: here, at a chiplet, or on another hub. -/
def runAccess (s : State) (de : Fin 64) (r : DmaRun) (g : List Nat) (x : Reach) : Worked :=
  match locate s de r g x.kind x.va with
  | .error (s1, h) => haltRun s1 de r x.off h
  | .ok (s1, some h, pa) =>
    let read := decide (x.kind = .read)
    let body := if read then leBytes 8 x.len else x.data.map Prod.fst
    sendFrom s1 de r read x.len x.off fun t a =>
      sendUnder a r.under r.part h (r.desc.c.task % 64) (flag read) t (localOf pa) body (x.data.any Prod.snd)
  | .ok (s1, none, pa) =>
    let a := localOf pa
    let q := engineReq s1 de r x a
    if x.kind = .write ∧ guarded_ s1 a x.len then
      let (s2, r2) := refuseRun s1 de r true x.off
      (s2, r2, .refused)
    else
      match reachHeld s1 q g with
      | some (l, tick) => holdRun s1 de r l (decide (x.kind = .read)) tick
      | none =>
        let (s2, y) := ask s1 (ownerOfDma de r.isCmd) q
        if !y.ok then
          let (s3, r3) := refuseRun s2 de r false x.off
          (s3, r3, .refused)
        else
          match y.tag, regionOf a with
          | some k, .site site o =>
            (s2, { r with issued := r.issued ++ [{ fn := 32 + site, tag := k, addr := o, len := x.len, dst := x.off }] }, .sent)
          | _, _ => if x.kind = .read then (s2, r, .bytes y.data) else (s2, { r with poison := r.poison || y.lost }, .done)

/-- Poisoned data consumed, once per descriptor (Table 6-3). -/
def notePoison (s : State) (de : Nat) (r : DmaRun) (d : List (Byte × Bool)) : State × DmaRun :=
  if d.any Prod.snd then (recordFor s de r 0x22 0, { r with poison := true }) else (s, r)

/-- A write of a span that lies in one line of its destination. -/
def runWrite (s : State) (de : Fin 64) (r : DmaRun) (g : List Nat) (va off hint target : Nat) (d : List (Byte × Bool)) : Worked :=
  match runAccess s de r g (.write va off hint target d) with
  | (s1, r1, .done) => let (s2, r2) := notePoison s1 de r1 d; (s2, r2, .done)
  | (s1, r1, .sent) => let (s2, r2) := notePoison s1 de r1 d; (s2, r2, .sent)
  | w => w

/-! ### The host link -/

/-- The host link is up (R490). -/
def hostUp (s : State) : Bool := s.host.rate ≠ 0

/-- A write to the host by the function of a partition: posted as the endpoint sends it, its poison marked (R328, R330, Table 6-3). -/
def writeHost (s : State) (de : Nat) (r : DmaRun) (addr off : Nat) (d : List (Byte × Bool)) : Worked :=
  let f := partFn r.part
  if !hostUp s ∨ !fnExists s f then
    let (s1, r1) := refuseRun s de r false off
    (s1, r1, .refused)
  else
    let (s1, r1) := notePoison s de r d
    let b := d.map Prod.fst
    (emit s1 (if d.any Prod.snd then .hostWritePoisoned f addr b else .hostWrite f addr b), r1, .done)

/-- Host reads outstanding: in all, and of one function. -/
def hostReads (s : State) : List HostReq :=
  (s.dma.flatMap fun x => x.2.runs.flatMap DmaRun.issued).filter fun q => q.fn ≤ 16

/-- The limit in force on reads outstanding (R485). -/
def readLimit (s : State) : Nat := if s.host.flit then s.host.limit else min s.host.limit 768

/-- A host read is issued, where it may be; a function with no tags issues none (R485). `r` may have issued reads that its engine does
not hold yet. -/
def readHost (s : State) (de : Nat) (r : DmaRun) (p : Piece) : Worked :=
  let f := partFn r.part
  if !hostUp s ∨ !fnExists s f ∨ (func s f).tags = 0 then
    let (s1, r1) := refuseRun s de r false p.off
    (s1, r1, .refused)
  else
    let out := hostReads (putRun s de r)
    if out.length ≥ readLimit s ∨ (out.filter fun x => x.fn = f).length ≥ (func s f).tags then (s, r, .full)
    else
      let t := freeTag (out.map HostReq.tag) 16384
      (emit s (.hostRead f t p.src p.len),
        { r with issued := r.issued ++ [{ fn := f, tag := t, addr := p.src, len := p.len, dst := p.off }] }, .sent)

/-! ### Status records -/

/-- EVENTS and the other bytes of Table 10-7. -/
def dmaStatus (s : State) (r : DmaRun) (over_ : Bool) : Bytes :=
  let ev := flag r.refused + 2 * flag r.guard + 4 * flag r.poison + 8 * flag r.stale + 16 * flag r.tallyErr +
    32 * flag over_ + 64 * flag r.halted
  leBytes 6 (now s) ++ leBytes 2 (if r.isCmd then 0 else r.j % 65536) ++ leBytes 1 ev ++ leBytes 1 r.desc.c.task ++
    leBytes 2 0 ++ leBytes 4 (if r.isCmd then r.seq else 0) ++ leBytes 8 r.done ++
    leBytes 8 (r.faultOff.getD (2 ^ 64 - 1))

/-- The bytes of Table 5-8. -/
def redStatus (s : State) (r : DmaRun) (over_ : Bool) : Bytes :=
  let ev := flag r.anchorErr + 2 * flag r.stateErr + 4 * flag r.errSeen + 8 * flag r.stale + 16 * flag r.refused + 32 * flag over_
  leBytes 6 (now s) ++ leBytes 2 (r.j % 65536) ++ leBytes 1 r.counts.flagsOr ++ leBytes 1 ev ++ leBytes 1 r.desc.c.task ++
    leBytes 1 0 ++ leBytes 4 r.done ++ leBytes 4 r.compact ++ leBytes 4 r.counts.ovf ++ leBytes 4 r.counts.nanInf ++
    leBytes 4 r.errCount

/-- Where a descriptor's status record goes, and how its lines are placed (R250, R330). -/
def statusPlace (r : DmaRun) : Option (Nat × Nat × Nat) :=
  match r.desc.b with
  | .dma d => d.status.map fun v => (v, d.hint, d.target)
  | .red d => d.status.map fun v => (v, 0, 0)
  | _ => none

/-- A run's slot does not hold the bucket in progress: it ends after its slot's run. -/
def runLate (s : State) (de : Nat) (r : DmaRun) : Bool := !r.isCmd && jobLate s (.dma de) r.job

/-- The status record of a descriptor. -/
def statusBytes (s : State) (de : Nat) (r : DmaRun) : Bytes :=
  match r.desc.b with
  | .red _ => redStatus s r (runLate s de r)
  | _ => dmaStatus s r (runLate s de r)

/-- A reduction descriptor. -/
def isRed (d : Desc) : Bool := match d.b with | .red _ => true | _ => false

/-- The byte of a status record that holds EVENTS (Tables 5-8, 10-7). -/
def eventsAt (d : Desc) : Nat := if isRed d then 9 else 8

/-- The work of a descriptor is over: its status record is to be written (R194, R330). -/
def DmaRun.close (s : State) (de : Nat) (r : DmaRun) : DmaRun :=
  let d := statusBytes s de r
  let b := if (statusPlace r).isSome then [(0, clean d)] else []
  { r with phase := .status, todo := [], flight := [], buf := b, events := (d.getD (eventsAt r.desc) 0#8).toNat }

/-- The next step of a descriptor whose work is over: its status record is written. -/
def statusStep (s : State) (de : Fin 64) (r : DmaRun) (g : List Nat) : Option Worked :=
  match r.buf, statusPlace r with
  | (_, b) :: _, some (va, hint, target) =>
    let (s1, r1, w) := runWrite s de r g va r.done hint target b
    some (s1, (match w with | .done => { r1 with buf := [] } | .sent => { r1 with buf := [] } | _ => r1), w)
  | _, _ => none

/-! ### The end -/

/-- The queue goes past a descriptor. -/
def passRun (s : State) (de : Nat) (r : DmaRun) : State :=
  if r.isCmd then
    let e := engine s de
    setEngine s de { e with queue := e.queue.drop 1, doneSeq := r.seq }
  else
    match jobNow s (.dma de) r.job with
    | some j =>
      match nextDesc s j with
      | some (k, _) => passDesc s (.dma de) j k
      | none => s
    | none => s

/-- A descriptor whose status record has been acknowledged completes: it raises, unless it is stale, and its queue goes on (R194, R322,
R330). -/
def finishRun (s : State) (de : Fin 64) (r : DmaRun) : State :=
  let w := workOf de r.isCmd
  let s1 := removeRun s de r
  let s2 := if r.desc.c.raiseEn && !r.stale then
    raiseTo s1 w (r.ctx, r.epoch) r.part (leatTag de r.isCmd 31) r.desc.c r.desc.b.hub
      ((statusPlace r).map fun x => (x.1 + eventsAt r.desc, r.events)) else s1
  settleInvals (endGroups (setMoved (passRun s2 de r) w r.part) (ownerOfDma de r.isCmd))

/-- Every request of a run has been answered and it is not held back (R330, R332). -/
def runDone (s : State) (de : Nat) (r : DmaRun) : Bool :=
  decide (r.phase = .work) && r.todo.isEmpty && r.flight.isEmpty && r.buf.isEmpty && r.issued.isEmpty && !r.blocked && !r.paused &&
    (r.isCmd || (match jobNow s (.dma de) r.job with | some j => !j.suspended | none => true))

/-- Its status record, where it has one, has been written and acknowledged. -/
def DmaRun.over_ (r : DmaRun) : Bool := decide (r.phase = .status) && r.buf.isEmpty && r.issued.isEmpty && !r.blocked

/-- The run that a completion row means: the plan's, or else the command queue's, where it satisfies a test. -/
def pickRun (s : State) (de : Nat) (f : DmaRun → Bool) : Option DmaRun :=
  match (engine s de).run with
  | some r => if f r then some r else (engine s de).cmdRun.filter f
  | none => (engine s de).cmdRun.filter f

end Sys2Proof.Machine
end

