-- ==== Sys2Proof/Machine/Dma.lean ====
section
/-! DEFINITION. DMA_COPY and DMA_FILL line by line, TALLY_OP, and the commands of the DMA queues (R321-R337). -/

namespace Sys2Proof.Machine

/-! ### Transfers -/

/-- Rows of a transfer at an iteration index: offset in the transfer, source, destination (R327). -/
def DmaD.rowList (d : DmaD) (i : Nat) : List (Nat × Nat × Nat) :=
  (List.range d.planes).flatMap fun c => (List.range d.rows).map fun k =>
    ((c * d.rows + k) * d.rowBytes, d.src + i * d.srcStepI + c * d.srcPlane + k * d.srcRow,
      d.dst + i * d.dstStepI + c * d.dstPlane + k * d.dstRow)

/-- The destination of an offset of a transfer. -/
def DmaD.dstAt (d : DmaD) (i off : Nat) : Nat :=
  let n := off / d.rowBytes
  d.dst + i * d.dstStepI + n / d.rows * d.dstPlane + n % d.rows * d.dstRow + off % d.rowBytes

/-- Bytes of a fill from an offset of the transfer on (Table 10-5). -/
def fillBytes (pattern k n : Nat) : List (Byte × Bool) := (upto k n).map fun i => (BitVec.ofNat 8 (pattern / 256 ^ (i % 8)), false)

/-- The pieces of a row: within one 64-byte unit of the source, which is poisoned as a whole or not at all, and one line of the destination;
a host source is read up to 4,096 bytes at a time. -/
def rowPieces (d : DmaD) (row : Nat × Nat × Nat) : List Piece :=
  let (off, src, dst) := row
  if d.srcHost ∧ d.fill.isNone then (cutAt 4096 src d.rowBytes).map fun p => { off := off + (p.1 - src), src := p.1, len := p.2 }
  else
    (cutAt 128 dst d.rowBytes).flatMap fun p =>
      let a := src + (p.1 - dst)
      if d.fill.isSome then [{ off := off + (p.1 - dst), src := 0, len := p.2 }]
      else (cutAt 64 a p.2).map fun q => { off := off + (q.1 - src), src := q.1, len := q.2 }

/-- All pieces of a transfer. -/
def DmaRun.pieces (r : DmaRun) (d : DmaD) : List Piece := (d.rowList r.iter).flatMap (rowPieces d)

/-- Bytes of a source range, kept until the lines of their destination are complete. -/
def DmaRun.keep (r : DmaRun) (d : DmaD) (off : Nat) (b : List (Byte × Bool)) : DmaRun :=
  let a := d.dstAt r.iter off
  { r with buf := (cutAt 128 a b.length).foldl (fun t p => t.put (off + (p.1 - a)) ((b.drop (p.1 - a)).take p.2)) r.buf }

/-- The offsets of a transfer that go to the same line of its destination as one of them: the first, and the one after the last. -/
def lineRange (d : DmaD) (i off : Nat) : Nat × Nat :=
  let a := d.dstAt i off
  let k := off % d.rowBytes
  (off - min k (a % 128), min (off - k + d.rowBytes) (off + (128 - a % 128)))

/-- The first line of the destination of which every byte has been read: offset and bytes. -/
def DmaRun.fullLine (r : DmaRun) (d : DmaD) : Option (Nat × List (Byte × Bool)) :=
  r.buf.findSome? fun e =>
    let (lo, hi) := lineRange d r.iter e.1
    let meets := fun (p : Piece) => decide (p.off < hi) && decide (lo < p.off + p.len)
    if r.todo.head?.any meets || r.flight.any meets then none
    else some (e.1, (r.buf.filter fun x => lo ≤ x.1 && x.1 < hi).flatMap Prod.snd)

/-- A line is written at one go; where one of its two 64-byte units is poisoned and the other is not, one after the other (R250, Table
6-3). A write hint STASH offers the line with its last bytes. -/
def writeLineAt (s : State) (de : Fin 64) (r : DmaRun) (d : DmaD) (g : List Nat) (off : Nat) (b : List (Byte × Bool)) : Worked :=
  let a := d.dstAt r.iter off
  let u := b.take (64 - a % 64)
  let rest := b.drop (64 - a % 64)
  let part := if !rest.isEmpty && u.any Prod.snd != rest.any Prod.snd then u else b
  let left := b.drop part.length
  let (s1, r1, w) := if d.dstHost then writeHost s de r a off part
    else runWrite s de r g a off (if !left.isEmpty && d.hint = 2 then 1 else d.hint) d.target part
  let (lo, hi) := lineRange d r.iter off
  let out := (r.buf.filter fun x => !(lo ≤ x.1 && x.1 < hi))
  let gone := if left.isEmpty then out else Tbl.put out (off + part.length) left
  match w with
  | .done => (s1, { r1 with buf := gone, done := r1.done + part.length }, w)
  | .sent => (s1, { r1 with buf := gone }, w)
  | _ => (s1, r1, w)

/-- The next piece of a transfer is read. -/
def beginPiece (s : State) (de : Fin 64) (r : DmaRun) (d : DmaD) (g : List Nat) (p : Piece) : Worked :=
  let (s1, r1, w) : Worked := match d.fill with
    | some v => (s, r, Went.bytes (fillBytes v (p.off % d.rowBytes) p.len))
    | none => if d.srcHost then readHost s de r p else runAccess s de r g (.read p.src p.len p.off)
  match w with
  | .bytes b => (s1, { r1 with todo := r1.todo.drop 1 }.keep d p.off b, w)
  | .sent => (s1, { r1 with todo := r1.todo.drop 1, flight := r1.flight ++ [p] }, w)
  | _ => (s1, r1, w)

/-- The next step of a transfer: a line that is complete is written; otherwise the next piece is read (R328, R332). -/
def copyStep (s : State) (de : Fin 64) (r : DmaRun) (d : DmaD) (g : List Nat) : Option Worked :=
  match r.fullLine d, r.todo with
  | some (off, b), _ => some (writeLineAt s de r d g off b)
  | none, p :: _ => some (beginPiece s de r d g p)
  | none, [] => none

/-- Data arrives for a piece of a transfer; an ended descriptor takes none. -/
def DmaRun.takeData (r : DmaRun) (q : HostReq) (b : List (Byte × Bool)) : DmaRun :=
  match r.desc.b with
  | .dma d => if r.ended then r else ({ r with flight := r.flight.filter fun p => p.off ≠ q.dst }).keep d q.dst (b.take q.len)
  | _ => r

/-! ### TALLY_OP -/

/-- A TALLY_OP applies its operation, here or on another hub (R36, R286, R319, R329). -/
def tallyStep (s : State) (de : Fin 64) (r : DmaRun) (d : TallyOpD) : Option Worked :=
  if r.todo.isEmpty then none
  else
    let r1 := { r with todo := [] }
    some <|
      if (ctxOf s r.ctx).epoch ≠ r.epoch then refuseAs s de r1 0x47 0 0
      else
        match d.hub.filter fun h => h ≠ s.leat.hub with
        | none =>
          let (s1, x) := tallyOp s d.tally d.sub d.amount r.part false
          (s1, { r1 with tallyErr := x = .held, refused := x = .refused }, .done)
        | some h =>
          match abroadFault s r.part h with
          | some c => refuseAs s de r1 c 0 0
          | none =>
            match sendFrom s de r1 false 0 0 fun t a => sendTally a r.under r.part h (r.desc.c.task % 64) t d.tally d.sub d.amount with
            | (_, _, .full) => (s, r, .full)
            | w => w

/-! ### Commands -/

/-- The engine that a command names. -/
def engineFor (c : Packet) (k : Nat → State × Ending) (s : State) : State × Ending :=
  if c.p0.toNat ≥ 64 then (s, bad 0) else k c.p0.toNat

/-- An engine's command queue holds work (R337). -/
def queueBusy (s : State) (n : Nat) : Bool :=
  let e := engine s n
  !e.queue.isEmpty || e.cmdRun.isSome

/-- The work of DMA_QUEUE_ASSIGN (R325, R337). -/
def dmaQueueAssignBody (c : Packet) (s : State) (_ : ReplyTo) : State × Ending :=
  if partOf c ≠ 0 then (s, denied)
  else
    reservedFrom c 2 s fun _ => engineFor c (fun n =>
      if c.p1.toNat ≥ 16 then (s, bad 1)
      else if queueBusy s n then (s, busy 0)
      else (setEngine s n { engine s n with owner := c.p1.toNat }, okay n)) s

/-- DMA_QUEUE_ASSIGN (R325). -/
def execDmaQueueAssign (c : Packet) (s : State) : Host.Outcome State Fault Refusal :=
  command 0x0360 noPayload c s (dmaQueueAssignBody c)

/-- Each descriptor of a submission starts in its own place (R326). -/
def submitOk (d : Desc) : Bool := d.c.iterFirst = 0 && d.c.iterCount = 0 && d.c.iterMod = 1

/-- The descriptors of a payload, all of them well-formed (R324, R326, R337). -/
def parseSubmit (b : Bytes) (n : Nat) : Option (List Desc) :=
  match parseDescs n b 0 0 false none with
  | some l =>
    let last := match l.getLast? with | some d => d.off + d.c.len | none => 0
    if l.all submitOk ∧ last = b.length then some l else none
  | none => none

/-- Sequence numbers count submissions modulo 2^32. -/
def enqueueOne (ctx : Nat) (e : Engine) (d : Desc) : Engine :=
  let q := (e.seq + 1) % 2 ^ 32
  { e with seq := q, queue := e.queue ++ [{ seq := q, ctx := ctx, desc := d }] }

/-- The work of DMA_SUBMIT (R337). -/
def dmaSubmitBody (c : Packet) (s : State) (_ : ReplyTo) : State × Ending :=
  reservedFrom c 3 s fun _ => engineFor c (fun n =>
    let e := engine s n
    if e.owner ≠ partOf c then (s, denied)
    else if c.p1.toNat ≥ 4096 then (s, bad 1)
    else if c.p2.toNat = 0 ∨ c.p2.toNat > 256 then (s, bad 2)
    else if !boundTo s c.p1.toNat e.owner then (s, denied)
    else
      match parseSubmit c.payload c.p2.toNat with
      | none => (s, bad 6)
      | some l =>
        if e.queue.length + l.length > 256 then (s, busy 0)
        else
          let e1 := l.foldl (enqueueOne c.p1.toNat) e
          (setEngine s n e1, okay e1.seq)) s

/-- DMA_SUBMIT (R337). -/
def execDmaSubmit (c : Packet) (s : State) : Host.Outcome State Fault Refusal :=
  command 0x0361 (fun n => 0 < n && n ≤ 4096) c s (dmaSubmitBody c)

/-- The work of DMA_QUEUE_READ (Table 10-9). -/
def dmaQueueReadBody (c : Packet) (s : State) (_ : ReplyTo) : State × Ending :=
  reservedFrom c 1 s fun _ => engineFor c (fun n =>
    let e := engine s n
    if partOf c ≠ 0 ∧ e.owner ≠ partOf c then (s, denied)
    else (s, okay (e.doneSeq + e.queue.length * 2 ^ 32))) s

/-- DMA_QUEUE_READ (R336). -/
def execDmaQueueRead (c : Packet) (s : State) : Host.Outcome State Fault Refusal :=
  command 0x0362 noPayload c s (dmaQueueReadBody c)

/-- The descriptor at the head of a command queue has started or waits on a tally (R337). -/
def headTaken (e : Engine) : Bool := e.cmdRun.isSome || decide (e.cmdWait ≠ .none)

/-- The work of DMA_FLUSH (R337). -/
def dmaFlushBody (c : Packet) (s : State) (_ : ReplyTo) : State × Ending :=
  reservedFrom c 1 s fun _ => engineFor c (fun n =>
    let e := engine s n
    if partOf c ≠ 0 ∧ e.owner ≠ partOf c then (s, denied)
    else
      let kept := if headTaken e then e.queue.take 1 else []
      (setEngine s n { e with queue := kept }, okay (e.queue.length - kept.length))) s

/-- DMA_FLUSH (R337). -/
def execDmaFlush (c : Packet) (s : State) : Host.Outcome State Fault Refusal :=
  command 0x0363 noPayload c s (dmaFlushBody c)

end Sys2Proof.Machine
end

