-- ==== Sys2Proof/Machine/Reduce.lean ====
section
/-! DEFINITION. Mint transfer packets, and the reduction descriptors packet by packet (R183-R200, Tables 5-5 to 5-8). -/

namespace Sys2Proof.Machine

/-! ### Packets -/

/-- A mint transfer packet (Table 5-5): OP, anchors, the cause it carries with ERR, words with their flag bytes, the physical address
of the first cell. An INIT has as many words as it names cells; they carry nothing. -/
structure MintPkt where
  op : Nat
  anchor : Int
  hi : Int
  err : Option Nat
  dst : Nat
  words : List (Int × Nat)
  poison : Bool
  deriving DecidableEq, Repr

/-- Every word lies in the MINT128 range (R186). -/
def MintPkt.fits (k : MintPkt) : Bool := k.words.all fun w => -(2 ^ 127 : Nat) ≤ w.1 && w.1 < (2 ^ 127 : Nat)

/-- The bytes of a packet (Table 5-5); FIT where words travel as MINT128. -/
def MintPkt.bytes (k : MintPkt) (fit : Bool) : Bytes :=
  leBytes 2 (unsext 16 k.anchor) ++ leBytes 2 (unsext 16 k.hi) ++ leBytes 1 k.op ++
    leBytes 1 (flag fit + (match k.err with | some c => 2 + 4 * (c % 8) | none => 0)) ++ leBytes 1 k.words.length ++
    leBytes 1 0 ++ leBytes 8 k.dst ++ sub (k.words.map fun w => BitVec.ofNat 8 w.2) 0 16 ++
    (if k.op = 1 then [] else k.words.flatMap fun w => if fit then leBytes 16 (unsext 128 w.1) else mintBytes w.1)

/-- A packet that keeps Table 5-5 (R185). -/
def MintPkt.ofBytes (b : Bytes) : Option MintPkt :=
  let op := rd b 4 1
  let ctrl := rd b 5 1
  let n := rd b 6 1
  let dst := rd b 8 8
  let fit := bit ctrl 0
  let size := if op = 1 then 32 else 32 + n * (if fit then 16 else 32)
  if b.length < size ∨ !([1, 2, 5].contains op) ∨ bits ctrl 7 5 ≠ 0 ∨ n = 0 ∨ n > 16 ∨ rd b 7 1 ≠ 0 ∨ dst ≥ 2 ^ 58 ∨ dst % 64 ≠ 0 ∨
      rd b (16 + n) (16 - n) ≠ 0 ∨ (!bit ctrl 1 ∧ bits ctrl 4 2 ≠ 0) then none
  else
    let word := fun (i : Nat) =>
      if op = 1 then (0, rd b (16 + i) 1)
      else if fit then (sext 128 (rd b (32 + 16 * i) 16), rd b (16 + i) 1)
      else (mintOfBytes (sub b (32 + 32 * i) 32), rd b (16 + i) 1)
    some { op := op, anchor := sext 16 (rd b 0 2), hi := sext 16 (rd b 2 2),
           err := if bit ctrl 1 then some (bits ctrl 4 2) else none, dst := dst, words := (List.range n).map word,
           poison := false }

/-- The cell operation of a word of a packet. -/
def MintPkt.opOf (k : MintPkt) (w : Int × Nat) : AtomOp :=
  let m : MintWord := { value := w.1, flags := w.2, anchor := k.anchor, hi := k.hi }
  if k.op = 1 then .mintInit k.anchor
  else match k.err with
    | some c => .put m (some c)
    | none => if k.op = 5 then .put m none else .mintAdd m

/-- The lines of the cells of a packet at a local address that agents hold (R248). -/
def MintPkt.held (s : State) (k : MintPkt) (a : Nat) : List Nat := conflicts s a (64 * k.words.length) true

/-- A unit of memory becomes poison (R231, Table 6-3). -/
def poisonAt (s : State) (a : Nat) : State := { s with mem := s.mem.taint (a / 64) }

/-- The cause that an operation brought a cell, if it did: 8 and the cause, in the nibble of its word (R187, log entry 23). -/
def causeNibble (old new : Cell) : Nat := if (cellClass old new).isSome then 8 + new.cause % 8 else 0

/-- A packet is applied at its destination, word by word in order, with the causes that its words met; none where a word was refused
(R185, R187, R200). -/
def applyPacket (s : State) (q : AtomReq) (k : MintPkt) : State × Option Nat :=
  (indexed k.words).foldl (fun x w =>
    match x.2 with
    | none => x
    | some causes =>
      let a := { q with addr := q.addr + 64 * w.1 }
      match atomFault x.1 a with
      | some c => (recordRefusal x.1 (atomRec c a), none)
      | none =>
        let b := noteBusy x.1 { type := 5, index := sliceOf (a.addr / 128) } q.part
        if k.poison then (poisonAt b a.addr, some causes)
        else
          let t := stepCell b a (k.opOf w.2)
          (t, some (causes + causeNibble (cellAt x.1 a.addr) (cellAt t a.addr) * 16 ^ w.1)))
    (if k.err.isSome then noteErrPacket s q else s, some 0)

/-- The operation request of a packet's first cell, as it comes over a Leat port. -/
def packetReq (part a : Nat) : AtomReq :=
  { issuer := .leatPort 0, epoch := 0, part := fin16 part, ctx := none, addr := a, share := 0, reduction := true }

/-- A packet that has reached its cells is applied, and acknowledged with the causes that it met once all its words have been (R187); one
that breaks Table 5-5 is refused (R185). -/
def takeMint (s : State) (q : AtomReq) (k : Option MintPkt) : State :=
  match k with
  | none => emit (record s { cls := 0x2B, kind := 3, part := some q.part.val }) .errorCompletion
  | some k =>
    match applyPacket s q k with
    | (t, some causes) => emit t (.mintAck causes)
    | (t, none) => emit t .errorCompletion

/-- A packet at its slices. -/
def takePacket (s : State) (part : Nat) (bytes : Bytes) : State :=
  let k := MintPkt.ofBytes bytes
  takeMint s (packetReq part (match k with | some p => localOf p.dst | none => 0)) k

/-- MINT_TRANSFER_PACKET (R185, R187): lines that agents hold are invalidated first (R248). -/
def execMintTransferPacket (part : Fin 16) (bytes : Bytes) (s : State) : Host.Outcome State Fault Refusal :=
  act s fun t =>
    if !domainOn t 28 then t
    else
      let held := match MintPkt.ofBytes bytes with | some k => k.held t (localOf k.dst) | none => []
      if held.isEmpty then takePacket t part bytes else enqueue t (.packet part bytes) held false false

/-! ### Cells of a descriptor -/

/-- The operation request of a descriptor at a cell or element of this hub. -/
def redReq (s : State) (de : Fin 64) (r : DmaRun) (a : Nat) : AtomReq :=
  { issuer := .dma de, epoch := (engine s de).epoch, part := fin16 r.part, ctx := r.under, addr := a, share := fin64 r.desc.c.task,
    reduction := true }

/-- What a cell's change says in the status record (Table 5-8). -/
def noteCause (r : DmaRun) (cause : Nat) : DmaRun :=
  { r with anchorErr := r.anchorErr || cause = 1, stateErr := r.stateErr || (cause = 2 || cause = 3 || cause = 5),
           errSeen := r.errSeen || cause = 4, errCount := r.errCount + 1 }

/-- The causes that an acknowledgement carries (R187). -/
def noteCauses (r : DmaRun) (causes : Nat) : DmaRun :=
  (List.range 16).foldl (fun a i => let c := causes / 16 ^ i % 16; if c ≥ 8 then noteCause a (c - 8) else a) r

/-- An operation of a descriptor on a local cell: events are recorded once per descriptor and class (R200). -/
def cellStep (s : State) (de : Nat) (r : DmaRun) (a : Nat) (op : AtomOp) : State × DmaRun :=
  let c := cellAt s a
  let d := op.cell c
  let s1 := setCell s a d
  let r1 := { r with done := r.done + 1 }
  match cellClass c d with
  | some k => (recordFor s1 de r k a, noteCause r1 d.cause)
  | none => (s1, r1)

/-- A cell or element where the Granary is required: within its scratch, and no line of it held; otherwise a translation fault (R190,
R214, R248). -/
def granaryAt (s : State) (de : Fin 64) (r : DmaRun) (g : List Nat) (va n : Nat) (far : Bool) : Halting (State × Option Nat × Nat) := do
  let (s1, h, pa) ← locate s de r g .atomic va
  let a := localOf pa
  if regionOf a ≠ .scratch ∨ (h.isSome ∧ !far) then throw (s1, .refused 0x41 pa)
  else if h.isSome then pure (s1, h, pa)
  else
    match atomFault s1 (redReq s1 de r a) with
    | some c => throw (s1, .refused c a)
    | none =>
      let held := (conflicts s1 a n true).filter fun l => !g.contains l
      if held.isEmpty then pure (s1, h, pa) else throw (s1, .held held false false)

/-! ### Sources -/

/-- A word sent or read, counted in the status record. -/
def countWord (r : DmaRun) (flags : Nat) : DmaRun := { r with counts := r.counts.entry flags }

/-- A local source cell is read: the cell before, which a read seals; one in NONE shows cause 5, one in ERR its own (R179, R188, Table
5-8). -/
def takeCell (s : State) (de : Fin 64) (r : DmaRun) (g : List Nat) (va : Nat) : Halting (State × DmaRun × Cell) := do
  let (s1, _, pa) ← granaryAt s de r g va 64 false
  let a := localOf pa
  let c := cellAt s1 a
  let s2 := setCell s1 a c.sealUp
  let r1 := countWord r c.out.flags
  if c.readErr.isSome then
    pure (recordFor s2 de r 0x2A a,
      { r1 with stateErr := r1.stateErr || c.state = 0, errSeen := true, errCount := r1.errCount + 1 }, c)
  else pure (s2, r1, c)

/-- A local source range in memory is read, within one line; the sources of MINT_ADD lie in bins (Table 5-7). -/
def takeBytes (s : State) (de : Fin 64) (r : DmaRun) (g : List Nat) (va n : Nat) (bin : Bool) : Halting (State × List (Byte × Bool)) := do
  let (s1, h, pa) ← locate s de r g .read va
  let a := localOf pa
  let ok := match regionOf a with | .bin _ _ => true | .site _ _ => false | _ => !bin
  let q := engineReq s1 de r (.read va n 0) a
  if h.isSome ∨ !ok then throw (s1, .refused 0x41 pa)
  else
    match reqFault s1 q, reachHeld s1 q g with
    | some (c, x), _ => throw (s1, .refused c x)
    | none, some (l, tick) => throw (s1, .held l true tick)
    | none, none =>
      let (s2, y) := ask s1 (ownerOfDma de r.isCmd) q
      pure (s2, y.data)

/-- The next word of a MINT_ADD with its flag byte, and whether it is poisoned (R191). -/
def addSource (s : State) (de : Fin 64) (r : DmaRun) (g : List Nat) (d : RedD) (src : Nat) : Halting (State × DmaRun × Int × Nat × Bool) := do
  let (s1, w) ← takeBytes s de r g (src + 32 * r.next) 32 true
  let (s2, f) ← takeBytes s1 de r g (src + (if d.srcKind = 0 then 0x8_0000 else 0x1000) + r.next) 1 true
  let (s3, r1) := notePoison s2 de r (w ++ f)
  let fl := leVal (f.map Prod.fst)
  pure (s3, countWord r1 fl, mintOfBytes (w.map Prod.fst), fl, (w ++ f).any Prod.snd)

/-- Where the source and the destination of a descriptor begin at its iteration index. -/
def redStarts (r : DmaRun) (d : RedD) : Nat × Nat := (d.src + r.iter * d.srcStepI, d.dst + r.iter * d.dstStepI)

/-- A word on its way, as a packet of its own whose destination is still to be found. -/
def wordPkt (op : Nat) (anchor hi : Int) (err : Option Nat) (v : Int) (flags : Nat) (poison : Bool) : MintPkt :=
  { op := op, anchor := anchor, hi := hi, err := err, dst := 0, words := [(v, flags)], poison := poison }

/-- The source of the next word of a descriptor that writes cells: INIT, ADD, FORWARD or PUT. -/
def wordSource (s : State) (de : Fin 64) (r : DmaRun) (g : List Nat) (d : RedD) (src : Nat) : Halting (State × DmaRun × MintPkt) :=
  let t := r.desc.c.type
  if t = 0x0301 then .ok (s, r, wordPkt 1 d.anchor d.anchor none 0 0 false)
  else if t = 0x0302 then do
    let (s1, r1, v, f, p) ← addSource s de r g d src
    pure (s1, r1, wordPkt 2 d.anchor d.anchor none v f p)
  else do
    let (s1, r1, c) ← takeCell s de r g (src + 64 * r.next)
    let o := c.out
    pure (s1, r1, wordPkt (if t = 0x0304 then 2 else 5) o.anchor o.hi c.readErr o.value o.flags false)

/-- The next word, at its destination. -/
def nextWord (s : State) (de : Fin 64) (r : DmaRun) (g : List Nat) (d : RedD) : Halting (State × DmaRun × MintPkt) := do
  let (src, dst) := redStarts r d
  let (s1, r1, k) ← wordSource s de r g d src
  let (s2, _, pa) ← granaryAt s1 de r g (dst + 64 * r.next) 64 true
  pure (s2, { r1 with next := r1.next + 1 }, { k with dst := pa })

/-! ### Packets of a descriptor -/

/-- A word joins the packet being filled, or starts the next one (R187). -/
def joins (k w : MintPkt) : Bool :=
  k.words.length < 16 && k.op = w.op && k.anchor = w.anchor && k.hi = w.hi && k.err = w.err && k.poison = w.poison &&
    k.dst + 64 * k.words.length = w.dst

/-- The next packet of a descriptor is filled, by at most `n` more words. A word that is refused goes into no packet: what comes before it
is sent first. -/
def fillPacket (de : Fin 64) (g : List Nat) (d : RedD) : Nat → State → DmaRun → Option MintPkt → Halting (State × DmaRun × Option MintPkt)
  | 0, s, r, cur => .ok (s, r, cur)
  | n + 1, s, r, cur =>
    if r.next ≥ d.count then .ok (s, r, cur)
    else
      match nextWord s de r g d, cur with
      | .error (_, .refused _ _), some _ => .ok (s, r, cur)
      | .error e, _ => .error e
      | .ok (s1, r1, w), none => fillPacket de g d n s1 r1 (some w)
      | .ok (s1, r1, w), some k =>
        if joins k w then fillPacket de g d n s1 r1 (some { k with words := k.words ++ w.words }) else .ok (s, r, cur)

/-- A packet of a descriptor goes out: to cells here, or to another hub (R186, R187). -/
def sendPkt (s : State) (de : Fin 64) (r : DmaRun) (compact : Bool) (k : MintPkt) : Worked :=
  let n := k.words.length
  let fit := compact && k.op ≠ 1 && k.fits
  let r1 := if fit then { r with compact := r.compact + n } else r
  if hubOf k.dst = s.leat.hub then
    let (s2, r2) := (indexed k.words).foldl (fun x w =>
      let a := localOf k.dst + 64 * w.1
      if k.poison then (poisonAt x.1 a, { x.2 with done := x.2.done + 1 }) else cellStep x.1 de x.2 a (k.opOf w.2)) (s, r1)
    (s2, r2, .done)
  else
    let b := k.bytes fit
    sendFrom s de r1 false n 0 fun t a =>
      sendPacket a { part := r.part, ctx := r.under, data := shortHeader a (r.desc.c.task % 64) t b.length k.poison ++ b }

/-- The next packet of a descriptor that writes cells. Where one of its words must wait, or no tag is free for it, nothing of it has
happened yet. -/
def packetStep (s : State) (de : Fin 64) (r : DmaRun) (g : List Nat) (d : RedD) : Worked :=
  match fillPacket de g d 16 s r none with
  | .error (_, .held l share tick) => holdRun s de r l share tick
  | .error (s1, h) => haltRun s1 de r r.next h
  | .ok (_, _, none) => (s, r, .full)
  | .ok (s1, r1, some k) =>
    match sendPkt s1 de r1 d.compact k with
    | (_, _, .full) => (s, r, .full)
    | w => w

/-! ### MINT_READ -/

/-- The output of a cell, by its offset from DST: a MINT256 word and its flag byte, or a value in another format (R193). -/
def readOutput (d : RedD) (n : Nat) (c : Cell) : Tbl (List (Byte × Bool)) :=
  let o := c.out
  let bad_ := c.readErr.isSome
  if d.outFmt = 0x20 then
    [(32 * n, clean (if bad_ then List.replicate 32 0#8 else mintBytes o.value)),
      (32 * d.count + n, clean (leBytes 1 (if bad_ then 4 else o.flags)))]
  else
    let f := (fpOf d.outFmt).getD fmtFP32
    [(f.width / 8 * n, clean (leBytes (f.width / 8) (if bad_ then f.nanBits else (convertMint f o.value o.anchor o.flags).1)))]

/-- The next step of a MINT_READ: output is written, and counts with its last part; or the next cell is read (R193). -/
def readStep (s : State) (de : Fin 64) (r : DmaRun) (g : List Nat) (d : RedD) : Option Worked :=
  let (src, dst) := redStarts r d
  match r.buf with
  | (o, b) :: rest =>
    let (s1, r1, w) := runWrite s de r g (dst + o) o 0 0 b
    let cells := flag rest.isEmpty
    let count := fun (q : HostReq) => if q.fn ≥ 17 ∧ q.dst = o then { q with len := cells } else q
    some (match w with
      | .done => (s1, { r1 with buf := rest, done := r1.done + cells }, w)
      | .sent => (s1, { r1 with buf := rest, issued := r1.issued.map count }, w)
      | _ => (s1, r1, w))
  | [] =>
    if r.next ≥ d.count then none
    else
      some (match takeCell s de r g (src + 64 * r.next) with
        | .error (s1, h) => haltRun s1 de r r.next h
        | .ok (s1, r1, c) => (s1, { r1 with next := r1.next + 1, buf := readOutput d r.next c }, .done))

/-! ### Vector operations -/

/-- The atomic operation of a vector type on an element. -/
def vecOp (t v : Nat) : AtomOp :=
  match t with
  | 0x0310 => .iadd true false v
  | 0x0311 => .iadd false false v
  | 0x0312 => .fpick true false v
  | 0x0313 => .fpick false false v
  | 0x0314 => .fpick true true v
  | _ => .fpick false true v

/-- The next element of a vector operation: its source bytes, and where it goes. -/
def nextElement (s : State) (de : Fin 64) (r : DmaRun) (g : List Nat) (d : RedD) :
    Halting (State × DmaRun × Nat × Bool × Option Nat × Nat) := do
  let w := redElem r.desc.c.type
  let (src, dst) := redStarts r d
  let (s1, b) ← takeBytes s de r g (src + w * r.next) w false
  let (s2, h, pa) ← granaryAt s1 de r g (dst + w * r.next) w true
  let (s3, r1) := notePoison s2 de r b
  pure (s3, { r1 with next := r1.next + 1 }, leVal (b.map Prod.fst), b.any Prod.snd, h, pa)

/-- One element is applied. Another hub's elements go one to a packet: the type, then the operand (log entry 23). -/
def elementStep (s : State) (de : Fin 64) (r : DmaRun) (g : List Nat) (d : RedD) : Worked :=
  let t := r.desc.c.type
  match nextElement s de r g d with
  | .error (_, .held l share tick) => holdRun s de r l share tick
  | .error (s1, h) => haltRun s1 de r r.next h
  | .ok (s1, r1, v, p, some h, pa) =>
    (match sendFrom s1 de r1 false 1 0 fun k a =>
        sendUnder a r.under r.part h (r.desc.c.task % 64) 6 k (localOf pa) (leBytes 8 t ++ leBytes 8 v) p with
     | (_, _, .full) => (s, r, .full)
     | w => w)
  | .ok (s1, r1, v, p, none, pa) =>
    let q := redReq s1 de r1 (localOf pa)
    (if p then poisonAt s1 q.addr else (capture s1 fun y => applyElem y q (vecOp t v)).1, { r1 with done := r1.done + 1 }, .done)

/-- The next step of a reduction descriptor: a packet, a cell or an element (R189-R193). -/
def redStep (s : State) (de : Fin 64) (r : DmaRun) (d : RedD) (g : List Nat) : Option Worked :=
  let t := r.desc.c.type
  if t = 0x0303 then readStep s de r g d
  else if r.next ≥ d.count then none
  else some (if t ≥ 0x0310 then elementStep s de r g d else packetStep s de r g d)

end Sys2Proof.Machine
end

