-- ==== Sys2Proof/Machine/Progress.lean ====
section
/-! DEFINITION. The descriptors of the DMA engines as they start, go on step by step, wait, are answered and complete: DMA and
reduction descriptors alike (R21, R22, R147, R192, R194, R266-R268, R322, R329-R332). -/

namespace Sys2Proof.Machine

/-! ### Steps -/

/-- The next step of a descriptor, where it has one: of its work, or of its status record. -/
def stepRun (s : State) (de : Fin 64) (r : DmaRun) (g : List Nat) : Option Worked :=
  if r.blocked ∨ r.paused then none
  else
    match r.phase, r.desc.b with
    | .status, _ => statusStep s de r g
    | .work, .dma d => if r.ended then none else copyStep s de r d g
    | .work, .tallyOp d => tallyStep s de r d
    | .work, .red d => if r.ended then none else redStep s de r d g
    | .work, _ => none

/-- A bound on the steps that a descriptor still takes. -/
def DmaRun.fuel (r : DmaRun) : Nat :=
  4 * (r.todo.length + r.flight.length + r.buf.length) + (match r.desc.b with | .red d => 4 * (d.count - r.next) | _ => 0) + 8

/-- At most `n` steps of a queue's descriptor, which may use the lines `g` that it has waited for. -/
def pumpSteps : Nat → State → Fin 64 → Bool → List Nat → State
  | 0, s, _, _, _ => s
  | n + 1, s, de, c, g =>
    match runOf s de c with
    | none => s
    | some r =>
      match stepRun s de r g with
      | none => s
      | some (_, _, .full) => s
      | some (s1, r1, _) => pumpSteps n (setRun s1 de c (some r1)) de c g

/-- The descriptor of a queue goes on as far as it can, and completes where its status record is over. -/
def pump (s : State) (de : Fin 64) (c : Bool) (g : List Nat) : State :=
  match runOf s de c with
  | none => s
  | some r =>
    let s1 := pumpSteps r.fuel s de c g
    match runOf s1 de c with
    | some r1 => if r1.over_ then finishRun s1 de r1 else s1
    | none => s1

/-- A tag has fallen free: every engine goes on. -/
def pumpAll (s : State) : State := (List.range 64).foldl (fun a n => pump (pump a (fin64 n) false []) (fin64 n) true []) s

/-! ### Waiting and going on -/

/-- A queue's next access no longer waits among the arrivals. -/
def unblock (s : State) (de : Nat) (c : Bool) : State :=
  match s.fab.arrivals.find? fun w => w.what = .engine de c with
  | some w => drainWaiting (leave s w)
  | none => s

/-- A descriptor stops at a line or packet boundary: it gives up its place among the arrivals (R22, R192, R332). -/
def stopRun (s : State) (de : Nat) (r : DmaRun) : State × DmaRun :=
  (if r.blocked then unblock s de r.isCmd else s, { r with blocked := false, halted := true })

/-- It goes on, under the epoch of its context as it now stands (R332). -/
def DmaRun.resumed (s : State) (r : DmaRun) : DmaRun := { r with epoch := (ctxOf s r.ctx).epoch, paused := false }

/-- The access of an engine's queue has come up, with the lines that it waited for. -/
def engineGoes (s : State) (de : Fin 64) (c : Bool) (g : List Nat) : State :=
  match runOf s de c with
  | some r => pump (setRun s de c (some { r with blocked := false })) de c g
  | none => s

/-- An engine that runs no plan work takes up the suspended descriptor of its current job; nothing resumes under a context that is
being cleared (R267, R332). -/
def arrangeEngine (s : State) (de : Fin 64) : State :=
  let e := engine s de
  match e.run, currentJob s (.dma de) with
  | none, some j =>
    match e.parked.find? fun r => r.job.same j with
    | some r =>
      if clearing s r.ctx then s
      else pump (setEngine s de { e with run := some (r.resumed s), parked := e.parked.filter fun x => !x.job.same j }) de false []
    | none => s
  | _, _ => s

/-! ### Starting -/

/-- The pieces that a descriptor starts with; a TALLY_OP is one piece without bytes. -/
def DmaRun.opened (r : DmaRun) : DmaRun :=
  { r with todo := match r.desc.b with
    | .dma d => r.pieces d
    | .tallyOp _ => [{ off := 0, src := 0, len := 0 }]
    | _ => [] }

/-- A descriptor starts its work. One of a command queue whose context has been unbound meanwhile, or bound to another partition, ends
at once (R266, log entry 84). -/
def startRun (s : State) (de : Fin 64) (r : DmaRun) : State :=
  let (s1, r1) := if r.isCmd ∧ !boundTo s r.ctx r.part then refuseRun s de r false 0 else (s, r.opened)
  pump (setRun s1 de r.isCmd (some r1)) de r.isCmd []

/-- A descriptor that is over is to write its status record (R194, R330). -/
def closeRun (s : State) (de : Fin 64) (r : DmaRun) : State := pump (setRun s de r.isCmd (some (r.close s de))) de r.isCmd []

/-- A descriptor's wait is answered; then it starts, waits or is skipped as stale (R147, R322). None starts under a context that is being
cleared (R267). -/
def offer (s : State) (de : Fin 64) (r : DmaRun) : State :=
  let w := workOf de r.isCmd
  if clearing s r.ctx then s
  else
    match gate (wakeJob s w r.job) w r.desc.c r.part r.desc.b.hub with
    | (s1, .wait) => s1
    | (s1, .skip) => closeRun (setMoved s1 w r.part) de { r with stale := true }
    | (s1, .go) => startRun (setMoved s1 w r.part) de r

/-- The plan work that an engine could start now. -/
def planRun (s : State) (de : Nat) : Option DmaRun :=
  match (engine s de).run, currentJob s (.dma de) with
  | none, some j =>
    match jobPlan s j, nextDesc s j with
    | some (p, sl, n), some (_, d) => some (.start s false j 0 p.part sl.ctx d n)
    | _, _ => none
  | _, _ => none

/-- A command-started descriptor may run in the bucket in progress: not in the tailrace, idle for every active plan, and owned
by the queue's owner (R21, R325). -/
def cmdBucket (s : State) (de : Nat) : Bool :=
  !inTailrace s && (activeAt s { type := 2, index := de } s.turn.bucket).isNone &&
    s.set.ownerOf 2 de s.turn.bucket = (engine s de).owner

/-- The command work that an engine could start now: plan work goes first (R22). -/
def queuedRun (s : State) (de : Nat) : Option DmaRun :=
  let e := engine s de
  match e.run, currentJob s (.dma de), e.cmdRun, e.queue.head? with
  | none, none, none, some c =>
    if cmdBucket s de then
      let job : Job := { handle := 0, slot := 0, turn := 0, next := 0, suspended := false, overrun := false, saved := .none }
      some (.start s true job c.seq e.owner c.ctx c.desc 0)
    else none
  | _, _, _, _ => none

def isTransfer (d : Desc) : Bool := match d.b with | .dma _ => true | .tallyOp _ => true | _ => false

/-- DMA_DESC_START (R21, R22, R329). -/
def execDmaDescStart (de : Fin 64) (s : State) : Host.Outcome State Fault Refusal :=
  act s fun t0 =>
    let t := arrangeEngine t0 de
    if !domainOn t 28 then t
    else
      match planRun t de, queuedRun t de with
      | some r, _ => if isTransfer r.desc then offer t de r else t
      | none, some r => offer t de r
      | none, none => t

/-- REDUCTION_DESC_START (R192). -/
def execReductionDescStart (de : Fin 64) (s : State) : Host.Outcome State Fault Refusal :=
  act s fun t0 =>
    let t := arrangeEngine t0 de
    if !domainOn t 28 then t
    else
      match planRun t de with
      | some r => if isRed r.desc then offer t de r else t
      | none => t

/-! ### Completing -/

/-- DMA_DESC_COMPLETE (R330). -/
def execDmaDescComplete (de : Fin 64) (s : State) : Host.Outcome State Fault Refusal :=
  act s fun t =>
    match pickRun t de (fun r => isTransfer r.desc && runDone t de r) with
    | some r => arrangeEngine (closeRun t de r) de
    | none => t

/-- REDUCTION_DESC_COMPLETE (R194). -/
def execReductionDescComplete (de : Fin 64) (s : State) : Host.Outcome State Fault Refusal :=
  act s fun t =>
    match (engine t de).run with
    | some r => if isRed r.desc && runDone t de r then arrangeEngine (closeRun t de r) de else t
    | none => t

/-! ### Answers -/

/-- The run that waits for an answer: engine, run and request. -/
def waitingFor (s : State) (f : HostReq → Bool) : Option (Nat × DmaRun × HostReq) :=
  s.dma.findSome? fun x => x.2.runs.findSome? fun y => (y.issued.find? f).map fun q => (x.1, y, q)

/-- A run without a request that has been answered. -/
def DmaRun.answered (r : DmaRun) (q : HostReq) : DmaRun := { r with issued := r.issued.filter (· ≠ q) }

/-- A run has been answered: it goes on, or is over, and what waited for its tag goes on. -/
def runAnswered (s : State) (n : Nat) (r : DmaRun) : State :=
  let s1 := putRun s n r
  let s2 := if r.over_ then finishRun s1 (fin64 n) r else s1
  arrangeEngine (settleInvals (pumpAll s2)) (fin64 n)

/-- Data arrives for a read. -/
def readArrives (s : State) (n : Nat) (r : DmaRun) (q : HostReq) (b : List (Byte × Bool)) : State :=
  runAnswered s n ((r.answered q).takeData q b)

/-- A write or operation is acknowledged, with the causes that a mint packet met (R187, R330); one that was dropped is reported as
poisoned (R233). -/
def writeAcked (s : State) (n : Nat) (r : DmaRun) (q : HostReq) (causes : Nat) (lost : Bool) : State :=
  let a := r.answered q
  runAnswered s n (noteCauses { a with done := a.done + q.len, poison := a.poison || lost } causes)

/-- A request is refused (R331). -/
def reqRefused (s : State) (n : Nat) (r : DmaRun) (q : HostReq) : State :=
  let (s1, r1) := refuseRun s n (r.answered q) false q.dst
  runAnswered s1 n r1

/-- DMA_REQUEST_REFUSED (R331): the request at an offset is no longer in flight, and the descriptor ends early. -/
def execDmaRequestRefused (de : Fin 64) (guard : Bool) (offset : Nat) (s : State) : Host.Outcome State Fault Refusal :=
  act s fun t =>
    match pickRun t de (fun _ => true) with
    | some r =>
      let (t1, r1) := refuseRun (if r.blocked then unblock t de r.isCmd else t) de
        { r with issued := r.issued.filter (fun q => q.dst ≠ offset), blocked := false } guard offset
      runAnswered t1 de r1
    | none => t

end Sys2Proof.Machine
end

