-- ==== Sys2Proof/Machine/Sites.lean ====
section
/-! DEFINITION. The open sites: packets of chiplets, aperture replies, calls of plan slots, modules and the sideband (R373-R413). -/

namespace Sys2Proof.Machine

/-! ### Answers -/

/-- A site's main band carries packets. -/
def siteUp (s : State) (n : Nat) : Bool :=
  domainOn s 28 && domainOn s (domOfSite n) && decide ((siteOf s n).state = .inService)

def siteRec (s : State) (n cls : Nat) : Rec := { cls := cls, kind := 7, index := n, part := some (s.set.sitePartOf n) }

/-- A packet towards a chiplet. -/
def toChiplet (s : State) (n op sub tag addr : Nat) (d : Bytes) (poison : List Bool) : State :=
  emit s (.sitePacket n op sub tag addr d poison)

/-- ERR; its status is a value that the spec leaves open. -/
def siteErr (s : State) (n tag : Nat) : State :=
  toChiplet (takeFresh s) n 5 (Config.freeValue s.fresh % 256) tag 0 [] []

/-- Data bytes of an old value. -/
def atomWidth : SiteAtom → Nat
  | .iadd w _ _ => if w then 8 else 4
  | .cas w _ _ => if w then 8 else 4
  | _ => 8

/-- The operation that a packet asks for. -/
def atomOf : SiteAtom → AtomOp
  | .iadd w f v => .iadd w f v
  | .cas w c v => .cas w c v
  | .fpick m b v => .fpick m b v
  | .mintInit a => .mintInit a
  | .mintAdd w => .mintAdd w
  | .mintRead => .mintRead

/-- The reply to a chiplet's packet: RD_DATA, WR_ACK, ATOMIC_RSP or ERR (Table 12-4). A write that was dropped is acknowledged as poisoned
(R233). -/
def answerChiplet (s : State) (n op tag width : Nat) (o : Option Output) : State :=
  let back := if op = 1 then 3 else if op = 6 then 7 else 4
  match o with
  | some (.readData d q) => toChiplet s n back 0 tag 0 d q
  | some (.zeroData k) => toChiplet s n back 0 tag 0 (List.replicate k 0#8) []
  | some (.value v) => toChiplet s n back 0 tag 0 (leBytes width v) []
  | some .ack => toChiplet s n back 0 tag 0 [] []
  | some .ackPoisoned => toChiplet s n back 0 tag 0 [] [true]
  | _ => siteErr s n tag

/-- Bytes written, and poison met, count for the call that runs (Table 12-8). -/
def countCall (s : State) (n bytes : Nat) (poison : Bool) : State :=
  let x := siteOf s n
  match x.run with
  | some r => setSite s n { x with run := some { r with written := r.written + bytes, poison := r.poison || poison } }
  | none => s

/-- A call meets a refusal, recorded once for its descriptor and its class (R293). -/
def callRec (s : State) (n : Nat) (r : SiteRun) (cls addr : Nat) : State :=
  recordIn s (ownerOfSite n) { siteRec s n cls with part := some r.part, task := r.desc.c.task, addr := addr }

/-! ### The end of a call -/

/-- The status record of Table 12-8. -/
def siteStatus (s : State) (n : Nat) (r : SiteRun) : Bytes :=
  let late := jobLate s (.site n) r.job
  leBytes 6 (now s) ++ leBytes 2 (r.j % 65536) ++
    leBytes 1 (flag r.refused + 2 * flag r.fault + 4 * flag r.suspended + 8 * flag r.stale + 16 * flag late + 32 * flag r.poison) ++
    leBytes 1 r.desc.c.task ++ leBytes 1 (r.done.getD 0) ++ leBytes 1 0 ++ leBytes 8 r.written ++ List.replicate 12 0#8

/-- The context of a call. -/
def callCtx (s : State) (r : SiteRun) : Nat := match jobSlot s r.job with | some sl => sl.ctx | none => 0

/-- The context and context epoch of a call's own requests (R264). -/
def callUnder (s : State) (r : SiteRun) : Nat × Nat := (callCtx s r, (ctxOf s (callCtx s r)).epoch)

def fin12 (n : Nat) : Fin 12 := ⟨n % 12, Nat.mod_lt _ (by decide)⟩

/-- The write of a call's status record at a local address, by the site's adapter. -/
def adapterWrite (s : State) (n : Nat) (r : SiteRun) (a : Nat) : MemReq :=
  { issuer := .siteAgent (fin12 n), epoch := (agentOf s n).epoch, part := fin16 r.part, ctx := some (callUnder s r), kind := .write, addr := a,
    len := 0, data := siteStatus s n r, mask := [], poison := [], share := fin64 (s.set.siteShareOf n), hint := 0, target := 0,
    ecc := .clean }

/-- The tag of a site's request on the Leat ports: nine numbers for requests, and 9 for the raises of its calls (log entry 23). -/
def siteTag (n k : Nat) : Nat := (n * 10 + k) * 32 + 30

/-- A number for a chiplet's request on another hub. -/
def freeRemote (x : Site) : Option Nat := (List.range 9).find? fun k => !x.remote.any fun e => e.req.num = k

/-- Where a call's status record goes. -/
def statusVa (r : SiteRun) : Option Nat := match r.desc.b with | .site d => d.status | _ => none

/-- The descriptor has been dealt with: raise, and the slot goes on (R399, R403). -/
def closeCall (s : State) (n : Nat) (r : SiteRun) : State :=
  let x := siteOf s n
  let drop := fun (l : List SiteRun) => l.filter fun y => !y.job.same r.job
  let s1 := setSite s n { x with run := x.run.filter fun y => !y.job.same r.job, parked := drop x.parked }
  let s2 := if r.desc.c.raiseEn && !r.stale then
    raiseTo s1 (.site n) (callUnder s1 r) r.part (siteTag n 9) r.desc.c r.desc.b.hub
      ((statusVa r).map fun v => (v + 8, r.events)) else s1
  let s3 := match jobNow s2 (.site n) r.job with
    | some j => (match nextDesc s2 j with | some (k, _) => passDesc s2 (.site n) j k | none => s2)
    | none => s2
  settleInvals (endGroups (setMoved s3 (.site n) r.part) (ownerOfSite n))

/-- A call's status record has been sent, and is awaited. -/
def markSent (s : State) (n : Nat) (r : SiteRun) : State :=
  let x := siteOf s n
  let at_ := fun (y : SiteRun) => if y.job.same r.job then { y with sent := true, events := r.events } else y
  setSite s n { x with run := x.run.map at_, parked := x.parked.map at_ }

/-- A site's next access of its own waits among the arrivals. -/
def callWaits (s : State) (n : Nat) : Bool := s.fab.arrivals.any fun w => w.what = .call n

/-- It takes its place there, where it has none yet. -/
def waitCall (s : State) (n : Nat) (lines : List Nat) (share tick : Bool) : State :=
  if callWaits s n then s else enqueue s (.call n) lines share tick

/-- Where a call's own virtual address leads, for a site's adapter: the lines of table entries that it must wait for first (R248, R398). -/
def callHeld (s : State) (n c : Nat) (g : List Nat) (va : Nat) : List Nat := (walkHeld s (64 + n) c va).filter fun l => !g.contains l

/-- A call ends: its status record is written where it can be, and once that has been acknowledged the call is closed (R23, R399). `g` are
the lines that it has waited for. -/
def endCall (s : State) (n : Nat) (r0 : SiteRun) (g : List Nat) : State :=
  let r := { r0 with events := ((siteStatus s n r0).getD 8 0#8).toNat }
  match statusVa r with
  | none => closeCall s n r
  | some v =>
    let held := callHeld s n (callCtx s r) g v
    if r.sent then s
    else if !held.isEmpty then waitCall s n held true false
    else
      match translate s (64 + n) (callCtx s r) .write v with
      | (s1, .error c) => closeCall (callRec s1 n r c v) n r
      | (s1, .ok pa) =>
        match route s1 r.part pa with
        | .error c => closeCall (callRec s1 n r c pa) n r
        | .ok (some h) =>
          let x := siteOf s1 n
          (match freeRemote x with
           | some k =>
             let (s2, e) := sendAccess s1 k (some (callUnder s1 r)) r.part h (s.set.siteShareOf n) false (siteTag n k) (localOf pa) 0
               (siteStatus s n r) []
             let q : SiteReq := { req := e, tag := 0, op := 0x100, bytes := 0, poison := false }
             markSent (setSite s2 n { siteOf s2 n with remote := x.remote ++ [q] }) n r
           | none => s1)
        | .ok none =>
          let q := adapterWrite s1 n r (localOf pa)
          match reachHeld s1 q g with
          | some (l, tick) => waitCall s1 n l false tick
          | none =>
            let (s2, _, far) := askFor s1 (.call n) fun t => asDescriptor t (ownerOfSite n) fun y => memoryRequest y q
            if far then markSent s2 n r else closeCall s2 n r

/-- A site's chiplet has no request at the hub that is not yet answered. -/
def siteQuiet (s : State) (n : Nat) : Bool :=
  let x := siteOf s n
  !(s.fab.arrivals.any fun w => match w.what with | .site _ p _ => decide (p.site.val = n) | _ => false) &&
    x.remoteWait.isEmpty && (x.remote.all fun e => e.op = 0x100) &&
    !((List.range 12).any fun m => (siteOf s m).aperture.any fun q => match q.asker with | .chiplet k _ _ => k = n | _ => false)

/-- A call that has reported done ends once every write of it has been acknowledged (R399). -/
def finishSite (g : List Nat) (s : State) (n : Nat) : State :=
  match (siteOf s n).run with
  | some r => if r.done.isSome && siteQuiet s n then endCall s n r g else s
  | none => s

/-- The status record of a site's call is acknowledged. -/
def statusAcked (s : State) (n : Nat) : State :=
  let x := siteOf s n
  match (x.run.toList ++ x.parked).find? SiteRun.sent with
  | some r => closeCall s n r
  | none => s

/-- A call without its outcome ends with SITE_FAULT (R403, R404). -/
def faultCall (s : State) (n : Nat) (r : SiteRun) : State :=
  if r.sent then s
  else
    let r1 := { r with fault := true, done := some 0 }
    let x := siteOf s n
    let at_ := fun (y : SiteRun) => if y.job.same r.job then r1 else y
    endCall (setSite s n { x with run := x.run.map at_, parked := x.parked.map at_ }) n r1 []

/-- A site goes down: its agent is fenced, unless it has flushed for a switch-off, and its calls end (R259, R387, R404). -/
def siteDown (s : State) (n : Nat) (flushed : Bool) : State :=
  let x := siteOf s n
  if x.state = .inService then
    let s1 := tariffChanged (setSite s n { x with state := .down })
    let s2 := if flushed then s1 else fence (record s1 (siteRec s1 n 0x79)) n
    (x.run.toList ++ x.parked).foldl (fun a r => faultCall a n r) s2
  else s

/-! ### Requests of chiplets -/

/-- The request of a packet at a local address. -/
def siteMem (s : State) (p : SitePkt) (write : Bool) : MemReq :=
  { issuer := .siteAgent p.site, epoch := p.epoch, part := fin16 (s.set.sitePartOf p.site), ctx := none,
    kind := if write then .write else .read, addr := localOf p.addr, len := 64 * p.len, data := p.data, mask := p.mask,
    poison := p.poison, share := fin64 (s.set.siteShareOf p.site), hint := 0, target := 0, ecc := .clean }

/-- Its atomic operation. -/
def siteAtomReq (s : State) (p : SitePkt) : AtomReq :=
  { issuer := .siteAgent p.site, epoch := p.epoch, part := fin16 (s.set.sitePartOf p.site), ctx := none, addr := localOf p.addr,
    share := fin64 (s.set.siteShareOf p.site), reduction := false }

/-- A tally packet (R385). -/
def siteTally (s : State) (p : SitePkt) : State :=
  match regionOf (localOf p.addr) with
  | .regs o =>
    if inTallyWindow o && o % 8 = 0 then
      let v := leVal p.data
      let t : Fin 16384 := ⟨(o - 0x80_0000) / 8 % 16384, Nat.mod_lt _ (by decide)⟩
      tallyWrite s { tally := t, word := BitVec.ofNat 64 v, width := p.data.length, part := fin16 (s.set.sitePartOf p.site),
                     remote := false } (if bits v 34 32 = 1 then 1 else 2)
    else refuse s 0xA0 (s.set.sitePartOf p.site) p.addr
  | _ => refuse s 0xA0 (s.set.sitePartOf p.site) p.addr

/-- What a packet at a local address waits for: lines, and whether only until intake opens (R77, R242, R248, R504). -/
def siteHeld (s : State) (op : Nat) (p : SitePkt) : Option (List Nat × Bool) :=
  if op = 6 then
    let q := siteAtomReq s p
    let l := conflicts s q.addr 1 true
    if (atomFault s q).isNone && !l.isEmpty then some (l, false) else none
  else if op = 1 ∨ op = 2 then reachHeld s (siteMem s p (op = 2)) []
  else none

/-- A packet is served: deed-checked as a request of the site's partition, and answered, at once or when another chiplet has replied (R384). -/
def serveChiplet (s : State) (op : Nat) (p : SitePkt) (a : Option SiteAtom) : State :=
  let (s1, o, far) := askFor s (.chiplet p.site op p.tag) fun t =>
    match op, a with
    | 0x0E, _ => siteTally t p
    | 6, some x => atomNow t (siteAtomReq t p) (atomOf x)
    | _, _ => memoryRequest t (siteMem t p (op = 2))
  let ok := op = 2 && o.head? = some .ack
  let bad := match o.head? with | some (.readData _ q) => q.any id | some .ackPoisoned => true | _ => p.poison.any id
  let s2 := countCall s1 p.site (if ok then p.data.length else 0) bad
  if far then s2 else answerChiplet s2 p.site op p.tag (match a with | some x => atomWidth x | none => 8) o.head?

/-- A packet for another hub sets out, waits for a number, or is refused (R36, R286, R384). -/
def siteAbroad (s : State) (op : Nat) (p : SitePkt) : State :=
  let part := s.set.sitePartOf p.site
  let x := siteOf s p.site
  let h := hubOf p.addr
  let no := fun cls => siteErr (recordRefusal s { siteRec s p.site cls with addr := p.addr }) p.site p.tag
  if (classFor s.set part (s.set.siteShareOf p.site)).isNone then no 0x34
  else if !hubExists s h then no 0x60
  else if s.set.windowMode then no 0x41
  else if op = 6 ∨ p.mask.any (!·) then no 0x25
  else
    match freeRemote x with
    | none => setSite s p.site { x with remoteWait := x.remoteWait ++ [(op, p)] }
    | some k =>
      let a := localOf p.addr
      let share := s.set.siteShareOf p.site
      let (s1, e) : State × Abroad :=
        if op = 0x0E then
          (sendTo s part h share 5 (siteTag p.site k) a p.data false,
            { num := k, read := false, addr := a, left := 1, got := [], refused := false, lost := false })
        else sendAccess s k none part h share (decide (op = 1)) (siteTag p.site k) a (64 * p.len) p.data p.poison
      let q : SiteReq := { req := e, tag := p.tag, op := op, bytes := if op = 2 then p.data.length else 0, poison := p.poison.any id }
      setSite s1 p.site { siteOf s1 p.site with remote := x.remote ++ [q] }

/-- The form of a packet (R383). -/
def pktFormOk (op : Nat) (p : SitePkt) : Bool :=
  !p.malformed && p.len ≤ 32 &&
    (if op = 1 then 1 ≤ p.len && p.data.isEmpty
     else if op = 2 then 1 ≤ p.len && p.data.length = 64 * p.len && (p.mask.length = (if p.len = 1 then 64 else 0)) else true)

/-- A malformed packet is refused with ERR and class 0x78 (R15, R383). -/
def refuseForm (s : State) (p : SitePkt) : State := siteErr (record s (siteRec s p.site 0x78)) p.site p.tag

/-- A request of a chiplet arrives (R382-R384, R258, R529). -/
def chipletSends (s : State) (op : Nat) (p : SitePkt) (a : Option SiteAtom) : State :=
  let n := p.site.val
  let cxlOk := match a with | some (.iadd _ _ _) => true | some (.cas _ _ _) => true | _ => decide (op = 1 ∨ op = 2)
  if !siteUp s n then s
  else if !pktFormOk op p ∨ ((siteOf s n).cxl ∧ !cxlOk) then refuseForm s p
  else if (agentOf s n).fenced then siteErr s n p.tag
  else if p.epoch % 256 ≠ (agentOf s n).epoch then siteErr (record s (cohRec s 0x3B n (p.addr / 128))) n p.tag
  else if hubOf p.addr ≠ s.leat.hub then siteAbroad s op p
  else
    match siteHeld s op p with
    | some (l, tick) => enqueue s (.site op p a) l (op = 1) tick
    | none => serveChiplet s op p a

/-- A packet of a chiplet that has waited is served, where its site and its agent still may (R258, R529). -/
def chipletGoes (s : State) (op : Nat) (p : SitePkt) (a : Option SiteAtom) : State :=
  if !siteUp s p.site then s
  else if (agentOf s p.site).fenced || p.epoch % 256 ≠ (agentOf s p.site).epoch then siteErr s p.site p.tag
  else serveChiplet s op p a

/-- RD (R384). -/
def execRd (p : SitePkt) (s : State) : Host.Outcome State Fault Refusal := act s fun t => chipletSends t 1 p none

/-- WR (R384). -/
def execWr (p : SitePkt) (s : State) : Host.Outcome State Fault Refusal := act s fun t => chipletSends t 2 p none

/-- ATOMIC (R382). -/
def execAtomic (p : SitePkt) (op : SiteAtom) (s : State) : Host.Outcome State Fault Refusal :=
  act s fun t => chipletSends t 6 p (some op)

/-- TALLY (R385). -/
def execTally (p : SitePkt) (s : State) : Host.Outcome State Fault Refusal := act s fun t => chipletSends t 0x0E p none

/-- A request of a chiplet on another hub has been answered; one that waited for its number sets out. What a write brought there counts for
the call that runs (R384, Table 12-8). -/
def abroadAnswered (s : State) (n k : Nat) (o : Output) : State :=
  let x := siteOf s n
  match x.remote.find? fun e => e.req.num = k with
  | none => s
  | some e0 =>
    let e := { e0 with req := e0.req.take o }
    let rest := x.remote.filter fun y => y.req.num ≠ k
    if e.req.left ≠ 0 then setSite s n { x with remote := rest ++ [e] }
    else
      let s1 := setSite s n { x with remote := rest, remoteWait := x.remoteWait.drop 1 }
      let a := e.req.answer
      let ok := decide (a = .ack)
      let bad := match a with | .readData _ q => q.any id | .ackPoisoned => true | _ => e.poison
      let s2 := if e.op = 0x100 then statusAcked s1 n
        else answerChiplet (countCall s1 n (if ok then e.bytes else 0) bad) n e.op e.tag 8 (some a)
      let s3 := match x.remoteWait.head? with | some (q, y) => siteAbroad s2 q y | none => s2
      finishSite [] s3 n

/-! ### Aperture replies -/

/-- An answer to a request of another hub at a local address: read data, in the packets that carry them, acknowledgement or error (Table
11-3, R347); a write that was dropped is acknowledged as poisoned (R233). -/
def answerFar (s : State) (src tag part share a : Nat) (o : Option Output) : State :=
  match o with
  | some (.readData d q) => (dataParts a d q).foldl (fun t x => sendTo t part src share 2 tag 0 x.1 x.2) s
  | some (.zeroData n) => sendTo s part src share 2 tag 0 (List.replicate n 0#8) false
  | some .ack => sendTo s part src share 3 tag 0 [] false
  | some .ackPoisoned => sendTo s part src share 3 tag 0 [] true
  | some (.mintAck c) => sendTo s part src share 3 tag 0 (leBytes 8 c) false
  | some (.value _) => sendTo s part src share 3 tag 0 [] false
  | _ => sendTo s part src share 9 tag 0 [] false

/-- A reply of a chiplet, or its absence, reaches the issuer of the aperture request (R386). -/
def apertureReply (s : State) (n tag : Nat) (o : Output) : State :=
  let x := siteOf s n
  match x.aperture.find? fun e => e.tag = tag with
  | none => s
  | some e =>
    let s1 := setSite s n { x with aperture := x.aperture.filter (· ≠ e) }
    match e.asker with
    | .far src t part share => answerFar s1 src t part share e.addr (some o)
    | .chiplet m op t => finishSite [] (answerChiplet s1 m op t 8 (some o)) m
    | .call m => statusAcked s1 m
    | .row =>
      match waitingFor s1 (fun q => q.fn = 32 + n && q.tag = tag), o with
      | some (de, r, q), .readData d b => readArrives s1 de r q (markUnits q.addr d b)
      | some (de, r, q), .ack => writeAcked s1 de r q 0 false
      | some (de, r, q), _ => reqRefused s1 de r q
      | none, _ => emit s1 o

/-- A message of a chiplet in the main band: refused where it is malformed (R15, R383). -/
def chipletSays (s : State) (p : SitePkt) (f : State → State) : State :=
  if !siteUp s p.site then s else if p.malformed ∨ p.len > 32 then refuseForm s p else f s

/-- RD_DATA (R386). -/
def execRdData (p : SitePkt) (s : State) : Host.Outcome State Fault Refusal :=
  act s fun t => chipletSays t p fun u => apertureReply u p.site p.tag (.readData p.data p.poison)

/-- WR_ACK (R386). -/
def execWrAck (p : SitePkt) (s : State) : Host.Outcome State Fault Refusal :=
  act s fun t => chipletSays t p fun u => apertureReply u p.site p.tag .ack

/-- The reply to an aperture request fails: class 0x70 (R32, R386). -/
def apertureFails (s : State) (n tag : Nat) : State :=
  if (siteOf s n).aperture.any fun e => e.tag = tag then apertureReply (record s (siteRec s n 0x70)) n tag .errorCompletion else s

/-- ERR: the chiplet has nothing at the address (R32, R386). -/
def execErr (p : SitePkt) (s : State) : Host.Outcome State Fault Refusal :=
  act s fun t => chipletSays t p fun u => apertureFails u p.site p.tag

/-- APERTURE_TIMEOUT (R386). -/
def execApertureTimeout (site : Fin 12) (tag : Nat) (s : State) : Host.Outcome State Fault Refusal :=
  act s fun t => apertureFails t site tag

/-! ### Calls -/

/-- A range of a call: within one leaf page, or refused with its class (R398). All ones stands for none. -/
def callRange (s : State) (n ctx : Nat) (va : Option Nat) (len : Nat) (k : Access) : State × Except Nat Nat :=
  match va with
  | none => (s, .ok (2 ^ 64 - 1))
  | some v =>
    match translate s (64 + n) ctx k v with
    | (s1, .ok pa) =>
      (match cached s1 (64 + n) ctx v with
       | some e => if v + len ≤ e.va + e.size then (s1, .ok pa) else (s1, .error 0x41)
       | none => (s1, .ok pa))
    | (s1, .error c) => (s1, .error c)

/-- Body of SLOT_START (R398). -/
def slotBody (d : SiteD) (ip op : Nat) : Bytes :=
  d.args ++ leBytes 8 d.units ++ leBytes 8 ip ++ leBytes 8 d.inLen ++ leBytes 8 op ++ leBytes 8 d.outLen

/-- A call as it begins. -/
def SiteRun.start (job : Job) (tag part : Nat) (d : Desc) (j : Nat) : SiteRun :=
  { job := job, tag := tag, part := part, desc := d, j := j, written := 0, refused := false, fault := false, stale := false,
    poison := false, suspended := false, suspending := false, done := none, sent := false, events := 0 }

/-- A call that ends before the chiplet sees it. -/
def endAtOnce (s : State) (n : Nat) (r : SiteRun) : State :=
  let r1 := { r with done := some 0 }
  endCall (setSite s n { siteOf s n with run := some r1 }) n r1 []

/-- The virtual addresses of a call's two ranges. -/
def callRanges (r : SiteRun) (d : SiteD) : Option Nat × Option Nat :=
  let o := r.desc.c.indexAt r.j * d.stepI
  (d.inVa.map (· + o), d.outVa.map (· + o))

/-- A call starts: ranges translated, SLOT_START sent (R398). At a site that is not in service it ends with SITE_FAULT (R404). -/
def startCall (s : State) (n : Nat) (sl : Slot) (r : SiteRun) : State :=
  match r.desc.b with
  | .site d =>
    if !siteUp s n ∨ (siteOf s n).cxl then endAtOnce s n { r with fault := true }
    else
      let (iv, ov) := callRanges r d
      let (s1, a) := callRange s n sl.ctx iv d.inLen .read
      let (s2, b) := callRange s1 n sl.ctx ov d.outLen .write
      match a, b with
      | .ok ip, .ok op =>
        setMoved (toChiplet (setSite s2 n { siteOf s2 n with run := some r }) n 9 0 0 r.tag (slotBody d ip op) []) (.site n) r.part
      | .error c, _ => endAtOnce (callRec s2 n r c (iv.getD 0)) n { r with refused := true }
      | _, .error c => endAtOnce (callRec s2 n r c (ov.getD 0)) n { r with refused := true }
  | _ => s

/-- A site that runs no call takes up the suspended call of its current job with SLOT_RESUME (R400). -/
def arrangeSite (s : State) (n : Nat) : State :=
  let x := siteOf s n
  match x.run, currentJob s (.site n) with
  | none, some j =>
    match x.parked.find? fun r => r.job.same j with
    | some r =>
      let y := { x with run := some { r with suspending := false }, parked := x.parked.filter fun q => !q.job.same j }
      if siteUp s n then toChiplet (setSite s n y) n 0x0D 0 0 r.tag [] [] else s
    | none => s
  | _, _ => s

/-- The next call of a site starts, waits or is skipped as stale (R147, R322); none starts under a context that is being cleared, and one
whose table entries agents own waits for them (R248, R267). -/
def tryCall (s : State) (n : Nat) (g : List Nat) : State :=
  let x := siteOf s n
  match x.run, currentJob s (.site n), domainOn s 28 with
  | none, some j, true =>
    match jobPlan s j, nextDesc s j with
    | some (p, sl, k), some (_, d) =>
      let r := SiteRun.start j (freeTag (x.parked.map SiteRun.tag) 64) p.part d k
      let held := match d.b with
        | .site b => let (iv, ov) := callRanges r b; (iv.toList ++ ov.toList).flatMap (callHeld s n sl.ctx g)
        | _ => []
      if clearing s sl.ctx then s
      else if !held.isEmpty then waitCall s n held true false
      else
        (match gate (wakeJob s (.site n) j) (.site n) d.c p.part d.b.hub with
         | (t1, .wait) => t1
         | (t1, .skip) => endAtOnce (setMoved t1 (.site n) r.part) n { r with stale := true }
         | (t1, .go) => startCall t1 n sl r)
    | _, _ => s
  | _, _, _ => s

/-- A site's own access has come up, with the lines that it waited for. -/
def callGoes (s : State) (n : Nat) (g : List Nat) : State :=
  let x := siteOf s n
  match (x.run.toList ++ x.parked).find? fun r => r.done.isSome with
  | some r => if r.fault then endCall s n r g else finishSite g s n
  | none => tryCall s n g

/-- SITE_CALL_START (R398). -/
def execSiteCallStart (site : Fin 12) (s : State) : Host.Outcome State Fault Refusal :=
  act s fun t => tryCall (arrangeSite t site) site []

/-- SLOT_DONE (R399). -/
def execSlotDone (p : SitePkt) (s : State) : Host.Outcome State Fault Refusal :=
  act s fun t => chipletSays t p fun u =>
    let x := siteOf u p.site
    match x.run with
    | some r =>
      if r.tag = p.addr && r.done.isNone then
        arrangeSite (finishSite [] (setSite u p.site { x with run := some { r with done := some p.sub.toNat } }) p.site) p.site
      else u
    | none => u

/-- A call that has stopped for a resource boundary leaves the site to the incoming slot (R50, R400). -/
def parkCall (s : State) (n : Nat) : State :=
  let x := siteOf s n
  match x.run with
  | some r =>
    let mine := match jobNow s (.site n) r.job with | some j => runnable s (.site n) j | none => true
    if r.suspending && r.suspended && r.done.isNone && !mine then setSite s n { x with run := none, parked := x.parked ++ [r] } else s
  | none => s

/-- SLOT_SUSPEND (R400). -/
def execSlotSuspend (site : Fin 12) (s : State) : Host.Outcome State Fault Refusal :=
  act s fun t =>
    let x := siteOf t site
    match x.run with
    | some r =>
      if siteUp t site && r.done.isNone && !r.suspending then
        toChiplet (setSite t site { x with run := some { r with suspending := true } }) site 0x0B 0 0 r.tag [] []
      else t
    | none => t

/-- SLOT_SUSPENDED (R400). -/
def execSlotSuspended (p : SitePkt) (s : State) : Host.Outcome State Fault Refusal :=
  act s fun t => chipletSays t p fun u =>
    let x := siteOf u p.site
    match x.run with
    | some r =>
      if r.tag = p.addr && r.suspending then
        parkCall (setSite u p.site { x with run := some { r with suspended := true } }) p.site
      else u
    | none => u

/-- SITE_CALL_TIMEOUT: the site is isolated (R403). -/
def execSiteCallTimeout (site : Fin 12) (s : State) : Host.Outcome State Fault Refusal :=
  act s fun t =>
    if (siteOf t site).run.isSome && siteUp t site then
      siteDown (record (emit t (.sideband site 0x21 3 0)) (siteRec t site 0x77)) site false
    else t

/-! ### Modules -/

/-- MODULE_LOSS_OF_LOCK with what the one retraining brings (R377). -/
def execModuleLossOfLock (site : Fin 12) (module : Fin 16) (relock : ModuleState) (s : State) :
    Host.Outcome State Fault Refusal :=
  act s fun t =>
    let x := siteOf t site
    let old := x.modules.getD module .excluded
    if !siteUp t site ∨ old = .excluded then t
    else
      let new := if old = .x32 ∧ relock = .x64 then .x32 else relock
      if new = old then t
      else
        let t1 := setSite t site { x with modules := x.modules.set module new }
        let t2 := record (tariffChanged t1) (siteRec t1 site 0x72)
        if (siteOf t2 site).modules.all (· = .excluded) then siteDown t2 site false else t2

/-! ### Sideband -/

/-- A chiplet that answers on the sideband: it has been detected (R374). -/
def sidebandUp (s : State) (n : Nat) : Bool :=
  let x := siteOf s n
  x.state ≠ .off && x.state ≠ .absent

/-- A sideband message of a chiplet: one with a reserved bit set is refused, under class 0x78 as a malformed packet is (R15, R383, log entry
53). -/
def sidebandSays (s : State) (n : Nat) (rsvd : Bool) (f : State → State) : State :=
  if !sidebandUp s n then s else if rsvd then record s (siteRec s n 0x78) else f s

/-- PURSE_REQ (R392). -/
def execPurseReq (site : Fin 12) (power : Nat) (turn : PurseTurn) (s : State) : Host.Outcome State Fault Refusal :=
  act s fun t => sidebandSays t site turn.rsvd fun u =>
    if turn.turn < 2 ^ 32 then setSite u site { siteOf u site with req := some (power % 65536) } else u

/-- A site enters breach (R396). -/
def enterBreach (s : State) (n : Nat) : State :=
  let x := siteOf s n
  if !x.breach && (x.overRun ≥ 16 || x.missing ≥ 4) then
    record (setSite s n { x with breach := true }) (siteRec s n 0x75)
  else s

/-- The report of a Turn, sent or assumed: excess, debit, and the runs that lead to breach (R394-R396). -/
def takeReport (s : State) (n power : Nat) (missing : Bool) : State :=
  let x := siteOf s n
  let over_ := power - x.grantLast
  let far := power * 100 > x.grantLast * 105
  let y := { x with report := power, reported := true, debit := min 65535 (x.debit + over_),
                    overRun := if far then min 16 (x.overRun + 1) else 0, missing := if missing then min 4 (x.missing + 1) else 0 }
  let s1 := setSite s n y
  let s2 := if over_ ≠ 0 then record s1 (siteRec s1 n 0x74) else s1
  enterBreach s2 n

/-- PURSE_REPORT of the Turn before, within the first sixteen buckets (R394). -/
def execPurseReport (site : Fin 12) (power : Nat) (turn : PurseTurn) (s : State) : Host.Outcome State Fault Refusal :=
  act s fun t => sidebandSays t site turn.rsvd fun u =>
    if !(siteOf u site).reported ∧ turn.turn = (now u - 1) % 2 ^ 32 ∧ u.turn.bucket < 16 then takeReport u site (power % 65536) false
    else u

/-- PURSE_REPORT_DEADLINE (R395). -/
def execPurseReportDeadline (site : Fin 12) (s : State) : Host.Outcome State Fault Refusal :=
  act s fun t =>
    let x := siteOf t site
    if decide (x.state = .inService) && !x.reported then
      takeReport (record t (siteRec t site 0x76)) site (t.set.siteMaxOf site) true
    else t

/-- SITE_ALERT (R380). -/
def execSiteAlert (site : Fin 12) (code : Byte) (data : Nat) (s : State) : Host.Outcome State Fault Refusal :=
  act s fun t =>
    if sidebandUp t site then
      event (record t { siteRec t site 0x7A with d0 := code.toNat + data % 2 ^ 48 * 256 }) 6
    else t

/-- UNKNOWN_SIDEBAND_MESSAGE (R378). -/
def execUnknownSidebandMessage (site : Fin 12) (msg : Byte) (s : State) : Host.Outcome State Fault Refusal :=
  act s fun t => if sidebandUp t site then record t { siteRec t site 0x78 with d0 := msg.toNat } else t

/-- CXL_IO_REQUEST (R389). -/
def execCxlIoRequest (site : Fin 12) (tag : Nat) (s : State) : Host.Outcome State Fault Refusal :=
  act s fun t => if siteUp t site && (siteOf t site).cxl then emit t (.cxlUnsupported site tag) else t

/-! ### Bring-up -/

/-- The header of a capability table keeps the rules of Table 12-9. -/
def tableOk9 (b : Bytes) : Bool :=
  32 ≤ b.length && 0x20 ≤ rd b 5 1 && (rd b 6 1 = 1 || rd b 6 1 = 2) && bits (rd b 7 1) 1 0 ≠ 0 && bits (rd b 7 1) 7 2 = 0 &&
    rd b 8 1 ≤ rd b 9 1 && bits (rd b 10 1) 7 2 = 0 && 100 ≤ rd b 12 2 && rd b 12 2 ≤ 5000 && rd b 14 2 ≤ rd b 16 2 &&
    32 + 32 * rd b 11 1 ≤ rd b 18 2 && rd b 18 2 ≤ 16384 && rd b 20 8 = 0 && rd b 28 4 = 0 && b.length = rd b 18 2

/-- The protocol that the hub selects: site packets of version 1, else CXL, else none (R381). -/
def pickProtocol (b : Bytes) : Option Bool :=
  if bit (rd b 7 1) 0 && rd b 8 1 ≤ 1 && 1 ≤ rd b 9 1 then some false
  else if bit (rd b 7 1) 1 then some true else none

/-- A site after what its bring-up found, and the class recorded (Table 12-11, R376, R381, R393, R405, R409). -/
def Site.brought (x : Site) (reserve : Nat) (e : SiteEnv) : Site × Option Nat :=
  let y : Site := { Site.reset with jobs := x.jobs, wait := x.wait, parked := x.parked, moved := x.moved, blocked := x.blocked }
  if !e.detected then ({ y with state := .absent }, none)
  else if !e.inTime ∨ !tableOk9 e.table ∨ rd e.table 14 2 > reserve then ({ y with state := .failed }, some 0x73)
  else
    let up := { y with table := e.table, modules := (e.modules ++ List.replicate 16 ModuleState.excluded).take 16 }
    match pickProtocol e.table with
    | none => ({ up with state := .failed }, some 0x71)
    | some c =>
      if (e.modules.take 16).all (· = .excluded) ∨ !e.protocolStarts then ({ up with state := .failed, cxl := c }, some 0x71)
      else ({ up with state := .inService, cxl := c, grant := rd e.table 14 2, grantNext := rd e.table 14 2, reported := true }, none)

/-- A site is brought up: IDLE_FLOOR granted first, TURN_MARK last (Table 12-11). A module short of x64 is class 0x72 (R377). -/
def bringSite (s : State) (n : Nat) (e : SiteEnv) : State :=
  let (x, c) := (siteOf s n).brought (s.set.siteReserveOf n) e
  let s0 := if (siteOf s n).state = .inService ∨ x.state = .inService then tariffChanged s else s
  let s1 := setSite s0 n x
  match c with
  | some k =>
    let s2 := record s1 (siteRec s1 n k)
    if k = 0x71 then s2 else record s2 (siteRec s2 n 0x71)
  | none =>
    if x.state = .inService then
      let s2 := emit s1 (.sideband n 0x02 0 (x.grant + now s % 2 ^ 32 * 65536))
      let low := (x.modules.filter (· ≠ .x64)).length
      let s3 := (List.range low).foldl (fun a _ => record a (siteRec a n 0x72)) s2
      emit s3 (.sideband n 0x10 s.set.bucketLen (now s))
    else s1

/-- An agent's flush is over: SITE_RESET goes on with the reset of the chiplet (R259, R410). -/
def resetSite (s : State) (n : Nat) (r : ReplyTo) (e : SiteEnv) : State :=
  let s1 := emit s (.sideband n 0x21 2 0)
  let s2 := rejoin (dropUnit s1 (64 + n)) n
  postFinal (bringSite s2 n e) r .ok (agentOf s2 n).epoch none none

/-- A flush of a site's agent is asked for (R259). -/
def askFlush (s : State) (n : Nat) : State :=
  emit (setAgent s n { agentOf s n with flushing := true, flushed := false }) (.sideband n 0x21 1 0)

/-! ### Commands -/

/-- The work of SITE_CAP_READ (R411). -/
def siteCapReadBody (c : Packet) (s : State) (_ : ReplyTo) : State × Ending :=
  reservedFrom c 3 s fun _ =>
    let n := c.p0.toNat
    if n ≥ 12 then (s, bad 0)
    else if partOf c ≠ 0 ∧ partOf c ≠ s.set.sitePartOf n then (s, denied)
    else
      let d := (siteOf s n).table.take (bufLen c c.p2.toNat)
      (s, output d.length c.p1.toNat d)

/-- SITE_CAP_READ (R411). -/
def execSiteCapRead (c : Packet) (s : State) : Host.Outcome State Fault Refusal :=
  command 0x0601 noPayload c s (siteCapReadBody c)

/-- The work of SITE_RESET (R259, R410). A caching agent flushes first. -/
def siteResetBody (c : Packet) (env : SiteEnv) (s : State) (r : ReplyTo) : State × Ending :=
  if partOf c ≠ 0 then (s, denied)
  else
    reservedFrom c 1 s fun _ =>
      let n := c.p0.toNat
      if n ≥ 12 then (s, bad 0)
      else if claimed s (siteRes n) ∨ (siteOf s n).resetting.isSome ∨ !domainOn s (domOfSite n) then (s, busy 0)
      else if agentEnabled s n && !(agentOf s n).fenced then
        (askFlush (setSite s n { siteOf s n with resetting := some (r, env) }) n, .later)
      else (resetSite s n r env, .later)

/-- SITE_RESET (R410). -/
def execSiteReset (c : Packet) (env : SiteEnv) (s : State) : Host.Outcome State Fault Refusal :=
  command 0x0602 noPayload c s (siteResetBody c env)

/-- A PURSE_READ record (R411). -/
def purseRecord (s : State) (n : Nat) : Bytes :=
  let x := siteOf s n
  leBytes 2 (x.req.getD (rd x.table 14 2)) ++ leBytes 2 x.grant ++ leBytes 2 x.report ++ leBytes 2 x.debit ++
    leBytes 4 (x.grantTurn % 2 ^ 32) ++ leBytes 1 (flag x.breach) ++ leBytes 3 0

/-- The work of PURSE_READ (R411). -/
def purseReadBody (c : Packet) (s : State) (_ : ReplyTo) : State × Ending :=
  if partOf c ≠ 0 then (s, denied)
  else
    reservedFrom c 2 s fun _ =>
      if c.p1.toNat % 16 ≠ 0 then (s, bad 1)
      else
        let n := min 12 (bufLen c c.p1.toNat / 16)
        (s, output n c.p0.toNat ((List.range n).flatMap (purseRecord s)))

/-- PURSE_READ (R411). -/
def execPurseRead (c : Packet) (s : State) : Host.Outcome State Fault Refusal :=
  command 0x0603 noPayload c s (purseReadBody c)

/-- The work of SITE_BREACH_CLEAR (R396). -/
def siteBreachClearBody (c : Packet) (s : State) (_ : ReplyTo) : State × Ending :=
  if partOf c ≠ 0 then (s, denied)
  else
    reservedFrom c 1 s fun _ =>
      let n := c.p0.toNat
      if n ≥ 12 then (s, bad 0)
      else (setSite s n { siteOf s n with breach := false, overRun := 0, missing := 0 }, okay n)

/-- SITE_BREACH_CLEAR (R396). -/
def execSiteBreachClear (c : Packet) (s : State) : Host.Outcome State Fault Refusal :=
  command 0x0604 noPayload c s (siteBreachClearBody c)

end Sys2Proof.Machine
end

