-- ==== Sys2Proof/Machine/HostPort.lean ====
section
/-! DEFINITION. The PCIe host endpoint: vectors and their masks, BARs, host reads, function resets, power states, the link, DOE and
SPDM messages (R471-R493). -/

namespace Sys2Proof.Machine

/-! ### Vectors -/

/-- Every pending vector of a function that is no longer masked is sent once (R482, R483, R489). -/
def sendPending (s : State) (f : Nat) : State :=
  let fn := func s f
  if fn.d3 then s
  else if fn.msixEn then
    if fn.fnMask then s
    else
      let due := fn.msix.filter fun x => x.2.pending && !x.2.masked
      let tbl := fn.msix.map fun x => if x.2.masked then x else (x.1, { x.2 with pending := false })
      due.foldl (fun a x => emit a (.msix f x.2.addr x.2.data)) (setFunc s f { fn with msix := tbl })
  else if fn.msiEn then
    let due := fn.msiPend.filter fun v => !fn.msiMask.contains v
    due.foldl (fun a v => emit a (.interrupt f v)) (setFunc s f { fn with msiPend := fn.msiPend.filter fun v => fn.msiMask.contains v })
  else s

/-- The mask that a write clears. -/
def clearMask (fn : Func) : UnmaskKind → Func
  | .function => { fn with fnMask := false }
  | .vector n =>
    if fn.msixEn then { fn with msix := fn.msix.put n { fn.msix.get n Msix.reset with masked := false } }
    else { fn with msiMask := without fn.msiMask n }

/-- MSIX_UNMASK (R482). -/
def execMsixUnmask (fn : Fin 17) (what : UnmaskKind) (s : State) : Host.Outcome State Fault Refusal :=
  act s fun t =>
    if domainOn t 28 && fnExists t fn then sendPending (setFunc t fn (clearMask (func t fn) what)) fn else t

/-! ### BARs -/

/-- RESIZABLE_BAR_WRITE: the size codes 16 to 19 of the capability are 64 to 512 GiB; any other leaves the size as it is (R478). -/
def execResizableBarWrite (sizeCode : Nat) (s : State) : Host.Outcome State Fault Refusal :=
  act s fun t =>
    if t.host.memSpace ∨ sizeCode < 16 ∨ sizeCode > 19 then t
    else { t with host := { t.host with barLog2 := sizeCode + 20 } }

/-- BAR4 size of a function (Table 15-4). -/
def bar4Log2 (s : State) (f : Nat) : Nat := if f = 0 then s.host.barLog2 else 34

/-- Local address of BAR4 offset `off` (R479). -/
def bar4Addr (s : State) (f off : Nat) : Nat :=
  let n := 2 ^ bar4Log2 s f
  (func s f).bar4 / n * n + off

/-- The request of a BAR4 access: the function's partition and class (R479). -/
def bar4Req (s : State) (f : Fin 17) (k : Access) (off len : Nat) (d : Bytes) (poison : Bool) : MemReq :=
  { issuer := .host f, epoch := 0, part := fin16 (srcPart f), ctx := none, kind := k, addr := bar4Addr s f off, len := len, data := d,
    mask := [], poison := allUnits (bar4Addr s f off) d.length poison, share := fin64 (func s f).share, hint := 0, target := 0, ecc := .clean }

/-- A function answers, and the access lies in its BAR4. -/
def bar4Open (s : State) (f off n : Nat) : Bool := domainOn s 28 && fnExists s f && decide (off + n ≤ 2 ^ bar4Log2 s f)

/-- HOST_BAR4_READ (R479, R480). -/
def execHostBar4Read (fn : Fin 17) (off len : Nat) (s : State) : Host.Outcome State Fault Refusal :=
  act s fun t => if bar4Open t fn off len then arrive t (bar4Req t fn .read off len [] false) else t

/-- HOST_BAR4_WRITE: a poisoned one is class 0x84 (R479, R480). -/
def execHostBar4Write (fn : Fin 17) (off : Nat) (d : Bytes) (poison : Bool) (s : State) : Host.Outcome State Fault Refusal :=
  act s fun t =>
    if bar4Open t fn off d.length then
      let t1 := if poison then record t { cls := 0x84, kind := 8, index := fn, part := some (srcPart fn) } else t
      arrive t1 (bar4Req t1 fn .write off 0 d poison)
    else t

/-! ### Host reads -/

/-- The host read that waits under a tag. -/
def hostRead (s : State) (tag : Nat) : Option (Nat × DmaRun × HostReq) := waitingFor s fun q => q.fn ≤ 16 && q.tag = tag

def hostRec (cls : Nat) (r : DmaRun) (q : HostReq) : Rec := { cls := cls, kind := 8, index := q.fn, part := some r.part }

/-- HOST_READ_COMPLETION (R486). One that no read waits for is discarded. -/
def execHostReadCompletion (tag : Nat) (c : Completion) (s : State) : Host.Outcome State Fault Refusal :=
  act s fun t =>
    match hostRead t tag with
    | none => t
    | some (de, r, q) =>
      match c with
      | .data d => readArrives t de r q (marked d false)
      | .poisoned d => readArrives (record t (hostRec 0x84 r q)) de r q (marked d true)
      | .refused => reqRefused (record t (hostRec 0x83 r q)) de r q

/-- HOST_READ_TIMEOUT (R486). -/
def execHostReadTimeout (tag : Nat) (s : State) : Host.Outcome State Fault Refusal :=
  act s fun t =>
    match hostRead t tag with
    | none => t
    | some (de, r, q) => reqRefused (record t (hostRec 0x82 r q)) de r q

/-- Every outstanding host read that a test picks is refused, and what waits goes on (R331, R490). -/
def refuseReads (s : State) (f : HostReq → Bool) : State :=
  let tags := ((hostReads s).filter f).map HostReq.tag
  pumpAll (tags.foldl (fun a n => match hostRead a n with | some (de, r, q) => reqRefused a de r q | none => a) s)

/-! ### Function resets -/

/-- A function's configuration space, vectors and command channel return to reset; HOST_FN and HOST_BAR4 stay. Commands fetched and
not started are dropped, replies of those that started are discarded (R488). -/
def resetFn (s : State) (f : Nat) : State :=
  let old := func s f
  let s1 := setFunc s f { Func.reset f with share := old.share, tags := old.tags, bar4 := old.bar4 }
  setChan s1 f Chan.reset

/-- A reset of the PF resets every function, and with it VF Enable and the mailbox (R488). -/
def resetFunctions (s : State) : State :=
  let s1 := (List.range 17).foldl resetFn s
  { s1 with host := { s1.host with vfEnable := false, numVfs := 0, barLog2 := 36, memSpace := false, doe := none } }

/-- FUNCTION_LEVEL_RESET: class 0x87 (R488). -/
def execFunctionLevelReset (fn : Fin 17) (s : State) : Host.Outcome State Fault Refusal :=
  act s fun t =>
    if !domainOn t 28 ∨ !fnExists t fn then t
    else
      let t1 := if fn.val = 0 then refuseReads (resetFunctions t) (fun q => q.fn ≠ 0) else resetFn t fn
      record t1 { cls := 0x87, kind := 8, index := fn }

/-- VF_ENABLE_WRITE: NumVFs from 0 to 16; a VF that stops existing keeps nothing, and its reads are refused (R475). -/
def execVfEnableWrite (enable : Bool) (numVfs : Nat) (s : State) : Host.Outcome State Fault Refusal :=
  act s fun t =>
    if !domainOn t 28 ∨ numVfs > 16 then t
    else
      let t1 := { t with host := { t.host with vfEnable := enable, numVfs := numVfs } }
      let gone := (List.range 17).filter fun f => fnExists t f && !fnExists t1 f
      refuseReads (gone.foldl resetFn t1) fun q => gone.contains q.fn

/-! ### Power states -/

/-- D3HOT_ENTRY (R489). -/
def execD3hotEntry (fn : Fin 17) (s : State) : Host.Outcome State Fault Refusal :=
  act s fun t => if domainOn t 28 && fnExists t fn then setFunc t fn { func t fn with d3 := true } else t

/-- D0_RETURN: vectors that fell due meanwhile are sent (R489). -/
def execD0Return (fn : Fin 17) (s : State) : Host.Outcome State Fault Refusal :=
  act s fun t =>
    if domainOn t 28 && fnExists t fn then sendPending (setFunc t fn { func t fn with d3 := false }) fn else t

/-! ### The link -/

/-- The link goes down: every function is reset, every host request refused, class 0x80, DOWN_COUNT (R490). -/
def linkLost (s : State) : State :=
  if !hostUp s then s
  else
    let s1 := resetFunctions { s with host := { s.host with rate := 0, width := 0, flit := false, downs := satAdd 16 s.host.downs 1 } }
    refuseReads (record s1 { cls := 0x80, kind := 8 }) fun _ => true

/-- HOST_LINK_DOWN (R490). -/
def execHostLinkDown (s : State) : Host.Outcome State Fault Refusal := act s linkLost

/-- HOST_LINK_UP: below 64 GT/s x16 it is class 0x81; a change of rate or width changes the host entries of the tariff (R471, R490,
R513). -/
def execHostLinkUp (rate : Fin 4) (width : Nat) (flit : Bool) (s : State) : Host.Outcome State Fault Refusal :=
  act s fun t =>
    if hostUp t ∨ rate.val = 0 ∨ width = 0 ∨ width > 16 ∨ !t.host.mayTrain ∨ t.pins.perstLow then t
    else
      let new := (rate.val, width)
      let t1 := { t with
        host := { t.host with rate := rate, width := width, flit := flit },
        plans := { t.plans with hostRec := new },
        glob := { t.glob with tariffDirty := t.glob.tariffDirty || decide (t.plans.hostRec ≠ new) } }
      if new = (3, 16) then t1 else record t1 { cls := 0x81, kind := 8 }

/-- PERST_ASSERT: the endpoint is reset as for a loss of the link (Table 17-1). -/
def execPerstAssert (s : State) : Host.Outcome State Fault Refusal :=
  if s.pins.pwrok then
    .next (let t := { s with out := [], pins := { s.pins with perstLow := true } }; if live t then linkLost t else t)
  else .next { s with out := [], pins := { s.pins with perstLow := true } }

/-- PERST_DEASSERT: the endpoint may train again (R513). -/
def execPerstDeassert (s : State) : Host.Outcome State Fault Refusal :=
  .next { s with out := [], pins := { s.pins with perstLow := false } }

/-! ### Data objects -/

/-- The answer to DOE Discovery: the protocol at an index and the next index (R492; layout PRESUMED of PCIe). -/
def doeDiscovery (index : Nat) : Bytes :=
  let v := if index = 0 then 0x0100_0001 else if index = 1 then 0x0001_0001 else 0x0000_FFFF
  leBytes 4 1 ++ leBytes 4 3 ++ leBytes 4 v

/-- DOE_REQUEST: an object of more than 16 KiB is discarded with DOE Error, class 0x88; Discovery and CMA/SPDM are answered, and no
other protocol (R492, R493). -/
def execDoeRequest (obj : Bytes) (s : State) : Host.Outcome State Fault Refusal :=
  act s fun t =>
    if !domainOn t 28 then t
    else if obj.length > 16384 then emit (record t { cls := 0x88, kind := 8 }) .doeError
    else
      let answer := fun (u : State) (d : Bytes) => emit { u with host := { u.host with doe := some d } } (.spdm true d)
      if rd obj 0 3 = 1 then answer t (doeDiscovery (rd obj 8 1))
      else if rd obj 0 3 = 0x1_0001 then answer (takeFresh t) (Config.spdmAnswer true (measurements t ++ [t.fresh]) obj)
      else t

/-- DOE_ABORT: the mailbox is emptied, class 0x88 (R493). -/
def execDoeAbort (s : State) : Host.Outcome State Fault Refusal :=
  act s fun t =>
    if domainOn t 28 then record { t with host := { t.host with doe := none } } { cls := 0x88, kind := 8 } else t

/-- MCTP_SPDM_MESSAGE: the RTP answers (R492, R493). -/
def execMctpSpdmMessage (msg : Bytes) (s : State) : Host.Outcome State Fault Refusal :=
  act s fun t => emit (takeFresh t) (.spdm false (Config.spdmAnswer false (measurements t ++ [t.fresh]) msg))

end Sys2Proof.Machine
end

