-- ==== Sys2Proof/Machine/Functions.lean ====
section
/-! DEFINITION. EXP, LOG, GELU and SILU within the bounds of Table 3-12: the exact functions in fixed point, and the choice that
a Bolter revision makes within a bound (R95, R138). -/

namespace Sys2Proof.Machine

/-! ### Fixed point: 320 bits behind the point -/

/-- One. -/
def fixOne : Int := 2 ^ 320

/-- A finite value of FP32 range in units of 2^−320. -/
def fixOf (neg : Bool) (n : Nat) (x : Int) : Int := scaled neg n x (-320)

def fixMul (a b : Int) : Int := a * b / fixOne

/-- y ± y³/3 + y⁵/5 ± …, as `n` terms: atanh where the sign is 1, atan where it is −1. -/
def atanSeries (sign y : Int) (n : Nat) : Int :=
  ((List.range n).foldl (fun (p : Int × Int) (j : Nat) => (sign * fixMul p.1 (fixMul y y), p.2 + p.1 / ((2 * j + 1 : Nat) : Int))) (y, 0)).2

def fixLn2 : Int := 2 * atanSeries 1 (fixOne / 3) 104
def fixPi : Int := 16 * atanSeries (-1) (fixOne / 5) 72 - 4 * atanSeries (-1) (fixOne / 239) 24

/-- e to a fixed-point power; far below it is 0, and far above it stands at 2^192. -/
def fixExp (x : Int) : Int :=
  if x < -300 * fixOne then 0
  else if x > 128 * fixOne then 2 ^ 512
  else
    let k := x / fixLn2
    let r := x - k * fixLn2
    let e := ((List.range 90).foldl (fun (p : Int × Int) (j : Nat) => (fixMul p.1 r / ((j + 1 : Nat) : Int), p.2 + p.1)) (fixOne, 0)).2
    if k ≥ 0 then e * 2 ^ k.toNat else e / 2 ^ (-k).toNat

/-- The natural logarithm of n × 2^x, n > 0. -/
def fixLog (n : Nat) (x : Int) : Int :=
  let t := Nat.log2 n
  let half := 3 * 2 ^ t < 2 * n
  let one := if half then 2 ^ (t + 1) else 2 ^ t
  let e : Int := x + t + (if half then 1 else 0)
  e * fixLn2 + 2 * atanSeries 1 (((n : Int) - one) * fixOne / ((n : Int) + one)) 90

/-- The normal distribution function: 1/2 + φ(x)(x + x³/3 + x⁵/15 + …), whose terms share a sign. -/
def fixPhi (x : Int) : Int :=
  if x ≥ 16 * fixOne then fixOne
  else if x ≤ -16 * fixOne then 0
  else
    let q := fixMul x x
    let s := ((List.range 600).foldl (fun (p : Int × Int) (j : Nat) => (fixMul p.1 q / ((2 * j + 3 : Nat) : Int), p.2 + p.1)) (x, 0)).2
    let root : Int := Nat.sqrt (2 * fixPi * fixOne).toNat
    fixOne / 2 + s * fixExp (-(q / 2)) / root

/-- GELU in its erf form, x Φ(x). -/
def fixGelu (x : Int) : Int := fixMul x (fixPhi x)

/-- SiLU, x / (1 + e^−x). -/
def fixSilu (x : Int) : Int :=
  let e := fixExp (-(x.natAbs : Int))
  if x ≥ 0 then x * fixOne / (fixOne + e) else x * e / (fixOne + e)

/-! ### What a revision may answer -/

/-- A lane in fixed point, with infinity at 2^128. -/
def fixLane : Val → Option Int
  | .nan => none
  | .inf s => some (if s then -2 ^ 448 else 2 ^ 448)
  | .fin s n x => some (fixOf s n x)

/-- A result within `ulps` FP32 ulps of an exact one, or within 2^−30 where that is larger and allowed: the value offered, if it
lies there, and otherwise the nearest (R138). -/
def boundedLane (offered : Nat) (ulps : Nat) (small : Bool) (exact_ : Int) : Val :=
  let f := max (-2 ^ 448) (min (2 ^ 448) exact_)
  let q := min 104 (max (topExp f.natAbs (-320) - 23) (-149))
  let bound : Int := max (ulps * 2 ^ (q + 320).toNat) (if small then 2 ^ 290 else 0)
  let v := fmtFP32.decode (offered % 2 ^ 32)
  let near := fmtFP32.decode (fmtFP32.encodeFin (f < 0) f.natAbs (-320)).1
  match fixLane v with
  | some c => if ((c - f).natAbs : Int) ≤ bound then v else near
  | none => near

/-- The function of an operation code on a finite lane; LOG of a positive one. -/
def fixFunc (op : Nat) (neg : Bool) (n : Nat) (x : Int) : Int :=
  if op = 0x10 then fixExp (fixOf neg n x)
  else if op = 0x11 then fixLog n x
  else if op = 0x14 then fixGelu (fixOf neg n x)
  else fixSilu (fixOf neg n x)

/-- EXP and LOG stay within 2 ulp, GELU and SILU within 4 ulp or 2^−30 (Table 3-12). -/
def functionLane (rev op : Nat) (bf : Bool) (neg : Bool) (n : Nat) (x : Int) : Val :=
  let offered := Config.bolterFn rev op bf (fmtFP32.encodeFin neg n x).1
  if op = 0x10 ∨ op = 0x11 then boundedLane offered 2 false (fixFunc op neg n x)
  else boundedLane offered 4 true (fixFunc op neg n x)

end Sys2Proof.Machine
end

