-- ==== Sys2Proof/Machine/Passes.lean ====
section
/-! DEFINITION. What passes, weight loads and drains compute: bin tiles, exact terms, accumulator banks and their drains
(R98-R123, R150-R162). -/

namespace Sys2Proof.Machine

/-! ### Elements in a bin -/

/-- Bytes of a bin with their poison, from an offset of a logical array's bin. -/
def binRead (s : State) (la off n : Nat) : List (Byte × Bool) := memRead s (binBase + la * binSize + off) n

/-- The bits of element `e` of a packed row (R107); none where poison touches it. -/
def elemBitsOf (fmt : Nat) (row : List (Byte × Bool)) (e : Nat) : Option Nat :=
  let w := elemBits fmt
  let lo := e * w
  let b := (row.drop (lo / 8)).take ((lo + w - 1) / 8 - lo / 8 + 1)
  if b.any Prod.snd then none else some (bits (leVal (b.map Prod.fst)) (lo % 8 + w - 1) (lo % 8))

/-- The value of an element: NaN where it is poisoned (Table 6-3). -/
def elemVal (fmt : Nat) (row : List (Byte × Bool)) (e : Nat) : Val :=
  match elemBitsOf fmt row e with
  | some v => decodeElem fmt v
  | none => .nan

/-- Element `e` of a packed row in a bin. -/
def elemAt (s : State) (la fmt off e : Nat) : Val :=
  let lo := e * elemBits fmt / 8
  let hi := ((e + 1) * elemBits fmt - 1) / 8
  let b := binRead s la (off + lo) (hi - lo + 1)
  if b.any Prod.snd then .nan
  else
    let v := leVal (b.map Prod.fst)
    decodeElem fmt (bits v (e * elemBits fmt % 8 + elemBits fmt - 1) (e * elemBits fmt % 8))

/-- An E8M0 scale, NaN where it is poisoned (R109, Table 6-3). -/
def scaleOf (b : Byte × Bool) : Nat := if b.2 then 255 else b.1.toNat

/-- Positions of a pass along the contraction dimension, by format (Table 3-1). -/
def lengthK (fmt : Nat) : Nat := match classOf fmt with | some 2 => 256 | some 3 => 64 | _ => 128

/-- A vector along the contraction dimension: elements, and the block scales of an MX format. -/
structure Vec where
  elems : List Val
  scales : List Nat
  deriving DecidableEq, Repr

/-- Whether poison touches any of the bytes. -/
def tainted (b : List (Byte × Bool)) : Bool := b.any Prod.snd

/-- A vector from a packed row and its scales. -/
def vecOf (fmt : Nat) (row scales : List (Byte × Bool)) : Vec :=
  { elems := (List.range (lengthK fmt)).map (elemVal fmt row), scales := if isMx fmt then scales.map scaleOf else [] }

/-- The zero vector that fills a batch (R133). -/
def zeroVec (fmt : Nat) : Vec := { elems := List.replicate (lengthK fmt) (.fin false 0 0), scales := [] }

/-! ### Terms -/

/-- The exact sum of the products of one pair of blocks, times both scales (R110); a scale of 0xFF is NaN (R109). -/
def blockTerm (x y : List Val) (ea eb : Nat) : Val :=
  if ea = 255 ∨ eb = 255 then .nan
  else ((x.zipWith Val.mul y).foldl Val.add (.fin false 0 0)).shift ((ea : Int) - 127 + ((eb : Int) - 127))

/-- The terms of MX blocks, block by block. -/
def blockTerms : List Nat → List Nat → List Val → List Val → List Val
  | ea :: ra, eb :: rb, x, y => blockTerm (x.take 32) (y.take 32) ea eb :: blockTerms ra rb (x.drop 32) (y.drop 32)
  | _, _, _, _ => []

/-- The terms that a vector and a weight column form (R110). -/
def termsOf_ (mx : Bool) (x w : Vec) : List Val :=
  if mx then blockTerms x.scales w.scales x.elems w.elems else x.elems.zipWith Val.mul w.elems

/-- An entry with the terms of one vector and one column added under an anchor (R111-R115). -/
def addTerms (a : Int) (e : MEntry) (l : List Val) : MEntry := l.foldl (addTerm a) e

/-! ### Banks -/

def Bank.entry (b : Bank) (n : Nat) : MEntry := b.entries.get n MEntry.reset

/-- The entries of a bank as an array of 128 × 128. -/
def Bank.cells (b : Bank) : Array MEntry :=
  b.entries.foldl (fun a x => a.setIfInBounds x.1 x.2) (Array.replicate 16384 MEntry.reset)

/-- A bank with its entries mapped; cleared entries are not listed. -/
def Bank.update (b : Bank) (f : Nat → Nat → MEntry → MEntry) : Bank :=
  let old := b.cells
  { b with entries := (List.range 16384).filterMap fun n =>
      let e := f (n / 128) (n % 128) (old.getD n MEntry.reset)
      if e = MEntry.reset then none else some (n, e) }

/-- The first `rows` rows and `cols` columns of a bank mapped. -/
def Bank.block (b : Bank) (rows cols : Nat) (f : Nat → Nat → MEntry → MEntry) : Bank :=
  b.update fun k j e => if k < rows && j < cols then f k j e else e

/-- One pass into a bank: it starts its entries afresh or continues them (R113, R155, R159). The flag says that the anchors
disagreed. -/
def Bank.pass (b : Bank) (a : Int) (fresh half mx : Bool) (xs ws : Array Vec) : Bank × Bool :=
  let rows := xs.size
  let cols := ws.size
  let z : Vec := { elems := [], scales := [] }
  let add := fun (k j : Nat) (e : MEntry) => addTerms a e (termsOf_ mx (xs.getD k z) (ws.getD j z))
  if fresh then
    ({ b.block rows cols (fun k j _ => add k j MEntry.reset) with anchor := some a, half := half, conts := 0 }, false)
  else if b.anchor.isSome ∧ b.anchor ≠ some a then
    ({ b.block rows cols (fun _ _ e => { e with flags := e.flags ||| mintNan }) with half := half }, true)
  else
    let n := b.conts + 1
    let b1 : Bank := { b.block rows cols add with anchor := some a, half := half, conts := n }
    (if n = 2 ^ 32 then b1.update fun _ _ e => { e with flags := e.flags ||| mintOvf } else b1, false)

/-! ### Drains -/

/-- The bits that follow one another in packed elements, lowest element first. -/
def packBits (w : Nat) (l : List Nat) : Nat := l.foldr (fun v a => v % 2 ^ w + 2 ^ w * a) 0

/-- A row of elements as bytes, in a format whose elements are whole bytes. -/
def rowBytes (w : Nat) (l : List Nat) : Bytes := l.flatMap (leBytes (w / 8))

/-- Entries of row `k` as the drain reads them (R113). -/
def drainRowEntries (m : Array MEntry) (k cols : Nat) : List MEntry :=
  (List.range cols).map fun j => readOut (m.getD (k * 128 + j) MEntry.reset)

/-- A converted row, with its counts; the flag byte of each entry carries CONV_SAT (Table 3-5). -/
def convertRow (f : FpFmt) (a : Int) (c : Counts) (es : List MEntry) : Bytes × Counts × Nat :=
  let vs := es.map fun e => (e, convertMint f e.value a e.flags)
  let c1 := vs.foldl (fun c x => (c.entry x.1.flags).element x.2.2) c
  (rowBytes f.width (vs.map fun x => x.2.1), c1,
    vs.foldl (fun n x => n ||| x.1.flags ||| (if x.2.2 then convSat else 0)) 0)

/-- The counts and flags of entries that are written raw. -/
def rawRow (c : Counts) (es : List MEntry) : Counts × Nat :=
  (es.foldl (fun c e => c.entry e.flags) c, es.foldl (fun n e => n ||| e.flags) 0)

/-- What a drain came to: bin writes, counts, and the flags of each row. -/
structure Drained where
  writes : List (Nat × Bytes)
  counts : Counts
  rows : List (Nat × Nat)

/-- A bank converted row by row: row `k` goes where `at_` says (R157, R168). -/
def drainConverted (b : Bank) (f : FpFmt) (rows : List Nat) (cols : Nat) (at_ : Nat → Nat) (c : Counts) : Drained :=
  let m := b.cells
  rows.foldl (fun d k =>
    let (by_, c1, n) := convertRow f (b.anchor.getD 0) d.counts (drainRowEntries m k cols)
    { writes := d.writes ++ [(at_ k, by_)], counts := c1, rows := d.rows ++ [(k, n)] })
    { writes := [], counts := c, rows := [] }

/-- A raw drain of a whole bank (R129, R157). -/
def drainRaw (b : Bank) (off : Nat) (c : Counts) : Drained :=
  let m := b.cells
  let rs := (List.range 128).map fun k => drainRowEntries m k 128
  let es := rs.flatten
  { writes := [(off, es.flatMap fun e => mintBytes e.value), (off + 0x8_0000, es.map fun e => BitVec.ofNat 8 e.flags)],
    counts := (rawRow c es).1, rows := (indexed rs).map fun r => (r.1, (rawRow Counts.reset r.2).2) }

/-- Some entry of a block that is drained has a residue that disagrees with its sum (R130). -/
def Bank.residueBad (b : Bank) (rows cols : Nat) : Bool :=
  b.entries.any fun x => x.1 / 128 < rows && x.1 % 128 < cols && x.2.mismatch

/-- A raw drain of the rows of a batch (R157). -/
def drainRawRows (b : Bank) (rows : List Nat) (at_ : Nat → Nat) (c : Counts) : Drained :=
  let m := b.cells
  rows.foldl (fun d k =>
    let es := drainRowEntries m k 128
    let (c1, n) := rawRow d.counts es
    { writes := d.writes ++ [(at_ k, es.flatMap fun e => mintBytes e.value),
                             (at_ k + 0x1000, es.map fun e => BitVec.ofNat 8 e.flags)],
      counts := c1, rows := d.rows ++ [(k, n)] })
    { writes := [], counts := c, rows := [] }

/-! ### Feeds -/

/-- Bytes of a scale plane that a row reads. -/
def scaleBytes (fmt : Nat) : Nat := if isMx fmt then lengthK fmt / 32 else 0

/-- The tile of weights at a bin offset. -/
def readTile (s : State) (la fmt off : Nat) : List (Byte × Bool) := binRead s la off (weightExtent fmt)

/-- The columns of a tile (Table 4-3). -/
def tileVecs (fmt cols : Nat) (t : List (Byte × Bool)) : Array Vec :=
  ((List.range cols).map fun j =>
    vecOf fmt ((t.drop (j * 128)).take 128) ((t.drop (0x4000 + j * 8)).take (scaleBytes fmt))).toArray

/-- An input vector in broadcast feed: its row and its scales (Table 4-3). -/
def rowVec (s : State) (la fmt row scales : Nat) : Vec × Bool :=
  let r := binRead s la row 128
  let c := binRead s la scales (scaleBytes fmt)
  (vecOf fmt r c, tainted r || tainted c)

/-- Cell row that takes contraction position `e` (R100, R151). -/
def cellRow (fmt e : Nat) : Nat := if classOf fmt = some 2 then e / 2 else e

/-- Global vector `g` in pre-skew feed: the element for cell row r lies in feed word g + r (R151). -/
def skewVec (s : State) (la fmt base plane g : Nat) : Vec × Bool :=
  let es := (List.range (lengthK fmt)).map fun e => elemAt s la fmt (base + (g + cellRow fmt e) * 128) e
  let c := binRead s la (plane + g * 8) (scaleBytes fmt)
  let t := (List.range (lengthK fmt)).any fun e =>
    tainted (binRead s la (base + (g + cellRow fmt e) * 128 + e * elemBits fmt / 8) 1)
  ({ elems := es, scales := if isMx fmt then c.map scaleOf else [] }, t || tainted c)

/-- The input vectors of pass `p` of group `o`. For a Shoe-fed pass the rows of the batch are given: a row that is not real
is a zero vector (R133, R151, R155, R168). -/
def passInputs (s : State) (la : Nat) (pre : Bool) (d : PassD) (i o p : Nat) (batch : List BatchRow) : Array Vec × Bool :=
  let base := d.inBase + i * d.inStepI + o * d.inStepO + p * d.inStepK
  let l : List (Vec × Bool) :=
    if d.shoe then
      (List.range 128).map fun k =>
        match batch[k]? with
        | some b => if b.refused then (zeroVec d.inFmt, false) else rowVec s la d.inFmt (b.row.inOff + base) 0
        | none => (zeroVec d.inFmt, false)
    else if pre then
      (List.range d.vecs).map fun v =>
        skewVec s la d.inFmt base (base + (d.stream + 127) * 128) ((o * d.inner + p) * d.vecs + v)
    else (List.range d.vecs).map fun v => rowVec s la d.inFmt (base + v * 128) (base + 0x4000 + v * 8)
  ((l.map Prod.fst).toArray, l.any Prod.snd)

/-! ### A pass descriptor -/

/-- A pass descriptor as it goes: both banks, writes to land, counts, flags of each batch row, events. -/
structure PassWork where
  bank0 : Bank
  bank1 : Bank
  writes : List (Nat × Bytes)
  counts : Counts
  rows : List (Nat × Nat)
  /-- Passes that met another anchor, and passes that read poison. -/
  anchorErrs : Nat
  poisons : Nat
  /-- A drain met a residue mismatch. -/
  mismatch : Bool

def PassWork.bank (w : PassWork) (n : Nat) : Bank := if n = 0 then w.bank0 else w.bank1

def PassWork.setBank (w : PassWork) (n : Nat) (b : Bank) : PassWork :=
  if n = 0 then { w with bank0 := b } else { w with bank1 := b }

/-- What a pass descriptor is given: array, feed, iteration index, batch, and the shadow registers where they hold its preload. -/
structure PassIn where
  la : Nat
  pre : Bool
  kept : Bool
  d : PassD
  i : Nat
  batch : List BatchRow
  shadow : Option (List (Byte × Bool))

/-- Where the weight tile of pass `p` of group `o` lies in the bin (R155). -/
def PassD.wAt (d : PassD) (i o p : Nat) : Nat := d.wBase + i * d.wStepI + o * d.wStepO + p * d.wStepK

/-- The passes that take new weights: every one, or the first of each group where the weights are kept (R127, R156). -/
def PassD.loads (d : PassD) (kept : Bool) : List (Nat × Nat) :=
  (List.range d.outer).flatMap fun o => (List.range (if kept then min 1 d.inner else d.inner)).map fun p => (o, p)

/-- The passes whose weights are loaded from the bin: a preload leaves out the first (R161). -/
def PassD.binLoads (d : PassD) (kept : Bool) : List (Nat × Nat) :=
  if d.preload then (d.loads kept).drop 1 else d.loads kept

/-- The weight tile of pass `p` of group `o` (R155, R156, R161). -/
def PassIn.tile (x : PassIn) (s : State) (o p : Nat) : List (Byte × Bool) :=
  match x.shadow with
  | some t => if o = 0 ∧ p = 0 ∨ x.kept ∧ o = 0 then t else readTile s x.la x.d.wFmt (x.d.wAt x.i o p)
  | none => readTile s x.la x.d.wFmt (x.d.wAt x.i o p)

/-- Active and shadow registers after a pass descriptor: they swap with each pass that takes new weights (R127). -/
def PassIn.registers (x : PassIn) (s : State) (r : Tile × Tile) : Tile × Tile :=
  (x.d.loads x.kept).foldl (fun r k => ({ fmt := x.d.wFmt, data := x.tile s k.1 k.2 }, r.1)) r

/-- Bank of group `o` (R155). -/
def PassD.bankOf (d : PassD) (o : Nat) : Nat := if d.alt then (d.bank + o) % 2 else d.bank

/-- One pass of a group. -/
def PassIn.step (x : PassIn) (s : State) (o : Nat) (w : PassWork) (p : Nat) : PassWork :=
  let t := x.tile s o p
  let (xs, bad) := passInputs s x.la x.pre x.d x.i o p x.batch
  let n := x.d.bankOf o
  let (b, e) := (w.bank n).pass x.d.anchor (p = 0 && !x.d.cont) (classOf x.d.inFmt = some 3) (isMx x.d.inFmt) xs
    (tileVecs x.d.wFmt x.d.cols t)
  { w.setBank n b with anchorErrs := w.anchorErrs + flag e, poisons := w.poisons + flag (bad || tainted t) }

/-- The rows of a batch that are real and not refused. -/
def realRows (b : List BatchRow) : List Nat := (indexed b).filterMap fun x => if x.2.refused then none else some x.1

/-- Where the Shoe writes row `k` of a batch. -/
def rowOut (b : List BatchRow) (k : Nat) : Nat := match b[k]? with | some r => r.row.outOff | none => 0

/-- The drain that ends a group, or the flags of what it updated (R157, Table 4-11). -/
def PassIn.drain (x : PassIn) (o : Nat) (w : PassWork) : PassWork :=
  let d := x.d
  let b := w.bank (d.bankOf o)
  let out := d.outBase + x.i * d.outStepI + o * d.outStepO
  if d.outFmt = 0xFF then
    let m := b.cells
    let n := if d.shoe then 128 else d.vecs
    let fl := (List.range n).foldl (fun a k => a ||| (rawRow Counts.reset ((List.range d.cols).map fun j =>
      m.getD (k * 128 + j) MEntry.reset)).2) 0
    { w with counts := { w.counts with flagsOr := w.counts.flagsOr ||| fl } }
  else
    let r :=
      if d.outFmt = 0x20 then
        (if d.shoe then drainRawRows b (realRows x.batch) (fun k => rowOut x.batch k + out) w.counts
         else drainRaw b out w.counts)
      else
        let f := (fpOf d.outFmt).getD fmtFP32
        (if d.shoe then drainConverted b f (realRows x.batch) d.cols (fun k => rowOut x.batch k + out) w.counts
         else drainConverted b f (List.range d.vecs) d.cols (fun k => out + k * d.outPitch) w.counts)
    let bad := if d.outFmt = 0x20 ∧ !d.shoe then b.residueBad 128 128 else b.residueBad (if d.shoe then 128 else d.vecs) d.cols
    { w with writes := w.writes ++ r.writes, counts := r.counts, rows := w.rows ++ r.rows, mismatch := w.mismatch || bad }

/-- All passes and drains of a descriptor in one iteration (R155-R157). -/
def PassIn.run (x : PassIn) (s : State) (w : PassWork) : PassWork :=
  (List.range x.d.outer).foldl (fun w o => x.drain o ((List.range x.d.inner).foldl (x.step s o) w)) w

/-- Columns of the class of a bank's last writing pass (R162). -/
def Bank.cols (b : Bank) : Nat := if b.half then 64 else 128

/-- A DRAIN descriptor (R162): the columns follow the bank's last writing pass. -/
def drainWork (b : Bank) (d : DrainD) (i : Nat) : Drained :=
  let out := d.outBase + i * d.outStepI
  if d.outFmt = 0x20 then drainRaw b out Counts.reset
  else
    drainConverted b ((fpOf d.outFmt).getD fmtFP32) (List.range d.rows) b.cols
      (fun k => out + k * d.outPitch) Counts.reset

end Sys2Proof.Machine
end

