-- ==== Sys2Proof/Machine/Bolter.lean ====
section
/-! DEFINITION. The Bolter: lanes, functions, mint sums, quantisation, transposition and top-k, and the work of a BOLT
descriptor (R137-R142, R164-R166). -/

namespace Sys2Proof.Machine

/-! ### Lanes -/

/-- A lane's value rounded to FP32 (R137). -/
def toLane (v : Val) : Val := fmtFP32.decode (fmtFP32.encode v).1

/-- A lane result as it is written: through FP32 and then to the output format, or rounded once in BF16 lane mode (R137). -/
def laneOut (bf : Bool) (out : FpFmt) (v : Val) : Nat × Bool := out.encode (if bf then v else toLane v)

/-- The results within one ulp of an exact one: `k` steps of 2^q below it, and whether it lies on a step; below a power of two the
steps are half as wide (R138). -/
def ulpChoice (sel : Nat) (neg : Bool) (k : Nat) (q : Int) (exact_ : Bool) : Val :=
  let n := if !exact_ then [(k, q), (k + 1, q)]
    else if k = 2 ^ 23 ∧ q > -149 then [(k, q), (k + 1, q), (k - 1, q), (2 * k - 1, q - 1)]
    else [(k, q), (k + 1, q), (k - 1, q)]
  let x := n.getD (sel % n.length) (k, q)
  fmtFP32.decode (fmtFP32.encodeFin neg x.1 x.2).1

/-- Reciprocal (R138, R139): the Bolter revision picks within one ulp. -/
def rcpLane (sel : Nat) : Val → Val
  | .nan => .nan
  | .inf s => .fin s 0 0
  | .fin s n x =>
    if n = 0 then .inf s
    else
      let top := -x - (if 2 ^ Nat.log2 n = n then (Nat.log2 n : Int) else (Nat.log2 n : Int) + 1)
      let q := max (top - 23) (-149)
      let d := if -x - q ≥ 0 then 2 ^ (-x - q).toNat else 1
      let m := if -x - q ≥ 0 then n else n * 2 ^ (x + q).toNat
      ulpChoice sel s (d / m) q (d % m = 0)

/-- Reciprocal square root (R138, R139). -/
def rsqrtLane (sel : Nat) : Val → Val
  | .nan => .nan
  | .inf s => if s then .nan else .fin false 0 0
  | .fin s n x =>
    if n = 0 then .inf s
    else if s then .nan
    else
      let p : Nat := if x % 2 = 0 then 0 else 1
      let r := Nat.sqrt (2 ^ (p + 200) / n)
      let t := Nat.log2 r
      let d := 2 ^ (t - 23)
      ulpChoice sel false (r / d) ((t : Int) - 23 - 100 - (x + p) / 2) (decide (r % d = 0) && decide (r * r * n = 2 ^ (p + 200)))

/-- A function of Table 4-8 on an FP32 lane: the special values of R139, and otherwise what the Bolter revision gives within its
bound. -/
def funcLane (rev op : Nat) (bf : Bool) (v : Val) : Val :=
  let a := (fmtFP32.encode v).1
  match v with
  | .nan => .nan
  | .inf s =>
    if op = 0x10 then (if s then .fin false 0 0 else .inf false)
    else if op = 0x11 then (if s then .nan else .inf false)
    else if op = 0x12 then rcpLane (Config.bolterUlp rev op bf a) v
    else if op = 0x13 then rsqrtLane (Config.bolterUlp rev op bf a) v
    else (if s then .fin true 0 0 else .inf false)
  | .fin s n x =>
    if op = 0x11 ∧ n = 0 then .inf true
    else if op = 0x11 ∧ s then .nan
    else if op = 0x12 then rcpLane (Config.bolterUlp rev op bf a) v
    else if op = 0x13 then rsqrtLane (Config.bolterUlp rev op bf a) v
    else functionLane rev op bf s n x

/-- An operation with a B operand on exact lanes (R139, Table 4-8). `d` is the present output, for FMA. -/
def pairLane (op : Nat) (a b d : Val) : Val :=
  let one : Val := .fin false 1 0
  let zero : Val := .fin false 0 0
  if op = 0x01 then a.add b
  else if op = 0x02 then a.add b.neg
  else if op = 0x03 then a.mul b
  else if op = 0x04 then (a.mul b).add d
  else if op = 0x05 then Val.maxMin true a b
  else if op = 0x06 then Val.maxMin false a b
  else if a.isNan || b.isNan then zero
  else if op = 0x07 then (if Val.cmp a b > 0 then one else zero)
  else if Val.cmp a b = 0 then one
  else zero

/-! ### Blocks -/

/-- A block of lanes, row by row. -/
abbrev Block := List (List Val)

/-- A packed row of `n` elements in a bin, with its poison. -/
def packedRow (s : State) (la fmt off n : Nat) : List (Byte × Bool) := binRead s la off (elemBytes fmt n)

/-- The lanes of a packed row: NaN where it is poisoned. -/
def laneRow (s : State) (la fmt off n : Nat) : List Val × Bool :=
  let r := packedRow s la fmt off n
  ((List.range n).map (elemVal fmt r), tainted r)

/-- A block in a bin. -/
def binBlock (s : State) (la fmt off pitch rows cols : Nat) : Block × Bool :=
  let l := (List.range rows).map fun r => laneRow s la fmt (off + r * pitch) cols
  (l.map Prod.fst, l.any Prod.snd)

/-- A block of a bank, converted to FP32 lanes, with the counts of the entries drained (R165). -/
def bankBlock (b : Bank) (rows cols : Nat) (c : Counts) : Block × Counts :=
  let m := b.cells
  (List.range rows).foldl (fun x k =>
    let es := drainRowEntries m k cols
    (x.1 ++ [es.map fun e => fmtFP32.decode (convertMint fmtFP32 e.value (b.anchor.getD 0) e.flags).1],
      es.foldl (fun c e => c.entry e.flags) x.2)) ([], c)

/-- Packed elements written over what a row holds: bits beyond the last element keep their contents. -/
def overRow (old : Bytes) (w : Nat) (l : List Nat) : Bytes :=
  let n := w * l.length
  leBytes old.length (leVal old / 2 ^ n * 2 ^ n + packBits w l)

/-- What a BOLT writes: offset and bytes; counts go along. -/
abbrev Written := List (Nat × Bytes) × Counts

/-- Rows of encoded elements written at an offset and pitch. -/
def writeRows (s : State) (la fmt off pitch : Nat) (rows : List (List (Nat × Bool))) (c : Counts) : Written :=
  ((indexed rows).map fun r =>
      let at_ := off + r.1 * pitch
      let l := r.2.map Prod.fst
      (at_, overRow ((packedRow s la fmt at_ l.length).map Prod.fst) (elemBits fmt) l),
    rows.foldl (fun c r => r.foldl (fun c x => c.element x.2) c) c)

/-! ### Quantisation -/

/-- Exponent of the largest normal value of an MX element format (R141). -/
def emaxOf (fmt : Nat) : Int :=
  match fmt with
  | 0x11 => 8
  | 0x12 => 15
  | 0x13 => 4
  | 0x14 => 2
  | 0x15 => 2
  | _ => 0

/-- The exponent of the leading one of a value's magnitude; none for zero. -/
def leadExp : Val → Option Int
  | .fin _ n x => if n = 0 then none else some (topExp n x)
  | _ => none

/-- One MX element: rounded to nearest even, held within the format's range without CONV_SAT (R141). -/
def mxElem (fmt : Nat) (v : Val) : Nat :=
  match fpOf fmt, v with
  | some f, .fin s n x =>
    if n = 0 then f.sign s
    else
      let (k, q) := f.round n x
      let (lk, lq) := f.largest
      f.sign s + (if gtExp k q lk lq then f.maxBits else f.pack k q)
  | none, .fin s n x =>
    let k : Int := roundAt n x (-6)
    unsext 8 (satInt 8 (if s then -k else k))
  | _, _ => 0

/-- One block with its scale (R141): lanes that exist, then zeros up to 32. -/
def mxBlock (fmt : Nat) (l : List Val) : Nat × List Nat :=
  let pad := fun (x : List Nat) => x ++ List.replicate (32 - x.length) 0
  let special := l.any fun v => match v with | .fin _ _ _ => false | _ => true
  if special then (255, pad (l.map fun _ => 0))
  else
    match (l.filterMap leadExp).max? with
    | none => (0, pad (l.map fun _ => 0))
    | some e =>
      let sc := (max 0 (min 254 (e - emaxOf fmt + 127))).toNat
      (sc, pad (l.map fun v => mxElem fmt (v.shift (127 - (sc : Int)))))

/-- The blocks of a vector. -/
def mxBlocks (fmt : Nat) : Nat → List Val → List (Nat × List Nat)
  | 0, _ => []
  | n + 1, l => if l.isEmpty then [] else mxBlock fmt (l.take 32) :: mxBlocks fmt n (l.drop 32)

/-- Rows turned into columns. -/
def transposed (cols : Nat) (b : Block) : Block := (List.range cols).map fun c => b.map fun r => r.getD c .nan

/-- QUANT_MX: the vectors of the block in the tile layout of Table 4-3 (R165). -/
def quantMx (fmt off : Nat) (vs : Block) : List (Nat × Bytes) :=
  (indexed vs).flatMap fun v =>
    let bs := mxBlocks fmt 8 v.2
    let es := bs.flatMap Prod.snd
    [(off + v.1 * 128, leBytes (es.length * elemBits fmt / 8) (packBits (elemBits fmt) es)),
     (off + 0x4000 + v.1 * 8, bs.map fun b => BitVec.ofNat 8 b.1)]

/-! ### Mint sums and top-k -/

/-- A mint sum of lanes under an anchor (R140). -/
def mintSum (a : Int) (l : List Val) : MEntry := readOut (l.foldl (addTerm a) MEntry.reset)

/-- ROW_MINT and COL_MINT (R165): words with flag bytes, or converted values. -/
def mintSums (d : BoltD) (off : Nat) (vs : Block) (c : Counts) : Written :=
  let es := vs.map (mintSum d.anchor)
  let c1 := es.foldl (fun c e => c.entry e.flags) c
  if d.outFmt = 0x20 then
    ([(off, es.flatMap fun e => mintBytes e.value), (off + 0x1000, es.map fun e => BitVec.ofNat 8 e.flags)], c1)
  else
    let f := (fpOf d.outFmt).getD fmtFP32
    let xs := es.map fun e => convertMint f e.value d.anchor e.flags
    ([(off, rowBytes f.width (xs.map Prod.fst))], xs.foldl (fun c x => c.element x.2) c1)

/-- One lane ranks above another (R142). -/
def above (x y : Nat × Val) : Bool :=
  if x.2.isNan then y.2.isNan && decide (x.1 < y.1)
  else if y.2.isNan then true
  else
    let c := Val.cmp x.2 y.2
    c > 0 || (c = 0 && decide (x.1 < y.1))

def insLane (x : Nat × Val) : List (Nat × Val) → List (Nat × Val)
  | [] => [x]
  | y :: r => if above x y then x :: y :: r else y :: insLane x r

/-- The lanes of a row in descending order (R142). -/
def ranked (l : List Val) : List (Nat × Val) := (indexed l).foldl (fun a x => insLane x a) []

/-! ### A BOLT -/

/-- What a BOLT works on: the A lanes, the counts of drained entries, whether poison was read. -/
structure BoltIn where
  a : Block
  counts : Counts
  poison : Bool

/-- The bank that a BOLT drains, with its anchor. -/
def boltBank (d : BoltD) (bank0 bank1 : Bank) : Bank := if d.srcA = 1 then bank0 else bank1

/-- The flags of the entries that a BOLT drains, row by row. -/
def boltFlags (d : BoltD) (bank0 bank1 : Bank) : List (Nat × Nat) :=
  if d.srcA = 0 then []
  else
    let m := (boltBank d bank0 bank1).cells
    (List.range d.rows).map fun k => (k, (rawRow Counts.reset (drainRowEntries m k d.cols)).2)

/-- The A operand (R164, R165). -/
def boltA (s : State) (la : Nat) (d : BoltD) (i : Nat) (bank0 bank1 : Bank) : BoltIn :=
  if d.srcA = 0 then
    let (b, p) := binBlock s la d.aFmt (d.aOff + i * d.stepI) d.aPitch d.rows d.cols
    { a := b, counts := Counts.reset, poison := p }
  else
    let (b, c) := bankBlock (boltBank d bank0 bank1) d.rows d.cols Counts.reset
    { a := b, counts := c, poison := false }

/-- The B operand as a block (R164). -/
def boltB (s : State) (la : Nat) (d : BoltD) (i : Nat) : Block × Bool :=
  let off := d.bOff + i * d.stepI
  if d.srcB = 1 then binBlock s la d.bFmt off d.bPitch d.rows d.cols
  else if d.srcB = 2 then
    let (l, p) := laneRow s la d.bFmt off d.rows
    (l.map fun v => List.replicate d.cols v, p)
  else if d.srcB = 3 then
    let (l, p) := laneRow s la d.bFmt off d.cols
    (List.replicate d.rows l, p)
  else ([], false)

/-- A transposed element read from a poisoned byte: the canonical NaN, or an open value in a format that has none. -/
def poisonElem (s : State) (fmt : Nat) : Nat :=
  match fpOf fmt with
  | some f => if f.kind = 2 then Config.freeValue s.fresh % 2 ^ f.width else f.nanBits
  | none => Config.freeValue s.fresh % 256

/-- TRANSPOSE: bits from the bin, or the FP32 lanes of a bank as they are (R138). -/
def transposeOut (s : State) (la : Nat) (d : BoltD) (i : Nat) (x : BoltIn) : List (List (Nat × Bool)) :=
  if d.srcA = 0 then
    let rows := (List.range d.rows).map fun r => packedRow s la d.aFmt (d.aOff + i * d.stepI + r * d.aPitch) d.cols
    (List.range d.cols).map fun c =>
      rows.map fun r => ((elemBitsOf d.aFmt r c).getD (poisonElem s d.aFmt), false)
  else
    (transposed d.cols x.a).map fun r => r.map fmtFP32.encode

/-- CONVERT: a drain-convert of a bank rounds once; lanes from the bin go through FP32 (R121, R137). -/
def convertOut (d : BoltD) (bank0 bank1 : Bank) (x : BoltIn) : List (List (Nat × Bool)) :=
  let f := (fpOf d.outFmt).getD fmtFP32
  if d.srcA = 0 then x.a.map fun r => r.map (laneOut d.bf16 f)
  else
    let b := boltBank d bank0 bank1
    let m := b.cells
    (List.range d.rows).map fun k =>
      (drainRowEntries m k d.cols).map fun e => convertMint f e.value (b.anchor.getD 0) e.flags

/-- The writes and counts of a BOLT, and whether it read poison (R164-R166). -/
def boltWork (s : State) (la : Nat) (type : Nat) (d : BoltD) (i : Nat) (bank0 bank1 : Bank) : Written × Bool :=
  let op := type - 0x80
  let out := d.outOff + i * d.stepI
  let f := (fpOf d.outFmt).getD fmtFP32
  let x := boltA s la d i bank0 bank1
  let rev := s.fuse.bolter
  if op ≤ 0x08 then
    let (b, p) := boltB s la d i
    let (cur, q) := if op = 0x04 then binBlock s la d.outFmt out d.outPitch d.rows d.cols else ([], false)
    let rows := (List.range d.rows).map fun r => (List.range d.cols).map fun c =>
      let at_ := fun (k : Block) => (k.getD r []).getD c .nan
      laneOut d.bf16 f (pairLane op (at_ x.a) (at_ b) (at_ cur))
    (writeRows s la d.outFmt out d.outPitch rows x.counts, x.poison || p || q)
  else if op ≤ 0x15 then
    (writeRows s la d.outFmt out d.outPitch (x.a.map fun r => r.map fun v => f.encode (funcLane rev op d.bf16 (toLane v)))
      x.counts, x.poison)
  else if op = 0x20 then (mintSums d out x.a x.counts, x.poison)
  else if op = 0x21 then (mintSums d out (transposed d.cols x.a) x.counts, x.poison)
  else if op = 0x30 then
    (writeRows s la d.outFmt out d.outPitch (x.a.map fun r => r.map f.encode) x.counts, x.poison)
  else if op = 0x31 then ((quantMx d.outFmt out (if d.axis then transposed d.cols x.a else x.a), x.counts), x.poison)
  else if op = 0x38 then (writeRows s la d.outFmt out d.outPitch (convertOut d bank0 bank1 x) x.counts, x.poison)
  else if op = 0x40 then (writeRows s la d.outFmt out d.outPitch (transposeOut s la d i x) x.counts, x.poison)
  else
    let ks := x.a.map fun r => (ranked r).take d.k
    let (w, c) := writeRows s la d.outFmt out d.outPitch (ks.map fun r => r.map fun y => laneOut d.bf16 f y.2) x.counts
    ((w ++ (indexed ks).map fun r => (d.bOff + i * d.stepI + r.1 * d.bPitch, r.2.map fun y => BitVec.ofNat 8 y.1), c), x.poison)

end Sys2Proof.Machine
end

