-- ==== Sys2Proof/Machine/Arrays.lean ====
section
/-! DEFINITION. Array descriptors as they start and complete, Shoe batches and replays (R133-R136, R146-R153, R158, R163,
R167-R173, R540, R543). -/

namespace Sys2Proof.Machine

/-! ### Shoe slots -/

def shoeOf (s : State) (la : Nat) (j : Job) : Option ShoeTurn := (logArr s la).shoe.find? fun x => x.job.same j

def dropShoe (s : State) (la : Nat) (j : Job) : State :=
  setLog s la { logArr s la with shoe := (logArr s la).shoe.filter fun x => !x.job.same j }

def putShoe (s : State) (la : Nat) (x : ShoeTurn) : State :=
  let t := dropShoe s la x.job
  setLog t la { logArr t la with shoe := (logArr t la).shoe ++ [x] }

/-- The batch that a job has in progress. -/
def batchOf (s : State) (la : Nat) (j : Job) : List BatchRow := match shoeOf s la j with | some x => x.batch | none => []

/-- The next descriptor of an array job. A Shoe slot runs nothing in an iteration that leaves out its SHOE_HEAD (R167). -/
def arrayNext (s : State) (j : Job) : Option (Nat × Desc) :=
  match jobPlan s j with
  | some (_, sl, n) =>
    let head := match sl.descs.head? with | some d => d.c.runsAt n | none => false
    if sl.shoe && !head then none else nextDesc s j
  | none => none

/-- The job that an array works on: the first that may run and has a descriptor or a batch left. -/
def arrayJob (s : State) (la : Nat) : Option Job :=
  (logArr s la).jobs.find? fun j => runnable s (.array la) j && ((arrayNext s j).isSome || !(batchOf s la j).isEmpty)

/-- The array may start or end work: it is carried by a powered array that is neither held nor replaying (R543, R546). -/
def arrayUp (s : State) (la : Nat) : Bool :=
  let l := logArr s la
  match l.phys with
  | some pa => domainOn s (domOfArray pa) && !l.held && !l.replay
  | none => false

def binPut (s : State) (la off : Nat) (d : Bytes) : State := memPut s (binBase + la * binSize + off) d

/-- The 32-bit number at a bin offset. -/
def binWord (s : State) (la off : Nat) : Nat := leVal (memBytes s (binBase + la * binSize + off) 4)

/-- Rows for a batch, from the queue in order: at most `n`; a row whose TAG an earlier row with LAST has is left out (R171).
The rows chosen, the rows left, and how many of those were left out. -/
def pickRows : Nat → List Nat → List ShoeRow → List ShoeRow × List ShoeRow × Nat
  | _, _, [] => ([], [], 0)
  | n, tags, r :: rest =>
    if n = 0 then ([], r :: rest, 0)
    else if tags.contains r.tag then
      let (c, l, d) := pickRows n tags rest
      (c, r :: l, d + 1)
    else
      let (c, l, d) := pickRows (n - 1) (if r.last then r.tag :: tags else tags) rest
      (r :: c, l, d)

/-- Every byte that a pass reads or writes for a row lies within the permitted offsets (R168). -/
def rowFits (n : Nat) (r : ShoeRow) (d : Desc) : Bool :=
  match d.b with
  | .pass p =>
    !p.shoe || !d.c.runsAt n ||
      (let i := d.c.indexAt n
       r.inOff + p.inEnd false i ≤ binLimit &&
       (p.outFmt = 0xFF ||
         r.outOff + p.outBase + i * p.outStepI + (p.outer - 1) * p.outStepO + p.outExtent ≤ binLimit))
  | _ => true

/-- A Shoe slot's Turn as it begins. -/
def ShoeTurn.start (j : Job) (h : ShoeHeadD) (c : Common) : ShoeTurn :=
  { job := j, head := h, raise := if c.raiseEn then some c.raiseTally else none, batches := 0, rows := 0, deferred := 0,
    refused := 0, gated := false, limit := false, batch := [], left := 0 }

/-- The completion ring has room for a batch (R169). -/
def ringRoom (s : State) (la : Nat) (h : ShoeHeadD) : Bool :=
  let used := (binWord s la h.complBase + 2 ^ 32 - binWord s la (h.complBase + 4)) % 2 ^ 32
  used + 128 ≤ 2 ^ h.complLog2

/-- A batch is formed, where rows wait, the limit and the ring allow it (R133, R168, R169, R171). -/
def formBatch (s : State) (la part n : Nat) (descs : List Desc) (x : ShoeTurn) : State :=
  let ready := (shoeQueue s la part).filter fun r => r.turn < x.job.turn
  if ready.isEmpty then putShoe s la x
  else if x.batches ≥ x.head.maxBatches then putShoe s la { x with limit := true }
  else if !ringRoom s la x.head then putShoe s la { x with gated := true }
  else
    let (rows, left, out) := pickRows 128 [] ready
    let late := (shoeQueue s la part).filter fun r => ¬ r.turn < x.job.turn
    let batch := rows.map fun r => ({ row := r, refused := !descs.all (rowFits n r), mint := 0 } : BatchRow)
    let s1 := setQueue s la part (left ++ late)
    let s2 := (batch.filter BatchRow.refused).foldl (fun a _ => record a (shoeRec a 0x1A la part)) s1
    putShoe s2 la { x with batch := batch, left := out }

/-- The Turn record of a Shoe slot (Table 4-12). -/
def turnRecord (s : State) (la part : Nat) (x : ShoeTurn) : Bytes :=
  leBytes 6 (now s) ++ leBytes 2 x.batches ++ leBytes 4 x.rows ++ leBytes 4 (shoeQueue s la part).length ++
    leBytes 4 x.deferred ++ leBytes 1 (flag x.gated + 2 * flag x.limit) ++ leBytes 3 0 ++ leBytes 4 x.refused ++ leBytes 4 0

/-- The batching of a Turn ends: its record is written and the slot has nothing left to do (Table 4-12). -/
def endShoe (s : State) (la part : Nat) (x : ShoeTurn) : State :=
  let s1 := if x.head.status = 0xFFFF_FFFF then s else binPut s la x.head.status (turnRecord s la part x)
  dropShoe s1 la x.job

/-! ### What a descriptor does -/

/-- From the lowest to the highest byte of some ranges, given as start and end. -/
def hull (l : List (Nat × Nat)) : List (Nat × Nat) :=
  match l with
  | [] => []
  | x :: r => [(r.foldl (fun a y => min a y.1) x.1, r.foldl (fun a y => max a y.2) x.2 - 1)]

/-- What a BOLT reads: A, B, the present output of an FMA, and the whole tile of a QUANT_MX (R152, R164, R165). -/
def boltReads (op : Nat) (d : BoltD) (i : Nat) : List (Nat × Nat) :=
  let o := i * d.stepI
  hull ((if d.srcA = 0 then [(d.aOff + o, blockEnd d.aOff d.aPitch d.rows (elemBytes d.aFmt d.cols) + o)] else []) ++
    (if d.srcB = 1 then [(d.bOff + o, blockEnd d.bOff d.bPitch d.rows (elemBytes d.bFmt d.cols) + o)]
     else if d.srcB = 2 then [(d.bOff + o, d.bOff + elemBytes d.bFmt d.rows + o)]
     else if d.srcB = 3 then [(d.bOff + o, d.bOff + elemBytes d.bFmt d.cols + o)] else []) ++
    (if op = 0x04 then [(d.outOff + o, blockEnd d.outOff d.outPitch d.rows (elemBytes d.outFmt d.cols) + o)] else [])) ++
    (if op = 0x31 then [(d.outOff + o, d.outOff + o + 0x4400 - 1)] else [])

/-- The read extents of a descriptor in one iteration: inputs and weights (R152). -/
def readExtents (d : Desc) (i : Nat) (batch : List BatchRow) : List (Nat × Nat) :=
  match d.b with
  | .pass p =>
    let lo := p.inBase + i * p.inStepI
    let ins :=
      if p.shoe then hull ((batch.filter fun b => !b.refused).map fun b => (b.row.inOff + lo, b.row.inOff + p.inEnd false i))
      else [(lo, p.inEnd (isPreskew d.c.type) i - 1)]
    ins ++ hull ((p.binLoads (isKept d.c.type)).map fun k => (p.wAt i k.1 k.2, p.wAt i k.1 k.2 + weightExtent p.wFmt))
  | .wload w => [(w.wBase + i * w.wStepI, w.wBase + i * w.wStepI + weightExtent w.wFmt - 1)]
  | .bolt b => boltReads (d.c.type - 0x80) b i
  | _ => []

/-- The shadow registers as a descriptor finds them: a WLOAD fills them (R161). A PRELOAD that finds weights of another format there
takes open values: no WLOAD of its format came before it, and the spec says nothing of how those cells read (log entry 82). -/
def loadShadow (s : State) (la : Nat) (d : Desc) (i : Nat) : State :=
  let l := logArr s la
  match d.b with
  | .wload w =>
    setLog s la { l with shadow := { fmt := w.wFmt, data := readTile s la w.wFmt (w.wBase + i * w.wStepI) } }
  | .pass p =>
    if p.preload && !l.shadow.data.isEmpty && l.shadow.fmt != p.wFmt then
      let t : Tile := { fmt := p.wFmt, data := clean (leBytes (weightExtent p.wFmt) (Config.freeValue s.fresh)) }
      takeFresh (setLog s la { l with shadow := t })
    else s
  | .bolt b => if d.c.type = 0xC0 ∧ b.srcA = 0 then takeFresh s else s
  | _ => s

/-- What a pass descriptor is given in an iteration. -/
def passIn (s : State) (la : Nat) (d : Desc) (p : PassD) (i : Nat) (batch : List BatchRow) : PassIn :=
  { la := la, pre := isPreskew d.c.type, kept := isKept d.c.type, d := p, i := i, batch := batch,
    shadow := if p.preload then some (logArr s la).shadow.data else none }

/-- What a descriptor computes from the bin and the banks (R155-R166). -/
def arrayWork (s : State) (la : Nat) (d : Desc) (i : Nat) (batch : List BatchRow) (b0 b1 : Bank) : PassWork :=
  let w : PassWork := { bank0 := b0, bank1 := b1, writes := [], counts := Counts.reset, rows := [], anchorErrs := 0,
                        poisons := 0, mismatch := false }
  match d.b with
  | .pass p => (passIn s la d p i batch).run s w
  | .wload _ => { w with poisons := flag (tainted (logArr s la).shadow.data) }
  | .drain x =>
    let b := if x.bank = 0 then b0 else b1
    let r := drainWork b x i
    { w with writes := r.writes, counts := r.counts, rows := r.rows,
             mismatch := if x.outFmt = 0x20 then b.residueBad 128 128 else b.residueBad x.rows b.cols }
  | .bolt x =>
    let ((ws, c), p) := boltWork s la d.c.type x i b0 b1
    { w with writes := ws, counts := c, poisons := flag p, rows := boltFlags x b0 b1,
             mismatch := x.srcA ≠ 0 && (boltBank x b0 b1).residueBad x.rows x.cols }
  | _ => w

/-- The weight registers after a descriptor (R127, R161): a WLOAD leaves its tile in the shadow registers, a pass swaps. -/
def swapWeights (s : State) (la : Nat) (d : Desc) (i : Nat) (batch : List BatchRow) : State :=
  match d.b with
  | .pass p =>
    let l := logArr s la
    let (a, b) := (passIn s la d p i batch).registers s (l.active, l.shadow)
    setLog s la { l with active := a, shadow := b }
  | _ => s

/-- Offset of a descriptor's status record. -/
def statusOf (d : Desc) : Option Nat :=
  match d.b with
  | .pass p => noneIf 4 p.status
  | .wload w => noneIf 4 w.status
  | .drain x => noneIf 4 x.status
  | .bolt x => noneIf 4 x.status
  | _ => none

def arrayRec (s : State) (la : Nat) (r : ArrRun) (cls : Nat) : Rec :=
  { cls := cls, kind := 1, index := (logArr s la).phys.getD 0, part := some r.part, task := r.desc.c.task }

/-- An event of a descriptor's group, some number of times (R534). -/
def recordTimes (s : State) (owner n : Nat) (r : Rec) : State := (List.range n).foldl (fun a _ => recordIn a owner r) s

def setBanks (s : State) (la : Nat) (b0 b1 : Bank) : State :=
  match (logArr s la).phys with
  | some pa => setPhys s pa { physArr s pa with bank0 := b0, bank1 := b1 }
  | none => s

/-- A run with what its descriptor computed. -/
def ArrRun.result (r : ArrRun) (w : PassWork) : ArrRun :=
  { r with writes := w.writes, counts := { w.counts with ecc := r.counts.ecc }, rows := w.rows,
           anchorErr := decide (w.anchorErrs ≠ 0), poison := decide (w.poisons ≠ 0) }

/-- What a descriptor computed becomes the array's: banks, weight registers, the run with its results and events. A residue that
disagrees at a drain takes the array out of service (R130, R539). -/
def settleArray (s : State) (la : Nat) (r : ArrRun) (batch : List BatchRow) (w : PassWork) : State :=
  let s1 := swapWeights (setBanks s la w.bank0 w.bank1) la r.desc (r.desc.c.indexAt r.j) batch
  let s2 := setLog s1 la { logArr s1 la with run := some (r.result w) }
  let s3 := recordTimes s2 (ownerOfArray la) w.anchorErrs (arrayRec s2 la r 0x1B)
  let s4 := setMoved (recordTimes s3 (ownerOfArray la) w.poisons (arrayRec s2 la r 0x22)) (.array la) r.part
  if w.mismatch then arrayFails s4 ((logArr s la).phys.getD 0) .residue 0 else s4

/-- Bin offsets that a descriptor reads, of those whose words were corrected. -/
def correctedReads (ext : List (Nat × Nat)) (corrected : List Nat) : List Nat :=
  corrected.filter fun o => ext.any fun e => e.1 ≤ o && o ≤ e.2

/-- A descriptor starts (R147, R152): it reads its operands and computes; its bin writes land when it completes. A bin word that is
corrected as it is read counts, and is recorded under class 0x13 (R172, R173). -/
def startArray (s0 : State) (la part : Nat) (j : Job) (d : Desc) (n : Nat) (corrected : List Nat) : State :=
  let i := d.c.indexAt n
  let s1 := loadShadow s0 la d i
  let pa := (logArr s1 la).phys.getD 0
  let batch := batchOf s1 la j
  let ext := readExtents d i batch
  let fixed := correctedReads ext corrected
  let s := fixed.foldl (fun a o => correctedBin a pa part (binBase + la * binSize + o)) s1
  let b0 := (physArr s pa).bank0
  let b1 := (physArr s pa).bank1
  let r : ArrRun :=
    { part := part, job := j, desc := d, j := n, extents := ext, writes := [], counts := { Counts.reset with ecc := fixed.length },
      status := statusOf d, raise := if d.c.raiseEn ∧ d.c.type ≠ 0x30 then some (d.c.raiseTally, d.c.raiseAmount) else none,
      anchorErr := false, replayed := false, poison := false, halted := false, bank0 := b0, bank1 := b1, rows := [] }
  settleArray s la r batch (arrayWork s la d i batch b0 b1)

/-! ### Completion -/

/-- The status record of Table 4-11. -/
def arrayStatus (s : State) (r : ArrRun) (late stale : Bool) : Bytes :=
  let c := r.counts
  leBytes 6 (now s) ++ leBytes 2 r.j ++ leBytes 1 c.flagsOr ++
    leBytes 1 (flag r.replayed + 2 * flag (decide (c.ecc ≠ 0)) + 4 * flag late + 8 * flag r.halted + 16 * flag stale +
      32 * flag r.anchorErr) ++ leBytes 1 r.desc.c.task ++ leBytes 1 0 ++ leBytes 4 c.ovf ++ leBytes 4 c.loss ++
    leBytes 4 c.sat ++ leBytes 4 c.ecc ++ leBytes 4 c.nanInf

/-- Lines of the read extents that a write covers. -/
def extentLines (r : ArrRun) (w : Nat × Bytes) : List Nat :=
  (upto (w.1 / 128) ((w.1 % 128 + w.2.length + 127) / 128)).filter fun l =>
    r.extents.any fun e => l * 128 ≤ e.2 && e.1 < (l + 1) * 128

/-- A write of a descriptor lands: the retention log takes the prior content of the lines of its read extents; one that would need an
entry when the log is full is refused, and changes nothing (R540). -/
def landBin (la : Nat) (r : ArrRun) (s : State) (w : Nat × Bytes) : State :=
  let g := logArr s la
  let new := (extentLines r w).filter fun l => !g.log.any fun x => x.1 = l
  if g.log.length + new.length > 4096 then s
  else binPut (setLog s la { g with log := g.log ++ new.map fun l => (l, binRead s la (l * 128) 128) }) la w.1 w.2

/-- The flags drained for the rows of a batch join its records (Table 4-10). -/
def noteRows (s : State) (la : Nat) (r : ArrRun) : State :=
  match shoeOf s la r.job with
  | some x =>
    let add := fun (b : List BatchRow) (k : Nat × Nat) => b.modify k.1 fun y => { y with mint := y.mint ||| k.2 }
    putShoe s la { x with batch := r.rows.foldl add x.batch }
  | none => s

/-- The job goes past the descriptor that has ended. A SHOE_HEAD that formed no batch ends the slot's Turn (R167). -/
def passArray (s : State) (la part : Nat) (j : Job) (d : Desc) : State :=
  match jobNow s (.array la) j with
  | none => s
  | some x =>
    match d.b, shoeOf s la j, arrayNext s x with
    | .shoeHead _, some t, _ =>
      if t.batch.isEmpty then
        mapJob (endShoe s la part t) (.array la) x fun y => { y with next := (match jobPlan s x with
          | some (_, sl, _) => sl.descs.length
          | none => 0) }
      else passDesc s (.array la) x 0
    | _, _, some (k, _) => passDesc s (.array la) x k
    | _, _, none => s

/-- A run completes: writes, status record, raise, in that order (R148, R172). -/
def endArray (s : State) (la : Nat) (r : ArrRun) : State :=
  let s1 := r.writes.foldl (landBin la r) s
  let s2 := match r.status with
    | some off => binPut s1 la off (arrayStatus s1 r (jobLate s1 (.array la) r.job) false)
    | none => s1
  let s3 := setLog s2 la { logArr s2 la with run := none }
  let s4 := match r.raise with
    | some (t, n) => (tallyOp s3 t false n r.part false).1
    | none => s3
  setMoved (endGroups (passArray (noteRows s4 la r) la r.part r.job r.desc) (ownerOfArray la)) (.array la) r.part

/-- A descriptor is skipped as stale: only its status record is written (R147). -/
def skipArray (s : State) (la part : Nat) (j : Job) (d : Desc) (n : Nat) : State :=
  let r : ArrRun :=
    { part := part, job := j, desc := d, j := n, extents := [], writes := [], counts := Counts.reset, status := none,
      raise := none, anchorErr := false, replayed := false, poison := false, halted := false, bank0 := Bank.reset,
      bank1 := Bank.reset, rows := [] }
  let s1 := match statusOf d with
    | some off => binPut s la off (arrayStatus s r (jobLate s (.array la) j) true)
    | none => s
  match d.b, jobPlan s1 j with
  | .shoeHead _, some (_, sl, _) => setMoved (mapJob s1 (.array la) j fun y => { y with next := sl.descs.length }) (.array la) part
  | _, _ => setMoved (passArray s1 la part j d) (.array la) part

/-! ### Turning to other work -/

/-- Jobs of an array that still have something to do. -/
def arrayOpen (s : State) (la : Nat) (j : Job) : Bool := (arrayNext s j).isSome || !(batchOf s la j).isEmpty

/-- Both banks and the weight registers, as they stand. -/
def bankImage (s : State) (la : Nat) (j : Job) : Stored :=
  let l := logArr s la
  let p := physArr s (l.phys.getD 0)
  { job := j, bank0 := p.bank0, bank1 := p.bank1, active := l.active, shadow := l.shadow }

/-- The job whose work the banks hold: the first of the partition that has something left to do and no image of its own. -/
def bankJob (s : State) (la : Nat) (skip : Option Job) : Option Job :=
  let l := logArr s la
  l.jobs.find? fun j =>
    decide ((jobPlan s j).map (fun x => x.1.part) = l.lastPart) && arrayOpen s la j &&
      !(match skip with | some k => k.same j | none => false) && !(l.store.any fun x => x.job.same j)

/-- The array leaves the work it holds: the image of unfinished work goes to the suspension store, and banks and weights are
cleared (R50, R163). -/
def leaveBanks (s : State) (la : Nat) (skip : Option Job) : State :=
  let s1 := match bankJob s la skip with
    | some j => setLog s la { logArr s la with store := (logArr s la).store ++ [bankImage s la j] }
    | none => s
  setBanks (setLog s1 la { logArr s1 la with active := Tile.reset, shadow := Tile.reset }) la Bank.reset Bank.reset

/-- The array turns to a partition (R50). -/
def turnTo (s : State) (la p : Nat) : State :=
  if (logArr s la).lastPart = some p then s
  else
    let s1 := if (logArr s la).lastPart.isSome then leaveBanks s la none else s
    setLog s1 la { logArr s1 la with lastPart := some p }

/-- The banks become those of a job: its image restored where it has one; otherwise the partition's as they stand, or cleared
ones (R158, R163). -/
def banksFor (s : State) (la : Nat) (j : Job) (part : Nat) : State :=
  match (logArr s la).store.find? fun x => x.job.same j with
  | some x =>
    let s1 := leaveBanks s la (some j)
    let l := logArr s1 la
    setBanks (setLog s1 la { l with active := x.active, shadow := x.shadow, lastPart := some part, store := l.store.filter fun y => !y.job.same j })
      la x.bank0 x.bank1
  | none => turnTo s la part

/-- An array that runs nothing turns to its current job: banks, and a suspended descriptor that goes on (R74, R163). -/
def arrangeArray (s : State) (la : Nat) : State :=
  if (logArr s la).run.isSome then s
  else
    match arrayJob s la with
    | none => s
    | some j =>
      match jobPlan s j with
      | none => s
      | some (p, _, _) =>
        let s1 := banksFor s la j p.part
        let l := logArr s1 la
        match l.parked.find? fun r => r.job.same j with
        | some r => setLog s1 la { l with run := some r, parked := l.parked.filter fun x => !x.job.same j }
        | none => s1

/-! ### Rows -/

/-- A SHOE_HEAD starts: a batch is formed for it. -/
def startHead (s : State) (la part : Nat) (j : Job) (d : Desc) (h : ShoeHeadD) (descs : List Desc) (n : Nat) : State :=
  let x := (shoeOf s la j).getD (ShoeTurn.start j h d.c)
  startArray (formBatch s la part n descs x) la part j d n []

/-- ARRAY_DESC_START (R147). -/
def execArrayDescStart (a : ArrayStart) (s : State) : Host.Outcome State Fault Refusal :=
  act s fun t0 =>
    let la := a.la
    let t := if arrayUp t0 la then arrangeArray t0 la else t0
    if !arrayUp t la ∨ (logArr t la).run.isSome then t
    else
      match arrayJob t la with
      | none => t
      | some j =>
        match jobPlan t j, arrayNext t j with
        | some (p, sl, n), some (_, d) =>
          let again := match d.b with | .shoeHead _ => (shoeOf t la j).isSome | _ => false
          let (t1, g) := if again then (t, Gate.go) else gate (wakeJob t (.array la) j) (.array la) d.c p.part none
          match g, d.b with
          | .wait, _ => t1
          | .skip, _ => skipArray t1 la p.part j d n
          | .go, .shoeHead h => startHead t1 la p.part j d h sl.descs n
          | .go, _ => startArray t1 la p.part j d n a.corrected
        | _, _ => t

/-- ARRAY_DESC_COMPLETE (R148). -/
def execArrayDescComplete (la : Fin 256) (s : State) : Host.Outcome State Fault Refusal :=
  act s fun t =>
    match (logArr t la).run with
    | some r =>
      let stopped := match jobNow t (.array la) r.job with | some x => x.suspended | none => false
      if arrayUp t la && !stopped then arrangeArray (endArray t la r) la else t
    | none => t

/-- A completion record (Table 4-10). -/
def complRecord (turn : Nat) (b : BatchRow) : Bytes :=
  leBytes 4 b.row.reqId ++ leBytes 2 b.row.tag ++ leBytes 1 (flag b.row.last + 2 * flag b.refused) ++ leBytes 1 b.mint ++
    leBytes 4 turn ++ leBytes 4 0

/-- A batch completes: records, PRODUCER, raise; the SHOE_HEAD runs again for the next (R167, R169, R170). -/
def endBatch (s : State) (la part : Nat) (x : ShoeTurn) : State :=
  let h := x.head
  let first := binWord s la h.complBase
  let s1 := (indexed x.batch).foldl (fun a b =>
    binPut a la (h.complBase + 64 + ((first + b.1) % 2 ^ h.complLog2) * 16) (complRecord x.job.turn b.2)) s
  let s2 := binPut s1 la h.complBase (leBytes 4 (first + x.batch.length))
  let s3 := match x.raise with
    | some t => (tallyOp s2 t false x.batch.length part false).1
    | none => s2
  let y := { x with batches := x.batches + 1, rows := x.rows + x.batch.length, deferred := x.deferred + x.left,
                    refused := x.refused + (x.batch.filter BatchRow.refused).length, batch := [], left := 0 }
  setMoved (mapJob (putShoe s3 la y) (.array la) x.job fun j => { j with next := 0 }) (.array la) part

/-- SHOE_BATCH_COMPLETE (R170). -/
def execShoeBatchComplete (la : Fin 256) (s : State) : Host.Outcome State Fault Refusal :=
  act s fun t =>
    if !arrayUp t la ∨ (logArr t la).run.isSome then t
    else
      match arrayJob t la with
      | none => t
      | some j =>
        match jobPlan t j, arrayNext t j, shoeOf t la j with
        | some (p, _, _), none, some x => if x.batch.isEmpty then t else arrangeArray (endBatch t la p.part x) la
        | _, _, _ => t

/-- The descriptor in progress computes again from its retained state, on the array that carries it now; its counts are those of this
run, in which no word is corrected (R172, R540, R543). -/
def replayRun (s : State) (la : Nat) (r : ArrRun) : State :=
  let w := arrayWork s la r.desc (r.desc.c.indexAt r.j) (batchOf s la r.job) r.bank0 r.bank1
  let s1 := setBanks s la w.bank0 w.bank1
  endArray s1 la { { r with counts := { r.counts with ecc := 0 } }.result w with replayed := true }

/-- REPLAY_COMPLETE (R543, R546). -/
def execReplayComplete (la : Fin 256) (cycles copied : Nat) (s : State) : Host.Outcome State Fault Refusal :=
  act s fun t =>
    let l := logArr t la
    let stopped := match l.run with
      | some r => (match jobNow t (.array la) r.job with | some x => x.suspended | none => false)
      | none => false
    match l.phys with
    | some pa =>
      if l.replay && !l.held && domainOn t (domOfArray pa) && !stopped then
        let t1 := setLog t la { l with replay := false }
        let t2 := match l.run with | some r => replayRun t1 la r | none => t1
        record t2 { cls := 0x18, kind := 1, index := pa, part := l.run.map ArrRun.part, d0 := la, d1 := pa, d2 := cycles,
                    d3 := copied }
      else t
    | none => t

end Sys2Proof.Machine
end

