-- ==== Sys2Proof/Machine/Mesh.lean ====
section
/-! DEFINITION. The mesh as Tables 9-1 and 9-2 fix it: where the units attach, which of a unit's routers an address uses, and the route
of a packet (R294, R295). -/

namespace Sys2Proof.Machine

/-- A unit that attaches to the mesh (Table 9-1). -/
inductive MeshUnit where
  | array (n : Nat)
  | slice (s : Nat)
  | engine (n : Nat)
  | site (s : Nat)
  | group (g : Nat)
  | port (p : Nat)
  | core (n : Nat)
  | rtp | host | tally
  deriving DecidableEq, Repr

/-- Its routers, by column and row (Table 9-1). Those of a unit with several stand in the order of the values of the address bits that
select them, column first: the spec does not say which value selects which (log entry 85). -/
def MeshUnit.routers : MeshUnit → List (Nat × Nat)
  | .array n => [(n % 24, 2 + n / 24)]
  | .slice s => [(8 + s % 8, 4 + s / 8)]
  | .engine n => if n < 32 then [(4 + n % 4, 2 + n / 4)] else [(16 + n % 4, 2 + (n - 32) / 4)]
  | .site s =>
    let c := if s < 6 then 0 else 22
    let r := if s < 6 then 2 + 2 * s else 2 * s - 10
    [(c, r), (c + 1, r), (c, r + 1), (c + 1, r + 1)]
  | .group g =>
    let s := g / 2
    let c := 4 + 4 * (s % 4) + 2 * (g % 2)
    let r := if s < 4 then 0 else 15
    [(c, r), (c + 1, r)]
  | .port p =>
    let c := 2 * (p % 2) + (if p % 4 ≥ 2 then 20 else 0)
    let r := if p < 4 then 0 else 15
    [(c, r), (c + 1, r)]
  | .core n => if n < 2 then [(8 + n, 1)] else [(12 + n, 1)]
  | .rtp => [(10, 1)]
  | .host => [(11, 1), (12, 1)]
  | .tally => [(11, 14), (12, 14)]

/-- Its local port at them: 0 for L0, 1 for L1 (Table 9-1). -/
def MeshUnit.side : MeshUnit → Nat
  | .slice _ => 1
  | .engine _ => 1
  | .site _ => 1
  | _ => 0

/-- DEST and DPORT of a local port, as one number (Table 9-3). -/
def portCode (side : Nat) (r : Nat × Nat) : Nat := r.1 + 32 * r.2 + 512 * side

/-- The local ports of a unit. -/
def MeshUnit.ports (u : MeshUnit) : List Nat := u.routers.map (portCode u.side)

/-- The local port that a unit's traffic for a line of addresses uses: address bits [8:7] choose among four, bit [7] among two (R294). -/
def MeshUnit.portFor (u : MeshUnit) (addr : Nat) : Nat :=
  u.ports.getD (addr / 128 % max 1 u.ports.length) 0

/-- Every unit that attaches. -/
def meshUnits : List MeshUnit :=
  (List.range 288).map .array ++ (List.range 64).map .slice ++ (List.range 64).map .engine ++ (List.range 12).map .site ++
    (List.range 16).map .group ++ (List.range 8).map .port ++ (List.range 4).map .core ++ [.rtp, .host, .tally]

/-- The unit behind a local port; the ports that Table 9-1 does not name are unused (R294). -/
def unitBehind (target : Nat) : Option MeshUnit := meshUnits.find? fun u => u.ports.contains target

/-- Column and row of a local port's router. -/
def routerOf (target : Nat) : Nat × Nat := (target % 32, target / 32 % 16)

/-- The steps from one coordinate to another, without the first. -/
def stepsTo (a b : Nat) : List Nat := if a ≤ b then upto (a + 1) (b - a) else (upto b (a - b)).reverse

/-- The routers that a packet passes: along its row to the column of its destination, then along that column (R295). -/
def meshRoute (a b : Nat × Nat) : List (Nat × Nat) := a :: (stepsTo a.1 b.1).map (·, a.2) ++ (stepsTo a.2 b.2).map (b.1, ·)

/-- Its hops (Table 9-2). -/
def meshHops (a b : Nat × Nat) : Nat := (meshRoute a b).length - 1

end Sys2Proof.Machine
end

