-- ==== Sys2Proof/Machine/Fabric.lean ====
section
/-! DEFINITION. The mesh: queue slots and their reservation, flits and their checks, the initiators' counters, share windows and
the telemetry commands (R294-R312). A target is a local port: DEST of Table 9-3 plus 512 for L1. -/

namespace Sys2Proof.Machine

/-! ### Targets -/

/-- The bucket-table resource behind a local port; a bin port's owner table is that of the logical array it carries (R304). -/
def resAt (s : State) (target : Nat) : Option Res :=
  match unitBehind target with
  | some (.array n) => ((List.range 256).find? fun la => (logArr s la).phys = some n).map fun la => { type := 1, index := la }
  | some (.engine n) => some { type := 2, index := n }
  | some (.port n) => some { type := 3, index := n }
  | some (.group n) => some { type := 4, index := n }
  | some (.slice n) => some { type := 5, index := n }
  | some (.site n) => some { type := 6, index := n }
  | _ => none

/-- A partition draws from the pool of a target's queue now (R304). -/
def drawsPool (s : State) (target p : Nat) : Bool :=
  match resAt s target with
  | some r => s.set.ownerOf r.type r.index s.turn.bucket = p
  | none => p = 0

/-! ### Slots -/

def queueOf (s : State) (target vn : Nat) : Queue := s.fab.queue.get (target * 4 + vn) Queue.reset

def setFabQueue (s : State) (target vn : Nat) (q : Queue) : State :=
  { s with fab := { s.fab with queue := s.fab.queue.put (target * 4 + vn) q } }

/-- Slots that a class holds for itself in every queue of a network (Table 9-6). -/
def guaranteed (g : Settings) (vn cls : Nat) : Nat :=
  let e := g.shareOf cls
  if !e.valid then 0 else if vn = 3 then e.bulkSlots else e.reqSlots

def heldBy (q : Queue) (cls : Nat) : Nat := (q.granted.filter fun x => x.2.1 = cls).length

/-- Pool slots of a queue of 64, and those of them that are taken. -/
def poolFree (g : Settings) (q : Queue) (vn : Nat) : Bool :=
  let gs := (List.range 64).map fun c => guaranteed g vn c
  let taken := sumOf ((List.range 64).map fun c => heldBy q c - guaranteed g vn c)
  taken < 64 - sumOf gs

/-- An initiator number is a home slice's (Table 9-7). -/
def isSlice (initiator : Nat) : Bool := 128 ≤ initiator && initiator < 192

/-- A waiting reservation may be granted (R299, R304). -/
def grantable (s : State) (target vn : Nat) (q : Queue) (x : Nat × Nat × Nat) : Bool :=
  let mine := (q.granted.filter fun y => y.1 = x.1).length
  if mine ≥ 8 then false
  else if vn = 2 then mine = 0 && isSlice x.1
  else heldBy q x.2.1 < guaranteed s.set vn x.2.1 || (poolFree s.set q vn && drawsPool s target x.2.2)

/-- PRIO of a class; class 63 has none (Table 9-6). -/
def prioOf (g : Settings) (cls : Nat) : Nat := if cls = 63 then 0 else (g.shareOf cls).prio

/-- One waiting reservation goes before another: higher PRIO, then lower class (R307). -/
def grantBefore (g : Settings) (x y : Nat × Nat × Nat) : Bool :=
  prioOf g x.2.1 > prioOf g y.2.1 || (prioOf g x.2.1 = prioOf g y.2.1 && x.2.1 < y.2.1)

/-- Slots are granted while a waiting reservation can have one, at most `n` of them. -/
def grantSlots : Nat → State → Nat → Nat → State
  | 0, s, _, _ => s
  | n + 1, s, target, vn =>
    let q := queueOf s target vn
    match q.waiting.filter (grantable s target vn q) with
    | [] => s
    | x :: r =>
      let w := r.foldl (fun b y => if grantBefore s.set y b then y else b) x
      let s1 := setFabQueue s target vn { q with granted := q.granted ++ [w], waiting := q.waiting.erase w }
      grantSlots n (emit s1 (.slotGrant target vn w.1 w.2.1)) target vn

/-- The queues in which a reservation waits grant what they can: the bucket's owners or the share table have changed (R299, R304). -/
def grantAll (s : State) : State :=
  ((s.fab.queue.filter fun x => !x.2.waiting.isEmpty).map Prod.fst).foldl (fun a k => grantSlots 64 a (k / 4) (k % 4)) s

/-- A RESERVE is accepted: one entry for each initiator, which keeps its place (R299). -/
def reserveSlot (s : State) (q : QueueReq) (cls : Nat) : State :=
  let x := queueOf s q.target q.vn
  let e := (q.initiator, cls, q.part.val)
  let waiting := if x.waiting.any fun y => y.1 = q.initiator then x.waiting.map fun y => if y.1 = q.initiator then e else y
    else x.waiting ++ [e]
  grantSlots 64 (setFabQueue s q.target q.vn { x with waiting := waiting }) q.target q.vn

/-- RESERVE (R299). The response network needs no reservation; the snoop queues serve the home slices, and no unused local port has a queue
(R294). -/
def execReserve (q : QueueReq) (s : State) : Host.Outcome State Fault Refusal :=
  act s fun t =>
    if !domainOn t 28 ∨ q.vn = 1 ∨ (unitBehind q.target).isNone then t
    else if q.vn = 2 then (if isSlice q.initiator then reserveSlot t q q.cls else t)
    else
      match classFor t.set q.part q.cls with
      | some c => reserveSlot t q c
      | none => record t { cls := 0x34, part := some q.part }

/-- The slot of an initiator in a queue. -/
def slotOf (q : Queue) (initiator : Nat) : Option (Nat × Nat × Nat) := q.granted.find? fun x => x.1 = initiator

/-- A slot falls free; waiting reservations follow. -/
def freeSlot (s : State) (target vn : Nat) (x : Nat × Nat × Nat) : State :=
  let q := queueOf s target vn
  grantSlots 64 (setFabQueue s target vn { q with granted := q.granted.erase x }) target vn

/-- SLOT_RETURN of a slot left unused (R299). -/
def execSlotReturn (q : QueueReq) (s : State) : Host.Outcome State Fault Refusal :=
  act s fun t =>
    match slotOf (queueOf t q.target q.vn) q.initiator with
    | some x => if domainOn t 28 then freeSlot t q.target q.vn x else t
    | none => t

/-! ### Measurement -/

/-- Bin of a latency in fabric cycles (Table 9-8). -/
def latencyBin (l : Nat) : Nat := if l < 64 then 0 else min (Nat.log2 l - 5) 15

/-- An initiator measures a request of a partition (R308, R309). -/
def measure (s : State) (f : MeshFlit) (cls : Nat) : State :=
  let k := f.initiator * 16 + f.part.val
  let c := s.fab.counters.get k Counters.reset
  let b := latencyBin f.latency
  let c1 : Counters := { bins := c.bins.put b (satAdd 32 (c.bins.get b 0) 1),
                         readBytes := (c.readBytes + f.readBytes) % 2 ^ 64, writeBytes := (c.writeBytes + f.writeBytes) % 2 ^ 64 }
  let e := s.set.shareOf cls
  let miss := e.latBin < 15 && f.latency ≥ 2 ^ (e.latBin + 6)
  { s with fab := { s.fab with counters := s.fab.counters.put k c1,
                               latMiss := if miss then s.fab.latMiss.put cls (s.fab.latMiss.get cls 0 + 1) else s.fab.latMiss } }

/-- Flits still to come of a packet of an initiator. -/
def comingOf (s : State) (f : MeshFlit) : Nat := (queueOf s f.target f.vn).coming.get f.initiator 0

def setComing (s : State) (f : MeshFlit) (n : Nat) : State :=
  let q := queueOf s f.target f.vn
  setFabQueue s f.target f.vn { q with coming := if n = 0 then q.coming.drop f.initiator else q.coming.put f.initiator n }

/-- A flit takes its place: the first of a packet takes the slot reserved for it, and the others follow it; none where there is no such
slot, or no such packet (R296, R298, R299). A response always finds its buffer. -/
def admitFlit (s : State) (f : MeshFlit) : Option State :=
  if f.vn = 1 then some s
  else if f.index.val = 0 then
    (slotOf (queueOf s f.target f.vn) f.initiator).map fun x => setComing (freeSlot s f.target f.vn x) f f.len
  else if comingOf s f = 0 then none
  else some (setComing s f (comingOf s f - 1))

/-- A flit as it is delivered: one whose data cannot be corrected has every POISON bit set (R297). -/
def deliveredFlit (f : MeshFlit) : MeshFlit := if f.check = .dataBad then { f with poison := 0xF#4 } else f

/-- FLIT_RECEIVE: checked, and delivered at the local port that its header names (R294-R298, R308). -/
def execFlitReceive (f : MeshFlit) (s : State) : Host.Outcome State Fault Refusal :=
  act s fun t =>
    let rec_ := fun (a : State) (c : Nat) =>
      record a { cls := c, kind := 15, index := f.target, part := some f.part, task := f.cls, addr := f.addr }
    let cls := (classFor t.set f.part f.cls).getD f.cls.val
    if !domainOn t 28 ∨ (unitBehind f.target).isNone then t
    else if f.check = .headerBad then rec_ ((admitFlit t f).getD t) 0x33
    else
      match admitFlit t f with
      | none => rec_ t 0x36
      | some t1 =>
        let t2 := if f.check = .corrected then rec_ t1 0x31 else if f.check = .dataBad then rec_ t1 0x32 else t1
        let t3 := emit t2 (.flit (deliveredFlit f))
        if f.readBytes + f.writeBytes > 0 then measure t3 f cls else t3

/-! ### Share windows -/

/-- A class has missed a guarantee in the window (R309). -/
def latMissed (s : State) (c : Nat) : Bool := s.fab.latMiss.get c 0 > (s.set.shareOf c).missMax
def wayMissed (s : State) (c : Nat) : Bool := s.fab.wayMiss.get c 0 ≠ 0

/-- FAB_MISS_STAT takes an event of a class (Table 9-11). -/
def fabEvent (s : State) (b c : Nat) : State :=
  { s with glob := { s.glob with fabMiss := s.glob.fabMiss.recordValue b c } }

/-- A missed guarantee of a class (R309). -/
def missClass (s : State) (c : Nat) : State :=
  let o := (s.set.shareOf c).owner
  let s1 := if latMissed s c then fabEvent s 6 c else s
  let s2 := if wayMissed s c then fabEvent s1 7 c else s1
  let s3 := { s2 with fab := { s2.fab with missed := s2.fab.missed.put c (s2.fab.missed.get c 0 + 1) } }
  recordIn (eventFor s3 4 o) 700 { cls := 0x35, part := some o }

/-- SHARE_WINDOW_END (R309). -/
def execShareWindowEnd (s : State) : Host.Outcome State Fault Refusal :=
  act s fun t =>
    let missed := (List.range 64).filter fun c => (t.set.shareOf c).valid && (latMissed t c || wayMissed t c)
    let t1 := endGroups (missed.foldl missClass t) 700
    { t1 with fab := { t1.fab with latLast := t.fab.latMiss, wayLast := t.fab.wayMiss, latMiss := [], wayMiss := [] } }

/-! ### Telemetry -/

/-- The partition of P4: 0xF means the caller's own; another's is for partition 0 alone (R310). -/
def statPart (c : Packet) : Option Nat :=
  let v := c.p4.toNat
  let own := partOf c
  if v = 0xF then some own else if v < 15 ∧ (own = 0 ∨ v = own) then some v else none

/-- The 96 bytes of a statistics record. -/
def statBytes (s : State) (i p : Nat) : Bytes :=
  let c := s.fab.snapshot.get (i * 16 + p) Counters.reset
  leBytes 2 i ++ leBytes 1 p ++ leBytes 1 0 ++ leBytes 6 s.fab.snapTurn ++ leBytes 6 0 ++ leBytes 8 c.readBytes ++
    leBytes 8 c.writeBytes ++ (List.range 16).flatMap fun b => leBytes 4 (c.bins.get b 0)

/-- The work of FAB_STATS_READ. -/
def fabStatsReadBody (c : Packet) (s : State) (_ : ReplyTo) : State × Ending :=
  let first := c.p2.toNat
  let n := c.p3.toNat
  if first ≥ 192 then (s, bad 2)
  else if first + n > 192 then (s, bad 3)
  else if c.p4.toNat > 15 then (s, bad 4)
  else if c.p5.toNat > 1 then (s, bad 5)
  else
    match statPart c with
    | none => (s, denied)
    | some p =>
      let ids := (upto first n).take (bufLen c c.p1.toNat / 96)
      let out := ids.flatMap fun i => statBytes s i p
      let wipe := fun (t : Tbl Counters) => ids.foldl (fun a i => a.drop (i * 16 + p)) t
      let s1 := if c.p5 = 1#64 then
        { s with fab := { s.fab with counters := wipe s.fab.counters, snapshot := wipe s.fab.snapshot } } else s
      (s1, output ids.length c.p0.toNat out)

/-- FAB_STATS_READ (R310). -/
def execFabStatsRead (c : Packet) (s : State) : Host.Outcome State Fault Refusal :=
  command 0x0710 noPayload c s (fabStatsReadBody c)

/-- The work of FAB_MISS_READ: the classes that the partition owns (R310). -/
def fabMissReadBody (c : Packet) (s : State) (_ : ReplyTo) : State × Ending :=
  reservedFrom c 5 s fun _ =>
    let first := c.p2.toNat
    let n := c.p3.toNat
    if first ≥ 64 then (s, bad 2)
    else if first + n > 64 then (s, bad 3)
    else if c.p4.toNat > 15 then (s, bad 4)
    else
      match statPart c with
      | none => (s, denied)
      | some p =>
        let mine := (upto first n).filter fun k => (s.set.shareOf k).valid && (s.set.shareOf k).owner = p
        let ids := mine.take (bufLen c c.p1.toNat / 16)
        (s, output ids.length c.p0.toNat (ids.flatMap fun k =>
          leBytes 1 k ++ leBytes 1 (s.set.shareOf k).owner ++ leBytes 2 0 ++ leBytes 4 (s.fab.latLast.get k 0) ++
            leBytes 4 (s.fab.wayLast.get k 0) ++ leBytes 4 (s.fab.missed.get k 0)))

/-- FAB_MISS_READ (R310). -/
def execFabMissRead (c : Packet) (s : State) : Host.Outcome State Fault Refusal :=
  command 0x0711 noPayload c s (fabMissReadBody c)

/-- The snapshot of a Turn boundary (R308). -/
def snapCounters (s : State) : State :=
  { s with fab := { s.fab with snapshot := s.fab.counters, snapTurn := now s } }

end Sys2Proof.Machine
end

