-- ==== Sys2Proof/Machine/Levels.lean ====
section
/-! DEFINITION. The level of every array and DMA engine as the Turn runs: hold, ramps, and what tailrace work, a stretch and a failed array
change of them (R424-R426). Levels are kept at the start of each bucket, in sixteenths. -/

namespace Sys2Proof.Machine

/-- The logical resource whose runs a physical array, or from 288 on a DMA engine, follows; none for an array that carries nothing. -/
def levelRes (s : State) (x : Nat) : Option Res :=
  if x ≥ 288 then some { type := 2, index := x - 288 }
  else if (physArr s x).state = .carrying then some { type := 1, index := (physArr s x).la } else none

/-- The power domain of such a unit. -/
def levelDomain (x : Nat) : Nat := if x ≥ 288 then 28 else domOfArray x

/-- An active plan is due to retire at the next tick. -/
def Plan.leaves (s : State) (p : Plan) : Bool := p.pendRet.any fun x => x.1 ≤ now s + 1

/-- The profile of a plan's runs in an interval of the Turn in progress (R425). Ramps reach into the Turns before and after: those of a
plan that becomes active, or retires, at a tick lie on its own side of it. -/
def profileOf (s : State) (p : Plan) (r : Res) (k : Nat) : Nat :=
  let n := 128 * s.set.bucketLen
  let act_ := decide (p.state = .active)
  let soon := p.pendAct.any fun x => x.1 = now s + 1
  let at_ := fun (j : Nat) => inRun s.set p r j
  if act_ && at_ k then 16
  else
    let near := fun (d : Nat) =>
      (if k + d < n then act_ && at_ (k + d) else (act_ && !p.leaves s || soon) && at_ (k + d - n)) ||
        (if d ≤ k then act_ && at_ (k - d) else act_ && decide (p.tAct < now s) && at_ (k + n - d))
    match (upto 1 16).find? near with
    | some d => 17 - d
    | none => 0

/-- The largest profile of any run, of any partition (R425); no plan entry counts under a mismatch (R91). -/
def profileAt (s : State) (r : Res) (k : Nat) : Nat :=
  if s.turn.mismatch then 0 else maxOf (s.plans.plan.map fun x => profileOf s x.2 r k)

/-- A resource works in the tailrace (R76, R426). -/
def worksLate (s : State) (r : Res) : Bool :=
  inTailrace s && (if r.type = 1 then (logArr s r.index).run.isSome else (engine s r.index).run.isSome)

/-- The level that a unit makes for: hold while it works in the tailrace, otherwise its profile. In a stretch segment a ramp-up that has
begun holds its level (R426). -/
def levelGoal (s : State) (x : Nat) : Nat :=
  match levelRes s x with
  | none => 0
  | some r =>
    if worksLate s r then 16
    else if s.turn.inStretch then
      let n := 128 * s.set.bucketLen
      if (upto 0 16).any fun d => s.plans.plan.any fun y =>
          (y.2.state = .active && !y.2.leaves s || y.2.pendAct.any fun z => z.1 = now s + 1) && inRun s.set y.2 r (n + d)
      then s.power.level.get x 0 else 0
    else profileAt s r (s.turn.bucket * s.set.bucketLen)

/-- A level after a number of intervals: it falls by a step in each, and rises by at most `rise` (R425, R426). -/
def stepLevel (old goal rise fall : Nat) : Nat := if old ≤ goal then min goal (old + rise) else max goal (old - fall)

/-- The units whose level may not be zero. -/
def levelUnits (s : State) : List Nat :=
  let named := s.plans.plan.flatMap fun x => x.2.tables.filterMap fun t =>
    if t.res.type = 2 then some (288 + t.res.index) else if t.res.type = 1 then (logArr s t.res.index).phys else none
  ((s.power.level.map Prod.fst) ++ named).eraseDups

/-- Every level moves on by the intervals since the last; a unit whose domain is off has none. -/
def moveLevels (s : State) (rise fall : Nat) : State :=
  let one := fun (x : Nat) => (x, if domainOn s (levelDomain x) then stepLevel (s.power.level.get x 0) (levelGoal s x) rise fall else 0)
  { s with power := { s.power with level := ((levelUnits s).map one).filter fun e => e.2 ≠ 0 } }

/-- A bucket has begun. -/
def bucketLevels (s : State) : State := moveLevels s s.set.bucketLen s.set.bucketLen

/-- A stretch segment of a number of intervals has begun: levels fall to what is left of them at its end, and ramps that are held stay. -/
def stretchLevels (s : State) (units : Nat) : State := moveLevels s 0 (max 1 units)

/-- A Turn has begun: a ramp-up that a stretch held is complete (R426). -/
def turnLevels (s : State) (stretched : Bool) : State := moveLevels s (if stretched then 16 else s.set.bucketLen) s.set.bucketLen

end Sys2Proof.Machine
end

