-- ==== Sys2Proof/Machine/Posting.lean ====
section
/-! DEFINITION. Staging sets and how a posting takes effect, with the items that defer it: draining ways, emptied directory
ways, sites that change hands (R42, R216-R219, R245, R391, R460-R467, R562, R583). -/

namespace Sys2Proof.Machine

/-! ### Ways that change hands -/

/-- Items of every POSTED set. -/
def postedItems (s : State) : List Item := (postedSets s).flatMap fun x => x.2.items

/-- Cache ways that a list of items takes from their owners or turns to scratch (R217). -/
def waysTaken (g : Settings) (l : List Item) : List Nat :=
  let h := applyItems g l
  (List.range 16).filter fun w => !g.isScratch w && (h.isScratch w || g.wayOwner.get w 0 != h.wayOwner.get w 0)

/-- Directory ways that a list of items takes from their owners (R245). -/
def dirTaken (g : Settings) (l : List Item) : List Nat :=
  let h := applyItems g l
  (List.range 16).filter fun w => g.dirOwner.get w 0 != h.dirOwner.get w 0

/-- The lines of emptying ways are back-invalidated (R245). -/
def emptyWays (s : State) : State :=
  let asked := fun (l : Nat) => (txnOf s l).any (fun t => t.kind = .evict) || s.coh.waiting.any fun x => x.1 = l && x.2 = .evict
  let ls := (s.coh.dir.filter fun x => s.coh.emptying.contains x.2.way && !asked x.1).map Prod.fst
  ls.foldl (fun a l => requestLine a l .evict) s

/-- The ways that POSTED sets take are draining and emptying, from their acceptance on (R217, R245). -/
def markWays (s : State) : State :=
  let l := postedItems s
  emptyWays { s with mem := { s.mem with draining := waysTaken s.set l }, coh := { s.coh with emptying := dirTaken s.set l } }

/-- WAY_DRAIN_COMPLETE: the channel groups that may write back in the bucket in progress have written back every draining way's lines, and
those are invalid (R76, R212, R217, R218). -/
def execWayDrainComplete (s : State) : Host.Outcome State Fault Refusal :=
  act s fun t =>
    let out := fun (line way : Nat) => t.mem.draining.contains way && groupFree t (chanGroup line)
    { t with mem := { t.mem with cache := t.mem.cache.filter (fun c => !out c.line c.way),
                                 victims := t.mem.victims.filter fun v => !out v.line v.way } }

/-- DIRECTORY_WAY_EMPTIED: what an emptying way still holds is invalidated (R245). -/
def execDirectoryWayEmptied (s : State) : Host.Outcome State Fault Refusal := act s fun t => emptyWays t

/-! ### Sites that change hands -/

/-- Sites that a list of items gives to another partition (R391). -/
def sitesMoved (g : Settings) (l : List Item) : List Nat :=
  let h := applyItems g l
  (List.range 12).filter fun n => g.sitePartOf n != h.sitePartOf n

/-- The last three of R391: translations cleared, chiplet reset, a new epoch. -/
def moveSite (s : State) (n : Nat) : State :=
  let s1 := emit s (.sideband n 0x21 2 0)
  let s2 := rejoin (dropUnit s1 (64 + n)) n
  setSite s2 n { siteOf s2 n with moving := false }

/-- A site begins to change hands: a caching agent flushes first (R259, R391). -/
def beginMove (s : State) (n : Nat) : State :=
  let s1 := setSite s n { siteOf s n with moving := true }
  if agentEnabled s n && !(agentOf s n).fenced then askFlush s1 n else moveSite s1 n

/-! ### Taking effect -/

/-- The whole set may take effect: its ways are clean and emptied, its sites are ready (R218, R245, R391). -/
def setReady (s : State) (x : StageSet) : Bool :=
  (waysTaken s.set x.items).all (wayClean s) &&
    ((dirTaken s.set x.items).all fun w => !s.coh.dir.any fun d => d.2.way = w) &&
    (sitesMoved s.set x.items).all fun n => !(siteOf s n).moving

/-- Contents of the scratch ways that become cache ways are lost; lines of ways that change are gone (R219). -/
def remapWays (s : State) (g : Settings) : State :=
  let lo := scratchBase + g.backed
  let hi := scratchBase + s.set.backed
  let gone := (List.range 16).filter fun w => s.set.isScratch w != g.isScratch w || s.set.wayOwner.get w 0 != g.wayOwner.get w 0
  { s with mem := { s.mem with
      cells := s.mem.cells.filter fun c => !(lo ≤ c.1 && c.1 < hi),
      poison := s.mem.poison.filter fun u => !(lo ≤ u * 64 && u * 64 < hi),
      cache := s.mem.cache.filter fun c => !gone.contains c.way } }

/-- A TRIM code takes effect: credit, class 0x9B for a raise, the wear record (R552, Table 18-2). -/
def trimEffect (s : State) (d v : Nat) : State :=
  let old := s.set.trim.get d 0
  if old = v then s
  else
    let a := ageOf s d
    let b := { a with credit := a.credit + ((v : Int) - old) * s.fuse.trimPs.get d 0 }
    let s1 := { s with power := { s.power with age := s.power.age.put d b },
                       fw := { s.fw.eraseWear with wearTrim := s.fw.wearTrim.put d v } }
    if old < v then record s1 { cls := 0x9B, kind := 11, index := d, d0 := d, d1 := v, d2 := s.glob.tariffVer } else s1

/-- A frequency step takes effect: credit, class 0x9D, a new tariff, the wear record, cause FLOOR at step 8 (R552, R553, R555). -/
def stepEffect (s : State) (d v : Nat) : State :=
  let old := s.set.freqStep.get d 0
  if old = v then s
  else
    let a := ageOf s d
    let b := { a with credit := a.credit + ((v : Int) - old) * s.fuse.stepPs.get d 0,
                      proposed := a.proposed.filter fun p => v < p, propNo := 0 }
    let s1 := { s with power := { s.power with age := s.power.age.put d b },
                       fw := { s.fw.eraseWear with wearStep := s.fw.wearStep.put d v },
                       glob := { s.glob with tariffDirty := true } }
    let s2 := record s1 { cls := 0x9D, kind := 11, index := d, d0 := d, d1 := v, d2 := s.glob.tariffVer + 1,
                          d3 := a.propNo }
    if v = 8 then addCause s2 0 else s2

/-- The ports through which a hub has neighbours. -/
def cabled (s : State) (p : Nat) : Bool := extent s (p / 2) ≠ 1

/-- SEAL takes effect (R583): a partition that is sealed starts without keys, so that its packets are held until an exchange has
installed some; one that is unsealed runs no exchange any more, and its keys go once its sealed packets have been acknowledged. -/
def sealEffect (s : State) (p v : Nat) : State :=
  if s.set.sealed.get p 0 = v then s
  else
    let s1 := (List.range 8).foldl (fun a n =>
      let q := portOf a n
      setPort a n { q with keys := if v = 1 then q.keys.drop p else q.keys, keyEx := q.keyEx.drop p }) s
    { s1 with sec := { s1.sec with held := without s1.sec.held p } }

/-- What an item does besides setting its value. -/
def itemEffect (s : State) (i : Item) : State :=
  let v := i.num
  if i.item = 0x0001 then (if bucketLenOf v = v then s else record s { cls := 0x07, d0 := v })
  else if i.item = 0x0002 then (if tailraceLenOf v = v then s else record s { cls := 0x07, d0 := v })
  else if i.item = 0x0505 then sealEffect s i.index (v % 2)
  else if i.item = 0x0602 then
    setSite (tariffChanged s) i.index { siteOf s i.index with rate16 := v = 16 }
  else if i.item = 0x0701 then trimEffect s i.index v
  else if i.item = 0x0702 then stepEffect s i.index v
  else s

/-- A set takes effect for a Turn: every item, the final reply, and the set is EMPTY (R465). -/
def applySet (s : State) (n t : Nat) : State :=
  let x := setOf s n
  let s1 := x.items.foldl itemEffect s
  let g := applyItems s1.set x.items
  let s2 := setSet { remapWays s1 g with set := g } n StageSet.reset
  let s3 := match x.reply with | some r => postFinal s2 r .ok x.items.length (some t) none | none => s2
  markWays s3

/-- The POSTED sets that are due for a Turn, in order of acceptance; one that may not take effect yet is deferred (R465). -/
def applyDue (s : State) (t : Nat) : State :=
  ((postedSets s).filter fun x => x.2.turn ≤ t).foldl (fun a x =>
    if setReady a x.2 then applySet a x.1 t else setSet a x.1 { x.2 with deferred := true }) s

/-- Sites whose partition a set named for the next Turn changes begin to change hands (R391). -/
def beginMoves (s : State) : State :=
  let due := (postedSets s).filter fun x => x.2.turn ≤ now s + 1 && !x.2.deferred
  (due.flatMap fun x => sitesMoved s.set x.2.items).foldl beginMove s

/-! ### Commands -/

/-- The set that a command names: sources 0 and 1 only (R460). -/
def stageFor (c : Packet) (k : Nat → State × Ending) (s : State) : State × Ending :=
  if c.source.val > 1 then (s, denied)
  else if c.p0.toNat ≥ 4 then (s, bad 0)
  else k (c.source.val * 4 + c.p0.toNat)

/-- Items taken into a set: a value already there is replaced and keeps its number (R461). -/
def mergeItem (l : List Item) (i : Item) : List Item :=
  if l.any fun j => j.item = i.item && j.index = i.index then
    l.map fun j => if j.item = i.item && j.index = i.index then i else j
  else l ++ [i]

/-- Items staged: all of them or none (R461). -/
def stageItems (s : State) (n : Nat) (l : List Item) : State × Ending :=
  let x := setOf s n
  if x.state = .posted then (s, busy 0)
  else
    let m := l.foldl mergeItem x.items
    if m.length > 4096 ∨ sumOf (m.map fun i => i.value.length) > 65536 then (s, busy 0)
    else (setSet s n { x with items := m, state := .opened }, okay l.length)

/-- The work of STAGE_SET, PART_OWNERS and PART_SHARES: the items of the payload, of the kinds that the command takes. -/
def stageBody (ok : Nat → Bool) (c : Packet) (s : State) (_ : ReplyTo) : State × Ending :=
  reservedFrom c 1 s fun _ => stageFor c (fun n =>
    match parseItems (c.payload.length / 16 + 1) c.payload with
    | none => (s, bad 6)
    | some l => if l.all fun i => ok i.item then stageItems s n l else (s, bad 6)) s

def somePayload (n : Nat) : Bool := 0 < n && n ≤ 4096

/-- STAGE_SET (R461). -/
def execStageSet (c : Packet) (s : State) : Host.Outcome State Fault Refusal :=
  command 0x0101 somePayload c s (stageBody (fun _ => true) c)

/-- PART_OWNERS (R585). -/
def execPartOwners (c : Packet) (s : State) : Host.Outcome State Fault Refusal :=
  command 0x0402 somePayload c s (stageBody (· = 0x0501) c)

/-- PART_SHARES (R585). -/
def execPartShares (c : Packet) (s : State) : Host.Outcome State Fault Refusal :=
  command 0x0403 somePayload c s (stageBody (fun i => 0x0502 ≤ i && i ≤ 0x0504) c)

/-- The work of PART_SEAL: one item 0x0505 (R585). -/
def partSealBody (c : Packet) (s : State) (_ : ReplyTo) : State × Ending :=
  reservedFrom c 3 s fun _ => stageFor c (fun n =>
    if c.p1.toNat ≥ 16 then (s, bad 1)
    else if c.p2.toNat > 1 then (s, bad 2)
    else stageItems s n [{ item := 0x0505, index := c.p1.toNat, value := leBytes 8 c.p2.toNat }]) s

/-- PART_SEAL (R585). -/
def execPartSeal (c : Packet) (s : State) : Host.Outcome State Fault Refusal := command 0x0404 noPayload c s (partSealBody c)

/-- The work of STAGE_CHECK (R462). -/
def stageCheckBody (c : Packet) (s : State) (_ : ReplyTo) : State × Ending :=
  reservedFrom c 1 s fun _ => stageFor c (fun n =>
    let x := setOf s n
    if x.state = .empty then (s, bad 0)
    else if x.state = .posted then (s, busy 0)
    else
      match checkSet s n x.items with
      | none => (setSet s n { x with state := .checked }, okay 0)
      | some d => (setSet s n { x with state := .opened }, .done .checkFailed d none none)) s

/-- STAGE_CHECK (R462). -/
def execStageCheck (c : Packet) (s : State) : Host.Outcome State Fault Refusal :=
  command 0x0102 noPayload c s (stageCheckBody c)

/-- A set is accepted for a Turn (R463, R465). -/
def postSet (s : State) (n t : Nat) (r : Option ReplyTo) : State :=
  let s1 := setSet s n { setOf s n with state := .posted, turn := t, order := s.cmd.postings, reply := r, deferred := false }
  markWays { s1 with cmd := { s1.cmd with postings := s.cmd.postings + 1 } }

/-- The work of STAGE_POST (R463). -/
def stagePostBody (c : Packet) (s : State) (r : ReplyTo) : State × Ending :=
  reservedFrom c 2 s fun _ => stageFor c (fun n =>
    let x := setOf s n
    if x.state = .empty then (s, bad 0)
    else if x.state = .posted then (s, busy 0)
    else
      match turnFor s c.p1.toNat 1 with
      | .error e => (s, e)
      | .ok t =>
        match checkSet s n x.items with
        | none => (postSet s n t (some r), .interim t)
        | some d => (setSet s n { x with state := .opened }, .done .checkFailed d none none)) s

/-- STAGE_POST (R463). -/
def execStagePost (c : Packet) (s : State) : Host.Outcome State Fault Refusal :=
  command 0x0103 noPayload c s (stagePostBody c)

/-- The commit window of the Turn before a Turn has begun. -/
def committedFor (s : State) (t : Nat) : Bool := t ≤ now s || (t = now s + 1 && s.turn.commit)

/-- The work of STAGE_DISCARD (R466). -/
def stageDiscardBody (c : Packet) (s : State) (_ : ReplyTo) : State × Ending :=
  reservedFrom c 1 s fun _ => stageFor c (fun n =>
    let x := setOf s n
    match x.state with
    | .empty => (s, bad 0)
    | .posted =>
      if x.deferred || committedFor s x.turn then (s, .done .turnPassed (now s + 2) none none)
      else
        let s1 := markWays (setSet s n StageSet.reset)
        (match x.reply with | some q => postFinal s1 q .aborted 0 none none | none => s1, okay 0)
    | _ => (setSet s n StageSet.reset, okay 0)) s

/-- STAGE_DISCARD (R466). -/
def execStageDiscard (c : Packet) (s : State) : Host.Outcome State Fault Refusal :=
  command 0x0104 noPayload c s (stageDiscardBody c)

def SetState.code : SetState → Nat
  | .empty => 0
  | .opened => 1
  | .checked => 2
  | .posted => 3

/-- The work of STAGE_READ (R467). -/
def stageReadBody (c : Packet) (s : State) (_ : ReplyTo) : State × Ending :=
  reservedFrom c 3 s fun _ => stageFor c (fun n =>
    let x := setOf s n
    let d := x.state.code + (if x.state = .posted then x.turn * 65536 else 0)
    (s, output d c.p1.toNat ((x.items.flatMap Item.bytes).take c.p2.toNat))) s

/-- STAGE_READ (R467). -/
def execStageRead (c : Packet) (s : State) : Host.Outcome State Fault Refusal :=
  command 0x0105 noPayload c s (stageReadBody c)

/-! ### PART_READ -/

/-- Deeds of a kind of memory that name a partition. -/
def deedsNaming (s : State) (p lo hi : Nat) : Nat :=
  (s.mem.deeds.filter fun d => lo ≤ d.1 * granule && d.1 * granule < hi && d.2.names p).length

/-- Bytes 2 to 27 of the partition record (Table 19-3). -/
def partHoldings (s : State) (p : Nat) : Bytes :=
  let g := s.set
  leBytes 2 ((List.range 4096).filter fun n => boundTo s n p).length ++
    leBytes 4 (s.tallies.tally.filter fun t => t.2.assigned && t.2.part = p).length ++
    leBytes 4 (deedsNaming s p 0 hbmEnd) ++ leBytes 2 (deedsNaming s p scratchBase 0x102_0000_0000) ++
    leBytes 2 (deedsNaming s p binBase 0x142_0000_0000) ++ leBytes 2 (g.cacheWays p).length ++ leBytes 2 (g.dirWays p).length ++
    leBytes 2 ((validClasses g).filter fun c => (g.shareOf c).owner = p).length ++
    leBytes 2 ((List.range 64).filter fun n => (engine s n).owner = p).length ++
    leBytes 2 (ofBits ((List.range 12).filter fun n => g.sitePartOf n = p)) ++
    leBytes 2 (s.plans.plan.filter fun x => x.2.part = p).length

/-- Mean energy share of a group over the Turn, in 0.1 W (Table 19-3). -/
def meanShare (s : State) (p grp : Nat) : Nat :=
  let sum := (List.range 128).foldl (fun a b => a + shareNj s s.set p grp b) (0 : Rat)
  min 65535 (sum / 128 / shareUnit s.set).floor.toNat

/-- The partition record (Table 19-3). -/
def partRecord (s : State) (p : Nat) : Bytes :=
  let h := partHoldings s p
  leBytes 1 p ++
    leBytes 1 (flag (isSealed s p) + 2 * flag (fnExists s (partFn p)) + 4 * flag (h.all (· = 0#8))) ++ h ++ leBytes 4 0 ++
    ((upto 1 6).flatMap fun t => leBytes 4 (sumOf ((List.range (resCount t)).map fun i =>
      ((List.range 128).filter fun b => s.set.ownerOf t i b = p).length))) ++ leBytes 8 0 ++
    ((List.range 8).flatMap fun k => leBytes 2 (meanShare s p k)) ++ ((List.range 8).flatMap fun k => leBytes 2 (s.set.slopeOf p k)) ++
    ((List.range 128).flatMap fun b => leBytes 1 (s.set.weightOf p b)) ++ List.replicate 32 0#8

/-- The work of PART_READ (R563, R585). -/
def partReadBody (c : Packet) (s : State) (_ : ReplyTo) : State × Ending :=
  reservedFrom c 3 s fun _ =>
    if c.p1.toNat < 256 then (s, bad 1)
    else if c.p2.toNat ≥ 16 then (s, bad 2)
    else
      let p := if c.p2 = 0xF#64 then partOf c else c.p2.toNat
      if partOf c ≠ 0 ∧ p ≠ partOf c then (s, denied) else (s, output p c.p0.toNat (partRecord s p))

/-- PART_READ (R563). -/
def execPartRead (c : Packet) (s : State) : Host.Outcome State Fault Refusal := command 0x0401 noPayload c s (partReadBody c)

end Sys2Proof.Machine
end

