-- ==== Sys2Proof/Machine/Buckets.lean ====
section
/-! DEFINITION. Bucket boundaries: slots that start, go on, run past their end or are suspended, resource boundaries, the
tailrace and the stretch segment (R21, R22, R47, R50, R74-R77, R80-R83, R163, R332). -/

namespace Sys2Proof.Machine

/-! ### What a bucket table says -/

/-- The next valid entry of a resource in this Turn, from a bucket on: handle and slot. -/
def nextEntry (s : State) (r : Res) (b : Nat) : Option (Nat × Nat) := (upto b (128 - b)).findSome? (activeAt s r)

/-- A slot has a run from a bucket on. -/
def laterRun (s : State) (r : Res) (b h sl : Nat) : Bool := (upto b (128 - b)).any fun k => activeAt s r k = some (h, sl)

/-- Partition of an entry. -/
def entryPart (s : State) (e : Nat × Nat) : Option Nat := (planOf s e.1).map Plan.part

/-- Partition of a job. -/
def jobPart (s : State) (j : Job) : Option Nat := (planOf s j.handle).map Plan.part

/-- A job has something left to do. -/
def jobOpen (s : State) (w : Work) (j : Job) : Bool :=
  match w with
  | .array la => arrayOpen s la j
  | _ => (nextDesc s j).isSome

/-- The job that a queue works on now. -/
def queueJob (s : State) (w : Work) : Option Job :=
  match w with
  | .array la => arrayJob s la
  | _ => currentJob s w

/-- Every active resource. -/
def planWorks : List Work :=
  (List.range 256).map Work.array ++ (List.range 64).map Work.dma ++ (List.range 12).map Work.site

/-- A resource has slots or work: the others do nothing at a boundary. -/
def inPlay (s : State) (w : Work) : Bool :=
  !(jobsOf s w).isEmpty ||
    s.plans.plan.any fun x => decide (x.2.state = .active) && x.2.tables.any fun t => t.res = workRes w

/-! ### The end of a run -/

/-- The entry of class 0x06. -/
def overrunRec (s : State) (w : Work) (j : Job) : Rec :=
  let (k, n) := match w with
    | .array la => (1, (logArr s la).phys.getD 0)
    | .dma n => (2, n)
    | .site n => (7, n)
    | .cmd n => (2, n)
  { cls := 0x06, kind := k, index := n, part := jobPart s j, task := match nextDesc s j with | some (_, d) => d.c.task | none => 0 }

/-- Work that has reached the end of its slot's last run: it goes on where the next valid entry is its partition's, or where
none follows in this Turn; otherwise it is suspended (R50, R75). -/
def lateJob (w : Work) (s : State) (j : Job) : State :=
  let r := workRes w
  let b := s.turn.bucket
  if j.suspended || j.overrun || !jobOpen s w j || activeAt s r b = some (j.handle, j.slot) || laterRun s r b j.handle j.slot then s
  else
    let stays := inTailrace s || (match nextEntry s r b with | some e => decide (entryPart s e = jobPart s j) | none => true)
    mapJob (record s (overrunRec s w j)) w j fun x => { x with overrun := stays, suspended := !stays }

/-! ### Resource boundaries -/

/-- The rows of a Shoe batch that is cut go back to their queue, to be batched again from the start (R136, R163). -/
def releaseBatch (s : State) (la part : Nat) (j : Job) : State :=
  match shoeOf s la j with
  | some x =>
    let q := (x.batch.map BatchRow.row).foldl (fun a r => insRow r a) (shoeQueue s la part)
    mapJob (setQueue (putShoe s la { x with batch := [], left := 0 }) la part q) (.array la) j fun y => { y with next := 0 }
  | none => s

/-- A suspended array descriptor leaves the array; one of a Shoe batch is dropped with its batch. A WLOAD, DRAIN or BOLT has no suspension
point before its completion, so its last one is where it started: it starts again, past its wait (R50, R163). -/
def parkArray (s : State) (la part : Nat) : State :=
  let l := logArr s la
  let cut := l.jobs.filter fun j => jobPart s j = some part && !(batchOf s la j).isEmpty
  let s1 := match l.run with
    | some r =>
      if cut.any fun j => j.same r.job then setLog s la { l with run := none }
      else if isPass r.desc.c.type then setLog s la { l with run := none, parked := l.parked ++ [{ r with halted := true }] }
      else mapJob (setLog s la { l with run := none }) (.array la) r.job fun x =>
        if r.desc.c.waitEn then { x with saved := .released } else x
    | none => s
  cut.foldl (fun a j => releaseBatch a la part j) s1

/-- A suspended descriptor leaves an engine at a line or packet boundary (R50, R192, R332). -/
def parkEngine (s : State) (de : Nat) : State :=
  match (engine s de).run with
  | some r =>
    let (s1, r1) := stopRun s de r
    setEngine s1 de { engine s1 de with run := none, parked := (engine s1 de).parked ++ [r1] }
  | none => s

/-- The run of a queue belongs to another partition than the entry that comes next. -/
def foreignRun (s : State) (w : Work) (q : Nat) : Bool :=
  let job := match w with
    | .array la => (logArr s la).run.map ArrRun.job
    | .dma n => (engine s n).run.map DmaRun.job
    | .site n => (siteOf s n).run.map SiteRun.job
    | .cmd _ => none
  match job with
  | some j => jobPart s j ≠ some q
  | none => false

/-- A resource boundary: the outgoing work is suspended, and what the array holds of it is cleared (R50). -/
def cross (s : State) (w : Work) (q : Nat) : State :=
  let stop := fun (x : Job) => if x.overrun ∧ jobPart s x ≠ some q then { x with overrun := false, suspended := true } else x
  let s1 := setJobs s w ((jobsOf s w).map stop)
  match w with
  | .array la =>
    (match (logArr s1 la).lastPart with
     | some p => if p = q then s1 else turnTo (parkArray s1 la p) la q
     | none => turnTo s1 la q)
  | .dma n => if foreignRun s1 w q then parkEngine s1 n else s1
  | .site n => if foreignRun s1 w q then parkCall s1 n else s1
  | .cmd _ => s1

/-! ### The beginning of a run -/

/-- The bucket in progress begins a run of its slot. -/
def runBegins (s : State) (r : Res) : Option (Nat × Nat) :=
  let b := s.turn.bucket
  let e := activeAt s r b
  if b ≠ 0 ∧ activeAt s r (b - 1) = e then none else e

/-- A run begins: its slot starts in this Turn, or goes on (R74). -/
def openRun (s : State) (w : Work) : State :=
  match runBegins s (workRes w) with
  | none => s
  | some (h, sl) =>
    let j : Job := { handle := h, slot := sl, turn := now s, next := 0, suspended := false, overrun := false, saved := .none }
    let go := fun (x : Job) => if x.handle = h ∧ x.slot = sl then { x with suspended := false, overrun := false } else x
    let l := (jobsOf s w).map go
    setJobs s w (if l.any fun x => x.same j then l else l ++ [j])

/-! ### Waits of work that steps aside -/

/-- The queue has turned from one job to another: a wait that stands leaves the waiter table and is filed again later; one that
has been answered is kept with its job. -/
def keepWait (s : State) (w : Work) (before : Option Job) : State :=
  let v := waitOf s w
  let same : Bool := match before, queueJob s w with | some a, some b => a.same b | _, _ => false
  if v = .none ∨ same then s
  else
    let s1 := setWait { s with tallies := { s.tallies with waiters := s.tallies.waiters.filter fun x => x.who ≠ w } } w .none
    match before with
    | some j => if v = .waiting then s1 else mapJob s1 w j fun x => { x with saved := v }
    | none => s1

/-- A resource takes up the suspended work of its current job. -/
def arrange (s : State) (w : Work) : State :=
  match w with
  | .array la => if arrayUp s la then arrangeArray s la else s
  | .dma n => arrangeEngine s (fin64 n)
  | .site n => arrangeSite s n
  | .cmd _ => s

/-! ### A boundary -/

/-- One active resource at the start of a bucket. -/
def workBoundary (s : State) (w : Work) : State :=
  if !inPlay s w then s
  else
    let before := queueJob s w
    let s1 := if s.turn.mismatch then s else (jobsOf s w).foldl (lateJob w) s
    let s2 := if inTailrace s1 then s1
      else match (nextEntry s1 (workRes w) s1.turn.bucket).bind (entryPart s1) with
        | some q => cross s1 w q
        | none => s1
    let s3 := openRun s2 w
    let s4 := if inTailrace s3 then setJobs s3 w ((jobsOf s3 w).map fun x => { x with suspended := false }) else s3
    arrange (keepWait s4 w before) w

/-- Command work pauses before a bucket that is not its own, and goes on in the next that is, unless its context is being cleared (R21,
R22, R267). -/
def cmdBoundary (s : State) (de : Nat) : State :=
  match (engine s de).cmdRun with
  | none => s
  | some r =>
    if cmdBucket s de then
      if r.paused && !clearing s r.ctx then pump (setRun s de true (some (r.resumed s))) (fin64 de) true [] else s
    else if r.paused then s
    else
      let (s1, r1) := stopRun s de r
      setRun s1 de true (some { r1 with paused := true })

/-- The body of this hub's markers: its lengths, F and U, the Headrace, its own health (R86, R91, R361, R364). -/
def markerOut (s : State) : MarkerOut :=
  { bucket := s.turn.bucket, turn := now s, bucketLen := s.set.bucketLen, tailraceLen := s.set.tailraceLen, f := s.turn.f, u := s.turn.u,
    headrace := s.turn.headrace, hops := s.turn.hops, aligned := s.turn.aligned, srcHealthy := srcHealthy s,
    protoMax := bankProto s s.boot.bank, sysMin := s.turn.sysMin, protoFloor := s.set.protoFloor }

/-- A Turn marker leaves on every link in service (R88, R361). -/
def sendMarkers (s : State) : State :=
  ((List.range 64).filter fun n => (linkOf s n).state = .inService && !inCheck s (linkOf s n)).foldl
    (fun a n => emit a (.marker n (markerOut s))) s

/-- What the tailrace does on its own besides write-back: retests of quarantined arrays (R76, R547). -/
def tailraceWork (s : State) : State :=
  let test := fun (x : Nat × PhysArr) => if x.2.state = .quarantined then (x.1, { x.2 with state := .testing }) else x
  { s with arr := { s.arr with phys := s.arr.phys.map test } }

/-- The start of a bucket, for every resource. -/
def startBucket (s : State) : State :=
  let s1 := planWorks.foldl workBoundary s
  let s2 := (s1.dma.map Prod.fst).foldl cmdBoundary s1
  let s3 := writeBack s2
  let s4 := grantAll (releasePorts (if inTailrace s3 && !s3.turn.commit && !servicePause s3 then tailraceWork s3 else s3))
  if s4.turn.bucket % 16 = 0 && !s4.turn.inStretch then sendMarkers s4 else s4

/-- A stretch segment begins: class 0x01, event STRETCH, TURN_STAT; what was forwarded for the segment before it has settled
(R81, R83). The layout of word 0 of the entry's DETAIL, k in [7:0] and the requesting hub above it, is the model's choice: the spec
gives the contents alone (log entry 76). -/
def beginStretch (s : State) : State :=
  let t := s.turn
  let k := t.kNow
  let units := k * t.u * s.set.bucketLen
  let s1 := { s with turn := { t with inStretch := true, forwarded := [], commit := false, kNow := 0, kSum := t.kSum + k,
                                      stretchNow := t.stretchNow + units, elapsed := t.elapsed + units,
                                      stretches := if t.kSum = 0 then satAdd 32 t.stretches 1 else t.stretches,
                                      stretchTime := satAdd 32 t.stretchTime units } }
  event (record s1 { cls := 0x01, d0 := k + t.kHub * 256 }) 10

/-- A stretch segment begins, for every resource (R81, R426). -/
def enterStretch (t : State) : State := stretchLevels (startBucket (beginStretch t)) (t.turn.kNow * t.turn.u * t.set.bucketLen)

/-- A bucket ends (R74); after B127 only a stretch segment can follow (R81). -/
def bucketBoundary (t : State) : State :=
  if t.turn.bucket < 127 then bucketLevels (startBucket { t with turn := { t.turn with bucket := t.turn.bucket + 1 } })
  else if t.turn.kNow ≠ 0 then enterStretch t
  else t

/-! ### Stretch requests -/

/-- A request for a Turn's stretch goes out on every link in service but one, and is noted (R363); none goes out in holdover (R90). -/
def sendStretch (s : State) (skip : Option Nat) (k turn hub : Nat) : State :=
  let old := s.turn.forwarded.filter fun x => x.1 ≠ turn
  let s1 := { s with turn := { s.turn with forwarded := old ++ [(turn, k)] } }
  if s.turn.holdover then s1 else ((List.range 64).filter fun n => (linkOf s n).state = .inService && some n ≠ skip).foldl
    (fun a n => emit a (.stretch n k turn hub)) s1

/-- The largest k of a Turn stands (R81). Of two requests with the same k the first received is the one that R83 records: the spec does
not say which (log entry 76). -/
def takeStretch (s : State) (k turn hub : Nat) : State :=
  if turn = now s ∧ s.turn.kNow < k then { s with turn := { s.turn with kNow := k, kHub := hub } } else s

/-- STRETCH_DECISION: the shortfall past the start of the commit window, in units of 0.2 us (R80). A k above 255 does not fit the byte of
Table 11-9, and the model sends 255: the spec is silent (log entry 76). -/
def execStretchDecision (shortfall : Nat) (s : State) : Host.Outcome State Fault Refusal :=
  act s fun t =>
    let unit := max 1 (t.turn.u * t.set.bucketLen)
    let k := min 255 (ceilDiv shortfall unit)
    if shortfall = 0 then t else sendStretch (takeStretch t k (now t) t.leat.hub) none k (now t) t.leat.hub

/-- STRETCH_REQUEST (R81, R363). -/
def execStretchRequest (link : Fin 64) (k : Fin 256) (turn hub : Nat) (s : State) : Host.Outcome State Fault Refusal :=
  act s fun t =>
    if (linkOf t link).state ≠ .inService then t
    else
      let t1 := takeStretch t k turn hub
      if t.turn.forwarded.any fun x => x.1 = turn && k ≤ x.2 then t1 else sendStretch t1 (some link.val) k turn hub

end Sys2Proof.Machine
end

