-- ==== Sys2Proof/Machine/Headrace.lean ====
section
/-! DEFINITION. The Headrace: its election, holdover, the health of the hub's own Turn source, and what changes that (R84-R87,
R90, R361, R364). -/

namespace Sys2Proof.Machine

/-! ### Election -/

/-- No Headrace: HOPS of a hub that knows none (R86). -/
def noHops : Nat := 255

/-- The Headrace as this hub knows it. -/
def headNow (s : State) : Option Nat :=
  let t := s.turn
  if t.isHeadrace then some s.leat.hub else if t.hops = 0 ∨ t.hops = noHops then none else some t.headrace

/-- The latest marker of each link in service: link, HOPS, Headrace (R361). -/
def markersHeard (s : State) : List (Nat × Nat × Nat) :=
  (List.range 64).filterMap fun n =>
    if (linkOf s n).state ≠ .inService then none
    else
      match (s.turn.heard.find? n).orElse fun _ => s.turn.heardLast.find? n with
      | some (h, _, head) => if h = noHops then none else some (n, h, head)
      | none => none

/-- The parent link towards a Headrace: the fewest hops, then the lowest link, which also is the lowest port (R88). -/
def parentFor (l : List (Nat × Nat × Nat)) (head : Nat) : Option (Nat × Nat) :=
  (l.filter fun x => x.2.2 = head).foldl (fun (b : Option (Nat × Nat)) x =>
    match b with
    | some (n, h) => if x.2.1 < h then some (x.1, x.2.1) else some (n, h)
    | none => some (x.1, x.2.1)) none

/-- The hub has a link in service. -/
def coupled (s : State) : Bool := (List.range 64).any fun n => (linkOf s n).state = .inService

/-- Holdover begins: class 0x05 (R86, R90). -/
def enterHoldover (s : State) : State :=
  let s1 := { s with turn := { s.turn with aligned := false, parent := none, holdover := true } }
  if s.turn.holdover then s1 else record s1 { cls := 0x05 }

/-- This hub is the Headrace (R85-R87). -/
def leadTurn (s : State) : State :=
  { s with turn := { s.turn with isHeadrace := true, headrace := s.leat.hub, hops := 0, aligned := true, holdover := false,
                                 parent := none, mismatch := false } }

/-- This hub follows a Headrace through its parent link (R88). -/
def followTurn (s : State) (head : Nat) (parent : Nat × Nat) : State :=
  { s with turn := { s.turn with isHeadrace := false, headrace := head, hops := parent.2 + 1, parent := some parent.1 } }

/-- No Headrace exists (R86); plan slots run, since there is no Headrace to disagree with. -/
def noHead (s : State) : State :=
  let s1 := { s with turn := { s.turn with isHeadrace := false, hops := noHops, aligned := false, parent := none, mismatch := false } }
  if coupled s then enterHoldover s1 else { s1 with turn := { s1.turn with holdover := false } }

/-- Election among this hub, where its source is healthy, and the Headraces heard of: the lowest number leads (R85). A hub that had no
Headrace and is not READY yet has changed none: its first election at bring-up is not recorded under class 0x04. The spec does not say
whether it is a change (log entry 77). -/
def elect (s : State) : State :=
  let heard := (markersHeard s).filter fun x => x.2.2 ≠ s.leat.hub
  let own := if srcHealthy s then [s.leat.hub] else []
  let s1 := match (own ++ heard.map fun x => x.2.2).min? with
    | some h =>
      (match parentFor heard h with
       | some p => followTurn s h p
       | none => leadTurn s)
    | none => noHead s
  let s2 := if headNow s = headNow s1 ∨ (headNow s).isNone ∧ !s.boot.ready then s1 else record s1 { cls := 0x04 }
  if s.turn.holdover && !s2.turn.holdover then resumeLeat s2 else s2

/-- What a hub has heard of one Headrace is forgotten. -/
def forgetHead (s : State) (head : Nat) : State :=
  let keep := fun (x : Nat × Nat × Nat × Nat) => x.2.2.2 != head
  { s with turn := { s.turn with heard := s.turn.heard.filter keep, heardLast := s.turn.heardLast.filter keep } }

/-- HEADRACE_TIMEOUT (R85). -/
def execHeadraceTimeout (s : State) : Host.Outcome State Fault Refusal :=
  act s fun t => if t.turn.isHeadrace then t else elect (forgetHead t t.turn.headrace)

/-- MARKER_LOSS: a follower that has lost every marker (R90). -/
def execMarkerLoss (s : State) : Host.Outcome State Fault Refusal :=
  act s fun t =>
    if t.turn.isHeadrace || !coupled t then t
    else enterHoldover { t with turn := { t.turn with heard := [], heardLast := [] } }

/-! ### Health of the source -/

/-- A change that may alter the source's health: election follows where it does (R84-R86), but not while WARM_RST# is low (R511). -/
def withHealth (s : State) (f : State → State) : State :=
  let s1 := f s
  if srcHealthy s = srcHealthy s1 ∨ s.pins.warmLow then s1 else elect s1

/-- The Turn length in picoseconds, not stretched (R42). -/
def turnPs (s : State) : Nat := 128 * s.set.bucketLen * 200000

/-- Two edges are one Turn length apart within 200 ppm (R84). -/
def edgeGood (s : State) (periodPs : Nat) : Bool :=
  let n := turnPs s
  decide ((max periodPs n - min periodPs n) * 5000 ≤ n)

/-- TURN_IN_EDGE: the time since the edge before it, and the offset from the hub's tick (R84, R87). The sixteen edges of R84 are counted
as sixteen good intervals, so the first edge of all counts for none: the spec can be read either way (log entry 77). -/
def execTurnInEdge (periodPs : Nat) (offsetNs : Int) (s : State) : Host.Outcome State Fault Refusal :=
  actAon s fun t => withHealth t fun u =>
    let n := if edgeGood u periodPs then min 16 (u.turn.edges + 1) else 0
    { u with turn := { u.turn with edges := n, inOffset := if u.turn.src = 2 then offsetNs else u.turn.inOffset } }

/-- TURN_IN_EDGE_MISSING (R84). -/
def execTurnInEdgeMissing (s : State) : Host.Outcome State Fault Refusal :=
  actAon s fun t => withHealth t fun u => { u with turn := { u.turn with edges := 0 } }

/-- SERDES_REFCLK_LOSS (R84). -/
def execSerdesRefclkLoss (s : State) : Host.Outcome State Fault Refusal :=
  actAon s fun t => withHealth t fun u => { u with turn := { u.turn with refclk := false } }

/-- SERDES_REFCLK_RETURN (R84, R85). -/
def execSerdesRefclkReturn (s : State) : Host.Outcome State Fault Refusal :=
  actAon s fun t => withHealth t fun u => { u with turn := { u.turn with refclk := true } }

/-- A posted write lands (R504). -/
def landPosted (b : PostedBlock) (t : State) : State :=
  let mine := t.glob.posted.filter fun x => x.1 = b
  let t1 := { t with glob := { t.glob with posted := t.glob.posted.filter fun x => x.1 ≠ b } }
  withHealth t1 fun u => mine.foldl (fun a x => landWrite a x.2.1 x.2.2) u

end Sys2Proof.Machine
end

