-- ==== Sys2Proof/Machine/LinkLife.lean ====
section
/-! DEFINITION. The life of a Leat link: training and its results, exclusion, leaving service, re-striping, ports that go down, the
bit-error check, and the Leat commands (R79, R342, R353-R356, R362, R365, R370, R522, R525, R526). -/

namespace Sys2Proof.Machine

/-! ### Flits and packets that must go another way -/

/-- A flit that a link may not carry any more goes to the next link of its port, with its PSEQ and a new LSEQ (R355); in holdover it
leaves when that ends (R90). -/
def resendOn (s : State) (n : Nat) (r : Replay) : State :=
  let l := linkOf s n
  let r1 := { r with lseq := l.txSeq, resent := 0 }
  emitLeat (setLink s n { l with txSeq := (l.txSeq + 1) % 4096, replay := l.replay ++ [r1] }) (flitOf s n r1)

/-- Link for the k-th flit that is sent again: the rotation of the port, of links with a free buffer. -/
def restripeLink (s : State) (p k : Nat) : Option Nat :=
  let r := (rotation s p 0).filter fun n => (linkOf s n).replay.length < 128
  r[k % max 1 r.length]?

/-- Unacknowledged flits of links out of service are sent again on the port's others, in the order of their PSEQ; what finds no
link stays where it is (R355). -/
def restripe (s : State) (p : Nat) : State :=
  let out := (upto (8 * p) 8).filter fun n => (linkOf s n).state ≠ .inService
  let flits := out.flatMap fun n => (linkOf s n).replay.map fun r => (n, r)
  flits.foldl (fun a x =>
    match restripeLink a p x.2.pseq with
    | some n =>
      let l := linkOf a x.1
      resendOn (setLink a x.1 { l with replay := l.replay.filter fun r => r ≠ x.2 }) n x.2
    | none => a) s

/-- The packets that wait for a port with no link in service go to the opposite one (R356). -/
def reroute (s : State) (p : Nat) : State :=
  let q := portOf s p
  let s1 := record (setPort s p { q with rerouted := true, queue := [] }) { cls := 0x64, kind := 6, index := p }
  let to_ := if (liveLinks s (p ^^^ 1)).isEmpty then p else p ^^^ 1
  q.queue.foldl (fun a x => portSubmit a to_ x) (event s1 11)

/-- After TRAIN_DONE a port of a cabled dimension with fewer than five links in service asks for replacement (R555). -/
def portCause (s : State) : State :=
  if s.leat.trainDone && (List.range 8).any fun p => cabled s p && (liveLinks s p).length < 5 then addCause s 2 else s

/-- What a link's leaving of service means for its port and for the Turn. -/
def afterLeave (s : State) (p : Nat) : State :=
  let s1 := restripe s p
  let s2 := if (liveLinks s1 p).isEmpty && !(portOf s1 p).rerouted then reroute s1 p else s1
  portCause (elect s2)

/-- A link's record with its markers forgotten. -/
def forgetLink (s : State) (n : Nat) : State :=
  { s with turn := { s.turn with heard := s.turn.heard.drop n, heardLast := s.turn.heardLast.drop n,
                                 offCount := s.turn.offCount.drop n } }

/-- A link changes state (Table 11-13, event LINK). -/
def linkState (s : State) (n : Nat) (st : LinkState) (cause : Nat) : State :=
  let l := linkOf s n
  event (setLink (forgetLink s n) n
    { l with state := st, cause := cause, width := if st = .inService then l.width else 0, turn := now s }) 11

def linkRec (n cls d : Nat) : Rec := { cls := cls, kind := 5, index := n, d0 := d }

/-! ### Training -/

/-- A saved record fits a link: the far end it last met is the one of the record (R354). -/
def savedFits (s : State) (n : Nat) : Bool :=
  match s.fw.saved.links.find? n with
  | some (far, _) => s.fw.saved.sealOk && ((linkOf s n).farUnit = 0 || (linkOf s n).farUnit = far)
  | none => false

/-- A link begins to train (R353). Outside a cold start it needs no bit-error check (R526). -/
def trainLink (s : State) (n : Nat) (saved : Bool) : State :=
  let s1 := linkState s n .training 0
  let l := linkOf s1 n
  let s2 := setLink s1 n { l with fromSaved := saved, ber := if l.ber = .never ∧ s.boot.ready then .passed else l.ber }
  emit { s2 with leat := { s2.leat with trainDone := false } } (.train n saved)

/-- A link in service leaves it and trains from saved settings: class 0x63 (R354, R355). -/
def linkOut (s : State) (n : Nat) : State :=
  if (linkOf s n).state ≠ .inService then s
  else afterLeave (trainLink (record s (linkRec n 0x63 0)) n true) (n / 8)

/-- A link is excluded under a cause (R353). -/
def excludeLink (s : State) (n cause cls : Nat) : State :=
  let was := (linkOf s n).state
  let s1 := linkState (record s (linkRec n cls cause)) n .excluded cause
  if was = .inService then afterLeave s1 (n / 8) else s1

/-- F in units of 0.2 us and U in buckets, once the links have trained (R79). -/
def noticeTime (s : State) : State :=
  let f := 3 * diameter s + 2
  { s with turn := { s.turn with f := f, u := ceilDiv (f + 1) s.set.bucketLen } }

/-- The links in service. -/
def linksUp (s : State) : Nat := ((List.range 64).filter fun n => (linkOf s n).state = .inService).length

/-- Every link in service trained from saved settings (Table 17-4). -/
def allSaved (s : State) : Bool :=
  decide (linksUp s > 0) && (List.range 64).all fun n => (linkOf s n).saved || decide ((linkOf s n).state ≠ .inService)

/-- No link trains any more: TRAIN_DONE, LEAT_SAVED, and the reply of a LEAT_TRAIN whose links have all ended (R370, Table 11-12). -/
def trainingEnds (s : State) : State :=
  let open_ := fun (n : Nat) => (linkOf s n).state = .training
  let s1 := if (List.range 64).any open_ then s
    else
      let b := { s.boot with leatSaved := s.boot.leatCfg && allSaved s }
      portCause (noticeTime { s with leat := { s.leat with trainDone := true }, boot := b })
  match s1.leat.training with
  | some (mask, r) =>
    if mask.any open_ then s1
    else postFinal { s1 with leat := { s1.leat with training := none } } r .ok (linksUp s1) none none
  | none => s1

/-- WIDTH of the good lanes: four, two as 0 and 1 or 2 and 3, or any one (R353). -/
def widthOf (g : BitVec 4) : Nat :=
  if g = 0xF#4 then 3 else if g &&& 3#4 = 3#4 ∨ g &&& 12#4 = 12#4 then 2 else if g = 0#4 then 0 else 1

/-- The extents of the hub. -/
def extents (s : State) : List Nat := (List.range 4).map (extent s)

/-- Why a link that has good lanes is excluded: cause and class (R342, R353, R365). -/
def trainFault (s : State) (n : Nat) (r : TrainResult) : Option (Nat × Nat) :=
  if r.delay > 2000 then some (2, 0x62)
  else if r.farHub ≠ neighbour s (n / 8) ∨ r.farExtents ≠ extents s then some (3, 0x65)
  else if r.farProtoMax < s.set.protoFloor then some (4, 0x6B)
  else none

/-- The width of a link changes, as the capacity records hold it, or is reduced: class 0x61 (R354). -/
def widthEntry (s : State) (n w : Nat) : State :=
  if w < 3 ∨ (s.boot.ready ∧ s.plans.linkRec.get n 0 ≠ widthLanes w) then record s (linkRec n 0x61 0) else s

/-- A link comes into service (R353, R355, R526). -/
def linkUp (s : State) (n : Nat) (g : BitVec 4) (r : TrainResult) : State :=
  let w := widthOf g
  let s1 := linkState (widthEntry s n w) n .inService 0
  let l := linkOf s1 n
  let s2 := setLink s1 n { l with width := w, lanes := g, saved := r.saved, delay := r.delay, farUnit := r.farUnit,
                                  txSeq := 1, rxSeq := 0, burst := [], rejoin := s.boot.ready }
  let p := n / 8
  let s3 := setPort s2 p { portOf s2 p with rerouted := false }
  releasePort (restripe (elect s3) p) p

/-- The good lanes of a training: a link that failed its bit-error check leaves its failing lanes out (R525). -/
def goodLanes (l : Link) (r : TrainResult) : BitVec 4 := if l.ber = .failedOnce then r.goodLanes &&& l.lanes else r.goodLanes

/-- LINK_TRAINING_COMPLETE (R353, R354). -/
def execLinkTrainingComplete (link : Fin 64) (r : TrainResult) (s : State) : Host.Outcome State Fault Refusal :=
  act s fun t =>
    let n := link.val
    let l := linkOf t n
    let g := goodLanes l r
    if l.state ≠ .training ∨ servicePause t then t
    else if g = 0#4 then
      (if l.fromSaved then trainLink t n false
       else trainingEnds (excludeLink (setLink t n { l with lanes := 0#4 }) n 1 0x62))
    else
      match trainFault t n r with
      | some (cause, cls) => trainingEnds (excludeLink (setLink t n { l with lanes := g, delay := r.delay }) n cause cls)
      | none => trainingEnds (linkUp t n g r)

/-- LANE_LOSS_OF_LOCK (R354). -/
def execLaneLossOfLock (link : Fin 64) (s : State) : Host.Outcome State Fault Refusal := act s fun t => linkOut t link

/-- LINK_SIGNAL_DETECT: with a saved Leat configuration a link that is down trains (R522). -/
def execLinkSignalDetect (link : Fin 64) (s : State) : Host.Outcome State Fault Refusal :=
  act s fun t =>
    let l := linkOf t link
    if t.boot.leatCfg && decide (l.state = .down) && domainOn t (domOfLink link) then trainLink t link (savedFits t link) else t

/-! ### Bit-error check -/

/-- BER_CHECK_START: the Turn at which both ends begin is agreed with a TYPE 6 flit (R525, R526). -/
def execBerCheckStart (link : Fin 64) (turn : Nat) (s : State) : Host.Outcome State Fault Refusal :=
  act s fun t =>
    let l := linkOf t link
    if l.state ≠ .inService then t
    else
      match l.ber with
      | .agreed _ _ => t
      | b => emit (setLink t link { l with ber := .agreed turn (b = .failedOnce) }) (.berStart link turn)

/-- The lanes that pass: at most 212,500 errors each (R525). -/
def berLanes (l : Link) (errors : List Nat) : BitVec 4 :=
  l.lanes &&& BitVec.ofNat 4 (ofBits ((List.range 4).filter fun k => errors.getD k 0 ≤ 212500))

/-- A link has failed its check: its failing lanes are counted; it retrains once without them, and the second time it is
excluded (R525, R530). -/
def berFails (s : State) (n : Nat) (again : Bool) (good : BitVec 4) : State :=
  let l := linkOf s n
  let lost := (setBits 4 l.lanes.toNat).length - (setBits 4 good.toNat).length
  let s1 := { s with boot := { s.boot with berFail := satAdd 8 s.boot.berFail lost } }
  let s2 := setLink s1 n { l with ber := .failedOnce, lanes := good }
  if again then excludeLink s2 n 1 0x62 else afterLeave (trainLink s2 n true) (n / 8)

/-- BER_CHECK_COMPLETE: bit errors of each lane, and whether a codeword could not be corrected (R525). -/
def execBerCheckComplete (link : Fin 64) (errors : List Nat) (uncorrectable : Bool) (s : State) :
    Host.Outcome State Fault Refusal :=
  act s fun t =>
    let l := linkOf t link
    if l.state ≠ .inService then t
    else
      match l.ber with
      | .agreed turn again =>
        let good := berLanes l errors
        let p := link.val / 8
        if turn > now t then t
        else if good = l.lanes && !uncorrectable then
          releasePort (restripe (setLink t link { l with ber := .passed }) p) p
        else berFails t link again good
      | _ => t
/-! ### Commands -/

/-- A command of partition 0 alone. -/
def operatorOnly (c : Packet) (s : State) (k : Unit → State × Ending) : State × Ending :=
  if partOf c ≠ 0 then (s, denied) else k ()

/-- Any link trains or is in service. -/
def linksBusy (s : State) : Bool :=
  (List.range 64).any fun n => let st := (linkOf s n).state; decide (st = .training ∨ st = .inService)

/-- The work of LEAT_CONFIG (R342, R370). -/
def leatConfigBody (c : Packet) (s : State) (_ : ReplyTo) : State × Ending :=
  operatorOnly c s fun _ => reservedFrom c 2 s fun _ =>
    let h := c.p0.toNat
    let e := c.p1.toNat
    let fits := bits h 4 0 ≤ bits e 4 0 && bits h 9 5 ≤ bits e 9 5 && bits h 13 10 ≤ bits e 13 10 && bits h 16 14 ≤ bits e 16 14
    if e ≥ 2 ^ 17 then (s, bad 1)
    else if h ≥ 2 ^ 17 ∨ !fits then (s, bad 0)
    else if linksBusy s then (s, busy 0)
    else
      let l := s.leat
      let s1 := { s with
        leat := { l with hub := h, exm1 := bits e 4 0, eym1 := bits e 9 5, ezm1 := bits e 13 10, ewm1 := bits e 16 14 },
        turn := { s.turn with headrace := if s.turn.isHeadrace then h else s.turn.headrace } }
      (s1, okay (diameter s1))

/-- LEAT_CONFIG (R342). -/
def execLeatConfig (c : Packet) (s : State) : Host.Outcome State Fault Refusal :=
  command 0x0501 noPayload c s (leatConfigBody c)

/-- LEAT_TRAIN takes a link out of service first, and excludes it or trains it (R353, R370). -/
def trainOne (mode : Nat) (s : State) (n : Nat) : State :=
  if mode = 2 then excludeLink s n 5 0x62
  else if !domainOn s (domOfLink n) then s
  else
    let was := (linkOf s n).state
    let s1 := trainLink (if was = .inService then record s (linkRec n 0x63 0) else s) n (mode = 0 && savedFits s n)
    if was = .inService then afterLeave s1 (n / 8) else s1

/-- The work of LEAT_TRAIN (R353, R370). -/
def leatTrainBody (c : Packet) (s : State) (r : ReplyTo) : State × Ending :=
  operatorOnly c s fun _ => reservedFrom c 2 s fun _ =>
    if c.p1.toNat > 2 then (s, bad 1)
    else if s.leat.training.isSome then (s, busy 0)
    else
      let mask := setBits 64 c.p0.toNat
      let s1 := mask.foldl (trainOne c.p1.toNat) s
      if mask.any fun n => (linkOf s1 n).state = .training then
        ({ s1 with leat := { s1.leat with training := some (mask, r) } }, .later)
      else
        let s2 := if c.p1.toNat = 2 then trainingEnds s1 else s1
        (s2, okay (linksUp s2))

/-- LEAT_TRAIN (R353). -/
def execLeatTrain (c : Packet) (s : State) : Host.Outcome State Fault Refusal :=
  command 0x0502 noPayload c s (leatTrainBody c)

/-- A LEAT_STATUS record (R370). -/
def linkBytesOf (s : State) (n : Nat) : Bytes :=
  let o := 0x40_0000
  leBytes 4 (regWord s (o + 0x100 + 4 * n)) ++ leBytes 4 (regWord s (o + 0x800 + 8 * n)) ++
    leBytes 4 (regWord s (o + 0x804 + 8 * n)) ++ leBytes 4 ((linkOf s n).turn % 2 ^ 32)

/-- The work of LEAT_STATUS (R370). -/
def leatStatusBody (c : Packet) (s : State) (_ : ReplyTo) : State × Ending :=
  operatorOnly c s fun _ => reservedFrom c 2 s fun _ =>
    if !hostAddrOk c c.p0.toNat then (s, bad 0)
    else if c.p1.toNat % 16 ≠ 0 then (s, bad 1)
    else
      let n := min 64 (bufLen c c.p1.toNat / 16)
      (s, output n c.p0.toNat ((List.range n).flatMap (linkBytesOf s)))

/-- LEAT_STATUS (R370). -/
def execLeatStatus (c : Packet) (s : State) : Host.Outcome State Fault Refusal :=
  command 0x0503 noPayload c s (leatStatusBody c)

/-- The work of LEAT_SAVE: the settings of every link in service, with hub number and extents (R354, R520). -/
def leatSaveBody (c : Packet) (s : State) (_ : ReplyTo) : State × Ending :=
  operatorOnly c s fun _ => reservedFrom c 0 s fun _ =>
    let up := (List.range 64).filter fun n => (linkOf s n).state = .inService
    let recs := up.foldl (fun (a : Tbl (Nat × Nat)) n => a.put n ((linkOf s n).farUnit, (linkOf s n).lanes.toNat)) []
    let l := s.leat
    let s1 := { s with fw := { s.fw.eraseSaved with saved := { s.fw.saved with
                  links := recs, leat := some (l.hub, l.exm1, l.eym1, l.ezm1, l.ewm1), sealOk := true } } }
    (s1, okay up.length)

/-- LEAT_SAVE (R354). -/
def execLeatSave (c : Packet) (s : State) : Host.Outcome State Fault Refusal :=
  command 0x0504 noPayload c s (leatSaveBody c)

end Sys2Proof.Machine
end

