-- ==== Sys2Proof/Machine/Markers.lean ====
section
/-! DEFINITION. Turn markers as they arrive: alignment to the parent link, the Headrace's parameters, the protocol floor; and what a
backward step of the count drops (R43, R88, R90, R91, R361-R365, R578). -/

namespace Sys2Proof.Machine

/-! ### Warrants that end -/

/-- Measurement 5: the warrants held (R567, Table 19-7). -/
def measureWarrants (s : State) : State :=
  let v := if s.sec.warrants.isEmpty then 0
    else Config.measurement 5 (s.sec.warrants.flatMap fun w => [w.serial, w.signer, w.rights.toNat, w.expiry])
  { s with sec := { s.sec with measured := s.sec.measured.put 5 v } }

/-- The warrants that a test picks end, each under class 0xA5 (R578). -/
def endWarrants (s : State) (p : Warrant → Bool) : State :=
  let gone := s.sec.warrants.filter p
  if gone.isEmpty then s
  else
    let s1 := { s with sec := { s.sec with warrants := s.sec.warrants.filter fun w => !p w } }
    measureWarrants (gone.foldl (fun a _ => record a { cls := 0xA5, kind := 10 }) s1)

/-! ### The parent's marker -/

/-- The count and the bucket that the parent gives are adopted: by a hub whose count differs, or that is not aligned (R43, R86).
A step back drops every warrant (R578). -/
def adoptCount (s : State) (m : Marker) : State :=
  let back := turnMod m.turn < now s
  let same := turnMod m.turn = now s
  if same && s.turn.aligned then s
  else
    let s1 := { s with turn := { s.turn with count := turnMod m.turn, bucket := m.bucket % 128, inStretch := false,
                                             commit := if same then s.turn.commit else false } }
    if back then endWarrants s1 fun _ => true else s1

/-- A marker that realigns the hub to within 50 ns ends holdover (R90). -/
def alignTo (s : State) (m : Marker) : State :=
  if m.arrivalErr ≤ 500 then { s with turn := { s.turn with aligned := true, holdover := false } } else s

/-- The hub's own lengths and notice times against the Headrace's: class 0x03 when they come to differ (R91). F and U are the
Headrace's from then on (R79), so that the next marker finds them agreed; the lengths change only by posting (R42). -/
def compareParams (s : State) (m : Marker) : State :=
  let bad := s.set.bucketLen ≠ m.bucketLen ∨ s.set.tailraceLen ≠ m.tailraceLen ∨ s.turn.f ≠ m.f ∨ s.turn.u ≠ m.u
  let s1 := { s with turn := { s.turn with mismatch := decide bad, f := m.f, u := m.u } }
  if bad ∧ !s.turn.mismatch then record s1 { cls := 0x03 } else s1

/-- What the parent's marker does (R88, R361). -/
def parentMarker (s : State) (m : Marker) : State :=
  let s1 := compareParams (alignTo (adoptCount s m) m) m
  if s.turn.holdover && !s1.turn.holdover then resumeLeat s1 else s1

/-- A marker of another link, against the parent's alignment: the fourth in a row that is more than 25 ns off takes the link out of
service (R362). -/
def otherMarker (s : State) (n : Nat) (m : Marker) : State :=
  let k := if m.arrivalErr > 250 then s.turn.offCount.get n 0 + 1 else 0
  let s1 := { s with turn := { s.turn with offCount := s.turn.offCount.put n k } }
  if s.turn.parent.isSome && k ≥ 4 then linkOut s1 n else s1

/-- TURN_MARKER (R361). -/
def execTurnMarker (link : Fin 64) (m : Marker) (s : State) : Host.Outcome State Fault Refusal :=
  act s fun t =>
    if (linkOf t link).state ≠ .inService then t
    else if m.protoMax < t.set.protoFloor then excludeLink t link 4 0x6B
    else
      let t1 := elect { t with turn := { t.turn with heard := t.turn.heard.put link (m.hops, m.sysMin, m.headrace) } }
      if t1.turn.parent = some link.val then parentMarker t1 m else otherMarker t1 link m

/-! ### Protocol floor -/

/-- SYS_MIN at a tick: the lowest of the hub's own PROTO_MAX and of every marker of the last Turn; event PROTO on a change (R364). -/
def computeSysMin (s : State) : State :=
  let m := (s.turn.heardLast.map fun x => x.2.2.1).foldl min (bankProto s s.boot.bank)
  let s1 := { s with turn := { s.turn with sysMin := m } }
  if m = s.turn.sysMin then s1 else event s1 12

end Sys2Proof.Machine
end

