-- ==== Sys2Proof/Machine/Power.lean ====
section
/-! DEFINITION. Power domains and their switching, the alarms of temperature and rails, the profiler, and ageing (R25-R28, R220, R259,
R417-R420, R432-R437, R550-R554, R612, R616, R618). -/

namespace Sys2Proof.Machine

/-! ### What switching does to the units of a domain -/

/-- Physical arrays of an array domain. -/
def arraysOf (d : Nat) : List Nat := upto (18 * d) 18

/-- Slices of a Granary quarter, links of a Leat quadrant, sites of a site group, by power domain (Table 1-1). -/
def quarterSlices (d : Nat) : List Nat := upto (16 * (d - 16)) 16
def linksOf (d : Nat) : List Nat := upto (16 * (d - 20)) 16
def sitesOf (d : Nat) : List Nat := upto (6 * (d - 26)) 6

/-- The waits of a queue leave the waiter table. -/
def dropWaits (s : State) (w : Work) : State :=
  setWait { s with tallies := { s.tallies with waiters := s.tallies.waiters.filter fun x => x.who ≠ w } } w .none

/-- A physical array comes up: bin zeroed, banks cleared, a new epoch (R204, Table 17-3). -/
def freshArray (s : State) (pa : Nat) : State :=
  let p := physArr s pa
  setPhys { s with mem := s.mem.zero (binKey pa 0) binSize } pa
    { p with bank0 := Bank.reset, bank1 := Bank.reset, epoch := (p.epoch + 1) % 256 }

/-- A logical array whose array has come up anew: its Shoe intake is empty and its waits are dropped (Table 17-3). -/
def freshLog (s : State) (la : Nat) : State :=
  let s1 := dropWaits s (.array la)
  setLog s1 la { logArr s1 la with queue := [], accepted := [], active := Tile.reset, shadow := Tile.reset, run := none,
                                   shoe := [], store := [], log := [] }

/-- The logical arrays that an array domain carries. -/
def carriedBy (s : State) (d : Nat) : List Nat :=
  (List.range 256).filter fun la => match (logArr s la).phys with | some p => domOfArray p = d | none => false

/-- A Granary slice comes up: no directory entry, no cache line, a new epoch (Table 17-3). -/
def freshSlice (s : State) (n : Nat) : State :=
  { s with mem := { s.mem with sliceEpoch := s.mem.sliceEpoch.put n ((s.mem.sliceEpoch.get n 0 + 1) % 256),
                               cache := s.mem.cache.filter fun c => sliceOf c.line != n,
                               victims := s.mem.victims.filter fun v => sliceOf v.line != n },
           coh := { s.coh with dir := s.coh.dir.filter fun x => sliceOf x.1 != n } }

/-- The lines of scratch that lie in a quarter are zeroed (Table 17-3): line k of scratch belongs to slice k mod 64. -/
def zeroQuarter (s : State) (d : Nat) : State :=
  let mine := fun (k : Nat) => scratchBase ≤ k && k < binBase && domOfSlice (k / 128 % 64) = d
  { s with mem := { s.mem with cells := s.mem.cells.filter fun c => !mine c.1, poison := s.mem.poison.filter fun u => !mine (u * 64) } }

/-- A site whose group comes up: new epoch, no translations, no waits (Table 17-3); its link is down until a SITE_RESET. -/
def freshSite (s : State) (n : Nat) : State :=
  let s1 := dropWaits (dropUnit s (64 + n)) (.site n)
  let s2 := rejoin s1 n
  setSite s2 n { siteOf s2 n with state := if (siteOf s2 n).table.isEmpty then (siteOf s2 n).state else .down }

/-- A link whose quadrant comes up: as after reset, its bit-error check done (R28, R526). -/
def freshLink (s : State) (n : Nat) : State := setLink s n { Link.reset with ber := (linkOf s n).ber }

/-- A DMA engine whose domain comes up: a new epoch, and nothing of before (R28, Table 17-3). -/
def freshEngine (s : State) (n : Nat) : State := setEngine s n { Engine.reset with epoch := ((engine s n).epoch + 1) % 256 }

/-- The context records as after reset, each with a new epoch (R28, Table 17-3). -/
def freshContexts (s : State) : Tbl Ctx :=
  (List.range 4096).map fun c => (c, { Ctx.reset c with epoch := ((ctxOf s c).epoch + 1) % 256 })

/-- The fabric core comes up: no tallies, translations, context records, deeds, mesh queues or engine work of before (R28, Table 13-2, log
entry 86). -/
def freshCore (s : State) : State :=
  (List.range 64).foldl freshEngine { s with
    tallies := Tallies.reset,
    xlate := { Xlate.reset with ctx := freshContexts s, forced := s.xlate.forced },
    fab := { Fabric.reset with arrSeq := s.fab.arrSeq },
    mem := { s.mem with deeds := [] } }

/-- A domain has come on (Table 13-2). -/
def comeOn (s : State) (d : Nat) : State :=
  let s1 := { s with power := { s.power with on := addNew s.power.on d } }
  if d < 16 then spareJoins ((carriedBy s1 d).foldl freshLog ((arraysOf d).foldl freshArray s1))
  else if d < 20 then zeroQuarter ((quarterSlices d).foldl freshSlice s1) d
  else if d < 24 then (linksOf d).foldl freshLink s1
  else if d = 26 ∨ d = 27 then (sitesOf d).foldl freshSite s1
  else if d = 28 then freshCore s1
  else s1

/-- A link loses its power: it is down, and its port goes on without it (R355, R356). -/
def linkDark (s : State) (n : Nat) : State :=
  let was := (linkOf s n).state
  if was = .down then s
  else
    let s1 := linkState (if was = .inService then record s (linkRec n 0x63 0) else s) n .down 0
    if was = .inService then afterLeave s1 (n / 8) else s1

/-- A domain has gone off (Table 13-2, R220). -/
def goOff (s : State) (d : Nat) : State :=
  let s1 := { s with power := { s.power with on := without s.power.on d } }
  if d < 16 then sparesChanged s1
  else if d < 20 then
    { s1 with mem := { s1.mem with cache := s1.mem.cache.filter fun c => domOfSlice (sliceOf c.line) != d,
                                   victims := s1.mem.victims.filter fun v => domOfSlice (sliceOf v.line) != d } }
  else if d < 24 then (linksOf d).foldl linkDark s1
  else if d = 26 ∨ d = 27 then
    (sitesOf d).foldl (fun a n => let b := siteDown a n true; setSite b n { siteOf b n with state := .off, modules := [] }) s1
  else if d = 28 then linkLost s1
  else s1

/-! ### PWR_DOMAIN -/

/-- A domain holds a resource that a bucket table of an admitted plan names (R26). -/
def domainClaimed (s : State) (d : Nat) : Bool :=
  (holders s).any fun x => x.2.tables.any fun t => t.entries.any Option.isSome && (domainsOf s t.res).contains d

/-- A scratch granule has a deed (R220). -/
def scratchDeeded (s : State) : Bool :=
  s.mem.deeds.any fun d => scratchBase ≤ d.1 * granule && d.1 * granule < binBase && d.2.kind ≠ .none

/-- A domain may not go off now (R26, R220). -/
def offBusy (s : State) (d : Nat) : Bool := domainClaimed s d || (decide (16 ≤ d ∧ d < 20) && scratchDeeded s)

/-- A switch breaks R25: a domain comes on while PD28 is off, or PD28 goes off while another is on. -/
def breaksPower (s : State) (l : List Nat) (on : Bool) : Bool :=
  if on then l.any fun d => d ≠ 28 && !domainOn s 28 else l.contains 28 && (List.range 28).any (domainOn s)

/-- Domains in the order of switching (R417). -/
def switchOrder (mask : Nat) (on : Bool) : List Nat := if on then setBits 29 mask else (setBits 29 mask).reverse

/-- The switching of the next domain begins; the caching agents of a site group that goes off flush first (R259). -/
def beginSwitch (s : State) (w : Switching) : State :=
  let s1 := { s with power := { s.power with switching := some w } }
  match w.left with
  | d :: _ =>
    if !w.on ∧ (d = 26 ∨ d = 27) then
      ((sitesOf d).filter fun n => agentEnabled s1 n && !(agentOf s1 n).fenced).foldl askFlush s1
    else s1
  | [] => postFinal { s1 with power := { s1.power with switching := none } } w.reply .ok w.count (some (now s)) none

/-- The named Turn has come (R417): domains that already are as asked are left out. -/
def switchDue (s : State) : State :=
  match s.power.switching with
  | some w =>
    if w.started ∨ w.turn > now s then s
    else if !w.on ∧ w.left.any (offBusy s) then
      postFinal { s with power := { s.power with switching := none } } w.reply .busy 0 (some (now s)) none
    else beginSwitch s { w with started := true, left := w.left.filter fun d => domainOn s d != w.on }
  | none => s

/-- An agent of a site group has not flushed yet. -/
def groupFlushing (s : State) (d : Nat) : Bool := (d = 26 || d = 27) && (sitesOf d).any fun n => (agentOf s n).flushing

/-- DOMAIN_SWITCH_COMPLETE (R418). -/
def execDomainSwitchComplete (s : State) : Host.Outcome State Fault Refusal :=
  act s fun t =>
    match t.power.switching with
    | some w =>
      (match w.left, w.started with
       | d :: r, true =>
         if !w.on && groupFlushing t d then t
         else beginSwitch (if w.on then comeOn t d else goOff t d) { w with left := r, count := w.count + 1 }
       | _, _ => t)
    | none => t

/-- DOMAIN_SWITCH_TIMEOUT: class 0x94; the domain counts as off (R420). -/
def execDomainSwitchTimeout (s : State) : Host.Outcome State Fault Refusal :=
  act s fun t =>
    match t.power.switching with
    | some w =>
      (match w.left, w.started with
       | d :: r, true =>
         beginSwitch (record (goOff t d) { cls := 0x94, kind := 12, index := d }) { w with left := r }
       | _, _ => t)
    | none => t

/-- The work of PWR_DOMAIN (R417). -/
def pwrDomainBody (c : Packet) (s : State) (r : ReplyTo) : State × Ending :=
  operatorOnly c s fun _ => reservedFrom c 3 s fun _ =>
    let mask := c.p0.toNat
    let on := c.p1 = 1#64
    if mask ≥ 2 ^ 29 then (s, bad 0)
    else if c.p1.toNat > 1 then (s, bad 1)
    else
      match turnFor s c.p2.toNat 2 with
      | .error e => (s, e)
      | .ok t =>
        let l := switchOrder mask on
        if breaksPower s l on then (s, bad 0)
        else if s.power.switching.isSome ∨ (!on ∧ l.any (offBusy s)) then (s, busy 0)
        else
          let w : Switching := { left := l, on := on, turn := t, started := false, reply := r, count := 0 }
          ({ s with power := { s.power with switching := some w } }, .interim t)

/-- PWR_DOMAIN (R417). -/
def execPwrDomain (c : Packet) (s : State) : Host.Outcome State Fault Refusal := command 0x0A01 noPayload c s (pwrDomainBody c)

/-! ### Heat -/

/-- THERMTRIP# asserts, once: class 0x92; the clocks stop through the ramps of R425, and the latch holds until PWROK falls (R436). -/
def trip (s : State) : State :=
  if s.pins.thermtrip then s
  else
    let s1 := record s { cls := 0x92 }
    { s1 with pins := { s1.pins with thermtrip := true }, power := { s1.power with level := [] } }

/-- Tj against THERM_WARN: class 0x91 and event THERM_WARN when it is reached; the alarm ends 3 °C below (R435). -/
def watchTj (s : State) : State :=
  let tj := (hottest s).1
  if tj ≥ s.power.warnAt ∧ !s.power.warned then
    event (record { s with power := { s.power with warned := true } } { cls := 0x91 }) 7
  else if tj + 3 < s.power.warnAt ∧ s.power.warned then { s with power := { s.power with warned := false } }
  else s

/-- The temperatures that the eight stacks report (R237). -/
def stackTemps (s : State) (l : List Nat) : State :=
  (indexed l).foldl (fun a x => setStack a x.1 { stackOf a x.1 with temp := min 255 x.2 }) s

/-- TEMP_SAMPLE: the 96 sensors of the die (R434), and after them the temperatures of the eight HBM stacks (R237). -/
def execTempSample (temps : List Nat) (s : State) : Host.Outcome State Fault Refusal :=
  actAon s fun t =>
    let tbl := (List.range 96).foldl (fun (a : Tbl Nat) n => match temps[n]? with | some v => a.put n v | none => a) t.power.temps
    let t1 := watchTj (stackTemps { t with power := { t.power with temps := tbl } } ((temps.drop 96).take 8))
    if (hottest t1).1 ≥ 115 then trip t1 else t1

/-- THERMTRIP (R436). -/
def execThermtrip (s : State) : Host.Outcome State Fault Refusal := actAon s trip

/-- The work of THERM_READ (R437). -/
def thermReadBody (c : Packet) (s : State) (_ : ReplyTo) : State × Ending :=
  reservedFrom c 2 s fun _ =>
    if !hostAddrOk c c.p0.toNat then (s, bad 0)
    else if c.p1.toNat < 96 then (s, bad 1)
    else (s, output 96 c.p0.toNat ((List.range 96).flatMap fun n => leBytes 1 (min 255 (s.power.temps.get n 0))))

/-- THERM_READ (R437). -/
def execThermRead (c : Packet) (s : State) : Host.Outcome State Fault Refusal := command 0x0A02 noPayload c s (thermReadBody c)

/-- The work of THERM_WARN (R435). -/
def thermWarnBody (c : Packet) (s : State) (_ : ReplyTo) : State × Ending :=
  operatorOnly c s fun _ => reservedFrom c 1 s fun _ =>
    let v := c.p0.toNat
    if v < 60 ∨ v > 95 then (s, bad 0) else (watchTj { s with power := { s.power with warnAt := v } }, okay v)

/-- THERM_WARN (R435). -/
def execThermWarn (c : Packet) (s : State) : Host.Outcome State Fault Refusal := command 0x0A03 noPayload c s (thermWarnBody c)

/-! ### Rails and pins -/

/-- RAIL_SAMPLE: the sense points, of eight for each rail group, that are outside the total band; four in a row are class 0x93 (R612). -/
def execRailSample (outOfBand : List Nat) (s : State) : Host.Outcome State Fault Refusal :=
  actAon s fun t =>
    let old := t.pins.railCount
    let new := (List.range 64).map fun n => (n, if outOfBand.contains n then min 4 (old.get n 0 + 1) else 0)
    let t1 := { t with pins := { t.pins with railCount := new, railOut := new.any fun x => x.2 = 4 } }
    (new.filter fun x => x.2 = 4 && old.get x.1 0 < 4).foldl (fun a _ => record a { cls := 0x93 }) t1

/-- ALERT# is asserted (R225, R396, R435, R535, R612, R618). -/
def alertPin (s : State) : Bool :=
  s.mem.hbm.any (fun x => x.2.cattrip) || s.sites.site.any (fun x => x.2.breach) || s.power.warned || s.pins.railOut ||
    (s.ledger.entries.any fun e => isFatal e.cls && (e.seq + 2 ^ 32 - s.ledger.tail) % 2 ^ 32 < s.ledger.used) ||
    fatalClasses.any fun c => s.ledger.ovf.get c 0 ≠ 0

/-- REPLACE_REQ# is asserted (R555). -/
def replacePin (s : State) : Bool := s.pins.replace ≠ 0#5

/-- An access on a closed path (R579). -/
def closedPath (s : State) : State := recordCount s { cls := 0xA6, kind := 10 }

/-- OBSERVE_SELECT by the test network: it takes effect at the next tick (R616). -/
def execObserveSelect (on : Bool) (s : State) : Host.Outcome State Fault Refusal :=
  act s fun t =>
    if pathOpen t .observe then { t with pins := { t.pins with observeNext := on } } else emit (closedPath t) .testZeros

/-- TURN_OUT at a tick: the observed signal while test observe is selected and its path open; low for one Turn after it; otherwise the
pulse of the tick where TURN_OUT_EN is set (R615, R616). -/
def observeTick (s : State) : State :=
  let on := s.pins.observeNext && pathOpen s .observe
  let quiet := s.pins.observe && !on
  let s1 := { s with pins := { s.pins with observe := on, observeNext := on, turnOutQuiet := quiet } }
  if s.turn.outEn && !on && !quiet then emit s1 .turnPulse else s1

/-! ### Profiler -/

/-- The sample timer belongs to the ageing monitors in this Turn (R432). -/
def ageingTurn (s : State) : Bool := now s % 1024 = 0

/-- Busy bits as bytes. -/
def busyBytes (n : Nat) (p : Nat → Bool) : Bytes := leBytes (n / 8) (ofBits ((List.range n).filter p))

/-- A profiler record (R433). The busy bits of ports and channel groups are free values: the state does not show them. -/
def profRecord (s : State) : Bytes :=
  let free := fun (k n : Nat) => leBytes n (Config.freeValue (s.fresh + k))
  leBytes 6 (now s) ++ leBytes 1 (bucketNow s) ++ leBytes 1 0 ++ busyBytes 256 (fun la => (logArr s la).run.isSome) ++
    busyBytes 64 (fun n => (engine s n).run.isSome || (match (engine s n).cmdRun with | some r => !r.paused | none => false)) ++
    free 0 1 ++ free 1 2 ++ leBytes 2 (ofBits ((List.range 12).filter fun n => (siteOf s n).run.isSome)) ++ List.replicate 11 0#8

/-- PROFILER_SAMPLE, with whether the ring has room (R432, R433). -/
def execProfilerSample (free : Bool) (s : State) : Host.Outcome State Fault Refusal :=
  act s fun t =>
    let p := t.power
    if !p.profOn || ageingTurn t then t
    else if !free then { t with power := { p with dropped := satAdd 16 p.dropped 1 } }
    else
      let t1 := emit t (.hostWrite 0 (p.profBase + p.profCount * 64 % max 64 p.profLen) (profRecord t))
      { t1 with power := { p with profCount := p.profCount + 1 }, fresh := t1.fresh + 2 }

/-- The work of PROF_SET (R433, Table 13-5). -/
def profSetBody (c : Packet) (s : State) (_ : ReplyTo) : State × Ending :=
  operatorOnly c s fun _ => reservedFrom c 4 s fun _ =>
    let p := s.power
    if c.p3.toNat > 1 then (s, bad 3)
    else if c.p3 = 0#64 then ({ s with power := { p with profOn := false } }, okay p.profCount)
    else if c.p0.toNat % 4096 ≠ 0 then (s, bad 0)
    else if c.p1.toNat % 4096 ≠ 0 ∨ c.p1 = 0#64 then (s, bad 1)
    else if c.p2.toNat < 2000 ∨ c.p2.toNat > 2 ^ 24 then (s, bad 2)
    else
      ({ s with power := { p with profOn := true, profBase := c.p0.toNat, profLen := c.p1.toNat, profPeriod := c.p2.toNat,
                                  profCount := 0 } }, okay 0)

/-- PROF_SET (R433). -/
def execProfSet (c : Packet) (s : State) : Host.Outcome State Fault Refusal := command 0x0A04 noPayload c s (profSetBody c)

end Sys2Proof.Machine
end

