-- ==== Sys2Proof/Machine/Ageing.lean ====
section
/-! DEFINITION. Ageing: margins, the re-plan and its ladder, proposals, the projection, and the commands (R432, R550-R555). -/

namespace Sys2Proof.Machine

/-- M_ACT and M_MIN in ps (R550). -/
def mAct : Nat := 45
def mMin : Nat := 30

def setAge (s : State) (d : Nat) (a : Age) : State := { s with power := { s.power with age := s.power.age.put d a } }

/-- Kyohar's own set for an item of a domain: TRIM first, then FREQ_STEP. -/
def ownSet (item d : Nat) : Nat := 8 + 2 * d + flag (item = 0x0702)

/-- Kyohar posts a change of its own, under the checks of R462 (R552). -/
def postInternal (s : State) (item d v t : Nat) : State :=
  let n := ownSet item d
  let i : Item := { item := item, index := d, value := leBytes 8 v }
  if (setOf s n).state ≠ .empty then s
  else
    match checkSet s n [i] with
    | none => postSet (setSet s n { StageSet.reset with items := [i] }) n t none
    | some _ => s

/-- A frequency step is proposed (R553): recorded and left to the operator, or posted LEAD Turns ahead. One that stands is not
proposed again, nor is one whose posting stands posted again. -/
def propose (s : State) (d v : Nat) : State :=
  let k := s.power.proposals + 1
  let number := fun (a : Age) =>
    let t := setAge s d { a with propNo := k }
    { t with power := { t.power with proposals := k } }
  if s.power.auto then
    (if (setOf s (ownSet 0x0702 d)).state = .empty then postInternal (number (ageOf s d)) 0x0702 d v (now s + s.power.lead) else s)
  else if (ageOf s d).proposed = some v then s
  else
    record (number { ageOf s d with proposed := some v })
      { cls := 0x9C, kind := 11, index := d, d0 := d, d1 := v, d2 := 0, d3 := k }

/-- The next rung of the ladder: a TRIM step, else a frequency step, which goes through a proposal unless it is urgent (R551). -/
def nextRung (s : State) (d : Nat) (urgent : Bool) : State :=
  let trim := s.set.trim.get d 0
  let step := s.set.freqStep.get d 0
  if trim < 12 then postInternal s 0x0701 d (trim + 1) (now s + 2)
  else if step < 8 then (if urgent then postInternal s 0x0702 d (step + 1) (now s + 2) else propose s d (step + 1))
  else s

/-- A sample of one domain (R550, R551). -/
def sampleDomain (slack : List Nat) (s : State) (d : Nat) : State :=
  if !domainOn s d then s
  else
    let m := ((upto (4 * d) 4).map fun k => min 255 (slack.getD k 255)).foldl min 255
    let a := ageOf s d
    let s1 := setAge s d { a with margin := m, worst := some (match a.worst with | some w => min w m | none => m) }
    if m < mMin then
      nextRung (record s1 { cls := 0x9E, kind := 11, index := d, d0 := d, d1 := m }) d true
    else s1

/-- AGEING_SAMPLE: the slack of the four monitors of each domain, in B0 of an ageing Turn (R432, R550). -/
def execAgeingSample (slack : List Nat) (s : State) : Host.Outcome State Fault Refusal :=
  act s fun t => if ageingTurn t && t.turn.bucket = 0 && !t.turn.inStretch then (List.range 16).foldl (sampleDomain slack) t else t

/-- Units of 0.2 us in a day. -/
def dayUnits : Nat := 432000000000

/-- The least-squares decline, per day, of points of time and value (R551); none for fewer than two times. -/
def decline (l : List (Nat × Int)) : Rat :=
  let n : Rat := l.length
  let xs : List Rat := l.map fun p => (p.1 : Rat) / dayUnits
  let ys : List Rat := l.map fun p => (p.2 : Rat)
  let sum := fun (v : List Rat) => v.foldl (· + ·) 0
  let sx := sum xs
  let sy := sum ys
  let sxx := sum (List.zipWith (· * ·) xs xs)
  let sxy := sum (List.zipWith (· * ·) xs ys)
  let den := n * sxx - sx * sx
  if den = 0 then 0 else -((n * sxy - sx * sy) / den)

/-- Days that the ladder still covers at a decline (R551). -/
def daysLeft (s : State) (d : Nat) (m : Int) (r : Rat) : Option Nat :=
  let trim := s.set.trim.get d 0
  let step := s.set.freqStep.get d 0
  let left : Int := m - mMin + ((12 - trim) * s.fuse.trimPs.get d 0 : Nat) + ((8 - step) * s.fuse.stepPs.get d 0 : Nat)
  if r > 0 then some ((left : Rat) / r).floor.toNat else none

/-- The re-plan of one domain (R551). -/
def replanDomain (s : State) (d : Nat) : State :=
  let a := ageOf s d
  match domainOn s d, a.worst with
  | true, some m =>
    let s1 := if m < mAct then nextRung s d false else s
    let hist := (a.history ++ [(s.turn.elapsed, (m : Int) - a.credit)]).drop (a.history.length + 1 - 16)
    let r := decline hist
    let days := daysLeft s d m r
    let b := { ageOf s1 d with worst := none, history := hist, rate := (r * 65536).floor, days := days, turn := now s }
    let s2 := setAge s1 d b
    (match days with | some n => if n < 90 then addCause s2 3 else s2 | none => s2)
  | _, _ => s

/-- AGEING_REPLAN at a count that is a multiple of 2^20; it waits during a service pause (R551, R602). -/
def execAgeingReplan (s : State) : Host.Outcome State Fault Refusal :=
  act s fun t => if now t % 2 ^ 20 = 0 && !servicePause t then (List.range 16).foldl replanDomain t else t

/-- A domain's record (R554). -/
def ageRecord (s : State) (d : Nat) : Bytes :=
  let a := ageOf s d
  leBytes 1 d ++ leBytes 1 (s.set.freqStep.get d 0) ++ leBytes 1 (s.set.trim.get d 0) ++ leBytes 1 a.margin ++
    leBytes 1 (a.worst.getD a.margin) ++ leBytes 1 (s.fuse.trimPs.get d 0) ++ leBytes 1 (s.fuse.stepPs.get d 0) ++
    leBytes 1 (a.proposed.getD 0xFF) ++ leBytes 4 (unsext 32 (satInt 32 a.rate)) ++
    leBytes 4 (min (a.days.getD 0xFFFF_FFFF) 0xFFFF_FFFF) ++ leBytes 6 a.turn ++ List.replicate 10 0#8

/-- What AGE_READ writes (R554). -/
def ageBytes (s : State) : Bytes :=
  leBytes 4 s.pins.replace.toNat ++ leBytes 1 (min 255 (spareCount s)) ++ leBytes 1 (flag s.power.auto) ++ leBytes 2 0 ++
    leBytes 6 s.pins.replaceTurn ++ leBytes 2 0 ++ (List.range 16).flatMap (ageRecord s)

/-- The work of AGE_READ (R554). -/
def ageReadBody (c : Packet) (s : State) (_ : ReplyTo) : State × Ending :=
  operatorOnly c s fun _ => reservedFrom c 2 s fun _ =>
    if c.p1.toNat < 528 then (s, bad 1) else (s, output 16 c.p0.toNat (ageBytes s))

/-- AGE_READ (R554). -/
def execAgeRead (c : Packet) (s : State) : Host.Outcome State Fault Refusal := command 0x0A10 noPayload c s (ageReadBody c)

/-- The work of AGE_POLICY (R553). -/
def agePolicyBody (c : Packet) (s : State) (_ : ReplyTo) : State × Ending :=
  operatorOnly c s fun _ => reservedFrom c 2 s fun _ =>
    if c.p0.toNat > 1 then (s, bad 0)
    else if c.p1.toNat < 16 ∨ c.p1.toNat > 2 ^ 20 then (s, bad 1)
    else ({ s with power := { s.power with auto := c.p0 = 1#64, lead := c.p1.toNat } }, okay c.p0.toNat)

/-- AGE_POLICY (R553). -/
def execAgePolicy (c : Packet) (s : State) : Host.Outcome State Fault Refusal := command 0x0A11 noPayload c s (agePolicyBody c)

end Sys2Proof.Machine
end

