-- ==== Sys2Proof/Machine/BringUp.lean ====
section
/-! DEFINITION. The reset kinds and the bring-up sequence (R510-R530, R594, R598, R599). A sequence runs within the command that
starts it; what the silicon and the world outside do in it is the command's operand. -/

namespace Sys2Proof.Machine

/-! ### What a reset leaves -/

/-- A bank erase that runs is cut short (R594). -/
def cutErases (s : State) : State :=
  { s with fw := { s.fw with bank := s.fw.bank.map fun x =>
      (x.1, if x.2.erasing then { x.2 with erasing := false, cutShort := true } else x.2) } }

/-- The die as PWROK rises: fuses, one-time-programmable bits, the flash and the levels at the pins are kept (Table 17-1), and a new
BOOT_NONCE is drawn (R577). -/
def coldReset (s : State) (entropy : Nat) : State :=
  { State.reset with
    pending := s.pending, fresh := s.fresh, fuse := s.fuse, otp := s.otp,
    pins := { Pins.reset with pwrok := true, perstLow := s.pins.perstLow, warmLow := s.pins.warmLow },
    turn := { TurnUnit.reset with refclk := s.turn.refclk },
    set := { Settings.reset with trim := s.fuse.trim },
    boot := { Boot.reset with excluded := s.fuse.excluded, bank := selectedBank s },
    power := { Power.reset with on := [29] },
    sec := { Security.reset with nonce := entropy % 2 ^ 64 },
    fw := { s.fw with activation := none, halted := false } }

/-- The physical arrays after a warm reset: a new epoch each; faults since the cold reset are kept, and an array that was
quarantined or retired stays so (R528, R547, R549). -/
def warmArrays (s : State) : Tbl PhysArr :=
  (List.range 288).map fun n =>
    let p := physArr s n
    let kept := p.state = .quarantined ∨ p.state = .testing ∨ p.state = .retired
    (n, { PhysArr.reset with epoch := (p.epoch + 1) % 256, faults := p.faults, state := if kept then p.state else .excluded })

def nextEpoch (n : Nat) : Nat := (n + 1) % 256

/-- The hub as WARM_RST# rises: PD29 keeps its state; every unit and context of Table 17-3 takes a new epoch (Table 17-1, R528). -/
def warmReset (s : State) : State :=
  { State.reset with
    pending := s.pending, fresh := s.fresh, fuse := s.fuse, otp := s.otp,
    pins := { s.pins with warmLow := false, observe := false, observeNext := false, turnOutQuiet := false },
    boot := { Boot.reset with fatal := false, bank := s.boot.bank, checksDone := s.boot.checksDone, excluded := s.boot.excluded,
                              kind := if s.boot.step = 13 && !s.boot.blocked then 1 else 2 },
    turn := { s.turn with kNow := 0, kSum := 0, forwarded := [], commit := false, parent := none, heard := [], heardLast := [],
                          offCount := [], lastRecord := none, busyNow := [], busyLast := [], f := 0, u := 0 },
    set := { Settings.reset with bucketLen := s.set.bucketLen, tailraceLen := s.set.tailraceLen, protoFloor := s.set.protoFloor,
                                 trim := s.set.trim, freqStep := s.set.freqStep },
    ledger := s.ledger,
    mem := { Mem.reset with retired := s.mem.retired,
                            sliceEpoch := (List.range 64).map fun n => (n, nextEpoch (s.mem.sliceEpoch.get n 0)) },
    coh := { Coh.reset with agent := (List.range 16).map fun a => (a, { Agent.reset with epoch := nextEpoch (agentOf s a).epoch }) },
    xlate := { Xlate.reset with ctx := (List.range 4096).map fun c =>
      (c, { Ctx.reset c with epoch := nextEpoch (s.xlate.ctx.get c (Ctx.reset c)).epoch }) },
    dma := (List.range 64).map fun n => (n, { Engine.reset with epoch := nextEpoch (engine s n).epoch }),
    arr := { Arrays.reset with phys := warmArrays s },
    leat := { Leat.reset with link := if s.boot.checksDone then (List.range 64).map fun n => (n, { Link.reset with ber := .passed }) else [] },
    power := { s.power with on := [29], switching := none, level := [] },
    host := { HostEnd.reset with downs := s.host.downs },
    sec := { Security.reset with nonce := s.sec.nonce, warrants := s.sec.warrants },
    fw := { s.fw with activation := none, halted := false } }

/-! ### The steps -/

/-- Step `n` of the sequence: it stands in STEP, its time in BOOT_STEPn, and the rest follows if it succeeds (R514, R530). -/
def bootStep (env : BootEnv) (n : Nat) (f : State → State × Bool) (rest : State → State) (s : State) : State :=
  let t := min (env.stepTimes.getD (n - 1) 0) (2 ^ 32 - 1)
  let x := f { s with boot := { s.boot with step := n, stepTime := s.boot.stepTime.put n t } }
  if x.2 then rest x.1 else x.1

/-- A step that cannot fail. -/
def sure (f : State → State) (s : State) : State × Bool := (f s, true)

/-- Domains come on (R515). -/
def powerOn (s : State) (l : List Nat) : State := { s with power := { s.power with on := l.foldl addNew s.power.on } }

/-- The seal bits are a thermometer code; any other pattern is class 0xA8 (R570). -/
def checkSeal (s : State) : State :=
  if (List.range 7).any fun n => s.otp.sealBits.toNat = 2 ^ n - 1 then s else record s { cls := 0xA8, kind := 10 }

/-- Step 2: the bank selected, at a warm start the bank in use, is verified, and the other where it fails: class 0xB1 (R598); with neither, class 0xB2 and the recovery
service (R599). -/
def verifyBank (warm : Bool) (s0 : State) : State × Bool :=
  let s := checkSeal s0
  let b := s.boot.bank
  if bankGood s warm b then (takeMeasures { s with boot := { s.boot with bank := b } }, true)
  else if bankGood s warm (1 - b) then
    (takeMeasures (record { s with boot := { s.boot with bank := 1 - b, fallback := true } } { cls := 0xB1, kind := 10 }), true)
  else
    (takeMeasures (record { s with boot := { s.boot with recovery := true } } { cls := 0xB2, kind := 10 }), false)

/-- An erase that a reset cut short is found: class 0xB3, and the bank is erased again (R594). -/
def foundCut (s : State) (b : Nat) : State :=
  let k := bankOf s b
  if k.cutShort then
    record (setBank { s with fw := s.fw.erase (bankBase b) 0x1C0_0000 false } b { k with erasing := true }) { cls := 0xB3, kind := 9 }
  else s

/-- Step 3: the management cores boot Kyohar, which reads the erase journal (R594). -/
def bootCores (env : BootEnv) (s : State) : State × Bool :=
  if env.coresBoot then ([0, 1].foldl foundCut { s with boot := { s.boot with coresRun := true, recovery := false } }, true)
  else (record s { cls := 0xB0, kind := 9 }, false)

/-- Step 4: PD28; the endpoint may train from its end on (R513). -/
def bootFabric (env : BootEnv) (s : State) : State × Bool :=
  if env.fabricOn then
    let s1 := powerOn s [28]
    ({ s1 with host := { s1.host with mayTrain := true } }, true)
  else (s, false)

/-- Step 5: the exclusion list gets the arrays of the wear record, and the recorded TRIM codes and frequency steps are applied, unless
a sequence has done so since PWROK rose (R416, R516, R517, R552). -/
def applyRepairs (s : State) : State :=
  if s.boot.checksDone then s
  else
    let put := fun (a : Tbl Nat) (x : Nat × Nat) => a.put x.1 x.2
    { s with boot := { s.boot with excluded := s.fw.wearRetired.foldl addNew s.boot.excluded },
             set := { s.set with trim := s.fw.wearTrim.foldl put s.set.trim, freqStep := s.fw.wearStep.foldl put s.set.freqStep } }

/-- Step 8: the eight stacks train at the highest rate that all reach; a stack that does not train is class 0x26 (R221, R520, R521). -/
def trainHbm (env : BootEnv) (s0 : State) : State :=
  let s := powerOn s0 [24, 25]
  let e := fun (n : Nat) => env.hbm.getD n { high12 := false, rate := 0, saved := false }
  let up := (List.range 8).filter fun n => (e n).rate ≠ 0
  let rate := (up.map fun n => min 5 (e n).rate).min?.getD 0
  let hit := fun (n : Nat) => (e n).saved && s.fw.saved.hbm && s.fw.saved.sealOk
  let one := fun (a : State) (n : Nat) =>
    let t := decide ((e n).rate ≠ 0)
    let st : Stack := { Stack.reset with rate := if t then rate else 0, high12 := (e n).high12, trained := t, saved := t && hit n }
    if t then setStack a n st else record (setStack a n st) { cls := 0x26, kind := 4, index := 32 * n }
  let s1 := (List.range 8).foldl one s
  let all := up.length = 8
  let s2 := { s1 with boot := { s1.boot with hbmSaved := all && up.all hit } }
  if all && up.all fun n => !hit n then
    { s2 with fw := { s2.fw.eraseSaved with saved := { s2.fw.saved with hbm := true, sealOk := true } } }
  else s2

/-- Step 9: with a saved Leat configuration the hub takes its number and extents, and each link that detects its far end trains
(R520, R522); F and U follow from the extents (R79). -/
def bootLinks (env : BootEnv) (s0 : State) : State :=
  let s := powerOn s0 [20, 21, 22, 23]
  match s.fw.saved.leat, s.fw.saved.sealOk with
  | some (h, ex, ey, ez, ew), true =>
    let s1 := { s with boot := { s.boot with leatCfg := true },
                       leat := { s.leat with hub := h, exm1 := ex, eym1 := ey, ezm1 := ez, ewm1 := ew } }
    elect (((List.range 64).filter fun n => env.leatDetect.contains n).foldl (fun a n => trainLink a n (savedFits a n)) (noticeTime s1))
  | _, _ => elect (noticeTime s)

/-- Step 10: every site comes up (R409). -/
def bootSites (env : BootEnv) (s0 : State) : State :=
  let none_ : SiteEnv := { detected := false, inTime := false, table := [], modules := [], protocolStarts := false }
  (List.range 12).foldl (fun a n => bringSite a n (env.sites.getD n none_)) (powerOn s0 [26, 27])

/-- Step 11: arrays that fail the known-answer pass are excluded under class 0x17 (R523, R524). -/
def knownAnswers (env : BootEnv) (s : State) : State :=
  let bad := (List.range 288).filter fun n => env.katFail.contains n && !s.boot.excluded.contains n && domainOn s (domOfArray n)
  bad.foldl (fun a n =>
    record { a with boot := { a.boot with excluded := a.boot.excluded ++ [n], katFail := satAdd 8 a.boot.katFail 1 } }
      { cls := 0x17, kind := 1, index := n }) s

/-! ### READY -/

/-- A physical array is good: its domain is powered, it is not on the exclusion list, and no fault holds it (R517, R518). -/
def goodArray (s : State) (n : Nat) : Bool :=
  domainOn s (domOfArray n) && !s.boot.excluded.contains n && decide ((physArr s n).state = .excluded)

/-- The good arrays of a domain, in ascending order. -/
def goodIn (s : State) (d : Nat) : List Nat := (arraysOf d).filter (goodArray s)

/-- The unfilled logical arrays take the free arrays of their domain group, or of the lowest-numbered other (R518). -/
def fillMap : List Nat → List (Nat × Option Nat) → List (Nat × Option Nat)
  | _, [] => []
  | pool, (la, some p) :: r => (la, some p) :: fillMap pool r
  | pool, (la, none) :: r =>
    match spareFor pool (la / 64) with
    | some p => (la, some p) :: fillMap (without pool p) r
    | none => (la, none) :: fillMap pool r

/-- The map of step 13: logical array, physical array (R518). -/
def arrayMap (s : State) : List (Nat × Option Nat) :=
  fillMap ((List.range 16).flatMap fun d => (goodIn s d).drop 16) ((List.range 256).map fun la => (la, (goodIn s (la / 16))[la % 16]?))

/-- The map is made: what carries no logical array is a hot spare (R518). -/
def mapArrays (s : State) : State :=
  let m := arrayMap s
  let phys := (List.range 288).map fun n =>
    let p := physArr s n
    (n, match m.find? fun x => x.2 = some n with
        | some x => { p with state := .carrying, la := x.1 }
        | none => if goodArray s n then { p with state := .spare } else p)
  { s with arr := { log := m.map fun x => (x.1, { LogArr.reset with phys := x.2 }), phys := phys } }

/-- The replacement causes FLOOR and SPARES are evaluated (R555, R556). -/
def coldCauses (s : State) : State :=
  sparesChanged (if s.set.freqStep.any fun x => x.2 ≥ 8 then addCause s 0 else s)

/-- Step 13: READY, or class 0x19 where a logical array has no good array (R527). -/
def decideReady (s0 : State) : State :=
  let s := coldCauses (mapArrays s0)
  match (arrayMap s0).find? fun x => x.2.isNone with
  | some x =>
    addCause (record { s with boot := { s.boot with blocked := true } } { cls := 0x19, d0 := x.1 }) 4
  | none =>
    let t := min (sumOf (s.boot.stepTime.map Prod.snd)) (2 ^ 32 - 1)
    event { s with boot := { s.boot with ready := true, time := t } } 0

/-! ### The sequence -/

/-- Steps 11 to 13; the checks are skipped once a sequence has completed them since PWROK rose (R512, R514). -/
def checkSteps (env : BootEnv) (s : State) : State :=
  let last := bootStep env 13 (sure decideReady) id
  if s.boot.checksDone then last s
  else
    bootStep env 11 (sure (knownAnswers env))
      (bootStep env 12 (sure fun t => { t with boot := { t.boot with checksDone := true } }) last) s

/-- Steps 3 to 13 (Table 17-2). -/
def fromCores (env : BootEnv) : State → State :=
  bootStep env 3 (bootCores env) <| bootStep env 4 (bootFabric env) <| bootStep env 5 (sure applyRepairs) <|
    bootStep env 6 (fun s => if env.quartersOn then (powerOn s [16, 17, 18, 19], true) else (s, false)) <|
    bootStep env 7 (sure fun s => powerOn s ((List.range 16).filter fun d => !env.domainsOff.contains d)) <|
    bootStep env 8 (sure (trainHbm env)) <| bootStep env 9 (sure (bootLinks env)) <| bootStep env 10 (sure (bootSites env)) <|
    checkSteps env

/-- Steps 2 to 13. -/
def fromBank (env : BootEnv) (warm : Bool) : State → State := bootStep env 2 (verifyBank warm) (fromCores env)

/-! ### The pins -/

/-- PWROK_RISE: a cold start (R510). While WARM_RST# is low it stops after step 1 (R511). -/
def execPwrokRise (env : BootEnv) (s : State) : Host.Outcome State Fault Refusal :=
  if s.pins.pwrok then .next { s with out := [] }
  else .next (bootStep env 1 (fun t => (t, !t.pins.warmLow)) (fromBank env false) (coldReset s env.entropy))

/-- PWROK_FALL: it overrides the other pins, ends the THERMTRIP# latch, and cuts a running erase short (R436, R510, R594). -/
def execPwrokFall (s : State) : Host.Outcome State Fault Refusal :=
  let s1 := cutErases { s with out := [] }
  .next { s1 with pins := { s1.pins with pwrok := false, thermtrip := false }, power := { s1.power with on := [] } }

/-- Every source's commands that have started are forgotten: they get no reply (R511). -/
def forgetStarted (s : State) : State :=
  { s with cmd := { s.cmd with mctp := [], mctpFetched := [],
                               chan := s.cmd.chan.map fun x => (x.1, { x.2 with started := [], fetched := [], held := [] }) } }

/-- WARM_RST_ASSERT: PD0-PD28 stop, READY clears, and the Turn timer goes on in holdover (R511); not while THERMTRIP# is latched
(R512). -/
def execWarmRstAssert (s : State) : Host.Outcome State Fault Refusal :=
  let s1 := { s with out := [], pins := { s.pins with warmLow := true } }
  if live s then .next (enterHoldover (forgetStarted (cutErases { s1 with boot := { s1.boot with ready := false } }))) else .next s1

/-- WARM_RST_RISE: a warm start (R510, R512). -/
def execWarmRstRise (env : BootEnv) (s : State) : Host.Outcome State Fault Refusal :=
  if s.pins.warmLow && aon s then .next (fromBank env true (warmReset { s with out := [] }))
  else .next { s with out := [], pins := { s.pins with warmLow := false } }

end Sys2Proof.Machine
end

