-- ==== Sys2Proof/Machine/LeatReceive.lean ====
section
/-! DEFINITION. The receiving side of the Leat ports: flits, their order and their acknowledgement, opening of sealed packets,
transit, requests of other hubs and answers to this hub's own (R285-R290, R344-R349, R352, R354, R357, R358, R366-R369). -/

namespace Sys2Proof.Machine

/-! ### Flits -/

/-- A flit trailer (Table 11-3). -/
structure Trailer where
  lseq : Nat
  lack : Nat
  kind : Nat
  part : Nat
  pseq : Nat
  crPart : Nat
  crVc : Nat
  crCount : Nat
  good : Bool
  deriving DecidableEq, Repr

/-- The trailer of a data flit; `good` says that its CRC agrees. -/
def trailerOf (b : Bytes) : Trailer :=
  let t := rd b 4080 16
  { lseq := bits t 11 0, lack := bits t 23 12, kind := bits t 26 24, part := bits t 31 28, pseq := bits t 55 32,
    crPart := bits t 59 56, crVc := bits t 62 60, crCount := bits t 75 64,
    good := b.length = 4096 && bits t 127 96 = crc32 (b.take 4092 ++ List.replicate 4 0#8) }

/-- Bytes of a packet: header, body, and the extension and tag of a sealed one (R347, R366). -/
def pktSize (b : Bytes) : Nat := pktHead b + pktLen b + (if pktSealed b then 32 else 0)

/-- The packets of a flit, at most `n`; a word of zeros is padding (log entry 23). -/
def cutPackets : Nat → Bytes → List Bytes
  | 0, _ => []
  | n + 1, b => if b.length < 8 ∨ rd b 0 8 = 0 then [] else b.take (pktSize b) :: cutPackets n (b.drop (pktSize b))

/-- The material of a partition's keys on a port under a KEY_ID. -/
def keyNamed (q : Port) (part k : Nat) : Option Bytes :=
  match q.keys.find? part with
  | some x => if x.keyId = k then some x.material else (x.old.filter fun o => o.1 = k).map Prod.snd
  | none => none

/-- KEY_ID of a sealed packet. -/
def pktKey (b : Bytes) : Option Nat := if pktSealed b then some (rd b (pktHead b + 8) 1) else none

/-- A packet opened, its SEALED bit clear; none where its tag does not agree (R366, R367). -/
def openPacket (s : State) (p part : Nat) (b : Bytes) : Option Bytes :=
  match pktKey b with
  | none => some b
  | some k =>
    let n := pktHead b
    let h := b.take n
    let ext := sub b n 16
    (keyNamed (portOf s p) part k).bind fun m =>
      let (key, salts) := keyHalf m (p % 2 = 1)
      (Config.gcmOpen key (nonceOf salts (rd ext 9 1 % 8) (rd ext 0 8)) (h ++ ext) (b.drop (n + 16))).map fun d =>
        h.set 3 (h.getD 3 0#8 &&& 0xF7#8) ++ d

/-- Every packet of a flit opened, in order. -/
def openAll (s : State) (p part : Nat) : List Bytes → Option (List Bytes)
  | [] => some []
  | b :: r =>
    match openPacket s p part b, openAll s p part r with
    | some x, some l => some (x :: l)
    | _, _ => none

/-! ### Acknowledgement and keys that fall out of use -/

/-- Flits that LACK covers leave the replay buffer (R348). -/
def Link.ackUpTo (l : Link) (lack : Nat) : Link :=
  if l.replay.any fun r => r.lseq = lack then { l with replay := (l.replay.dropWhile fun r => r.lseq ≠ lack).drop 1 } else l

/-- A packet of a partition that a test picks waits for its acknowledgement on a port. -/
def unacked (s : State) (p part : Nat) (f : Bytes → Bool) : Bool :=
  (upto (8 * p) 8).any fun n => (linkOf s n).replay.any fun r => r.part = part && f r.data

/-- An old key goes once every packet under it has been acknowledged in both directions (R368). -/
def dropOldKeys (s : State) (p : Nat) : State :=
  let q := portOf s p
  let one := fun (x : Nat × Keys) =>
    match x.2.old with
    | some (o, _) => if x.2.newSeen && !unacked s p x.1 (fun b => pktKey b = some o) then (x.1, { x.2 with old := none }) else x
    | none => x
  setPort s p { q with keys := q.keys.map one }

/-- LACK and the credits of a flit (R348, R352). -/
def takeReturns (s : State) (n : Nat) (t : Trailer) : State :=
  let s1 := setLink s n ((linkOf s n).ackUpTo t.lack)
  let q := portOf s1 (n / 8)
  let k := t.crPart * 6 + t.crVc
  dropOldKeys (if t.crCount = 0 then s1 else setPort s1 (n / 8) { q with used := q.used.put k (q.used.get k 0 - t.crCount) }) (n / 8)

/-- What a delivered flit says of the keys: the new key is in use; or the partition is no longer sealed, and its keys go once no
sealed packet waits (R368, R583). -/
def noteKeys (s : State) (p : Nat) (a : Ahead) : State :=
  let q := portOf s p
  match q.keys.find? a.part with
  | some x =>
    if a.key = some x.keyId then dropOldKeys (setPort s p { q with keys := q.keys.put a.part { x with newSeen := true } }) p
    else if a.key.isNone && !isSealed s a.part && !unacked s p a.part pktSealed then
      setPort s p { q with keys := q.keys.drop a.part }
    else s
  | none => s

/-! ### Requests of other hubs -/

def pktSrc (b : Bytes) : Nat := bits (rd b 0 8) 16 0
def pktPoisoned (b : Bytes) : Bool := bit (rd b 0 8) 29

/-- Bytes of the body that count: those of whole words, less what its last one leaves over (log entry 23). -/
def pktBytes (b : Bytes) : Nat :=
  let k := bits (rd b 0 16) 124 122
  if pktOp b = 4 ∨ k = 0 then pktLen b else pktLen b - 8 + k

def pktBody (b : Bytes) : Bytes := sub b (pktHead b) (pktBytes b)

/-- A window request: by its OP, or by REMOTE_MODE (Table 11-4). -/
def pktWindowed (b : Bytes) : Bool := pktOp b = 7 || pktOp b = 8 || bit (rd b 0 8) 30

/-- The local address a request names; a mint transfer's is its DST. -/
def pktAddr (b : Bytes) : Nat := if pktOp b = 4 then localOf (rd (pktBody b) 8 8) else bits (rd b 0 16) 121 81

/-- What a window must allow for a request: a tally operation is a write (R319). -/
def pktKind (b : Bytes) : Access :=
  match pktOp b with
  | 1 => .read
  | 8 => .read
  | 4 => .atomic
  | 6 => .atomic
  | _ => .write

/-- Partition and local address that a request acts on, or the class that refuses it (R285-R287, R290). -/
def farTarget (s : State) (part : Nat) (b : Bytes) : Except Nat (Nat × Nat) :=
  let a := pktAddr b
  if pktWindowed b then
    if part ≠ 0 then .error 0x45
    else
      match windowFor s (pktSrc b) a with
      | some w =>
        let out := w.outBase + (a - w.inBase)
        if !w.allows (pktKind b) ∨ !windowTarget s out then .error 0x45 else .ok (w.part % 16, out)
      | none => .error 0x45
  else if s.set.windowMode then .error 0x46
  else .ok (part, a)

/-- A read, write or tally operation as it arrives, with its share class and its poison (R231, R300). -/
def farReq (b : Bytes) (p a : Nat) : RemoteReq :=
  let read := decide (pktKind b = .read)
  { srcHub := pktSrc b, part := fin16 p, kind := pktKind b, addr := a, len := if read then rd (pktBody b) 0 8 else 0,
    data := if read then [] else pktBody b, poison := !read && pktPoisoned b, share := fin64 (pktShare b), tag := pktTag b }

/-- An operation on cells or elements as it arrives. -/
def farAtom (b : Bytes) (p a : Nat) : AtomReq := { packetReq p a with share := fin64 (pktShare b) }

/-- The words of a mint transfer, with their poison. -/
def farMint (b : Bytes) : Option MintPkt := (MintPkt.ofBytes (pktBody b)).map fun k => { k with poison := pktPoisoned b }

/-- A request of another hub is made here (R185-R187, R190, R319). -/
def farWork (s : State) (b : Bytes) (p a : Nat) : State :=
  let q := farReq b p a
  match pktOp b, remoteTally q (fin16 p) a with
  | 4, _ => takeMint s (farAtom b p a) (farMint b)
  | 6, _ =>
    if pktPoisoned b ∧ (atomFault s (farAtom b p a)).isNone then emit (poisonAt s a) .ack
    else atomNow s (farAtom b p a) (vecOp (rd (pktBody b) 0 8) (rd (pktBody b) 8 8))
  | _, some (t, op) => tallyWrite s t op
  | _, none => memoryRequest s (remoteAt q (fin16 p) a)

/-- What such a request waits for, if it does (R77, R242, R248, R504). -/
def farHeld (s : State) (part : Nat) (b : Bytes) : Option (List Nat × Bool) :=
  let some_ := fun (l : List Nat) => if l.isEmpty then none else some (l, false)
  match farTarget s part b with
  | .error _ => none
  | .ok (p, a) =>
    let q := farReq b p a
    match pktOp b with
    | 4 => some_ (match farMint b with | some k => k.held s a | none => [])
    | 6 => if (atomFault s (farAtom b p a)).isSome then none else some_ (conflicts s a 1 true)
    | _ => if (remoteTally q (fin16 p) a).isSome then none else reachHeld s (remoteAt q (fin16 p) a) []

/-- A request is served and answered; one for a chiplet's aperture is answered when the chiplet has replied (R386). -/
def serveFar (s : State) (part : Nat) (b : Bytes) : State :=
  let src := pktSrc b
  let tag := pktTag b
  let share := pktShare b
  match farTarget s part b with
  | .error c => answerFar (capture s fun t => refuse t c part (pktAddr b)).1 src tag part share 0 none
  | .ok (p, a) =>
    let (s1, o, far) := askFor s (.far src tag part share) fun t => farWork t b p a
    if far then s1 else answerFar s1 src tag part share a o.head?

/-- A request of another hub arrives: it is served, or takes its place (R242). -/
def takeFar (s : State) (part : Nat) (b : Bytes) : State :=
  match farHeld s part b with
  | some (l, tick) => enqueue s (.leat part b) l (decide (pktKind b = .read)) tick
  | none => serveFar s part b

/-! ### Answers to this hub's requests -/

/-- What an answer says: data, an acknowledgement, or an error. -/
def pktAnswer (b : Bytes) : Output :=
  if pktOp b = 2 then .readData (pktBody b) (allUnits 0 (pktBody b).length (pktPoisoned b))
  else if pktOp b = 3 then (if pktPoisoned b then .ackPoisoned else .ack)
  else .errorCompletion

/-- The requester of a row is answered once every part of the answer has come, and its number is free (R347). -/
def ownAnswered (s : State) (k : Nat) (o : Output) : State :=
  match s.leat.own.find? fun e => e.num = k with
  | none => s
  | some e0 =>
    let e := e0.take o
    let rest := s.leat.own.filter fun x => x.num ≠ k
    if e.left ≠ 0 then { s with leat := { s.leat with own := rest ++ [e] } }
    else emit { s with leat := { s.leat with own := rest } } e.answer

/-! ### Raises that another hub refuses -/

/-- The write of one byte of a status record at a local address, by the unit that wrote it. -/
def staleWrite (s : State) (e : FarRaise) (a b : Nat) : MemReq :=
  let agent := e.unit - 64
  { issuer := if e.unit < 64 then .dma (fin64 e.unit) else .siteAgent (fin12 agent),
    epoch := if e.unit < 64 then (engine s e.unit).epoch else (agentOf s agent).epoch,
    part := fin16 e.part, ctx := some (e.ctx, (ctxOf s e.ctx).epoch), kind := .write, addr := a, len := 0, data := leBytes 1 b, mask := [],
    poison := [], share := fin64 e.share, hint := 0, target := 0, ecc := .clean }

/-- STALE_TALLY is set in the status record of a descriptor whose raise another hub has refused (R322); `g` are the lines that the write
has waited for. -/
def markStale (s : State) (e : FarRaise) (g : List Nat) : State :=
  match e.events with
  | none => s
  | some (va, b) =>
    let held := (walkHeld s e.unit e.ctx va).filter fun l => !g.contains l
    if !held.isEmpty then enqueue s (.stale e) held true false
    else
      match translate s e.unit e.ctx .write va with
      | (s1, .error _) => s1
      | (s1, .ok pa) =>
        match route s1 e.part pa with
        | .error _ => s1
        | .ok (some h) =>
          let s2 := { s1 with leat := { s1.leat with raises := s1.leat.raises ++ [{ e with events := none }] } }
          sendUnder s2 (some (e.ctx, (ctxOf s2 e.ctx).epoch)) e.part h e.share 0 e.tag (localOf pa) (leBytes 1 (b ||| 8)) false
        | .ok none =>
          let q := staleWrite s1 e (localOf pa) (b ||| 8)
          match reachHeld s1 q g with
          | some (l, tick) => enqueue s1 (.stale e) l false tick
          | none => (capture s1 fun t => memoryRequest t q).1

/-- A raise is answered: those of one tag in the order in which they were sent. -/
def raiseAnswered (s : State) (tag : Nat) (o : Output) : State :=
  match s.leat.raises.find? fun e => e.tag = tag with
  | none => s
  | some e =>
    let s1 := { s with leat := { s.leat with raises := s.leat.raises.erase e } }
    if o = .errorCompletion then markStale s1 e [] else s1

/-- An engine is answered: data for a read, an acknowledgement for anything else, or an error for either (R187, R233, R330, R331). -/
def engineAnswered (s : State) (b : Bytes) : State :=
  match waitingFor s (fun q => (q.fn = 17 || q.fn = 18) && q.tag = pktTag b), pktOp b with
  | some (de, r, q), 2 => if q.fn = 17 then readArrives s de r q (marked (pktBody b) (pktPoisoned b)) else s
  | some (de, r, q), 3 => if q.fn = 18 then writeAcked s de r q (rd (pktBody b) 0 8) (pktPoisoned b) else s
  | some (de, r, q), 9 => reqRefused s de r q
  | _, _ => s

/-- An answer reaches the unit whose tag it carries (log entry 23). -/
def takeAnswer (s : State) (b : Bytes) : State :=
  let u := pktTag b / 32
  let o := pktAnswer b
  match pktTag b % 32 with
  | 31 => raiseAnswered s (pktTag b) o
  | 30 => if u ≥ 120 then ownAnswered s (u - 120) o
    else if u % 10 = 9 then raiseAnswered s (pktTag b) o
    else abroadAnswered s (u / 10) (u % 10) o
  | _ => engineAnswered s b

/-! ### Delivery -/

/-- A packet in transit goes on: with its dateline class inside a dimension, afresh in the next (R357, R358). -/
def forwardPacket (s : State) (p part : Nat) (b : Bytes) : State :=
  match portFor s (pktDest b) with
  | some q => portSubmit s q { part := part, ctx := none, data := setDvc b ((q / 2 = p / 2 && pktDvc b) || crossesWrap s q) }
  | none => s

/-- A packet for this hub: an answer or a request. -/
def isAnswerPkt (b : Bytes) : Bool := pktOp b = 2 || pktOp b = 3 || pktOp b = 9

/-- A packet is delivered: an answer, a request, or one in transit. -/
def deliverPacket (p part : Nat) (s : State) (b : Bytes) : State :=
  if pktDest b ≠ s.leat.hub then forwardPacket s p part b
  else if isAnswerPkt b then takeAnswer s b
  else if pktOp b > 9 then s
  else takeFar s part b

/-- The packets of a flit are delivered, and their buffer space returned (R349, R352). -/
def deliverFlit (s : State) (n : Nat) (a : Ahead) : State :=
  let p := n / 8
  let ps := cutPackets 510 a.data
  let s1 := ps.foldl (deliverPacket p a.part) (noteKeys s p a)
  ps.foldl (fun x b => emit x (.leatIdle n (linkOf x n).rxSeq a.part (pktVc b) (pktUnits b))) s1

/-- The flits of a port are delivered in PSEQ order, as far as they have arrived, at most `k` of them (R349). -/
def deliverAll : Nat → State → Nat → State
  | 0, s, _ => s
  | k + 1, s, n =>
    let q := portOf s (n / 8)
    match q.reorder.find? fun a => a.pseq = q.rxSeq with
    | none => s
    | some a =>
      deliverAll k (deliverFlit (setPort s (n / 8)
        { q with rxSeq := (q.rxSeq + 1) % 2 ^ 24, reorder := q.reorder.filter fun x => x.pseq ≠ q.rxSeq }) n a) n

/-- A PSEQ that has been delivered, or waits for others (R349). -/
def seenBefore (q : Port) (pseq : Nat) : Bool :=
  (pseq + 2 ^ 24 - q.rxSeq) % 2 ^ 24 ≥ 2 ^ 23 || q.reorder.any fun a => a.pseq = pseq

/-- A resend request goes out with the last LSEQ accepted (R348). -/
def askResend (s : State) (n : Nat) : State := emitLeat s (.leatResend n (linkOf s n).rxSeq)

/-- A flit in LSEQ order is accepted: each PSEQ once; one whose tag fails is discarded, and its link leaves service (R349, R367). -/
def acceptFlit (s : State) (n : Nat) (t : Trailer) (b : Bytes) : State :=
  let p := n / 8
  let taken := setLink s n { linkOf s n with rxSeq := t.lseq }
  if seenBefore (portOf s p) t.pseq then emit taken (.leatIdle n t.lseq t.part 0 0)
  else
    let ps := cutPackets 510 (b.take 4080)
    match openAll s p t.part ps with
    | none => linkOut (record s { linkRec n 0x6A 0 with part := some t.part }) n
    | some l =>
      let a : Ahead := { pseq := t.pseq, part := t.part, key := ps.findSome? pktKey, data := l.flatten }
      let q := portOf taken p
      let s1 := setPort taken p { q with reorder := q.reorder ++ [a] }
      deliverAll (portOf s1 p).reorder.length (emit s1 (.leatIdle n t.lseq t.part 0 0)) n

/-- Time since reset, in units of 0.2 us. -/
def timeNow (s : State) : Nat := s.turn.elapsed + s.turn.bucket * s.set.bucketLen

/-- A codeword that cannot be corrected discards the flit; more than sixteen within 1 ms take the link out of service (R344,
R354). -/
def badCodeword (s : State) (n : Nat) : State :=
  let l := linkOf s n
  let times := (l.burst.filter fun x => timeNow s < x + 5000) ++ [timeNow s]
  let s1 := setLink s n { l with fecBad := satAdd 32 l.fecBad 1, burst := times }
  if times.length > 16 then linkOut (record (setLink s1 n { linkOf s1 n with burst := [] }) (linkRec n 0x66 0)) n else askResend s1 n

/-- A link carries flits. -/
def linkOpen (s : State) (n : Nat) : Bool := decide ((linkOf s n).state = .inService) && !inCheck s (linkOf s n)

/-- A flit arrives on a link (R344-R349). -/
def takeFlit (t : State) (n : Nat) (bytes : Bytes) (fecBad : Bool) : State :=
  if !linkOpen t n then t
  else if fecBad then badCodeword t n
  else
    let h := trailerOf bytes
    if !h.good then askResend t n
    else
      let t1 := takeReturns t n h
      let t2 := if h.kind ≠ 1 then t1
        else if h.lseq ≠ ((linkOf t1 n).rxSeq + 1) % 4096 then askResend t1 n
        else acceptFlit t1 n h bytes
      releasePort (restripe t2 (n / 8)) (n / 8)

/-- LEAT_RESEND_REQUEST: every flit after the last one accepted is sent again unchanged; one already sent again four times takes
the link out of service (R348, R354). -/
def execLeatResendRequest (link : Fin 64) (lseq : Nat) (s : State) : Host.Outcome State Fault Refusal :=
  act s fun t =>
    let n := link.val
    if !linkOpen t n then t
    else
      let l := (linkOf t n).ackUpTo lseq
      let t1 := setLink t n l
      if l.replay.any fun r => r.resent ≥ 4 then linkOut t1 n
      else
        let t2 := setLink t1 n { l with replay := l.replay.map fun (r : Replay) => { r with resent := r.resent + 1 } }
        releasePort (l.replay.foldl (fun a r => emitLeat a (flitOf a n r)) t2) (n / 8)

/-! ### Requests that wait -/

/-- The lines that an arrival waits for. -/
def visitLines (s : State) (w : Waiting) : List Nat :=
  s.coh.waiting.filterMap fun x => match x.2 with | .visit n _ => if n = w.num then some x.1 else none | _ => none

/-- The request that an arrival makes at a local address here, where it is known to be one. -/
def Arrival.req (s : State) : Arrival → Option MemReq
  | .mem r => some r
  | .site op p _ => if op = 1 then some (siteMem s p false) else none
  | .leat part b =>
    match farTarget s part b with
    | .ok (p, a) => if isAnswerPkt b then none else some (remoteAt (farReq b p a) (fin16 p) a)
    | .error _ => none
  | _ => none

/-- A request of a row is for another hub. -/
def isAbroad (s : State) (r : MemReq) : Bool := hubOf r.addr ≠ 0 && hubOf r.addr ≠ s.leat.hub

/-- An arrival waits for no line; nor for a number on the Leat ports, nor for a write that is on its way to a register. -/
def mayGo (s : State) (w : Waiting) : Bool :=
  arrivalReady s w &&
    match w.what, w.what.req s with
    | .mem r, _ => if isAbroad s r then decide (s.leat.own.length < 8) else !regWaits s r
    | _, some r => !regWaits s r
    | _, none => true

/-- An arrival is served, with the lines that it has waited for. -/
def goOn (s : State) (g : List Nat) : Arrival → State
  | .leat part b => if isAnswerPkt b then takeAnswer s b else serveFar s part b
  | .site op p a => chipletGoes s op p a
  | .mem r => if isAbroad s r then arrive s r else serveFor s r
  | .atom q op => atomNow s q op
  | .packet part b => takePacket s part b
  | .shoe w => takeRow s w
  | .engine de c => engineGoes s (fin64 de) c g
  | .call n => callGoes s n g
  | .stale e => markStale s e g

/-- Arrivals whose turn has come are served in order, at most `n` of them; what waited for them goes on (R242). -/
def serveFirst : Nat → State → State
  | 0, s => s
  | n + 1, s =>
    match s.fab.arrivals.find? (mayGo s) with
    | none => s
    | some w => serveFirst n (drainWaiting (goOn (leave s w) (visitLines s w) w.what))

/-- What waited goes on: requests, calls whose last request has been served, and deeds whose granules have fallen quiet (R242, R248, R283,
R399). -/
def serveArrivals (s : State) : State :=
  zeroRuns ((List.range 12).foldl (finishSite []) (serveFirst (2 * s.fab.arrivals.length + 8) s))

/-- BUCKET_BOUNDARY (R74). After B127 only a stretch segment can follow (R81). -/
def execBucketBoundary (s : State) : Host.Outcome State Fault Refusal := act s fun t => serveArrivals (bucketBoundary t)

/-- POSTED_WRITE_LAND (R504): the write takes effect and BUSY clears; a change of SRC may call an election (R84, R85); reads that waited for
it are answered. -/
def execPostedWriteLand (b : PostedBlock) (s : State) : Host.Outcome State Fault Refusal := act s fun t => serveArrivals (landPosted b t)

/-- LEAT_DATA_FLIT (R344-R349). -/
def execLeatDataFlit (link : Fin 64) (bytes : Bytes) (fecBad : Bool) (s : State) : Host.Outcome State Fault Refusal :=
  act s fun t => serveArrivals (takeFlit t link bytes fecBad)

end Sys2Proof.Machine
end

