-- ==== Sys2Proof/Machine/KeyExchange.lean ====
section
/-! DEFINITION. Key exchanges of sealed partitions, rekeying and the nonce limit (R366-R369, R565, R581-R584). -/

namespace Sys2Proof.Machine

/-! ### What may be exchanged -/

/-- Link keys are released only in PROVISIONED and DEPLOYED, and never by a scrap-pending unit (R565, R572, Table 19-6). -/
def releasesKeys (s : State) : Bool := (lcState s = 3 || lcState s = 4) && !scrapPending s

/-- A key exchange for a partition may run now; exchanges wait for the end of a service pause (R582, R602). -/
def mayExchange (s : State) (part : Nat) : Bool :=
  isSealed s part && releasesKeys s && !servicePause s && (s.boot.coresRun || s.boot.recovery)

/-- This end of a port initiates: the end with the lower hub number (R584). -/
def initiates (s : State) (p : Nat) : Bool := s.leat.hub < neighbour s p

/-- The link of a port that exchanges use: the lowest in service (R584). -/
def keyLink (s : State) (p : Nat) : Option Nat := (liveLinks s p).head?

/-- The far end's UNIT_ID on a port. -/
def farUnitOf (s : State) (p : Nat) : Nat := match keyLink s p with | some n => (linkOf s n).farUnit | none => 0

/-! ### Offers -/

/-- The far end's offer, as far as it has come (Table 19-12). -/
def farOffer (x : KeyEx) : Bytes := ((List.range 10).flatMap fun k => sub (x.got.get k []) 0 40).take 384

/-- Every fragment of the far end's offer from `a` on, `n` of them, has arrived. -/
def KeyEx.has (x : KeyEx) (a n : Nat) : Bool := (upto a n).all fun k => (x.got.find? k).isSome

/-- The two UNIT_IDs, that of the lower hub number first. -/
def unitPair (s : State) (p : Nat) : List Nat :=
  if initiates s p then [s.fuse.unitId, farUnitOf s p] else [farUnitOf s p, s.fuse.unitId]

/-- What the signature of an offer covers: both ephemeral keys, the initiator's first, both UNIT_IDs, the partition, the port pair
and the new KEY_ID (R584). -/
def transcript (s : State) (p part : Nat) (x : KeyEx) : Bytes :=
  let own := Config.ephemeral x.num
  let far := beVal ((farOffer x).take 96)
  Config.keyTranscript ((if x.initiator then [own, far] else [far, own]) ++ unitPair s p ++ [part, p / 2, x.keyId])

/-- This hub's offer: ephemeral key, device key, endorsement and signature (R584). -/
def ownOffer (s : State) (p part : Nat) (x : KeyEx) : Bytes :=
  beBytes 96 (Config.ephemeral x.num) ++ beBytes 96 s.fuse.deviceKey ++ beBytes 96 s.fuse.endorsement ++
    beBytes 96 (Config.signature 0 (transcript s p part x))

/-- The mask of the fragments that this end has. -/
def gotMask (x : KeyEx) : Nat := ofBits (x.got.map Prod.fst)

/-- A fragment of an offer goes out: TYPE 4 from the initiator, TYPE 5 from the responder (Table 19-12). -/
def sendFragment (s : State) (p part : Nat) (x : KeyEx) (k : Nat) : State :=
  match keyLink s p with
  | none => s
  | some n =>
    let b := sub (ownOffer s p part x) (40 * k) 40
    emitLeat s (if x.initiator then .keyOffer n part x.keyId k (gotMask x) b else .keyResponse n part x.keyId k (gotMask x) b)

/-- The fragments that this end may send: those before the signature, and the rest once the far ephemeral key is there. -/
def sendable (x : KeyEx) : List Nat := if x.has 0 3 then List.range 10 else List.range 7

def setEx (s : State) (p part : Nat) (x : Option KeyEx) : State :=
  let q := portOf s p
  setPort s p { q with keyEx := match x with | some y => q.keyEx.put part y | none => q.keyEx.drop part }

/-- A key exchange opens at this end. -/
def openExchange (s : State) (p part keyId : Nat) : State × KeyEx :=
  let x : KeyEx := { keyId := keyId, num := s.fresh, failed := false, got := [], theyHave := 0#10, initiator := initiates s p }
  (setEx (takeFresh s) p part (some x), x)

/-- The KEY_ID of the next key of a partition on a port. -/
def nextKeyId (s : State) (p part : Nat) : Nat :=
  match (portOf s p).keys.find? part with
  | some k => (k.keyId + 1) % 256
  | none => Config.firstKeyId part % 256

/-- An exchange starts: the initiator offers, the other end prompts it (R584). -/
def startExchange (p : Nat) (s : State) (part : Nat) : State :=
  match keyLink s p with
  | none => s
  | some n =>
    if initiates s p then
      let (s1, x) := openExchange s p part (nextKeyId s p part)
      (sendable x).foldl (fun a k => sendFragment a p part x k) s1
    else emitLeat s (.keyResponse n part (nextKeyId s p part) 0 0 (List.replicate 40 0#8))

/-- Exchanges that sealed partitions want start at a tick (R583, R584). -/
def wantKeys (s : State) : State :=
  (List.range 8).foldl (fun a p =>
    ((List.range 16).filter fun q => mayExchange a q && ((portOf a p).keys.find? q).isNone && ((portOf a p).keyEx.find? q).isNone).foldl
      (startExchange p) a) s

/-! ### Verification and derivation -/

/-- The far offer is genuine: its endorsement by the product CA, and its signature (R584). -/
def offerGood (s : State) (p part : Nat) (x : KeyEx) : Bool :=
  let b := farOffer x
  let ca := beBytes 96 s.fuse.caKey
  signedBy ca (sub b 192 96) (Config.keyTranscript [beVal (sub b 96 96), farUnitOf s p]) &&
    signedBy (sub b 96 96) (sub b 288 96) (transcript s p part x) &&
    onCurve (beVal (sub b 0 48)) (beVal (sub b 48 48))

/-- HKDF-SHA-384 of the shared secret to 128 bytes (R584). -/
def linkKeys (s : State) (p : Nat) (x : KeyEx) : Bytes :=
  let salt := (unitPair s p).flatMap (beBytes 32)
  let prk := hmac384 salt (beBytes 48 (Config.sharedSecret x.num (beVal ((farOffer x).take 96))))
  let t1 := hmac384 prk (Config.hkdfInfo ++ [1#8])
  let t2 := hmac384 prk (t1 ++ Config.hkdfInfo ++ [2#8])
  let t3 := hmac384 prk (t2 ++ Config.hkdfInfo ++ [3#8])
  (t1 ++ t2 ++ t3).take 128

/-- No port's exchange for a partition has failed. -/
def noneFailed (s : State) (part : Nat) : Bool :=
  (List.range 8).all fun p => match (portOf s p).keyEx.find? part with | some x => !x.failed | none => true

/-- Keys are installed: counters start at 0, links that held the partition's packets go on (R367-R369, R584). -/
def installKeys (s : State) (p part : Nat) (x : KeyEx) : State :=
  let q := portOf s p
  let k : Keys := { keyId := x.keyId, material := linkKeys s p x, newSeen := false,
                    old := (q.keys.find? part).map fun o => (o.keyId, o.material) }
  let s1 := setPort s p { q with keys := q.keys.put part k }
  let s2 := (upto (8 * p) 8).foldl (fun a n =>
    let l := linkOf a n
    setLink a n { l with sealCtr := l.sealCtr.put part 0, sealHeld := without l.sealHeld part }) s1
  let s3 := if noneFailed s2 part then { s2 with sec := { s2.sec with held := without s2.sec.held part } } else s2
  releasePort s3 p

/-- An exchange has failed: class 0xA7 once per port, traffic stays held (R583). -/
def failExchange (s : State) (p part : Nat) (x : KeyEx) : State :=
  let s1 := setEx s p part (some { x with failed := true })
  let s2 := { s1 with sec := { s1.sec with held := addNew s1.sec.held part } }
  if x.failed then s2 else record s2 { cls := 0xA7, kind := 6, index := p, part := some part }

/-- An answer of the responder with no fragment: 0xFE installed, 0xFF refused. -/
def answerKey (s : State) (p part keyId code mask : Nat) : State :=
  match keyLink s p with
  | some n => emitLeat s (.keyResponse n part keyId code mask (List.replicate 40 0#8))
  | none => s

/-- Keys of an exchange stand installed on a port. -/
def installed (s : State) (p part : Nat) (x : KeyEx) : Bool :=
  match (portOf s p).keys.find? part with | some k => k.keyId = x.keyId | none => false

/-! ### Fragments -/

/-- A fragment is taken into an exchange; with the far ephemeral key complete, the signature's fragments go out. -/
def takeFragment (s : State) (p part : Nat) (x : KeyEx) (f : KeyFragment) : State × KeyEx :=
  let y := { x with theyHave := x.theyHave ||| f.received,
                    got := if f.index.toNat < 10 ∧ f.body.length = 40 then x.got.put f.index.toNat f.body else x.got }
  let s1 := setEx s p part (some y)
  (if y.has 0 3 && !x.has 0 3 then (upto 7 3).foldl (fun a k => sendFragment a p part y k) s1 else s1, y)

/-- The responder has the whole offer: it installs the keys and says so, or refuses (R584). -/
def respondKeys (s : State) (p part : Nat) (x : KeyEx) : State :=
  if !x.has 0 10 ∨ x.failed then s
  else if installed s p part x then
    let s1 := answerKey s p part x.keyId 0xFE (gotMask x)
    if x.theyHave = BitVec.allOnes 10 then setEx s1 p part none else s1
  else if offerGood s p part x then
    answerKey (installKeys s p part x) p part x.keyId 0xFE (gotMask x)
  else failExchange (answerKey s p part x.keyId 0xFF (gotMask x)) p part x

/-- KEY_OFFER, TYPE 4, at the responder (R584). -/
def execKeyOffer (link : Fin 64) (f : KeyFragment) (s : State) : Host.Outcome State Fault Refusal :=
  act s fun t =>
    let p := link.val / 8
    let part := f.part.val
    if !linkOpen t link ∨ servicePause t ∨ initiates t p then t
    else if !mayExchange t part then emitLeat t (.keyResponse link part f.keyId.toNat 0xFF 0 (List.replicate 40 0#8))
    else
      let was := (portOf t p).keyEx.find? part
      match was.filter fun x => x.keyId = f.keyId.toNat && !x.failed with
      | some x => let (t1, y) := takeFragment t p part x f; respondKeys t1 p part y
      | none =>
        if ((portOf t p).keys.find? part).any fun k => k.keyId = f.keyId.toNat then
          answerKey t p part f.keyId.toNat 0xFE 1023
        else
          let (t1, x) := openExchange t p part f.keyId.toNat
          let t2 := (List.range 7).foldl (fun a k => sendFragment a p part x k) t1
          let (t3, y) := takeFragment t2 p part x f
          respondKeys t3 p part y

/-- KEY_OFFER_RESPONSE, TYPE 5, at the initiator; with no exchange open it prompts one (R584). -/
def execKeyOfferResponse (link : Fin 64) (f : KeyFragment) (s : State) : Host.Outcome State Fault Refusal :=
  act s fun t =>
    let p := link.val / 8
    let part := f.part.val
    if !linkOpen t link ∨ !mayExchange t part ∨ !initiates t p then t
    else
      match (portOf t p).keyEx.find? part with
      | some x =>
        if f.index = 0xFF#8 then failExchange t p part x
        else if x.failed then startExchange p t part
        else if f.index = 0xFE#8 then
          if x.has 0 10 && decide (f.keyId.toNat = x.keyId) then
            (if offerGood t p part x then setEx (installKeys t p part x) p part none else failExchange t p part x)
          else t
        else if f.keyId.toNat = x.keyId then (takeFragment t p part x f).1
        else t
      | none => if f.index = 0#8 then startExchange p t part else t

/-- KEY_FRAGMENT_RESEND: after 100 us what the far end lacks goes out again; where it lacks nothing the last fragment asks for its
answer (R584). -/
def execKeyFragmentResend (port : Fin 8) (part : Fin 16) (s : State) : Host.Outcome State Fault Refusal :=
  act s fun t =>
    match (portOf t port).keyEx.find? part with
    | none => if mayExchange t part && ((portOf t port).keys.find? part).isNone then startExchange port t part else t
    | some x =>
      if x.failed ∨ !mayExchange t part then t
      else
        let l := (sendable x).filter fun k => !x.theyHave.getLsbD k
        let t1 := (if l.isEmpty && x.initiator then [9] else l).foldl (fun a k => sendFragment a port part x k) t
        if !x.initiator && installed t port part x then answerKey t1 port part x.keyId 0xFE (gotMask x) else t1

/-! ### Rekey and limit -/

/-- SEAL_COUNTER_REKEY: class 0x68, and an exchange for a new key (R368). -/
def execSealCounterRekey (link : Fin 64) (part : Fin 16) (s : State) : Host.Outcome State Fault Refusal :=
  act s fun t =>
    let p := link.val / 8
    if ((portOf t p).keys.find? part).isNone ∨ !isSealed t part then t
    else
      let t1 := record t { linkRec link 0x68 0 with part := some part.val }
      if mayExchange t part && ((portOf t p).keyEx.find? part).isNone then startExchange p t1 part else t1

/-- SEAL_COUNTER_LIMIT: the link stops sealing packets of the partition, class 0x69 (R369). -/
def execSealCounterLimit (link : Fin 64) (part : Fin 16) (s : State) : Host.Outcome State Fault Refusal :=
  act s fun t =>
    let l := linkOf t link
    if !isSealed t part ∨ l.sealHeld.contains part.val then t
    else record (setLink t link { l with sealHeld := l.sealHeld ++ [part.val] }) { linkRec link 0x69 0 with part := some part.val }

/-- A key exchange is in progress (R600). -/
def exchanging (s : State) : Bool :=
  (List.range 8).any fun p => (portOf s p).keyEx.any fun x => !x.2.failed && !installed s p x.1 x.2

end Sys2Proof.Machine
end

