-- ==== Sys2Proof/Machine/Firmware.lean ====
section
/-! DEFINITION. The firmware banks in the field: delivery, erasing, activation (R588-R605). -/

namespace Sys2Proof.Machine

/-! ### Banks -/

/-- The inactive bank: the one that does not run; of the recovery service, the one that the boot record does not select (R595,
R599). -/
def inactiveBank (s : State) : Nat := 1 - (if s.boot.recovery then selectedBank s else s.boot.bank)

/-- A bank may be erased and programmed: it neither runs nor is selected by the boot record (R591). -/
def mayProgram (s : State) (b : Nat) : Bool := b ≠ selectedBank s && (s.boot.recovery || b ≠ s.boot.bank)

/-- Chunks below CHUNKS that are not held. -/
def FlashBank.missing (k : FlashBank) : Nat := ((List.range k.chunks).filter fun c => !k.held.contains c).length

/-- The chunks held, as the bitmap of R604 counts them. -/
def FlashBank.shown (k : FlashBank) : List Nat := k.held.filter fun c => c < k.chunks

/-- Inactive bank state of Table 20-6. -/
def FlashBank.code (k : FlashBank) : Nat :=
  if k.cutShort then 4 else if k.erasing then 3 else if k.imageId = 0 then 0 else if k.missing = 0 then 2 else 1

/-- The refusal of a chunk or an activation while the bank is erased (R594, R603); the first block not yet erased is a free value. -/
def erasingRefusal (s : State) (k : FlashBank) : Option (State × Ending) :=
  if k.cutShort then some (takeFresh s, .done .eraseIncomplete (Config.freeValue s.fresh) none none)
  else if k.erasing then some (s, busy 0)
  else none

/-! ### Delivery -/

/-- What the read-back check of an erase or a program finds: a free value, since the spec does not say when one fails (R591, log entry
90). -/
def readsBack (n : Nat) : Bool := Config.freeValue n % 2 = 0

/-- A chunk is programmed and gets its map byte; the first one fixes IMAGE_ID and CHUNKS (R596, R597). -/
def FlashBank.program (k : FlashBank) (c id n : Nat) (d : Bytes) : FlashBank :=
  { k with chunk := k.chunk.put c d, held := addNew k.held c, imageId := id, chunks := n }

/-- A program or an erase whose read-back check fails: class 0xB7, no map byte; what the place then holds is a free value (R591). -/
def failProgram (s : State) (b n : Nat) : State × Ending :=
  let k := bankOf s b
  let s1 := setBank (takeFresh s) b { k with chunk := k.chunk.put n (leBytes 4096 (Config.freeValue s.fresh)) }
  (record s1 { cls := 0xB7, kind := 9 }, .done .aborted 0 none none)

/-- A chunk whose parameters are right (R591, R596, R597). -/
def deliver (s : State) (b : Nat) (c : Packet) : State × Ending :=
  let k := bankOf s b
  let n := c.p0.toNat
  let off := bankBase b + n * 4096
  let sound := readsBack s.fresh
  let put := fun (a : State) =>
    if sound then (setBank a b (k.program n c.p1.toNat c.p2.toNat c.payload), okay 0) else failProgram a b n
  if k.held.contains n then (s, okay 1)
  else if (k.at_ n).all (· = 0xFF#8) then put (takeFresh s)
  else if c.p3 = 1#64 then put { takeFresh s with fw := s.fw.erase off 4096 sound }
  else (record s { cls := 0xB4, kind := 9 }, .done .notBlank off none none)

/-- The work of FW_CHUNK (R591, R595-R597, R603). -/
def fwChunkBody (c : Packet) (s : State) (_ : ReplyTo) : State × Ending :=
  operatorOnly c s fun _ =>
    let b := inactiveBank s
    let k := bankOf s b
    let n := c.p0.toNat
    if c.p3.toNat > 1 then (s, bad 3)
    else if c.p5 ≠ 0#64 then (s, bad 5)
    else
      match erasingRefusal s k with
      | some r => r
      | none =>
        if !mayProgram s b then (s, denied)
        else if n ≥ 7152 ∨ n ≥ c.p2.toNat then (s, bad 0)
        else if c.p1 = 0#64 ∨ (k.imageId ≠ 0 ∧ c.p1.toNat ≠ k.imageId) then (s, bad 1)
        else if c.p2.toNat > 7152 ∨ (k.imageId ≠ 0 ∧ c.p2.toNat ≠ k.chunks) then (s, bad 2)
        else if c.p4.toNat ≠ crc32 c.payload then (s, bad 4)
        else deliver s b c

/-- FW_CHUNK (R595). -/
def execFwChunk (c : Packet) (s : State) : Host.Outcome State Fault Refusal :=
  command 0x0901 (fun n => n = 4096) c s (fwChunkBody c)

/-- Header and bitmap of FW_STATUS (R604). Where no image runs, its fields are zero. -/
def fwStatusBytes (s : State) : Bytes :=
  let k := bankOf s (inactiveBank s)
  let run := bankOf s s.boot.bank
  let live_ := fun (v : Nat) => if s.boot.recovery then 0 else v
  leBytes 1 s.boot.bank ++ leBytes 1 k.code ++ leBytes 1 (flag s.boot.fallback) ++ leBytes 1 0 ++ leBytes 4 (bootGen s) ++
    leBytes 8 k.imageId ++ leBytes 2 k.chunks ++ leBytes 2 k.shown.length ++ leBytes 2 (live_ run.protoMax) ++
    leBytes 2 (if k.shown.contains 0 then k.protoMax else 0) ++ leBytes 8 (live_ run.version) ++ leBytes 896 (ofBits k.shown)

/-- The work of FW_STATUS (R603, R604). -/
def fwStatusBody (c : Packet) (s : State) (_ : ReplyTo) : State × Ending :=
  operatorOnly c s fun _ => reservedFrom c 2 s fun _ =>
    if !hostAddrOk c c.p0.toNat then (s, bad 0)
    else if c.p1.toNat < 928 then (s, bad 1)
    else (s, output 928 c.p0.toNat (fwStatusBytes s))

/-- FW_STATUS (R604). -/
def execFwStatus (c : Packet) (s : State) : Host.Outcome State Fault Refusal := command 0x0902 noPayload c s (fwStatusBody c)

/-- The work of FW_DISCARD: the erase is journalled and runs on (R593, R603). -/
def fwDiscardBody (c : Packet) (s : State) (_ : ReplyTo) : State × Ending :=
  operatorOnly c s fun _ => reservedFrom c 0 s fun _ =>
    let b := inactiveBank s
    if !mayProgram s b then (s, denied)
    else if (bankOf s b).erasing then (s, busy 0)
    else
      let f := s.fw.erase (bankBase b) 0x1C0_0000 false
      let s1 := setBank { s with fw := f } b { FlashBank.reset with sealOk := false, erasing := true }
      (s1, okay ((f.journalSeq + 2 ^ 32 - 1) % 2 ^ 32))

/-- FW_DISCARD (R603). -/
def execFwDiscard (c : Packet) (s : State) : Host.Outcome State Fault Refusal := command 0x0904 noPayload c s (fwDiscardBody c)

/-- BANK_ERASE_COMPLETE: the seal word is programmed, then DONE of the bank's journal entries (R593, R594, R603). An erase whose check
fails is class 0xB7 and gets no seal (R591). -/
def execBankEraseComplete (s : State) : Host.Outcome State Fault Refusal :=
  act s fun t =>
    let sound := readsBack t.fresh
    let one := fun (a : State) (b : Nat) =>
      let k := bankOf a b
      if k.erasing && !sound then
        record (setBank a b { k with erasing := false, cutShort := true }) { cls := 0xB7, kind := 9 }
      else if k.erasing then
        let mark := fun (e : Journal) => if e.off = bankBase b then { e with done := true } else e
        let a1 := { a with fw := { a.fw with journal := a.fw.journal.map mark } }
        setBank a1 b { FlashBank.reset with sealOk := true }
      else a
    [0, 1].foldl one (takeFresh t)

/-! ### Activation -/

/-- The boot record that selects a bank is appended; a change of block erases the other block first (R590, R593). -/
def writeBootRecord (s : State) (b : Nat) : State :=
  let gen := bootGen s + 1
  let blk := fun (g : Nat) => (g - 1) / 1023 % 2
  let change := decide (gen > 1) && decide (blk gen ≠ blk (gen - 1))
  let f := if change then s.fw.erase (0x1_0000 * blk gen) 0x1_0000 true else s.fw
  let kept := if change then f.records.filter fun r => blk r.1 ≠ blk gen else f.records
  { s with fw := { f with records := kept ++ [(gen, b, (bankOf s b).imageId)] } }

/-- Another bank runs: measurement 2 follows (R567, R601). -/
def runBank (s : State) (b : Nat) : State :=
  { s with boot := { s.boot with bank := b },
           sec := { s.sec with measured := s.sec.measured.put 2 (sha384 (bankOf s b).kyohar) } }

/-- The agents of the management cores (Table 7-5). -/
def coreAgents : List Nat := [12, 13, 14, 15]

/-- The cores are asked to flush (R259); a fenced one holds nothing. -/
def flushCores (s : State) : State :=
  let ask_ := fun (a : State) (n : Nat) =>
    if (agentOf a n).fenced then a else setAgent a n { agentOf a n with flushing := true, flushed := false }
  emit (coreAgents.foldl ask_ s) .coresFlush

/-- The cores have restarted with new epochs (Table 17-3). -/
def renewCores (s : State) : State := serveArrivals (coreAgents.foldl rejoin s)

/-- The service pause ends: what was held is posted, then the final reply (R458, R601). -/
def endPause (s : State) (r : ReplyTo) (st : Status) (detail : Nat) : State :=
  let s1 := { s with fw := { s.fw with activation := none } }
  let s2 := (List.range 17).foldl (fun a f => flushHeld (chan a f).held.length a f) s1
  postFinal s2 r st detail none none

/-- What else makes an activation BUSY (R600). -/
def activationBusy (s : State) : Bool :=
  s.power.switching.isSome || exchanging s || (List.range 64).any (fun n => (linkOf s n).state = .training) ||
    (List.range 12).any fun n => (siteOf s n).resetting.isSome

/-- Once every core has flushed or been fenced, the RTP verifies the inactive bank (R259, R601): the cores restart on it, or go on with the
old section. -/
def coresFlushed (s : State) : State :=
  match s.fw.activation with
  | some a =>
    if !a.flushing ∨ coreAgents.any (fun n => (agentOf s n).flushing) then s
    else if bankGood s false (inactiveBank s) then
      emit { s with fw := { s.fw with activation := some { a with flushing := false } } } (.coresRestart true)
    else endPause (record s { cls := 0xB6, kind := 9 }) a.reply .sigInvalid 0
  | none => s

/-- An accepted activation (R599, R601): the service pause begins and the cores flush. In recovery no section runs: the bank is verified at
once, and the bring-up goes on from step 3. -/
def activate (s : State) (b : Nat) (r : ReplyTo) (env : BootEnv) : State :=
  let k := bankOf s b
  if s.boot.recovery then
    if bankGood s false b then
      let s1 := record (runBank (writeBootRecord s b) b) { cls := 0xB5, kind := 9 }
      fromCores env (postFinal s1 r .ok k.version none none)
    else postFinal (record s { cls := 0xB6, kind := 9 }) r .sigInvalid 0 none none
  else
    let a : Activation := { reply := r, version := k.version, flushing := true, oldRestart := false }
    coresFlushed (flushCores { s with fw := { s.fw with activation := some a } })

/-- The work of FW_ACTIVATE (R600, R601). -/
def fwActivateBody (c : Packet) (env : BootEnv) (s : State) (r : ReplyTo) : State × Ending :=
  operatorOnly c s fun _ => reservedFrom c 1 s fun _ =>
    let b := inactiveBank s
    let k := bankOf s b
    match erasingRefusal s k with
    | some x => x
    | none =>
      if c.p0 = 0#64 ∨ c.p0.toNat ≠ k.imageId then (s, bad 0)
      else if k.missing ≠ 0 then (s, .done .imageIncomplete k.missing none none)
      else if k.protoMax < s.set.protoFloor then (s, denied)
      else if activationBusy s then (s, busy 0)
      else (activate s b r env, .later)

/-- FW_ACTIVATE (R601). -/
def execFwActivate (c : Packet) (env : BootEnv) (s : State) : Host.Outcome State Fault Refusal :=
  command 0x0903 noPayload c s (fwActivateBody c env)

/-- KYOHAR_REPORTS_RUNNING: the new section runs, with its boot record and class 0xB5; or the old one again, with class 0xB6 (R601). -/
def execKyoharReportsRunning (s : State) : Host.Outcome State Fault Refusal :=
  act s fun t =>
    match t.fw.activation with
    | some a =>
      if t.fw.halted ∨ a.flushing then t
      else if a.oldRestart then endPause (record (renewCores t) { cls := 0xB6, kind := 9 }) a.reply .aborted 0
      else
        let b := inactiveBank t
        endPause (record (runBank (writeBootRecord (renewCores t) b) b) { cls := 0xB5, kind := 9 }) a.reply .ok a.version
    | none => t

/-- KYOHAR_REPORT_TIMEOUT: the old section restarts; where that does not report either, class 0xB8, and the cores stay halted (R601). -/
def execKyoharReportTimeout (s : State) : Host.Outcome State Fault Refusal :=
  act s fun t =>
    match t.fw.activation with
    | some a =>
      if t.fw.halted ∨ a.flushing then t
      else if a.oldRestart then record { t with fw := { t.fw with halted := true } } { cls := 0xB8, kind := 9 }
      else
        let t1 := renewCores t
        emit { t1 with fw := { t1.fw with activation := some { a with oldRestart := true } } } (.coresRestart false)
    | none => t

end Sys2Proof.Machine
end

