-- ==== Sys2Proof/Machine/CohCommands.lean ====
section
/-! DEFINITION. The rows of the coherence protocol after which waiting requests may go on: responses, evictions, answered offers, the
hold window, time-outs and flushes (R242, R247-R259, R391, R410). -/

namespace Sys2Proof.Machine

/-- A coherence message is worked on where PD28 is on, and what waited for its line goes on. -/
def cohRow (s : State) (f : State → State) : Host.Outcome State Fault Refusal :=
  act s fun t => if domainOn t 28 then serveArrivals (f t) else t

/-- RSP_I (R253). -/
def execRspI (m : CohMsg) (s : State) : Host.Outcome State Fault Refusal :=
  cohRow s fun t => respond t m .inv

/-- RSP_S (R247). -/
def execRspS (m : CohMsg) (s : State) : Host.Outcome State Fault Refusal :=
  cohRow s fun t => respond t m .shared

/-- RSP_I_DATA (R248). -/
def execRspIData (m : CohMsg) (d : Bytes) (s : State) : Host.Outcome State Fault Refusal :=
  cohRow s fun t => respond t m (.invData d)

/-- RSP_S_DATA (R248). -/
def execRspSData (m : CohMsg) (d : Bytes) (s : State) : Host.Outcome State Fault Refusal :=
  cohRow s fun t => respond t m (.sharedData d)

/-- RSP_I_INFLIGHT (R255). -/
def execRspIInflight (m : CohMsg) (s : State) : Host.Outcome State Fault Refusal :=
  cohRow s fun t => respond t m .inflight

/-- WB (R255). -/
def execWb (m : CohMsg) (d : Bytes) (s : State) : Host.Outcome State Fault Refusal :=
  cohRow s fun t => takeWb t m d

/-- EVC (R252). -/
def execEvc (m : CohMsg) (s : State) : Host.Outcome State Fault Refusal :=
  cohRow s fun t => takeEvc t m

/-- STASH_ACC (R251). -/
def execStashAcc (m : CohMsg) (s : State) : Host.Outcome State Fault Refusal :=
  cohRow s fun t => answerOffer t m true

/-- STASH_DEC (R251). -/
def execStashDec (m : CohMsg) (s : State) : Host.Outcome State Fault Refusal :=
  cohRow s fun t => answerOffer t m false

/-- HOLD_WINDOW_EXPIRY (R256). -/
def execHoldWindowExpiry (agent : Fin 16) (line : Nat) (s : State) : Host.Outcome State Fault Refusal :=
  cohRow s fun t => drainWaiting { t with coh := { t.coh with hold := t.coh.hold.filter fun x => x ≠ (agent.val, line) } }

/-- SNOOP_TIMEOUT: no response in 8,000 cycles (R258). The missing response is taken as RSP_I, of an agent that is fenced already as of any
other. -/
def execSnoopTimeout (agent : Fin 16) (line : Nat) (s : State) : Host.Outcome State Fault Refusal :=
  cohRow s fun t =>
    let snooped := match txnOf t line with
      | some x => x.awaiting.contains agent.val || decide (x.inflight = some agent.val)
      | none => false
    if snooped || t.coh.offers.contains (agent.val, line) then fence t agent else t

/-! ### Flushes -/

/-- What waited for an agent's flush goes on: a SITE_RESET, or the move of SITE_PART (R391, R410); the restart of the management cores
(R601). -/
def afterFlush (s : State) (n : Nat) : State :=
  if n ≥ 12 then coresFlushed s
  else
    let s1 := match (siteOf s n).resetting with
      | some (r, e) => resetSite (setSite s n { siteOf s n with resetting := none }) n r e
      | none => s
    if (siteOf s1 n).moving then moveSite s1 n else s1

/-- An agent reports that it holds nothing (R259). -/
def flushReport (t : State) (n : Nat) : State :=
  let a := agentOf t n
  if a.flushing then afterFlush (setAgent t n { a with flushing := false, flushed := true }) n else t

/-- FLUSH_DONE of a site's chiplet, or of a management core (R259). -/
def execFlushDone (f : FlushReport) (s : State) : Host.Outcome State Fault Refusal :=
  cohRow s fun t =>
    if f.agent.val < 12 then sidebandSays t f.agent f.rsvd fun u => flushReport u f.agent else flushReport t f.agent

/-- An agent's flush is awaited: its report, or what follows it. -/
def awaitsFlush (s : State) (n : Nat) : Bool :=
  (agentOf s n).flushing || decide (n < 12) && ((siteOf s n).resetting.isSome || (siteOf s n).moving)

/-- FLUSH_TIMEOUT: an agent that has not reported within 1 ms is fenced (R259). -/
def execFlushTimeout (agent : Fin 16) (s : State) : Host.Outcome State Fault Refusal :=
  cohRow s fun t => if awaitsFlush t agent then afterFlush (fence t agent) agent else t

/-! ### CXL.cache -/

/-- A request of a chiplet in CXL mode as the site's adapter passes it on, under its agent's epoch (R260). -/
def cxlMsg (s : State) (site : Fin 12) (line : Nat) : CohMsg :=
  { agent := ⟨site.val, Nat.lt_of_lt_of_le site.isLt (by decide)⟩, epoch := (agentOf s site).epoch, line := line, late := false,
    ecc := .clean }

/-- Its uncached read or write of a line. -/
def cxlMem (s : State) (site : Fin 12) (line : Nat) (write : Bool) (d : Bytes) (mask : List Bool) : MemReq :=
  siteMem s { site := site, sub := 0, tag := 0, addr := line * 128, len := 2, data := d, mask := mask, poison := [],
              epoch := (agentOf s site).epoch, malformed := false } write

/-- A DirtyEvict: the adapter asks for the data, and the WB follows when it has arrived (R261). -/
def beginEvict (s : State) (n line : Nat) : State :=
  emit { s with coh := { s.coh with evicts := (s.coh.evicts.filter fun x => x ≠ (n, line)) ++ [(n, line)] } } (.goWritePull n line)

/-- The translation of Table 7-4. Opcodes that it does not list are answered with GO_ERR, under class 0x3A (R260). -/
def cxlSays (s : State) (site : Fin 12) (q : CxlReq) : State :=
  let line := q.line
  let m := cxlMsg s site line
  let write := arrive s (cxlMem s site line true q.data q.mask)
  match q.op with
  | .rdShared => cohRequest s m (.rdS site .clean)
  | .rdAny => cohRequest s m (.rdS site .clean)
  | .rdOwn => cohRequest s m (.rdO site .clean)
  | .rdOwnNoData => cohRequest s m (.upg site .clean)
  | .rdCurr => arrive s (cxlMem s site line false [] [])
  | .itoMWr => write
  | .wrCur => write
  | .wrInv => write
  | .woWrInv => write
  | .woWrInvF => write
  | .clFlush => cohRequest s m (.flush site)
  | .cleanEvict => emit (takeEvc s m) (.goI site line)
  | .cleanEvictNoData => emit (takeEvc s m) (.goI site line)
  | .dirtyEvict => beginEvict s site line
  | .cacheFlushed => flushReport s site
  | .other code => emit (record s { cohRec s 0x3A site line with d1 := code }) (.goErr site line)

/-- DIRTY_EVICT and the other CXL.cache requests of a site in CXL mode; those of a fenced agent are answered with an error (R258, R260,
R261). -/
def execDirtyEvict (site : Fin 12) (q : CxlReq) (s : State) : Host.Outcome State Fault Refusal :=
  cohRow s fun t =>
    if !siteUp t site ∨ !(siteOf t site).cxl then t
    else if (agentOf t site).fenced then emit t (.goErr site q.line)
    else cxlSays t site q

end Sys2Proof.Machine
end

