-- ==== Sys2Proof/Machine/Fetch.lean ====
section
/-! DEFINITION. How commands reach the hub: the fetch from a submission ring, and messages over MCTP (R440-R449, R452, R456, R458,
R599). -/

namespace Sys2Proof.Machine

/-! ### Headers -/

/-- PAYLOAD_LEN of a command (Table 14-3). -/
def payloadLen (b : Bytes) : Nat := rd b 6 2

/-- The command that a header and its payload spell (Table 14-3). -/
def packetOf (src : Fin 18) (b : Bytes) : Packet :=
  let par := fun (k : Nat) => BitVec.ofNat 64 (rd b (16 + 8 * k) 8)
  { source := src, tag := BitVec.ofNat 16 (rd b 2 2), part := BitVec.ofNat 4 (rd b 4 1), fence := bit (rd b 5 1) 0,
    noIrq := bit (rd b 5 1) 1, rsvd := rd b 4 1 ≥ 16 || rd b 5 1 ≥ 4 || rd b 8 8 ≠ 0, p0 := par 0, p1 := par 1, p2 := par 2,
    p3 := par 3, p4 := par 4, p5 := par 5, payload := sub b 64 (payloadLen b) }

/-- Slots that a command takes: its header and its payload (R443). -/
def slotsOf (b : Bytes) : Nat := 1 + ceilDiv (payloadLen b) 64

/-- A command that never starts is refused with its final reply. -/
def refuseHeader (s : State) (src : Nat) (b : Bytes) (st : Status) (detail : Nat) : State :=
  let r : ReplyTo := { id := s.cmd.started, source := src, tag := rd b 2 2, opcode := rd b 0 2, noIrq := bit (rd b 5 1) 1 }
  sendReply s r (replyBytes (chan s src).sqHead r st false detail (now s)) []

/-! ### Rings -/

/-- The hub fetches from a ring: it is in use, its function answers, the next completion entry is free, and neither limit of R456 is
reached (R444, R446, R447, R456, R458, R489, R601). -/
def mayFetch (s : State) (f : Nat) : Bool :=
  let c := chan s f
  c.enable && !c.stopped && fnExists s f && !(func s f).d3 && s.boot.coresRun && !s.boot.recovery && !s.fw.halted && canReply s f &&
    decide (c.started.length + c.fetched.length < 64) && decide (startedAll s < 256)

/-- A ring stops on an error (R447). -/
def stopRing (s : State) (f cause : Nat) : State := setChan s f { chan s f with stopped := true, errCause := cause }

/-- The slots of one command have been read from the host (R443, R447, R449). -/
def takeSlots (s : State) (f : Fin 17) (b : Bytes) : State :=
  let c := chan s f
  let size := 2 ^ c.sqLog2
  let avail := (c.sqTail + size - c.sqHead) % size
  if payloadLen b > 4096 then
    stopRing (refuseHeader s f b .badParam 6) f 2
  else if slotsOf b > avail ∨ b.length < 64 * slotsOf b then s
  else
    let s1 := setChan s f { c with sqHead := (c.sqHead + slotsOf b) % size }
    let op := rd b 0 2
    if !opcodes.contains op then refuseHeader s1 f b .badOpcode 0
    else
      let q : Packet := packetOf ⟨f.val, Nat.lt_succ_of_lt f.isLt⟩ b
      setChan s1 f { chan s1 f with fetched := (chan s1 f).fetched ++ [{ opcode := op, packet := q }] }

/-- COMMAND_FETCH: the slots at the head as the host returns them, or how it fails to: a host read, which stops the ring (R443, R447,
R486). -/
def execCommandFetch (src : Fin 17) (slots : Completion) (s : State) : Host.Outcome State Fault Refusal :=
  act s fun t =>
    let c := chan t src
    let fails := fun (cls : Nat) => stopRing (record t { cls := cls, kind := 8, index := src, part := some (srcPart src) }) src 3
    if !mayFetch t src ∨ c.sqHead = c.sqTail then t
    else
      match slots with
      | .refused => fails 0x83
      | .poisoned _ => fails 0x84
      | .data b => if b.length < 64 then t else takeSlots t src b

/-! ### MCTP -/

/-- MCTP commands outstanding (R448). -/
def mctpOpen (s : State) : Nat := s.cmd.mctp.length + s.cmd.mctpFetched.length

/-- A management core, or the recovery service, serves an opcode over MCTP (R458, R599, R601). -/
def mctpServes (s : State) (op : Nat) : Bool := !servicePause s && served s op 17

/-- MCTP_COMMAND: one message with header and payload; a ninth outstanding one is refused (R448, R449). -/
def execMctpCommand (bytes : Bytes) (s : State) : Host.Outcome State Fault Refusal :=
  act s fun t0 =>
    let op := rd bytes 0 2
    if bytes.length < 64 ∨ !mctpServes t0 op then t0
    else
      let t := { t0 with cmd := { t0.cmd with mctpPeer := true } }
      if mctpOpen t ≥ 8 then refuseHeader t 17 bytes .busy 0
      else if payloadLen bytes > 4096 ∨ bytes.length ≠ 64 + payloadLen bytes then refuseHeader t 17 bytes .badParam 6
      else if !opcodes.contains op then refuseHeader t 17 bytes .badOpcode 0
      else
        let f : Fetched := { opcode := op, packet := packetOf 17 bytes }
        { t with cmd := { t.cmd with mctpFetched := t.cmd.mctpFetched ++ [f] } }

end Sys2Proof.Machine
end

