-- ==== Sys2Proof/Machine/Ledger.lean ====
section
/-! DEFINITION. The commands of the fault ledger and the repeated replacement message (R531-R538, R556). -/

namespace Sys2Proof.Machine

/-- The ledger commands are open to partition 0 through sources 0 and 17 alone (R537). -/
def ledgerOnly (c : Packet) (s : State) (k : Unit → State × Ending) : State × Ending :=
  if c.source.val = 0 ∨ c.source.val = 17 then k () else (s, denied)

/-- The entry with a sequence number, as it lies in its slot. -/
def Ledger.entryAt (l : Ledger) (n : Nat) : Bytes :=
  match l.entries.find? fun e => e.seq = n % 2 ^ 32 with
  | some e => e.bytes
  | none => []

/-- The work of LEDGER_READ; over MCTP it ends the repeated replacement message (R537, R556). -/
def ledgerReadBody (c : Packet) (s : State) (_ : ReplyTo) : State × Ending :=
  ledgerOnly c s fun _ => reservedFrom c 3 s fun _ =>
    let first := c.p2.toNat
    let skip := (first + 2 ^ 32 - s.ledger.tail) % 2 ^ 32
    if !hostAddrOk c c.p0.toNat then (s, bad 0)
    else if c.p1.toNat % 64 ≠ 0 then (s, bad 1)
    else if first ≥ 2 ^ 32 ∨ skip > s.ledger.used then (s, bad 2)
    else
      let n := min (bufLen c c.p1.toNat / 64) (s.ledger.used - skip)
      let s1 := if c.source.val = 17 then { s with pins := { s.pins with replaceMsg := false } } else s
      (s1, output n c.p0.toNat ((upto first n).flatMap s.ledger.entryAt))

/-- LEDGER_READ (R537). -/
def execLedgerRead (c : Packet) (s : State) : Host.Outcome State Fault Refusal :=
  command 0x0720 noPayload c s (ledgerReadBody c)

/-- The work of LEDGER_RELEASE (R537). -/
def ledgerReleaseBody (c : Packet) (s : State) (_ : ReplyTo) : State × Ending :=
  ledgerOnly c s fun _ => reservedFrom c 1 s fun _ =>
    let t := c.p0.toNat
    if t ≥ 2 ^ 32 ∨ (t + 2 ^ 32 - s.ledger.tail) % 2 ^ 32 > s.ledger.used then (s, bad 0)
    else
      let l := { s.ledger with tail := t }
      ({ s with ledger := l }, okay (1024 - l.used))

/-- LEDGER_RELEASE (R537). -/
def execLedgerRelease (c : Packet) (s : State) : Host.Outcome State Fault Refusal :=
  command 0x0721 noPayload c s (ledgerReleaseBody c)

/-- The work of LEDGER_OVF_READ (R537). -/
def ledgerOvfReadBody (c : Packet) (s : State) (_ : ReplyTo) : State × Ending :=
  ledgerOnly c s fun _ => reservedFrom c 3 s fun _ =>
    if !hostAddrOk c c.p0.toNat then (s, bad 0)
    else if c.p1.toNat < 1024 then (s, bad 1)
    else if c.p2.toNat > 1 then (s, bad 2)
    else
      let v := (List.range 256).map fun n => s.ledger.ovf.get n 0
      let s1 := if c.p2 = 1#64 then { s with ledger := { s.ledger with ovf := [], ovfFlag := false } } else s
      (s1, output (v.filter (· ≠ 0)).length c.p0.toNat (v.flatMap (leBytes 4)))

/-- LEDGER_OVF_READ (R537). -/
def execLedgerOvfRead (c : Packet) (s : State) : Host.Outcome State Fault Refusal :=
  command 0x0722 noPayload c s (ledgerOvfReadBody c)

/-- REPLACE_MESSAGE_REPEAT: every 60 s, until a LEDGER_READ arrives over MCTP (R556). -/
def execReplaceMessageRepeat (s : State) : Host.Outcome State Fault Refusal :=
  act s fun t => if t.pins.replaceMsg && t.cmd.mctpPeer then emit t (replaceMessage t.pins) else t

end Sys2Proof.Machine
end

