-- ==== Sys2Proof/Machine/Security.lean ====
section
/-! DEFINITION. The life cycle, warrants, quotes and debug accesses (R569-R579, R585). -/

namespace Sys2Proof.Machine

/-! ### Requests -/

/-- Bits of the seal count that are set. -/
def sealCount (s : State) : Nat := (setBits 16 s.otp.sealBits.toNat).length

/-- The stored hash that a signer's key must have: Helymon's in the ROM, or OWNER_KEY_HASH (R573). -/
def signerHash (s : State) (signer : Nat) : Nat := if signer = 0 then s.fuse.lcKeyHash else s.otp.ownerHash

/-- A request's key and signature (R573, R574): key at `k`, signature behind it, over the bytes before it. -/
def requestSigned (s : State) (b : Bytes) (signer k : Nat) : Bool :=
  sha384 (sub b k 96) = signerHash s signer && signedBy (sub b k 96) (sub b (k + 96) 96) (b.take (k + 96))

/-- A refusal of the RTP under its class (R574, R576). -/
def rtpRefuse (s : State) (cls : Nat) (st : Status) (detail : Nat) : State × Ending :=
  (record s { cls := cls, kind := 10, d0 := st.code }, .done st detail none none)

/-! ### LC_ADVANCE -/

/-- Table 19-9 holds, byte for byte. -/
def lcFormed (b : Bytes) : Bool :=
  rd b 0 4 = 0x4345_564C && rd b 4 2 = 1 && rd b 6 1 ≤ 1 && 1 ≤ rd b 7 1 && rd b 7 1 ≤ 6 && (rd b 7 1 = 3 || rd b 48 48 = 0)

/-- A transition that Table 19-10 permits; a scrap-pending unit goes to SCRAPPED alone, by Helymon's key (R572, R573). -/
def lcAllowed (s : State) (target signer : Nat) : Bool :=
  let c := lcState s
  decide (target > c) && !(scrapPending s && !(target = 6 && signer = 0)) &&
    (match target with
     | 4 => c = 3 && signer = 1
     | 5 => (c = 3 || c = 4) && signer = 1
     | 6 => 1 ≤ c && (signer = 0 || 3 ≤ c)
     | t => c + 1 = t && signer = 0)

/-- Signers whose warrants a state accepts (Table 19-4). -/
def lcAccepts (lc signer : Nat) : Bool := if lc = 3 ∨ lc = 4 then signer = 1 else lc = 5 && signer = 0

/-- A transition is made (R571, R572, R578). -/
def lcMake (s : State) (target hash : Nat) : State :=
  let c := lcState s
  let o := s.otp
  let o1 := if target = 3 then { o with ownerHash := hash, ownerWritten := true }
    else if target = 6 ∧ (c = 1 ∨ c = 2) then { o with ownerHash := 2 ^ 384 - 1, ownerWritten := true } else o
  let s1 := { s with otp := { o1 with sealBits := BitVec.ofNat 16 (2 ^ target - 1) } }
  endWarrants (record s1 { cls := 0xA2, kind := 10, d0 := target }) fun w => !lcAccepts target w.signer

/-- The work of LC_ADVANCE (R571-R574). -/
def lcAdvanceBody (c : Packet) (s : State) (_ : ReplyTo) : State × Ending :=
  if partOf c ≠ 0 then (s, denied)
  else
    let b := c.payload
    let target := rd b 7 1
    let signer := rd b 6 1
    match firstNonZero (paramsFrom c 0) with
    | some i => rtpRefuse s 0xA1 .badParam i
    | none =>
      if !lcFormed b then rtpRefuse s 0xA1 .badParam 6
      else if rd b 8 32 ≠ s.fuse.unitId then rtpRefuse s 0xA1 .wrongUnit 0
      else if rd b 40 8 ≠ s.sec.nonce then rtpRefuse s 0xA1 .warrantExpired 0
      else if !lcAllowed s target signer then rtpRefuse s 0xA1 .lcOrder (sealCount s)
      else if !requestSigned s b signer 96 then rtpRefuse s 0xA1 .sigInvalid 0
      else (lcMake s target (beVal (sub b 48 48)), okay target)

/-- LC_ADVANCE (R571). -/
def execLcAdvance (c : Packet) (s : State) : Host.Outcome State Fault Refusal :=
  command 0x0801 (fun n => n = 288) c s (lcAdvanceBody c)

/-! ### Warrants -/

/-- Table 19-11 holds, byte for byte. -/
def warrantFormed (b : Bytes) : Bool :=
  rd b 0 4 = 0x544E_5257 && rd b 4 2 = 1 && rd b 6 1 ≤ 1 && rd b 7 1 = 0 && rd b 54 2 = 0 && rd b 56 8 < 16 && rd b 64 8 ≠ 0 &&
    rd b 72 8 = 0

/-- The warrant that a payload spells. -/
def warrantOf (b : Bytes) : Warrant :=
  { signer := rd b 6 1, expiry := rd b 48 6, rights := BitVec.ofNat 4 (rd b 56 8), serial := rd b 64 8 }

/-- Signer and rights are accepted in the present state (R572, R575, R576). -/
def warrantAllowed (s : State) (w : Warrant) : Bool :=
  lcAccepts (lcState s) w.signer && !scrapPending s && !(w.rights.getLsbD 3 && !(w.signer = 0 && lcState s = 5))

/-- The warrants with one more, in serial order; one with its serial is replaced (R576). -/
def holdWarrant (w : Warrant) : List Warrant → List Warrant
  | [] => [w]
  | x :: r => if x.serial = w.serial then w :: r else if w.serial < x.serial then w :: x :: r else x :: holdWarrant w r

/-- A warrant is loaded, or refused under class 0xA3 (R576). -/
def loadWarrant (s : State) (b : Bytes) : State × Ending :=
  let w := warrantOf b
  let l := s.sec.warrants
  if b.length ≠ 272 ∨ !warrantFormed b then rtpRefuse s 0xA3 .badParam 6
  else if rd b 8 32 ≠ s.fuse.unitId then rtpRefuse s 0xA3 .wrongUnit 0
  else if rd b 40 8 ≠ s.sec.nonce then rtpRefuse s 0xA3 .warrantExpired 0
  else if w.expiry ≤ now s then rtpRefuse s 0xA3 .warrantExpired w.expiry
  else if !warrantAllowed s w then rtpRefuse s 0xA3 .notPermitted 0
  else if !requestSigned s b w.signer 80 then rtpRefuse s 0xA3 .sigInvalid 0
  else if l.length ≥ 4 ∧ !(l.any fun x => x.serial = w.serial) then rtpRefuse s 0xA3 .busy 0
  else
    let s1 := measureWarrants { s with sec := { s.sec with warrants := holdWarrant w l } }
    (record s1 { cls := 0xA4, kind := 10 }, okay s1.sec.warrants.length)

/-- The work of WARRANT_LOAD (R576, R578, R585). -/
def warrantLoadBody (c : Packet) (s : State) (_ : ReplyTo) : State × Ending :=
  operatorOnly c s fun _ => reservedFrom c 2 s fun _ =>
    if c.p0.toNat > 1 then (s, bad 0)
    else if c.p0 = 0#64 then loadWarrant s c.payload
    else if !c.payload.isEmpty then (s, bad 6)
    else if !(s.sec.warrants.any fun w => w.serial = c.p1.toNat) then (s, bad 1)
    else
      let s1 := endWarrants s fun w => w.serial = c.p1.toNat
      (s1, okay s1.sec.warrants.length)

/-- WARRANT_LOAD (R576). -/
def execWarrantLoad (c : Packet) (s : State) : Host.Outcome State Fault Refusal :=
  command 0x0802 (fun n => n = 0 ∨ n = 272) c s (warrantLoadBody c)

/-- A warrant as WARRANT_READ writes it (R585). -/
def Warrant.bytes (w : Warrant) : Bytes :=
  leBytes 8 w.serial ++ leBytes 6 w.expiry ++ leBytes 1 w.signer ++ leBytes 1 w.rights.toNat ++ leBytes 8 0

/-- The work of WARRANT_READ (R577, R585). -/
def warrantReadBody (c : Packet) (s : State) (_ : ReplyTo) : State × Ending :=
  operatorOnly c s fun _ => reservedFrom c 2 s fun _ =>
    if !hostAddrOk c c.p0.toNat then (s, bad 0)
    else if c.p1.toNat < 112 then (s, bad 1)
    else
      let l := s.sec.warrants
      (s, output s.sec.nonce c.p0.toNat (leBytes 8 s.sec.nonce ++ leBytes 1 l.length ++ leBytes 7 0 ++ l.flatMap Warrant.bytes))

/-- WARRANT_READ (R577). -/
def execWarrantRead (c : Packet) (s : State) : Host.Outcome State Fault Refusal :=
  command 0x0803 noPayload c s (warrantReadBody c)

/-- WARRANT_EXPIRY: warrants whose Turn has come end under class 0xA5 (R578). -/
def execWarrantExpiry (s : State) : Host.Outcome State Fault Refusal := act s fun t => endWarrants t fun w => w.expiry ≤ now t

/-! ### Quotes and debug accesses -/

/-- Bytes 0 to 351 of a quote (Table 19-8). -/
def quoteBody (s : State) (part mask : Nat) (nonce : Bytes) : Bytes :=
  leBytes 4 0x544F_5551 ++ leBytes 2 1 ++ leBytes 1 (part + 16 * flag (isSealed s part)) ++ leBytes 1 mask ++ sub nonce 0 48 ++
    leBytes 6 (now s) ++ leBytes 2 0 ++
    (upto 1 6).flatMap fun n => if bit mask n then beBytes 48 (measureOf s n) else List.replicate 48 0#8

/-- The work of ATTEST_QUOTE (R569, Table 19-13). -/
def attestQuoteBody (c : Packet) (s : State) (_ : ReplyTo) : State × Ending :=
  reservedFrom c 3 s fun _ =>
    let mask := c.p2.toNat
    if !hostAddrOk c c.p0.toNat then (s, bad 0)
    else if c.p1.toNat < 448 then (s, bad 1)
    else if mask ≥ 128 ∨ bit mask 0 then (s, bad 2)
    else
      let b := quoteBody s (partOf c) mask c.payload
      let sig := if lcState s = 6 then 0 else Config.signature (Config.aliasKey (measureOf s 2)) b
      (s, output 448 c.p0.toNat (b ++ beBytes 96 sig))

/-- ATTEST_QUOTE (R569). -/
def execAttestQuote (c : Packet) (s : State) : Host.Outcome State Fault Refusal :=
  command 0x0804 (fun n => n = 48) c s (attestQuoteBody c)

/-- DEBUG_ACCESS: served where its path is open; otherwise refused, and a scan shifts out zeros (R579). -/
def execDebugAccess (path : DebugPath) (s : State) : Host.Outcome State Fault Refusal :=
  act s fun t => if pathOpen t path then emit t .testServed else emit (closedPath t) .testZeros

end Sys2Proof.Machine
end

