-- ==== Sys2Proof/Machine/Tick.lean ====
section
/-! DEFINITION. The commit window and the tick: posted changes, activations, tariff changes, lost channels, purse grants, the
deadlock check, and what a new Turn starts from (R43, R58-R61, R65, R77, R78, R170, R283, R308, R334, R355, R364, R392, R393, R432,
R465, R534, R540, R583). -/

namespace Sys2Proof.Machine

/-! ### The commit window -/

/-- Retained inputs go, but for those of a replay that still runs (R77, R82, R540); the Shoe intake of the Turn closes. -/
def releaseInputs (s : State) : State :=
  let one := fun (x : Nat × LogArr) =>
    (x.1, { x.2 with log := if x.2.replay then x.2.log else [], accepted := [] })
  { s with arr := { s.arr with log := s.arr.log.map one } }

/-- The commit window opens (R77): posted changes are applied, retained inputs released, and count groups end (R534). -/
def openCommit (s : State) : State :=
  if s.turn.commit then s
  else
    let s1 := { s with turn := { s.turn with commit := true } }
    endGroups (releaseInputs (applyDue s1 (now s + 1))) 0

/-- COMMIT_WINDOW (R77). -/
def execCommitWindow (s : State) : Host.Outcome State Fault Refusal := act s openCommit

/-! ### Deadlock -/

/-- Every queue of R334. -/
def allWorks : List Work := planWorks ++ (List.range 64).map Work.cmd

/-- A queue was blocked from tick to tick: it waited at the last tick, waits now, and nothing of it moved. -/
def blockedTurn (s : State) (w : Work) : Bool :=
  let (b, m) := match w with
    | .array n => ((logArr s n).blocked, (logArr s n).moved)
    | .dma n => ((engine s n).blocked, (engine s n).moved)
    | .site n => ((siteOf s n).blocked, (siteOf s n).moved)
    | .cmd n => ((engine s n).cmdBlocked, (engine s n).cmdMoved)
  b && !m && waitOf s w = .waiting

/-- The partition whose descriptor a queue works on. -/
def queuePart (s : State) (w : Work) : Option Nat :=
  match w with
  | .cmd n => some (engine s n).owner
  | _ => (queueJob { s with turn := { s.turn with commit := false } } w).bind (jobPart s)

/-- A queue holds work of a partition. -/
def holdsWork (s : State) (w : Work) (p : Nat) : Bool :=
  match w with
  | .cmd n => queueBusy s n && (engine s n).owner = p
  | _ => (jobsOf s w).any fun j => jobOpen s w j && jobPart s j = some p

/-- TALLY_DEADLOCK for one partition (R334). -/
def deadlockOf (s : State) (p : Nat) : State :=
  let mine := allWorks.filter fun w => holdsWork s w p
  let stuck := fun (w : Work) => blockedTurn s w && queuePart s w = some p
  if mine.isEmpty || !mine.all stuck then s
  else
    let ts := ((s.tallies.waiters.filter fun x => mine.contains x.who).map Waiter.tally).eraseDups
    let s1 := { s with glob := { s.glob with tallyDl := s.glob.tallyDl.record p } }
    eventFor (record s1 { cls := 0x55, part := some p, d0 := ts.getD 0 0, d1 := ts.getD 1 0, d2 := ts.getD 2 0, d3 := ts.getD 3 0 })
      5 p

/-- What the next Turn's check starts from. -/
def noteWaits (s : State) : State :=
  let s1 := { s with arr := { s.arr with log := s.arr.log.map fun (x : Nat × LogArr) => (x.1, { x.2 with blocked := x.2.wait = WaitState.waiting, moved := false }) } }
  let s2 := { s1 with dma := s1.dma.map fun (x : Nat × Engine) =>
                (x.1, { x.2 with blocked := x.2.wait = WaitState.waiting, moved := false, cmdBlocked := x.2.cmdWait = WaitState.waiting, cmdMoved := false }) }
  { s2 with sites := { s2.sites with
      site := s2.sites.site.map fun (x : Nat × Site) => (x.1, { x.2 with blocked := x.2.wait = WaitState.waiting, moved := false }) } }

/-- The deadlock check of a tick. -/
def deadlocks (s : State) : State := noteWaits ((List.range 16).foldl deadlockOf s)

/-! ### Purse -/

/-- What one site gets in the first loop of R393: request, grant, debit left, no debit applied. -/
structure Claim where
  site : Nat
  req : Nat
  grant : Nat
  debit : Nat
  breach : Bool
  free : Bool
  deriving DecidableEq, Repr

/-- IDLE_FLOOR of a chiplet (Table 12-9). -/
def idleFloor (x : Site) : Nat := rd x.table 14 2

/-- The first loop of R393 for one site. -/
def claimOf (s : State) (n : Nat) : Claim :=
  let x := siteOf s n
  let req := if x.state = .inService then min (x.req.getD (idleFloor x)) (s.set.siteMaxOf n) else 0
  let m := min req (s.set.siteReserveOf n)
  { site := n, req := req, grant := if x.breach then idleFloor x else m - x.debit, debit := x.debit - m, breach := x.breach,
    free := x.debit = 0 }

/-- The second loop of R393: the spare goes to the lowest sites first. -/
def giveSpare : List Claim → Nat → List Claim
  | [], _ => []
  | c :: r, spare =>
    if !c.breach && c.free && decide (c.req > c.grant) then
      let x := min (c.req - c.grant) spare
      { c with grant := c.grant + x } :: giveSpare r (spare - x)
    else c :: giveSpare r spare

/-- The grants of a Turn from the requests at a tick (R393). -/
def grantsOf (s : State) : List Claim :=
  let l := (List.range 12).map (claimOf s)
  giveSpare l (s.set.purse - sumOf (l.map Claim.grant))

/-- A grant for the Turn after next is taken and sent (R392, Table 12-2). -/
def sendGrant (s : State) (c : Claim) : State :=
  let x := siteOf s c.site
  let s1 := setSite s c.site { x with grantNext := c.grant, debit := c.debit }
  if sidebandUp s c.site then
    emit s1 (.sideband c.site 0x02 (flag x.breach) (c.grant % 65536 + turnMod (now s + 1) % 2 ^ 32 * 65536))
  else s1

/-- The grants roll over to the new Turn, and the last Turn's is kept for its report (R392, R394). -/
def rollGrants (s : State) : State :=
  { s with sites := { s.sites with site := s.sites.site.map fun x =>
      (x.1, { x.2 with grantLast := x.2.grant, grant := x.2.grantNext, grantTurn := now s, reported := false }) } }

/-- The purse at a tick. In a service pause the grant in force is sent again (R602). -/
def purseTick (s : State) : State :=
  let s1 := rollGrants s
  let l := if servicePause s then (List.range 12).map fun n => { claimOf s1 n with grant := (siteOf s1 n).grant, debit := (siteOf s1 n).debit }
    else grantsOf s1
  l.foldl sendGrant s1

/-- TURN_MARK to every chiplet (R379). -/
def markSites (s : State) : State :=
  ((List.range 12).filter (sidebandUp s)).foldl (fun a n => emit a (.sideband n 0x10 s.set.bucketLen (now s))) s

/-! ### Tariff -/

/-- The capacity records of the ports against the links in service (R65). -/
def linkCapacity (s : State) : State :=
  let new := (List.range 64).filterMap fun n =>
    let l := linkOf s n
    if l.state = .inService ∧ l.width ≠ 0 then some (n, widthLanes l.width) else none
  if new = s.plans.linkRec then s
  else { s with plans := { s.plans with linkRec := new }, glob := { s.glob with tariffDirty := true } }

/-- Everything that changed takes one new version and one event TARIFF (R65). -/
def tariffTick (s : State) : State :=
  let s1 := linkCapacity ((List.range 8).foldl losePc s)
  if s1.glob.tariffDirty then
    let g := { s1.glob with tariffVer := (s1.glob.tariffVer + 1) % 2 ^ 32, tariffDirty := false }
    eventAll { s1 with glob := g } 9
  else s1

/-! ### The new Turn -/

/-- Work left over: a job that has ended, or whose plan has gone, leaves its queue; overruns are counted afresh (R74, R75). -/
def tidyJobs (s : State) (w : Work) : State :=
  let l := (jobsOf s w).filter fun j => (planOf s j.handle).isSome && jobOpen s w j
  setJobs s w (l.map fun j => { j with overrun := false })

/-- A link that came back joins its port's rotation; flits that found no other link meanwhile are sent again on it (R355). -/
def rejoinOne (s : State) (n : Nat) : State :=
  let l := linkOf s n
  if l.rejoin then l.replay.foldl (fun a r => resendOn a n r) (setLink s n { l with rejoin := false, replay := [] }) else s

/-- Links that came back join their port's rotation (R355). -/
def rejoinLinks (s : State) : State := releasePorts ((List.range 8).foldl restripe ((List.range 64).foldl rejoinOne s))

/-- The count advances; what belongs to the Turn that ends is put away (R43, R81, R94, R361, R459). -/
def nextTurn (s : State) : State :=
  let t := s.turn
  { s with turn := { t with
      count := turnMod (t.count + 1), bucket := 0, inStretch := false, commit := false, kNow := 0, kSum := 0, kHub := 0,
      stretchNow := 0, forwarded := [], heardLast := t.heard, heard := [],
      lastRecord := some (s.glob.tariffVer, t.count, t.stretchNow), busyLast := t.busyNow, busyNow := [],
      elapsed := t.elapsed + 128 * s.set.bucketLen,
      u := if t.f = 0 then t.u else ceilDiv (t.f + 1) s.set.bucketLen } }

/-- An ageing Turn takes no profiler sample (R432). -/
def skipAgeing (s : State) : State :=
  if ageingTurn s then { s with power := { s.power with skipped := satAdd 15 s.power.skipped 1 } } else s

/-- What is due at the Turn that has begun: deeds, bindings, domains and the tariff first, so that plans are admitted, and those ACTIVE
admitted again, under the device state and the version in force at it (R16, R59, R60, R65, R78, R265, R283, R417). -/
def dueNow (s : State) : State :=
  let t := now s
  let s1 := tariffTick (switchDue (bindsDue (deedsDue s t) t))
  let s2 := plansDue s1 t
  if s1.glob.tariffVer = s.glob.tariffVer then s2 else readmitAll s2

/-- The counters' snapshot, the purse and the sideband of a tick, warrants that end, TURN_OUT (R308, R379, R392, R578, R616). -/
def housekeeping (s : State) : State :=
  let t := now s
  observeTick (skipAgeing (markSites (purseTick (snapCounters (endWarrants s fun w => w.expiry ≤ t)))))

/-- The tick. -/
def tick (s : State) : State :=
  let s1 := nextTurn (deadlocks (openCommit s))
  let s2 := computeSysMin (rejoinLinks (dueNow s1))
  let s3 := beginMoves (housekeeping s2)
  serveArrivals (wantKeys (turnLevels (startBucket (planWorks.foldl tidyJobs s3)) (s.turn.kSum ≠ 0)))

/-- TURN_TICK (R43). A tick that a stretch request in hand moves does not come: its moment begins the stretch segment instead (R81).
While WARM_RST# is low or THERMTRIP# is latched the timer alone goes on (R436, R511). -/
def execTurnTick (s : State) : Host.Outcome State Fault Refusal :=
  if live s then act s fun t => if t.turn.kNow ≠ 0 then serveArrivals (enterStretch t) else tick t
  else if s.pins.pwrok then
    let t := nextTurn { s with out := [] }
    .next (observeTick (endWarrants t fun w => w.expiry ≤ now t))
  else .next { s with out := [] }

/-! ### TURN_RECORD_READ -/

/-- Resources that worked for a partition in a bucket of the last Turn, passive ones included, in order of type and index (R94). -/
def busyOf (s : State) (p b : Nat) : List Nat :=
  ((List.range 420).map fun k =>
    if k < 256 then 256 + k else if k < 320 then 512 + (k - 256) else if k < 328 then 768 + (k - 320)
    else if k < 344 then 1024 + (k - 328) else if k < 408 then 1280 + (k - 344) else 1536 + (k - 408)).filter fun r =>
      s.turn.busyLast.contains (b, r, p)

/-- The first of a list with the highest measure. -/
def mostOf (m : Nat → Nat) : List Nat → Nat
  | [] => 0
  | x :: r => let y := mostOf m r; if r.isEmpty ∨ m y ≤ m x then x else y

/-- An entry of the measured record (R73, R94): zero where nothing of the partition worked. The busy cycles of a resource and the
energy of a rail group are the silicon's measures, which the spec does not give: the utilisation of each resource that worked and of
each group are free values, from 1 up, and the entry names the resource and the group with the highest, the first among equals. -/
def recordEntry (s : State) (p b : Nat) : Bytes :=
  match busyOf s p b with
  | [] => leBytes 8 0
  | l =>
    let m := fun (k : Nat) => 1 + Config.freeValue (s.fresh + 2048 * b + k) % 65535
    let r := mostOf m l
    let g := mostOf (fun k => m (1800 + k)) (List.range 8)
    leBytes 1 (r / 256) ++ leBytes 1 g ++ leBytes 2 (r % 256) ++ leBytes 2 (m r) ++ leBytes 2 (m (1800 + g))

/-- The work of TURN_RECORD_READ (R459). -/
def turnRecordReadBody (c : Packet) (s : State) (_ : ReplyTo) : State × Ending :=
  reservedFrom c 3 s fun _ =>
    if !hostAddrOk c c.p0.toNat then (s, bad 0)
    else if c.p1.toNat < 1040 then (s, bad 1)
    else if c.p2.toNat ≥ 16 then (s, bad 2)
    else
      let p := if c.p2 = 0xF#64 then partOf c else c.p2.toNat
      if partOf c ≠ 0 ∧ p ≠ partOf c then (s, denied)
      else
        let (ver, n, st) := s.turn.lastRecord.getD (s.glob.tariffVer, 0, 0)
        let head := leBytes 4 ver ++ leBytes 6 n ++ leBytes 2 (min st 65535) ++ leBytes 4 0
        ({ s with fresh := s.fresh + 2048 * 128 }, output n c.p0.toNat (head ++ (List.range 128).flatMap (recordEntry s p)))

/-- TURN_RECORD_READ (R459). -/
def execTurnRecordRead (c : Packet) (s : State) : Host.Outcome State Fault Refusal :=
  command 0x0701 noPayload c s (turnRecordReadBody c)

end Sys2Proof.Machine
end

