-- ==== Sys2Proof/Machine/Dispatch.lean ====
section
/-! DEFINITION. One arm per command: the call of its meaning. -/

namespace Sys2Proof.Machine

/-- What a command does to everything but the queue of waiting commands. -/
def exec (i : Instr) (s : State) : Host.Outcome State Fault Refusal :=
  match i with
  | .pwrokRise env => Sys2Proof.Machine.execPwrokRise env s
  | .pwrokFall => Sys2Proof.Machine.execPwrokFall s
  | .warmRstAssert => Sys2Proof.Machine.execWarmRstAssert s
  | .warmRstRise env => Sys2Proof.Machine.execWarmRstRise env s
  | .perstAssert => Sys2Proof.Machine.execPerstAssert s
  | .perstDeassert => Sys2Proof.Machine.execPerstDeassert s
  | .turnTick => Sys2Proof.Machine.execTurnTick s
  | .bucketBoundary => Sys2Proof.Machine.execBucketBoundary s
  | .stretchDecision shortfall => Sys2Proof.Machine.execStretchDecision shortfall s
  | .stretchRequest link k turn hub => Sys2Proof.Machine.execStretchRequest link k turn hub s
  | .commitWindow => Sys2Proof.Machine.execCommitWindow s
  | .turnMarker link m => Sys2Proof.Machine.execTurnMarker link m s
  | .markerLoss => Sys2Proof.Machine.execMarkerLoss s
  | .headraceTimeout => Sys2Proof.Machine.execHeadraceTimeout s
  | .turnInEdge periodPs offsetNs => Sys2Proof.Machine.execTurnInEdge periodPs offsetNs s
  | .shoeSubmit w => Sys2Proof.Machine.execShoeSubmit w s
  | .arrayDescStart a => Sys2Proof.Machine.execArrayDescStart a s
  | .arrayDescComplete la => Sys2Proof.Machine.execArrayDescComplete la s
  | .shoeBatchComplete la => Sys2Proof.Machine.execShoeBatchComplete la s
  | .arrayFault pa f where1 => Sys2Proof.Machine.execArrayFault pa f where1 s
  | .replayComplete la cycles copied => Sys2Proof.Machine.execReplayComplete la cycles copied s
  | .retestComplete pa pass => Sys2Proof.Machine.execRetestComplete pa pass s
  | .patrolDue pa => Sys2Proof.Machine.execPatrolDue pa s
  | .patrolComplete pa pass => Sys2Proof.Machine.execPatrolComplete pa pass s
  | .dmaDescStart de => Sys2Proof.Machine.execDmaDescStart de s
  | .dmaRequestRefused de guard offset => Sys2Proof.Machine.execDmaRequestRefused de guard offset s
  | .dmaDescComplete de => Sys2Proof.Machine.execDmaDescComplete de s
  | .reductionDescStart de => Sys2Proof.Machine.execReductionDescStart de s
  | .reductionDescComplete de => Sys2Proof.Machine.execReductionDescComplete de s
  | .mintTransferPacket part bytes => Sys2Proof.Machine.execMintTransferPacket part bytes s
  | .mintInit q anchor => Sys2Proof.Machine.execMintInit q anchor s
  | .mintAdd q w => Sys2Proof.Machine.execMintAdd q w s
  | .mintRead q => Sys2Proof.Machine.execMintRead q s
  | .cellPut q w err => Sys2Proof.Machine.execCellPut q w err s
  | .iadd q w64 v => Sys2Proof.Machine.execIadd q w64 v s
  | .iaddFetch q w64 v => Sys2Proof.Machine.execIaddFetch q w64 v s
  | .cas q w64 cmp new => Sys2Proof.Machine.execCas q w64 cmp new s
  | .fmax q bf16 v => Sys2Proof.Machine.execFmax q bf16 v s
  | .fmin q bf16 v => Sys2Proof.Machine.execFmin q bf16 v s
  | .tallyAdd q => Sys2Proof.Machine.execTallyAdd q s
  | .tallySub q => Sys2Proof.Machine.execTallySub q s
  | .memoryAccess r => Sys2Proof.Machine.execMemoryAccess r s
  | .windowRequest r => Sys2Proof.Machine.execWindowRequest r s
  | .directRequest r => Sys2Proof.Machine.execDirectRequest r s
  | .rdS m => Sys2Proof.Machine.execRdS m s
  | .rdO m => Sys2Proof.Machine.execRdO m s
  | .upg m => Sys2Proof.Machine.execUpg m s
  | .rdCur r => Sys2Proof.Machine.execRdCur r s
  | .wrInv r => Sys2Proof.Machine.execWrInv r s
  | .flush m => Sys2Proof.Machine.execFlush m s
  | .wb m d => Sys2Proof.Machine.execWb m d s
  | .evc m => Sys2Proof.Machine.execEvc m s
  | .rspI m => Sys2Proof.Machine.execRspI m s
  | .rspS m => Sys2Proof.Machine.execRspS m s
  | .rspIData m d => Sys2Proof.Machine.execRspIData m d s
  | .rspSData m d => Sys2Proof.Machine.execRspSData m d s
  | .rspIInflight m => Sys2Proof.Machine.execRspIInflight m s
  | .stashAcc m => Sys2Proof.Machine.execStashAcc m s
  | .stashDec m => Sys2Proof.Machine.execStashDec m s
  | .dirtyEvict site q => Sys2Proof.Machine.execDirtyEvict site q s
  | .holdWindowExpiry agent line => Sys2Proof.Machine.execHoldWindowExpiry agent line s
  | .snoopTimeout agent line => Sys2Proof.Machine.execSnoopTimeout agent line s
  | .flushDone f => Sys2Proof.Machine.execFlushDone f s
  | .flushTimeout agent => Sys2Proof.Machine.execFlushTimeout agent s
  | .invalAckTimeout unit => Sys2Proof.Machine.execInvalAckTimeout unit s
  | .deedZeroingComplete first => Sys2Proof.Machine.execDeedZeroingComplete first s
  | .wayDrainComplete => Sys2Proof.Machine.execWayDrainComplete s
  | .reserve q => Sys2Proof.Machine.execReserve q s
  | .slotReturn q => Sys2Proof.Machine.execSlotReturn q s
  | .flitReceive f => Sys2Proof.Machine.execFlitReceive f s
  | .shareWindowEnd => Sys2Proof.Machine.execShareWindowEnd s
  | .leatDataFlit link bytes fecBad => Sys2Proof.Machine.execLeatDataFlit link bytes fecBad s
  | .leatResendRequest link lseq => Sys2Proof.Machine.execLeatResendRequest link lseq s
  | .laneLossOfLock link => Sys2Proof.Machine.execLaneLossOfLock link s
  | .linkSignalDetect link => Sys2Proof.Machine.execLinkSignalDetect link s
  | .linkTrainingComplete link r => Sys2Proof.Machine.execLinkTrainingComplete link r s
  | .berCheckStart link turn => Sys2Proof.Machine.execBerCheckStart link turn s
  | .berCheckComplete link errors uncorrectable => Sys2Proof.Machine.execBerCheckComplete link errors uncorrectable s
  | .sealCounterRekey link part => Sys2Proof.Machine.execSealCounterRekey link part s
  | .sealCounterLimit link part => Sys2Proof.Machine.execSealCounterLimit link part s
  | .keyOffer link f => Sys2Proof.Machine.execKeyOffer link f s
  | .keyOfferResponse link f => Sys2Proof.Machine.execKeyOfferResponse link f s
  | .keyFragmentResend port part => Sys2Proof.Machine.execKeyFragmentResend port part s
  | .purseReq site power turn => Sys2Proof.Machine.execPurseReq site power turn s
  | .purseReport site power turn => Sys2Proof.Machine.execPurseReport site power turn s
  | .purseReportDeadline site => Sys2Proof.Machine.execPurseReportDeadline site s
  | .siteAlert site code data => Sys2Proof.Machine.execSiteAlert site code data s
  | .unknownSidebandMessage site msg => Sys2Proof.Machine.execUnknownSidebandMessage site msg s
  | .rd p => Sys2Proof.Machine.execRd p s
  | .wr p => Sys2Proof.Machine.execWr p s
  | .atomic p op => Sys2Proof.Machine.execAtomic p op s
  | .tally p => Sys2Proof.Machine.execTally p s
  | .rdData p => Sys2Proof.Machine.execRdData p s
  | .wrAck p => Sys2Proof.Machine.execWrAck p s
  | .err p => Sys2Proof.Machine.execErr p s
  | .apertureTimeout site tag => Sys2Proof.Machine.execApertureTimeout site tag s
  | .siteCallStart site => Sys2Proof.Machine.execSiteCallStart site s
  | .slotDone p => Sys2Proof.Machine.execSlotDone p s
  | .slotSuspended p => Sys2Proof.Machine.execSlotSuspended p s
  | .siteCallTimeout site => Sys2Proof.Machine.execSiteCallTimeout site s
  | .moduleLossOfLock site module relock => Sys2Proof.Machine.execModuleLossOfLock site module relock s
  | .hbmCattrip stack => Sys2Proof.Machine.execHbmCattrip stack s
  | .pcRetrainFail stack pc => Sys2Proof.Machine.execPcRetrainFail stack pc s
  | .scrubRead addr e => Sys2Proof.Machine.execScrubRead addr e s
  | .scrubIntervalEnd => Sys2Proof.Machine.execScrubIntervalEnd s
  | .domainSwitchComplete => Sys2Proof.Machine.execDomainSwitchComplete s
  | .domainSwitchTimeout => Sys2Proof.Machine.execDomainSwitchTimeout s
  | .tempSample temps => Sys2Proof.Machine.execTempSample temps s
  | .thermtrip => Sys2Proof.Machine.execThermtrip s
  | .railSample outOfBand => Sys2Proof.Machine.execRailSample outOfBand s
  | .ageingSample slack => Sys2Proof.Machine.execAgeingSample slack s
  | .ageingReplan => Sys2Proof.Machine.execAgeingReplan s
  | .profilerSample free => Sys2Proof.Machine.execProfilerSample free s
  | .replaceMessageRepeat => Sys2Proof.Machine.execReplaceMessageRepeat s
  | .warrantExpiry => Sys2Proof.Machine.execWarrantExpiry s
  | .debugAccess path => Sys2Proof.Machine.execDebugAccess path s
  | .testWindowWrite win entry => Sys2Proof.Machine.execTestWindowWrite win entry s
  | .observeSelect on => Sys2Proof.Machine.execObserveSelect on s
  | .bankEraseComplete => Sys2Proof.Machine.execBankEraseComplete s
  | .kyoharReportTimeout => Sys2Proof.Machine.execKyoharReportTimeout s
  | .commandFetch src slots => Sys2Proof.Machine.execCommandFetch src slots s
  | .sqTail src v => Sys2Proof.Machine.execSqTail src v s
  | .cqHead src v => Sys2Proof.Machine.execCqHead src v s
  | .ringEnable src v => Sys2Proof.Machine.execRingEnable src v s
  | .ringDisable src v => Sys2Proof.Machine.execRingDisable src v s
  | .mctpCommand bytes => Sys2Proof.Machine.execMctpCommand bytes s
  | .bitAliasWrite off v => Sys2Proof.Machine.execBitAliasWrite off v s
  | .sqcClearWrite off v => Sys2Proof.Machine.execSqcClearWrite off v s
  | .cfgLockWrite off v => Sys2Proof.Machine.execCfgLockWrite off v s
  | .postedWrite off v => Sys2Proof.Machine.execPostedWrite off v s
  | .postedWriteLand b => Sys2Proof.Machine.execPostedWriteLand b s
  | .leatFecClr n => Sys2Proof.Machine.execLeatFecClr n s
  | .hostRdLimitWrite v => Sys2Proof.Machine.execHostRdLimitWrite v s
  | .hostFnTagsWrite fn v => Sys2Proof.Machine.execHostFnTagsWrite fn v s
  | .registerWrite w => Sys2Proof.Machine.execRegisterWrite w s
  | .msixUnmask fn what => Sys2Proof.Machine.execMsixUnmask fn what s
  | .resizableBarWrite sizeCode => Sys2Proof.Machine.execResizableBarWrite sizeCode s
  | .hostBar4Read fn off len => Sys2Proof.Machine.execHostBar4Read fn off len s
  | .hostBar4Write fn off d poison => Sys2Proof.Machine.execHostBar4Write fn off d poison s
  | .hostReadCompletion tag c => Sys2Proof.Machine.execHostReadCompletion tag c s
  | .hostReadTimeout tag => Sys2Proof.Machine.execHostReadTimeout tag s
  | .functionLevelReset fn => Sys2Proof.Machine.execFunctionLevelReset fn s
  | .hostLinkDown => Sys2Proof.Machine.execHostLinkDown s
  | .hostLinkUp rate width flit => Sys2Proof.Machine.execHostLinkUp rate width flit s
  | .d3hotEntry fn => Sys2Proof.Machine.execD3hotEntry fn s
  | .d0Return fn => Sys2Proof.Machine.execD0Return fn s
  | .doeRequest obj => Sys2Proof.Machine.execDoeRequest obj s
  | .doeAbort => Sys2Proof.Machine.execDoeAbort s
  | .stageSet c => Sys2Proof.Machine.execStageSet c s
  | .stageCheck c => Sys2Proof.Machine.execStageCheck c s
  | .stagePost c => Sys2Proof.Machine.execStagePost c s
  | .stageDiscard c => Sys2Proof.Machine.execStageDiscard c s
  | .stageRead c => Sys2Proof.Machine.execStageRead c s
  | .planLoad c obj => Sys2Proof.Machine.execPlanLoad c obj s
  | .planAdmit c => Sys2Proof.Machine.execPlanAdmit c s
  | .planActivate c => Sys2Proof.Machine.execPlanActivate c s
  | .planRetire c => Sys2Proof.Machine.execPlanRetire c s
  | .tariffRead c => Sys2Proof.Machine.execTariffRead c s
  | .ctxBind c => Sys2Proof.Machine.execCtxBind c s
  | .ctxRoot c => Sys2Proof.Machine.execCtxRoot c s
  | .xlateInval c => Sys2Proof.Machine.execXlateInval c s
  | .ctxClear c => Sys2Proof.Machine.execCtxClear c s
  | .deedSet c => Sys2Proof.Machine.execDeedSet c s
  | .deedRead c => Sys2Proof.Machine.execDeedRead c s
  | .winForce c entry => Sys2Proof.Machine.execWinForce c entry s
  | .memPoisonRead c => Sys2Proof.Machine.execMemPoisonRead c s
  | .memRetire c => Sys2Proof.Machine.execMemRetire c s
  | .memRetireList c => Sys2Proof.Machine.execMemRetireList c s
  | .memScrub c => Sys2Proof.Machine.execMemScrub c s
  | .tallyAssign c => Sys2Proof.Machine.execTallyAssign c s
  | .tallyRead c => Sys2Proof.Machine.execTallyRead c s
  | .tallySet c => Sys2Proof.Machine.execTallySet c s
  | .dmaQueueAssign c => Sys2Proof.Machine.execDmaQueueAssign c s
  | .dmaSubmit c => Sys2Proof.Machine.execDmaSubmit c s
  | .dmaQueueRead c => Sys2Proof.Machine.execDmaQueueRead c s
  | .dmaFlush c => Sys2Proof.Machine.execDmaFlush c s
  | .partRead c => Sys2Proof.Machine.execPartRead c s
  | .partOwners c => Sys2Proof.Machine.execPartOwners c s
  | .partShares c => Sys2Proof.Machine.execPartShares c s
  | .partSeal c => Sys2Proof.Machine.execPartSeal c s
  | .leatConfig c => Sys2Proof.Machine.execLeatConfig c s
  | .leatTrain c => Sys2Proof.Machine.execLeatTrain c s
  | .leatStatus c => Sys2Proof.Machine.execLeatStatus c s
  | .leatSave c => Sys2Proof.Machine.execLeatSave c s
  | .siteCapRead c => Sys2Proof.Machine.execSiteCapRead c s
  | .siteReset c env => Sys2Proof.Machine.execSiteReset c env s
  | .purseRead c => Sys2Proof.Machine.execPurseRead c s
  | .siteBreachClear c => Sys2Proof.Machine.execSiteBreachClear c s
  | .turnRecordRead c => Sys2Proof.Machine.execTurnRecordRead c s
  | .fabStatsRead c => Sys2Proof.Machine.execFabStatsRead c s
  | .fabMissRead c => Sys2Proof.Machine.execFabMissRead c s
  | .ledgerRead c => Sys2Proof.Machine.execLedgerRead c s
  | .ledgerRelease c => Sys2Proof.Machine.execLedgerRelease c s
  | .ledgerOvfRead c => Sys2Proof.Machine.execLedgerOvfRead c s
  | .lcAdvance c => Sys2Proof.Machine.execLcAdvance c s
  | .warrantLoad c => Sys2Proof.Machine.execWarrantLoad c s
  | .warrantRead c => Sys2Proof.Machine.execWarrantRead c s
  | .attestQuote c => Sys2Proof.Machine.execAttestQuote c s
  | .fwChunk c => Sys2Proof.Machine.execFwChunk c s
  | .fwStatus c => Sys2Proof.Machine.execFwStatus c s
  | .fwActivate c env => Sys2Proof.Machine.execFwActivate c env s
  | .fwDiscard c => Sys2Proof.Machine.execFwDiscard c s
  | .pwrDomain c => Sys2Proof.Machine.execPwrDomain c s
  | .thermRead c => Sys2Proof.Machine.execThermRead c s
  | .thermWarn c => Sys2Proof.Machine.execThermWarn c s
  | .profSet c => Sys2Proof.Machine.execProfSet c s
  | .ageRead c => Sys2Proof.Machine.execAgeRead c s
  | .agePolicy c => Sys2Proof.Machine.execAgePolicy c s
  | .turnInEdgeMissing => Sys2Proof.Machine.execTurnInEdgeMissing s
  | .serdesRefclkLoss => Sys2Proof.Machine.execSerdesRefclkLoss s
  | .serdesRefclkReturn => Sys2Proof.Machine.execSerdesRefclkReturn s
  | .slotSuspend site => Sys2Proof.Machine.execSlotSuspend site s
  | .mctpSpdmMessage msg => Sys2Proof.Machine.execMctpSpdmMessage msg s
  | .cxlIoRequest site tag => Sys2Proof.Machine.execCxlIoRequest site tag s
  | .vfEnableWrite enable numVfs => Sys2Proof.Machine.execVfEnableWrite enable numVfs s
  | .directoryWayEmptied => Sys2Proof.Machine.execDirectoryWayEmptied s
  | .kyoharReportsRunning => Sys2Proof.Machine.execKyoharReportsRunning s

end Sys2Proof.Machine
end

