-- ==== Sys2Proof/WellFormed.lean ====
section
/-! DEFINITION. Which commands can stand on the hub's wires: every number fits the field that carries it. A command that breaks a
rule of the spec but fits its fields is well-formed; the machine answers it as the spec says. -/

namespace Sys2Proof

/-- A number fits a field of `w` bits. -/
def fits (w v : Nat) : Bool := decide (v < 2 ^ w)

/-- A command packet: PAYLOAD_LEN is 16 bits wide (Table 14-3). -/
def Packet.wf (c : Packet) : Bool := fits 16 c.payload.length

/-- A coherence message: epoch 8 bits, line PA[40:7] (R247, R529). -/
def CohMsg.wf (m : CohMsg) : Bool := fits 8 m.epoch && fits 34 m.line

/-- A memory request: physical addresses are 58 bits (R34), contexts 12, epochs 8; the mask has one bit for each byte
of the data (R264, R528). -/
def MemReq.wf (r : MemReq) : Bool :=
  fits 8 r.epoch && fits 58 r.addr && (match r.ctx with | some (c, e) => fits 12 c && fits 8 e | none => true) &&
    (r.mask.isEmpty || r.mask.length == r.data.length)

/-- A request over a Leat port: hub numbers are 17 bits, tags 12 (R34, Table 11-4). -/
def RemoteReq.wf (q : RemoteReq) : Bool := fits 17 q.srcHub && fits 58 q.addr && fits 12 q.tag

/-- An atomic request: a local address, epochs of 8 bits, a context of 12 (R264, R528). -/
def AtomReq.wf (q : AtomReq) : Bool :=
  fits 41 q.addr && fits 8 q.epoch && (match q.ctx with | some (c, e) => fits 12 c && fits 8 e | none => true)

/-- A CXL.cache request: a line and at most 128 bytes of data, one mask bit for each (R260). -/
def CxlReq.wf (q : CxlReq) : Bool :=
  fits 34 q.line && decide (q.data.length ≤ 128) && (q.mask.isEmpty || q.mask.length == q.data.length)

/-- A mint word: 256 bits of value, 8 flag bits (R174, R177). -/
def MintWord.wf (w : MintWord) : Bool :=
  decide (-(2 ^ 255 : Int) ≤ w.value) && decide (w.value < 2 ^ 255) && fits 8 w.flags

/-- A Turn marker (Table 11-9). -/
def Marker.wf (m : Marker) : Bool :=
  fits 7 m.bucket && fits 48 m.turn && fits 8 m.bucketLen && fits 8 m.tailraceLen && fits 8 m.f && fits 8 m.u && fits 17 m.headrace &&
    fits 8 m.hops && fits 16 m.protoMax && fits 16 m.sysMin && fits 16 m.protoFloor

/-- A write to a Shoe intake area: 64 KiB of offsets, contexts of 12 bits (R131). -/
def ShoeWrite.wf (w : ShoeWrite) : Bool := fits 16 w.off && (match w.ctx with | some c => fits 12 c | none => true)

/-- A tally operation carries 4 or 8 bytes (R315). -/
def TallyReq.wf (q : TallyReq) : Bool := q.width == 4 || q.width == 8

/-- A site packet: TAG 8 bits, ADDR 64, epochs 8 (Table 12-4). -/
def SitePkt.wf (p : SitePkt) : Bool :=
  fits 12 p.tag && fits 58 p.addr && fits 6 p.len && fits 8 p.epoch && (p.mask.isEmpty || p.mask.length == 64)

/-- What training reports: extents of the four dimensions, hub and link numbers (R342, R353). -/
def TrainResult.wf (r : TrainResult) : Bool :=
  fits 17 r.farHub && fits 6 r.farLink && r.farExtents.length == 4 && fits 16 r.farProtoMax && fits 256 r.farUnit

/-- A fragment of a key offer has 40 bytes (Table 19-12). -/
def KeyFragment.wf (f : KeyFragment) : Bool := f.body.length == 40

/-- A mesh message's target port. -/
def QueueReq.wf (q : QueueReq) : Bool := fits 16 q.target && fits 16 q.initiator

/-- A flit carries 256 bytes; a packet is one flit but on the bulk network (R296). -/
def MeshFlit.wf (f : MeshFlit) : Bool :=
  fits 10 f.target && fits 10 f.source && fits 16 f.initiator && fits 58 f.addr && decide (f.data.length ≤ 256) &&
    decide (f.index.val ≤ f.len.val) && (f.vn == 3 || f.len == 0)

/-- A register write is 1 to 8 bytes wide within BAR0. -/
def RegWrite.wf (w : RegWrite) : Bool :=
  fits 26 w.off && (w.width == 1 || w.width == 2 || w.width == 4 || w.width == 8) && fits (8 * w.width) w.value

/-- What a site's bring-up finds: sixteen modules, a table of at most 16 KiB (R376, R405). -/
def SiteEnv.wf (e : SiteEnv) : Bool := e.modules.length == 16 && decide (e.table.length ≤ 16384)

/-- What a sequence finds: eight stacks, twelve sites, thirteen times (Tables 6-8, 12-13, 17-4). -/
def BootEnv.wf (e : BootEnv) : Bool :=
  e.hbm.length == 8 && e.hbm.all (fun h => decide (h.rate ≤ 5)) && e.sites.length == 12 && e.sites.all SiteEnv.wf &&
    e.stepTimes.length == 13 && e.domainsOff.all (fun d => decide (d < 16)) && e.leatDetect.all (fun l => decide (l < 64)) &&
    e.katFail.all (fun a => decide (a < 288)) && fits 64 e.entropy

/-- A command is well-formed. -/
def Instr.wf : Instr → Bool
  | .pwrokRise env => env.wf
  | .pwrokFall => true
  | .warmRstAssert => true
  | .warmRstRise env => env.wf
  | .perstAssert => true
  | .perstDeassert => true
  | .turnTick => true
  | .bucketBoundary => true
  | .stretchDecision _ => true
  | .stretchRequest _ _ turn hub => fits 48 turn && fits 17 hub
  | .commitWindow => true
  | .turnMarker _ m => m.wf
  | .markerLoss => true
  | .headraceTimeout => true
  | .turnInEdge _ _ => true
  | .shoeSubmit w => w.wf
  | .arrayDescStart a => a.corrected.all fun o => decide (o < 2 ^ 25)
  | .arrayDescComplete _ => true
  | .shoeBatchComplete _ => true
  | .arrayFault _ _ where1 => fits 64 where1
  | .replayComplete _ cycles copied => fits 64 cycles && fits 64 copied
  | .retestComplete _ _ => true
  | .patrolDue _ => true
  | .patrolComplete _ _ => true
  | .dmaDescStart _ => true
  | .dmaRequestRefused _ _ _ => true
  | .dmaDescComplete _ => true
  | .reductionDescStart _ => true
  | .reductionDescComplete _ => true
  | .mintTransferPacket _ _ => true
  | .mintInit q _ => q.wf
  | .mintAdd q w => q.wf && w.wf
  | .mintRead q => q.wf
  | .cellPut q w _ => q.wf && w.wf
  | .iadd q w64 v => q.wf && fits (if w64 then 64 else 32) v
  | .iaddFetch q w64 v => q.wf && fits (if w64 then 64 else 32) v
  | .cas q w64 cmp new => q.wf && fits (if w64 then 64 else 32) cmp && fits (if w64 then 64 else 32) new
  | .fmax q bf16 v => q.wf && fits (if bf16 then 16 else 32) v
  | .fmin q bf16 v => q.wf && fits (if bf16 then 16 else 32) v
  | .tallyAdd q => q.wf
  | .tallySub q => q.wf
  | .memoryAccess r => r.wf
  | .windowRequest r => r.wf
  | .directRequest r => r.wf
  | .rdS m => m.wf
  | .rdO m => m.wf
  | .upg m => m.wf
  | .rdCur r => r.wf
  | .wrInv r => r.wf
  | .flush m => m.wf
  | .wb m d => m.wf && d.length == 128
  | .evc m => m.wf
  | .rspI m => m.wf
  | .rspS m => m.wf
  | .rspIData m d => m.wf && d.length == 128
  | .rspSData m d => m.wf && d.length == 128
  | .rspIInflight m => m.wf
  | .stashAcc m => m.wf
  | .stashDec m => m.wf
  | .dirtyEvict _ q => q.wf
  | .holdWindowExpiry _ line => fits 34 line
  | .snoopTimeout _ line => fits 34 line
  | .flushDone _ => true
  | .flushTimeout _ => true
  | .invalAckTimeout _ => true
  | .deedZeroingComplete _ => true
  | .wayDrainComplete => true
  | .reserve q => q.wf
  | .slotReturn q => q.wf
  | .flitReceive f => f.wf
  | .shareWindowEnd => true
  | .leatDataFlit _ bytes _ => bytes.length == 4096
  | .leatResendRequest _ lseq => fits 12 lseq
  | .laneLossOfLock _ => true
  | .linkSignalDetect _ => true
  | .linkTrainingComplete _ r => r.wf
  | .berCheckStart _ turn => fits 48 turn
  | .berCheckComplete _ errors _ => errors.length == 4
  | .sealCounterRekey _ _ => true
  | .sealCounterLimit _ _ => true
  | .keyOffer _ f => f.wf
  | .keyOfferResponse _ f => f.wf
  | .keyFragmentResend _ _ => true
  | .purseReq _ power at_ => fits 16 power && fits 32 at_.turn
  | .purseReport _ power at_ => fits 16 power && fits 32 at_.turn
  | .purseReportDeadline _ => true
  | .siteAlert _ _ data => fits 48 data
  | .unknownSidebandMessage _ _ => true
  | .rd p => p.wf
  | .wr p => p.wf
  | .atomic p _ => p.wf
  | .tally p => p.wf
  | .rdData p => p.wf
  | .wrAck p => p.wf
  | .err p => p.wf
  | .apertureTimeout _ _ => true
  | .siteCallStart _ => true
  | .slotDone p => p.wf
  | .slotSuspended p => p.wf
  | .siteCallTimeout _ => true
  | .moduleLossOfLock _ _ _ => true
  | .hbmCattrip _ => true
  | .pcRetrainFail _ _ => true
  | .scrubRead addr _ => fits 41 addr
  | .scrubIntervalEnd => true
  | .domainSwitchComplete => true
  | .domainSwitchTimeout => true
  | .tempSample temps => temps.length == 96 || temps.length == 104
  | .thermtrip => true
  | .railSample outOfBand => outOfBand.all fun n => decide (n < 64)
  | .ageingSample slack => slack.length == 64
  | .ageingReplan => true
  | .profilerSample _ => true
  | .replaceMessageRepeat => true
  | .warrantExpiry => true
  | .debugAccess _ => true
  | .testWindowWrite _ entry => entry.length == 32
  | .observeSelect _ => true
  | .bankEraseComplete => true
  | .kyoharReportTimeout => true
  | .commandFetch _ _ => true
  | .sqTail _ v => fits 32 v
  | .cqHead _ v => fits 32 v
  | .ringEnable _ v => fits 32 v
  | .ringDisable _ v => fits 32 v
  | .mctpCommand _ => true
  | .bitAliasWrite off v => fits 26 off && fits 32 v
  | .sqcClearWrite off v => fits 26 off && fits 32 v
  | .cfgLockWrite off v => fits 26 off && fits 32 v
  | .postedWrite off v => fits 26 off && fits 32 v
  | .postedWriteLand _ => true
  | .leatFecClr n => fits 32 n
  | .hostRdLimitWrite v => fits 32 v
  | .hostFnTagsWrite _ v => fits 32 v
  | .registerWrite w => w.wf
  | .msixUnmask _ _ => true
  | .resizableBarWrite sizeCode => fits 6 sizeCode
  | .hostBar4Read _ off _ => fits 64 off
  | .hostBar4Write _ off _ _ => fits 64 off
  | .hostReadCompletion tag _ => fits 14 tag
  | .hostReadTimeout tag => fits 14 tag
  | .functionLevelReset _ => true
  | .hostLinkDown => true
  | .hostLinkUp _ width _ => decide (width ≤ 16)
  | .d3hotEntry _ => true
  | .d0Return _ => true
  | .doeRequest _ => true
  | .doeAbort => true
  | .stageSet c => c.wf
  | .stageCheck c => c.wf
  | .stagePost c => c.wf
  | .stageDiscard c => c.wf
  | .stageRead c => c.wf
  | .planLoad c _ => c.wf
  | .planAdmit c => c.wf
  | .planActivate c => c.wf
  | .planRetire c => c.wf
  | .tariffRead c => c.wf
  | .ctxBind c => c.wf
  | .ctxRoot c => c.wf
  | .xlateInval c => c.wf
  | .ctxClear c => c.wf
  | .deedSet c => c.wf
  | .deedRead c => c.wf
  | .winForce c _ => c.wf
  | .memPoisonRead c => c.wf
  | .memRetire c => c.wf
  | .memRetireList c => c.wf
  | .memScrub c => c.wf
  | .tallyAssign c => c.wf
  | .tallyRead c => c.wf
  | .tallySet c => c.wf
  | .dmaQueueAssign c => c.wf
  | .dmaSubmit c => c.wf
  | .dmaQueueRead c => c.wf
  | .dmaFlush c => c.wf
  | .partRead c => c.wf
  | .partOwners c => c.wf
  | .partShares c => c.wf
  | .partSeal c => c.wf
  | .leatConfig c => c.wf
  | .leatTrain c => c.wf
  | .leatStatus c => c.wf
  | .leatSave c => c.wf
  | .siteCapRead c => c.wf
  | .siteReset c env => c.wf && env.wf
  | .purseRead c => c.wf
  | .siteBreachClear c => c.wf
  | .turnRecordRead c => c.wf
  | .fabStatsRead c => c.wf
  | .fabMissRead c => c.wf
  | .ledgerRead c => c.wf
  | .ledgerRelease c => c.wf
  | .ledgerOvfRead c => c.wf
  | .lcAdvance c => c.wf
  | .warrantLoad c => c.wf
  | .warrantRead c => c.wf
  | .attestQuote c => c.wf
  | .fwChunk c => c.wf
  | .fwStatus c => c.wf
  | .fwActivate c env => c.wf && env.wf
  | .fwDiscard c => c.wf
  | .pwrDomain c => c.wf
  | .thermRead c => c.wf
  | .thermWarn c => c.wf
  | .profSet c => c.wf
  | .ageRead c => c.wf
  | .agePolicy c => c.wf
  | .turnInEdgeMissing => true
  | .serdesRefclkLoss => true
  | .serdesRefclkReturn => true
  | .slotSuspend _ => true
  | .mctpSpdmMessage _ => true
  | .cxlIoRequest _ _ => true
  | .vfEnableWrite _ numVfs => decide (numVfs ≤ 16)
  | .directoryWayEmptied => true
  | .kyoharReportsRunning => true

end Sys2Proof
end

