-- ==== Sys2Proof/Safety.lean ====
section
/-! DEFINITION. The terms in which statements are made: a command that runs at its own effect, what it starts from, and how a command
packet is taken and ends. -/

namespace Sys2Proof.Safety

open Sys2Proof.Machine

/-! ### Rows -/

/-- A row changes the state to exactly this one. -/
def Gives (i : Instr) (s t : State) : Prop := exec i s = .next t

/-- The state that a row works on: the outputs of the row before it are gone. -/
def fresh (s : State) : State := { s with out := [] }

/-- PD28, the domain of the fabric, the Granary and the registers, is powered on a hub that answers. -/
abbrev FabricUp (s : State) : Prop := live s = true ∧ domainOn s 28 = true

/-- A row that the always-on domain sees, or that acts on the pins. -/
def pinRow : Instr → Bool
  | .pwrokRise _ | .pwrokFall | .warmRstAssert | .warmRstRise _ | .perstAssert | .perstDeassert | .turnTick => true
  | _ => false

/-- A row of a sensor or a reference clock, which PD29 sees. -/
def sensorRow : Instr → Bool
  | .turnInEdge _ _ | .turnInEdgeMissing | .serdesRefclkLoss | .serdesRefclkReturn | .tempSample _ | .railSample _ | .thermtrip => true
  | _ => false

/-! ### Command packets -/

/-- The row of a command packet: its opcode and the packet (Table 14-5). -/
def packetRow : Instr → Option (Nat × Packet)
  | .stageSet c => some (0x0101, c)
  | .stageCheck c => some (0x0102, c)
  | .stagePost c => some (0x0103, c)
  | .stageDiscard c => some (0x0104, c)
  | .stageRead c => some (0x0105, c)
  | .planLoad c _ => some (0x0201, c)
  | .planAdmit c => some (0x0202, c)
  | .planActivate c => some (0x0203, c)
  | .planRetire c => some (0x0204, c)
  | .tariffRead c => some (0x0205, c)
  | .ctxBind c => some (0x0301, c)
  | .ctxRoot c => some (0x0302, c)
  | .xlateInval c => some (0x0303, c)
  | .ctxClear c => some (0x0304, c)
  | .deedSet c => some (0x0310, c)
  | .deedRead c => some (0x0311, c)
  | .winForce c _ => some (0x0320, c)
  | .memPoisonRead c => some (0x0340, c)
  | .memRetire c => some (0x0341, c)
  | .memRetireList c => some (0x0342, c)
  | .memScrub c => some (0x0343, c)
  | .tallyAssign c => some (0x0350, c)
  | .tallyRead c => some (0x0351, c)
  | .tallySet c => some (0x0352, c)
  | .dmaQueueAssign c => some (0x0360, c)
  | .dmaSubmit c => some (0x0361, c)
  | .dmaQueueRead c => some (0x0362, c)
  | .dmaFlush c => some (0x0363, c)
  | .partRead c => some (0x0401, c)
  | .partOwners c => some (0x0402, c)
  | .partShares c => some (0x0403, c)
  | .partSeal c => some (0x0404, c)
  | .leatConfig c => some (0x0501, c)
  | .leatTrain c => some (0x0502, c)
  | .leatStatus c => some (0x0503, c)
  | .leatSave c => some (0x0504, c)
  | .siteCapRead c => some (0x0601, c)
  | .siteReset c _ => some (0x0602, c)
  | .purseRead c => some (0x0603, c)
  | .siteBreachClear c => some (0x0604, c)
  | .turnRecordRead c => some (0x0701, c)
  | .fabStatsRead c => some (0x0710, c)
  | .fabMissRead c => some (0x0711, c)
  | .ledgerRead c => some (0x0720, c)
  | .ledgerRelease c => some (0x0721, c)
  | .ledgerOvfRead c => some (0x0722, c)
  | .lcAdvance c => some (0x0801, c)
  | .warrantLoad c => some (0x0802, c)
  | .warrantRead c => some (0x0803, c)
  | .attestQuote c => some (0x0804, c)
  | .fwChunk c => some (0x0901, c)
  | .fwStatus c => some (0x0902, c)
  | .fwActivate c _ => some (0x0903, c)
  | .fwDiscard c => some (0x0904, c)
  | .pwrDomain c => some (0x0A01, c)
  | .thermRead c => some (0x0A02, c)
  | .thermWarn c => some (0x0A03, c)
  | .profSet c => some (0x0A04, c)
  | .ageRead c => some (0x0A10, c)
  | .agePolicy c => some (0x0A11, c)
  | _ => none

/-- The payload lengths that an opcode takes (Table 14-5); the other opcodes take none. -/
def lensOf (op n : Nat) : Bool :=
  if op = 0x0101 ∨ op = 0x0402 ∨ op = 0x0403 then somePayload n
  else if op = 0x0361 then decide (0 < n) && decide (n ≤ 4096)
  else if op = 0x0801 then decide (n = 288)
  else if op = 0x0802 then decide (n = 0 ∨ n = 272)
  else if op = 0x0804 then decide (n = 48)
  else if op = 0x0901 then decide (n = 4096)
  else noPayload n

/-- The state that a command packet's work begins in, and to whom it replies. -/
def begun (s : State) (op : Nat) (c : Packet) : State := (begin (fresh s) op c).1
def replyTo (s : State) (op : Nat) (c : Packet) : ReplyTo := (begin (fresh s) op c).2

/-- The packet is one more than the eight that may be open over MCTP (R449). -/
abbrev ninth (s : State) (op : Nat) (c : Packet) : Prop :=
  c.source.val = 17 ∧ (begun s op c).cmd.mctp.length + (begun s op c).cmd.mctpFetched.length > 8

/-- The packet may start now. -/
abbrev Starts (s : State) (op : Nat) (c : Packet) : Prop := live s = true ∧ canStart s op c = true

/-- The packet starts, and nothing in its header refuses it. -/
abbrev Accepts (s : State) (op : Nat) (c : Packet) : Prop :=
  Starts s op c ∧ ¬ ninth s op c ∧ headerRefusal s op (lensOf op) c = none

/-- The parameters of a packet from P`n` on are zero, as a reserved parameter must be (R15). -/
abbrev zeroFrom (c : Packet) (n : Nat) : Prop := ∀ x ∈ paramsFrom c n, x.2 = 0#64

/-- A packet's row leaves the state `t` and ends the command so. -/
def Ends (i : Instr) (s : State) (op : Nat) (c : Packet) (t : State) (e : Ending) : Prop :=
  Gives i s (finish t (replyTo s op c) e)

end Sys2Proof.Safety
end

