-- ==== Sys2Proof/Certificates/Slice0/Obligations.lean ====
section
/-! DEFINITION. The statements for the provers: what the commands do, by the numbered rules of the spec. -/

open Sys2Proof Sys2Proof.Machine

/-- For every command and state, a step with the command at the front of the queue is its meaning on the state with the queue's
rest. -/
def Obligations.StepRunsFrontCommand : Prop :=
  ∀ (s : State) (c : Instr) (rest : List Instr), s.pending = c :: rest → step s = exec c { s with pending := rest }

/-- What the reset state is, and what a step does with no command waiting (the model's choice: log entry 2). -/
def Obligations.ResetStateAndIdling : Prop :=
  State.reset.mem.wf = true ∧ State.reset.mem.cells = [] ∧ State.reset.pending = [] ∧ State.reset.boot.ready = false ∧
  State.reset.turn.count = 0 ∧ State.reset.ledger = Ledger.reset ∧
  (∀ s : State, s.pending = [] → step s = .next s) ∧
  (∀ (s : State) (nbits w : Nat), decodeTableWord nbits w = none ∧ s.withFetchWord nbits w = s)

/-- Every command answers a next state, in every state. -/
def Obligations.EveryCommandAnswers : Prop :=
  (∀ (i : Instr) (s : State), ∃ t, exec i s = .next t) ∧ ∀ s : State, ∃ t, step s = .next t

/-- The canonical form of memory is an invariant of the step. -/
def Obligations.EveryStepKeepsMemoryCanonical : Prop :=
  ∀ s t : State, s.mem.wf = true → step s = .next t → t.mem.wf = true

/-- Seal bits are one-time programmable and fuses are fixed: no command of any state clears or changes one. -/
def Obligations.SealBitsOnlySet : Prop :=
  ∀ s t : State, step s = .next t →
    (∀ n, s.otp.sealBits.getLsbD n = true → t.otp.sealBits.getLsbD n = true) ∧ t.fuse = s.fuse

/-- No meaning touches the queue: after a step it is the queue without its front. -/
def Obligations.QueueIsFirstInFirstOut : Prop := ∀ s t : State, step s = .next t → t.pending = s.pending.tail

/-- On a hub that does not answer no row acts but those of the pins and, while PD29 lives, of its sensors. -/
def Obligations.DeadHubDoesNothing : Prop :=
  ∀ (i : Instr) (s : State), live s = false → Safety.pinRow i = false → Safety.sensorRow i = false ∨ aon s = false →
    exec i s = .next (Safety.fresh s)

/-- A command packet of each row waits, is answered BUSY as the ninth over MCTP, or is refused by its header (order of the checks: log
entry 6). -/
def Obligations.PacketRowsWaitOrRefuse : Prop :=
  ∀ (i : Instr) (s : State) (op : Nat) (c : Packet), Safety.packetRow i = some (op, c) → live s = true →
    (canStart s op c = false → exec i s = .next (Safety.fresh s)) ∧
    (canStart s op c = true → Safety.ninth s op c → Safety.Ends i s op c (Safety.begun s op c) (.done .busy 0 none none)) ∧
    (∀ st d, canStart s op c = true → ¬ Safety.ninth s op c → headerRefusal s op (Safety.lensOf op) c = some (st, d) →
      Safety.Ends i s op c (Safety.begun s op c) (.done st d none none))

/-- The only commands that move TURN_COUNT, and how. -/
def Obligations.OnlyTicksAndMarkersMoveTheTurn : Prop :=
  (∀ (i : Instr) (s t : State), exec i s = .next t → i ≠ .turnTick → (∀ l m, i ≠ .turnMarker l m) → (∀ e, i ≠ .pwrokRise e) →
    t.turn.count = s.turn.count) ∧
  (∀ s t : State, exec .turnTick s = .next t →
    t.turn.count =
      if s.pins.pwrok = true ∧ (live s = true → s.turn.kNow = 0) then (s.turn.count + 1) % 2 ^ 48 else s.turn.count) ∧
  (∀ (l : Fin 64) (m : Marker) (s t : State), exec (.turnMarker l m) s = .next t →
    t.turn.count = s.turn.count ∨ t.turn.count = m.turn % 2 ^ 48) ∧
  (∀ (env : BootEnv) (s t : State), s.pins.pwrok = false → exec (.pwrokRise env) s = .next t → t.turn.count = 0)

/-- A cold start: what is kept, what is cleared, and where the sequence stands while WARM_RST# is low. -/
def Obligations.ColdStartLeavesResetState : Prop :=
  ∀ (env : BootEnv) (s : State),
    (s.pins.pwrok = false → s.pins.warmLow = true →
      ∃ t, exec (.pwrokRise env) s = .next t ∧ t.pins.pwrok = true ∧ t.boot.ready = false ∧ t.boot.step = 1 ∧
        t.fuse = s.fuse ∧ t.otp = s.otp ∧ t.fw.bank = s.fw.bank ∧ t.ledger = Ledger.reset ∧ t.mem = Mem.reset ∧
        t.sec.warrants = [] ∧ t.sec.nonce = env.entropy % 2 ^ 64 ∧ t.power.on = [29] ∧ t.pending = s.pending) ∧
    (s.pins.pwrok = true → exec (.pwrokRise env) s = .next (Safety.fresh s)) ∧
    (s.pins.pwrok = false → s.pins.warmLow = false →
      ∃ t, exec (.pwrokRise env) s = .next (fromBank env false t) ∧ t.boot.step = 1 ∧ t.mem = Mem.reset ∧ t.fuse = s.fuse)

/-- The other edges of the reset pins. -/
def Obligations.ResetPinsStopAndRestart : Prop :=
  (∀ s : State, exec .pwrokFall s = .next { s with
      out := []
      pins := { s.pins with pwrok := false, thermtrip := false }
      power := { s.power with on := [] }
      fw := { s.fw with bank := s.fw.bank.map fun x =>
        (x.1, if x.2.erasing then { x.2 with erasing := false, cutShort := true } else x.2) } }) ∧
  (∀ s : State, live s = true → ∃ t, exec .warmRstAssert s = .next t ∧ t.pins = { s.pins with warmLow := true } ∧
      t.boot = { s.boot with ready := false } ∧ t.turn = { s.turn with aligned := false, parent := none, holdover := true } ∧
      t.cmd.mctp = [] ∧ (∀ x ∈ t.cmd.chan, x.2.started = [] ∧ x.2.fetched = [] ∧ x.2.held = []) ∧
      t.mem = s.mem ∧ t.fuse = s.fuse ∧ t.otp = s.otp ∧ t.pending = s.pending) ∧
  (∀ s : State, live s = false → exec .warmRstAssert s = .next { s with out := [], pins := { s.pins with warmLow := true } }) ∧
  (∀ (env : BootEnv) (s : State), s.pins.warmLow = true → aon s = true →
      ∃ t u, exec (.warmRstRise env) s = .next u ∧ u = fromBank env true t ∧ t.pins.warmLow = false ∧ t.boot.ready = false ∧
        t.turn.count = s.turn.count ∧ t.ledger = s.ledger ∧ t.sec.warrants = s.sec.warrants ∧ t.sec.nonce = s.sec.nonce ∧
        t.fuse = s.fuse ∧ t.otp = s.otp ∧ t.fw.bank = s.fw.bank ∧ t.mem.retired = s.mem.retired ∧ t.mem.cells = [] ∧
        u.turn.count = s.turn.count ∧ u.fuse = s.fuse ∧ u.pending = s.pending ∧
        ∀ n, s.otp.sealBits.getLsbD n = true → u.otp.sealBits.getLsbD n = true) ∧
  (∀ (env : BootEnv) (s : State), s.pins.warmLow = false ∨ aon s = false →
      exec (.warmRstRise env) s = .next { s with out := [], pins := { s.pins with warmLow := false } })

/-- The two steps of bring-up that decide whether the hub comes to READY. -/
def Obligations.BringUpFindsBankOrRecovers : Prop :=
  (∀ (env : BootEnv) (warm : Bool) (s : State),
    let t := { s with boot := { s.boot with step := 2, stepTime := s.boot.stepTime.put 2 (min (env.stepTimes.getD 1 0) (2 ^ 32 - 1)) } }
    let u := checkSeal t
    let b := u.boot.bank
    fromBank env warm s =
      if bankGood u warm b = true then fromCores env (takeMeasures u)
      else if bankGood u warm (1 - b) = true then
        fromCores env (takeMeasures (record { u with boot := { u.boot with bank := 1 - b, fallback := true } } { cls := 0xB1, kind := 10 }))
      else takeMeasures (record { u with boot := { u.boot with recovery := true } } { cls := 0xB2, kind := 10 })) ∧
  (∀ s : State, let u := coldCauses (mapArrays s)
    ((∀ x ∈ arrayMap s, x.2.isSome) → ∃ n, decideReady s = event { u with boot := { u.boot with ready := true, time := n } } 0) ∧
    ((∃ x ∈ arrayMap s, x.2 = none) → ∃ la, (la, none) ∈ arrayMap s ∧
      decideReady s = addCause (record { u with boot := { u.boot with blocked := true } } { cls := 0x19, d0 := la }) 4))

/-- The array map is injective, and into the good arrays. -/
def Obligations.ArrayMapIsInjective : Prop :=
  ∀ s : State, ((arrayMap s).filterMap Prod.snd).Nodup ∧ (∀ la p, (la, some p) ∈ arrayMap s → goodArray s p = true) ∧
    (arrayMap s).map Prod.fst = List.range 256

/-- The bucket clock and the stretching of a Turn. -/
def Obligations.BucketsAndStretchSegments : Prop :=
  ∀ s : State, live s = true →
    (s.turn.bucket < 127 → Safety.Gives .bucketBoundary s
      (serveArrivals (bucketLevels (startBucket { Safety.fresh s with turn := { s.turn with bucket := s.turn.bucket + 1 } })))) ∧
    (127 ≤ s.turn.bucket → s.turn.kNow ≠ 0 →
      let units := s.turn.kNow * s.turn.u * s.set.bucketLen
      let u : TurnUnit := { s.turn with
        inStretch := true, forwarded := [], commit := false, kNow := 0, kSum := s.turn.kSum + s.turn.kNow,
        stretchNow := s.turn.stretchNow + units, elapsed := s.turn.elapsed + units,
        stretches := if s.turn.kSum = 0 then satAdd 32 s.turn.stretches 1 else s.turn.stretches,
        stretchTime := satAdd 32 s.turn.stretchTime units }
      Safety.Gives .bucketBoundary s
        (serveArrivals (stretchLevels (startBucket (event
          (record { Safety.fresh s with turn := u } { cls := 0x01, d0 := s.turn.kNow + s.turn.kHub * 256 }) 10)) units))) ∧
    (127 ≤ s.turn.bucket → s.turn.kNow = 0 → Safety.Gives .bucketBoundary s (serveArrivals (Safety.fresh s))) ∧
    (∀ n, n ≠ 0 → let k := min 255 (ceilDiv n (max 1 (s.turn.u * s.set.bucketLen)))
      Safety.Gives (.stretchDecision n) s
        (sendStretch (takeStretch (Safety.fresh s) k s.turn.count s.leat.hub) none k s.turn.count s.leat.hub)) ∧
    Safety.Gives (.stretchDecision 0) s (Safety.fresh s) ∧
    (∀ (l : Fin 64) (k : Fin 256) (turn hub : Nat), (linkOf s l).state = .inService →
      ((∃ x ∈ s.turn.forwarded, x.1 = turn ∧ k.val ≤ x.2) →
        Safety.Gives (.stretchRequest l k turn hub) s (takeStretch (Safety.fresh s) k turn hub)) ∧
      ((∀ x ∈ s.turn.forwarded, x.1 = turn → x.2 < k.val) →
        Safety.Gives (.stretchRequest l k turn hub) s
          (sendStretch (takeStretch (Safety.fresh s) k turn hub) (some l.val) k turn hub)))

/-- The commit window. -/
def Obligations.CommitWindowOpensOnce : Prop :=
  ∀ s : State, live s = true →
    (s.turn.commit = false → Safety.Gives .commitWindow s
      (endGroups (releaseInputs (applyDue { Safety.fresh s with turn := { s.turn with commit := true } } (s.turn.count + 1))) 0)) ∧
    (s.turn.commit = true → Safety.Gives .commitWindow s (Safety.fresh s)) ∧
    (s.turn.kNow = 0 →
      let t := nextTurn (deadlocks (openCommit (Safety.fresh s)))
      let u := beginMoves (housekeeping (computeSysMin (rejoinLinks (dueNow t))))
      Safety.Gives .turnTick s
        (serveArrivals (wantKeys (turnLevels (startBucket (planWorks.foldl tidyJobs u)) (s.turn.kSum ≠ 0))))) ∧
    (s.turn.kNow ≠ 0 → Safety.Gives .turnTick s (serveArrivals (enterStretch (Safety.fresh s))))

/-- What the Headrace protocol's events do. -/
def Obligations.HeadraceEventsElect : Prop :=
  (∀ s : State, live s = true →
    (s.turn.isHeadrace = false → coupled s = true → Safety.Gives .markerLoss s
      (enterHoldover { Safety.fresh s with turn := { s.turn with heard := [], heardLast := [] } })) ∧
    (s.turn.isHeadrace = false → Safety.Gives .headraceTimeout s (elect (forgetHead (Safety.fresh s) s.turn.headrace))) ∧
    (s.turn.isHeadrace = true → Safety.Gives .headraceTimeout s (Safety.fresh s)) ∧
    (∀ (l : Fin 64) (m : Marker), (linkOf s l).state = .inService →
      (m.protoMax < s.set.protoFloor → Safety.Gives (.turnMarker l m) s (excludeLink (Safety.fresh s) l 4 0x6B)) ∧
      (s.set.protoFloor ≤ m.protoMax →
        let t := elect { Safety.fresh s with turn := { s.turn with heard := s.turn.heard.put l (m.hops, m.sysMin, m.headrace) } }
        (t.turn.parent = some l.val → Safety.Gives (.turnMarker l m) s (parentMarker t m)) ∧
          (t.turn.parent ≠ some l.val → Safety.Gives (.turnMarker l m) s (otherMarker t l m))))) ∧
  (∀ s : State, aon s = true →
    let after := fun (u : State) => if srcHealthy s = srcHealthy u ∨ s.pins.warmLow = true then u else elect u
    let edges := fun (n : Nat) (o : Int) =>
      { Safety.fresh s with turn := { s.turn with edges := n, inOffset := if s.turn.src = 2 then o else s.turn.inOffset } }
    (∀ (p : Nat) (o : Int), edgeGood s p = true → Safety.Gives (.turnInEdge p o) s (after (edges (min 16 (s.turn.edges + 1)) o))) ∧
    (∀ (p : Nat) (o : Int), edgeGood s p = false → Safety.Gives (.turnInEdge p o) s (after (edges 0 o))) ∧
    Safety.Gives .turnInEdgeMissing s (after { Safety.fresh s with turn := { s.turn with edges := 0 } }) ∧
    Safety.Gives .serdesRefclkLoss s (after { Safety.fresh s with turn := { s.turn with refclk := false } }) ∧
    Safety.Gives .serdesRefclkReturn s (after { Safety.fresh s with turn := { s.turn with refclk := true } }))

/-- The measured record of the last Turn, and the landing of posted writes. -/
def Obligations.TurnRecordAndPostedWrites : Prop :=
  (∀ (s : State) (c : Packet), Safety.Accepts s 0x0701 c → Safety.zeroFrom c 3 → hostAddrOk c c.p0.toNat = true →
    1040 ≤ c.p1.toNat → c.p2.toNat < 16 → (partOf c = 0 ∨ c.p2 = 0xF#64 ∨ c.p2.toNat = partOf c) →
    let p := if c.p2 = 0xF#64 then partOf c else c.p2.toNat
    ∀ ver n st, s.turn.lastRecord.getD (s.glob.tariffVer, 0, 0) = (ver, n, st) →
      Safety.Ends (.turnRecordRead c) s 0x0701 c { Safety.begun s 0x0701 c with fresh := s.fresh + 2048 * 128 }
        (output n c.p0.toNat (leBytes 4 ver ++ leBytes 6 n ++ leBytes 2 (min st 65535) ++ leBytes 4 0 ++
          (List.range 128).flatMap (recordEntry (Safety.begun s 0x0701 c) p)))) ∧
  (∀ (b : PostedBlock) (s : State), live s = true →
    let t := { Safety.fresh s with glob := { s.glob with posted := s.glob.posted.filter fun x => x.1 ≠ b } }
    let u := (s.glob.posted.filter fun x => x.1 = b).foldl (fun a x => landWrite a x.2.1 x.2.2) t
    Safety.Gives (.postedWriteLand b) s (serveArrivals (if srcHealthy t = srcHealthy u ∨ t.pins.warmLow then u else elect u)))

/-- The vectors of a function: what masks them, and when those that wait are sent. -/
def Obligations.HostVectorsAndPowerStates : Prop :=
  (∀ (s : State) (f : Fin 17), Safety.FabricUp s → fnExists s f = true →
    (∀ what, Safety.Gives (.msixUnmask f what) s (sendPending (setFunc (Safety.fresh s) f (clearMask (func s f) what)) f)) ∧
    Safety.Gives (.d3hotEntry f) s (setFunc (Safety.fresh s) f { func s f with d3 := true }) ∧
    Safety.Gives (.d0Return f) s (sendPending (setFunc (Safety.fresh s) f { func s f with d3 := false }) f)) ∧
  (∀ (s : State) (f : Fin 17), (func s f).d3 = true → sendPending s f = s) ∧
  (∀ (s : State) (f : Fin 17), (func s f).d3 = false → (func s f).msixEn = true → (func s f).fnMask = false →
    (sendPending s f).out = s.out ++ (((func s f).msix.filter fun x => x.2.pending && !x.2.masked).map fun x =>
      Output.msix f x.2.addr x.2.data) ∧
    (func (sendPending s f) f).msix =
      (func s f).msix.map fun x => if x.2.masked = true then x else (x.1, { x.2 with pending := false }))

/-- The host link and what resets a function. -/
def Obligations.HostLinkAndResets : Prop :=
  ∀ s : State, live s = true →
    (hostUp s = true →
      let t := resetFunctions { Safety.fresh s with
        host := { s.host with rate := 0, width := 0, flit := false, downs := satAdd 16 s.host.downs 1 } }
      Safety.Gives .hostLinkDown s (refuseReads (record t { cls := 0x80, kind := 8 }) fun _ => true)) ∧
    (hostUp s = false → Safety.Gives .hostLinkDown s (Safety.fresh s)) ∧
    (∀ (rate : Fin 4) (width : Nat) (flit : Bool), hostUp s = false → rate ≠ 0 → 1 ≤ width → width ≤ 16 →
      s.host.mayTrain = true → s.pins.perstLow = false →
      let t := { Safety.fresh s with
        host := { s.host with rate := rate, width := width, flit := flit }
        plans := { s.plans with hostRec := (rate.val, width) }
        glob := { s.glob with tariffDirty := s.glob.tariffDirty || decide (s.plans.hostRec ≠ (rate.val, width)) } }
      Safety.Gives (.hostLinkUp rate width flit) s
        (if rate = 3 ∧ width = 16 then t else record t { cls := 0x81, kind := 8 })) ∧
    Safety.Gives .perstAssert s (linkLost { Safety.fresh s with pins := { s.pins with perstLow := true } }) ∧
    Safety.Gives .perstDeassert s { Safety.fresh s with pins := { s.pins with perstLow := false } } ∧
    (domainOn s 28 = true →
      Safety.Gives (.functionLevelReset 0) s
        (record (refuseReads (resetFunctions (Safety.fresh s)) fun q => q.fn ≠ 0) { cls := 0x87, kind := 8, index := 0 }) ∧
      (∀ f : Fin 17, f ≠ 0 → fnExists s f = true →
        Safety.Gives (.functionLevelReset f) s (record (resetFn (Safety.fresh s) f) { cls := 0x87, kind := 8, index := f })) ∧
      (∀ (en : Bool) (n : Nat), n ≤ 16 →
        let t := { Safety.fresh s with host := { s.host with vfEnable := en, numVfs := n } }
        let gone := (List.range 17).filter fun f => fnExists s f && !fnExists t f
        Safety.Gives (.vfEnableWrite en n) s (refuseReads (gone.foldl resetFn t) fun q => gone.contains q.fn))) ∧
    (∀ code, s.host.memSpace = false → 16 ≤ code → code ≤ 19 →
      Safety.Gives (.resizableBarWrite code) s { Safety.fresh s with host := { s.host with barLog2 := code + 20 } }) ∧
    ∀ code, s.host.memSpace = true ∨ code < 16 ∨ 19 < code → Safety.Gives (.resizableBarWrite code) s (Safety.fresh s)

/-- Host accesses to memory, and the hub's reads of host memory. -/
def Obligations.HostAccessesAndReads : Prop :=
  (∀ (s : State) (f : Fin 17), Safety.FabricUp s → fnExists s f = true →
    (∀ off len, off + len ≤ 2 ^ bar4Log2 s f →
      Safety.Gives (.hostBar4Read f off len) s (arrive (Safety.fresh s) (bar4Req s f .read off len [] false))) ∧
    ∀ (off : Nat) (d : Bytes) (poison : Bool), off + d.length ≤ 2 ^ bar4Log2 s f →
      let t := if poison then record (Safety.fresh s) { cls := 0x84, kind := 8, index := f, part := some (srcPart f) } else Safety.fresh s
      Safety.Gives (.hostBar4Write f off d poison) s (arrive t (bar4Req t f .write off 0 d poison))) ∧
  (∀ (s : State) (f : Fin 17) (r : MemReq), r.issuer = .host f →
    let t := memoryRequest { s with out := [] } r
    let u := { t with out := s.out ++ if r.kind = .write then t.out.filter fun x => !isAnswer x else t.out }
    serveFor s r = if .errorCompletion ∈ t.out then
      recordCount u { cls := 0x85, kind := 8, index := f, part := some r.part, addr := r.addr } else u) ∧
  ∀ (s : State) (tag de : Nat) (r : DmaRun) (q : HostReq), live s = true →
    (hostRead s tag = some (de, r, q) →
      (∀ d, Safety.Gives (.hostReadCompletion tag (.data d)) s (readArrives (Safety.fresh s) de r q (marked d false))) ∧
      (∀ d, Safety.Gives (.hostReadCompletion tag (.poisoned d)) s
        (readArrives (record (Safety.fresh s) (hostRec 0x84 r q)) de r q (marked d true))) ∧
      Safety.Gives (.hostReadCompletion tag .refused) s (reqRefused (record (Safety.fresh s) (hostRec 0x83 r q)) de r q) ∧
      Safety.Gives (.hostReadTimeout tag) s (reqRefused (record (Safety.fresh s) (hostRec 0x82 r q)) de r q)) ∧
    (hostRead s tag = none → Safety.Gives (.hostReadTimeout tag) s (Safety.fresh s) ∧
      ∀ c, Safety.Gives (.hostReadCompletion tag c) s (Safety.fresh s))

/-- The data object mailbox and SPDM. -/
def Obligations.DataObjectsAndSpdm : Prop :=
  (∀ s : State, Safety.FabricUp s →
    let answer := fun (u : State) (d : Bytes) => emit { u with host := { u.host with doe := some d } } (.spdm true d)
    (∀ obj : Bytes, 16384 < obj.length →
      Safety.Gives (.doeRequest obj) s (emit (record (Safety.fresh s) { cls := 0x88, kind := 8 }) .doeError)) ∧
    (∀ obj : Bytes, obj.length ≤ 16384 →
      (rd obj 0 3 = 1 → Safety.Gives (.doeRequest obj) s (answer (Safety.fresh s) (doeDiscovery (rd obj 8 1)))) ∧
      (rd obj 0 3 = 0x10001 → Safety.Gives (.doeRequest obj) s
        (answer (takeFresh (Safety.fresh s)) (Config.spdmAnswer true (measurements (Safety.fresh s) ++ [s.fresh]) obj))) ∧
      (rd obj 0 3 ≠ 1 → rd obj 0 3 ≠ 0x10001 → Safety.Gives (.doeRequest obj) s (Safety.fresh s))) ∧
    Safety.Gives .doeAbort s (record { Safety.fresh s with host := { s.host with doe := none } } { cls := 0x88, kind := 8 })) ∧
  ∀ (s : State) (msg : Bytes), live s = true → Safety.Gives (.mctpSpdmMessage msg) s
    (emit (takeFresh (Safety.fresh s)) (.spdm false (Config.spdmAnswer false (measurements (Safety.fresh s) ++ [s.fresh]) msg)))

/-- The sequencer of a logical array. -/
def Obligations.ArrayDescriptorsRun : Prop :=
  ∀ (s : State) (la : Fin 256), live s = true →
    (arrayUp s la = true →
      let t := arrangeArray (Safety.fresh s) la
      arrayUp t la = true → (logArr t la).run = none →
      ∀ j p sl n k d corrected, arrayJob t la = some j → jobPlan t j = some (p, sl, n) → arrayNext t j = some (k, d) →
        (∀ h, d.b = .shoeHead h → (shoeOf t la j).isSome = true → Safety.Gives (.arrayDescStart ⟨la, corrected⟩) s (startHead t la p.part j d h sl.descs n)) ∧
        ((∀ h, d.b = .shoeHead h → shoeOf t la j = none) → ∀ t1 g, gate (wakeJob t (.array la) j) (.array la) d.c p.part none = (t1, g) →
          (g = .wait → Safety.Gives (.arrayDescStart ⟨la, corrected⟩) s t1) ∧
          (g = .skip → Safety.Gives (.arrayDescStart ⟨la, corrected⟩) s (skipArray t1 la p.part j d n)) ∧
          (∀ h, g = .go → d.b = .shoeHead h → Safety.Gives (.arrayDescStart ⟨la, corrected⟩) s (startHead t1 la p.part j d h sl.descs n)) ∧
          (g = .go → (∀ h, d.b ≠ .shoeHead h) → Safety.Gives (.arrayDescStart ⟨la, corrected⟩) s (startArray t1 la p.part j d n corrected)))) ∧
    (∀ r, arrayUp s la = true → (logArr s la).run = some r → (∀ j, jobNow s (.array la) r.job = some j → j.suspended = false) →
      Safety.Gives (.arrayDescComplete la) s (arrangeArray (endArray (Safety.fresh s) la r) la)) ∧
    (∀ j p sl n x, arrayUp s la = true → (logArr s la).run = none → arrayJob s la = some j → jobPlan s j = some (p, sl, n) →
      arrayNext s j = none → shoeOf s la j = some x → x.batch ≠ [] →
      Safety.Gives (.shoeBatchComplete la) s (arrangeArray (endBatch (Safety.fresh s) la p.part x) la)) ∧
    ∀ r pa cycles copied, (logArr s la).phys = some pa → (logArr s la).replay = true → (logArr s la).held = false →
      domainOn s (domOfArray pa) = true → (logArr s la).run = some r →
      (∀ j, jobNow s (.array la) r.job = some j → j.suspended = false) →
      Safety.Gives (.replayComplete la cycles copied) s
        (record (replayRun (setLog (Safety.fresh s) la { logArr s la with replay := false }) la r)
          { cls := 0x18, kind := 1, index := pa, part := some r.part, d0 := la, d1 := pa, d2 := cycles, d3 := copied })

/-- What SHOE_SUBMIT does to the queues of an intake area. In the commit window the record waits: the model's choice, log entry 81. -/
def Obligations.ShoeRowsAreAcceptedOrRefused : Prop :=
  ∀ (s : State) (w : ShoeWrite), Safety.FabricUp s →
    (s.turn.commit = true → Safety.Gives (.shoeSubmit w) s (enqueue (Safety.fresh s) (.shoe w) [] true true)) ∧
    (s.turn.commit = false →
      (∀ c, shoeFault s w.la w.off w.part w.bytes = some c → ∃ t, Safety.Gives (.shoeSubmit w) s t ∧
        t = emit (record (Safety.fresh s) (shoeRec s c w.la w.part)) .errorCompletion ∧
        ∀ la p, shoeQueue t la p = shoeQueue s la p) ∧
      (shoeFault s w.la w.off w.part w.bytes = none → ∃ t row, Safety.Gives (.shoeSubmit w) s t ∧ t.out = [.ack] ∧
        row.reqId = rd w.bytes 0 4 ∧ row.turn = now s ∧
        shoeQueue t w.la w.part = insRow row (shoeQueue s w.la w.part) ∧ (shoeQueue t w.la w.part).length ≤ 255 ∧
        ((shoeQueue s w.la w.part).Pairwise (fun a b => b.before a = false) →
          (shoeQueue t w.la w.part).Pairwise (fun a b => b.before a = false)) ∧
        (∀ la p, la ≠ w.la.val ∨ p ≠ w.part.val → shoeQueue t la p = shoeQueue s la p)))

/-- A physical array fails, is tested and patrolled. -/
def Obligations.ArrayFaultsQuarantineAndSubstitute : Prop :=
  ∀ (s : State) (pa : Fin 288), live s = true → domainOn s (domOfArray pa) = true →
    (∀ f where1, (physArr s pa).state = .carrying →
      let la := (physArr s pa).la
      let t := record (Safety.fresh s) (faultRec s la pa f where1)
      let u := setLog t la { logArr t la with run := (logArr t la).run.map fun r => { r with replayed := true } }
      let v := substitute (quarantine u pa) la pa
      Safety.Gives (.arrayFault pa f where1) s (if f = .binEccLost then loseLine v la where1 else v)) ∧
    ((physArr s pa).state = .quarantined ∨ (physArr s pa).state = .testing → inTailrace s = true → servicePause s = false →
      Safety.Gives (.retestComplete pa false) s (retire (Safety.fresh s) pa 0) ∧
      (1 < (physArr s pa).faults → Safety.Gives (.retestComplete pa true) s (retire (Safety.fresh s) pa 1)) ∧
      ((physArr s pa).faults ≤ 1 →
        let t := setPhys (Safety.fresh s) pa { physArr s pa with state := .spare, epoch := ((physArr s pa).epoch + 1) % 256 }
        Safety.Gives (.retestComplete pa true) s (spareJoins (record t { cls := 0x99, kind := 1, index := pa, d0 := 1 })))) ∧
    ((physArr s pa).state = .spare →
      Safety.Gives (.patrolDue pa) s (setPhys (Safety.fresh s) pa { physArr s pa with patrol := true }) ∧
      ((physArr s pa).patrol = true → inTailrace s = true → servicePause s = false →
        let t := setPhys (Safety.fresh s) pa { physArr s pa with patrol := false }
        Safety.Gives (.patrolComplete pa true) s (spareJoins (record t { cls := 0x99, kind := 1, index := pa, d0 := 2 })) ∧
        Safety.Gives (.patrolComplete pa false) s (sparesChanged (retire t pa 2))))

/-- The engines. -/
def Obligations.EngineDescriptorsRun : Prop :=
  ∀ (s : State) (de : Fin 64), live s = true →
    (domainOn (arrangeEngine (Safety.fresh s) de) 28 = true →
      let t := arrangeEngine (Safety.fresh s) de
      (∀ r, planRun t de = some r →
        (isTransfer r.desc = true → Safety.Gives (.dmaDescStart de) s (offer t de r)) ∧
        (isRed r.desc = true → Safety.Gives (.reductionDescStart de) s (offer t de r))) ∧
      (∀ r, planRun t de = none → queuedRun t de = some r → Safety.Gives (.dmaDescStart de) s (offer t de r))) ∧
    (∀ r guard off, pickRun s de (fun _ => true) = some r → ∀ t q,
      refuseRun (if r.blocked then unblock (Safety.fresh s) de r.isCmd else Safety.fresh s) de
        { r with issued := r.issued.filter (fun x => x.dst ≠ off), blocked := false } guard off = (t, q) →
      Safety.Gives (.dmaRequestRefused de guard off) s (runAnswered t de q)) ∧
    (∀ r, pickRun s de (fun r => isTransfer r.desc && runDone s de r) = some r →
      Safety.Gives (.dmaDescComplete de) s (arrangeEngine (closeRun (Safety.fresh s) de r) de)) ∧
    ∀ r, (engine s de).run = some r → isRed r.desc = true → runDone s de r = true →
      Safety.Gives (.reductionDescComplete de) s (arrangeEngine (closeRun (Safety.fresh s) de r) de)

/-- The gate of a descriptor. -/
def Obligations.OfferedDescriptorsWaitSkipOrRun : Prop :=
  ∀ (s : State) (w : Work) (c : Common) (p : Nat) (hub : Option Nat),
    (waitOf s w = .none → badRaise s p c hub = true → gate s w c p hub = (record s (tallyRec 0x53 c.raiseTally p), .skip)) ∧
    (waitOf s w = .none → badRaise s p c hub = false → c.waitEn = false → gate s w c p hub = (s, .go)) ∧
    (waitOf s w = .released → gate s w c p hub = (setWait s w .none, .go)) ∧
    (waitOf s w = .stale → gate s w c p hub = (setWait s w .none, .skip)) ∧
    (waitOf s w = .waiting → gate s w c p hub = (s, .wait)) ∧
    (waitOf s w = .none → badRaise s p c hub = false → c.waitEn = true →
      let t := fileWait s w c.waitTally c.waitN c.waitSub p
      gate s w c p hub =
        (if waitOf t w = .released then (setWait t w .none, .go)
        else if waitOf t w = .stale then (setWait t w .none, .skip)
        else (t, .wait)))

/-- The commands of the engines' queues. -/
def Obligations.EngineCommands : Prop :=
  (∀ (s : State) (c : Packet), Safety.Accepts s 0x0360 c → partOf c = 0 → Safety.zeroFrom c 2 →
    c.p0.toNat < 64 → c.p1.toNat < 16 → queueBusy s c.p0.toNat = false →
    Safety.Ends (.dmaQueueAssign c) s 0x0360 c
      (setEngine (Safety.begun s 0x0360 c) c.p0.toNat { engine s c.p0.toNat with owner := c.p1.toNat }) (okay c.p0.toNat)) ∧
  (∀ (s : State) (c : Packet) (l : List Desc), Safety.Accepts s 0x0361 c → Safety.zeroFrom c 3 →
    c.p0.toNat < 64 → (engine s c.p0.toNat).owner = partOf c → c.p1.toNat < 4096 → 1 ≤ c.p2.toNat → c.p2.toNat ≤ 256 →
    boundTo s c.p1.toNat (partOf c) = true → parseSubmit c.payload c.p2.toNat = some l →
    (engine s c.p0.toNat).queue.length + l.length ≤ 256 →
    let e := l.foldl (enqueueOne c.p1.toNat) (engine s c.p0.toNat)
    Safety.Ends (.dmaSubmit c) s 0x0361 c (setEngine (Safety.begun s 0x0361 c) c.p0.toNat e) (okay e.seq)) ∧
  (∀ (s : State) (c : Packet), Safety.zeroFrom c 1 → c.p0.toNat < 64 →
    partOf c = 0 ∨ (engine s c.p0.toNat).owner = partOf c →
    let e := engine s c.p0.toNat
    (Safety.Accepts s 0x0362 c →
      Safety.Ends (.dmaQueueRead c) s 0x0362 c (Safety.begun s 0x0362 c) (okay (e.doneSeq + e.queue.length * 2 ^ 32))) ∧
    (Safety.Accepts s 0x0363 c → headTaken e = false →
      Safety.Ends (.dmaFlush c) s 0x0363 c (setEngine (Safety.begun s 0x0363 c) c.p0.toNat { e with queue := [] })
        (okay e.queue.length)) ∧
    (Safety.Accepts s 0x0363 c → headTaken e = true →
      Safety.Ends (.dmaFlush c) s 0x0363 c
        (setEngine (Safety.begun s 0x0363 c) c.p0.toNat { e with queue := e.queue.take 1 }) (okay (e.queue.length - 1)))) ∧
  ∀ (ctx : Nat) (l : List Desc) (e : Engine),
    ((l.foldl (enqueueOne ctx) e).queue.drop e.queue.length).map CmdDesc.desc = l ∧
      (l.foldl (enqueueOne ctx) e).queue.take e.queue.length = e.queue

/-- An operation on a tally by a write of its word. -/
def Obligations.TallyWindowWrites : Prop :=
  ∀ (s : State) (q : TallyReq), live s = true →
    let v := tallyAt s q.tally
    let wrote := fun (v : Tally) => emit (evalWaiters (setTally (Safety.fresh s) q.tally v) q.tally).1 .ack
    let held := fun (v : Tally) (cls : Nat) =>
      emit (record (setTally (Safety.fresh s) q.tally v) (tallyRec cls q.tally q.part)) .ack
    let refused := fun (cls : Nat) => emit (record (Safety.fresh s) (tallyRec cls q.tally q.part)) .errorCompletion
    (∀ n, 1 ≤ n → n < 2 ^ 31 → q.width = 8 → mayTally s q.tally q.part = true → (q.remote = true → v.remoteOk = true) →
      (q.word.toNat = n + 2 ^ 32 →
        (v.value + n ≤ maxTally → Safety.Gives (.tallyAdd q) s (wrote { v with value := v.value + n })) ∧
        (maxTally < v.value + n → Safety.Gives (.tallyAdd q) s (held { v with overflow := true } 0x52))) ∧
      (q.word.toNat = n + 2 * 2 ^ 32 →
        (n ≤ v.value → Safety.Gives (.tallySub q) s (wrote { v with value := v.value - n })) ∧
        (v.value < n → Safety.Gives (.tallySub q) s (held { v with underflow := true } 0x51)))) ∧
    ((∀ n, 1 ≤ n → n < 2 ^ 31 → q.width = 8 → q.word.toNat ≠ n + 2 ^ 32) → Safety.Gives (.tallyAdd q) s (refused 0x53)) ∧
    ((∀ n, 1 ≤ n → n < 2 ^ 31 → q.width = 8 → q.word.toNat ≠ n + 2 * 2 ^ 32) → Safety.Gives (.tallySub q) s (refused 0x53)) ∧
    (∀ n, 1 ≤ n → n < 2 ^ 31 → q.width = 8 →
      (q.word.toNat = n + 2 ^ 32 →
        (q.remote = false → mayTally s q.tally q.part = false → Safety.Gives (.tallyAdd q) s (refused 0x53)) ∧
        (q.remote = true → v.remoteOk = false ∨ mayTally s q.tally q.part = false → Safety.Gives (.tallyAdd q) s (refused 0x54))) ∧
      (q.word.toNat = n + 2 * 2 ^ 32 →
        (q.remote = false → mayTally s q.tally q.part = false → Safety.Gives (.tallySub q) s (refused 0x53)) ∧
        (q.remote = true → v.remoteOk = false ∨ mayTally s q.tally q.part = false → Safety.Gives (.tallySub q) s (refused 0x54)))) ∧
    ∀ cls, (refused cls).tallies = s.tallies

/-- The waiters of a tally after its evaluation. -/
def Obligations.WaitersLeftStandAboveTheValue : Prop :=
  ∀ (s : State) (t : Nat), let u := (evalWaiters s t).1
    (∀ w ∈ waitersOn u t, (tallyAt u t).value < w.n) ∧ (tallyAt u t).value ≤ (tallyAt s t).value ∧
      (∀ k, k ≠ t → tallyAt u k = tallyAt s k ∧ waitersOn u k = waitersOn s k) ∧
      (∀ w ∈ waitersOn s t, w ∈ waitersOn u t ∨ waitOf u w.who = .released) ∧
      (evalWaiters s t).2 ≤ (waitersOn s t).length

/-- The commands of the tally memory. -/
def Obligations.TallyCommands : Prop :=
  (∀ (s : State) (c : Packet) (n part ctx : Nat) (far : Bool), Safety.Accepts s 0x0350 c → partOf c = 0 → Safety.zeroFrom c 3 →
    c.p1.toNat = n → 1 ≤ n → c.p0.toNat + n ≤ 16384 → part < 16 → ctx < 4096 →
    c.p2.toNat = part + ctx * 16 + (if far then 65536 else 0) → boundTo s ctx part = true →
    (∀ w ∈ s.tallies.waiters, w.tally < c.p0.toNat ∨ c.p0.toNat + n ≤ w.tally) →
    Safety.Ends (.tallyAssign c) s 0x0350 c
      (assignRun (Safety.begun s 0x0350 c) c.p0.toNat n
        { Tally.reset with part := part, ctx := ctx, assigned := true, remoteOk := far }) (okay n)) ∧
  (∀ (s : State) (c : Packet), Safety.Accepts s 0x0351 c → Safety.zeroFrom c 3 → 1 ≤ c.p2.toNat →
    c.p1.toNat + c.p2.toNat ≤ 16384 →
    Safety.Ends (.tallyRead c) s 0x0351 c (Safety.begun s 0x0351 c)
      (output c.p2.toNat c.p0.toNat ((upto c.p1.toNat c.p2.toNat).flatMap fun t =>
        leBytes 8 (if mayTally s t (partOf c) = true then tallyWord s t else 0)))) ∧
  ∀ (s : State) (c : Packet), Safety.Accepts s 0x0352 c → Safety.zeroFrom c 2 → c.p0.toNat < 16384 → c.p1.toNat ≤ maxTally →
    (mayTally s c.p0.toNat (partOf c) = true → ∀ t n, tallySetTo (Safety.begun s 0x0352 c) c.p0.toNat c.p1.toNat = (t, n) →
      Safety.Ends (.tallySet c) s 0x0352 c t (okay n)) ∧
    (mayTally s c.p0.toNat (partOf c) = false →
      Safety.Ends (.tallySet c) s 0x0352 c (record (Safety.begun s 0x0352 c) (tallyRec 0x53 c.p0.toNat (partOf c))) denied)

/-- Operations on mint cells, as Table 5-2 gives them by state. -/
def Obligations.MintCellsFollowTheirTable : Prop :=
  (∀ (s : State) (q : AtomReq), Safety.FabricUp s → atomFault s q = none → conflicts s q.addr 1 true = [] →
    let c := cellAt s q.addr
    let z := noteBusy (Safety.fresh s) { type := 5, index := sliceOf (q.addr / 128) } q.part
    let becomes := fun (d : Cell) =>
      let t := setCell z q.addr d
      emit (match cellClass c d with | some k => record t (atomRec k q) | none => t) .ack
    (∀ a, Safety.Gives (.mintInit q a) s (becomes (if c.state = 1 then c.fail 3 else Cell.fresh (sext 16 (unsext 16 a))))) ∧
    (∀ w, Safety.Gives (.mintAdd q w) s
      (becomes (if c.state = 1 then c.addOpen (normWord w) else if c.state = 3 then c else c.fail 2))) ∧
    (∀ w, Safety.Gives (.cellPut q w none) s (becomes (c.put w))) ∧
    (∀ w e, Safety.Gives (.cellPut q w (some e)) s
      (emit (setCell (noteErrPacket z q) q.addr (if c.state = 3 then c else c.fail 4)) .ack)) ∧
    (c.state = 1 ∨ c.state = 2 →
      Safety.Gives (.mintRead q) s (emit (setCell z q.addr c.sealUp) (.readData c.shown.bytes []))) ∧
    (c.state = 0 ∨ c.state = 3 →
      Safety.Gives (.mintRead q) s (emit (record (setCell z q.addr c) (atomRec 0x2A q)) (.readData c.shown.bytes [])))) ∧
  (∀ (s : State) (q : AtomReq) (k : Nat), Safety.FabricUp s → atomFault s q = some k →
    let no := refuse (Safety.fresh s) k q.part q.addr
    (∀ a, Safety.Gives (.mintInit q a) s no) ∧ (∀ w, Safety.Gives (.mintAdd q w) s no) ∧ Safety.Gives (.mintRead q) s no ∧
      ∀ w e, Safety.Gives (.cellPut q w e) s no) ∧
  ∀ (s : State) (p : Fin 16) (b : Bytes), Safety.FabricUp s →
    let z := Safety.fresh s
    (MintPkt.ofBytes b = none →
      Safety.Gives (.mintTransferPacket p b) s (emit (record z { cls := 0x2B, kind := 3, part := some p }) .errorCompletion)) ∧
    ∀ k, MintPkt.ofBytes b = some k → conflicts s (localOf k.dst) (64 * k.words.length) true = [] →
      ∀ t causes, applyPacket z (packetReq p (localOf k.dst)) k = (t, causes) →
        Safety.Gives (.mintTransferPacket p b) s (emit t (match causes with | some n => .mintAck n | none => .errorCompletion))

/-- The order of two adds does not show, where nothing is clamped. -/
def Obligations.MintAddsCommute : Prop :=
  ∀ (c : Cell) (v w : MintWord), c.state = 1 →
    let scaled := fun (lo : Int) (x : Int × Int) => x.1 * 2 ^ (x.2 - lo).toNat
    let cc : Int × Int := (c.value, c.aCur)
    let vv : Int × Int := ((normWord v).value, (normWord v).anchor)
    let ww : Int × Int := ((normWord w).value, (normWord w).anchor)
    let lo := min (min cc.2 vv.2) ww.2
    let inRange := fun (n : Int) => -2 ^ 287 ≤ n ∧ n < 2 ^ 287
    inRange (scaled (min cc.2 vv.2) cc + scaled (min cc.2 vv.2) vv) →
    inRange (scaled (min cc.2 ww.2) cc + scaled (min cc.2 ww.2) ww) →
    inRange (scaled lo cc + scaled lo vv + scaled lo ww) →
    (((c.add v).add w).state = 3 ∧ ((c.add v).add w).cause = 1 ∧ ((c.add w).add v).state = 3 ∧ ((c.add w).add v).cause = 1) ∨
      (c.add v).add w = (c.add w).add v

/-- The maximum and the minimum of two FP32 or BF16 encodings. -/
def Obligations.FmaxFminPickTheNumber : Prop :=
  ∀ (bf16 : Bool) (a b : Nat),
    let w := if bf16 then 16 else 32
    let m := if bf16 then 7 else 23
    let isNan := fun (x : Nat) => decide (x % 2 ^ (w - 1) > 255 * 2 ^ m)
    let place := fun (x : Nat) => if x < 2 ^ (w - 1) then (x : Int) else (2 ^ (w - 1) : Int) - x - 1
    a < 2 ^ w → b < 2 ^ w →
      (isNan a = true ∨ isNan b = true →
        ∀ isMax, pickBits isMax bf16 a b = if bf16 then 0x7FC0 else 0x7FC00000) ∧
      (isNan a = false → isNan b = false →
        pickBits true bf16 a b = (if place a ≤ place b then b else a) ∧
        pickBits false bf16 a b = (if place a ≤ place b then a else b))

/-- Atomic operations on elements. -/
def Obligations.ElementAtomicsReadAndWrite : Prop :=
  (∀ (s : State) (q : AtomReq), Safety.FabricUp s → atomFault s q = none → conflicts s q.addr 1 true = [] →
    let z := noteBusy (Safety.fresh s) { type := 5, index := sliceOf (q.addr / 128) } q.part
    let old := fun (n : Nat) => leVal ((memRead s q.addr n).map Prod.fst)
    let bad := fun (n : Nat) => (memRead s q.addr n).any Prod.snd
    let wrote := fun (n v : Nat) => memWrite z q.addr (marked (leBytes n v) (bad n))
    let answer := fun (n : Nat) => if bad n = true then Output.readData (leBytes n (old n)) [true] else .value (old n)
    (∀ w64 v, let n := if w64 then 8 else 4
      Safety.Gives (.iadd q w64 v) s (emit (wrote n ((old n + v) % 2 ^ (8 * n))) .ack) ∧
      Safety.Gives (.iaddFetch q w64 v) s (emit (wrote n ((old n + v) % 2 ^ (8 * n))) (answer n))) ∧
    (∀ w64 cmp new, let n := if w64 then 8 else 4
      Safety.Gives (.cas q w64 cmp new) s
        (emit (wrote n (if old n = cmp % 2 ^ (8 * n) then new % 2 ^ (8 * n) else old n)) (answer n))) ∧
    ∀ bf16 v, let n := if bf16 then 2 else 4
      Safety.Gives (.fmax q bf16 v) s (emit (wrote n (pickBits true bf16 (old n) (v % 2 ^ (8 * n)))) .ack) ∧
      Safety.Gives (.fmin q bf16 v) s (emit (wrote n (pickBits false bf16 (old n) (v % 2 ^ (8 * n)))) .ack)) ∧
  ∀ (s : State) (q : AtomReq) (k : Nat), Safety.FabricUp s → atomFault s q = some k →
    let no := refuse (Safety.fresh s) k q.part q.addr
    no.mem = s.mem ∧ (∀ w v, Safety.Gives (.iadd q w v) s no ∧ Safety.Gives (.iaddFetch q w v) s no) ∧
      (∀ w c n, Safety.Gives (.cas q w c n) s no) ∧ ∀ b v, Safety.Gives (.fmax q b v) s no ∧ Safety.Gives (.fmin q b v) s no

/-- A request goes where its address lies. -/
def Obligations.MemoryRequestsReachTheirPlace : Prop :=
  ∀ (s : State) (r : MemReq), Safety.FabricUp s →
    let z := Safety.fresh s
    let q : MemReq := { r with addr := localOf r.addr }
    let asks := fun (t : State) => Safety.Gives (.memoryAccess r) s t
    (∀ t, Safety.Gives (.rdCur r) s t ↔ Safety.Gives (.memoryAccess { r with kind := .read }) s t) ∧
    (∀ t, Safety.Gives (.wrInv r) s t ↔ Safety.Gives (.memoryAccess { r with kind := .write }) s t) ∧
    (hubOf r.addr ≠ 0 → hubOf r.addr ≠ s.leat.hub → asks (sendAbroad z r)) ∧
    (classFor s.set r.part (issuerShare r.issuer r.share) = none → reqFault s q = some (0x34, q.addr)) ∧
    (∀ c, (classFor s.set r.part (issuerShare r.issuer r.share)).isSome = true → epochFault s r.issuer r.epoch r.ctx = some c →
      reqFault s q = some (c, q.addr)) ∧
    ((classFor s.set r.part (issuerShare r.issuer r.share)).isSome = true → epochFault s r.issuer r.epoch r.ctx = none →
      regionOf q.addr = .hbm ∨ regionOf q.addr = .scratch →
      reqFault s q = (firstFault s q.part q.kind q.addr (reqSize q)).map fun x => (x.2, q.addr + x.1)) ∧
    (hubOf r.addr = 0 ∨ hubOf r.addr = s.leat.hub → (∀ f, r.issuer ≠ .host f) →
      (∀ c a, reqFault s q = some (c, a) → regWaits s q = false → asks (refuse z c q.part a)) ∧
      (reqFault s q = none →
        (∀ n off, regionOf q.addr = .site n off → asks (serveAperture z q n off)) ∧
        (∀ o, regionOf q.addr = .regs o → regWaits s q = false → asks (serveRegisters z q o)) ∧
        (r.kind = .read → regionOf q.addr = .hbm ∨ regionOf q.addr = .scratch → conflicts s q.addr q.len false = [] →
          asks (serveRead z q) ∧ Safety.Gives (.rdCur r) s (serveRead z q)) ∧
        (r.kind = .write → regionOf q.addr = .hbm ∨ regionOf q.addr = .scratch → conflicts s q.addr q.data.length true = [] →
          asks (stashAll (serveWrite z q) q) ∧ Safety.Gives (.wrInv r) s (stashAll (serveWrite z q) q)) ∧
        (∀ la off, r.kind = .read → regionOf q.addr = .bin la off → asks (serveBinRead z q la off)) ∧
        (∀ la off, r.kind = .write → regionOf q.addr = .bin la off → off + q.data.length ≤ shoeBase →
          guardHit s la off q.data.length = false → asks (emit (maskedWrite z q.addr q.data q.mask q.poison) .ack)) ∧
        (r.kind = .atomic → regionOf q.addr = .scratch → asks (emit z .ack))))

/-- The bytes that a served request changes and reads. -/
def Obligations.WritesChangeOnlyTheirBytes : Prop :=
  ∀ (s : State) (r : MemReq), Safety.FabricUp s → hubOf r.addr = 0 ∨ hubOf r.addr = s.leat.hub → (∀ f, r.issuer ≠ .host f) →
    let q : MemReq := { r with addr := localOf r.addr }
    regionOf q.addr = .hbm ∨ regionOf q.addr = .scratch → reqFault s q = none →
    (r.kind = .write → 1 ≤ r.data.length → regionOf (q.addr + r.data.length - 1) = regionOf q.addr → r.hint ≠ 2 → r.mask = [] →
      conflicts s q.addr r.data.length true = [] →
      ∃ t, Safety.Gives (.wrInv r) s t ∧ t.out = [if lostRange s q.addr r.data.length then Output.ackPoisoned else .ack] ∧
        (∀ k, k < q.addr ∨ q.addr + r.data.length ≤ k → t.mem.byte k = s.mem.byte k) ∧
        ∀ i, i < r.data.length → lostAt s (q.addr + i) = false → t.mem.byte (q.addr + i) = r.data.getD i 0#8) ∧
    (r.kind = .read → 1 ≤ r.len → regionOf (q.addr + r.len - 1) = regionOf q.addr → r.ecc = .clean →
      conflicts s q.addr r.len false = [] →
      q.addr % 128 + r.len ≤ 128 ∨ (∀ i, i < r.len → q.addr + i < hbmEnd → deadAt s (q.addr + i) = false) →
      ∃ t, Safety.Gives (.rdCur r) s t ∧
        t.out = [.readData (memBytes s q.addr r.len) (badUnits q.addr (memRead s q.addr r.len))] ∧ t.mem.cells = s.mem.cells)

/-- Requests that other hubs send. -/
def Obligations.RequestsOfOtherHubs : Prop :=
  (∀ (s : State) (q : RemoteReq), Safety.FabricUp s →
    let z := Safety.fresh s
    let a := localOf q.addr
    (∀ w, q.part = 0 → windowFor s q.srcHub a = some w → w.allows q.kind = true →
      windowTarget s (w.outBase + (a - w.inBase)) = true →
      Safety.Gives (.windowRequest q) s
        (serveRemote z q ⟨w.part % 16, Nat.mod_lt _ (by decide)⟩ (w.outBase + (a - w.inBase)))) ∧
    (q.part ≠ 0 ∨ windowFor s q.srcHub a = none ∨ (∃ w, windowFor s q.srcHub a = some w ∧
        (w.allows q.kind = false ∨ windowTarget s (w.outBase + (a - w.inBase)) = false)) →
      Safety.Gives (.windowRequest q) s (refuse z 0x45 q.part q.addr)) ∧
    (s.set.windowMode = false → Safety.Gives (.directRequest q) s (serveRemote z q q.part a)) ∧
    (s.set.windowMode = true → Safety.Gives (.directRequest q) s (refuse z 0x46 q.part q.addr))) ∧
  ∀ (s : State) (hub a : Nat) (w : Window), windowFor s hub a = some w →
    ∃ n, n < 64 ∧ w = s.set.windowOf n ∧ w.hits hub a = true ∧ ∀ m, m < 64 → (s.set.windowOf m).hits hub a = true →
      (s.set.windowOf m).prio < w.prio ∨ ((s.set.windowOf m).prio = w.prio ∧ n ≤ m)

/-- The requests of caching agents. -/
def Obligations.CachingRequests : Prop :=
  (∀ (s : State) (m : CohMsg), Safety.FabricUp s →
    let z := Safety.fresh s
    let all := fun (t : TxnKind → State) =>
      Safety.Gives (.rdS m) s (t (.rdS m.agent m.ecc)) ∧ Safety.Gives (.rdO m) s (t (.rdO m.agent m.ecc)) ∧
        Safety.Gives (.upg m) s (t (.upg m.agent m.ecc)) ∧ Safety.Gives (.flush m) s (t (.flush m.agent))
    let no := fun (cls : Nat) => emit (record z (cohRec s cls m.agent m.line)) (.cohErr m.agent m.line)
    (m.epoch % 256 ≠ (agentOf s m.agent).epoch → all fun _ => no 0x3B) ∧
    (m.epoch % 256 = (agentOf s m.agent).epoch →
      ((agentOf s m.agent).fenced = true → all fun _ => emit z (.cohErr m.agent m.line)) ∧
      ((agentOf s m.agent).fenced = false →
        (∀ c, cohFault s m.agent m.line = some (some c) → all fun _ => no c) ∧
        (cohFault s m.agent m.line = none → all fun k => requestLine z m.line k)))) ∧
  (∀ (s : State) (line way a : Nat) (e : EccResult),
    (without (holdersOf s line) a = [] → serveTxn s line way (.rdS a e) = grantLine s line a way .e e) ∧
    (without (holdersOf s line) a ≠ [] → serveTxn s line way (.rdS a e) = grantLine s line a way .s e) ∧
    serveTxn s line way (.rdO a e) = grantLine s line a way .m e ∧
    (a ∈ holdersOf s line → serveTxn s line way (.upg a e) = grantLine s line a way .mNoData e) ∧
    (a ∉ holdersOf s line → serveTxn s line way (.upg a e) = grantLine s line a way .m e) ∧
    holdersOf (serveTxn s line way (.flush a)) line = [] ∧
    ∀ g, ∃ d p, Output.grant a line g d p ∈ (grantLine s line a way g e).out) ∧
  ∀ (s : State) (n : Fin 12) (line : Nat) (d : Bytes) (mask : List Bool), Safety.FabricUp s →
    siteUp s n = true → (siteOf s n).cxl = true →
    let z := Safety.fresh s
    let m := cxlMsg s n line
    let gives := fun (op : CxlOp) (t : State) => Safety.Gives (.dirtyEvict n ⟨op, line, d, mask⟩) s (serveArrivals t)
    (∀ op, (agentOf s n).fenced = true → gives op (emit z (.goErr n line))) ∧
    ((agentOf s n).fenced = false →
      gives .dirtyEvict
        (emit { z with coh := { s.coh with evicts := (s.coh.evicts.filter fun x => x ≠ (n.val, line)) ++ [(n.val, line)] } }
          (.goWritePull n line)) ∧
      (∀ op ∈ [CxlOp.rdShared, .rdAny], gives op (cohRequest z m (.rdS n .clean))) ∧
      gives .rdOwn (cohRequest z m (.rdO n .clean)) ∧ gives .rdOwnNoData (cohRequest z m (.upg n .clean)) ∧
      gives .rdCurr (arrive z (cxlMem s n line false [] [])) ∧
      (∀ op ∈ [CxlOp.itoMWr, .wrCur, .wrInv, .woWrInv, .woWrInvF], gives op (arrive z (cxlMem s n line true d mask))) ∧
      gives .clFlush (cohRequest z m (.flush n)) ∧
      (∀ op ∈ [CxlOp.cleanEvict, .cleanEvictNoData], gives op (emit (takeEvc z m) (.goI n line))) ∧
      gives .cacheFlushed (flushReport z n) ∧
      ∀ k, gives (.other k) (emit (record z { cohRec s 0x3A n line with d1 := k }) (.goErr n line)))

/-- What agents send to the home, and what happens when they do not. -/
def Obligations.SnoopResponsesAndEvictions : Prop :=
  (∀ (s : State) (m : CohMsg), Safety.FabricUp s → m.epoch % 256 = (agentOf s m.agent).epoch → (agentOf s m.agent).fenced = false →
    let z := Safety.fresh s
    (∀ t, txnOf s m.line = some t → m.agent.val ∈ t.awaiting →
      let taken := fun (r : Rsp) =>
        let u := putTxn (dirAfter (lateResponse z m) m.line m.agent (r.keeps && t.keepS.contains m.agent.val)) (t.take m.agent r).1
        serveArrivals (settle (if (t.take m.agent r).2 = true then emit u (.wbAck m.agent m.line) else u) m.line)
      Safety.Gives (.rspI m) s (taken .inv) ∧ Safety.Gives (.rspS m) s (taken .shared) ∧
        (∀ d, Safety.Gives (.rspIData m d) s (taken (.invData d)) ∧ Safety.Gives (.rspSData m d) s (taken (.sharedData d))) ∧
        Safety.Gives (.rspIInflight m) s (taken .inflight)) ∧
    (∀ d, txnOf s m.line = none → cohFault s m.agent m.line = none →
      let t := dropHolder (writeLine (dropEvict z m.agent m.line) m.line d) m.line m.agent
      Safety.Gives (.wb m d) s (serveArrivals (drainWaiting (emit t (.wbAck m.agent m.line))))) ∧
    Safety.Gives (.evc m) s (serveArrivals (drainWaiting (dropHolder z m.line m.agent))) ∧
    (∀ t, txnOf s m.line = some t → t.kind = .stashTo m.agent →
      let u := lateResponse z m
      let offers := u.coh.offers.filter fun x => x ≠ (m.agent.val, m.line)
      let yes := { u with coh := { u.coh with offers := offers, hold := u.coh.hold ++ [(m.agent.val, m.line)] } }
      Safety.Gives (.stashAcc m) s
          (serveArrivals (settle (putTxn yes { t with awaiting := [], kind := .stashIn m.agent }) m.line)) ∧
        Safety.Gives (.stashDec m) s
          (serveArrivals (settle (putTxn { u with coh := { u.coh with offers := offers } }
            { t with awaiting := [], kind := .stashTo m.agent }) m.line)))) ∧
  ∀ (s : State), Safety.FabricUp s →
    let z := Safety.fresh s
    (∀ (a : Fin 16) (line : Nat),
      Safety.Gives (.holdWindowExpiry a line) s
        (serveArrivals (drainWaiting { z with coh := { s.coh with hold := s.coh.hold.filter fun x => x ≠ (a.val, line) } })) ∧
      ((∃ t, txnOf s line = some t ∧ (a.val ∈ t.awaiting ∨ t.inflight = some a.val)) ∨ (a.val, line) ∈ s.coh.offers →
        Safety.Gives (.snoopTimeout a line) s (serveArrivals (fence z a))) ∧
      (awaitsFlush s a = true → Safety.Gives (.flushTimeout a) s (serveArrivals (afterFlush (fence z a) a)))) ∧
    ∀ (n : Fin 16) (rsvd : Bool), (agentOf s n).flushing = true → 12 ≤ n.val ∨ (sidebandUp s n = true ∧ rsvd = false) →
      Safety.Gives (.flushDone ⟨n, rsvd⟩) s
        (serveArrivals (afterFlush (setAgent z n { agentOf s n with flushing := false, flushed := true }) n))

/-- No caching request leaves two holders of a line that an agent may write. -/
def Obligations.OwnedLinesHaveOneHolder : Prop :=
  let single := fun (s : State) => ∀ x ∈ s.coh.dir, x.2.owned = true → x.2.holders.length ≤ 1
  ∀ (s t : State) (m : CohMsg), single s → ∀ i ∈ [Instr.rdS m, .rdO m, .upg m, .flush m], exec i s = .next t → single t

/-- Contexts and the translations cached for them. -/
def Obligations.ContextsAndInvalidations : Prop :=
  (∀ (s : State) (c : Packet) (n t : Nat), c.p0.toNat = n → n < 4096 →
    let b := fun (op : Nat) => Safety.begun s op c
    (Safety.Accepts s 0x0301 c → Safety.zeroFrom c 3 → partOf c = 0 → c.p1.toNat < 16 ∨ c.p1.toNat = 0xFF →
      ((ctxOf s n).bound = true → c.p1.toNat ≠ 0xFF → (ctxOf s n).part = c.p1.toNat) → ctxInPlan s n = false →
      boundaryFor s c.p2.toNat = .ok t →
      let m : BindMove := { ctx := n, part := if c.p1.toNat = 0xFF then none else some c.p1.toNat, turn := t,
                            reply := Safety.replyTo s 0x0301 c, clearing := false }
      Safety.Ends (.ctxBind c) s 0x0301 c { b 0x0301 with xlate := { s.xlate with binds := s.xlate.binds ++ [m] } } (.interim t)) ∧
    (Safety.Accepts s 0x0302 c → Safety.zeroFrom c 2 → mayContext s c n = true → rootOk s c.p1.toNat = true →
      let u := setCtx (b 0x0302) n { ctxOf s n with root := c.p1.toNat }
      Safety.Ends (.ctxRoot c) s 0x0302 c (submitInval u (wholeInval u n (some (Safety.replyTo s 0x0302 c)))) .later) ∧
    (Safety.Accepts s 0x0304 c → Safety.zeroFrom c 1 → mayContext s c n = true →
      Safety.Ends (.ctxClear c) s 0x0304 c (beginClear (b 0x0304) n (some (Safety.replyTo s 0x0304 c))) .later)) ∧
  (∀ (s : State) (c : Packet), Safety.Accepts s 0x0303 c → Safety.zeroFrom c 3 →
    (c.p0.toNat < 4096 ∧ mayContext s c c.p0.toNat = true) ∨ c.p0.toNat = 0xFFFF → c.p1.toNat % 65536 = 0 → c.p1.toNat < 2 ^ 57 →
    c.p2.toNat % 65536 = 0 → c.p2.toNat = 0 ∨ c.p1.toNat + c.p2.toNat ≤ 2 ^ 57 →
    let v : Inval := { ctx := if c.p0.toNat = 0xFFFF then none else some c.p0.toNat, part := partOf c,
                       lo := if c.p2.toNat = 0 then 0 else c.p1.toNat, len := if c.p2.toNat = 0 then 2 ^ 57 else c.p2.toNat,
                       units := List.range 76, lost := [], reply := some (Safety.replyTo s 0x0303 c), after := none }
    Safety.Ends (.xlateInval c) s 0x0303 c (submitInval (Safety.begun s 0x0303 c) v) .later) ∧
  ∀ (s : State) (n : Fin 76), live s = true → (∃ v ∈ s.xlate.invals.take 16, n.val ∈ v.units) →
    (n.val < 64 → Safety.Gives (.invalAckTimeout n) s
      (settleInvals (ackAll (record (Safety.fresh s) { cls := 0x44, kind := 2, index := n.val }) n true))) ∧
    (64 ≤ n.val → Safety.Gives (.invalAckTimeout n) s
      (settleInvals (ackAll (fence (Safety.fresh s) (n.val - 64)) n false)))

/-- The table of deeds. -/
def Obligations.DeedsChangeAtABoundary : Prop :=
  (∀ (s : State) (c : Packet) (d : Deed) (t : Nat), Safety.Accepts s 0x0310 c → Safety.zeroFrom c 4 → partOf c = 0 →
    runFault s c.p0.toNat c.p1.toNat 0 1 = none → Deed.ofWord c.p2.toNat = some d →
    let g := c.p0.toNat / granule
    let n := c.p1.toNat
    storeInRun s g n = false → moveInRun s g n = false → boundaryFor s c.p3.toNat = .ok t →
    let z := (upto g n).any fun k => (deedOf s k).zeroes d
    let m : DeedMove :=
      { first := g, count := n, deed := d, turn := t, zeroing := z, zeroed := false, reply := Safety.replyTo s 0x0310 c }
    let u := { Safety.begun s 0x0310 c with mem := { s.mem with moves := s.mem.moves ++ [m] } }
    Safety.Ends (.deedSet c) s 0x0310 c (if z = true then emptyRun u g n else u) (.interim t)) ∧
  (∀ (s : State) (g n k : Nat), g ≤ k → k < g + n → deedOf (emptyRun s g n) k = Deed.reset) ∧
  (∀ (s : State) (m : DeedMove), live s = true → m ∈ s.mem.moves → m.zeroing = true →
    (∀ g, m.first ≤ g → g < m.first + m.count → granuleQuiet s g = true) →
    (∀ x ∈ s.mem.moves, x.first = m.first → x = m) → (∀ x ∈ s.mem.moves, x ≠ m → x.zeroing = true → x.zeroed = false) →
    ∃ t, Safety.Gives (.deedZeroingComplete m.first) s t ∧
      (∀ g i, m.first ≤ g → g < m.first + m.count → i < granule → g * granule < hbmEnd →
        t.mem.byte (g * granule + i) = 0#8 ∧ t.mem.poisoned (g * granule + i) = false) ∧
      (∀ k, (∀ g, m.first ≤ g → g < m.first + m.count → k < keyOf s (g * granule) ∨ keyOf s (g * granule) + granule ≤ k) →
        t.mem.byte k = s.mem.byte k) ∧
      ∀ x ∈ t.mem.moves, x.first = m.first → x.zeroing = false) ∧
  ∀ (s : State) (c : Packet), Safety.Accepts s 0x0311 c → Safety.zeroFrom c 3 → runFault s c.p1.toNat c.p2.toNat 1 2 = none →
    Safety.Ends (.deedRead c) s 0x0311 c (Safety.begun s 0x0311 c)
      (output c.p2.toNat c.p0.toNat ((upto (c.p1.toNat / granule) c.p2.toNat).flatMap fun g =>
        leBytes 4 (if partOf c = 0 ∨ (deedOf s g).names (partOf c) = true then (deedOf s g).word else 3)))

/-- Windows that are written outside a posted set. -/
def Obligations.WindowsWrittenAtOnce : Prop :=
  (∀ (s : State) (c : Packet) (e : Bytes), Safety.Accepts s 0x0320 c → Safety.zeroFrom c 2 → partOf c = 0 →
    (s.glob.xlateLock = false → c.p0.toNat < 64 → e.length = 32 → windowFormat e = true →
      Safety.Ends (.winForce c (some e)) s 0x0320 c (writeWindow (Safety.begun s 0x0320 c) c.p0.toNat e) (okay c.p0.toNat)) ∧
    (s.glob.xlateLock = true → ∀ x, Safety.Ends (.winForce c x) s 0x0320 c (lockedWrite (Safety.begun s 0x0320 c)) denied)) ∧
  ∀ (s : State) (w : Fin 64) (e : Bytes), Safety.FabricUp s →
    (pathOpen s .test = true → s.glob.xlateLock = false →
      Safety.Gives (.testWindowWrite w e) s (writeWindow (Safety.fresh s) w (sub e 0 32))) ∧
    (pathOpen s .test = true → s.glob.xlateLock = true → Safety.Gives (.testWindowWrite w e) s (lockedWrite (Safety.fresh s))) ∧
    (pathOpen s .test = false →
      Safety.Gives (.testWindowWrite w e) s (recordCount (Safety.fresh s) { cls := 0xA6, kind := 10 }))

/-- What is kept about memory's errors, and what takes memory out of service. -/
def Obligations.MemoryIsReadRetiredAndScrubbed : Prop :=
  (∀ (s : State) (c : Packet), Safety.Accepts s 0x0340 c → Safety.zeroFrom c 3 → c.p1.toNat % 16 = 0 →
    let mine := s.mem.records.filter fun x => partOf c = 0 || (deedAt s x.addr).names (partOf c)
    let l := (mine.drop c.p2.toNat).take (bufLen c c.p1.toNat / 16)
    Safety.Ends (.memPoisonRead c) s 0x0340 c (Safety.begun s 0x0340 c)
      (output l.length c.p0.toNat (l.flatMap PoisonRec.bytes))) ∧
  (∀ (s : State) (c : Packet), partOf c = 0 →
    (Safety.Accepts s 0x0341 c → Safety.zeroFrom c 2 → c.p0.toNat % 65536 = 0 → c.p0.toNat < fitted s →
      let page := c.p0.toNat / 65536
      let put := fun (l : List Nat) => Safety.Ends (.memRetire c) s 0x0341 c
        { Safety.begun s 0x0341 c with mem := { s.mem with retired := l } } (okay l.length)
      (c.p1.toNat = 1 → put (without s.mem.retired page)) ∧
      (c.p1.toNat = 0 → page ∈ s.mem.retired → put s.mem.retired) ∧
      (c.p1.toNat = 0 → page ∉ s.mem.retired → s.mem.retired.length < 4096 → put (s.mem.retired ++ [page])) ∧
      (c.p1.toNat = 0 → page ∉ s.mem.retired → 4096 ≤ s.mem.retired.length →
        Safety.Ends (.memRetire c) s 0x0341 c (Safety.begun s 0x0341 c) (busy 0))) ∧
    (Safety.Accepts s 0x0342 c → Safety.zeroFrom c 2 → c.p1.toNat % 8 = 0 →
      let l := s.mem.retired.take (bufLen c c.p1.toNat / 8)
      Safety.Ends (.memRetireList c) s 0x0342 c (Safety.begun s 0x0342 c)
        (output l.length c.p0.toNat (l.flatMap fun k => leBytes 8 (k * 65536)))) ∧
    (Safety.Accepts s 0x0343 c → Safety.zeroFrom c 1 → 1 ≤ c.p0.toNat → c.p0.toNat ≤ 720 →
      Safety.Ends (.memScrub c) s 0x0343 c
        { Safety.begun s 0x0343 c with mem := { s.mem with scrubHours := c.p0.toNat } } (okay c.p0.toNat))) ∧
  ∀ s : State, live s = true →
    (∀ a e, regionOf a = .hbm ∨ regionOf a = .scratch → addrFault s a = none → (regionOf a = .hbm → lostAt s a = false) →
      scrubFree s a = true → Safety.Gives (.scrubRead a e) s (foundError (Safety.fresh s) a 0 e)) ∧
    Safety.Gives .scrubIntervalEnd s (record (Safety.fresh s) { cls := 0x2C, kind := 4 }) ∧
    (∀ n : Fin 8, Safety.Gives (.hbmCattrip n) s
      (record (setStack (Safety.fresh s) n { stackOf s n with cattrip := true, trained := false }) { cls := 0x27, kind := 4, index := n.val * 32 })) ∧
    ∀ (n : Fin 8) (pc : Fin 32), Safety.Gives (.pcRetrainFail n pc) s
      (record (setStack (Safety.fresh s) n { stackOf s n with pcNext := addNew (stackOf s n).pcNext pc })
        { cls := 0x26, kind := 4, index := n.val * 32 + pc.val })

/-- Settings change by sets of items that are staged, checked and posted. -/
def Obligations.StagedSetsArePosted : Prop :=
  (∀ (s : State) (c : Packet), c.source.val ≤ 1 → c.p0.toNat < 4 →
    let n := c.source.val * 4 + c.p0.toNat
    let b := fun (op : Nat) => Safety.begun s op c
    let took := fun (i : Instr) (op : Nat) (l : List Item) =>
      let m := l.foldl mergeItem (setOf (b op) n).items
      (setOf (b op) n).state ≠ .posted → m.length ≤ 4096 → sumOf (m.map fun x => x.value.length) ≤ 65536 →
        Safety.Ends i s op c (setSet (b op) n { setOf (b op) n with items := m, state := .opened }) (okay l.length)
    (∀ l, Safety.zeroFrom c 1 → parseItems (c.payload.length / 16 + 1) c.payload = some l →
      (Safety.Accepts s 0x0101 c → took (.stageSet c) 0x0101 l) ∧
      (Safety.Accepts s 0x0402 c → (∀ x ∈ l, x.item = 0x0501) → took (.partOwners c) 0x0402 l) ∧
      (Safety.Accepts s 0x0403 c → (∀ x ∈ l, 0x0502 ≤ x.item ∧ x.item ≤ 0x0504) → took (.partShares c) 0x0403 l)) ∧
    (Safety.Accepts s 0x0404 c → Safety.zeroFrom c 3 → c.p1.toNat < 16 → c.p2.toNat ≤ 1 →
      took (.partSeal c) 0x0404 [{ item := 0x0505, index := c.p1.toNat, value := leBytes 8 c.p2.toNat }]) ∧
    (Safety.Accepts s 0x0102 c → Safety.zeroFrom c 1 →
      let x := setOf (b 0x0102) n
      x.state = .opened ∨ x.state = .checked →
      (checkSet (b 0x0102) n x.items = none →
        Safety.Ends (.stageCheck c) s 0x0102 c (setSet (b 0x0102) n { x with state := .checked }) (okay 0)) ∧
      (∀ d, checkSet (b 0x0102) n x.items = some d →
        Safety.Ends (.stageCheck c) s 0x0102 c (setSet (b 0x0102) n { x with state := .opened }) (.done .checkFailed d none none))) ∧
    (∀ t, Safety.Accepts s 0x0103 c → Safety.zeroFrom c 2 →
      let x := setOf (b 0x0103) n
      x.state = .opened ∨ x.state = .checked → turnFor (b 0x0103) c.p1.toNat 1 = .ok t → checkSet (b 0x0103) n x.items = none →
      Safety.Ends (.stagePost c) s 0x0103 c (postSet (b 0x0103) n t (some (Safety.replyTo s 0x0103 c))) (.interim t)) ∧
    (Safety.Accepts s 0x0104 c → Safety.zeroFrom c 1 →
      let x := setOf (b 0x0104) n
      (x.state = .opened ∨ x.state = .checked →
        Safety.Ends (.stageDiscard c) s 0x0104 c (setSet (b 0x0104) n StageSet.reset) (okay 0)) ∧
      (∀ r, x.state = .posted → x.deferred = false → committedFor s x.turn = false → x.reply = some r →
        Safety.Ends (.stageDiscard c) s 0x0104 c
          (postFinal (markWays (setSet (b 0x0104) n StageSet.reset)) r .aborted 0 none none) (okay 0))) ∧
    (Safety.Accepts s 0x0105 c → Safety.zeroFrom c 3 →
      let x := setOf (b 0x0105) n
      Safety.Ends (.stageRead c) s 0x0105 c (b 0x0105)
        (output (x.state.code + (if x.state = .posted then x.turn * 65536 else 0)) c.p1.toNat
          ((x.items.flatMap Item.bytes).take c.p2.toNat)))) ∧
  (∀ (s : State) (c : Packet), Safety.Accepts s 0x0401 c → Safety.zeroFrom c 3 → 256 ≤ c.p1.toNat → c.p2.toNat < 16 →
    let p := if c.p2 = 0xF#64 then partOf c else c.p2.toNat
    partOf c = 0 ∨ p = partOf c →
    Safety.Ends (.partRead c) s 0x0401 c (Safety.begun s 0x0401 c) (output p c.p0.toNat (partRecord (Safety.begun s 0x0401 c) p))) ∧
  ∀ s : State, live s = true →
    Safety.Gives .wayDrainComplete s { Safety.fresh s with
      mem := { s.mem with
        cache := s.mem.cache.filter fun c => !(s.mem.draining.contains c.way && groupFree s (chanGroup c.line))
        victims := s.mem.victims.filter fun v => !(s.mem.draining.contains v.way && groupFree s (chanGroup v.line)) } } ∧
    Safety.Gives .directoryWayEmptied s (emptyWays (Safety.fresh s))

/-- The mesh: slots, flits, and what is counted of them. -/
def Obligations.FabricSlotsAndStatistics : Prop :=
  (∀ (s : State) (q : QueueReq), Safety.FabricUp s →
    let z := Safety.fresh s
    ((unitBehind q.target).isSome = true →
      (q.vn = 2 → isSlice q.initiator = true → Safety.Gives (.reserve q) s (reserveSlot z q q.cls)) ∧
      (q.vn = 2 → isSlice q.initiator = false → Safety.Gives (.reserve q) s z) ∧
      (∀ k, q.vn ≠ 1 → q.vn ≠ 2 → classFor s.set q.part q.cls = some k → Safety.Gives (.reserve q) s (reserveSlot z q k)) ∧
      (q.vn ≠ 1 → q.vn ≠ 2 → classFor s.set q.part q.cls = none →
        Safety.Gives (.reserve q) s (record z { cls := 0x34, part := some q.part }))) ∧
    (∀ x, slotOf (queueOf s q.target q.vn) q.initiator = some x →
      Safety.Gives (.slotReturn q) s (freeSlot z q.target q.vn x))) ∧
  (∀ (s : State) (f : MeshFlit), Safety.FabricUp s → (unitBehind f.target).isSome = true →
    let z := Safety.fresh s
    let note := fun (a : State) (k : Nat) =>
      record a { cls := k, kind := 15, index := f.target, part := some f.part, task := f.cls, addr := f.addr }
    let measured := fun (t : State) =>
      if f.readBytes + f.writeBytes > 0 then measure t f ((classFor s.set f.part f.cls).getD f.cls.val) else t
    (f.check = .headerBad → Safety.Gives (.flitReceive f) s (note ((admitFlit z f).getD z) 0x33)) ∧
    (f.check ≠ .headerBad → admitFlit z f = none → Safety.Gives (.flitReceive f) s (note z 0x36)) ∧
    ∀ t, admitFlit z f = some t →
      (f.check = .good → Safety.Gives (.flitReceive f) s (measured (emit t (.flit f)))) ∧
      (f.check = .corrected → Safety.Gives (.flitReceive f) s (measured (emit (note t 0x31) (.flit f)))) ∧
      (f.check = .dataBad → Safety.Gives (.flitReceive f) s (measured (emit (note t 0x32) (.flit { f with poison := 0xF#4 }))))) ∧
  (∀ (s : State) (f : MeshFlit),
    let slot := slotOf (queueOf s f.target f.vn) f.initiator
    let left := (queueOf s f.target f.vn).coming.get f.initiator 0
    (f.vn = 1 → admitFlit s f = some s) ∧
    (∀ x, f.vn ≠ 1 → f.index = 0 → slot = some x → admitFlit s f = some (setComing (freeSlot s f.target f.vn x) f f.len)) ∧
    (f.vn ≠ 1 → f.index = 0 → slot = none → admitFlit s f = none) ∧
    (f.vn ≠ 1 → f.index ≠ 0 → 0 < left → admitFlit s f = some (setComing s f (left - 1))) ∧
    (f.vn ≠ 1 → f.index ≠ 0 → left = 0 → admitFlit s f = none)) ∧
  (∀ s : State, live s = true →
    let missed := (List.range 64).filter fun c => (s.set.shareOf c).valid && (latMissed s c || wayMissed s c)
    let t := endGroups (missed.foldl missClass (Safety.fresh s)) 700
    Safety.Gives .shareWindowEnd s
      { t with fab := { t.fab with latLast := s.fab.latMiss, wayLast := s.fab.wayMiss, latMiss := [], wayMiss := [] } }) ∧
  ∀ (s : State) (c : Packet) (p : Nat), statPart c = some p → c.p4.toNat ≤ 15 →
    (Safety.Accepts s 0x0710 c → c.p2.toNat < 192 → c.p2.toNat + c.p3.toNat ≤ 192 → c.p5 = 0 →
      let ids := (upto c.p2.toNat c.p3.toNat).take (bufLen c c.p1.toNat / 96)
      Safety.Ends (.fabStatsRead c) s 0x0710 c (Safety.begun s 0x0710 c)
        (output ids.length c.p0.toNat (ids.flatMap fun i => statBytes s i p))) ∧
    (Safety.Accepts s 0x0710 c → c.p2.toNat < 192 → c.p2.toNat + c.p3.toNat ≤ 192 → c.p5 = 1 →
      let ids := (upto c.p2.toNat c.p3.toNat).take (bufLen c c.p1.toNat / 96)
      let wipe := fun (t : Tbl Counters) => ids.foldl (fun a i => a.drop (i * 16 + p)) t
      Safety.Ends (.fabStatsRead c) s 0x0710 c
        { Safety.begun s 0x0710 c with fab := { s.fab with counters := wipe s.fab.counters, snapshot := wipe s.fab.snapshot } }
        (output ids.length c.p0.toNat (ids.flatMap fun i => statBytes s i p))) ∧
    (Safety.Accepts s 0x0711 c → Safety.zeroFrom c 5 → c.p2.toNat < 64 → c.p2.toNat + c.p3.toNat ≤ 64 →
      let mine := (upto c.p2.toNat c.p3.toNat).filter fun k => (s.set.shareOf k).valid && (s.set.shareOf k).owner = p
      let ids := mine.take (bufLen c c.p1.toNat / 16)
      Safety.Ends (.fabMissRead c) s 0x0711 c (Safety.begun s 0x0711 c)
        (output ids.length c.p0.toNat (ids.flatMap fun k =>
          leBytes 1 k ++ leBytes 1 (s.set.shareOf k).owner ++ leBytes 2 0 ++ leBytes 4 (s.fab.latLast.get k 0) ++
            leBytes 4 (s.fab.wayLast.get k 0) ++ leBytes 4 (s.fab.missed.get k 0))))

/-- Leat links train, serve and fail; the commands that say so. -/
def Obligations.LinksTrainServeAndFail : Prop :=
  (∀ (s : State) (n : Fin 64), live s = true →
    let z := Safety.fresh s
    let l := linkOf s n
    Safety.Gives (.laneLossOfLock n) s (linkOut z n) ∧
    (s.boot.leatCfg = true → l.state = .down → domainOn s (domOfLink n) = true →
      Safety.Gives (.linkSignalDetect n) s (trainLink z n (savedFits s n))) ∧
    (∀ r, l.state = .training → servicePause s = false →
      let g := goodLanes l r
      (g = 0#4 → l.fromSaved = true → Safety.Gives (.linkTrainingComplete n r) s (trainLink z n false)) ∧
      (g = 0#4 → l.fromSaved = false →
        Safety.Gives (.linkTrainingComplete n r) s (trainingEnds (excludeLink (setLink z n { l with lanes := 0#4 }) n 1 0x62))) ∧
      (∀ cause cls, g ≠ 0#4 → trainFault s n r = some (cause, cls) →
        Safety.Gives (.linkTrainingComplete n r) s
          (trainingEnds (excludeLink (setLink z n { l with lanes := g, delay := r.delay }) n cause cls))) ∧
      (g ≠ 0#4 → trainFault s n r = none → Safety.Gives (.linkTrainingComplete n r) s (trainingEnds (linkUp z n g r)))) ∧
    (∀ turn, l.state = .inService → (∀ t b, l.ber ≠ .agreed t b) →
      Safety.Gives (.berCheckStart n turn) s
        (emit (setLink z n { l with ber := .agreed turn (l.ber = .failedOnce) }) (.berStart n turn))) ∧
    (∀ errors bad turn again, l.state = .inService → l.ber = .agreed turn again → turn ≤ now s →
      (berLanes l errors = l.lanes → bad = false →
        Safety.Gives (.berCheckComplete n errors bad) s
          (releasePort (restripe (setLink z n { l with ber := .passed }) (n.val / 8)) (n.val / 8))) ∧
      (berLanes l errors ≠ l.lanes ∨ bad = true →
        Safety.Gives (.berCheckComplete n errors bad) s (berFails z n again (berLanes l errors))))) ∧
  ∀ (s : State) (c : Packet), partOf c = 0 →
    let b := fun (op : Nat) => Safety.begun s op c
    (Safety.Accepts s 0x0501 c → Safety.zeroFrom c 2 → linksBusy s = false →
      let h := c.p0.toNat
      let e := c.p1.toNat
      h < 2 ^ 17 → e < 2 ^ 17 → bits h 4 0 ≤ bits e 4 0 → bits h 9 5 ≤ bits e 9 5 → bits h 13 10 ≤ bits e 13 10 →
      bits h 16 14 ≤ bits e 16 14 →
      let t := { b 0x0501 with
        leat := { s.leat with hub := h, exm1 := bits e 4 0, eym1 := bits e 9 5, ezm1 := bits e 13 10, ewm1 := bits e 16 14 }
        turn := { s.turn with headrace := if s.turn.isHeadrace then h else s.turn.headrace } }
      Safety.Ends (.leatConfig c) s 0x0501 c t (okay (diameter t))) ∧
    (Safety.Accepts s 0x0502 c → Safety.zeroFrom c 2 → c.p1.toNat ≤ 2 → s.leat.training = none →
      let mask := setBits 64 c.p0.toNat
      let t := mask.foldl (trainOne c.p1.toNat) (b 0x0502)
      ((mask.any fun n => (linkOf t n).state = .training) = true →
        Safety.Ends (.leatTrain c) s 0x0502 c
          { t with leat := { t.leat with training := some (mask, Safety.replyTo s 0x0502 c) } } .later) ∧
      ((mask.any fun n => (linkOf t n).state = .training) = false →
        let u := if c.p1.toNat = 2 then trainingEnds t else t
        Safety.Ends (.leatTrain c) s 0x0502 c u (okay (linksUp u)))) ∧
    (Safety.Accepts s 0x0503 c → Safety.zeroFrom c 2 → hostAddrOk c c.p0.toNat = true → c.p1.toNat % 16 = 0 →
      let n := min 64 (bufLen c c.p1.toNat / 16)
      Safety.Ends (.leatStatus c) s 0x0503 c (b 0x0503)
        (output n c.p0.toNat ((List.range n).flatMap (linkBytesOf (b 0x0503))))) ∧
    (Safety.Accepts s 0x0504 c → Safety.zeroFrom c 0 →
      let up := (List.range 64).filter fun n => (linkOf s n).state = .inService
      let recs := up.foldl (fun (a : Tbl (Nat × Nat)) n => a.put n ((linkOf s n).farUnit, (linkOf s n).lanes.toNat)) []
      let l := s.leat
      Safety.Ends (.leatSave c) s 0x0504 c
        { b 0x0504 with fw := { s.fw.eraseSaved with
            saved := { s.fw.saved with links := recs, leat := some (l.hub, l.exm1, l.eym1, l.ezm1, l.ewm1), sealOk := true } } }
        (okay up.length))

/-- What arrives over a Leat link, and the keys of sealed partitions. -/
def Obligations.FlitsAndSealKeys : Prop :=
  (∀ (s : State) (n : Fin 64), live s = true → linkOpen s n = true →
    let z := Safety.fresh s
    let p := n.val / 8
    (∀ b, Safety.Gives (.leatDataFlit n b true) s (serveArrivals (badCodeword z n))) ∧
    (∀ b, (trailerOf b).good = false → Safety.Gives (.leatDataFlit n b false) s (serveArrivals (askResend z n))) ∧
    (∀ b, (trailerOf b).good = true →
      let t := takeReturns z n (trailerOf b)
      let next := ((linkOf t n).rxSeq + 1) % 4096
      let ends := fun (u : State) => Safety.Gives (.leatDataFlit n b false) s (serveArrivals (releasePort (restripe u p) p))
      ((trailerOf b).kind ≠ 1 → ends t) ∧
      ((trailerOf b).kind = 1 → (trailerOf b).lseq = next → ends (acceptFlit t n (trailerOf b) b)) ∧
      ((trailerOf b).kind = 1 → (trailerOf b).lseq ≠ next → ends (askResend t n))) ∧
    (∀ q, let l := (linkOf s n).ackUpTo q
      ((∃ r ∈ l.replay, 4 ≤ r.resent) → Safety.Gives (.leatResendRequest n q) s (linkOut (setLink z n l) n)) ∧
      ((∀ r ∈ l.replay, r.resent < 4) →
        let t := setLink (setLink z n l) n { l with replay := l.replay.map fun (r : Replay) => { r with resent := r.resent + 1 } }
        Safety.Gives (.leatResendRequest n q) s (releasePort (l.replay.foldl (fun a r => emitLeat a (flitOf a n r)) t) p))) ∧
    (∀ f : KeyFragment, servicePause s = false → initiates s p = false →
      let part := f.part.val
      let k := f.keyId.toNat
      let gives := fun (t : State) => Safety.Gives (.keyOffer n f) s t
      let was := ((portOf s p).keyEx.find? part).filter fun x => x.keyId = k && !x.failed
      (mayExchange s part = false → gives (emitLeat z (.keyResponse n part k 0xFF 0 (List.replicate 40 0#8)))) ∧
      (mayExchange s part = true →
        (∀ x t y, was = some x → takeFragment z p part x f = (t, y) → gives (respondKeys t p part y)) ∧
        (∀ y, was = none → (portOf s p).keys.find? part = some y → y.keyId = k → gives (answerKey z p part k 0xFE 1023)) ∧
        (was = none → (∀ y, (portOf s p).keys.find? part = some y → y.keyId ≠ k) →
          ∀ t x u y, openExchange z p part k = (t, x) →
            takeFragment ((List.range 7).foldl (fun a i => sendFragment a p part x i) t) p part x f = (u, y) →
            gives (respondKeys u p part y)))) ∧
    ∀ f : KeyFragment, let part := f.part.val
      let gives := fun (t : State) => Safety.Gives (.keyOfferResponse n f) s t
      mayExchange s part = true → initiates s p = true →
      ((portOf s p).keyEx.find? part = none → f.index = 0#8 → gives (startExchange p z part)) ∧
      ∀ x, (portOf s p).keyEx.find? part = some x →
        (f.index = 0xFF#8 → gives (failExchange z p part x)) ∧
        (f.index ≠ 0xFF#8 → x.failed = true → gives (startExchange p z part)) ∧
        (x.failed = false → f.keyId.toNat = x.keyId →
          (f.index ≠ 0xFF#8 → f.index ≠ 0xFE#8 → gives (takeFragment z p part x f).1) ∧
          (f.index = 0xFE#8 → x.has 0 10 = true →
            gives (if offerGood s p part x = true then setEx (installKeys z p part x) p part none else failExchange z p part x)))) ∧
  (∀ (s : State) (p : Fin 8) (q : Fin 16), live s = true → mayExchange s q = true →
    let z := Safety.fresh s
    ((portOf s p).keyEx.find? q = none → (portOf s p).keys.find? q = none →
      Safety.Gives (.keyFragmentResend p q) s (startExchange p z q)) ∧
    ∀ x, (portOf s p).keyEx.find? q = some x → x.failed = false →
      let lacks := (sendable x).filter fun k => !x.theyHave.getLsbD k
      let sends := fun (l : List Nat) => l.foldl (fun a k => sendFragment a p q x k) z
      (x.initiator = true →
        Safety.Gives (.keyFragmentResend p q) s (sends (if lacks.isEmpty = true then [9] else lacks))) ∧
      (x.initiator = false → installed s p q x = false → Safety.Gives (.keyFragmentResend p q) s (sends lacks)) ∧
      (x.initiator = false → installed s p q x = true →
        Safety.Gives (.keyFragmentResend p q) s (answerKey (sends lacks) p q x.keyId 0xFE (gotMask x)))) ∧
  ∀ (s : State) (n : Fin 64) (q : Fin 16), live s = true → isSealed s q = true →
    ((linkOf s n).sealHeld.contains q.val = false → Safety.Gives (.sealCounterLimit n q) s
      (record (setLink (Safety.fresh s) n { linkOf s n with sealHeld := (linkOf s n).sealHeld ++ [q.val] })
        { linkRec n 0x69 0 with part := some q.val })) ∧
    ((linkOf s n).sealHeld.contains q.val = true → Safety.Gives (.sealCounterLimit n q) s (Safety.fresh s)) ∧
    (((portOf s (n.val / 8)).keys.find? q).isSome = true →
      let t := record (Safety.fresh s) { linkRec n 0x68 0 with part := some q.val }
      (mayExchange s q = true → (portOf s (n.val / 8)).keyEx.find? q = none →
        Safety.Gives (.sealCounterRekey n q) s (startExchange (n.val / 8) t q)) ∧
      (mayExchange s q = false ∨ ((portOf s (n.val / 8)).keyEx.find? q).isSome = true → Safety.Gives (.sealCounterRekey n q) s t))

/-- R380 and R395. -/
def Obligations.AlertsAndMissingReports : Prop :=
  ∀ (s : State) (n : Fin 12), live s = true →
    (∀ code data, sidebandUp s n = true →
      Safety.Gives (.siteAlert n code data) s
        (event (record (Safety.fresh s) { siteRec s n 0x7A with d0 := code.toNat + data % 2 ^ 48 * 256 }) 6)) ∧
    ((siteOf s n).state = .inService → (siteOf s n).reported = false →
      Safety.Gives (.purseReportDeadline n) s
        (takeReport (record (Safety.fresh s) (siteRec s n 0x76)) n (s.set.siteMaxOf n) true)) ∧
    ∀ power, (siteOf (takeReport s n power true) n).report = power ∧ (siteOf (takeReport s n power true) n).reported = true ∧
      (siteOf (takeReport s n power true) n).missing = min 4 ((siteOf s n).missing + 1)

/-- The sideband, the purse and the commands of the sites. -/
def Obligations.SidebandAndPurse : Prop :=
  (∀ (s : State) (n : Fin 12), live s = true →
    let z := Safety.fresh s
    let x := siteOf s n
    (∀ power turn, sidebandUp s n = true → turn < 2 ^ 32 →
      Safety.Gives (.purseReq n power ⟨turn, false⟩) s (setSite z n { x with req := some (power % 65536) })) ∧
    (∀ power, sidebandUp s n = true → x.reported = false → s.turn.bucket < 16 →
      Safety.Gives (.purseReport n power ⟨(now s - 1) % 2 ^ 32, false⟩) s (takeReport z n (power % 65536) false)) ∧
    (∀ power turn, sidebandUp s n = true →
      Safety.Gives (.purseReq n power ⟨turn, true⟩) s (record z (siteRec s n 0x78)) ∧
      Safety.Gives (.purseReport n power ⟨turn, true⟩) s (record z (siteRec s n 0x78)) ∧
      Safety.Gives (.flushDone ⟨⟨n.val, Nat.lt_of_lt_of_le n.isLt (by decide)⟩, true⟩) s
        (if domainOn s 28 = true then serveArrivals (record z (siteRec s n 0x78)) else z)) ∧
    (∀ msg, sidebandUp s n = true → Safety.Gives (.unknownSidebandMessage n msg) s (record z { siteRec s n 0x78 with d0 := msg.toNat })) ∧
    (∀ (m : Fin 16) (relock : ModuleState), siteUp s n = true →
      let old := x.modules.getD m .excluded
      let new := if old = .x32 ∧ relock = .x64 then .x32 else relock
      old ≠ .excluded → new ≠ old →
      let t := setSite z n { x with modules := x.modules.set m new }
      let u := record { t with glob := { t.glob with tariffDirty := true } } (siteRec s n 0x72)
      Safety.Gives (.moduleLossOfLock n m relock) s (if (x.modules.set m new).all (· = .excluded) = true then siteDown u n false else u))) ∧
  ∀ (s : State) (c : Packet),
    let b := fun (op : Nat) => Safety.begun s op c
    let n := c.p0.toNat
    (Safety.Accepts s 0x0601 c → Safety.zeroFrom c 3 → n < 12 → partOf c = 0 ∨ partOf c = s.set.sitePartOf n →
      let d := (siteOf s n).table.take (bufLen c c.p2.toNat)
      Safety.Ends (.siteCapRead c) s 0x0601 c (b 0x0601) (output d.length c.p1.toNat d)) ∧
    (∀ env, Safety.Accepts s 0x0602 c → Safety.zeroFrom c 1 → partOf c = 0 → n < 12 → claimed s (siteRes n) = false →
      (siteOf s n).resetting = none → domainOn s (domOfSite n) = true →
      (agentEnabled s n = true → (agentOf s n).fenced = false →
        Safety.Ends (.siteReset c env) s 0x0602 c
          (askFlush (setSite (b 0x0602) n { siteOf s n with resetting := some (Safety.replyTo s 0x0602 c, env) }) n) .later) ∧
      (agentEnabled s n = false ∨ (agentOf s n).fenced = true →
        Safety.Ends (.siteReset c env) s 0x0602 c (resetSite (b 0x0602) n (Safety.replyTo s 0x0602 c) env) .later)) ∧
    (Safety.Accepts s 0x0603 c → Safety.zeroFrom c 2 → partOf c = 0 → c.p1.toNat % 16 = 0 →
      let k := min 12 (bufLen c c.p1.toNat / 16)
      Safety.Ends (.purseRead c) s 0x0603 c (b 0x0603) (output k c.p0.toNat ((List.range k).flatMap (purseRecord s)))) ∧
    (Safety.Accepts s 0x0604 c → Safety.zeroFrom c 1 → partOf c = 0 → n < 12 →
      Safety.Ends (.siteBreachClear c) s 0x0604 c
        (setSite (b 0x0604) n { siteOf s n with breach := false, overRun := 0, missing := 0 }) (okay n))

/-- Packets of the chiplets. -/
def Obligations.ChipletPackets : Prop :=
  (∀ (s : State) (p : SitePkt), live s = true → siteUp s p.site = true →
    let z := Safety.fresh s
    let n := p.site.val
    let cxlTakes := fun (op : Nat) (a : Option SiteAtom) =>
      match a with | some (.iadd _ _ _) => true | some (.cas _ _ _) => true | _ => decide (op = 1 ∨ op = 2)
    let formed := fun (op : Nat) (a : Option SiteAtom) => pktFormOk op p && (!(siteOf s n).cxl || cxlTakes op a)
    let all := fun (ok : Nat → Option SiteAtom → Bool) (t : Nat → Option SiteAtom → State) =>
      (ok 1 none = true → Safety.Gives (.rd p) s (t 1 none)) ∧ (ok 2 none = true → Safety.Gives (.wr p) s (t 2 none)) ∧
        (ok 0x0E none = true → Safety.Gives (.tally p) s (t 0x0E none)) ∧
        ∀ a, ok 6 (some a) = true → Safety.Gives (.atomic p a) s (t 6 (some a))
    (all (fun op a => !formed op a) fun _ _ => siteErr (record z (siteRec s n 0x78)) n p.tag) ∧
    ((agentOf s n).fenced = true → all formed fun _ _ => siteErr z n p.tag) ∧
    ((agentOf s n).fenced = false → p.epoch % 256 ≠ (agentOf s n).epoch →
      all formed fun _ _ => siteErr (record z (cohRec s 0x3B n (p.addr / 128))) n p.tag) ∧
    ((agentOf s n).fenced = false → p.epoch % 256 = (agentOf s n).epoch →
      (hubOf p.addr ≠ s.leat.hub → all formed fun op _ => siteAbroad z op p) ∧
      (hubOf p.addr = s.leat.hub →
        (all (fun op a => formed op a && (siteHeld s op p).isNone) fun op a => serveChiplet z op p a) ∧
        all (fun op a => formed op a && (siteHeld s op p).isSome) fun op a =>
          let w := (siteHeld s op p).getD ([], false)
          enqueue z (.site op p a) w.1 (op = 1) w.2))) ∧
  (∀ (s : State) (p : SitePkt), live s = true → siteUp s p.site = true →
    let z := Safety.fresh s
    (p.malformed = false → p.len ≤ 32 →
      Safety.Gives (.rdData p) s (apertureReply z p.site p.tag (.readData p.data p.poison)) ∧
      Safety.Gives (.wrAck p) s (apertureReply z p.site p.tag .ack) ∧
      ((∃ e ∈ (siteOf s p.site).aperture, e.tag = p.tag) →
        Safety.Gives (.err p) s (apertureReply (record z (siteRec s p.site 0x70)) p.site p.tag .errorCompletion))) ∧
    (p.malformed = true ∨ 32 < p.len →
      let no := siteErr (record z (siteRec s p.site 0x78)) p.site p.tag
      Safety.Gives (.rdData p) s no ∧ Safety.Gives (.wrAck p) s no ∧ Safety.Gives (.err p) s no)) ∧
  (∀ (s : State) (n tag : Nat) (e : ApertureReq) (o : Output), (siteOf s n).aperture.find? (fun q => q.tag = tag) = some e →
    let t := setSite s n { siteOf s n with aperture := (siteOf s n).aperture.filter fun q => q ≠ e }
    (∀ src k part share, e.asker = .far src k part share → apertureReply s n tag o = answerFar t src k part share e.addr (some o)) ∧
    (∀ m op k, e.asker = .chiplet m op k → apertureReply s n tag o = finishSite [] (answerChiplet t m op k 8 (some o)) m) ∧
    (∀ m, e.asker = .call m → apertureReply s n tag o = statusAcked t m) ∧
    (e.asker = .row → waitingFor t (fun q => q.fn = 32 + n && q.tag = tag) = none → apertureReply s n tag o = emit t o)) ∧
  ∀ (s : State) (n : Fin 12) (tag : Nat), live s = true →
    ((∃ e ∈ (siteOf s n).aperture, e.tag = tag) → Safety.Gives (.apertureTimeout n tag) s
      (apertureReply (record (Safety.fresh s) (siteRec s n 0x70)) n tag .errorCompletion)) ∧
    (siteUp s n = true → (siteOf s n).cxl = true →
      Safety.Gives (.cxlIoRequest n tag) s (emit (Safety.fresh s) (.cxlUnsupported n tag)))

/-- Calls of plan slots at the sites. -/
def Obligations.SiteCalls : Prop :=
  (∀ (s : State) (n : Fin 12), live s = true →
    let t := arrangeSite (Safety.fresh s) n
    (siteOf t n).run = none → domainOn t 28 = true →
    ∀ j p sl k i d, currentJob t (.site n) = some j → jobPlan t j = some (p, sl, k) → nextDesc t j = some (i, d) →
      clearing t sl.ctx = false →
      let r := SiteRun.start j (freeTag ((siteOf t n).parked.map SiteRun.tag) 64) p.part d k
      let held := match d.b with
        | .site b => ((callRanges r b).1.toList ++ (callRanges r b).2.toList).flatMap (callHeld t n sl.ctx [])
        | _ => []
      (held ≠ [] → Safety.Gives (.siteCallStart n) s (waitCall t n held true false)) ∧
      (held = [] → ∀ t1 g, gate (wakeJob t (.site n) j) (.site n) d.c p.part d.b.hub = (t1, g) →
        (g = .wait → Safety.Gives (.siteCallStart n) s t1) ∧
        (g = .skip → Safety.Gives (.siteCallStart n) s (endAtOnce (setMoved t1 (.site n) p.part) n { r with stale := true })) ∧
        (g = .go → Safety.Gives (.siteCallStart n) s (startCall t1 n sl r)))) ∧
  (∀ (s : State) (p : SitePkt), live s = true → siteUp s p.site = true →
    let z := Safety.fresh s
    let put := fun (r : SiteRun) => setSite z p.site { siteOf s p.site with run := some r }
    (∀ r, p.malformed = false → p.len ≤ 32 → (siteOf s p.site).run = some r → r.tag = p.addr →
      (r.done = none → Safety.Gives (.slotDone p) s
        (arrangeSite (finishSite [] (put { r with done := some p.sub.toNat }) p.site) p.site)) ∧
      (r.suspending = true → Safety.Gives (.slotSuspended p) s (parkCall (put { r with suspended := true }) p.site))) ∧
    (p.malformed = true ∨ 32 < p.len →
      let no := siteErr (record z (siteRec s p.site 0x78)) p.site p.tag
      Safety.Gives (.slotDone p) s no ∧ Safety.Gives (.slotSuspended p) s no)) ∧
  ∀ (s : State) (n : Fin 12) (r : SiteRun), live s = true → siteUp s n = true → (siteOf s n).run = some r →
    (r.done = none → r.suspending = false → Safety.Gives (.slotSuspend n) s
      (toChiplet (setSite (Safety.fresh s) n { siteOf s n with run := some { r with suspending := true } }) n 0x0B 0 0 r.tag [] [])) ∧
    Safety.Gives (.siteCallTimeout n) s
      (siteDown (record (emit (Safety.fresh s) (.sideband n 0x21 3 0)) (siteRec s n 0x77)) n false)

/-- Power domains, sensors and the profiler. -/
def Obligations.PowerSensorsAndProfiler : Prop :=
  (∀ s : State, live s = true →
    let z := Safety.fresh s
    (∀ w d r, s.power.switching = some w → w.left = d :: r → w.started = true →
      (w.on = true ∨ groupFlushing s d = false →
        Safety.Gives .domainSwitchComplete s
          (beginSwitch (if w.on then comeOn z d else goOff z d) { w with left := r, count := w.count + 1 })) ∧
      (w.on = false → groupFlushing s d = true → Safety.Gives .domainSwitchComplete s z) ∧
      Safety.Gives .domainSwitchTimeout s
        (beginSwitch (record (goOff z d) { cls := 0x94, kind := 12, index := d }) { w with left := r })) ∧
    (∀ on, pathOpen s .observe = true → Safety.Gives (.observeSelect on) s { z with pins := { s.pins with observeNext := on } }) ∧
    (∀ on, pathOpen s .observe = false → Safety.Gives (.observeSelect on) s (emit (closedPath z) .testZeros)) ∧
    (s.power.profOn = true → ageingTurn s = false →
      Safety.Gives (.profilerSample false) s { z with power := { s.power with dropped := satAdd 16 s.power.dropped 1 } } ∧
      Safety.Gives (.profilerSample true) s
        { emit z (.hostWrite 0 (s.power.profBase + s.power.profCount * 64 % max 64 s.power.profLen) (profRecord z)) with
            power := { s.power with profCount := s.power.profCount + 1 }, fresh := s.fresh + 2 })) ∧
  (∀ s : State, aon s = true →
    let z := Safety.fresh s
    (∀ temps,
      let tbl := (List.range 96).foldl
        (fun (a : Tbl Nat) n => match temps[n]? with | some v => a.put n v | none => a) s.power.temps
      let t := watchTj (stackTemps { z with power := { s.power with temps := tbl } } ((temps.drop 96).take 8))
      Safety.Gives (.tempSample temps) s (if 115 ≤ (hottest t).1 then trip t else t)) ∧
    Safety.Gives .thermtrip s (trip z) ∧
    ∀ bad,
      let new := (List.range 64).map fun n => (n, if bad.contains n then min 4 (s.pins.railCount.get n 0 + 1) else 0)
      let t := { z with pins := { s.pins with railCount := new, railOut := new.any fun x => x.2 = 4 } }
      Safety.Gives (.railSample bad) s
        ((new.filter fun x => x.2 = 4 && s.pins.railCount.get x.1 0 < 4).foldl (fun a _ => record a { cls := 0x93 }) t)) ∧
  ∀ (s : State) (c : Packet),
    let b := fun (op : Nat) => Safety.begun s op c
    (∀ t, Safety.Accepts s 0x0A01 c → partOf c = 0 → Safety.zeroFrom c 3 → c.p0.toNat < 2 ^ 29 → c.p1.toNat ≤ 1 →
      turnFor s c.p2.toNat 2 = .ok t →
      let on := decide (c.p1 = 1#64)
      let l := switchOrder c.p0.toNat on
      breaksPower s l on = false → s.power.switching = none → (on = false → ∀ d ∈ l, offBusy s d = false) →
      let w : Switching := { left := l, on := on, turn := t, started := false, reply := Safety.replyTo s 0x0A01 c, count := 0 }
      Safety.Ends (.pwrDomain c) s 0x0A01 c { b 0x0A01 with power := { s.power with switching := some w } } (.interim t)) ∧
    (Safety.Accepts s 0x0A02 c → Safety.zeroFrom c 2 → hostAddrOk c c.p0.toNat = true → 96 ≤ c.p1.toNat →
      Safety.Ends (.thermRead c) s 0x0A02 c (b 0x0A02)
        (output 96 c.p0.toNat ((List.range 96).flatMap fun n => leBytes 1 (min 255 (s.power.temps.get n 0))))) ∧
    (Safety.Accepts s 0x0A03 c → partOf c = 0 → Safety.zeroFrom c 1 → 60 ≤ c.p0.toNat → c.p0.toNat ≤ 95 →
      Safety.Ends (.thermWarn c) s 0x0A03 c (watchTj { b 0x0A03 with power := { s.power with warnAt := c.p0.toNat } })
        (okay c.p0.toNat)) ∧
    (Safety.Accepts s 0x0A04 c → partOf c = 0 → Safety.zeroFrom c 4 →
      (c.p3 = 0 → Safety.Ends (.profSet c) s 0x0A04 c { b 0x0A04 with power := { s.power with profOn := false } }
        (okay s.power.profCount)) ∧
      (c.p3 = 1 → c.p0.toNat % 4096 = 0 → c.p1.toNat % 4096 = 0 → c.p1 ≠ 0 → 2000 ≤ c.p2.toNat → c.p2.toNat ≤ 2 ^ 24 →
        Safety.Ends (.profSet c) s 0x0A04 c
          { b 0x0A04 with power := { s.power with
              profOn := true, profBase := c.p0.toNat, profLen := c.p1.toNat, profPeriod := c.p2.toNat, profCount := 0 } } (okay 0)))

/-- Ageing and the fault ledger. -/
def Obligations.AgeingAndTheLedger : Prop :=
  (∀ s : State, live s = true →
    (∀ slack, ageingTurn s = true → s.turn.bucket = 0 → s.turn.inStretch = false →
      Safety.Gives (.ageingSample slack) s ((List.range 16).foldl (sampleDomain slack) (Safety.fresh s))) ∧
    (now s % 2 ^ 20 = 0 → servicePause s = false →
      Safety.Gives .ageingReplan s ((List.range 16).foldl replanDomain (Safety.fresh s))) ∧
    (s.pins.replaceMsg = true → s.cmd.mctpPeer = true →
      Safety.Gives .replaceMessageRepeat s (emit (Safety.fresh s) (replaceMessage s.pins)))) ∧
  (∀ (s : State) (c : Packet), partOf c = 0 → Safety.zeroFrom c 2 →
    (Safety.Accepts s 0x0A10 c → 528 ≤ c.p1.toNat →
      Safety.Ends (.ageRead c) s 0x0A10 c (Safety.begun s 0x0A10 c) (output 16 c.p0.toNat (ageBytes (Safety.begun s 0x0A10 c)))) ∧
    (Safety.Accepts s 0x0A11 c → c.p0.toNat ≤ 1 → 16 ≤ c.p1.toNat → c.p1.toNat ≤ 2 ^ 20 →
      Safety.Ends (.agePolicy c) s 0x0A11 c
        { Safety.begun s 0x0A11 c with power := { s.power with auto := c.p0 = 1#64, lead := c.p1.toNat } } (okay c.p0.toNat))) ∧
  ∀ (s : State) (c : Packet), c.source.val = 0 ∨ c.source.val = 17 →
    (Safety.Accepts s 0x0720 c → Safety.zeroFrom c 3 → hostAddrOk c c.p0.toNat = true → c.p1.toNat % 64 = 0 → c.p2.toNat < 2 ^ 32 →
      let skip := (c.p2.toNat + 2 ^ 32 - s.ledger.tail) % 2 ^ 32
      skip ≤ s.ledger.used →
      let n := min (bufLen c c.p1.toNat / 64) (s.ledger.used - skip)
      let b := Safety.begun s 0x0720 c
      Safety.Ends (.ledgerRead c) s 0x0720 c
        (if c.source.val = 17 then { b with pins := { s.pins with replaceMsg := false } } else b)
        (output n c.p0.toNat ((upto c.p2.toNat n).flatMap s.ledger.entryAt))) ∧
    (Safety.Accepts s 0x0721 c → Safety.zeroFrom c 1 → c.p0.toNat < 2 ^ 32 →
      (c.p0.toNat + 2 ^ 32 - s.ledger.tail) % 2 ^ 32 ≤ s.ledger.used →
      let l := { s.ledger with tail := c.p0.toNat }
      Safety.Ends (.ledgerRelease c) s 0x0721 c { Safety.begun s 0x0721 c with ledger := l } (okay (1024 - l.used))) ∧
    (Safety.Accepts s 0x0722 c → Safety.zeroFrom c 3 → hostAddrOk c c.p0.toNat = true → 1024 ≤ c.p1.toNat → c.p2.toNat ≤ 1 →
      let v := (List.range 256).map fun n => s.ledger.ovf.get n 0
      let b := Safety.begun s 0x0722 c
      Safety.Ends (.ledgerOvfRead c) s 0x0722 c
        (if c.p2 = 1#64 then { b with ledger := { s.ledger with ovf := [], ovfFlag := false } } else b)
        (output (v.filter (· ≠ 0)).length c.p0.toNat (v.flatMap (leBytes 4))))

/-- The life cycle, warrants, quotes and the debug paths. -/
def Obligations.LifeCycleWarrantsAndQuotes : Prop :=
  (∀ (s : State) (c : Packet), Safety.Accepts s 0x0801 c → partOf c = 0 → Safety.zeroFrom c 0 → lcFormed c.payload = true →
    let z := Safety.begun s 0x0801 c
    let b := c.payload
    let no := fun (st : Status) (d : Nat) =>
      Safety.Ends (.lcAdvance c) s 0x0801 c (rtpRefuse z 0xA1 st d).1 (.done st d none none)
    (rd b 8 32 ≠ s.fuse.unitId → no .wrongUnit 0) ∧
    (rd b 8 32 = s.fuse.unitId →
      (rd b 40 8 ≠ s.sec.nonce → no .warrantExpired 0) ∧
      (rd b 40 8 = s.sec.nonce →
        (lcAllowed z (rd b 7 1) (rd b 6 1) = false → no .lcOrder (sealCount z)) ∧
        (lcAllowed z (rd b 7 1) (rd b 6 1) = true →
          (requestSigned z b (rd b 6 1) 96 = false → no .sigInvalid 0) ∧
          (requestSigned z b (rd b 6 1) 96 = true →
            Safety.Ends (.lcAdvance c) s 0x0801 c (lcMake z (rd b 7 1) (beVal (sub b 48 48))) (okay (rd b 7 1))))))) ∧
  (∀ (s : State) (c : Packet), Safety.Accepts s 0x0802 c → partOf c = 0 → Safety.zeroFrom c 2 →
    let z := Safety.begun s 0x0802 c
    let w := warrantOf c.payload
    (c.p0 = 0 → c.payload.length = 272 → warrantFormed c.payload = true → rd c.payload 8 32 = s.fuse.unitId →
      rd c.payload 40 8 = s.sec.nonce → now s < w.expiry → warrantAllowed z w = true → requestSigned z c.payload w.signer 80 = true →
      s.sec.warrants.length < 4 ∨ (∃ x ∈ s.sec.warrants, x.serial = w.serial) →
      let t := measureWarrants { z with sec := { s.sec with warrants := holdWarrant w s.sec.warrants } }
      Safety.Ends (.warrantLoad c) s 0x0802 c (record t { cls := 0xA4, kind := 10 }) (okay t.sec.warrants.length)) ∧
    (c.p0 = 1 → c.payload = [] → (∃ x ∈ s.sec.warrants, x.serial = c.p1.toNat) →
      let t := endWarrants z fun x => x.serial = c.p1.toNat
      Safety.Ends (.warrantLoad c) s 0x0802 c t (okay t.sec.warrants.length))) ∧
  (∀ (s : State) (c : Packet), hostAddrOk c c.p0.toNat = true →
    (Safety.Accepts s 0x0803 c → partOf c = 0 → Safety.zeroFrom c 2 → 112 ≤ c.p1.toNat →
      let l := s.sec.warrants
      Safety.Ends (.warrantRead c) s 0x0803 c (Safety.begun s 0x0803 c)
        (output s.sec.nonce c.p0.toNat (leBytes 8 s.sec.nonce ++ leBytes 1 l.length ++ leBytes 7 0 ++ l.flatMap Warrant.bytes))) ∧
    (Safety.Accepts s 0x0804 c → Safety.zeroFrom c 3 → 448 ≤ c.p1.toNat → c.p2.toNat < 128 → bit c.p2.toNat 0 = false →
      let z := Safety.begun s 0x0804 c
      let b := quoteBody z (partOf c) c.p2.toNat c.payload
      Safety.Ends (.attestQuote c) s 0x0804 c z
        (output 448 c.p0.toNat
          (b ++ beBytes 96 (if lcState s = 6 then 0 else Config.signature (Config.aliasKey (measureOf z 2)) b))))) ∧
  ∀ s : State, live s = true →
    Safety.Gives .warrantExpiry s (endWarrants (Safety.fresh s) fun w => w.expiry ≤ now s) ∧
    ∀ path, (pathOpen s path = true → Safety.Gives (.debugAccess path) s (emit (Safety.fresh s) .testServed)) ∧
      (pathOpen s path = false → Safety.Gives (.debugAccess path) s (emit (closedPath (Safety.fresh s)) .testZeros))

/-- Firmware update. -/
def Obligations.FirmwareDeliveryAndActivation : Prop :=
  (∀ (s : State) (c : Packet), partOf c = 0 →
    let z := fun (op : Nat) => Safety.begun s op c
    let b := inactiveBank s
    let k := bankOf s b
    (Safety.Accepts s 0x0901 c → c.p3.toNat ≤ 1 → c.p5 = 0 → k.erasing = false → k.cutShort = false → mayProgram s b = true →
      c.p2.toNat ≤ 7152 → c.p0.toNat < c.p2.toNat → c.p1 ≠ 0 →
      k.imageId = 0 ∨ c.p1.toNat = k.imageId ∧ c.p2.toNat = k.chunks → c.p4.toNat = crc32 c.payload →
      let n := c.p0.toNat
      let blank := (k.at_ n).all (· = 0xFF#8)
      let done := fun (t : State) => setBank t b (k.program n c.p1.toNat c.p2.toNat c.payload)
      let sound := readsBack s.fresh
      let erased := { takeFresh (z 0x0901) with fw := s.fw.erase (bankBase b + n * 4096) 4096 sound }
      let programs := fun (t : State) =>
        Safety.Ends (.fwChunk c) s 0x0901 c (if sound = true then done t else (failProgram t b n).1)
          (if sound = true then okay 0 else .done .aborted 0 none none)
      (k.held.contains n = true → Safety.Ends (.fwChunk c) s 0x0901 c (z 0x0901) (okay 1)) ∧
      (k.held.contains n = false →
        (blank = true → programs (takeFresh (z 0x0901))) ∧
        (blank = false → c.p3 = 1 → programs erased) ∧
        (blank = false → c.p3 = 0 →
          Safety.Ends (.fwChunk c) s 0x0901 c (record (z 0x0901) { cls := 0xB4, kind := 9 })
            (.done .notBlank (bankBase b + n * 4096) none none)))) ∧
    (Safety.Accepts s 0x0902 c → Safety.zeroFrom c 2 → hostAddrOk c c.p0.toNat = true → 928 ≤ c.p1.toNat →
      Safety.Ends (.fwStatus c) s 0x0902 c (z 0x0902) (output 928 c.p0.toNat (fwStatusBytes (z 0x0902)))) ∧
    (Safety.Accepts s 0x0904 c → Safety.zeroFrom c 0 → mayProgram s b = true → k.erasing = false →
      let f := s.fw.erase (bankBase b) 0x1C0_0000 false
      Safety.Ends (.fwDiscard c) s 0x0904 c
        (setBank { z 0x0904 with fw := f } b { FlashBank.reset with sealOk := false, erasing := true })
        (okay ((f.journalSeq + 2 ^ 32 - 1) % 2 ^ 32))) ∧
    ∀ env, Safety.Accepts s 0x0903 c → Safety.zeroFrom c 1 → k.erasing = false → k.cutShort = false → c.p0 ≠ 0 →
      c.p0.toNat = k.imageId → k.missing = 0 → s.set.protoFloor ≤ k.protoMax → activationBusy (z 0x0903) = false →
      Safety.Ends (.fwActivate c env) s 0x0903 c (activate (z 0x0903) b (Safety.replyTo s 0x0903 c) env) .later) ∧
  ∀ s : State, live s = true →
    let z := Safety.fresh s
    (∃ t, Safety.Gives .bankEraseComplete s t ∧ t.mem = s.mem ∧ t.set = s.set ∧ t.boot = s.boot ∧
      ∀ b < 2, bankOf t b =
        if (bankOf s b).erasing = false then bankOf s b
        else if readsBack s.fresh = true then { FlashBank.reset with sealOk := true }
        else { bankOf s b with erasing := false, cutShort := true }) ∧
    ∀ a, s.fw.activation = some a → s.fw.halted = false → a.flushing = false →
      let r := renewCores z
      (a.oldRestart = false →
        Safety.Gives .kyoharReportsRunning s
          (endPause (record (runBank (writeBootRecord r (inactiveBank s)) (inactiveBank s)) { cls := 0xB5, kind := 9 })
            a.reply .ok a.version) ∧
        Safety.Gives .kyoharReportTimeout s
          (emit { r with fw := { r.fw with activation := some { a with oldRestart := true } } } (.coresRestart false))) ∧
      (a.oldRestart = true →
        Safety.Gives .kyoharReportsRunning s (endPause (record r { cls := 0xB6, kind := 9 }) a.reply .aborted 0) ∧
        Safety.Gives .kyoharReportTimeout s
          (record { z with fw := { s.fw with halted := true } } { cls := 0xB8, kind := 9 }))

/-- Command sources. -/
def Obligations.CommandsReachTheHub : Prop :=
  (∀ (s : State) (src : Fin 17) (v : Nat), Safety.FabricUp s → fnExists s src = true →
    let z := Safety.fresh s
    let c := chan s src
    (v % 2 ^ 16 < 2 ^ c.sqLog2 → Safety.Gives (.sqTail src v) s (setChan z src { c with sqTail := v % 2 ^ 16 })) ∧
    (2 ^ c.sqLog2 ≤ v % 2 ^ 16 → Safety.Gives (.sqTail src v) s (setChan z src { c with errCause := 5 })) ∧
    (v % 2 ^ 17 < 2 ^ c.cqLog2 →
      Safety.Gives (.cqHead src v) s
        (flushHeld c.held.length
          (setChan z src { c with cqHead := v % 2 ^ 17, cqUsed := c.cqUsed - c.released (v % 2 ^ 17) }) src)) ∧
    (2 ^ c.cqLog2 ≤ v % 2 ^ 17 → Safety.Gives (.cqHead src v) s (setChan z src { c with errCause := 5 })) ∧
    (c.enable = false → c.started = [] →
      let d := { c with irqEn := bit v 11, vector := bits v 22 12, sqLog2 := bits v 5 1, cqLog2 := bits v 10 6 }
      (d.sizesOk = true →
        ∃ t, Safety.Gives (.ringEnable src v) s t ∧ t = { z with cmd := t.cmd } ∧
          chan t src = { d with enable := true, sqHead := 0, sqTail := 0, cqHead := 0, cqTail := 0, cqUsed := 0, phase := true,
                                errCause := 0, stopped := false }) ∧
      (d.sizesOk = false →
        ∃ t, Safety.Gives (.ringEnable src v) s t ∧ t = { z with cmd := t.cmd } ∧ chan t src = { d with errCause := 1 })) ∧
    (c.enable = true →
      let d := { c with irqEn := bit v 11, vector := bits v 22 12, enable := false, fetched := [] }
      ∃ t, Safety.Gives (.ringDisable src v) s (c.fetched.foldl (abortOne src) t) ∧ t = { z with cmd := t.cmd } ∧ chan t src = d)) ∧
  ∀ s : State, live s = true →
    let z := Safety.fresh s
    (∀ src : Fin 17, mayFetch s src = true → (chan s src).sqHead ≠ (chan s src).sqTail →
      let fails := fun (cls : Nat) =>
        stopRing (record z { cls := cls, kind := 8, index := src, part := some (srcPart src) }) src 3
      (∀ b, 64 ≤ b.length → Safety.Gives (.commandFetch src (.data b)) s (takeSlots z src b)) ∧
      Safety.Gives (.commandFetch src .refused) s (fails 0x83) ∧
      ∀ b, Safety.Gives (.commandFetch src (.poisoned b)) s (fails 0x84)) ∧
    (∀ (src : Fin 17) l, mayFetch s src = false ∨ (chan s src).sqHead = (chan s src).sqTail → Safety.Gives (.commandFetch src l) s z) ∧
    ∀ m, 64 ≤ m.length → mctpServes s (rd m 0 2) = true →
      let t := { z with cmd := { s.cmd with mctpPeer := true } }
      let gives := Safety.Gives (.mctpCommand m) s
      (8 ≤ mctpOpen s → gives (refuseHeader t 17 m .busy 0)) ∧
      (mctpOpen s < 8 →
        (m.length ≠ 64 + payloadLen m → gives (refuseHeader t 17 m .badParam 6)) ∧
        (payloadLen m ≤ 4096 → m.length = 64 + payloadLen m →
          (opcodes.contains (rd m 0 2) = false → gives (refuseHeader t 17 m .badOpcode 0)) ∧
          (opcodes.contains (rd m 0 2) = true →
            gives { t with cmd := { t.cmd with
                      mctpFetched := s.cmd.mctpFetched ++ [{ opcode := rd m 0 2, packet := packetOf 17 m }] } })))

/-- Register writes. -/
def Obligations.RegisterWritesByAccessType : Prop :=
  ∀ s : State, Safety.FabricUp s →
    let z := Safety.fresh s
    (∀ o v, regDomain o = none ∨ (∃ d, regDomain o = some d ∧ answers s d = true) → regAccessOk o 4 = true → inTallyWindow o = false →
      postedBlock o = none → v < 2 ^ 32 →
      let t := if 0x100_0000 ≤ o ∧ o < 0x180_0000 then aliasWrite z o v else writeWord z o v
      (isForeignSet (baseOf o) = false → Safety.Gives (.registerWrite { master := .host 0, off := o, width := 4, value := v }) s t) ∧
      (isForeignSet (baseOf o) = true → Safety.Gives (.registerWrite { master := .host 0, off := o, width := 4, value := v }) s z) ∧
      (isHostReg (baseOf o) = false → Safety.Gives (.registerWrite { master := .core, off := o, width := 4, value := v }) s t) ∧
      (isHostReg (baseOf o) = true → Safety.Gives (.registerWrite { master := .core, off := o, width := 4, value := v }) s z)) ∧
    (∀ r b v, r < 0x4_0000 → r % 4 = 0 → b < 32 → r ≠ 0x50 → postedBlock (0x100_0000 + (r * 8 + b) * 4) = none →
      Safety.Gives (.bitAliasWrite (0x100_0000 + (r * 8 + b) * 4) v) s
        (if bit (rwMask r) b then writeWord z r (setBit (regRaw z r) b (bit v 0)) else z)) ∧
    (∀ v, Safety.Gives (.cfgLockWrite 0x50 v) s (if bit v 0 then { z with glob := { s.glob with cfgLock := true } } else z) ∧
      Safety.Gives (.cfgLockWrite 0x1_0000 v) s (postWrite z .turn 0x1_0000 v)) ∧
    (∀ o b v, postedBlock o = some b →
      (blockBusy s b = false →
        Safety.Gives (.postedWrite o v) s { z with glob := { s.glob with posted := s.glob.posted ++ [(b, o, v % 2 ^ 32)] } }) ∧
      (blockBusy s b = true →
        Safety.Gives (.postedWrite o v) s
          { z with glob := { s.glob with pwDrop := s.glob.pwDrop ||| BitVec.ofNat 4 (2 ^ dropBit b) } })) ∧
    (∀ n, blockBusy s .leat = false →
      Safety.Gives (.leatFecClr n) s { z with glob := { s.glob with posted := s.glob.posted ++ [(.leat, 0x40_0010, n % 2 ^ 32)] } }) ∧
    (s.glob.cfgLock = false →
      (∀ v, 16 ≤ v → v ≤ 4096 →
        Safety.Gives (.hostRdLimitWrite v) s
          (if v < tagSum s 17 0 then z else { z with host := { s.host with limit := v } })) ∧
      (∀ (fn : Fin 17) v, v < 2 ^ 13 →
        Safety.Gives (.hostFnTagsWrite fn v) s
          (if s.host.limit < tagSum s fn v then z else setFunc z fn { func s fn with tags := v }))) ∧
    (s.glob.cfgLock = true →
      (∀ v, Safety.Gives (.hostRdLimitWrite v) s (lockedWrite z)) ∧
      (∀ (fn : Fin 17) v, Safety.Gives (.hostFnTagsWrite fn v) s (lockedWrite z)))

/-- Sequence clears. -/
def Obligations.ClearsRemoveOnlyWhatWasRead : Prop :=
  (∀ (r : Sqc) (n : Nat), r.seq < 256 → n < 256 → (∀ x ∈ r.stamps, x.2 < 256) →
    (128 ≤ (r.seq + 256 - n) % 256 → r.clear n = { r with clr := n }) ∧
    ((r.seq + 256 - n) % 256 < 128 →
      (∀ b q, (b, q) ∈ (r.clear n).stamps ↔ (b, q) ∈ r.stamps ∧ 128 ≤ (n + 256 - q) % 256) ∧
      ((∀ b q, (b, q) ∈ r.stamps → (n + 256 - q) % 256 < 128) → (r.clear n).value = 0) ∧
      ((∃ b q, (b, q) ∈ r.stamps ∧ 128 ≤ (n + 256 - q) % 256) → (r.clear n).value = r.value)) ∧
    (r.clear n).clr = n ∧ (r.clear n).seq = r.seq) ∧
  ∀ (s : State) (v : Nat), Safety.FabricUp s →
    let z := Safety.fresh s
    Safety.Gives (.sqcClearWrite 0x4008 v) s { z with glob := { s.glob with fabMiss := s.glob.fabMiss.clear (v % 256) } } ∧
    Safety.Gives (.sqcClearWrite 0x5104 v) s { z with glob := { s.glob with tallyDl := s.glob.tallyDl.clear (v % 256) } } ∧
    ∀ f < 17,
      let e := evtRegs s f
      Safety.Gives (.sqcClearWrite (0x3_0004 + 16 * f) v) s
        { z with glob := { s.glob with evt := s.glob.evt.put f { e with stat := e.stat.clear (v % 256) } } }

/-- Plan commands. -/
def Obligations.PlanCommands : Prop :=
  ∀ (s : State) (c : Packet),
    let z := fun (op : Nat) => Safety.begun s op c
    (Safety.Accepts s 0x0201 c → Safety.zeroFrom c 3 → 64 ≤ c.p1.toNat → c.p1.toNat ≤ 2 ^ 28 →
      Safety.Ends (.planLoad c none) s 0x0201 c (record (z 0x0201) { cls := 0x83 }) (bad 0) ∧
      ∀ b p h, b.length = c.p1.toNat → rd b 8 4 = c.p1.toNat → parsePlan b c.p2.toNat = some p →
        partOf c = 0 ∨ p.part = partOf c → storeOk s p.part p.store p.totalLen = true → freeHandle s = some h →
        Safety.Ends (.planLoad c (some b)) s 0x0201 c (setPlan (memPut (z 0x0201) p.store b) h p) (okay h)) ∧
    (∀ p, planOf s c.p0.toNat = some p → partOf c = 0 ∨ p.part = partOf c →
      (Safety.Accepts s 0x0202 c → Safety.zeroFrom c 4 → p.state = .loaded → c.p3 = 0xFFFF → c.p1 = 0 ∨ 1040 ≤ c.p2.toNat →
        let t := designateNow (z 0x0202)
        let q := { p with takeover := none }
        let x := admitBoth t c.p0.toNat q
        let out := if c.p1 = 0 then none else some (c.p1.toNat, x.2)
        (x.1 = none →
          Safety.Ends (.planAdmit c) s 0x0202 c (setPlan t c.p0.toNat { q with state := .admitted })
            (.done .ok t.glob.tariffVer none out)) ∧
        (∀ st d, x.1 = some (st, d) → Safety.Ends (.planAdmit c) s 0x0202 c t (.done st d none out))) ∧
      (Safety.Accepts s 0x0203 c → Safety.zeroFrom c 3 → p.state = .admitted → p.pendAct = none → p.takeover = none →
        c.p2 = 0xFFFF → ∀ t, turnFor s c.p1.toNat 1 = .ok t →
        Safety.Ends (.planActivate c) s 0x0203 c
          (setPlan (z 0x0203) c.p0.toNat { p with pendAct := some (t, none, Safety.replyTo s 0x0203 c) }) (.interim t)) ∧
      (Safety.Accepts s 0x0204 c → Safety.zeroFrom c 2 →
        (p.state ≠ .active → p.pendAct = none →
          Safety.Ends (.planRetire c) s 0x0204 c (freePlan (z 0x0204) c.p0.toNat) (okay 0)) ∧
        (p.state = .active → p.pendRet = none → ∀ t, turnFor s c.p1.toNat 1 = .ok t →
          Safety.Ends (.planRetire c) s 0x0204 c
            (setPlan (z 0x0204) c.p0.toNat { p with pendRet := some (t, some (Safety.replyTo s 0x0204 c)) }) (.interim t)))) ∧
    (Safety.Accepts s 0x0205 c → Safety.zeroFrom c 3 → c.p2.toNat ≤ 0xFFFF →
      Safety.Ends (.tariffRead c) s 0x0205 c (z 0x0205)
        (output s.glob.tariffVer c.p0.toNat ((tariffBytes (z 0x0205) s.set s.glob.tariffVer c.p2.toNat).take c.p1.toNat)))
end

