-- ==== Sys2Proof/Machine/ConfigSpace.lean ====
section
/-! DEFINITION. The configuration space that a function presents: the header of Table 15-2, the capability chain of Table 15-3, and
the BAR registers of Table 15-4 (R473, R474, R477, R478). The spec gives this space no row of its own: the rows that write it are
VF_ENABLE_WRITE and RESIZABLE_BAR_WRITE. -/

namespace Sys2Proof.Machine

/-- A capability with its settings (Table 15-3). -/
inductive Cap where
  | powerManagement (d0 d3hot noSoftReset pme : Bool)
  | msi (wide maskable : Bool) (vectors : Nat)
  | pciExpress (flr : Bool) (tagBits tagBitsNoFlit : Nat)
  | msix (entries tableBar table pbaBar pba : Nat)
  | aer
  | serialNumber (id : Nat)
  | resizableBar (bar : Nat) (gib : List Nat)
  | srIov (total first stride device pageBytes : Nat)
  | dataLinkFeature (scaledFlowControl : Bool)
  | physicalLayer (gts : Nat)
  | laneMargining (bytes : Nat)
  | dataObjectExchange
  deriving DecidableEq, Repr

/-- The capabilities of a function by offset, in the order of their chain (R474). -/
def capsOf (s : State) (f : Nat) : List (Nat × Cap) :=
  let express := (0x70, Cap.pciExpress true 14 10)
  let vectors := (0xB0, Cap.msix 2048 2 0x1_0000 2 0x1_8000)
  if f ≠ 0 then [express, vectors, (0x100, .aer)]
  else
    [(0x40, .powerManagement true true true false), (0x50, .msi true true 32), express, vectors, (0x100, .aer),
      (0x148, .serialNumber (s.fuse.unitId % 2 ^ 64)), (0x158, .resizableBar 4 [64, 128, 256, 512]),
      (0x170, .srIov 16 1 1 0x0161 4096), (0x1B0, .dataLinkFeature true), (0x1C0, .physicalLayer 16), (0x200, .physicalLayer 32),
      (0x230, .physicalLayer 64), (0x250, .laneMargining 72), (0x2A0, .dataObjectExchange)]

/-- The offset of the capability after the one at an offset, 0 after the last (R474). -/
def nextCap (s : State) (f off : Nat) : Nat := (((capsOf s f).find? fun c => off < c.1).map Prod.fst).getD 0

/-- Size of a BAR of a function, as a power of two (Table 15-4, R478). -/
def barLog2Of (s : State) (f bar : Nat) : Nat :=
  if bar = 0 then (if f = 0 then 26 else 18) else if bar = 2 then (if f = 0 then 20 else 17) else bar4Log2 s f

/-- A 64-bit BAR whose base the host has written: the bits below its size read as zero (R477, R478). The type bits, 64-bit and
prefetchable, are those of PCI Express (PRESUMED, log entry 87). -/
def barValue (s : State) (f bar base : Nat) : Nat :=
  let n := 2 ^ barLog2Of s f bar
  base / n * n + 4 + (if bar = 4 then 8 else 0)

/-- A 32-bit word of the header of a function (Table 15-2); `base` gives the bases that the host has written to the PF's BARs. Words of
which the table says nothing are not given here, and read as reserved ones do (R474). -/
def headerWord (s : State) (base : Nat → Nat) (f o : Nat) : Nat :=
  let pf := decide (f = 0)
  let bar := fun (n half : Nat) => if pf then barValue s f n (base n) / 2 ^ (32 * half) % 2 ^ 32 else 0
  if o = 0x00 then (if pf then 0x1F3B + 0x0160 * 2 ^ 16 else 0xFFFF_FFFF)
  else if o = 0x08 then s.fuse.silicon % 256 + 0x12_0000 * 2 ^ 8
  else if 0x10 ≤ o ∧ o < 0x28 ∧ o % 4 = 0 then bar ((o - 0x10) / 8 * 2) ((o - 0x10) / 4 % 2)
  else if o = 0x2C then 0x1F3B + s.fuse.subsystem % 2 ^ 16 * 2 ^ 16
  else if o = 0x34 then (if pf then 0x40 else 0x70)
  else 0

end Sys2Proof.Machine
end

