-- ==== Sys2Proof/Laws/ConfigSpace.lean ====
section
/-! SUPPORT. What the configuration space of a function presents (R473, R474). -/

namespace Sys2Proof.Machine

/-- Every function's capabilities begin where its header points (R473, R474). -/
theorem capabilities_begin (s : State) (base : Nat → Nat) (f : Nat) :
    ((capsOf s f).head?.map Prod.fst) = some (headerWord s base f 0x34) := by
  unfold capsOf headerWord
  by_cases h : f = 0 <;> simp [h]

end Sys2Proof.Machine
end

