-- ==== Sys2Proof/Laws/Memory.lean ====
section
/-! SUPPORT. Memory keeps its canonical form, and a byte reads as it was last written. -/

namespace Sys2Proof

namespace Tbl

variable {α : Type}

/-- Numbers rise strictly. -/
def Rising (t : Tbl α) : Prop := t.Pairwise fun x y => x.1 < y.1

theorem mem_put {t : Tbl α} {k : Nat} {v : α} {e : Nat × α} (h : e ∈ t.put k v) : e = (k, v) ∨ e ∈ t := by
  induction t with
  | nil => simpa [put] using h
  | cons x r ih =>
    obtain ⟨j, w⟩ := x
    simp only [put] at h
    split at h
    · rcases List.mem_cons.1 h with h | h
      · exact .inl h
      · exact .inr (List.mem_cons_of_mem _ h)
    · split at h
      · rcases List.mem_cons.1 h with h | h
        · exact .inl h
        · exact .inr h
      · rcases List.mem_cons.1 h with h | h
        · exact .inr (h ▸ List.mem_cons_self)
        · rcases ih h with h | h
          · exact .inl h
          · exact .inr (List.mem_cons_of_mem _ h)

theorem Rising.put {t : Tbl α} (h : t.Rising) (k : Nat) (v : α) : (t.put k v).Rising := by
  unfold Rising at *
  induction t with
  | nil => simp [Tbl.put]
  | cons x r ih =>
    obtain ⟨j, w⟩ := x
    have hr := List.pairwise_cons.1 h
    simp only [Tbl.put]
    split
    · rename_i e; exact List.pairwise_cons.2 ⟨fun y hy => e ▸ hr.1 y hy, hr.2⟩
    · split
      · rename_i lt
        refine List.pairwise_cons.2 ⟨fun y hy => ?_, h⟩
        rcases List.mem_cons.1 hy with rfl | hy
        · exact lt
        · exact Nat.lt_trans lt (hr.1 y hy)
      · rename_i ne nlt
        refine List.pairwise_cons.2 ⟨fun y hy => ?_, ih hr.2⟩
        rcases mem_put hy with rfl | hy
        · exact Nat.lt_of_le_of_ne (Nat.not_lt.1 nlt) ne
        · exact hr.1 y hy

theorem get_put_same (t : Tbl α) (k : Nat) (v d : α) : (t.put k v).get k d = v := by
  induction t with
  | nil => simp [put, get]
  | cons x r ih =>
    obtain ⟨j, w⟩ := x
    simp only [put]
    split
    · simp [get]
    · split
      · simp [get]
      · rename_i ne _; simp [get, ne, ih]

theorem get_put_other (t : Tbl α) {k n : Nat} (v d : α) (h : k ≠ n) : (t.put k v).get n d = t.get n d := by
  induction t with
  | nil => simp [put, get, h]
  | cons x r ih =>
    obtain ⟨j, w⟩ := x
    simp only [put]
    split
    · rename_i e; subst e; simp [get, h]
    · split
      · simp [get, h]
      · simp only [get]; split
        · rfl
        · exact ih

theorem get_drop_same (t : Tbl α) (k : Nat) (d : α) : (t.drop k).get k d = d := by
  induction t with
  | nil => rfl
  | cons x r ih =>
    obtain ⟨j, w⟩ := x
    by_cases h : j = k
    · simp only [drop] at ih ⊢; simp [h, ih]
    · simp only [drop] at ih ⊢; simp [h, get, ih]

theorem get_drop_other (t : Tbl α) {k n : Nat} (d : α) (h : k ≠ n) : (t.drop k).get n d = t.get n d := by
  induction t with
  | nil => rfl
  | cons x r ih =>
    obtain ⟨j, w⟩ := x
    simp only [drop] at ih ⊢
    by_cases e : j = k
    · subst e; simp [get, h, ih]
    · simp [e, get, ih]

end Tbl

namespace Machine

/-- The canonical form in terms of the list: keys rise strictly and no cell holds zero. -/
theorem Mem.sorted_iff (l : List Host.Cell) :
    Mem.sorted l = true ↔ Tbl.Rising l ∧ ∀ c ∈ l, c.2 ≠ 0#8 := by
  unfold Tbl.Rising
  induction l with
  | nil => simp [Mem.sorted]
  | cons x r ih =>
    cases r with
    | nil => simp [Mem.sorted]
    | cons y r =>
      simp only [Mem.sorted, Bool.and_eq_true, decide_eq_true_eq, ih]
      constructor
      · rintro ⟨⟨hlt, hx⟩, hp, ha⟩
        refine ⟨List.pairwise_cons.2 ⟨fun z hz => ?_, hp⟩, ?_⟩
        · rcases List.mem_cons.1 hz with rfl | hz
          · exact hlt
          · exact Nat.lt_trans hlt ((List.pairwise_cons.1 hp).1 z hz)
        · intro c hc
          rcases List.mem_cons.1 hc with rfl | hc
          · exact hx
          · exact ha c hc
      · rintro ⟨hp, ha⟩
        have h := List.pairwise_cons.1 hp
        exact ⟨⟨h.1 y List.mem_cons_self, ha x List.mem_cons_self⟩, h.2, fun c hc => ha c (List.mem_cons_of_mem _ hc)⟩

theorem Mem.wf_iff (m : Mem) : m.wf = true ↔ Tbl.Rising m.cells ∧ ∀ c ∈ m.cells, c.2 ≠ 0#8 := Mem.sorted_iff _

/-- A memory with the same cells. -/
theorem Mem.wf_same {m n : Mem} (e : n.cells = m.cells) : m.wf = true → n.wf = true := fun h => by
  unfold Mem.wf at *
  rw [e]
  exact h

/-- Cells left out keep the form. -/
theorem Mem.sorted_filter {l : List Host.Cell} (p : Host.Cell → Bool) (h : Mem.sorted l = true) :
    Mem.sorted (l.filter p) = true := by
  rw [Mem.sorted_iff] at *
  exact ⟨List.Pairwise.filter p h.1, fun c hc => h.2 c (List.mem_of_mem_filter hc)⟩

/-- `Mem.put` keeps the form. -/
theorem Mem.put_wf {m : Mem} (k : Nat) (b : Byte) (h : m.wf = true) : (m.put k b).wf = true := by
  unfold Mem.put Mem.wf at *
  split
  · exact Mem.sorted_filter _ h
  · rename_i nz
    rw [Mem.sorted_iff] at *
    refine ⟨h.1.put k b, fun c hc => ?_⟩
    rcases Tbl.mem_put hc with rfl | hc
    · exact nz
    · exact h.2 c hc

theorem Mem.putAll_wf : ∀ {m : Mem} (k : Nat) (d : Bytes), m.wf = true → (m.putAll k d).wf = true
  | _, _, [], h => h
  | _, k, b :: r, h => Mem.putAll_wf (k + 1) r (Mem.put_wf k b h)

theorem Mem.zero_wf {m : Mem} (k n : Nat) (h : m.wf = true) : (m.zero k n).wf = true := Mem.sorted_filter _ h

theorem Mem.taint_wf {m : Mem} (u : Nat) (h : m.wf = true) : (m.taint u).wf = true := h

theorem Mem.storeUnit_wf {m : Mem} (k : Nat) (d : List (Byte × Bool)) (h : m.wf = true) : (m.storeUnit k d).wf = true := by
  have := Mem.putAll_wf k (d.map Prod.fst) h
  unfold Mem.storeUnit
  dsimp only
  split
  · exact Mem.taint_wf _ this
  · split <;> exact this

theorem Mem.store_wf : ∀ (n : Nat) {m : Mem} (k : Nat) (d : List (Byte × Bool)), m.wf = true → (Mem.store n m k d).wf = true
  | 0, _, _, _, h => h
  | n + 1, m, k, d, h => by
    unfold Mem.store
    split
    · exact h
    · exact Mem.store_wf n _ _ (Mem.storeUnit_wf _ _ h)

/-- A bin copied over another keeps the form. -/
theorem Mem.moveBin_wf {m : Mem} (src dst : Nat) (h : m.wf = true) : (m.moveBin src dst).wf = true := by
  unfold Mem.wf Mem.moveBin at *
  rw [Mem.sorted_iff] at *
  obtain ⟨hp, hz⟩ := h
  have hf := fun p => List.Pairwise.filter (R := fun (x y : Host.Cell) => x.1 < y.1) p hp
  dsimp only
  unfold Tbl.Rising
  constructor
  · simp only [List.pairwise_append, List.pairwise_map]
    refine ⟨⟨hf _, ?_, ?_⟩, hf _, ?_⟩
    · refine (hf _).imp_of_mem ?_
      intro x y hx hy hxy
      simp only [List.mem_filter, Bool.and_eq_true, decide_eq_true_eq] at hx hy
      omega
    · intro x hx y hy
      simp only [List.mem_filter, List.mem_map, decide_eq_true_eq] at hx hy
      obtain ⟨z, _, rfl⟩ := hy
      simp only
      omega
    · intro x hx y hy
      simp only [List.mem_append, List.mem_filter, List.mem_map, Bool.and_eq_true, decide_eq_true_eq] at hx hy
      rcases hx with hx | ⟨z, hz, rfl⟩
      · omega
      · simp only
        omega
  · intro c hc
    simp only [List.mem_append, List.mem_filter, List.mem_map] at hc
    rcases hc with (hc | ⟨z, hz', rfl⟩) | hc
    · exact hz c hc.1
    · exact hz z hz'.1
    · exact hz c hc.1

/-! ### Reading what was written -/

theorem Mem.byte_put_same (m : Mem) (k : Nat) (b : Byte) : (m.put k b).byte k = b := by
  unfold Mem.put Mem.byte
  split
  · rename_i e; exact (Tbl.get_drop_same _ _ _).trans e.symm
  · exact Tbl.get_put_same _ _ _ _

theorem Mem.byte_put_other (m : Mem) {k n : Nat} (b : Byte) (h : k ≠ n) : (m.put k b).byte n = m.byte n := by
  unfold Mem.put Mem.byte
  split
  · exact Tbl.get_drop_other _ _ h
  · exact Tbl.get_put_other _ _ _ h

/-- A run of bytes written changes nothing outside it. -/
theorem Mem.byte_putAll_other : ∀ (d : Bytes) (m : Mem) (k n : Nat), n < k ∨ k + d.length ≤ n → (m.putAll k d).byte n = m.byte n
  | [], _, _, _, _ => rfl
  | b :: r, m, k, n, h => by
    have h' : n < k + 1 ∨ k + 1 + r.length ≤ n := by simp only [List.length_cons] at h; omega
    have hk : k ≠ n := by simp only [List.length_cons] at h; omega
    exact (Mem.byte_putAll_other r _ _ n h').trans (Mem.byte_put_other m b hk)

end Machine
end Sys2Proof
end

