-- ==== Sys2Proof/Laws/Kept.lean ====
section
/-! SUPPORT. What every operation of the hub leaves alone: the relation that each of them keeps, and how it composes. -/

namespace Sys2Proof.Machine

/-- From `s` to `t` the queue and the fuses are unchanged, no seal bit is cleared, and memory keeps its canonical form. -/
structure Held (s t : State) : Prop where
  pending : t.pending = s.pending
  fuse : t.fuse = s.fuse
  seals : ∀ n, s.otp.sealBits.getLsbD n = true → t.otp.sealBits.getLsbD n = true
  mem : s.mem.wf = true → t.mem.wf = true

theorem Held.refl (s : State) : Held s s := ⟨rfl, rfl, fun _ => id, id⟩

theorem Held.trans {s t u : State} (h : Held s t) (k : Held t u) : Held s u :=
  ⟨k.pending.trans h.pending, k.fuse.trans h.fuse, fun n w => k.seals n (h.seals n w), fun w => k.mem (h.mem w)⟩

/-- The same, and TURN_COUNT is unchanged. -/
structure Kept (s t : State) : Prop where
  held : Held s t
  count : t.turn.count = s.turn.count

theorem Kept.refl (s : State) : Kept s s := ⟨Held.refl s, rfl⟩

theorem Kept.trans {s t u : State} (h : Kept s t) (k : Kept t u) : Kept s u := ⟨h.held.trans k.held, k.count.trans h.count⟩

theorem Kept.of_same {s t : State} (p : t.pending = s.pending) (f : t.fuse = s.fuse) (o : t.otp = s.otp)
    (c : t.turn.count = s.turn.count) (m : s.mem.wf = true → t.mem.wf = true) : Kept s t :=
  ⟨⟨p, f, fun n h => by rw [o]; exact h, m⟩, c⟩

/-- A record that differs from a kept one in other fields. -/
theorem Kept.lit {s t : State} {out : List Output} {fresh : Nat} {pins : Pins} {boot : Boot} {turn : TurnUnit} {set : Settings}
    {ledger : Ledger} {glob : Global} {cmd : Commands} {plans : Plans} {mem : Mem} {coh : Coh} {xlate : Xlate} {fab : Fabric}
    {tallies : Tallies} {dma : Tbl Engine} {arr : Arrays} {leat : Leat} {sites : Sites} {power : Power} {host : HostEnd}
    {sec : Security} {fw : Firmware} (h : Kept s t) (hc : turn.count = t.turn.count)
    (hm : t.mem.wf = true → mem.wf = true) :
    Kept s { pending := t.pending, out := out, fresh := fresh, fuse := t.fuse, otp := t.otp, pins := pins, boot := boot, turn := turn,
             set := set, ledger := ledger, glob := glob, cmd := cmd, plans := plans, mem := mem, coh := coh, xlate := xlate, fab := fab,
             tallies := tallies, dma := dma, arr := arr, leat := leat, sites := sites, power := power, host := host, sec := sec,
             fw := fw } :=
  h.trans ⟨⟨rfl, rfl, fun _ => id, hm⟩, hc⟩

theorem Kept.foldl {α : Type} {f : State → α → State} {s t : State} (l : List α) (hf : ∀ a x, Kept a (f a x)) (h : Kept s t) :
    Kept s (l.foldl f t) := by
  induction l generalizing t with
  | nil => exact h
  | cons x r ih => exact ih (h.trans (hf t x))

theorem Kept.foldl_fst {α β : Type} {f : State × β → α → State × β} {s : State} {p : State × β} (l : List α)
    (hf : ∀ a x, Kept a.1 (f a x).1) (h : Kept s p.1) : Kept s (l.foldl f p).1 := by
  induction l generalizing p with
  | nil => exact h
  | cons x r ih => exact ih (h.trans (hf p x))

theorem Kept.of_fst {α : Type} {s a : State} {b : α} {p : State × α} (k : Kept s p.1) (h : p = (a, b)) : Kept s a := by
  rw [h] at k; exact k

theorem Kept.fst_of {α : Type} {s a : State} {b : α} (k : Kept s a) : Kept s (a, b).1 := k

/-- Memories with the same cells are well-formed together. -/
theorem Mem.wf_of {m n : Mem} (h : m.wf = true) (e : n.cells = m.cells) : n.wf = true := Mem.wf_same e h

/-- A local state is kept, and what follows starts from it. -/
theorem Kept.use {s x t : State} (h : Kept s x) (k : Kept s x → Kept s t) : Kept s t := k h

theorem Kept.use_fst {α : Type} {s t : State} {x : State × α} (h : Kept s x.1) (k : Kept s x.1 → Kept s t) : Kept s t := k h

end Sys2Proof.Machine
end

