-- ==== Sys2Proof/Laws/KeptOps.lean ====
section
/-! SUPPORT. The operations of Machine/Ops.lean keep what `Kept` names. -/

namespace Sys2Proof.Machine

theorem emit_kept {z : State} {s : State} (h0 : Kept z s) (o : Output) :
    Kept z (emit s o) := by
  unfold emit
  repeat'
    (first | with_reducible assumption | with_reducible exact Kept.refl _ | intro _
           | (extract_lets +onlyGivenNames x; refine Kept.use (x := x) ?_ (fun _ => ?_) <;> [subst x; clear_value x])
           | (extract_lets +onlyGivenNames x; refine Kept.use_fst (x := x) ?_ (fun _ => ?_) <;> [subst x; clear_value x])
           | (extract_lets +onlyGivenNames x; have _y : _ → _ := x; subst x; beta_reduce)
           | (extract_lets +onlyGivenNames x; clear_value x) | with_reducible refine Kept.lit (by assumption) rfl ?_
           | (apply Mem.wf_of; assumption; rfl) | split)

theorem emitLeat_kept {z : State} {s : State} (h0 : Kept z s) (o : Output) :
    Kept z (emitLeat s o) := by
  unfold emitLeat
  repeat'
    (first | with_reducible assumption | with_reducible exact Kept.refl _ | intro _ | with_reducible apply emit_kept | split)

theorem capture_kept {u s : State} {f : State → State} (h : Kept u s) (hf : ∀ t, Kept t (f t)) : Kept u (capture s f).1 := by
  unfold capture
  have k := hf { s with out := [] }
  exact h.trans ⟨⟨k.held.pending, k.held.fuse, k.held.seals, k.held.mem⟩, k.count⟩

theorem fileArrival_kept {z : State} {s : State} (h0 : Kept z s) (what : Arrival) (tick : Bool) :
    Kept z (fileArrival s what tick) := by
  unfold fileArrival
  repeat'
    (first | with_reducible assumption | with_reducible exact Kept.refl _ | intro _
           | (extract_lets +onlyGivenNames x; refine Kept.use (x := x) ?_ (fun _ => ?_) <;> [subst x; clear_value x])
           | (extract_lets +onlyGivenNames x; refine Kept.use_fst (x := x) ?_ (fun _ => ?_) <;> [subst x; clear_value x])
           | (extract_lets +onlyGivenNames x; have _y : _ → _ := x; subst x; beta_reduce)
           | (extract_lets +onlyGivenNames x; clear_value x) | with_reducible refine Kept.lit (by assumption) rfl ?_
           | (apply Mem.wf_of; assumption; rfl) | split)

theorem noteBusy_kept {z : State} {s : State} (h0 : Kept z s) (r : Res) (p : Nat) :
    Kept z (noteBusy s r p) := by
  unfold noteBusy
  repeat'
    (first | with_reducible assumption | with_reducible exact Kept.refl _ | intro _
           | (extract_lets +onlyGivenNames x; refine Kept.use (x := x) ?_ (fun _ => ?_) <;> [subst x; clear_value x])
           | (extract_lets +onlyGivenNames x; refine Kept.use_fst (x := x) ?_ (fun _ => ?_) <;> [subst x; clear_value x])
           | (extract_lets +onlyGivenNames x; have _y : _ → _ := x; subst x; beta_reduce)
           | (extract_lets +onlyGivenNames x; have _y : TurnUnit := x; subst x) | (extract_lets +onlyGivenNames x; clear_value x)
           | with_reducible refine Kept.lit (by assumption) rfl ?_ | (apply Mem.wf_of; assumption; rfl) | split)

theorem setFunc_kept {z : State} {s : State} (h0 : Kept z s) (f : Nat) (v : Func) :
    Kept z (setFunc s f v) := by
  unfold setFunc
  repeat'
    (first | with_reducible assumption | with_reducible exact Kept.refl _ | intro _
           | (extract_lets +onlyGivenNames x; refine Kept.use (x := x) ?_ (fun _ => ?_) <;> [subst x; clear_value x])
           | (extract_lets +onlyGivenNames x; refine Kept.use_fst (x := x) ?_ (fun _ => ?_) <;> [subst x; clear_value x])
           | (extract_lets +onlyGivenNames x; have _y : _ → _ := x; subst x; beta_reduce)
           | (extract_lets +onlyGivenNames x; clear_value x) | with_reducible refine Kept.lit (by assumption) rfl ?_
           | (apply Mem.wf_of; assumption; rfl) | split)

theorem setMsix_kept {z : State} {s : State} (h0 : Kept z s) (f v : Nat) (e : Msix) :
    Kept z (setMsix s f v e) := by
  unfold setMsix
  repeat'
    (first | with_reducible assumption | with_reducible exact Kept.refl _ | intro _
           | (extract_lets +onlyGivenNames x; refine Kept.use (x := x) ?_ (fun _ => ?_) <;> [subst x; clear_value x])
           | (extract_lets +onlyGivenNames x; refine Kept.use_fst (x := x) ?_ (fun _ => ?_) <;> [subst x; clear_value x])
           | (extract_lets +onlyGivenNames x; have _y : _ → _ := x; subst x; beta_reduce)
           | (extract_lets +onlyGivenNames x; clear_value x) | with_reducible apply setFunc_kept
           | with_reducible refine Kept.lit (by assumption) rfl ?_ | (apply Mem.wf_of; assumption; rfl) | split)

theorem signal_kept {z : State} {s : State} (h0 : Kept z s) (f v : Nat) :
    Kept z (signal s f v) := by
  unfold signal
  repeat'
    (first | with_reducible assumption | with_reducible exact Kept.refl _ | intro _
           | (extract_lets +onlyGivenNames x; refine Kept.use (x := x) ?_ (fun _ => ?_) <;> [subst x; clear_value x])
           | (extract_lets +onlyGivenNames x; refine Kept.use_fst (x := x) ?_ (fun _ => ?_) <;> [subst x; clear_value x])
           | (extract_lets +onlyGivenNames x; have _y : _ → _ := x; subst x; beta_reduce)
           | (extract_lets +onlyGivenNames x; clear_value x) | with_reducible apply emit_kept | with_reducible apply setFunc_kept
           | with_reducible apply setMsix_kept | with_reducible refine Kept.lit (by assumption) rfl ?_
           | (apply Mem.wf_of; assumption; rfl) | split)

theorem eventAt_kept {z : State} {s : State} (h0 : Kept z s) (b f : Nat) :
    Kept z (eventAt s b f) := by
  unfold eventAt
  repeat'
    (first | with_reducible assumption | with_reducible exact Kept.refl _ | intro _
           | (extract_lets +onlyGivenNames x; refine Kept.use (x := x) ?_ (fun _ => ?_) <;> [subst x; clear_value x])
           | (extract_lets +onlyGivenNames x; refine Kept.use_fst (x := x) ?_ (fun _ => ?_) <;> [subst x; clear_value x])
           | (extract_lets +onlyGivenNames x; have _y : _ → _ := x; subst x; beta_reduce)
           | (extract_lets +onlyGivenNames x; clear_value x) | with_reducible apply signal_kept
           | with_reducible refine Kept.lit (by assumption) rfl ?_ | (apply Mem.wf_of; assumption; rfl) | split)

theorem event_kept {z : State} {s : State} (h0 : Kept z s) (b : Nat) :
    Kept z (event s b) := by
  unfold event
  repeat'
    (first | with_reducible assumption | with_reducible exact Kept.refl _ | intro _ | with_reducible apply eventAt_kept | split)

theorem eventFor_kept {z : State} {s : State} (h0 : Kept z s) (b p : Nat) :
    Kept z (eventFor s b p) := by
  unfold eventFor
  repeat'
    (first | with_reducible assumption | with_reducible exact Kept.refl _ | intro _ | with_reducible apply event_kept
           | with_reducible apply eventAt_kept | split)

theorem eventAll_kept {z : State} {s : State} (h0 : Kept z s) (b : Nat) :
    Kept z (eventAll s b) := by
  unfold eventAll
  repeat'
    (first | with_reducible assumption | with_reducible exact Kept.refl _ | intro _ | with_reducible apply Kept.foldl
           | with_reducible apply Kept.foldl_fst | with_reducible apply eventAt_kept | split)

theorem writeEntry_kept {z : State} {s : State} (h0 : Kept z s) (e : LedgerEntry) :
    Kept z (writeEntry s e) := by
  unfold writeEntry
  repeat'
    (first | with_reducible assumption | with_reducible exact Kept.refl _ | intro _
           | (extract_lets +onlyGivenNames x; refine Kept.use (x := x) ?_ (fun _ => ?_) <;> [subst x; clear_value x])
           | (extract_lets +onlyGivenNames x; refine Kept.use_fst (x := x) ?_ (fun _ => ?_) <;> [subst x; clear_value x])
           | (extract_lets +onlyGivenNames x; have _y : _ → _ := x; subst x; beta_reduce)
           | (extract_lets +onlyGivenNames x; clear_value x) | with_reducible apply event_kept
           | with_reducible refine Kept.lit (by assumption) rfl ?_ | (apply Mem.wf_of; assumption; rfl) | split)

theorem record_kept {z : State} {s : State} (h0 : Kept z s) (r : Rec) :
    Kept z (record s r) := by
  unfold record
  repeat'
    (first | with_reducible assumption | with_reducible exact Kept.refl _ | intro _ | with_reducible apply writeEntry_kept | split)

theorem dropGroup_kept {z : State} {s : State} (h0 : Kept z s) (key : Nat) :
    Kept z (dropGroup s key) := by
  unfold dropGroup
  repeat'
    (first | with_reducible assumption | with_reducible exact Kept.refl _ | intro _
           | (extract_lets +onlyGivenNames x; refine Kept.use (x := x) ?_ (fun _ => ?_) <;> [subst x; clear_value x])
           | (extract_lets +onlyGivenNames x; refine Kept.use_fst (x := x) ?_ (fun _ => ?_) <;> [subst x; clear_value x])
           | (extract_lets +onlyGivenNames x; have _y : _ → _ := x; subst x; beta_reduce)
           | (extract_lets +onlyGivenNames x; clear_value x) | with_reducible refine Kept.lit (by assumption) rfl ?_
           | (apply Mem.wf_of; assumption; rfl) | split)

theorem endGroup_kept {z : State} {s : State} (h0 : Kept z s) (key : Nat) :
    Kept z (endGroup s key) := by
  unfold endGroup
  repeat'
    (first | with_reducible assumption | with_reducible exact Kept.refl _ | intro _
           | (extract_lets +onlyGivenNames x; refine Kept.use (x := x) ?_ (fun _ => ?_) <;> [subst x; clear_value x])
           | (extract_lets +onlyGivenNames x; refine Kept.use_fst (x := x) ?_ (fun _ => ?_) <;> [subst x; clear_value x])
           | (extract_lets +onlyGivenNames x; have _y : _ → _ := x; subst x; beta_reduce)
           | (extract_lets +onlyGivenNames x; clear_value x) | with_reducible apply dropGroup_kept
           | with_reducible apply writeEntry_kept | split)

theorem endGroups_kept {z : State} {s : State} (h0 : Kept z s) (owner : Nat) :
    Kept z (endGroups s owner) := by
  unfold endGroups
  repeat'
    (first | with_reducible assumption | with_reducible exact Kept.refl _ | intro _ | with_reducible apply Kept.foldl
           | with_reducible apply Kept.foldl_fst | with_reducible apply endGroup_kept | split)

theorem recordIn_kept {z : State} {s : State} (h0 : Kept z s) (owner : Nat) (r : Rec) :
    Kept z (recordIn s owner r) := by
  unfold recordIn
  repeat'
    (first | with_reducible assumption | with_reducible exact Kept.refl _ | intro _
           | (extract_lets +onlyGivenNames x; refine Kept.use (x := x) ?_ (fun _ => ?_) <;> [subst x; clear_value x])
           | (extract_lets +onlyGivenNames x; refine Kept.use_fst (x := x) ?_ (fun _ => ?_) <;> [subst x; clear_value x])
           | (extract_lets +onlyGivenNames x; have _y : _ → _ := x; subst x; beta_reduce)
           | (extract_lets +onlyGivenNames x; clear_value x) | with_reducible apply endGroup_kept
           | with_reducible apply writeEntry_kept | with_reducible refine Kept.lit (by assumption) rfl ?_
           | with_reducible refine Kept.lit (Kept.of_fst ?_ (by assumption)) rfl ?_ | (apply Mem.wf_of; assumption; rfl) | split)

theorem recordCount_kept {z : State} {s : State} (h0 : Kept z s) (r : Rec) :
    Kept z (recordCount s r) := by
  unfold recordCount
  repeat'
    (first | with_reducible assumption | with_reducible exact Kept.refl _ | intro _ | with_reducible apply recordIn_kept | split)

theorem tariffChanged_kept {z : State} {s : State} (h0 : Kept z s) :
    Kept z (tariffChanged s) := by
  unfold tariffChanged
  repeat'
    (first | with_reducible assumption | with_reducible exact Kept.refl _ | intro _
           | (extract_lets +onlyGivenNames x; refine Kept.use (x := x) ?_ (fun _ => ?_) <;> [subst x; clear_value x])
           | (extract_lets +onlyGivenNames x; refine Kept.use_fst (x := x) ?_ (fun _ => ?_) <;> [subst x; clear_value x])
           | (extract_lets +onlyGivenNames x; have _y : _ → _ := x; subst x; beta_reduce)
           | (extract_lets +onlyGivenNames x; clear_value x) | with_reducible refine Kept.lit (by assumption) rfl ?_
           | (apply Mem.wf_of; assumption; rfl) | split)

theorem addCause_kept {z : State} {s : State} (h0 : Kept z s) (b : Nat) :
    Kept z (addCause s b) := by
  unfold addCause
  repeat'
    (first | with_reducible assumption | with_reducible exact Kept.refl _ | intro _
           | (extract_lets +onlyGivenNames x; refine Kept.use (x := x) ?_ (fun _ => ?_) <;> [subst x; clear_value x])
           | (extract_lets +onlyGivenNames x; refine Kept.use_fst (x := x) ?_ (fun _ => ?_) <;> [subst x; clear_value x])
           | (extract_lets +onlyGivenNames x; have _y : _ → _ := x; subst x; beta_reduce)
           | (extract_lets +onlyGivenNames x; clear_value x) | (extract_lets +onlyGivenNames x; subst x)
           | with_reducible apply emit_kept | with_reducible apply event_kept | with_reducible apply record_kept
           | with_reducible refine Kept.lit (by assumption) rfl ?_ | (apply Mem.wf_of; assumption; rfl) | split)

theorem setChan_kept {z : State} {s : State} (h0 : Kept z s) (f : Nat) (c : Chan) :
    Kept z (setChan s f c) := by
  unfold setChan
  repeat'
    (first | with_reducible assumption | with_reducible exact Kept.refl _ | intro _
           | (extract_lets +onlyGivenNames x; refine Kept.use (x := x) ?_ (fun _ => ?_) <;> [subst x; clear_value x])
           | (extract_lets +onlyGivenNames x; refine Kept.use_fst (x := x) ?_ (fun _ => ?_) <;> [subst x; clear_value x])
           | (extract_lets +onlyGivenNames x; have _y : _ → _ := x; subst x; beta_reduce)
           | (extract_lets +onlyGivenNames x; clear_value x) | with_reducible refine Kept.lit (by assumption) rfl ?_
           | (apply Mem.wf_of; assumption; rfl) | split)

theorem ringWrite_kept {z : State} {s : State} (h0 : Kept z s) (f : Nat) (b : Bytes) (noIrq : Bool) :
    Kept z (ringWrite s f b noIrq) := by
  unfold ringWrite
  repeat'
    (first | with_reducible assumption | with_reducible exact Kept.refl _ | intro _
           | (extract_lets +onlyGivenNames x; refine Kept.use (x := x) ?_ (fun _ => ?_) <;> [subst x; clear_value x])
           | (extract_lets +onlyGivenNames x; refine Kept.use_fst (x := x) ?_ (fun _ => ?_) <;> [subst x; clear_value x])
           | (extract_lets +onlyGivenNames x; have _y : _ → _ := x; subst x; beta_reduce)
           | (extract_lets +onlyGivenNames x; clear_value x) | (extract_lets +onlyGivenNames x; subst x)
           | with_reducible apply emit_kept | with_reducible apply setChan_kept | with_reducible apply signal_kept
           | with_reducible refine Kept.lit (by assumption) rfl ?_ | (apply Mem.wf_of; assumption; rfl) | split)

theorem sendReply_kept {z : State} {s : State} (h0 : Kept z s) (r : ReplyTo) (b out : Bytes) :
    Kept z (sendReply s r b out) := by
  unfold sendReply
  repeat'
    (first | with_reducible assumption | with_reducible exact Kept.refl _ | intro _
           | (extract_lets +onlyGivenNames x; refine Kept.use (x := x) ?_ (fun _ => ?_) <;> [subst x; clear_value x])
           | (extract_lets +onlyGivenNames x; refine Kept.use_fst (x := x) ?_ (fun _ => ?_) <;> [subst x; clear_value x])
           | (extract_lets +onlyGivenNames x; have _y : _ → _ := x; subst x; beta_reduce)
           | (extract_lets +onlyGivenNames x; clear_value x) | with_reducible apply emit_kept
           | with_reducible apply ringWrite_kept | with_reducible apply setChan_kept
           | with_reducible refine Kept.lit (by assumption) rfl ?_ | (apply Mem.wf_of; assumption; rfl) | split)

theorem flushHeld_kept {z : State} {s : State} (h0 : Kept z s) (n f : Nat) :
    Kept z (flushHeld n s f) := by
  induction n generalizing s f z with
  | zero =>
    rw [flushHeld]
    repeat'
      (first | with_reducible assumption | with_reducible exact Kept.refl _ | intro _
             | (extract_lets +onlyGivenNames x; refine Kept.use (x := x) ?_ (fun _ => ?_) <;> [subst x; clear_value x])
             | (extract_lets +onlyGivenNames x; refine Kept.use_fst (x := x) ?_ (fun _ => ?_) <;> [subst x; clear_value x])
             | (extract_lets +onlyGivenNames x; have _y : _ → _ := x; subst x; beta_reduce)
             | (extract_lets +onlyGivenNames x; clear_value x) | with_reducible apply ringWrite_kept
             | with_reducible apply setChan_kept | with_reducible refine Kept.lit (by assumption) rfl ?_
             | with_reducible refine Kept.lit (Kept.of_fst ?_ (by assumption)) rfl ?_ | (apply Mem.wf_of; assumption; rfl) | split)
  | succ k ih =>
    rw [flushHeld]
    repeat'
      (first | with_reducible assumption | with_reducible exact Kept.refl _ | intro _
             | (extract_lets +onlyGivenNames x; refine Kept.use (x := x) ?_ (fun _ => ?_) <;> [subst x; clear_value x])
             | (extract_lets +onlyGivenNames x; refine Kept.use_fst (x := x) ?_ (fun _ => ?_) <;> [subst x; clear_value x])
             | (extract_lets +onlyGivenNames x; have _y : _ → _ := x; subst x; beta_reduce)
             | (extract_lets +onlyGivenNames x; clear_value x) | with_reducible apply ih | with_reducible apply ringWrite_kept
             | with_reducible apply setChan_kept | with_reducible refine Kept.lit (by assumption) rfl ?_
             | with_reducible refine Kept.lit (Kept.of_fst ?_ (by assumption)) rfl ?_ | (apply Mem.wf_of; assumption; rfl) | split)

theorem setStarted_kept {z : State} {s : State} (h0 : Kept z s) (src : Nat) (l : List Started) :
    Kept z (setStarted s src l) := by
  unfold setStarted
  repeat'
    (first | with_reducible assumption | with_reducible exact Kept.refl _ | intro _
           | (extract_lets +onlyGivenNames x; refine Kept.use (x := x) ?_ (fun _ => ?_) <;> [subst x; clear_value x])
           | (extract_lets +onlyGivenNames x; refine Kept.use_fst (x := x) ?_ (fun _ => ?_) <;> [subst x; clear_value x])
           | (extract_lets +onlyGivenNames x; have _y : _ → _ := x; subst x; beta_reduce)
           | (extract_lets +onlyGivenNames x; clear_value x) | with_reducible apply setChan_kept
           | with_reducible refine Kept.lit (by assumption) rfl ?_ | (apply Mem.wf_of; assumption; rfl) | split)

theorem postFinal_kept {z : State} {s : State} (h0 : Kept z s) (r : ReplyTo) (st : Status) (detail : Nat) (turn : Option Nat) (out : Option (Nat × Bytes)) :
    Kept z (postFinal s r st detail turn out) := by
  unfold postFinal
  repeat'
    (first | with_reducible assumption | with_reducible exact Kept.refl _ | intro _
           | (extract_lets +onlyGivenNames x; refine Kept.use (x := x) ?_ (fun _ => ?_) <;> [subst x; clear_value x])
           | (extract_lets +onlyGivenNames x; refine Kept.use_fst (x := x) ?_ (fun _ => ?_) <;> [subst x; clear_value x])
           | (extract_lets +onlyGivenNames x; have _y : _ → _ := x; subst x; beta_reduce)
           | (extract_lets +onlyGivenNames x; have _y : TurnUnit := x; subst x) | (extract_lets +onlyGivenNames x; clear_value x)
           | (extract_lets +onlyGivenNames x; subst x) | with_reducible apply emit_kept | with_reducible apply sendReply_kept
           | with_reducible apply setStarted_kept | with_reducible refine Kept.lit (by assumption) rfl ?_
           | with_reducible refine Kept.lit (Kept.of_fst ?_ (by assumption)) rfl ?_ | (apply Mem.wf_of; assumption; rfl) | split)

theorem postInterim_kept {z : State} {s : State} (h0 : Kept z s) (r : ReplyTo) (turn : Nat) :
    Kept z (postInterim s r turn) := by
  unfold postInterim
  repeat'
    (first | with_reducible assumption | with_reducible exact Kept.refl _ | intro _
           | (extract_lets +onlyGivenNames x; refine Kept.use (x := x) ?_ (fun _ => ?_) <;> [subst x; clear_value x])
           | (extract_lets +onlyGivenNames x; refine Kept.use_fst (x := x) ?_ (fun _ => ?_) <;> [subst x; clear_value x])
           | (extract_lets +onlyGivenNames x; have _y : _ → _ := x; subst x; beta_reduce)
           | (extract_lets +onlyGivenNames x; have _y : TurnUnit := x; subst x) | (extract_lets +onlyGivenNames x; clear_value x)
           | with_reducible apply sendReply_kept | with_reducible apply setStarted_kept
           | with_reducible refine Kept.lit (by assumption) rfl ?_ | (apply Mem.wf_of; assumption; rfl) | split)

theorem takeFresh_kept {z : State} {s : State} (h0 : Kept z s) :
    Kept z (takeFresh s) := by
  unfold takeFresh
  repeat'
    (first | with_reducible assumption | with_reducible exact Kept.refl _ | intro _
           | (extract_lets +onlyGivenNames x; refine Kept.use (x := x) ?_ (fun _ => ?_) <;> [subst x; clear_value x])
           | (extract_lets +onlyGivenNames x; refine Kept.use_fst (x := x) ?_ (fun _ => ?_) <;> [subst x; clear_value x])
           | (extract_lets +onlyGivenNames x; have _y : _ → _ := x; subst x; beta_reduce)
           | (extract_lets +onlyGivenNames x; clear_value x) | with_reducible refine Kept.lit (by assumption) rfl ?_
           | (apply Mem.wf_of; assumption; rfl) | split)

end Sys2Proof.Machine
end

