-- ==== Sys2Proof/Laws/KeptMemory.lean ====
section
/-! SUPPORT. The operations of Machine/Memory.lean keep what `Kept` names. -/

namespace Sys2Proof.Machine

theorem setStack_kept {z : State} {s : State} (h0 : Kept z s) (n : Nat) (v : Stack) :
    Kept z (setStack s n v) := by
  unfold setStack
  repeat'
    (first | with_reducible assumption | with_reducible exact Kept.refl _ | intro _
           | (extract_lets +onlyGivenNames x; refine Kept.use (x := x) ?_ (fun _ => ?_) <;> [subst x; clear_value x])
           | (extract_lets +onlyGivenNames x; refine Kept.use_fst (x := x) ?_ (fun _ => ?_) <;> [subst x; clear_value x])
           | (extract_lets +onlyGivenNames x; have _y : _ → _ := x; subst x; beta_reduce)
           | (extract_lets +onlyGivenNames x; have _y : Mem := x; subst x) | (extract_lets +onlyGivenNames x; clear_value x)
           | with_reducible refine Kept.lit (by assumption) rfl ?_ | (apply Mem.wf_of; assumption; rfl) | split)

theorem setLog_kept {z : State} {s : State} (h0 : Kept z s) (la : Nat) (v : LogArr) :
    Kept z (setLog s la v) := by
  unfold setLog
  repeat'
    (first | with_reducible assumption | with_reducible exact Kept.refl _ | intro _
           | (extract_lets +onlyGivenNames x; refine Kept.use (x := x) ?_ (fun _ => ?_) <;> [subst x; clear_value x])
           | (extract_lets +onlyGivenNames x; refine Kept.use_fst (x := x) ?_ (fun _ => ?_) <;> [subst x; clear_value x])
           | (extract_lets +onlyGivenNames x; have _y : _ → _ := x; subst x; beta_reduce)
           | (extract_lets +onlyGivenNames x; clear_value x) | with_reducible refine Kept.lit (by assumption) rfl ?_
           | (apply Mem.wf_of; assumption; rfl) | split)

theorem setPhys_kept {z : State} {s : State} (h0 : Kept z s) (n : Nat) (v : PhysArr) :
    Kept z (setPhys s n v) := by
  unfold setPhys
  repeat'
    (first | with_reducible assumption | with_reducible exact Kept.refl _ | intro _
           | (extract_lets +onlyGivenNames x; refine Kept.use (x := x) ?_ (fun _ => ?_) <;> [subst x; clear_value x])
           | (extract_lets +onlyGivenNames x; refine Kept.use_fst (x := x) ?_ (fun _ => ?_) <;> [subst x; clear_value x])
           | (extract_lets +onlyGivenNames x; have _y : _ → _ := x; subst x; beta_reduce)
           | (extract_lets +onlyGivenNames x; clear_value x) | with_reducible refine Kept.lit (by assumption) rfl ?_
           | (apply Mem.wf_of; assumption; rfl) | split)

theorem memWritePieces_kept {z : State} {z1 : State} (h0 : Kept z z1) (z0 z2 : Nat) (z3 : List (Byte × Bool)) :
    Kept z (memWritePieces z0 z1 z2 z3) := by
  induction z0 generalizing z1 z2 z3 z with
  | zero =>
    rw [memWritePieces]
    repeat'
      (first | with_reducible assumption | with_reducible exact Kept.refl _ | intro _
             | (extract_lets +onlyGivenNames x; refine Kept.use (x := x) ?_ (fun _ => ?_) <;> [subst x; clear_value x])
             | (extract_lets +onlyGivenNames x; refine Kept.use_fst (x := x) ?_ (fun _ => ?_) <;> [subst x; clear_value x])
             | (extract_lets +onlyGivenNames x; have _y : _ → _ := x; subst x; beta_reduce)
             | (extract_lets +onlyGivenNames x; have _y : Mem := x; subst x) | (extract_lets +onlyGivenNames x; clear_value x)
             | with_reducible refine Kept.lit (by assumption) rfl ?_ | with_reducible apply Mem.store_wf
             | (apply Mem.wf_of; assumption; rfl) | split)
  | succ k ih =>
    rw [memWritePieces]
    repeat'
      (first | with_reducible assumption | with_reducible exact Kept.refl _ | intro _
             | (extract_lets +onlyGivenNames x; refine Kept.use (x := x) ?_ (fun _ => ?_) <;> [subst x; clear_value x])
             | (extract_lets +onlyGivenNames x; refine Kept.use_fst (x := x) ?_ (fun _ => ?_) <;> [subst x; clear_value x])
             | (extract_lets +onlyGivenNames x; have _y : _ → _ := x; subst x; beta_reduce)
             | (extract_lets +onlyGivenNames x; have _y : Mem := x; subst x) | (extract_lets +onlyGivenNames x; clear_value x)
             | with_reducible apply ih | with_reducible refine Kept.lit (by assumption) rfl ?_ | with_reducible apply Mem.store_wf
             | (apply Mem.wf_of; assumption; rfl) | split)

theorem memWrite_kept {z : State} {s : State} (h0 : Kept z s) (pa : Nat) (d : List (Byte × Bool)) :
    Kept z (memWrite s pa d) := by
  unfold memWrite
  repeat'
    (first | with_reducible assumption | with_reducible exact Kept.refl _ | intro _ | with_reducible apply memWritePieces_kept
           | split)

theorem memPut_kept {z : State} {s : State} (h0 : Kept z s) (pa : Nat) (d : Bytes) :
    Kept z (memPut s pa d) := by
  unfold memPut
  repeat'
    (first | with_reducible assumption | with_reducible exact Kept.refl _ | intro _ | with_reducible apply memWrite_kept | split)

theorem taintWith_kept {z : State} {s : State} (h0 : Kept z s) (pa source symbols : Nat) :
    Kept z (taintWith s pa source symbols) := by
  unfold taintWith
  repeat'
    (first | with_reducible assumption | with_reducible exact Kept.refl _ | intro _
           | (extract_lets +onlyGivenNames x; refine Kept.use (x := x) ?_ (fun _ => ?_) <;> [subst x; clear_value x])
           | (extract_lets +onlyGivenNames x; refine Kept.use_fst (x := x) ?_ (fun _ => ?_) <;> [subst x; clear_value x])
           | (extract_lets +onlyGivenNames x; have _y : _ → _ := x; subst x; beta_reduce)
           | (extract_lets +onlyGivenNames x; have _y : TurnUnit := x; subst x)
           | (extract_lets +onlyGivenNames x; have _y : Mem := x; subst x) | (extract_lets +onlyGivenNames x; clear_value x)
           | with_reducible refine Kept.lit (by assumption) rfl ?_ | with_reducible apply Mem.taint_wf
           | (apply Mem.wf_of; assumption; rfl) | split)

end Sys2Proof.Machine
end

