-- ==== Sys2Proof/Laws/KeptOperands.lean ====
section
/-! SUPPORT. The operations of Machine/Operands.lean keep what `Kept` names. -/

namespace Sys2Proof.Machine

theorem setCtx_kept {z : State} {s : State} (h0 : Kept z s) (c : Nat) (v : Ctx) :
    Kept z (setCtx s c v) := by
  unfold setCtx
  repeat'
    (first | with_reducible assumption | with_reducible exact Kept.refl _ | intro _
           | (extract_lets +onlyGivenNames x; refine Kept.use (x := x) ?_ (fun _ => ?_) <;> [subst x; clear_value x])
           | (extract_lets +onlyGivenNames x; refine Kept.use_fst (x := x) ?_ (fun _ => ?_) <;> [subst x; clear_value x])
           | (extract_lets +onlyGivenNames x; have _y : _ → _ := x; subst x; beta_reduce)
           | (extract_lets +onlyGivenNames x; clear_value x) | with_reducible refine Kept.lit (by assumption) rfl ?_
           | (apply Mem.wf_of; assumption; rfl) | split)

theorem translate_kept {z : State} {s : State} (h0 : Kept z s) (unit c : Nat) (k : Access) (va : Nat) :
    Kept z (translate s unit c k va).1 := by
  unfold translate
  repeat'
    (first | with_reducible assumption | with_reducible exact Kept.refl _ | intro _
           | (extract_lets +onlyGivenNames x; refine Kept.use (x := x) ?_ (fun _ => ?_) <;> [subst x; clear_value x])
           | (extract_lets +onlyGivenNames x; refine Kept.use_fst (x := x) ?_ (fun _ => ?_) <;> [subst x; clear_value x])
           | (extract_lets +onlyGivenNames x; have _y : _ → _ := x; subst x; beta_reduce)
           | (extract_lets +onlyGivenNames x; clear_value x) | with_reducible refine Kept.of_fst ?_ (by assumption)
           | with_reducible refine Kept.lit (by assumption) rfl ?_
           | with_reducible refine Kept.lit (Kept.of_fst ?_ (by assumption)) rfl ?_ | (apply Mem.wf_of; assumption; rfl) | split)

theorem dropXents_kept {z : State} {s : State} (h0 : Kept z s) (p : Nat → Nat → Nat → Bool) :
    Kept z (dropXents s p) := by
  unfold dropXents
  repeat'
    (first | with_reducible assumption | with_reducible exact Kept.refl _ | intro _
           | (extract_lets +onlyGivenNames x; refine Kept.use (x := x) ?_ (fun _ => ?_) <;> [subst x; clear_value x])
           | (extract_lets +onlyGivenNames x; refine Kept.use_fst (x := x) ?_ (fun _ => ?_) <;> [subst x; clear_value x])
           | (extract_lets +onlyGivenNames x; have _y : _ → _ := x; subst x; beta_reduce)
           | (extract_lets +onlyGivenNames x; clear_value x) | with_reducible refine Kept.of_fst ?_ (by assumption)
           | with_reducible refine Kept.lit (by assumption) rfl ?_ | (apply Mem.wf_of; assumption; rfl) | split)

theorem dropUnit_kept {z : State} {s : State} (h0 : Kept z s) (unit : Nat) :
    Kept z (dropUnit s unit) := by
  unfold dropUnit
  repeat'
    (first | with_reducible assumption | with_reducible exact Kept.refl _ | intro _
           | (extract_lets +onlyGivenNames x; refine Kept.use (x := x) ?_ (fun _ => ?_) <;> [subst x; clear_value x])
           | (extract_lets +onlyGivenNames x; refine Kept.use_fst (x := x) ?_ (fun _ => ?_) <;> [subst x; clear_value x])
           | (extract_lets +onlyGivenNames x; have _y : _ → _ := x; subst x; beta_reduce)
           | (extract_lets +onlyGivenNames x; clear_value x) | with_reducible refine Kept.lit (by assumption) rfl ?_
           | (apply Mem.wf_of; assumption; rfl) | split)

end Sys2Proof.Machine
end

