-- ==== Sys2Proof/Laws/KeptRoutes.lean ====
section
/-! SUPPORT. The operations of Machine/Routes.lean keep what `Kept` names. -/

namespace Sys2Proof.Machine

theorem setLink_kept {z : State} {s : State} (h0 : Kept z s) (n : Nat) (v : Link) :
    Kept z (setLink s n v) := by
  unfold setLink
  repeat'
    (first | with_reducible assumption | with_reducible exact Kept.refl _ | intro _
           | (extract_lets +onlyGivenNames x; refine Kept.use (x := x) ?_ (fun _ => ?_) <;> [subst x; clear_value x])
           | (extract_lets +onlyGivenNames x; refine Kept.use_fst (x := x) ?_ (fun _ => ?_) <;> [subst x; clear_value x])
           | (extract_lets +onlyGivenNames x; have _y : _ → _ := x; subst x; beta_reduce)
           | (extract_lets +onlyGivenNames x; clear_value x) | with_reducible refine Kept.lit (by assumption) rfl ?_
           | (apply Mem.wf_of; assumption; rfl) | split)

theorem setPort_kept {z : State} {s : State} (h0 : Kept z s) (n : Nat) (v : Port) :
    Kept z (setPort s n v) := by
  unfold setPort
  repeat'
    (first | with_reducible assumption | with_reducible exact Kept.refl _ | intro _
           | (extract_lets +onlyGivenNames x; refine Kept.use (x := x) ?_ (fun _ => ?_) <;> [subst x; clear_value x])
           | (extract_lets +onlyGivenNames x; refine Kept.use_fst (x := x) ?_ (fun _ => ?_) <;> [subst x; clear_value x])
           | (extract_lets +onlyGivenNames x; have _y : _ → _ := x; subst x; beta_reduce)
           | (extract_lets +onlyGivenNames x; clear_value x) | with_reducible refine Kept.lit (by assumption) rfl ?_
           | (apply Mem.wf_of; assumption; rfl) | split)

end Sys2Proof.Machine
end

