-- ==== Sys2Proof/Laws/KeptAdmit.lean ====
section
/-! SUPPORT. The operations of Machine/Admit.lean keep what `Kept` names. -/

namespace Sys2Proof.Machine

theorem setPlan_kept {z : State} {s : State} (h0 : Kept z s) (h : Nat) (p : Plan) :
    Kept z (setPlan s h p) := by
  unfold setPlan
  repeat'
    (first | with_reducible assumption | with_reducible exact Kept.refl _ | intro _
           | (extract_lets +onlyGivenNames x; refine Kept.use (x := x) ?_ (fun _ => ?_) <;> [subst x; clear_value x])
           | (extract_lets +onlyGivenNames x; refine Kept.use_fst (x := x) ?_ (fun _ => ?_) <;> [subst x; clear_value x])
           | (extract_lets +onlyGivenNames x; have _y : _ → _ := x; subst x; beta_reduce)
           | (extract_lets +onlyGivenNames x; clear_value x) | with_reducible refine Kept.lit (by assumption) rfl ?_
           | (apply Mem.wf_of; assumption; rfl) | split)

theorem dropPlan_kept {z : State} {s : State} (h0 : Kept z s) (h : Nat) :
    Kept z (dropPlan s h) := by
  unfold dropPlan
  repeat'
    (first | with_reducible assumption | with_reducible exact Kept.refl _ | intro _
           | (extract_lets +onlyGivenNames x; refine Kept.use (x := x) ?_ (fun _ => ?_) <;> [subst x; clear_value x])
           | (extract_lets +onlyGivenNames x; refine Kept.use_fst (x := x) ?_ (fun _ => ?_) <;> [subst x; clear_value x])
           | (extract_lets +onlyGivenNames x; have _y : _ → _ := x; subst x; beta_reduce)
           | (extract_lets +onlyGivenNames x; clear_value x) | with_reducible refine Kept.lit (by assumption) rfl ?_
           | (apply Mem.wf_of; assumption; rfl) | split)

theorem designateNow_kept {z : State} {s : State} (h0 : Kept z s) :
    Kept z (designateNow s) := by
  unfold designateNow
  repeat'
    (first | with_reducible assumption | with_reducible exact Kept.refl _ | intro _
           | (extract_lets +onlyGivenNames x; refine Kept.use (x := x) ?_ (fun _ => ?_) <;> [subst x; clear_value x])
           | (extract_lets +onlyGivenNames x; refine Kept.use_fst (x := x) ?_ (fun _ => ?_) <;> [subst x; clear_value x])
           | (extract_lets +onlyGivenNames x; have _y : _ → _ := x; subst x; beta_reduce)
           | (extract_lets +onlyGivenNames x; clear_value x) | with_reducible refine Kept.of_fst ?_ (by assumption)
           | with_reducible apply Kept.foldl | with_reducible apply Kept.foldl_fst
           | with_reducible refine Kept.lit (by assumption) rfl ?_ | with_reducible refine Kept.lit (Kept.refl _) rfl ?_
           | with_reducible refine Kept.lit (Kept.of_fst ?_ (by assumption)) rfl ?_ | (apply Mem.wf_of; assumption; rfl) | split)

end Sys2Proof.Machine
end

