-- ==== Sys2Proof/Laws/KeptItems.lean ====
section
/-! SUPPORT. The operations of Machine/Items.lean keep what `Kept` names. -/

namespace Sys2Proof.Machine

theorem setSet_kept {z : State} {s : State} (h0 : Kept z s) (n : Nat) (v : StageSet) :
    Kept z (setSet s n v) := by
  unfold setSet
  repeat'
    (first | with_reducible assumption | with_reducible exact Kept.refl _ | intro _
           | (extract_lets +onlyGivenNames x; refine Kept.use (x := x) ?_ (fun _ => ?_) <;> [subst x; clear_value x])
           | (extract_lets +onlyGivenNames x; refine Kept.use_fst (x := x) ?_ (fun _ => ?_) <;> [subst x; clear_value x])
           | (extract_lets +onlyGivenNames x; have _y : _ → _ := x; subst x; beta_reduce)
           | (extract_lets +onlyGivenNames x; clear_value x) | with_reducible refine Kept.lit (by assumption) rfl ?_
           | (apply Mem.wf_of; assumption; rfl) | split)

end Sys2Proof.Machine
end

