-- ==== Sys2Proof/Laws/KeptLinks.lean ====
section
/-! SUPPORT. The operations of Machine/Links.lean keep what `Kept` names. -/

namespace Sys2Proof.Machine

theorem sendFlit_kept {z : State} {s : State} (h0 : Kept z s) (p part : Nat) (b : Bytes) :
    Kept z (sendFlit s p part b) := by
  unfold sendFlit
  repeat'
    (first | with_reducible assumption | with_reducible exact Kept.refl _ | intro _
           | (extract_lets +onlyGivenNames x; refine Kept.use (x := x) ?_ (fun _ => ?_) <;> [subst x; clear_value x])
           | (extract_lets +onlyGivenNames x; refine Kept.use_fst (x := x) ?_ (fun _ => ?_) <;> [subst x; clear_value x])
           | (extract_lets +onlyGivenNames x; have _y : _ → _ := x; subst x; beta_reduce)
           | (extract_lets +onlyGivenNames x; clear_value x) | with_reducible apply emit_kept | with_reducible apply noteBusy_kept
           | with_reducible apply setLink_kept | with_reducible apply setPort_kept
           | with_reducible refine Kept.lit (by assumption) rfl ?_
           | with_reducible refine Kept.lit (Kept.of_fst ?_ (by assumption)) rfl ?_ | (apply Mem.wf_of; assumption; rfl) | split)

theorem refuseOld_kept {z : State} {s : State} (h0 : Kept z s) (p : Nat) (x : Queued) :
    Kept z (refuseOld s p x) := by
  unfold refuseOld
  repeat'
    (first | with_reducible assumption | with_reducible exact Kept.refl _ | intro _
           | (extract_lets +onlyGivenNames x; refine Kept.use (x := x) ?_ (fun _ => ?_) <;> [subst x; clear_value x])
           | (extract_lets +onlyGivenNames x; refine Kept.use_fst (x := x) ?_ (fun _ => ?_) <;> [subst x; clear_value x])
           | (extract_lets +onlyGivenNames x; have _y : _ → _ := x; subst x; beta_reduce)
           | (extract_lets +onlyGivenNames x; clear_value x) | with_reducible apply fileArrival_kept
           | with_reducible apply recordIn_kept | with_reducible refine Kept.lit (by assumption) rfl ?_
           | (apply Mem.wf_of; assumption; rfl) | split)

theorem portSubmit_kept {z : State} {s : State} (h0 : Kept z s) (p : Nat) (x : Queued) :
    Kept z (portSubmit s p x) := by
  unfold portSubmit
  repeat'
    (first | with_reducible assumption | with_reducible exact Kept.refl _ | intro _
           | (extract_lets +onlyGivenNames x; refine Kept.use (x := x) ?_ (fun _ => ?_) <;> [subst x; clear_value x])
           | (extract_lets +onlyGivenNames x; refine Kept.use_fst (x := x) ?_ (fun _ => ?_) <;> [subst x; clear_value x])
           | (extract_lets +onlyGivenNames x; have _y : _ → _ := x; subst x; beta_reduce)
           | (extract_lets +onlyGivenNames x; clear_value x) | (extract_lets +onlyGivenNames x; subst x)
           | with_reducible apply refuseOld_kept | with_reducible apply sendFlit_kept | with_reducible apply setPort_kept
           | with_reducible refine Kept.lit (by assumption) rfl ?_ | (apply Mem.wf_of; assumption; rfl) | split)

theorem releasePort_kept {z : State} {s : State} (h0 : Kept z s) (p : Nat) :
    Kept z (releasePort s p) := by
  unfold releasePort
  repeat'
    (first | with_reducible assumption | with_reducible exact Kept.refl _ | intro _
           | (extract_lets +onlyGivenNames x; refine Kept.use (x := x) ?_ (fun _ => ?_) <;> [subst x; clear_value x])
           | (extract_lets +onlyGivenNames x; refine Kept.use_fst (x := x) ?_ (fun _ => ?_) <;> [subst x; clear_value x])
           | (extract_lets +onlyGivenNames x; have _y : _ → _ := x; subst x; beta_reduce)
           | (extract_lets +onlyGivenNames x; clear_value x) | with_reducible apply Kept.foldl
           | with_reducible apply Kept.foldl_fst | with_reducible apply portSubmit_kept | with_reducible apply setPort_kept
           | with_reducible refine Kept.lit (by assumption) rfl ?_ | with_reducible refine Kept.lit (Kept.refl _) rfl ?_
           | (apply Mem.wf_of; assumption; rfl) | split)

theorem releasePorts_kept {z : State} {s : State} (h0 : Kept z s) :
    Kept z (releasePorts s) := by
  unfold releasePorts
  repeat'
    (first | with_reducible assumption | with_reducible exact Kept.refl _ | intro _ | with_reducible apply Kept.foldl
           | with_reducible apply Kept.foldl_fst | with_reducible apply releasePort_kept | split)

theorem resumeLeat_kept {z : State} {s : State} (h0 : Kept z s) :
    Kept z (resumeLeat s) := by
  unfold resumeLeat
  repeat'
    (first | with_reducible assumption | with_reducible exact Kept.refl _ | intro _
           | (extract_lets +onlyGivenNames x; refine Kept.use (x := x) ?_ (fun _ => ?_) <;> [subst x; clear_value x])
           | (extract_lets +onlyGivenNames x; refine Kept.use_fst (x := x) ?_ (fun _ => ?_) <;> [subst x; clear_value x])
           | (extract_lets +onlyGivenNames x; have _y : _ → _ := x; subst x; beta_reduce)
           | (extract_lets +onlyGivenNames x; clear_value x) | with_reducible apply Kept.foldl
           | with_reducible apply Kept.foldl_fst | with_reducible apply emit_kept | with_reducible apply releasePorts_kept | split)

theorem sendPacket_kept {z : State} {s : State} (h0 : Kept z s) (x : Queued) :
    Kept z (sendPacket s x) := by
  unfold sendPacket
  repeat'
    (first | with_reducible assumption | with_reducible exact Kept.refl _ | intro _
           | (extract_lets +onlyGivenNames x; refine Kept.use (x := x) ?_ (fun _ => ?_) <;> [subst x; clear_value x])
           | (extract_lets +onlyGivenNames x; refine Kept.use_fst (x := x) ?_ (fun _ => ?_) <;> [subst x; clear_value x])
           | (extract_lets +onlyGivenNames x; have _y : _ → _ := x; subst x; beta_reduce)
           | (extract_lets +onlyGivenNames x; clear_value x) | with_reducible apply portSubmit_kept
           | with_reducible refine Kept.lit (by assumption) rfl ?_
           | with_reducible refine Kept.lit (Kept.of_fst ?_ (by assumption)) rfl ?_ | (apply Mem.wf_of; assumption; rfl) | split)

theorem sendUnder_kept {z : State} {s : State} (h0 : Kept z s) (ctx : Option (Nat × Nat)) (part dest share op tag addr : Nat) (body : Bytes) (poisoned : Bool) :
    Kept z (sendUnder s ctx part dest share op tag addr body poisoned) := by
  unfold sendUnder
  repeat'
    (first | with_reducible assumption | with_reducible exact Kept.refl _ | intro _
           | (extract_lets +onlyGivenNames x; refine Kept.use (x := x) ?_ (fun _ => ?_) <;> [subst x; clear_value x])
           | (extract_lets +onlyGivenNames x; refine Kept.use_fst (x := x) ?_ (fun _ => ?_) <;> [subst x; clear_value x])
           | (extract_lets +onlyGivenNames x; have _y : _ → _ := x; subst x; beta_reduce)
           | (extract_lets +onlyGivenNames x; clear_value x) | (extract_lets +onlyGivenNames x; subst x)
           | with_reducible apply sendPacket_kept | with_reducible refine Kept.lit (by assumption) rfl ?_
           | (apply Mem.wf_of; assumption; rfl) | split)

theorem sendTo_kept {z : State} {s : State} (h0 : Kept z s) (part dest share op tag addr : Nat) (body : Bytes) (poisoned : Bool) :
    Kept z (sendTo s part dest share op tag addr body poisoned) := by
  unfold sendTo
  repeat'
    (first | with_reducible assumption | with_reducible exact Kept.refl _ | intro _ | with_reducible apply sendUnder_kept | split)

theorem sendTally_kept {z : State} {s : State} (h0 : Kept z s) (ctx : Option (Nat × Nat)) (part dest share tag t : Nat) (sub : Bool) (n : Nat) :
    Kept z (sendTally s ctx part dest share tag t sub n) := by
  unfold sendTally
  repeat'
    (first | with_reducible assumption | with_reducible exact Kept.refl _ | intro _ | with_reducible apply sendUnder_kept | split)

theorem sendParts_kept {z : State} {s : State} (h0 : Kept z s) (ctx : Option (Nat × Nat)) (part dest share tag z0 : Nat) (z1 : List (Bytes × Bool)) :
    Kept z (sendParts s ctx part dest share tag z0 z1) := by
  induction z1 generalizing s ctx part dest share tag z0 z with
  | nil =>
    rw [sendParts]
    repeat'
      (first | with_reducible assumption | with_reducible exact Kept.refl _ | intro _
             | with_reducible refine Kept.of_fst ?_ (by assumption) | with_reducible apply sendUnder_kept | split)
  | cons x r ih =>
    rw [sendParts]
    repeat'
      (first | with_reducible assumption | with_reducible exact Kept.refl _ | intro _
             | with_reducible refine Kept.of_fst ?_ (by assumption) | with_reducible apply ih | with_reducible apply sendUnder_kept
             | split)

theorem sendAccess_kept {z : State} {s : State} (h0 : Kept z s) (k : Nat) (ctx : Option (Nat × Nat)) (part dest share : Nat) (read : Bool) (tag addr len : Nat) (d : Bytes) (bad : List Bool) :
    Kept z (sendAccess s k ctx part dest share read tag addr len d bad).1 := by
  unfold sendAccess
  repeat'
    (first | with_reducible assumption | with_reducible exact Kept.refl _ | intro _
           | (extract_lets +onlyGivenNames x; refine Kept.use (x := x) ?_ (fun _ => ?_) <;> [subst x; clear_value x])
           | (extract_lets +onlyGivenNames x; refine Kept.use_fst (x := x) ?_ (fun _ => ?_) <;> [subst x; clear_value x])
           | (extract_lets +onlyGivenNames x; have _y : _ → _ := x; subst x; beta_reduce)
           | (extract_lets +onlyGivenNames x; clear_value x) | with_reducible refine Kept.of_fst ?_ (by assumption)
           | with_reducible apply sendParts_kept | with_reducible apply sendUnder_kept
           | with_reducible refine Kept.lit (by assumption) rfl ?_ | (apply Mem.wf_of; assumption; rfl) | split)

end Sys2Proof.Machine
end

