-- ==== Sys2Proof/Laws/KeptCommands.lean ====
section
/-! SUPPORT. The operations of Machine/Commands.lean keep what `Kept` names. -/

namespace Sys2Proof.Machine

theorem setFetched_kept {z : State} {s : State} (h0 : Kept z s) (src : Nat) (l : List Fetched) :
    Kept z (setFetched s src l) := by
  unfold setFetched
  repeat'
    (first | with_reducible assumption | with_reducible exact Kept.refl _ | intro _
           | (extract_lets +onlyGivenNames x; refine Kept.use (x := x) ?_ (fun _ => ?_) <;> [subst x; clear_value x])
           | (extract_lets +onlyGivenNames x; refine Kept.use_fst (x := x) ?_ (fun _ => ?_) <;> [subst x; clear_value x])
           | (extract_lets +onlyGivenNames x; have _y : _ → _ := x; subst x; beta_reduce)
           | (extract_lets +onlyGivenNames x; clear_value x) | with_reducible apply setChan_kept
           | with_reducible refine Kept.lit (by assumption) rfl ?_ | (apply Mem.wf_of; assumption; rfl) | split)

theorem begin_kept {z : State} {s : State} (h0 : Kept z s) (op : Nat) (c : Packet) :
    Kept z (begin s op c).1 := by
  unfold begin
  repeat'
    (first | with_reducible assumption | with_reducible exact Kept.refl _ | intro _
           | (extract_lets +onlyGivenNames x; refine Kept.use (x := x) ?_ (fun _ => ?_) <;> [subst x; clear_value x])
           | (extract_lets +onlyGivenNames x; refine Kept.use_fst (x := x) ?_ (fun _ => ?_) <;> [subst x; clear_value x])
           | (extract_lets +onlyGivenNames x; have _y : _ → _ := x; subst x; beta_reduce)
           | (extract_lets +onlyGivenNames x; clear_value x) | (extract_lets +onlyGivenNames x; subst x)
           | with_reducible refine Kept.of_fst ?_ (by assumption) | with_reducible apply setFetched_kept
           | with_reducible apply setStarted_kept | with_reducible refine Kept.lit (by assumption) rfl ?_
           | (apply Mem.wf_of; assumption; rfl) | exact Kept.refl _ | split)

theorem finish_kept {z : State} {s : State} (h0 : Kept z s) (r : ReplyTo) (z0 : Ending) :
    Kept z (finish s r z0) := by
  unfold finish
  repeat'
    (first | with_reducible assumption | with_reducible exact Kept.refl _ | intro _ | with_reducible apply postFinal_kept
           | with_reducible apply postInterim_kept | split)

theorem runCommand_kept {u s : State} {op : Nat} {lens : Nat → Bool} {c : Packet} {body : State → ReplyTo → State × Ending}
    (h : Kept u s) (hb : ∀ t r, Kept t (body t r).1) : Kept u (runCommand s op lens c body) := by
  unfold runCommand
  have g := begin_kept h op c
  repeat' (first | assumption | apply finish_kept | exact Kept.trans (Kept.of_fst g (by assumption)) (hb _ _)
                 | exact Kept.of_fst g (by assumption) | split)

end Sys2Proof.Machine
end

