-- ==== Sys2Proof/Laws/KeptPlans.lean ====
section
/-! SUPPORT. The operations of Machine/Plans.lean keep what `Kept` names. -/

namespace Sys2Proof.Machine

theorem reservedFrom_kept {u s : State} {c : Packet} {n : Nat} {k : Unit → State × Ending} (h : Kept u s) (hk : Kept u (k ()).1) :
    Kept u (reservedFrom c n s k).1 := by
  unfold reservedFrom
  split
  · exact h
  · exact hk

theorem hostRefused_kept {z : State} {s : State} (h0 : Kept z s) :
    Kept z (hostRefused s) := by
  unfold hostRefused
  repeat'
    (first | with_reducible assumption | with_reducible exact Kept.refl _ | intro _ | with_reducible apply record_kept
           | with_reducible refine Kept.lit (by assumption) rfl ?_ | (apply Mem.wf_of; assumption; rfl) | split)

theorem loadPlan_kept {z : State} {s : State} (h0 : Kept z s) (c : Packet) (obj : Bytes) (p : Plan) :
    Kept z (loadPlan s c obj p).1 := by
  unfold loadPlan
  repeat'
    (first | with_reducible assumption | with_reducible exact Kept.refl _ | intro _
           | with_reducible refine Kept.of_fst ?_ (by assumption) | with_reducible apply memPut_kept
           | with_reducible apply setPlan_kept | split)

theorem planLoadBody_kept {z : State} {s : State} (h0 : Kept z s) (c : Packet) (obj : Option Bytes) (x0 : ReplyTo) :
    Kept z (planLoadBody c obj s x0).1 := by
  unfold planLoadBody
  repeat'
    (first | with_reducible assumption | with_reducible exact Kept.refl _ | intro _
           | with_reducible refine Kept.of_fst ?_ (by assumption) | with_reducible apply hostRefused_kept
           | with_reducible apply loadPlan_kept | with_reducible apply reservedFrom_kept | split)

theorem planAdmitBody_kept {z : State} {s : State} (h0 : Kept z s) (c : Packet) (x0 : ReplyTo) :
    Kept z (planAdmitBody c s x0).1 := by
  unfold planAdmitBody
  repeat'
    (first | with_reducible assumption | with_reducible exact Kept.refl _ | intro _
           | (extract_lets +onlyGivenNames x; refine Kept.use (x := x) ?_ (fun _ => ?_) <;> [subst x; clear_value x])
           | (extract_lets +onlyGivenNames x; refine Kept.use_fst (x := x) ?_ (fun _ => ?_) <;> [subst x; clear_value x])
           | (extract_lets +onlyGivenNames x; have _y : _ → _ := x; subst x; beta_reduce)
           | (extract_lets +onlyGivenNames x; clear_value x) | (extract_lets +onlyGivenNames x; subst x)
           | with_reducible refine Kept.of_fst ?_ (by assumption) | with_reducible apply designateNow_kept
           | with_reducible apply reservedFrom_kept | with_reducible apply setPlan_kept
           | with_reducible refine Kept.lit (by assumption) rfl ?_ | with_reducible refine Kept.lit (Kept.refl _) rfl ?_
           | with_reducible refine Kept.lit (Kept.of_fst ?_ (by assumption)) rfl ?_ | (apply Mem.wf_of; assumption; rfl) | split)

theorem markRetire_kept {z : State} {s : State} (h0 : Kept z s) (h t : Nat) (r : Option ReplyTo) :
    Kept z (markRetire s h t r) := by
  unfold markRetire
  repeat'
    (first | with_reducible assumption | with_reducible exact Kept.refl _ | intro _
           | (extract_lets +onlyGivenNames x; refine Kept.use (x := x) ?_ (fun _ => ?_) <;> [subst x; clear_value x])
           | (extract_lets +onlyGivenNames x; refine Kept.use_fst (x := x) ?_ (fun _ => ?_) <;> [subst x; clear_value x])
           | (extract_lets +onlyGivenNames x; have _y : _ → _ := x; subst x; beta_reduce)
           | (extract_lets +onlyGivenNames x; clear_value x) | with_reducible apply setPlan_kept
           | with_reducible refine Kept.lit (by assumption) rfl ?_
           | with_reducible refine Kept.lit (Kept.of_fst ?_ (by assumption)) rfl ?_ | (apply Mem.wf_of; assumption; rfl) | split)

theorem planActivateBody_kept {z : State} {s : State} (h0 : Kept z s) (c : Packet) (r : ReplyTo) :
    Kept z (planActivateBody c s r).1 := by
  unfold planActivateBody
  repeat'
    (first | with_reducible assumption | with_reducible exact Kept.refl _ | intro _
           | (extract_lets +onlyGivenNames x; refine Kept.use (x := x) ?_ (fun _ => ?_) <;> [subst x; clear_value x])
           | (extract_lets +onlyGivenNames x; refine Kept.use_fst (x := x) ?_ (fun _ => ?_) <;> [subst x; clear_value x])
           | (extract_lets +onlyGivenNames x; have _y : _ → _ := x; subst x; beta_reduce)
           | (extract_lets +onlyGivenNames x; have _y : TurnUnit := x; subst x) | (extract_lets +onlyGivenNames x; clear_value x)
           | (extract_lets +onlyGivenNames x; subst x) | with_reducible refine Kept.of_fst ?_ (by assumption)
           | with_reducible apply markRetire_kept | with_reducible apply reservedFrom_kept | with_reducible apply setPlan_kept
           | with_reducible refine Kept.lit (by assumption) rfl ?_ | with_reducible refine Kept.lit (Kept.refl _) rfl ?_
           | with_reducible refine Kept.lit (Kept.of_fst ?_ (by assumption)) rfl ?_ | (apply Mem.wf_of; assumption; rfl) | split)

theorem freePlan_kept {z : State} {s : State} (h0 : Kept z s) (h : Nat) :
    Kept z (freePlan s h) := by
  unfold freePlan
  repeat'
    (first | with_reducible assumption | with_reducible exact Kept.refl _ | intro _
           | (extract_lets +onlyGivenNames x; refine Kept.use (x := x) ?_ (fun _ => ?_) <;> [subst x; clear_value x])
           | (extract_lets +onlyGivenNames x; refine Kept.use_fst (x := x) ?_ (fun _ => ?_) <;> [subst x; clear_value x])
           | (extract_lets +onlyGivenNames x; have _y : _ → _ := x; subst x; beta_reduce)
           | (extract_lets +onlyGivenNames x; clear_value x) | (extract_lets +onlyGivenNames x; subst x)
           | with_reducible refine Kept.of_fst ?_ (by assumption) | with_reducible apply dropPlan_kept
           | with_reducible refine Kept.lit (by assumption) rfl ?_ | (apply Mem.wf_of; assumption; rfl) | split)

theorem unmark_kept {z : State} {s : State} (h0 : Kept z s) (h : Option Nat) :
    Kept z (unmark s h) := by
  unfold unmark
  repeat'
    (first | with_reducible assumption | with_reducible exact Kept.refl _ | intro _
           | (extract_lets +onlyGivenNames x; refine Kept.use (x := x) ?_ (fun _ => ?_) <;> [subst x; clear_value x])
           | (extract_lets +onlyGivenNames x; refine Kept.use_fst (x := x) ?_ (fun _ => ?_) <;> [subst x; clear_value x])
           | (extract_lets +onlyGivenNames x; have _y : _ → _ := x; subst x; beta_reduce)
           | (extract_lets +onlyGivenNames x; clear_value x) | with_reducible apply setPlan_kept
           | with_reducible refine Kept.lit (by assumption) rfl ?_
           | with_reducible refine Kept.lit (Kept.of_fst ?_ (by assumption)) rfl ?_ | (apply Mem.wf_of; assumption; rfl) | split)

theorem planRetireBody_kept {z : State} {s : State} (h0 : Kept z s) (c : Packet) (r : ReplyTo) :
    Kept z (planRetireBody c s r).1 := by
  unfold planRetireBody
  repeat'
    (first | with_reducible assumption | with_reducible exact Kept.refl _ | intro _
           | with_reducible refine Kept.of_fst ?_ (by assumption) | with_reducible apply freePlan_kept
           | with_reducible apply markRetire_kept | with_reducible apply postFinal_kept | with_reducible apply reservedFrom_kept
           | with_reducible apply unmark_kept | split)

theorem retireDue_kept {z : State} {s : State} (h0 : Kept z s) (t h : Nat) :
    Kept z (retireDue t s h) := by
  unfold retireDue
  repeat'
    (first | with_reducible assumption | with_reducible exact Kept.refl _ | intro _
           | (extract_lets +onlyGivenNames x; refine Kept.use (x := x) ?_ (fun _ => ?_) <;> [subst x; clear_value x])
           | (extract_lets +onlyGivenNames x; refine Kept.use_fst (x := x) ?_ (fun _ => ?_) <;> [subst x; clear_value x])
           | (extract_lets +onlyGivenNames x; have _y : _ → _ := x; subst x; beta_reduce)
           | (extract_lets +onlyGivenNames x; clear_value x) | with_reducible apply freePlan_kept
           | with_reducible apply postFinal_kept | with_reducible apply unmark_kept
           | with_reducible refine Kept.lit (by assumption) rfl ?_
           | with_reducible refine Kept.lit (Kept.of_fst ?_ (by assumption)) rfl ?_ | (apply Mem.wf_of; assumption; rfl) | split)

theorem activateDue_kept {z : State} {s : State} (h0 : Kept z s) (t h : Nat) :
    Kept z (activateDue t s h) := by
  unfold activateDue
  repeat'
    (first | with_reducible assumption | with_reducible exact Kept.refl _ | intro _
           | (extract_lets +onlyGivenNames x; refine Kept.use (x := x) ?_ (fun _ => ?_) <;> [subst x; clear_value x])
           | (extract_lets +onlyGivenNames x; refine Kept.use_fst (x := x) ?_ (fun _ => ?_) <;> [subst x; clear_value x])
           | (extract_lets +onlyGivenNames x; have _y : _ → _ := x; subst x; beta_reduce)
           | (extract_lets +onlyGivenNames x; clear_value x) | with_reducible refine Kept.of_fst ?_ (by assumption)
           | with_reducible apply postFinal_kept | with_reducible apply setPlan_kept | with_reducible apply unmark_kept
           | with_reducible refine Kept.lit (by assumption) rfl ?_
           | with_reducible refine Kept.lit (Kept.of_fst ?_ (by assumption)) rfl ?_ | (apply Mem.wf_of; assumption; rfl) | split)

theorem plansDue_kept {z : State} {s : State} (h0 : Kept z s) (t : Nat) :
    Kept z (plansDue s t) := by
  unfold plansDue
  repeat'
    (first | with_reducible assumption | with_reducible exact Kept.refl _ | intro _ | with_reducible apply Kept.foldl
           | with_reducible apply Kept.foldl_fst | with_reducible apply activateDue_kept | with_reducible apply retireDue_kept
           | split)

theorem readmitPlan_kept {z : State} {s : State} (h0 : Kept z s) (h : Nat) :
    Kept z (readmitPlan s h) := by
  unfold readmitPlan
  repeat'
    (first | with_reducible assumption | with_reducible exact Kept.refl _ | intro _
           | (extract_lets +onlyGivenNames x; refine Kept.use (x := x) ?_ (fun _ => ?_) <;> [subst x; clear_value x])
           | (extract_lets +onlyGivenNames x; refine Kept.use_fst (x := x) ?_ (fun _ => ?_) <;> [subst x; clear_value x])
           | (extract_lets +onlyGivenNames x; have _y : _ → _ := x; subst x; beta_reduce)
           | (extract_lets +onlyGivenNames x; clear_value x) | with_reducible refine Kept.of_fst ?_ (by assumption)
           | with_reducible apply eventFor_kept | with_reducible apply record_kept | with_reducible apply setPlan_kept
           | with_reducible refine Kept.lit (by assumption) rfl ?_
           | with_reducible refine Kept.lit (Kept.of_fst ?_ (by assumption)) rfl ?_ | (apply Mem.wf_of; assumption; rfl) | split)

theorem readmitAll_kept {z : State} {s : State} (h0 : Kept z s) :
    Kept z (readmitAll s) := by
  unfold readmitAll
  repeat'
    (first | with_reducible assumption | with_reducible exact Kept.refl _ | intro _ | with_reducible apply Kept.foldl
           | with_reducible apply Kept.foldl_fst | with_reducible apply readmitPlan_kept | split)

theorem tariffReadBody_kept {z : State} {s : State} (h0 : Kept z s) (c : Packet) (x0 : ReplyTo) :
    Kept z (tariffReadBody c s x0).1 := by
  unfold tariffReadBody
  repeat'
    (first | with_reducible assumption | with_reducible exact Kept.refl _ | intro _
           | (extract_lets +onlyGivenNames x; refine Kept.use (x := x) ?_ (fun _ => ?_) <;> [subst x; clear_value x])
           | (extract_lets +onlyGivenNames x; refine Kept.use_fst (x := x) ?_ (fun _ => ?_) <;> [subst x; clear_value x])
           | (extract_lets +onlyGivenNames x; have _y : _ → _ := x; subst x; beta_reduce)
           | (extract_lets +onlyGivenNames x; clear_value x) | (extract_lets +onlyGivenNames x; subst x)
           | with_reducible refine Kept.of_fst ?_ (by assumption) | with_reducible apply reservedFrom_kept | split)

end Sys2Proof.Machine
end

