-- ==== Sys2Proof/Laws/KeptTally.lean ====
section
/-! SUPPORT. The operations of Machine/Tally.lean keep what `Kept` names. -/

namespace Sys2Proof.Machine

theorem setEngine_kept {z : State} {s : State} (h0 : Kept z s) (n : Nat) (v : Engine) :
    Kept z (setEngine s n v) := by
  unfold setEngine
  repeat'
    (first | with_reducible assumption | with_reducible exact Kept.refl _ | intro _
           | (extract_lets +onlyGivenNames x; refine Kept.use (x := x) ?_ (fun _ => ?_) <;> [subst x; clear_value x])
           | (extract_lets +onlyGivenNames x; refine Kept.use_fst (x := x) ?_ (fun _ => ?_) <;> [subst x; clear_value x])
           | (extract_lets +onlyGivenNames x; have _y : _ → _ := x; subst x; beta_reduce)
           | (extract_lets +onlyGivenNames x; clear_value x) | with_reducible refine Kept.lit (by assumption) rfl ?_
           | (apply Mem.wf_of; assumption; rfl) | split)

theorem setSite_kept {z : State} {s : State} (h0 : Kept z s) (n : Nat) (v : Site) :
    Kept z (setSite s n v) := by
  unfold setSite
  repeat'
    (first | with_reducible assumption | with_reducible exact Kept.refl _ | intro _
           | (extract_lets +onlyGivenNames x; refine Kept.use (x := x) ?_ (fun _ => ?_) <;> [subst x; clear_value x])
           | (extract_lets +onlyGivenNames x; refine Kept.use_fst (x := x) ?_ (fun _ => ?_) <;> [subst x; clear_value x])
           | (extract_lets +onlyGivenNames x; have _y : _ → _ := x; subst x; beta_reduce)
           | (extract_lets +onlyGivenNames x; clear_value x) | with_reducible refine Kept.lit (by assumption) rfl ?_
           | (apply Mem.wf_of; assumption; rfl) | split)

theorem setWait_kept {z : State} {s : State} (h0 : Kept z s) (w : Work) (v : WaitState) :
    Kept z (setWait s w v) := by
  unfold setWait
  repeat'
    (first | with_reducible assumption | with_reducible exact Kept.refl _ | intro _
           | (extract_lets +onlyGivenNames x; refine Kept.use (x := x) ?_ (fun _ => ?_) <;> [subst x; clear_value x])
           | (extract_lets +onlyGivenNames x; refine Kept.use_fst (x := x) ?_ (fun _ => ?_) <;> [subst x; clear_value x])
           | (extract_lets +onlyGivenNames x; have _y : _ → _ := x; subst x; beta_reduce)
           | (extract_lets +onlyGivenNames x; clear_value x) | with_reducible apply setEngine_kept
           | with_reducible apply setLog_kept | with_reducible apply setSite_kept
           | with_reducible refine Kept.lit (by assumption) rfl ?_
           | with_reducible refine Kept.lit (Kept.of_fst ?_ (by assumption)) rfl ?_ | (apply Mem.wf_of; assumption; rfl) | split)

theorem setMoved_kept {z : State} {s0 : State} (h0 : Kept z s0) (w : Work) (p : Nat) :
    Kept z (setMoved s0 w p) := by
  unfold setMoved
  repeat'
    (first | with_reducible assumption | with_reducible exact Kept.refl _ | intro _
           | (extract_lets +onlyGivenNames x; refine Kept.use (x := x) ?_ (fun _ => ?_) <;> [subst x; clear_value x])
           | (extract_lets +onlyGivenNames x; refine Kept.use_fst (x := x) ?_ (fun _ => ?_) <;> [subst x; clear_value x])
           | (extract_lets +onlyGivenNames x; have _y : _ → _ := x; subst x; beta_reduce)
           | (extract_lets +onlyGivenNames x; clear_value x) | with_reducible apply noteBusy_kept
           | with_reducible apply setEngine_kept | with_reducible apply setLog_kept | with_reducible apply setSite_kept
           | with_reducible refine Kept.lit (by assumption) rfl ?_
           | with_reducible refine Kept.lit (Kept.of_fst ?_ (by assumption)) rfl ?_ | (apply Mem.wf_of; assumption; rfl) | split)

theorem setTally_kept {z : State} {s : State} (h0 : Kept z s) (t : Nat) (v : Tally) :
    Kept z (setTally s t v) := by
  unfold setTally
  repeat'
    (first | with_reducible assumption | with_reducible exact Kept.refl _ | intro _
           | (extract_lets +onlyGivenNames x; refine Kept.use (x := x) ?_ (fun _ => ?_) <;> [subst x; clear_value x])
           | (extract_lets +onlyGivenNames x; refine Kept.use_fst (x := x) ?_ (fun _ => ?_) <;> [subst x; clear_value x])
           | (extract_lets +onlyGivenNames x; have _y : _ → _ := x; subst x; beta_reduce)
           | (extract_lets +onlyGivenNames x; clear_value x) | with_reducible refine Kept.lit (by assumption) rfl ?_
           | (apply Mem.wf_of; assumption; rfl) | split)

theorem evalWaiter_kept {z : State} {x : State × Nat} (h0 : Kept z x.1) (t : Nat) (w : Waiter) :
    Kept z (evalWaiter t x w).1 := by
  unfold evalWaiter
  repeat'
    (first | with_reducible assumption | with_reducible exact Kept.refl _ | intro _
           | (extract_lets +onlyGivenNames x; refine Kept.use (x := x) ?_ (fun _ => ?_) <;> [subst x; clear_value x])
           | (extract_lets +onlyGivenNames x; refine Kept.use_fst (x := x) ?_ (fun _ => ?_) <;> [subst x; clear_value x])
           | (extract_lets +onlyGivenNames x; have _y : _ → _ := x; subst x; beta_reduce)
           | (extract_lets +onlyGivenNames x; clear_value x) | (extract_lets +onlyGivenNames x; subst x)
           | with_reducible refine Kept.of_fst ?_ (by assumption) | with_reducible apply setTally_kept
           | with_reducible apply setWait_kept | with_reducible refine Kept.lit (by assumption) rfl ?_
           | (apply Mem.wf_of; assumption; rfl) | split)

theorem evalWaiters_kept {z : State} {s : State} (h0 : Kept z s) (t : Nat) :
    Kept z (evalWaiters s t).1 := by
  unfold evalWaiters
  repeat'
    (first | with_reducible assumption | with_reducible exact Kept.refl _ | intro _
           | with_reducible refine Kept.of_fst ?_ (by assumption) | with_reducible apply Kept.foldl
           | with_reducible apply Kept.foldl_fst | with_reducible apply evalWaiter_kept | split)

theorem fileWait_kept {z : State} {s : State} (h0 : Kept z s) (w : Work) (t n : Nat) (sub : Bool) (p : Nat) :
    Kept z (fileWait s w t n sub p) := by
  unfold fileWait
  repeat'
    (first | with_reducible assumption | with_reducible exact Kept.refl _ | intro _
           | (extract_lets +onlyGivenNames x; refine Kept.use (x := x) ?_ (fun _ => ?_) <;> [subst x; clear_value x])
           | (extract_lets +onlyGivenNames x; refine Kept.use_fst (x := x) ?_ (fun _ => ?_) <;> [subst x; clear_value x])
           | (extract_lets +onlyGivenNames x; have _y : _ → _ := x; subst x; beta_reduce)
           | (extract_lets +onlyGivenNames x; clear_value x) | with_reducible refine Kept.of_fst ?_ (by assumption)
           | with_reducible apply evalWaiters_kept | with_reducible apply record_kept | with_reducible apply setWait_kept
           | with_reducible refine Kept.lit (by assumption) rfl ?_ | (apply Mem.wf_of; assumption; rfl) | split)

theorem tallyApply_kept {z : State} {s : State} (h0 : Kept z s) (t : Nat) (sub : Bool) (n p : Nat) :
    Kept z (tallyApply s t sub n p).1 := by
  unfold tallyApply
  repeat'
    (first | with_reducible assumption | with_reducible exact Kept.refl _ | intro _
           | (extract_lets +onlyGivenNames x; refine Kept.use (x := x) ?_ (fun _ => ?_) <;> [subst x; clear_value x])
           | (extract_lets +onlyGivenNames x; refine Kept.use_fst (x := x) ?_ (fun _ => ?_) <;> [subst x; clear_value x])
           | (extract_lets +onlyGivenNames x; have _y : _ → _ := x; subst x; beta_reduce)
           | (extract_lets +onlyGivenNames x; clear_value x) | with_reducible refine Kept.of_fst ?_ (by assumption)
           | with_reducible apply evalWaiters_kept | with_reducible apply record_kept | with_reducible apply setTally_kept
           | with_reducible refine Kept.lit (by assumption) rfl ?_ | (apply Mem.wf_of; assumption; rfl) | split)

theorem tallyOp_kept {z : State} {s : State} (h0 : Kept z s) (t : Nat) (sub : Bool) (n p : Nat) (remote : Bool) :
    Kept z (tallyOp s t sub n p remote).1 := by
  unfold tallyOp
  repeat'
    (first | with_reducible assumption | with_reducible exact Kept.refl _ | intro _
           | with_reducible refine Kept.of_fst ?_ (by assumption) | with_reducible apply record_kept
           | with_reducible apply tallyApply_kept | split)

theorem tallyWrite_kept {z : State} {s : State} (h0 : Kept z s) (q : TallyReq) (op : Nat) :
    Kept z (tallyWrite s q op) := by
  unfold tallyWrite
  repeat'
    (first | with_reducible assumption | with_reducible exact Kept.refl _ | intro _
           | (extract_lets +onlyGivenNames x; refine Kept.use (x := x) ?_ (fun _ => ?_) <;> [subst x; clear_value x])
           | (extract_lets +onlyGivenNames x; refine Kept.use_fst (x := x) ?_ (fun _ => ?_) <;> [subst x; clear_value x])
           | (extract_lets +onlyGivenNames x; have _y : _ → _ := x; subst x; beta_reduce)
           | (extract_lets +onlyGivenNames x; clear_value x) | with_reducible refine Kept.of_fst ?_ (by assumption)
           | with_reducible apply emit_kept | with_reducible apply record_kept | with_reducible apply tallyOp_kept | split)

theorem clearTallies_kept {z : State} {s : State} (h0 : Kept z s) (ctx : Nat) (unbind : Bool) :
    Kept z (clearTallies s ctx unbind) := by
  unfold clearTallies
  repeat'
    (first | with_reducible assumption | with_reducible exact Kept.refl _ | intro _
           | (extract_lets +onlyGivenNames x; refine Kept.use (x := x) ?_ (fun _ => ?_) <;> [subst x; clear_value x])
           | (extract_lets +onlyGivenNames x; refine Kept.use_fst (x := x) ?_ (fun _ => ?_) <;> [subst x; clear_value x])
           | (extract_lets +onlyGivenNames x; have _y : _ → _ := x; subst x; beta_reduce)
           | (extract_lets +onlyGivenNames x; clear_value x) | (extract_lets +onlyGivenNames x; subst x)
           | with_reducible refine Kept.of_fst ?_ (by assumption) | with_reducible apply Kept.foldl
           | with_reducible apply Kept.foldl_fst | with_reducible apply setWait_kept
           | with_reducible refine Kept.lit (by assumption) rfl ?_ | with_reducible refine Kept.lit (Kept.refl _) rfl ?_
           | (apply Mem.wf_of; assumption; rfl) | split)

theorem assignRun_kept {z : State} {s : State} (h0 : Kept z s) (first n : Nat) (v : Tally) :
    Kept z (assignRun s first n v) := by
  unfold assignRun
  repeat'
    (first | with_reducible assumption | with_reducible exact Kept.refl _ | intro _ | with_reducible apply Kept.foldl
           | with_reducible apply Kept.foldl_fst | with_reducible apply setTally_kept | split)

theorem tallyAssignBody_kept {z : State} {s : State} (h0 : Kept z s) (c : Packet) (x0 : ReplyTo) :
    Kept z (tallyAssignBody c s x0).1 := by
  unfold tallyAssignBody
  repeat'
    (first | with_reducible assumption | with_reducible exact Kept.refl _ | intro _
           | (extract_lets +onlyGivenNames x; refine Kept.use (x := x) ?_ (fun _ => ?_) <;> [subst x; clear_value x])
           | (extract_lets +onlyGivenNames x; refine Kept.use_fst (x := x) ?_ (fun _ => ?_) <;> [subst x; clear_value x])
           | (extract_lets +onlyGivenNames x; have _y : _ → _ := x; subst x; beta_reduce)
           | (extract_lets +onlyGivenNames x; clear_value x) | with_reducible refine Kept.of_fst ?_ (by assumption)
           | with_reducible apply assignRun_kept | with_reducible apply reservedFrom_kept
           | with_reducible refine Kept.lit (by assumption) rfl ?_ | with_reducible refine Kept.lit (Kept.refl _) rfl ?_
           | (apply Mem.wf_of; assumption; rfl) | split)

theorem tallyReadBody_kept {z : State} {s : State} (h0 : Kept z s) (c : Packet) (x0 : ReplyTo) :
    Kept z (tallyReadBody c s x0).1 := by
  unfold tallyReadBody
  repeat'
    (first | with_reducible assumption | with_reducible exact Kept.refl _ | intro _
           | (extract_lets +onlyGivenNames x; refine Kept.use (x := x) ?_ (fun _ => ?_) <;> [subst x; clear_value x])
           | (extract_lets +onlyGivenNames x; refine Kept.use_fst (x := x) ?_ (fun _ => ?_) <;> [subst x; clear_value x])
           | (extract_lets +onlyGivenNames x; have _y : _ → _ := x; subst x; beta_reduce)
           | (extract_lets +onlyGivenNames x; clear_value x) | with_reducible refine Kept.of_fst ?_ (by assumption)
           | with_reducible apply reservedFrom_kept | split)

theorem tallySetTo_kept {z : State} {s : State} (h0 : Kept z s) (t v : Nat) :
    Kept z (tallySetTo s t v).1 := by
  unfold tallySetTo
  repeat'
    (first | with_reducible assumption | with_reducible exact Kept.refl _ | intro _
           | (extract_lets +onlyGivenNames x; refine Kept.use (x := x) ?_ (fun _ => ?_) <;> [subst x; clear_value x])
           | (extract_lets +onlyGivenNames x; refine Kept.use_fst (x := x) ?_ (fun _ => ?_) <;> [subst x; clear_value x])
           | (extract_lets +onlyGivenNames x; have _y : _ → _ := x; subst x; beta_reduce)
           | (extract_lets +onlyGivenNames x; clear_value x) | with_reducible refine Kept.of_fst ?_ (by assumption)
           | with_reducible apply evalWaiters_kept | with_reducible apply setTally_kept
           | with_reducible refine Kept.lit (by assumption) rfl ?_ | (apply Mem.wf_of; assumption; rfl) | split)

theorem tallySetBody_kept {z : State} {s : State} (h0 : Kept z s) (c : Packet) (x0 : ReplyTo) :
    Kept z (tallySetBody c s x0).1 := by
  unfold tallySetBody
  repeat'
    (first | with_reducible assumption | with_reducible exact Kept.refl _ | intro _
           | (extract_lets +onlyGivenNames x; refine Kept.use (x := x) ?_ (fun _ => ?_) <;> [subst x; clear_value x])
           | (extract_lets +onlyGivenNames x; refine Kept.use_fst (x := x) ?_ (fun _ => ?_) <;> [subst x; clear_value x])
           | (extract_lets +onlyGivenNames x; have _y : _ → _ := x; subst x; beta_reduce)
           | (extract_lets +onlyGivenNames x; clear_value x) | with_reducible refine Kept.of_fst ?_ (by assumption)
           | with_reducible apply record_kept | with_reducible apply reservedFrom_kept | with_reducible apply tallySetTo_kept
           | split)

end Sys2Proof.Machine
end

