-- ==== Sys2Proof/Laws/KeptSpares.lean ====
section
/-! SUPPORT. The operations of Machine/Spares.lean keep what `Kept` names. -/

namespace Sys2Proof.Machine

theorem sparesChanged_kept {z : State} {s : State} (h0 : Kept z s) :
    Kept z (sparesChanged s) := by
  unfold sparesChanged
  repeat'
    (first | with_reducible assumption | with_reducible exact Kept.refl _ | intro _
           | (extract_lets +onlyGivenNames x; refine Kept.use (x := x) ?_ (fun _ => ?_) <;> [subst x; clear_value x])
           | (extract_lets +onlyGivenNames x; refine Kept.use_fst (x := x) ?_ (fun _ => ?_) <;> [subst x; clear_value x])
           | (extract_lets +onlyGivenNames x; have _y : _ → _ := x; subst x; beta_reduce)
           | (extract_lets +onlyGivenNames x; clear_value x) | with_reducible apply addCause_kept
           | with_reducible apply designateNow_kept | split)

theorem carryOn_kept {z : State} {s : State} (h0 : Kept z s) (la old new : Nat) :
    Kept z (carryOn s la old new) := by
  unfold carryOn
  repeat'
    (first | with_reducible assumption | with_reducible exact Kept.refl _ | intro _
           | (extract_lets +onlyGivenNames x; refine Kept.use (x := x) ?_ (fun _ => ?_) <;> [subst x; clear_value x])
           | (extract_lets +onlyGivenNames x; refine Kept.use_fst (x := x) ?_ (fun _ => ?_) <;> [subst x; clear_value x])
           | (extract_lets +onlyGivenNames x; have _y : _ → _ := x; subst x; beta_reduce)
           | (extract_lets +onlyGivenNames x; have _y : Mem := x; subst x) | (extract_lets +onlyGivenNames x; clear_value x)
           | with_reducible apply setLog_kept | with_reducible apply setPhys_kept | with_reducible apply tariffChanged_kept
           | with_reducible refine Kept.lit (by assumption) rfl ?_ | with_reducible apply Mem.moveBin_wf
           | (apply Mem.wf_of; assumption; rfl) | split)

theorem substitute_kept {z : State} {s : State} (h0 : Kept z s) (la pa : Nat) :
    Kept z (substitute s la pa) := by
  unfold substitute
  repeat'
    (first | with_reducible assumption | with_reducible exact Kept.refl _ | intro _
           | (extract_lets +onlyGivenNames x; refine Kept.use (x := x) ?_ (fun _ => ?_) <;> [subst x; clear_value x])
           | (extract_lets +onlyGivenNames x; refine Kept.use_fst (x := x) ?_ (fun _ => ?_) <;> [subst x; clear_value x])
           | (extract_lets +onlyGivenNames x; have _y : _ → _ := x; subst x; beta_reduce)
           | (extract_lets +onlyGivenNames x; clear_value x) | with_reducible apply addCause_kept
           | with_reducible apply carryOn_kept | with_reducible apply record_kept | with_reducible apply setLog_kept
           | with_reducible apply sparesChanged_kept | with_reducible refine Kept.lit (by assumption) rfl ?_
           | with_reducible refine Kept.lit (Kept.of_fst ?_ (by assumption)) rfl ?_ | (apply Mem.wf_of; assumption; rfl) | split)

theorem serveHeld_kept {z : State} {s : State} (h0 : Kept z s) :
    Kept z (serveHeld s) := by
  unfold serveHeld
  repeat'
    (first | with_reducible assumption | with_reducible exact Kept.refl _ | intro _
           | (extract_lets +onlyGivenNames x; refine Kept.use (x := x) ?_ (fun _ => ?_) <;> [subst x; clear_value x])
           | (extract_lets +onlyGivenNames x; refine Kept.use_fst (x := x) ?_ (fun _ => ?_) <;> [subst x; clear_value x])
           | (extract_lets +onlyGivenNames x; have _y : _ → _ := x; subst x; beta_reduce)
           | (extract_lets +onlyGivenNames x; clear_value x) | with_reducible apply Kept.foldl
           | with_reducible apply Kept.foldl_fst | with_reducible apply carryOn_kept
           | with_reducible refine Kept.lit (by assumption) rfl ?_ | with_reducible refine Kept.lit (Kept.refl _) rfl ?_
           | with_reducible refine Kept.lit (Kept.of_fst ?_ (by assumption)) rfl ?_ | (apply Mem.wf_of; assumption; rfl) | split)

theorem spareJoins_kept {z : State} {s : State} (h0 : Kept z s) :
    Kept z (spareJoins s) := by
  unfold spareJoins
  repeat'
    (first | with_reducible assumption | with_reducible exact Kept.refl _ | intro _ | with_reducible apply serveHeld_kept
           | with_reducible apply sparesChanged_kept | split)

theorem quarantine_kept {z : State} {s : State} (h0 : Kept z s) (pa : Nat) :
    Kept z (quarantine s pa) := by
  unfold quarantine
  repeat'
    (first | with_reducible assumption | with_reducible exact Kept.refl _ | intro _
           | (extract_lets +onlyGivenNames x; refine Kept.use (x := x) ?_ (fun _ => ?_) <;> [subst x; clear_value x])
           | (extract_lets +onlyGivenNames x; refine Kept.use_fst (x := x) ?_ (fun _ => ?_) <;> [subst x; clear_value x])
           | (extract_lets +onlyGivenNames x; have _y : _ → _ := x; subst x; beta_reduce)
           | (extract_lets +onlyGivenNames x; clear_value x) | with_reducible apply record_kept
           | with_reducible apply setPhys_kept | with_reducible refine Kept.lit (by assumption) rfl ?_
           | (apply Mem.wf_of; assumption; rfl) | split)

theorem loseLine_kept {z : State} {s : State} (h0 : Kept z s) (la off : Nat) :
    Kept z (loseLine s la off) := by
  unfold loseLine
  repeat'
    (first | with_reducible assumption | with_reducible exact Kept.refl _ | intro _
           | (extract_lets +onlyGivenNames x; refine Kept.use (x := x) ?_ (fun _ => ?_) <;> [subst x; clear_value x])
           | (extract_lets +onlyGivenNames x; refine Kept.use_fst (x := x) ?_ (fun _ => ?_) <;> [subst x; clear_value x])
           | (extract_lets +onlyGivenNames x; have _y : _ → _ := x; subst x; beta_reduce)
           | (extract_lets +onlyGivenNames x; clear_value x) | with_reducible apply taintWith_kept | split)

theorem arrayFails_kept {z : State} {s : State} (h0 : Kept z s) (pa : Nat) (f : ArrayFaultKind) (where1 : Nat) :
    Kept z (arrayFails s pa f where1) := by
  unfold arrayFails
  repeat'
    (first | with_reducible assumption | with_reducible exact Kept.refl _ | intro _
           | (extract_lets +onlyGivenNames x; refine Kept.use (x := x) ?_ (fun _ => ?_) <;> [subst x; clear_value x])
           | (extract_lets +onlyGivenNames x; refine Kept.use_fst (x := x) ?_ (fun _ => ?_) <;> [subst x; clear_value x])
           | (extract_lets +onlyGivenNames x; have _y : _ → _ := x; subst x; beta_reduce)
           | (extract_lets +onlyGivenNames x; clear_value x) | with_reducible apply loseLine_kept
           | with_reducible apply quarantine_kept | with_reducible apply record_kept | with_reducible apply setLog_kept
           | with_reducible apply substitute_kept | with_reducible refine Kept.lit (by assumption) rfl ?_
           | (apply Mem.wf_of; assumption; rfl) | split)

theorem correctedBin_kept {z : State} {s : State} (h0 : Kept z s) (pa part addr : Nat) :
    Kept z (correctedBin s pa part addr) := by
  unfold correctedBin
  repeat'
    (first | with_reducible assumption | with_reducible exact Kept.refl _ | intro _
           | (extract_lets +onlyGivenNames x; refine Kept.use (x := x) ?_ (fun _ => ?_) <;> [subst x; clear_value x])
           | (extract_lets +onlyGivenNames x; refine Kept.use_fst (x := x) ?_ (fun _ => ?_) <;> [subst x; clear_value x])
           | (extract_lets +onlyGivenNames x; have _y : _ → _ := x; subst x; beta_reduce)
           | (extract_lets +onlyGivenNames x; clear_value x) | (extract_lets +onlyGivenNames x; subst x)
           | with_reducible apply record_kept | with_reducible apply setPhys_kept
           | with_reducible refine Kept.lit (by assumption) rfl ?_ | (apply Mem.wf_of; assumption; rfl) | split)

theorem binError_kept {z : State} {s : State} (h0 : Kept z s) (la off part : Nat) (e : EccResult) :
    Kept z (binError s la off part e) := by
  unfold binError
  repeat'
    (first | with_reducible assumption | with_reducible exact Kept.refl _ | intro _ | with_reducible apply arrayFails_kept
           | with_reducible apply correctedBin_kept | split)

theorem retire_kept {z : State} {s : State} (h0 : Kept z s) (pa why : Nat) :
    Kept z (retire s pa why) := by
  unfold retire
  repeat'
    (first | with_reducible assumption | with_reducible exact Kept.refl _ | intro _
           | (extract_lets +onlyGivenNames x; refine Kept.use (x := x) ?_ (fun _ => ?_) <;> [subst x; clear_value x])
           | (extract_lets +onlyGivenNames x; refine Kept.use_fst (x := x) ?_ (fun _ => ?_) <;> [subst x; clear_value x])
           | (extract_lets +onlyGivenNames x; have _y : _ → _ := x; subst x; beta_reduce)
           | (extract_lets +onlyGivenNames x; clear_value x) | with_reducible apply record_kept
           | with_reducible apply setPhys_kept | with_reducible refine Kept.lit (by assumption) rfl ?_
           | (apply Mem.wf_of; assumption; rfl) | split)

end Sys2Proof.Machine
end

