-- ==== Sys2Proof/Laws/KeptGranary.lean ====
section
/-! SUPPORT. The operations of Machine/Granary.lean keep what `Kept` names. -/

namespace Sys2Proof.Machine

theorem touchLine_kept {z : State} {s : State} (h0 : Kept z s) (c : CacheLine) (write : Bool) :
    Kept z (touchLine s c write) := by
  unfold touchLine
  repeat'
    (first | with_reducible assumption | with_reducible exact Kept.refl _ | intro _
           | (extract_lets +onlyGivenNames x; refine Kept.use (x := x) ?_ (fun _ => ?_) <;> [subst x; clear_value x])
           | (extract_lets +onlyGivenNames x; refine Kept.use_fst (x := x) ?_ (fun _ => ?_) <;> [subst x; clear_value x])
           | (extract_lets +onlyGivenNames x; have _y : _ → _ := x; subst x; beta_reduce)
           | (extract_lets +onlyGivenNames x; have _y : Mem := x; subst x) | (extract_lets +onlyGivenNames x; clear_value x)
           | with_reducible refine Kept.lit (by assumption) rfl ?_ | (apply Mem.wf_of; assumption; rfl) | split)

theorem dropLine_kept {z : State} {s : State} (h0 : Kept z s) (line : Nat) :
    Kept z (dropLine s line) := by
  unfold dropLine
  repeat'
    (first | with_reducible assumption | with_reducible exact Kept.refl _ | intro _
           | (extract_lets +onlyGivenNames x; refine Kept.use (x := x) ?_ (fun _ => ?_) <;> [subst x; clear_value x])
           | (extract_lets +onlyGivenNames x; refine Kept.use_fst (x := x) ?_ (fun _ => ?_) <;> [subst x; clear_value x])
           | (extract_lets +onlyGivenNames x; have _y : _ → _ := x; subst x; beta_reduce)
           | (extract_lets +onlyGivenNames x; have _y : Mem := x; subst x) | (extract_lets +onlyGivenNames x; clear_value x)
           | with_reducible refine Kept.lit (by assumption) rfl ?_ | (apply Mem.wf_of; assumption; rfl) | split)

theorem wayMiss_kept {z : State} {s : State} (h0 : Kept z s) (cls held : Nat) :
    Kept z (wayMiss s cls held) := by
  unfold wayMiss
  repeat'
    (first | with_reducible assumption | with_reducible exact Kept.refl _ | intro _
           | (extract_lets +onlyGivenNames x; refine Kept.use (x := x) ?_ (fun _ => ?_) <;> [subst x; clear_value x])
           | (extract_lets +onlyGivenNames x; refine Kept.use_fst (x := x) ?_ (fun _ => ?_) <;> [subst x; clear_value x])
           | (extract_lets +onlyGivenNames x; have _y : _ → _ := x; subst x; beta_reduce)
           | (extract_lets +onlyGivenNames x; clear_value x) | with_reducible refine Kept.lit (by assumption) rfl ?_
           | (apply Mem.wf_of; assumption; rfl) | split)

theorem allocate_kept {z : State} {s : State} (h0 : Kept z s) (p cls line : Nat) (write : Bool) :
    Kept z (allocate s p cls line write) := by
  unfold allocate
  repeat'
    (first | with_reducible assumption | with_reducible exact Kept.refl _ | intro _
           | (extract_lets +onlyGivenNames x; refine Kept.use (x := x) ?_ (fun _ => ?_) <;> [subst x; clear_value x])
           | (extract_lets +onlyGivenNames x; refine Kept.use_fst (x := x) ?_ (fun _ => ?_) <;> [subst x; clear_value x])
           | (extract_lets +onlyGivenNames x; have _y : _ → _ := x; subst x; beta_reduce)
           | (extract_lets +onlyGivenNames x; have _y : Mem := x; subst x) | (extract_lets +onlyGivenNames x; clear_value x)
           | (extract_lets +onlyGivenNames x; subst x) | with_reducible apply dropLine_kept | with_reducible apply wayMiss_kept
           | with_reducible refine Kept.lit (by assumption) rfl ?_
           | with_reducible refine Kept.lit (Kept.of_fst ?_ (by assumption)) rfl ?_ | (apply Mem.wf_of; assumption; rfl) | split)

theorem cacheAccess_kept {z : State} {s : State} (h0 : Kept z s) (p cls line : Nat) (write alloc : Bool) :
    Kept z (cacheAccess s p cls line write alloc) := by
  unfold cacheAccess
  repeat'
    (first | with_reducible assumption | with_reducible exact Kept.refl _ | intro _ | with_reducible apply allocate_kept
           | with_reducible apply touchLine_kept | split)

theorem cacheSpan_kept {z : State} {s : State} (h0 : Kept z s) (p cls pa n : Nat) (write alloc : Bool) :
    Kept z (cacheSpan s p cls pa n write alloc) := by
  unfold cacheSpan
  repeat'
    (first | with_reducible assumption | with_reducible exact Kept.refl _ | intro _ | with_reducible apply Kept.foldl
           | with_reducible apply Kept.foldl_fst | with_reducible apply cacheAccess_kept | split)

theorem writeBackGroup_kept {z : State} {s : State} (h0 : Kept z s) (lines g : Nat) :
    Kept z (writeBackGroup s lines g) := by
  unfold writeBackGroup
  repeat'
    (first | with_reducible assumption | with_reducible exact Kept.refl _ | intro _
           | (extract_lets +onlyGivenNames x; refine Kept.use (x := x) ?_ (fun _ => ?_) <;> [subst x; clear_value x])
           | (extract_lets +onlyGivenNames x; refine Kept.use_fst (x := x) ?_ (fun _ => ?_) <;> [subst x; clear_value x])
           | (extract_lets +onlyGivenNames x; have _y : _ → _ := x; subst x; beta_reduce)
           | (extract_lets +onlyGivenNames x; have _y : Mem := x; subst x) | (extract_lets +onlyGivenNames x; clear_value x)
           | (extract_lets +onlyGivenNames x; subst x) | with_reducible refine Kept.lit (by assumption) rfl ?_
           | (apply Mem.wf_of; assumption; rfl) | split)

theorem writeBack_kept {z : State} {s : State} (h0 : Kept z s) :
    Kept z (writeBack s) := by
  unfold writeBack
  repeat'
    (first | with_reducible assumption | with_reducible exact Kept.refl _ | intro _ | with_reducible apply Kept.foldl
           | with_reducible apply Kept.foldl_fst | with_reducible apply writeBackGroup_kept | split)

theorem correctedHbm_kept {z : State} {s : State} (h0 : Kept z s) (pa part symbol : Nat) :
    Kept z (correctedHbm s pa part symbol) := by
  unfold correctedHbm
  repeat'
    (first | with_reducible assumption | with_reducible exact Kept.refl _ | intro _
           | (extract_lets +onlyGivenNames x; refine Kept.use (x := x) ?_ (fun _ => ?_) <;> [subst x; clear_value x])
           | (extract_lets +onlyGivenNames x; refine Kept.use_fst (x := x) ?_ (fun _ => ?_) <;> [subst x; clear_value x])
           | (extract_lets +onlyGivenNames x; have _y : _ → _ := x; subst x; beta_reduce)
           | (extract_lets +onlyGivenNames x; have _y : Mem := x; subst x) | (extract_lets +onlyGivenNames x; clear_value x)
           | with_reducible apply record_kept | with_reducible refine Kept.lit (by assumption) rfl ?_
           | (apply Mem.wf_of; assumption; rfl) | split)

theorem taintLine_kept {z : State} {s : State} (h0 : Kept z s) (line source : Nat) :
    Kept z (taintLine s line source) := by
  unfold taintLine
  repeat'
    (first | with_reducible assumption | with_reducible exact Kept.refl _ | intro _ | with_reducible apply taintWith_kept | split)

theorem foundError_kept {z : State} {s : State} (h0 : Kept z s) (pa part : Nat) (e : EccResult) :
    Kept z (foundError s pa part e) := by
  unfold foundError
  repeat'
    (first | with_reducible assumption | with_reducible exact Kept.refl _ | intro _
           | (extract_lets +onlyGivenNames x; refine Kept.use (x := x) ?_ (fun _ => ?_) <;> [subst x; clear_value x])
           | (extract_lets +onlyGivenNames x; refine Kept.use_fst (x := x) ?_ (fun _ => ?_) <;> [subst x; clear_value x])
           | (extract_lets +onlyGivenNames x; have _y : _ → _ := x; subst x; beta_reduce)
           | (extract_lets +onlyGivenNames x; have _y : Mem := x; subst x) | (extract_lets +onlyGivenNames x; clear_value x)
           | with_reducible apply correctedHbm_kept | with_reducible apply dropLine_kept | with_reducible apply record_kept
           | with_reducible apply taintLine_kept | with_reducible apply taintWith_kept
           | with_reducible refine Kept.lit (by assumption) rfl ?_
           | with_reducible refine Kept.lit (Kept.of_fst ?_ (by assumption)) rfl ?_ | (apply Mem.wf_of; assumption; rfl) | split)

end Sys2Proof.Machine
end

