-- ==== Sys2Proof/Laws/KeptCells.lean ====
section
/-! SUPPORT. The operations of Machine/Cells.lean keep what `Kept` names. -/

namespace Sys2Proof.Machine

theorem setCell_kept {z : State} {s : State} (h0 : Kept z s) (pa : Nat) (c : Cell) :
    Kept z (setCell s pa c) := by
  unfold setCell
  repeat'
    (first | with_reducible assumption | with_reducible exact Kept.refl _ | intro _ | with_reducible apply memPut_kept | split)

theorem stepCell_kept {z : State} {s : State} (h0 : Kept z s) (q : AtomReq) (op : AtomOp) :
    Kept z (stepCell s q op) := by
  unfold stepCell
  repeat'
    (first | with_reducible assumption | with_reducible exact Kept.refl _ | intro _
           | (extract_lets +onlyGivenNames x; refine Kept.use (x := x) ?_ (fun _ => ?_) <;> [subst x; clear_value x])
           | (extract_lets +onlyGivenNames x; refine Kept.use_fst (x := x) ?_ (fun _ => ?_) <;> [subst x; clear_value x])
           | (extract_lets +onlyGivenNames x; have _y : _ → _ := x; subst x; beta_reduce)
           | (extract_lets +onlyGivenNames x; clear_value x) | with_reducible apply record_kept
           | with_reducible apply setCell_kept | with_reducible refine Kept.lit (by assumption) rfl ?_
           | with_reducible refine Kept.lit (Kept.of_fst ?_ (by assumption)) rfl ?_ | (apply Mem.wf_of; assumption; rfl) | split)

theorem noteErrPacket_kept {z : State} {s : State} (h0 : Kept z s) (q : AtomReq) :
    Kept z (noteErrPacket s q) := by
  unfold noteErrPacket
  repeat'
    (first | with_reducible assumption | with_reducible exact Kept.refl _ | intro _ | with_reducible apply recordCount_kept
           | split)

theorem applyCell_kept {z : State} {s : State} (h0 : Kept z s) (q : AtomReq) (op : AtomOp) :
    Kept z (applyCell s q op) := by
  unfold applyCell
  repeat'
    (first | with_reducible assumption | with_reducible exact Kept.refl _ | intro _
           | (extract_lets +onlyGivenNames x; refine Kept.use (x := x) ?_ (fun _ => ?_) <;> [subst x; clear_value x])
           | (extract_lets +onlyGivenNames x; refine Kept.use_fst (x := x) ?_ (fun _ => ?_) <;> [subst x; clear_value x])
           | (extract_lets +onlyGivenNames x; have _y : _ → _ := x; subst x; beta_reduce)
           | (extract_lets +onlyGivenNames x; clear_value x) | with_reducible apply emit_kept
           | with_reducible apply noteErrPacket_kept | with_reducible apply stepCell_kept
           | with_reducible refine Kept.lit (by assumption) rfl ?_
           | with_reducible refine Kept.lit (Kept.of_fst ?_ (by assumption)) rfl ?_ | (apply Mem.wf_of; assumption; rfl) | split)

theorem applyElem_kept {z : State} {s : State} (h0 : Kept z s) (q : AtomReq) (op : AtomOp) :
    Kept z (applyElem s q op) := by
  unfold applyElem
  repeat'
    (first | with_reducible assumption | with_reducible exact Kept.refl _ | intro _
           | (extract_lets +onlyGivenNames x; refine Kept.use (x := x) ?_ (fun _ => ?_) <;> [subst x; clear_value x])
           | (extract_lets +onlyGivenNames x; refine Kept.use_fst (x := x) ?_ (fun _ => ?_) <;> [subst x; clear_value x])
           | (extract_lets +onlyGivenNames x; have _y : _ → _ := x; subst x; beta_reduce)
           | (extract_lets +onlyGivenNames x; have _y : Mem := x; subst x) | (extract_lets +onlyGivenNames x; clear_value x)
           | with_reducible apply emit_kept | with_reducible apply memWrite_kept | split)

theorem applyAtom_kept {z : State} {s0 : State} (h0 : Kept z s0) (q : AtomReq) (op : AtomOp) :
    Kept z (applyAtom s0 q op) := by
  unfold applyAtom
  repeat'
    (first | with_reducible assumption | with_reducible exact Kept.refl _ | intro _
           | (extract_lets +onlyGivenNames x; refine Kept.use (x := x) ?_ (fun _ => ?_) <;> [subst x; clear_value x])
           | (extract_lets +onlyGivenNames x; refine Kept.use_fst (x := x) ?_ (fun _ => ?_) <;> [subst x; clear_value x])
           | (extract_lets +onlyGivenNames x; have _y : _ → _ := x; subst x; beta_reduce)
           | (extract_lets +onlyGivenNames x; clear_value x) | with_reducible apply applyCell_kept
           | with_reducible apply applyElem_kept | with_reducible apply noteBusy_kept
           | with_reducible refine Kept.lit (by assumption) rfl ?_ | (apply Mem.wf_of; assumption; rfl) | split)

end Sys2Proof.Machine
end

