-- ==== Sys2Proof/Laws/KeptCoherence.lean ====
section
/-! SUPPORT. The operations of Machine/Coherence.lean keep what `Kept` names. -/

namespace Sys2Proof.Machine

theorem setAgent_kept {z : State} {s : State} (h0 : Kept z s) (a : Nat) (v : Agent) :
    Kept z (setAgent s a v) := by
  unfold setAgent
  repeat'
    (first | with_reducible assumption | with_reducible exact Kept.refl _ | intro _
           | (extract_lets +onlyGivenNames x; refine Kept.use (x := x) ?_ (fun _ => ?_) <;> [subst x; clear_value x])
           | (extract_lets +onlyGivenNames x; refine Kept.use_fst (x := x) ?_ (fun _ => ?_) <;> [subst x; clear_value x])
           | (extract_lets +onlyGivenNames x; have _y : _ → _ := x; subst x; beta_reduce)
           | (extract_lets +onlyGivenNames x; clear_value x) | with_reducible refine Kept.lit (by assumption) rfl ?_
           | (apply Mem.wf_of; assumption; rfl) | split)

theorem setDir_kept {z : State} {s : State} (h0 : Kept z s) (line : Nat) (d : DirEntry) :
    Kept z (setDir s line d) := by
  unfold setDir
  repeat'
    (first | with_reducible assumption | with_reducible exact Kept.refl _ | intro _
           | (extract_lets +onlyGivenNames x; refine Kept.use (x := x) ?_ (fun _ => ?_) <;> [subst x; clear_value x])
           | (extract_lets +onlyGivenNames x; refine Kept.use_fst (x := x) ?_ (fun _ => ?_) <;> [subst x; clear_value x])
           | (extract_lets +onlyGivenNames x; have _y : _ → _ := x; subst x; beta_reduce)
           | (extract_lets +onlyGivenNames x; clear_value x) | with_reducible refine Kept.lit (by assumption) rfl ?_
           | (apply Mem.wf_of; assumption; rfl) | split)

theorem dropDir_kept {z : State} {s : State} (h0 : Kept z s) (line : Nat) :
    Kept z (dropDir s line) := by
  unfold dropDir
  repeat'
    (first | with_reducible assumption | with_reducible exact Kept.refl _ | intro _
           | (extract_lets +onlyGivenNames x; refine Kept.use (x := x) ?_ (fun _ => ?_) <;> [subst x; clear_value x])
           | (extract_lets +onlyGivenNames x; refine Kept.use_fst (x := x) ?_ (fun _ => ?_) <;> [subst x; clear_value x])
           | (extract_lets +onlyGivenNames x; have _y : _ → _ := x; subst x; beta_reduce)
           | (extract_lets +onlyGivenNames x; clear_value x) | with_reducible refine Kept.lit (by assumption) rfl ?_
           | (apply Mem.wf_of; assumption; rfl) | split)

theorem dropHolder_kept {z : State} {s : State} (h0 : Kept z s) (line a : Nat) :
    Kept z (dropHolder s line a) := by
  unfold dropHolder
  repeat'
    (first | with_reducible assumption | with_reducible exact Kept.refl _ | intro _
           | (extract_lets +onlyGivenNames x; refine Kept.use (x := x) ?_ (fun _ => ?_) <;> [subst x; clear_value x])
           | (extract_lets +onlyGivenNames x; refine Kept.use_fst (x := x) ?_ (fun _ => ?_) <;> [subst x; clear_value x])
           | (extract_lets +onlyGivenNames x; have _y : _ → _ := x; subst x; beta_reduce)
           | (extract_lets +onlyGivenNames x; clear_value x) | with_reducible apply setDir_kept
           | with_reducible refine Kept.lit (by assumption) rfl ?_
           | with_reducible refine Kept.lit (Kept.of_fst ?_ (by assumption)) rfl ?_ | (apply Mem.wf_of; assumption; rfl) | split)

theorem poisonLine_kept {z : State} {s : State} (h0 : Kept z s) (line : Nat) :
    Kept z (poisonLine s line) := by
  unfold poisonLine
  repeat'
    (first | with_reducible assumption | with_reducible exact Kept.refl _ | intro _ | with_reducible apply taintLine_kept | split)

theorem writeLine_kept {z : State} {s : State} (h0 : Kept z s) (line : Nat) (d : Bytes) :
    Kept z (writeLine s line d) := by
  unfold writeLine
  repeat'
    (first | with_reducible assumption | with_reducible exact Kept.refl _ | intro _
           | (extract_lets +onlyGivenNames x; refine Kept.use (x := x) ?_ (fun _ => ?_) <;> [subst x; clear_value x])
           | (extract_lets +onlyGivenNames x; refine Kept.use_fst (x := x) ?_ (fun _ => ?_) <;> [subst x; clear_value x])
           | (extract_lets +onlyGivenNames x; have _y : _ → _ := x; subst x; beta_reduce)
           | (extract_lets +onlyGivenNames x; have _y : Mem := x; subst x) | (extract_lets +onlyGivenNames x; clear_value x)
           | with_reducible apply memPut_kept | with_reducible apply touchLine_kept | split)

theorem noteLine_kept {z : State} {s : State} (h0 : Kept z s) (old : State) (p line : Nat) :
    Kept z (noteLine old s p line) := by
  unfold noteLine
  repeat'
    (first | with_reducible assumption | with_reducible exact Kept.refl _ | intro _
           | (extract_lets +onlyGivenNames x; refine Kept.use (x := x) ?_ (fun _ => ?_) <;> [subst x; clear_value x])
           | (extract_lets +onlyGivenNames x; refine Kept.use_fst (x := x) ?_ (fun _ => ?_) <;> [subst x; clear_value x])
           | (extract_lets +onlyGivenNames x; have _y : _ → _ := x; subst x; beta_reduce)
           | (extract_lets +onlyGivenNames x; clear_value x) | with_reducible apply noteBusy_kept
           | with_reducible refine Kept.lit (by assumption) rfl ?_
           | with_reducible refine Kept.lit (Kept.of_fst ?_ (by assumption)) rfl ?_ | (apply Mem.wf_of; assumption; rfl) | split)

theorem lookUp_kept {z : State} {s : State} (h0 : Kept z s) (p share pa n : Nat) (write alloc : Bool) :
    Kept z (lookUp s p share pa n write alloc) := by
  unfold lookUp
  repeat'
    (first | with_reducible assumption | with_reducible exact Kept.refl _ | intro _ | with_reducible apply Kept.foldl
           | with_reducible apply Kept.foldl_fst | with_reducible apply cacheSpan_kept | with_reducible apply noteLine_kept
           | split)

theorem serveRead_kept {z : State} {s : State} (h0 : Kept z s) (r : MemReq) :
    Kept z (serveRead s r) := by
  unfold serveRead
  repeat'
    (first | with_reducible assumption | with_reducible exact Kept.refl _ | intro _
           | (extract_lets +onlyGivenNames x; refine Kept.use (x := x) ?_ (fun _ => ?_) <;> [subst x; clear_value x])
           | (extract_lets +onlyGivenNames x; refine Kept.use_fst (x := x) ?_ (fun _ => ?_) <;> [subst x; clear_value x])
           | (extract_lets +onlyGivenNames x; have _y : _ → _ := x; subst x; beta_reduce)
           | (extract_lets +onlyGivenNames x; have _y : Mem := x; subst x) | (extract_lets +onlyGivenNames x; clear_value x)
           | (extract_lets +onlyGivenNames x; subst x) | with_reducible apply emit_kept | with_reducible apply foundError_kept
           | with_reducible apply lookUp_kept | split)

theorem maskedUnit_kept {z : State} {s : State} (h0 : Kept z s) (pa : Nat) (d : Bytes) (mask : List Bool) (poison : Bool) :
    Kept z (maskedUnit s pa d mask poison) := by
  unfold maskedUnit
  repeat'
    (first | with_reducible assumption | with_reducible exact Kept.refl _ | intro _
           | with_reducible refine Kept.of_fst ?_ (by assumption) | with_reducible apply Kept.foldl
           | with_reducible apply Kept.foldl_fst | with_reducible apply memWrite_kept | exact Kept.refl _ | split)

theorem maskedWrite_kept {z : State} {s : State} (h0 : Kept z s) (pa : Nat) (d : Bytes) (mask poison : List Bool) :
    Kept z (maskedWrite s pa d mask poison) := by
  unfold maskedWrite
  repeat'
    (first | with_reducible assumption | with_reducible exact Kept.refl _ | intro _
           | (extract_lets +onlyGivenNames x; refine Kept.use (x := x) ?_ (fun _ => ?_) <;> [subst x; clear_value x])
           | (extract_lets +onlyGivenNames x; refine Kept.use_fst (x := x) ?_ (fun _ => ?_) <;> [subst x; clear_value x])
           | (extract_lets +onlyGivenNames x; have _y : _ → _ := x; subst x; beta_reduce)
           | (extract_lets +onlyGivenNames x; clear_value x) | with_reducible apply Kept.foldl
           | with_reducible apply Kept.foldl_fst | with_reducible apply maskedUnit_kept | split)

theorem serveWrite_kept {z : State} {s : State} (h0 : Kept z s) (r : MemReq) :
    Kept z (serveWrite s r) := by
  unfold serveWrite
  repeat'
    (first | with_reducible assumption | with_reducible exact Kept.refl _ | intro _
           | (extract_lets +onlyGivenNames x; refine Kept.use (x := x) ?_ (fun _ => ?_) <;> [subst x; clear_value x])
           | (extract_lets +onlyGivenNames x; refine Kept.use_fst (x := x) ?_ (fun _ => ?_) <;> [subst x; clear_value x])
           | (extract_lets +onlyGivenNames x; have _y : _ → _ := x; subst x; beta_reduce)
           | (extract_lets +onlyGivenNames x; clear_value x) | (extract_lets +onlyGivenNames x; subst x)
           | with_reducible apply emit_kept | with_reducible apply lookUp_kept | with_reducible apply maskedWrite_kept | split)

theorem putTxn_kept {z : State} {s : State} (h0 : Kept z s) (t : Txn) :
    Kept z (putTxn s t) := by
  unfold putTxn
  repeat'
    (first | with_reducible assumption | with_reducible exact Kept.refl _ | intro _
           | (extract_lets +onlyGivenNames x; refine Kept.use (x := x) ?_ (fun _ => ?_) <;> [subst x; clear_value x])
           | (extract_lets +onlyGivenNames x; refine Kept.use_fst (x := x) ?_ (fun _ => ?_) <;> [subst x; clear_value x])
           | (extract_lets +onlyGivenNames x; have _y : _ → _ := x; subst x; beta_reduce)
           | (extract_lets +onlyGivenNames x; clear_value x) | with_reducible refine Kept.lit (by assumption) rfl ?_
           | (apply Mem.wf_of; assumption; rfl) | split)

theorem dropTxn_kept {z : State} {s : State} (h0 : Kept z s) (line : Nat) :
    Kept z (dropTxn s line) := by
  unfold dropTxn
  repeat'
    (first | with_reducible assumption | with_reducible exact Kept.refl _ | intro _
           | (extract_lets +onlyGivenNames x; refine Kept.use (x := x) ?_ (fun _ => ?_) <;> [subst x; clear_value x])
           | (extract_lets +onlyGivenNames x; refine Kept.use_fst (x := x) ?_ (fun _ => ?_) <;> [subst x; clear_value x])
           | (extract_lets +onlyGivenNames x; have _y : _ → _ := x; subst x; beta_reduce)
           | (extract_lets +onlyGivenNames x; clear_value x) | with_reducible refine Kept.lit (by assumption) rfl ?_
           | (apply Mem.wf_of; assumption; rfl) | split)

theorem refuseCoh_kept {z : State} {s : State} (h0 : Kept z s) (a line : Nat) (cls : Option Nat) :
    Kept z (refuseCoh s a line cls) := by
  unfold refuseCoh
  repeat'
    (first | with_reducible assumption | with_reducible exact Kept.refl _ | intro _
           | (extract_lets +onlyGivenNames x; refine Kept.use (x := x) ?_ (fun _ => ?_) <;> [subst x; clear_value x])
           | (extract_lets +onlyGivenNames x; refine Kept.use_fst (x := x) ?_ (fun _ => ?_) <;> [subst x; clear_value x])
           | (extract_lets +onlyGivenNames x; have _y : _ → _ := x; subst x; beta_reduce)
           | (extract_lets +onlyGivenNames x; clear_value x) | with_reducible apply emit_kept | with_reducible apply record_kept
           | with_reducible refine Kept.lit (by assumption) rfl ?_
           | with_reducible refine Kept.lit (Kept.of_fst ?_ (by assumption)) rfl ?_ | (apply Mem.wf_of; assumption; rfl) | split)

theorem grantLine_kept {z : State} {s : State} (h0 : Kept z s) (line a way : Nat) (g : Grant) (ecc : EccResult) :
    Kept z (grantLine s line a way g ecc) := by
  unfold grantLine
  repeat'
    (first | with_reducible assumption | with_reducible exact Kept.refl _ | intro _
           | (extract_lets +onlyGivenNames x; refine Kept.use (x := x) ?_ (fun _ => ?_) <;> [subst x; clear_value x])
           | (extract_lets +onlyGivenNames x; refine Kept.use_fst (x := x) ?_ (fun _ => ?_) <;> [subst x; clear_value x])
           | (extract_lets +onlyGivenNames x; have _y : _ → _ := x; subst x; beta_reduce)
           | (extract_lets +onlyGivenNames x; have _y : Mem := x; subst x) | (extract_lets +onlyGivenNames x; clear_value x)
           | (extract_lets +onlyGivenNames x; subst x) | with_reducible apply emit_kept | with_reducible apply foundError_kept
           | with_reducible apply lookUp_kept | with_reducible apply setDir_kept
           | with_reducible refine Kept.lit (by assumption) rfl ?_ | (apply Mem.wf_of; assumption; rfl) | split)

theorem serveTxn_kept {z : State} {s : State} (h0 : Kept z s) (line way : Nat) (k : TxnKind) :
    Kept z (serveTxn s line way k) := by
  unfold serveTxn
  repeat'
    (first | with_reducible assumption | with_reducible exact Kept.refl _ | intro _ | with_reducible apply dropDir_kept
           | with_reducible apply emit_kept | with_reducible apply grantLine_kept | with_reducible apply setDir_kept
           | with_reducible refine Kept.lit (by assumption) rfl ?_
           | with_reducible refine Kept.lit (Kept.of_fst ?_ (by assumption)) rfl ?_ | (apply Mem.wf_of; assumption; rfl) | split)

theorem landDirty_kept {z : State} {s : State} (h0 : Kept z s) (t : Txn) :
    Kept z (landDirty s t) := by
  unfold landDirty
  repeat'
    (first | with_reducible assumption | with_reducible exact Kept.refl _ | intro _ | with_reducible apply writeLine_kept | split)

theorem sendSnoops_kept {z : State} {s : State} (h0 : Kept z s) (line : Nat) (kind : TxnKind) :
    Kept z (sendSnoops s line kind) := by
  unfold sendSnoops
  repeat'
    (first | with_reducible assumption | with_reducible exact Kept.refl _ | intro _
           | (extract_lets +onlyGivenNames x; refine Kept.use (x := x) ?_ (fun _ => ?_) <;> [subst x; clear_value x])
           | (extract_lets +onlyGivenNames x; refine Kept.use_fst (x := x) ?_ (fun _ => ?_) <;> [subst x; clear_value x])
           | (extract_lets +onlyGivenNames x; have _y : _ → _ := x; subst x; beta_reduce)
           | (extract_lets +onlyGivenNames x; clear_value x) | with_reducible apply Kept.foldl
           | with_reducible apply Kept.foldl_fst | with_reducible apply dropHolder_kept | with_reducible apply emit_kept
           | with_reducible refine Kept.lit (by assumption) rfl ?_ | with_reducible refine Kept.lit (Kept.refl _) rfl ?_
           | with_reducible refine Kept.lit (Kept.of_fst ?_ (by assumption)) rfl ?_ | (apply Mem.wf_of; assumption; rfl) | split)

theorem evictFor_kept {z : State} {s : State} (h0 : Kept z s) (line a : Nat) :
    Kept z (evictFor s line a) := by
  unfold evictFor
  repeat'
    (first | with_reducible assumption | with_reducible exact Kept.refl _ | intro _ | with_reducible apply sendSnoops_kept | split)

theorem closeTxn_kept {z : State} {s : State} (h0 : Kept z s) (line : Nat) :
    Kept z (closeTxn s line) := by
  unfold closeTxn
  repeat'
    (first | with_reducible assumption | with_reducible exact Kept.refl _ | intro _
           | (extract_lets +onlyGivenNames x; refine Kept.use (x := x) ?_ (fun _ => ?_) <;> [subst x; clear_value x])
           | (extract_lets +onlyGivenNames x; refine Kept.use_fst (x := x) ?_ (fun _ => ?_) <;> [subst x; clear_value x])
           | (extract_lets +onlyGivenNames x; have _y : _ → _ := x; subst x; beta_reduce)
           | (extract_lets +onlyGivenNames x; clear_value x) | with_reducible apply dropTxn_kept
           | with_reducible apply evictFor_kept | with_reducible apply landDirty_kept | with_reducible apply putTxn_kept
           | with_reducible apply refuseCoh_kept | with_reducible apply serveTxn_kept
           | with_reducible refine Kept.lit (by assumption) rfl ?_
           | with_reducible refine Kept.lit (Kept.of_fst ?_ (by assumption)) rfl ?_ | (apply Mem.wf_of; assumption; rfl) | split)

theorem attempt_kept {z : State} {s : State} (h0 : Kept z s) (line : Nat) (kind : TxnKind) :
    Kept z (attempt s line kind).1 := by
  unfold attempt
  repeat'
    (first | with_reducible assumption | with_reducible exact Kept.refl _ | intro _
           | with_reducible refine Kept.of_fst ?_ (by assumption) | with_reducible apply closeTxn_kept
           | with_reducible apply refuseCoh_kept | with_reducible apply sendSnoops_kept | split)

theorem drainList_kept {z : State} {z1 : State} (h0 : Kept z z1) (z0 : List (Nat × TxnKind)) (z2 : List Nat) (z3 : List (Nat × TxnKind)) :
    Kept z (drainList z0 z1 z2 z3).1 := by
  induction z0 generalizing z1 z2 z3 z with
  | nil =>
    rw [drainList]
    repeat'
      (first | with_reducible assumption | with_reducible exact Kept.refl _ | intro _
             | (extract_lets +onlyGivenNames x; refine Kept.use (x := x) ?_ (fun _ => ?_) <;> [subst x; clear_value x])
             | (extract_lets +onlyGivenNames x; refine Kept.use_fst (x := x) ?_ (fun _ => ?_) <;> [subst x; clear_value x])
             | (extract_lets +onlyGivenNames x; have _y : _ → _ := x; subst x; beta_reduce)
             | (extract_lets +onlyGivenNames x; clear_value x) | with_reducible refine Kept.of_fst ?_ (by assumption)
             | with_reducible apply attempt_kept | split)
  | cons x r ih =>
    rw [drainList]
    repeat'
      (first | with_reducible assumption | with_reducible exact Kept.refl _ | intro _
             | (extract_lets +onlyGivenNames x; refine Kept.use (x := x) ?_ (fun _ => ?_) <;> [subst x; clear_value x])
             | (extract_lets +onlyGivenNames x; refine Kept.use_fst (x := x) ?_ (fun _ => ?_) <;> [subst x; clear_value x])
             | (extract_lets +onlyGivenNames x; have _y : _ → _ := x; subst x; beta_reduce)
             | (extract_lets +onlyGivenNames x; clear_value x) | with_reducible refine Kept.of_fst ?_ (by assumption)
             | with_reducible apply ih | with_reducible apply attempt_kept | split)

theorem drainWaiting_kept {z : State} {s : State} (h0 : Kept z s) :
    Kept z (drainWaiting s) := by
  unfold drainWaiting
  repeat'
    (first | with_reducible assumption | with_reducible exact Kept.refl _ | intro _
           | (extract_lets +onlyGivenNames x; refine Kept.use (x := x) ?_ (fun _ => ?_) <;> [subst x; clear_value x])
           | (extract_lets +onlyGivenNames x; refine Kept.use_fst (x := x) ?_ (fun _ => ?_) <;> [subst x; clear_value x])
           | (extract_lets +onlyGivenNames x; have _y : _ → _ := x; subst x; beta_reduce)
           | (extract_lets +onlyGivenNames x; clear_value x) | with_reducible refine Kept.of_fst ?_ (by assumption)
           | with_reducible apply Kept.foldl | with_reducible apply Kept.foldl_fst | with_reducible apply closeTxn_kept
           | with_reducible apply drainList_kept | with_reducible refine Kept.lit (by assumption) rfl ?_
           | with_reducible refine Kept.lit (Kept.refl _) rfl ?_
           | with_reducible refine Kept.lit (Kept.of_fst ?_ (by assumption)) rfl ?_ | (apply Mem.wf_of; assumption; rfl) | split)

theorem requestLine_kept {z : State} {s : State} (h0 : Kept z s) (line : Nat) (kind : TxnKind) :
    Kept z (requestLine s line kind) := by
  unfold requestLine
  repeat'
    (first | with_reducible assumption | with_reducible exact Kept.refl _ | intro _
           | (extract_lets +onlyGivenNames x; refine Kept.use (x := x) ?_ (fun _ => ?_) <;> [subst x; clear_value x])
           | (extract_lets +onlyGivenNames x; refine Kept.use_fst (x := x) ?_ (fun _ => ?_) <;> [subst x; clear_value x])
           | (extract_lets +onlyGivenNames x; have _y : _ → _ := x; subst x; beta_reduce)
           | (extract_lets +onlyGivenNames x; clear_value x) | with_reducible refine Kept.of_fst ?_ (by assumption)
           | with_reducible apply attempt_kept | with_reducible refine Kept.lit (by assumption) rfl ?_
           | with_reducible refine Kept.lit (Kept.of_fst ?_ (by assumption)) rfl ?_ | (apply Mem.wf_of; assumption; rfl) | split)

theorem settle_kept {z : State} {s : State} (h0 : Kept z s) (line : Nat) :
    Kept z (settle s line) := by
  unfold settle
  repeat'
    (first | with_reducible assumption | with_reducible exact Kept.refl _ | intro _ | with_reducible apply closeTxn_kept
           | with_reducible apply drainWaiting_kept | split)

theorem enqueue_kept {z : State} {s : State} (h0 : Kept z s) (what : Arrival) (lines : List Nat) (share tick : Bool) :
    Kept z (enqueue s what lines share tick) := by
  unfold enqueue
  repeat'
    (first | with_reducible assumption | with_reducible exact Kept.refl _ | intro _
           | (extract_lets +onlyGivenNames x; refine Kept.use (x := x) ?_ (fun _ => ?_) <;> [subst x; clear_value x])
           | (extract_lets +onlyGivenNames x; refine Kept.use_fst (x := x) ?_ (fun _ => ?_) <;> [subst x; clear_value x])
           | (extract_lets +onlyGivenNames x; have _y : _ → _ := x; subst x; beta_reduce)
           | (extract_lets +onlyGivenNames x; clear_value x) | with_reducible apply drainWaiting_kept
           | with_reducible apply fileArrival_kept | with_reducible refine Kept.lit (by assumption) rfl ?_
           | (apply Mem.wf_of; assumption; rfl) | split)

theorem leave_kept {z : State} {s : State} (h0 : Kept z s) (w : Waiting) :
    Kept z (leave s w) := by
  unfold leave
  repeat'
    (first | with_reducible assumption | with_reducible exact Kept.refl _ | intro _
           | (extract_lets +onlyGivenNames x; refine Kept.use (x := x) ?_ (fun _ => ?_) <;> [subst x; clear_value x])
           | (extract_lets +onlyGivenNames x; refine Kept.use_fst (x := x) ?_ (fun _ => ?_) <;> [subst x; clear_value x])
           | (extract_lets +onlyGivenNames x; have _y : _ → _ := x; subst x; beta_reduce)
           | (extract_lets +onlyGivenNames x; clear_value x) | with_reducible refine Kept.lit (by assumption) rfl ?_
           | with_reducible refine Kept.lit (Kept.of_fst ?_ (by assumption)) rfl ?_ | (apply Mem.wf_of; assumption; rfl) | split)

theorem cohRefused_kept {u s t : State} {m : CohMsg} (h : Kept u s) (e : cohRefused s m = some t) : Kept u t := by
  unfold cohRefused at e
  repeat' (first | (obtain rfl := Option.some.inj e; clear e) | cases e | apply refuseCoh_kept | assumption | split at e)

theorem cohRequest_kept {z : State} {s : State} (h0 : Kept z s) (m : CohMsg) (kind : TxnKind) :
    Kept z (cohRequest s m kind) := by
  unfold cohRequest
  repeat'
    (first | with_reducible assumption | with_reducible exact Kept.refl _ | intro _
           | with_reducible refine cohRefused_kept ?_ (by assumption) | with_reducible apply refuseCoh_kept
           | with_reducible apply requestLine_kept | split)

theorem lateResponse_kept {z : State} {s : State} (h0 : Kept z s) (m : CohMsg) :
    Kept z (lateResponse s m) := by
  unfold lateResponse
  repeat'
    (first | with_reducible assumption | with_reducible exact Kept.refl _ | intro _
           | (extract_lets +onlyGivenNames x; refine Kept.use (x := x) ?_ (fun _ => ?_) <;> [subst x; clear_value x])
           | (extract_lets +onlyGivenNames x; refine Kept.use_fst (x := x) ?_ (fun _ => ?_) <;> [subst x; clear_value x])
           | (extract_lets +onlyGivenNames x; have _y : _ → _ := x; subst x; beta_reduce)
           | (extract_lets +onlyGivenNames x; clear_value x) | with_reducible apply record_kept
           | with_reducible apply setAgent_kept | with_reducible refine Kept.lit (by assumption) rfl ?_
           | (apply Mem.wf_of; assumption; rfl) | split)

theorem dirAfter_kept {z : State} {s : State} (h0 : Kept z s) (line a : Nat) (keeps : Bool) :
    Kept z (dirAfter s line a keeps) := by
  unfold dirAfter
  repeat'
    (first | with_reducible assumption | with_reducible exact Kept.refl _ | intro _
           | (extract_lets +onlyGivenNames x; refine Kept.use (x := x) ?_ (fun _ => ?_) <;> [subst x; clear_value x])
           | (extract_lets +onlyGivenNames x; refine Kept.use_fst (x := x) ?_ (fun _ => ?_) <;> [subst x; clear_value x])
           | (extract_lets +onlyGivenNames x; have _y : _ → _ := x; subst x; beta_reduce)
           | (extract_lets +onlyGivenNames x; clear_value x) | with_reducible apply dropHolder_kept
           | with_reducible apply setDir_kept | with_reducible refine Kept.lit (by assumption) rfl ?_
           | with_reducible refine Kept.lit (Kept.of_fst ?_ (by assumption)) rfl ?_ | (apply Mem.wf_of; assumption; rfl) | split)

theorem respond_kept {z : State} {s : State} (h0 : Kept z s) (m : CohMsg) (r : Rsp) :
    Kept z (respond s m r) := by
  unfold respond
  repeat'
    (first | with_reducible assumption | with_reducible exact Kept.refl _ | intro _
           | (extract_lets +onlyGivenNames x; refine Kept.use (x := x) ?_ (fun _ => ?_) <;> [subst x; clear_value x])
           | (extract_lets +onlyGivenNames x; refine Kept.use_fst (x := x) ?_ (fun _ => ?_) <;> [subst x; clear_value x])
           | (extract_lets +onlyGivenNames x; have _y : _ → _ := x; subst x; beta_reduce)
           | (extract_lets +onlyGivenNames x; clear_value x) | with_reducible refine cohRefused_kept ?_ (by assumption)
           | with_reducible apply dirAfter_kept | with_reducible apply emit_kept | with_reducible apply lateResponse_kept
           | with_reducible apply putTxn_kept | with_reducible apply settle_kept | split)

theorem dropEvict_kept {z : State} {s : State} (h0 : Kept z s) (a line : Nat) :
    Kept z (dropEvict s a line) := by
  unfold dropEvict
  repeat'
    (first | with_reducible assumption | with_reducible exact Kept.refl _ | intro _
           | (extract_lets +onlyGivenNames x; refine Kept.use (x := x) ?_ (fun _ => ?_) <;> [subst x; clear_value x])
           | (extract_lets +onlyGivenNames x; refine Kept.use_fst (x := x) ?_ (fun _ => ?_) <;> [subst x; clear_value x])
           | (extract_lets +onlyGivenNames x; have _y : _ → _ := x; subst x; beta_reduce)
           | (extract_lets +onlyGivenNames x; clear_value x) | with_reducible refine Kept.lit (by assumption) rfl ?_
           | (apply Mem.wf_of; assumption; rfl) | split)

theorem landWb_kept {z : State} {s : State} (h0 : Kept z s) (m : CohMsg) (d : Bytes) :
    Kept z (landWb s m d) := by
  unfold landWb
  repeat'
    (first | with_reducible assumption | with_reducible exact Kept.refl _ | intro _ | with_reducible apply drainWaiting_kept
           | with_reducible apply dropHolder_kept | with_reducible apply emit_kept | with_reducible apply writeLine_kept | split)

theorem plainWb_kept {z : State} {s : State} (h0 : Kept z s) (m : CohMsg) (d : Bytes) :
    Kept z (plainWb s m d) := by
  unfold plainWb
  repeat'
    (first | with_reducible assumption | with_reducible exact Kept.refl _ | intro _
           | (extract_lets +onlyGivenNames x; refine Kept.use (x := x) ?_ (fun _ => ?_) <;> [subst x; clear_value x])
           | (extract_lets +onlyGivenNames x; refine Kept.use_fst (x := x) ?_ (fun _ => ?_) <;> [subst x; clear_value x])
           | (extract_lets +onlyGivenNames x; have _y : _ → _ := x; subst x; beta_reduce)
           | (extract_lets +onlyGivenNames x; clear_value x) | with_reducible apply drainWaiting_kept
           | with_reducible apply dropHolder_kept | with_reducible apply landWb_kept | with_reducible apply refuseCoh_kept | split)

theorem takeWb_kept {z : State} {s0 : State} (h0 : Kept z s0) (m : CohMsg) (d : Bytes) :
    Kept z (takeWb s0 m d) := by
  unfold takeWb
  repeat'
    (first | with_reducible assumption | with_reducible exact Kept.refl _ | intro _
           | (extract_lets +onlyGivenNames x; refine Kept.use (x := x) ?_ (fun _ => ?_) <;> [subst x; clear_value x])
           | (extract_lets +onlyGivenNames x; refine Kept.use_fst (x := x) ?_ (fun _ => ?_) <;> [subst x; clear_value x])
           | (extract_lets +onlyGivenNames x; have _y : _ → _ := x; subst x; beta_reduce)
           | (extract_lets +onlyGivenNames x; clear_value x) | with_reducible refine cohRefused_kept ?_ (by assumption)
           | with_reducible apply dropEvict_kept | with_reducible apply emit_kept | with_reducible apply plainWb_kept
           | with_reducible apply putTxn_kept | with_reducible apply settle_kept
           | with_reducible refine Kept.lit (by assumption) rfl ?_
           | with_reducible refine Kept.lit (Kept.of_fst ?_ (by assumption)) rfl ?_ | (apply Mem.wf_of; assumption; rfl) | split)

theorem takeEvc_kept {z : State} {s : State} (h0 : Kept z s) (m : CohMsg) :
    Kept z (takeEvc s m) := by
  unfold takeEvc
  repeat'
    (first | with_reducible assumption | with_reducible exact Kept.refl _ | intro _
           | with_reducible refine cohRefused_kept ?_ (by assumption) | with_reducible apply drainWaiting_kept
           | with_reducible apply dropHolder_kept | split)

theorem answerOffer_kept {z : State} {s : State} (h0 : Kept z s) (m : CohMsg) (accept : Bool) :
    Kept z (answerOffer s m accept) := by
  unfold answerOffer
  repeat'
    (first | with_reducible assumption | with_reducible exact Kept.refl _ | intro _
           | (extract_lets +onlyGivenNames x; refine Kept.use (x := x) ?_ (fun _ => ?_) <;> [subst x; clear_value x])
           | (extract_lets +onlyGivenNames x; refine Kept.use_fst (x := x) ?_ (fun _ => ?_) <;> [subst x; clear_value x])
           | (extract_lets +onlyGivenNames x; have _y : _ → _ := x; subst x; beta_reduce)
           | (extract_lets +onlyGivenNames x; clear_value x) | (extract_lets +onlyGivenNames x; subst x)
           | with_reducible refine cohRefused_kept ?_ (by assumption) | with_reducible apply lateResponse_kept
           | with_reducible apply putTxn_kept | with_reducible apply settle_kept
           | with_reducible refine Kept.lit (by assumption) rfl ?_
           | with_reducible refine Kept.lit (Kept.of_fst ?_ (by assumption)) rfl ?_ | (apply Mem.wf_of; assumption; rfl) | split)

theorem stashLine_kept {z : State} {s : State} (h0 : Kept z s) (line p target : Nat) :
    Kept z (stashLine s line p target) := by
  unfold stashLine
  repeat'
    (first | with_reducible assumption | with_reducible exact Kept.refl _ | intro _
           | (extract_lets +onlyGivenNames x; refine Kept.use (x := x) ?_ (fun _ => ?_) <;> [subst x; clear_value x])
           | (extract_lets +onlyGivenNames x; refine Kept.use_fst (x := x) ?_ (fun _ => ?_) <;> [subst x; clear_value x])
           | (extract_lets +onlyGivenNames x; have _y : _ → _ := x; subst x; beta_reduce)
           | (extract_lets +onlyGivenNames x; have _y : Mem := x; subst x) | (extract_lets +onlyGivenNames x; clear_value x)
           | (extract_lets +onlyGivenNames x; subst x) | with_reducible apply emit_kept | with_reducible apply setAgent_kept
           | with_reducible refine Kept.lit (by assumption) rfl ?_ | (apply Mem.wf_of; assumption; rfl) | split)

theorem forget_kept {z : State} {s : State} (h0 : Kept z s) (a : Nat) :
    Kept z (forget s a) := by
  unfold forget
  repeat'
    (first | with_reducible assumption | with_reducible exact Kept.refl _ | intro _
           | (extract_lets +onlyGivenNames x; refine Kept.use (x := x) ?_ (fun _ => ?_) <;> [subst x; clear_value x])
           | (extract_lets +onlyGivenNames x; refine Kept.use_fst (x := x) ?_ (fun _ => ?_) <;> [subst x; clear_value x])
           | (extract_lets +onlyGivenNames x; have _y : _ → _ := x; subst x; beta_reduce)
           | (extract_lets +onlyGivenNames x; clear_value x) | (extract_lets +onlyGivenNames x; subst x)
           | with_reducible refine Kept.of_fst ?_ (by assumption) | with_reducible apply Kept.foldl
           | with_reducible apply Kept.foldl_fst | with_reducible apply dropHolder_kept | with_reducible apply emit_kept
           | with_reducible refine Kept.lit (by assumption) rfl ?_ | with_reducible refine Kept.lit (Kept.refl _) rfl ?_
           | (apply Mem.wf_of; assumption; rfl) | split)

theorem fence_kept {z : State} {s : State} (h0 : Kept z s) (a : Nat) :
    Kept z (fence s a) := by
  unfold fence
  repeat'
    (first | with_reducible assumption | with_reducible exact Kept.refl _ | intro _
           | (extract_lets +onlyGivenNames x; refine Kept.use (x := x) ?_ (fun _ => ?_) <;> [subst x; clear_value x])
           | (extract_lets +onlyGivenNames x; refine Kept.use_fst (x := x) ?_ (fun _ => ?_) <;> [subst x; clear_value x])
           | (extract_lets +onlyGivenNames x; have _y : _ → _ := x; subst x; beta_reduce)
           | (extract_lets +onlyGivenNames x; clear_value x) | with_reducible apply Kept.foldl
           | with_reducible apply Kept.foldl_fst | with_reducible apply drainWaiting_kept | with_reducible apply forget_kept
           | with_reducible apply poisonLine_kept | with_reducible apply record_kept | with_reducible apply setAgent_kept
           | with_reducible refine Kept.lit (by assumption) rfl ?_ | with_reducible refine Kept.lit (Kept.refl _) rfl ?_
           | with_reducible refine Kept.lit (Kept.of_fst ?_ (by assumption)) rfl ?_ | (apply Mem.wf_of; assumption; rfl) | split)

theorem rejoin_kept {z : State} {s : State} (h0 : Kept z s) (a : Nat) :
    Kept z (rejoin s a) := by
  unfold rejoin
  repeat'
    (first | with_reducible assumption | with_reducible exact Kept.refl _ | intro _
           | (extract_lets +onlyGivenNames x; refine Kept.use (x := x) ?_ (fun _ => ?_) <;> [subst x; clear_value x])
           | (extract_lets +onlyGivenNames x; refine Kept.use_fst (x := x) ?_ (fun _ => ?_) <;> [subst x; clear_value x])
           | (extract_lets +onlyGivenNames x; have _y : _ → _ := x; subst x; beta_reduce)
           | (extract_lets +onlyGivenNames x; clear_value x) | with_reducible apply drainWaiting_kept
           | with_reducible apply forget_kept | with_reducible apply setAgent_kept
           | with_reducible refine Kept.lit (by assumption) rfl ?_ | (apply Mem.wf_of; assumption; rfl) | split)

theorem clearGranule_kept {z : State} {s : State} (h0 : Kept z s) (g : Nat) :
    Kept z (clearGranule s g) := by
  unfold clearGranule
  repeat'
    (first | with_reducible assumption | with_reducible exact Kept.refl _ | intro _
           | (extract_lets +onlyGivenNames x; refine Kept.use (x := x) ?_ (fun _ => ?_) <;> [subst x; clear_value x])
           | (extract_lets +onlyGivenNames x; refine Kept.use_fst (x := x) ?_ (fun _ => ?_) <;> [subst x; clear_value x])
           | (extract_lets +onlyGivenNames x; have _y : _ → _ := x; subst x; beta_reduce)
           | (extract_lets +onlyGivenNames x; clear_value x) | (extract_lets +onlyGivenNames x; subst x)
           | with_reducible refine Kept.of_fst ?_ (by assumption) | with_reducible apply Kept.foldl
           | with_reducible apply Kept.foldl_fst | with_reducible apply requestLine_kept | split)

end Sys2Proof.Machine
end

