-- ==== Sys2Proof/Laws/KeptRegWrite.lean ====
section
/-! SUPPORT. The operations of Machine/RegWrite.lean keep what `Kept` names. -/

namespace Sys2Proof.Machine

theorem lockedWrite_kept {z : State} {s : State} (h0 : Kept z s) :
    Kept z (lockedWrite s) := by
  unfold lockedWrite
  repeat'
    (first | with_reducible assumption | with_reducible exact Kept.refl _ | intro _ | with_reducible apply recordCount_kept
           | with_reducible refine Kept.lit (by assumption) rfl ?_ | (apply Mem.wf_of; assumption; rfl) | split)

theorem guarded_kept {u s : State} {lock : Bool} {f : State → State} (h : Kept u s) (hf : Kept u (f s)) :
    Kept u (guarded lock s f) := by
  unfold guarded
  split
  · exact lockedWrite_kept h
  · exact hf

theorem abortOne_kept {z : State} {s : State} (h0 : Kept z s) (src : Nat) (f : Fetched) :
    Kept z (abortOne src s f) := by
  unfold abortOne
  repeat'
    (first | with_reducible assumption | with_reducible exact Kept.refl _ | intro _
           | (extract_lets +onlyGivenNames x; refine Kept.use (x := x) ?_ (fun _ => ?_) <;> [subst x; clear_value x])
           | (extract_lets +onlyGivenNames x; refine Kept.use_fst (x := x) ?_ (fun _ => ?_) <;> [subst x; clear_value x])
           | (extract_lets +onlyGivenNames x; have _y : _ → _ := x; subst x; beta_reduce)
           | (extract_lets +onlyGivenNames x; clear_value x) | with_reducible apply sendReply_kept
           | with_reducible refine Kept.lit (by assumption) rfl ?_ | (apply Mem.wf_of; assumption; rfl) | exact Kept.refl _
           | split)

theorem disableRing_kept {z : State} {s : State} (h0 : Kept z s) (f : Nat) :
    Kept z (disableRing s f) := by
  unfold disableRing
  repeat'
    (first | with_reducible assumption | with_reducible exact Kept.refl _ | intro _
           | (extract_lets +onlyGivenNames x; refine Kept.use (x := x) ?_ (fun _ => ?_) <;> [subst x; clear_value x])
           | (extract_lets +onlyGivenNames x; refine Kept.use_fst (x := x) ?_ (fun _ => ?_) <;> [subst x; clear_value x])
           | (extract_lets +onlyGivenNames x; have _y : _ → _ := x; subst x; beta_reduce)
           | (extract_lets +onlyGivenNames x; clear_value x) | with_reducible apply Kept.foldl
           | with_reducible apply Kept.foldl_fst | with_reducible apply abortOne_kept | with_reducible apply setChan_kept
           | with_reducible refine Kept.lit (by assumption) rfl ?_ | with_reducible refine Kept.lit (Kept.refl _) rfl ?_
           | (apply Mem.wf_of; assumption; rfl) | split)

theorem enableRing_kept {z : State} {s : State} (h0 : Kept z s) (f : Nat) :
    Kept z (enableRing s f) := by
  unfold enableRing
  repeat'
    (first | with_reducible assumption | with_reducible exact Kept.refl _ | intro _
           | (extract_lets +onlyGivenNames x; refine Kept.use (x := x) ?_ (fun _ => ?_) <;> [subst x; clear_value x])
           | (extract_lets +onlyGivenNames x; refine Kept.use_fst (x := x) ?_ (fun _ => ?_) <;> [subst x; clear_value x])
           | (extract_lets +onlyGivenNames x; have _y : _ → _ := x; subst x; beta_reduce)
           | (extract_lets +onlyGivenNames x; clear_value x) | with_reducible apply flushHeld_kept
           | with_reducible apply setChan_kept | with_reducible refine Kept.lit (by assumption) rfl ?_
           | (apply Mem.wf_of; assumption; rfl) | split)

theorem writeCtl_kept {z : State} {s : State} (h0 : Kept z s) (f v : Nat) :
    Kept z (writeCtl s f v) := by
  unfold writeCtl
  repeat'
    (first | with_reducible assumption | with_reducible exact Kept.refl _ | intro _
           | (extract_lets +onlyGivenNames x; refine Kept.use (x := x) ?_ (fun _ => ?_) <;> [subst x; clear_value x])
           | (extract_lets +onlyGivenNames x; refine Kept.use_fst (x := x) ?_ (fun _ => ?_) <;> [subst x; clear_value x])
           | (extract_lets +onlyGivenNames x; have _y : _ → _ := x; subst x; beta_reduce)
           | (extract_lets +onlyGivenNames x; clear_value x) | with_reducible apply disableRing_kept
           | with_reducible apply enableRing_kept | with_reducible apply setChan_kept
           | with_reducible refine Kept.lit (by assumption) rfl ?_ | (apply Mem.wf_of; assumption; rfl) | split)

theorem writeChan_kept {z : State} {s : State} (h0 : Kept z s) (f o v : Nat) :
    Kept z (writeChan s f o v) := by
  unfold writeChan
  repeat'
    (first | with_reducible assumption | with_reducible exact Kept.refl _ | intro _
           | (extract_lets +onlyGivenNames x; refine Kept.use (x := x) ?_ (fun _ => ?_) <;> [subst x; clear_value x])
           | (extract_lets +onlyGivenNames x; refine Kept.use_fst (x := x) ?_ (fun _ => ?_) <;> [subst x; clear_value x])
           | (extract_lets +onlyGivenNames x; have _y : _ → _ := x; subst x; beta_reduce)
           | (extract_lets +onlyGivenNames x; clear_value x) | with_reducible apply setChan_kept
           | with_reducible apply writeCtl_kept | with_reducible refine Kept.lit (by assumption) rfl ?_
           | with_reducible refine Kept.lit (Kept.of_fst ?_ (by assumption)) rfl ?_ | (apply Mem.wf_of; assumption; rfl) | split)

theorem writeHostFn_kept {z : State} {s : State} (h0 : Kept z s) (f share tags : Nat) :
    Kept z (writeHostFn s f share tags) := by
  unfold writeHostFn
  repeat'
    (first | with_reducible assumption | with_reducible exact Kept.refl _ | intro _
           | (extract_lets +onlyGivenNames x; refine Kept.use (x := x) ?_ (fun _ => ?_) <;> [subst x; clear_value x])
           | (extract_lets +onlyGivenNames x; refine Kept.use_fst (x := x) ?_ (fun _ => ?_) <;> [subst x; clear_value x])
           | (extract_lets +onlyGivenNames x; have _y : _ → _ := x; subst x; beta_reduce)
           | (extract_lets +onlyGivenNames x; clear_value x) | with_reducible apply setFunc_kept
           | with_reducible refine Kept.lit (by assumption) rfl ?_ | (apply Mem.wf_of; assumption; rfl) | split)

theorem writeLimit_kept {z : State} {s : State} (h0 : Kept z s) (v : Nat) :
    Kept z (writeLimit s v) := by
  unfold writeLimit
  repeat'
    (first | with_reducible assumption | with_reducible exact Kept.refl _ | intro _
           | (extract_lets +onlyGivenNames x; refine Kept.use (x := x) ?_ (fun _ => ?_) <;> [subst x; clear_value x])
           | (extract_lets +onlyGivenNames x; refine Kept.use_fst (x := x) ?_ (fun _ => ?_) <;> [subst x; clear_value x])
           | (extract_lets +onlyGivenNames x; have _y : _ → _ := x; subst x; beta_reduce)
           | (extract_lets +onlyGivenNames x; clear_value x) | (extract_lets +onlyGivenNames x; subst x)
           | with_reducible refine Kept.lit (by assumption) rfl ?_ | (apply Mem.wf_of; assumption; rfl) | split)

theorem writeHostWord_kept {z : State} {s : State} (h0 : Kept z s) (o v : Nat) :
    Kept z (writeHostWord s o v) := by
  unfold writeHostWord
  repeat'
    (first | with_reducible assumption | with_reducible exact Kept.refl _ | intro _
           | (extract_lets +onlyGivenNames x; refine Kept.use (x := x) ?_ (fun _ => ?_) <;> [subst x; clear_value x])
           | (extract_lets +onlyGivenNames x; refine Kept.use_fst (x := x) ?_ (fun _ => ?_) <;> [subst x; clear_value x])
           | (extract_lets +onlyGivenNames x; have _y : _ → _ := x; subst x; beta_reduce)
           | (extract_lets +onlyGivenNames x; clear_value x) | with_reducible apply setFunc_kept
           | with_reducible apply writeHostFn_kept | with_reducible refine Kept.lit (by assumption) rfl ?_
           | with_reducible refine Kept.lit (Kept.of_fst ?_ (by assumption)) rfl ?_ | (apply Mem.wf_of; assumption; rfl) | split)

theorem writeEvt_kept {z : State} {s : State} (h0 : Kept z s) (f o v : Nat) :
    Kept z (writeEvt s f o v) := by
  unfold writeEvt
  repeat'
    (first | with_reducible assumption | with_reducible exact Kept.refl _ | intro _
           | (extract_lets +onlyGivenNames x; refine Kept.use (x := x) ?_ (fun _ => ?_) <;> [subst x; clear_value x])
           | (extract_lets +onlyGivenNames x; refine Kept.use_fst (x := x) ?_ (fun _ => ?_) <;> [subst x; clear_value x])
           | (extract_lets +onlyGivenNames x; have _y : _ → _ := x; subst x; beta_reduce)
           | (extract_lets +onlyGivenNames x; clear_value x) | with_reducible apply guarded_kept
           | with_reducible refine Kept.lit (by assumption) rfl ?_ | with_reducible refine Kept.lit (Kept.refl _) rfl ?_
           | with_reducible refine Kept.lit (Kept.of_fst ?_ (by assumption)) rfl ?_ | (apply Mem.wf_of; assumption; rfl) | split)

theorem writeWord_kept {z : State} {s : State} (h0 : Kept z s) (o v : Nat) :
    Kept z (writeWord s o v) := by
  unfold writeWord
  repeat'
    (first | with_reducible assumption | with_reducible exact Kept.refl _ | intro _
           | (extract_lets +onlyGivenNames x; refine Kept.use (x := x) ?_ (fun _ => ?_) <;> [subst x; clear_value x])
           | (extract_lets +onlyGivenNames x; refine Kept.use_fst (x := x) ?_ (fun _ => ?_) <;> [subst x; clear_value x])
           | (extract_lets +onlyGivenNames x; have _y : _ → _ := x; subst x; beta_reduce)
           | (extract_lets +onlyGivenNames x; clear_value x) | with_reducible apply guarded_kept
           | with_reducible apply writeChan_kept | with_reducible apply writeEvt_kept | with_reducible apply writeHostWord_kept
           | with_reducible apply writeLimit_kept | with_reducible refine Kept.lit (by assumption) rfl ?_
           | with_reducible refine Kept.lit (Kept.refl _) rfl ?_ | (apply Mem.wf_of; assumption; rfl) | split)

theorem postWrite_kept {z : State} {s : State} (h0 : Kept z s) (b : PostedBlock) (o v : Nat) :
    Kept z (postWrite s b o v) := by
  unfold postWrite
  repeat'
    (first | with_reducible assumption | with_reducible exact Kept.refl _ | intro _
           | (extract_lets +onlyGivenNames x; refine Kept.use (x := x) ?_ (fun _ => ?_) <;> [subst x; clear_value x])
           | (extract_lets +onlyGivenNames x; refine Kept.use_fst (x := x) ?_ (fun _ => ?_) <;> [subst x; clear_value x])
           | (extract_lets +onlyGivenNames x; have _y : _ → _ := x; subst x; beta_reduce)
           | (extract_lets +onlyGivenNames x; clear_value x) | with_reducible refine Kept.lit (by assumption) rfl ?_
           | (apply Mem.wf_of; assumption; rfl) | split)

theorem landTurnCtl_kept {z : State} {s : State} (h0 : Kept z s) (v : Nat) :
    Kept z (landTurnCtl s v) := by
  unfold landTurnCtl
  repeat'
    (first | with_reducible assumption | with_reducible exact Kept.refl _ | intro _
           | (extract_lets +onlyGivenNames x; refine Kept.use (x := x) ?_ (fun _ => ?_) <;> [subst x; clear_value x])
           | (extract_lets +onlyGivenNames x; refine Kept.use_fst (x := x) ?_ (fun _ => ?_) <;> [subst x; clear_value x])
           | (extract_lets +onlyGivenNames x; have _y : _ → _ := x; subst x; beta_reduce)
           | (extract_lets +onlyGivenNames x; have _y : TurnUnit := x; subst x) | (extract_lets +onlyGivenNames x; clear_value x)
           | (extract_lets +onlyGivenNames x; subst x) | with_reducible apply lockedWrite_kept
           | with_reducible refine Kept.lit (by assumption) rfl ?_ | (apply Mem.wf_of; assumption; rfl) | split)

theorem landTurnBit_kept {z : State} {s : State} (h0 : Kept z s) (b v : Nat) :
    Kept z (landTurnBit s b v) := by
  unfold landTurnBit
  repeat'
    (first | with_reducible assumption | with_reducible exact Kept.refl _ | intro _
           | (extract_lets +onlyGivenNames x; refine Kept.use (x := x) ?_ (fun _ => ?_) <;> [subst x; clear_value x])
           | (extract_lets +onlyGivenNames x; refine Kept.use_fst (x := x) ?_ (fun _ => ?_) <;> [subst x; clear_value x])
           | (extract_lets +onlyGivenNames x; have _y : _ → _ := x; subst x; beta_reduce)
           | (extract_lets +onlyGivenNames x; have _y : TurnUnit := x; subst x) | (extract_lets +onlyGivenNames x; clear_value x)
           | with_reducible apply landTurnCtl_kept | with_reducible refine Kept.lit (by assumption) rfl ?_
           | (apply Mem.wf_of; assumption; rfl) | split)

theorem clearFec_kept {z : State} {s : State} (h0 : Kept z s) (n : Nat) :
    Kept z (clearFec s n) := by
  unfold clearFec
  repeat'
    (first | with_reducible assumption | with_reducible exact Kept.refl _ | intro _
           | (extract_lets +onlyGivenNames x; refine Kept.use (x := x) ?_ (fun _ => ?_) <;> [subst x; clear_value x])
           | (extract_lets +onlyGivenNames x; refine Kept.use_fst (x := x) ?_ (fun _ => ?_) <;> [subst x; clear_value x])
           | (extract_lets +onlyGivenNames x; have _y : _ → _ := x; subst x; beta_reduce)
           | (extract_lets +onlyGivenNames x; clear_value x) | with_reducible apply setLink_kept
           | with_reducible refine Kept.lit (by assumption) rfl ?_ | (apply Mem.wf_of; assumption; rfl) | split)

theorem landWrite_kept {z : State} {s : State} (h0 : Kept z s) (o v : Nat) :
    Kept z (landWrite s o v) := by
  unfold landWrite
  repeat'
    (first | with_reducible assumption | with_reducible exact Kept.refl _ | intro _ | with_reducible apply clearFec_kept
           | with_reducible apply landTurnBit_kept | with_reducible apply landTurnCtl_kept | split)

theorem aliasWrite_kept {z : State} {s : State} (h0 : Kept z s) (o v : Nat) :
    Kept z (aliasWrite s o v) := by
  unfold aliasWrite
  repeat'
    (first | with_reducible assumption | with_reducible exact Kept.refl _ | intro _
           | (extract_lets +onlyGivenNames x; refine Kept.use (x := x) ?_ (fun _ => ?_) <;> [subst x; clear_value x])
           | (extract_lets +onlyGivenNames x; refine Kept.use_fst (x := x) ?_ (fun _ => ?_) <;> [subst x; clear_value x])
           | (extract_lets +onlyGivenNames x; have _y : _ → _ := x; subst x; beta_reduce)
           | (extract_lets +onlyGivenNames x; clear_value x) | with_reducible apply postWrite_kept
           | with_reducible apply writeWord_kept | split)

theorem tallyWindowWrite_kept {z : State} {s : State} (h0 : Kept z s) (p : Fin 16) (o width v : Nat) :
    Kept z (tallyWindowWrite s p o width v) := by
  unfold tallyWindowWrite
  repeat'
    (first | with_reducible assumption | with_reducible exact Kept.refl _ | intro _
           | (extract_lets +onlyGivenNames x; refine Kept.use (x := x) ?_ (fun _ => ?_) <;> [subst x; clear_value x])
           | (extract_lets +onlyGivenNames x; refine Kept.use_fst (x := x) ?_ (fun _ => ?_) <;> [subst x; clear_value x])
           | (extract_lets +onlyGivenNames x; have _y : _ → _ := x; subst x; beta_reduce)
           | (extract_lets +onlyGivenNames x; clear_value x) | (extract_lets +onlyGivenNames x; subst x)
           | with_reducible apply tallyWrite_kept | with_reducible refine Kept.lit (by assumption) rfl ?_
           | (apply Mem.wf_of; assumption; rfl) | split)

theorem writeOne_kept {z : State} {s : State} (h0 : Kept z s) (o v : Nat) :
    Kept z (writeOne s o v) := by
  unfold writeOne
  repeat'
    (first | with_reducible assumption | with_reducible exact Kept.refl _ | intro _ | with_reducible apply aliasWrite_kept
           | with_reducible apply postWrite_kept | with_reducible apply writeWord_kept | split)

theorem writeBoth_kept {s0 : State} {s : State} (h0 : Kept s0 s) (o width v : Nat) :
    Kept s0 (writeMap.writeBoth o width v s) := by
  unfold writeMap.writeBoth
  repeat' (first | assumption | apply postWrite_kept | apply writeOne_kept | split)

theorem writeMap_kept {s0 : State} {s : State} (h0 : Kept s0 s) (p : Fin 16) (o width v : Nat) :
    Kept s0 (writeMap s p o width v) := by
  unfold writeMap
  repeat'
    (first | assumption | apply recordCount_kept | apply record_kept | apply tallyWindowWrite_kept | apply writeBoth_kept | split)

theorem writeBy_kept {z : State} {s : State} (h0 : Kept z s) (m : Master) (o width v : Nat) :
    Kept z (writeBy s m o width v) := by
  unfold writeBy
  repeat'
    (first | with_reducible assumption | with_reducible exact Kept.refl _ | intro _ | with_reducible apply recordCount_kept
           | with_reducible apply writeMap_kept | with_reducible refine Kept.lit (by assumption) rfl ?_
           | with_reducible refine Kept.lit (Kept.of_fst ?_ (by assumption)) rfl ?_ | (apply Mem.wf_of; assumption; rfl) | split)

theorem badDoorbell_kept {z : State} {s : State} (h0 : Kept z s) (f : Nat) :
    Kept z (badDoorbell s f) := by
  unfold badDoorbell
  repeat'
    (first | with_reducible assumption | with_reducible exact Kept.refl _ | intro _
           | (extract_lets +onlyGivenNames x; refine Kept.use (x := x) ?_ (fun _ => ?_) <;> [subst x; clear_value x])
           | (extract_lets +onlyGivenNames x; refine Kept.use_fst (x := x) ?_ (fun _ => ?_) <;> [subst x; clear_value x])
           | (extract_lets +onlyGivenNames x; have _y : _ → _ := x; subst x; beta_reduce)
           | (extract_lets +onlyGivenNames x; clear_value x) | with_reducible apply setChan_kept
           | with_reducible refine Kept.lit (by assumption) rfl ?_ | (apply Mem.wf_of; assumption; rfl) | split)

end Sys2Proof.Machine
end

