-- ==== Sys2Proof/Laws/KeptShoe.lean ====
section
/-! SUPPORT. The operations of Machine/Shoe.lean keep what `Kept` names. -/

namespace Sys2Proof.Machine

theorem setQueue_kept {z : State} {s : State} (h0 : Kept z s) (la p : Nat) (q : List ShoeRow) :
    Kept z (setQueue s la p q) := by
  unfold setQueue
  repeat'
    (first | with_reducible assumption | with_reducible exact Kept.refl _ | intro _
           | (extract_lets +onlyGivenNames x; refine Kept.use (x := x) ?_ (fun _ => ?_) <;> [subst x; clear_value x])
           | (extract_lets +onlyGivenNames x; refine Kept.use_fst (x := x) ?_ (fun _ => ?_) <;> [subst x; clear_value x])
           | (extract_lets +onlyGivenNames x; have _y : _ → _ := x; subst x; beta_reduce)
           | (extract_lets +onlyGivenNames x; clear_value x) | with_reducible apply setLog_kept
           | with_reducible refine Kept.lit (by assumption) rfl ?_ | (apply Mem.wf_of; assumption; rfl) | split)

theorem shoeTake_kept {z : State} {s : State} (h0 : Kept z s) (la k part : Nat) (ctx : Option Nat) (b : Bytes) :
    Kept z (shoeTake s la k part ctx b).1 := by
  unfold shoeTake
  repeat'
    (first | with_reducible assumption | with_reducible exact Kept.refl _ | intro _
           | (extract_lets +onlyGivenNames x; refine Kept.use (x := x) ?_ (fun _ => ?_) <;> [subst x; clear_value x])
           | (extract_lets +onlyGivenNames x; refine Kept.use_fst (x := x) ?_ (fun _ => ?_) <;> [subst x; clear_value x])
           | (extract_lets +onlyGivenNames x; have _y : _ → _ := x; subst x; beta_reduce)
           | (extract_lets +onlyGivenNames x; have _y : TurnUnit := x; subst x) | (extract_lets +onlyGivenNames x; clear_value x)
           | with_reducible refine Kept.of_fst ?_ (by assumption) | with_reducible apply record_kept
           | with_reducible apply setLog_kept | with_reducible apply setQueue_kept
           | with_reducible refine Kept.lit (by assumption) rfl ?_
           | with_reducible refine Kept.lit (Kept.of_fst ?_ (by assumption)) rfl ?_ | (apply Mem.wf_of; assumption; rfl) | split)

theorem takeRow_kept {z : State} {s : State} (h0 : Kept z s) (w : ShoeWrite) :
    Kept z (takeRow s w) := by
  unfold takeRow
  repeat'
    (first | with_reducible assumption | with_reducible exact Kept.refl _ | intro _
           | (extract_lets +onlyGivenNames x; refine Kept.use (x := x) ?_ (fun _ => ?_) <;> [subst x; clear_value x])
           | (extract_lets +onlyGivenNames x; refine Kept.use_fst (x := x) ?_ (fun _ => ?_) <;> [subst x; clear_value x])
           | (extract_lets +onlyGivenNames x; have _y : _ → _ := x; subst x; beta_reduce)
           | (extract_lets +onlyGivenNames x; clear_value x) | with_reducible refine Kept.of_fst ?_ (by assumption)
           | with_reducible apply emit_kept | with_reducible apply shoeTake_kept | split)

theorem clearShoe_kept {z : State} {s : State} (h0 : Kept z s) (ctx p : Nat) :
    Kept z (clearShoe s ctx p) := by
  unfold clearShoe
  repeat'
    (first | with_reducible assumption | with_reducible exact Kept.refl _ | intro _
           | (extract_lets +onlyGivenNames x; refine Kept.use (x := x) ?_ (fun _ => ?_) <;> [subst x; clear_value x])
           | (extract_lets +onlyGivenNames x; refine Kept.use_fst (x := x) ?_ (fun _ => ?_) <;> [subst x; clear_value x])
           | (extract_lets +onlyGivenNames x; have _y : _ → _ := x; subst x; beta_reduce)
           | (extract_lets +onlyGivenNames x; clear_value x) | (extract_lets +onlyGivenNames x; subst x)
           | with_reducible refine Kept.of_fst ?_ (by assumption) | with_reducible apply Kept.foldl
           | with_reducible apply Kept.foldl_fst | with_reducible apply record_kept | with_reducible apply setQueue_kept
           | with_reducible refine Kept.lit (by assumption) rfl ?_ | with_reducible refine Kept.lit (Kept.refl _) rfl ?_
           | with_reducible refine Kept.lit (Kept.of_fst ?_ (by assumption)) rfl ?_ | (apply Mem.wf_of; assumption; rfl) | split)

end Sys2Proof.Machine
end

