-- ==== Sys2Proof/Laws/KeptAccess.lean ====
section
/-! SUPPORT. The operations of Machine/Access.lean keep what `Kept` names. -/

namespace Sys2Proof.Machine

theorem recordRefusal_kept {z : State} {s : State} (h0 : Kept z s) (r : Rec) :
    Kept z (recordRefusal s r) := by
  unfold recordRefusal
  repeat'
    (first | with_reducible assumption | with_reducible exact Kept.refl _ | intro _ | with_reducible apply record_kept
           | with_reducible apply recordCount_kept | split)

theorem refuse_kept {z : State} {s : State} (h0 : Kept z s) (cls part addr : Nat) :
    Kept z (refuse s cls part addr) := by
  unfold refuse
  repeat'
    (first | with_reducible assumption | with_reducible exact Kept.refl _ | intro _
           | (extract_lets +onlyGivenNames x; refine Kept.use (x := x) ?_ (fun _ => ?_) <;> [subst x; clear_value x])
           | (extract_lets +onlyGivenNames x; refine Kept.use_fst (x := x) ?_ (fun _ => ?_) <;> [subst x; clear_value x])
           | (extract_lets +onlyGivenNames x; have _y : _ → _ := x; subst x; beta_reduce)
           | (extract_lets +onlyGivenNames x; clear_value x) | with_reducible apply emit_kept
           | with_reducible apply recordRefusal_kept | with_reducible refine Kept.lit (by assumption) rfl ?_
           | with_reducible refine Kept.lit (Kept.of_fst ?_ (by assumption)) rfl ?_ | (apply Mem.wf_of; assumption; rfl) | split)

theorem stashAll_kept {z : State} {s : State} (h0 : Kept z s) (r : MemReq) :
    Kept z (stashAll s r) := by
  unfold stashAll
  repeat'
    (first | with_reducible assumption | with_reducible exact Kept.refl _ | intro _ | with_reducible apply Kept.foldl
           | with_reducible apply Kept.foldl_fst | with_reducible apply stashLine_kept | split)

theorem serveCoherent_kept {z : State} {s : State} (h0 : Kept z s) (r : MemReq) :
    Kept z (serveCoherent s r) := by
  unfold serveCoherent
  repeat'
    (first | with_reducible assumption | with_reducible exact Kept.refl _ | intro _ | with_reducible apply serveRead_kept
           | with_reducible apply serveWrite_kept | with_reducible apply stashAll_kept | split)

theorem serveBinRead_kept {z : State} {s0 : State} (h0 : Kept z s0) (r : MemReq) (la off : Nat) :
    Kept z (serveBinRead s0 r la off) := by
  unfold serveBinRead
  repeat'
    (first | with_reducible assumption | with_reducible exact Kept.refl _ | intro _
           | (extract_lets +onlyGivenNames x; refine Kept.use (x := x) ?_ (fun _ => ?_) <;> [subst x; clear_value x])
           | (extract_lets +onlyGivenNames x; refine Kept.use_fst (x := x) ?_ (fun _ => ?_) <;> [subst x; clear_value x])
           | (extract_lets +onlyGivenNames x; have _y : _ → _ := x; subst x; beta_reduce)
           | (extract_lets +onlyGivenNames x; have _y : Mem := x; subst x) | (extract_lets +onlyGivenNames x; clear_value x)
           | with_reducible apply binError_kept | with_reducible apply emit_kept | with_reducible apply record_kept | split)

theorem serveBinWrite_kept {z : State} {s : State} (h0 : Kept z s) (r : MemReq) (la off : Nat) :
    Kept z (serveBinWrite s r la off) := by
  unfold serveBinWrite
  repeat'
    (first | with_reducible assumption | with_reducible exact Kept.refl _ | intro _
           | (extract_lets +onlyGivenNames x; refine Kept.use (x := x) ?_ (fun _ => ?_) <;> [subst x; clear_value x])
           | (extract_lets +onlyGivenNames x; refine Kept.use_fst (x := x) ?_ (fun _ => ?_) <;> [subst x; clear_value x])
           | (extract_lets +onlyGivenNames x; have _y : _ → _ := x; subst x; beta_reduce)
           | (extract_lets +onlyGivenNames x; clear_value x) | with_reducible refine Kept.of_fst ?_ (by assumption)
           | with_reducible apply emit_kept | with_reducible apply maskedWrite_kept | with_reducible apply record_kept
           | with_reducible apply shoeTake_kept | split)

theorem serveMemory_kept {z : State} {s : State} (h0 : Kept z s) (r : MemReq) :
    Kept z (serveMemory s r) := by
  unfold serveMemory
  repeat'
    (first | with_reducible assumption | with_reducible exact Kept.refl _ | intro _
           | (extract_lets +onlyGivenNames x; refine Kept.use (x := x) ?_ (fun _ => ?_) <;> [subst x; clear_value x])
           | (extract_lets +onlyGivenNames x; refine Kept.use_fst (x := x) ?_ (fun _ => ?_) <;> [subst x; clear_value x])
           | (extract_lets +onlyGivenNames x; have _y : _ → _ := x; subst x; beta_reduce)
           | (extract_lets +onlyGivenNames x; clear_value x) | with_reducible apply emit_kept | with_reducible apply refuse_kept
           | with_reducible apply serveBinRead_kept | with_reducible apply serveBinWrite_kept
           | with_reducible apply serveCoherent_kept | with_reducible refine Kept.lit (by assumption) rfl ?_
           | with_reducible refine Kept.lit (Kept.of_fst ?_ (by assumption)) rfl ?_ | (apply Mem.wf_of; assumption; rfl) | split)

theorem serveAperture_kept {z : State} {s : State} (h0 : Kept z s) (r : MemReq) (site off : Nat) :
    Kept z (serveAperture s r site off) := by
  unfold serveAperture
  repeat'
    (first | with_reducible assumption | with_reducible exact Kept.refl _ | intro _
           | (extract_lets +onlyGivenNames x; refine Kept.use (x := x) ?_ (fun _ => ?_) <;> [subst x; clear_value x])
           | (extract_lets +onlyGivenNames x; refine Kept.use_fst (x := x) ?_ (fun _ => ?_) <;> [subst x; clear_value x])
           | (extract_lets +onlyGivenNames x; have _y : _ → _ := x; subst x; beta_reduce)
           | (extract_lets +onlyGivenNames x; clear_value x) | with_reducible apply emit_kept | with_reducible apply refuse_kept
           | with_reducible apply setSite_kept | with_reducible refine Kept.lit (by assumption) rfl ?_
           | (apply Mem.wf_of; assumption; rfl) | split)

theorem setAsker_kept {z : State} {s : State} (h0 : Kept z s) (n tag : Nat) (a : Asker) :
    Kept z (setAsker s n tag a) := by
  unfold setAsker
  repeat'
    (first | with_reducible assumption | with_reducible exact Kept.refl _ | intro _
           | (extract_lets +onlyGivenNames x; refine Kept.use (x := x) ?_ (fun _ => ?_) <;> [subst x; clear_value x])
           | (extract_lets +onlyGivenNames x; refine Kept.use_fst (x := x) ?_ (fun _ => ?_) <;> [subst x; clear_value x])
           | (extract_lets +onlyGivenNames x; have _y : _ → _ := x; subst x; beta_reduce)
           | (extract_lets +onlyGivenNames x; clear_value x) | with_reducible apply setSite_kept
           | with_reducible refine Kept.lit (by assumption) rfl ?_ | (apply Mem.wf_of; assumption; rfl) | split)

theorem askFor_kept {u s : State} {a : Asker} {f : State → State} (h : Kept u s) (hf : ∀ t, Kept t (f t)) : Kept u (askFor s a f).1 := by
  have g := capture_kept h hf
  unfold askFor
  repeat' (first | exact Kept.of_fst g (by assumption) | apply setAsker_kept | split)

theorem readTallyWindow_kept {z : State} {s : State} (h0 : Kept z s) (p o n : Nat) :
    Kept z (readTallyWindow s p o n) := by
  unfold readTallyWindow
  repeat'
    (first | with_reducible assumption | with_reducible exact Kept.refl _ | intro _
           | (extract_lets +onlyGivenNames x; refine Kept.use (x := x) ?_ (fun _ => ?_) <;> [subst x; clear_value x])
           | (extract_lets +onlyGivenNames x; refine Kept.use_fst (x := x) ?_ (fun _ => ?_) <;> [subst x; clear_value x])
           | (extract_lets +onlyGivenNames x; have _y : _ → _ := x; subst x; beta_reduce)
           | (extract_lets +onlyGivenNames x; clear_value x) | with_reducible apply emit_kept | with_reducible apply record_kept
           | split)

theorem serveRegisters_kept {z : State} {s : State} (h0 : Kept z s) (r : MemReq) (o : Nat) :
    Kept z (serveRegisters s r o) := by
  unfold serveRegisters
  repeat'
    (first | with_reducible assumption | with_reducible exact Kept.refl _ | intro _ | with_reducible apply emit_kept
           | with_reducible apply readTallyWindow_kept | with_reducible apply record_kept | with_reducible apply refuse_kept
           | with_reducible apply tallyWindowWrite_kept | with_reducible apply writeMap_kept
           | with_reducible refine Kept.lit (by assumption) rfl ?_
           | with_reducible refine Kept.lit (Kept.of_fst ?_ (by assumption)) rfl ?_ | (apply Mem.wf_of; assumption; rfl) | split)

theorem memoryRequest_kept {z : State} {s : State} (h0 : Kept z s) (r : MemReq) :
    Kept z (memoryRequest s r) := by
  unfold memoryRequest
  repeat'
    (first | with_reducible assumption | with_reducible exact Kept.refl _ | intro _ | with_reducible apply refuse_kept
           | with_reducible apply serveAperture_kept | with_reducible apply serveMemory_kept
           | with_reducible apply serveRegisters_kept | split)

theorem serveFor_kept {z : State} {s : State} (h0 : Kept z s) (r : MemReq) :
    Kept z (serveFor s r) := by
  unfold serveFor
  repeat'
    (first | with_reducible assumption | with_reducible exact Kept.refl _ | intro _
           | (extract_lets +onlyGivenNames x; refine Kept.use (x := x) ?_ (fun _ => ?_) <;> [subst x; clear_value x])
           | (extract_lets +onlyGivenNames x; refine Kept.use_fst (x := x) ?_ (fun _ => ?_) <;> [subst x; clear_value x])
           | (extract_lets +onlyGivenNames x; have _y : _ → _ := x; subst x; beta_reduce)
           | (extract_lets +onlyGivenNames x; have _y : Mem := x; subst x) | (extract_lets +onlyGivenNames x; clear_value x)
           | (extract_lets +onlyGivenNames x; subst x) | with_reducible apply memoryRequest_kept
           | with_reducible apply recordCount_kept | with_reducible refine Kept.lit (by assumption) rfl ?_
           | with_reducible refine Kept.lit (Kept.of_fst ?_ (by assumption)) rfl ?_ | (apply Mem.wf_of; assumption; rfl) | split)

theorem arriveLocal_kept {z : State} {s : State} (h0 : Kept z s) (r : MemReq) :
    Kept z (arriveLocal s r) := by
  unfold arriveLocal
  repeat'
    (first | with_reducible assumption | with_reducible exact Kept.refl _ | intro _ | with_reducible apply enqueue_kept
           | with_reducible apply serveFor_kept | split)

theorem sendAbroad_kept {z : State} {s : State} (h0 : Kept z s) (r : MemReq) :
    Kept z (sendAbroad s r) := by
  unfold sendAbroad
  repeat'
    (first | with_reducible assumption | with_reducible exact Kept.refl _ | intro _
           | (extract_lets +onlyGivenNames x; refine Kept.use (x := x) ?_ (fun _ => ?_) <;> [subst x; clear_value x])
           | (extract_lets +onlyGivenNames x; refine Kept.use_fst (x := x) ?_ (fun _ => ?_) <;> [subst x; clear_value x])
           | (extract_lets +onlyGivenNames x; have _y : _ → _ := x; subst x; beta_reduce)
           | (extract_lets +onlyGivenNames x; have _y : Mem := x; subst x) | (extract_lets +onlyGivenNames x; clear_value x)
           | with_reducible refine Kept.of_fst ?_ (by assumption) | with_reducible apply enqueue_kept
           | with_reducible apply refuse_kept | with_reducible apply sendAccess_kept
           | with_reducible refine Kept.lit (by assumption) rfl ?_
           | with_reducible refine Kept.lit (Kept.of_fst ?_ (by assumption)) rfl ?_ | (apply Mem.wf_of; assumption; rfl)
           | exact Kept.refl _ | split)

theorem arrive_kept {z : State} {s : State} (h0 : Kept z s) (r : MemReq) :
    Kept z (arrive s r) := by
  unfold arrive
  repeat'
    (first | with_reducible assumption | with_reducible exact Kept.refl _ | intro _
           | (extract_lets +onlyGivenNames x; refine Kept.use (x := x) ?_ (fun _ => ?_) <;> [subst x; clear_value x])
           | (extract_lets +onlyGivenNames x; refine Kept.use_fst (x := x) ?_ (fun _ => ?_) <;> [subst x; clear_value x])
           | (extract_lets +onlyGivenNames x; have _y : _ → _ := x; subst x; beta_reduce)
           | (extract_lets +onlyGivenNames x; clear_value x) | with_reducible apply arriveLocal_kept
           | with_reducible apply sendAbroad_kept | with_reducible refine Kept.lit (by assumption) rfl ?_
           | (apply Mem.wf_of; assumption; rfl) | split)

theorem serveRemote_kept {z : State} {s : State} (h0 : Kept z s) (q : RemoteReq) (p : Fin 16) (a : Nat) :
    Kept z (serveRemote s q p a) := by
  unfold serveRemote
  repeat'
    (first | with_reducible assumption | with_reducible exact Kept.refl _ | intro _ | with_reducible apply arriveLocal_kept
           | with_reducible apply tallyWrite_kept | split)

theorem atomNow_kept {z : State} {s : State} (h0 : Kept z s) (q : AtomReq) (op : AtomOp) :
    Kept z (atomNow s q op) := by
  unfold atomNow
  repeat'
    (first | with_reducible assumption | with_reducible exact Kept.refl _ | intro _ | with_reducible apply applyAtom_kept
           | with_reducible apply refuse_kept | split)

theorem atomicOp_kept {z : State} {s : State} (h0 : Kept z s) (q : AtomReq) (op : AtomOp) :
    Kept z (atomicOp s q op) := by
  unfold atomicOp
  repeat'
    (first | with_reducible assumption | with_reducible exact Kept.refl _ | intro _
           | (extract_lets +onlyGivenNames x; refine Kept.use (x := x) ?_ (fun _ => ?_) <;> [subst x; clear_value x])
           | (extract_lets +onlyGivenNames x; refine Kept.use_fst (x := x) ?_ (fun _ => ?_) <;> [subst x; clear_value x])
           | (extract_lets +onlyGivenNames x; have _y : _ → _ := x; subst x; beta_reduce)
           | (extract_lets +onlyGivenNames x; clear_value x) | with_reducible apply atomNow_kept
           | with_reducible apply enqueue_kept | split)

end Sys2Proof.Machine
end

