-- ==== Sys2Proof/Laws/KeptWork.lean ====
section
/-! SUPPORT. The operations of Machine/Work.lean keep what `Kept` names. -/

namespace Sys2Proof.Machine

theorem setJobs_kept {z : State} {s : State} (h0 : Kept z s) (w : Work) (l : List Job) :
    Kept z (setJobs s w l) := by
  unfold setJobs
  repeat'
    (first | with_reducible assumption | with_reducible exact Kept.refl _ | intro _
           | (extract_lets +onlyGivenNames x; refine Kept.use (x := x) ?_ (fun _ => ?_) <;> [subst x; clear_value x])
           | (extract_lets +onlyGivenNames x; refine Kept.use_fst (x := x) ?_ (fun _ => ?_) <;> [subst x; clear_value x])
           | (extract_lets +onlyGivenNames x; have _y : _ → _ := x; subst x; beta_reduce)
           | (extract_lets +onlyGivenNames x; clear_value x) | with_reducible apply setEngine_kept
           | with_reducible apply setLog_kept | with_reducible apply setSite_kept
           | with_reducible refine Kept.lit (by assumption) rfl ?_
           | with_reducible refine Kept.lit (Kept.of_fst ?_ (by assumption)) rfl ?_ | (apply Mem.wf_of; assumption; rfl) | split)

theorem mapJob_kept {z : State} {s : State} (h0 : Kept z s) (w : Work) (j : Job) (f : Job → Job) :
    Kept z (mapJob s w j f) := by
  unfold mapJob
  repeat'
    (first | with_reducible assumption | with_reducible exact Kept.refl _ | intro _ | with_reducible apply setJobs_kept | split)

theorem wakeJob_kept {z : State} {s : State} (h0 : Kept z s) (w : Work) (j : Job) :
    Kept z (wakeJob s w j) := by
  unfold wakeJob
  repeat'
    (first | with_reducible assumption | with_reducible exact Kept.refl _ | intro _
           | (extract_lets +onlyGivenNames x; refine Kept.use (x := x) ?_ (fun _ => ?_) <;> [subst x; clear_value x])
           | (extract_lets +onlyGivenNames x; refine Kept.use_fst (x := x) ?_ (fun _ => ?_) <;> [subst x; clear_value x])
           | (extract_lets +onlyGivenNames x; have _y : _ → _ := x; subst x; beta_reduce)
           | (extract_lets +onlyGivenNames x; clear_value x) | with_reducible apply mapJob_kept
           | with_reducible apply setWait_kept | with_reducible refine Kept.lit (by assumption) rfl ?_
           | with_reducible refine Kept.lit (Kept.of_fst ?_ (by assumption)) rfl ?_ | (apply Mem.wf_of; assumption; rfl) | split)

theorem passDesc_kept {z : State} {s : State} (h0 : Kept z s) (w : Work) (j : Job) (k : Nat) :
    Kept z (passDesc s w j k) := by
  unfold passDesc
  repeat'
    (first | with_reducible assumption | with_reducible exact Kept.refl _ | intro _
           | (extract_lets +onlyGivenNames x; refine Kept.use (x := x) ?_ (fun _ => ?_) <;> [subst x; clear_value x])
           | (extract_lets +onlyGivenNames x; refine Kept.use_fst (x := x) ?_ (fun _ => ?_) <;> [subst x; clear_value x])
           | (extract_lets +onlyGivenNames x; have _y : _ → _ := x; subst x; beta_reduce)
           | (extract_lets +onlyGivenNames x; clear_value x) | with_reducible apply mapJob_kept
           | with_reducible refine Kept.lit (by assumption) rfl ?_ | (apply Mem.wf_of; assumption; rfl) | split)

theorem gate_kept {z : State} {s : State} (h0 : Kept z s) (w : Work) (c : Common) (p : Nat) (hub : Option Nat) :
    Kept z (gate s w c p hub).1 := by
  unfold gate
  repeat'
    (first | with_reducible assumption | with_reducible exact Kept.refl _ | intro _
           | (extract_lets +onlyGivenNames x; refine Kept.use (x := x) ?_ (fun _ => ?_) <;> [subst x; clear_value x])
           | (extract_lets +onlyGivenNames x; refine Kept.use_fst (x := x) ?_ (fun _ => ?_) <;> [subst x; clear_value x])
           | (extract_lets +onlyGivenNames x; have _y : _ → _ := x; subst x; beta_reduce)
           | (extract_lets +onlyGivenNames x; clear_value x) | with_reducible refine Kept.of_fst ?_ (by assumption)
           | with_reducible apply fileWait_kept | with_reducible apply record_kept | with_reducible apply setWait_kept | split)

theorem raiseTo_kept {z : State} {s : State} (h0 : Kept z s) (w : Work) (ctx : Nat × Nat) (p tag : Nat) (c : Common) (hub : Option Nat) (events : Option (Nat × Nat)) :
    Kept z (raiseTo s w ctx p tag c hub events) := by
  unfold raiseTo
  repeat'
    (first | with_reducible assumption | with_reducible exact Kept.refl _ | intro _
           | (extract_lets +onlyGivenNames x; refine Kept.use (x := x) ?_ (fun _ => ?_) <;> [subst x; clear_value x])
           | (extract_lets +onlyGivenNames x; refine Kept.use_fst (x := x) ?_ (fun _ => ?_) <;> [subst x; clear_value x])
           | (extract_lets +onlyGivenNames x; have _y : _ → _ := x; subst x; beta_reduce)
           | (extract_lets +onlyGivenNames x; clear_value x) | (extract_lets +onlyGivenNames x; subst x)
           | with_reducible refine Kept.of_fst ?_ (by assumption) | with_reducible apply recordIn_kept
           | with_reducible apply sendTally_kept | with_reducible apply tallyOp_kept
           | with_reducible refine Kept.lit (by assumption) rfl ?_
           | with_reducible refine Kept.lit (Kept.of_fst ?_ (by assumption)) rfl ?_ | (apply Mem.wf_of; assumption; rfl) | split)

end Sys2Proof.Machine
end

