-- ==== Sys2Proof/Laws/KeptDeedCommands.lean ====
section
/-! SUPPORT. The operations of Machine/DeedCommands.lean keep what `Kept` names. -/

namespace Sys2Proof.Machine

theorem setDeed_kept {z : State} {s : State} (h0 : Kept z s) (g : Nat) (d : Deed) :
    Kept z (setDeed s g d) := by
  unfold setDeed
  repeat'
    (first | with_reducible assumption | with_reducible exact Kept.refl _ | intro _
           | (extract_lets +onlyGivenNames x; refine Kept.use (x := x) ?_ (fun _ => ?_) <;> [subst x; clear_value x])
           | (extract_lets +onlyGivenNames x; refine Kept.use_fst (x := x) ?_ (fun _ => ?_) <;> [subst x; clear_value x])
           | (extract_lets +onlyGivenNames x; have _y : _ → _ := x; subst x; beta_reduce)
           | (extract_lets +onlyGivenNames x; have _y : Mem := x; subst x) | (extract_lets +onlyGivenNames x; clear_value x)
           | with_reducible refine Kept.lit (by assumption) rfl ?_ | (apply Mem.wf_of; assumption; rfl) | split)

theorem emptyRun_kept {z : State} {s : State} (h0 : Kept z s) (g n : Nat) :
    Kept z (emptyRun s g n) := by
  unfold emptyRun
  repeat'
    (first | with_reducible assumption | with_reducible exact Kept.refl _ | intro _ | with_reducible apply Kept.foldl
           | with_reducible apply Kept.foldl_fst | with_reducible apply clearGranule_kept | with_reducible apply setDeed_kept
           | split)

theorem deedSetBody_kept {z : State} {s : State} (h0 : Kept z s) (c : Packet) (r : ReplyTo) :
    Kept z (deedSetBody c s r).1 := by
  unfold deedSetBody
  repeat'
    (first | with_reducible assumption | with_reducible exact Kept.refl _ | intro _
           | (extract_lets +onlyGivenNames x; refine Kept.use (x := x) ?_ (fun _ => ?_) <;> [subst x; clear_value x])
           | (extract_lets +onlyGivenNames x; refine Kept.use_fst (x := x) ?_ (fun _ => ?_) <;> [subst x; clear_value x])
           | (extract_lets +onlyGivenNames x; have _y : _ → _ := x; subst x; beta_reduce)
           | (extract_lets +onlyGivenNames x; have _y : TurnUnit := x; subst x)
           | (extract_lets +onlyGivenNames x; have _y : Mem := x; subst x) | (extract_lets +onlyGivenNames x; clear_value x)
           | with_reducible refine Kept.of_fst ?_ (by assumption) | with_reducible apply emptyRun_kept
           | with_reducible apply reservedFrom_kept | with_reducible refine Kept.lit (by assumption) rfl ?_
           | with_reducible refine Kept.lit (Kept.refl _) rfl ?_
           | with_reducible refine Kept.lit (Kept.of_fst ?_ (by assumption)) rfl ?_ | (apply Mem.wf_of; assumption; rfl) | split)

theorem zeroRun_kept {z : State} {s : State} (h0 : Kept z s) (m : DeedMove) :
    Kept z (zeroRun s m) := by
  unfold zeroRun
  repeat'
    (first | with_reducible assumption | with_reducible exact Kept.refl _ | intro _
           | (extract_lets +onlyGivenNames x; refine Kept.use (x := x) ?_ (fun _ => ?_) <;> [subst x; clear_value x])
           | (extract_lets +onlyGivenNames x; refine Kept.use_fst (x := x) ?_ (fun _ => ?_) <;> [subst x; clear_value x])
           | (extract_lets +onlyGivenNames x; have _y : _ → _ := x; subst x; beta_reduce)
           | (extract_lets +onlyGivenNames x; have _y : Mem := x; subst x) | (extract_lets +onlyGivenNames x; clear_value x)
           | with_reducible apply Kept.foldl | with_reducible apply Kept.foldl_fst
           | with_reducible refine Kept.lit (by assumption) rfl ?_ | with_reducible refine Kept.lit (Kept.refl _) rfl ?_
           | with_reducible apply Mem.zero_wf | (apply Mem.wf_of; assumption; rfl) | split)

theorem zeroRuns_kept {z : State} {s : State} (h0 : Kept z s) :
    Kept z (zeroRuns s) := by
  unfold zeroRuns
  repeat'
    (first | with_reducible assumption | with_reducible exact Kept.refl _ | intro _ | with_reducible apply Kept.foldl
           | with_reducible apply Kept.foldl_fst | with_reducible apply zeroRun_kept | split)

theorem deedDue_kept {z : State} {s : State} (h0 : Kept z s) (turn : Nat) (m : DeedMove) :
    Kept z (deedDue turn s m) := by
  unfold deedDue
  repeat'
    (first | with_reducible assumption | with_reducible exact Kept.refl _ | intro _
           | (extract_lets +onlyGivenNames x; refine Kept.use (x := x) ?_ (fun _ => ?_) <;> [subst x; clear_value x])
           | (extract_lets +onlyGivenNames x; refine Kept.use_fst (x := x) ?_ (fun _ => ?_) <;> [subst x; clear_value x])
           | (extract_lets +onlyGivenNames x; have _y : _ → _ := x; subst x; beta_reduce)
           | (extract_lets +onlyGivenNames x; have _y : TurnUnit := x; subst x)
           | (extract_lets +onlyGivenNames x; have _y : Mem := x; subst x) | (extract_lets +onlyGivenNames x; clear_value x)
           | (extract_lets +onlyGivenNames x; subst x) | with_reducible apply Kept.foldl | with_reducible apply Kept.foldl_fst
           | with_reducible apply postFinal_kept | with_reducible apply setDeed_kept
           | with_reducible refine Kept.lit (by assumption) rfl ?_ | with_reducible refine Kept.lit (Kept.refl _) rfl ?_
           | (apply Mem.wf_of; assumption; rfl) | split)

theorem deedsDue_kept {z : State} {s : State} (h0 : Kept z s) (turn : Nat) :
    Kept z (deedsDue s turn) := by
  unfold deedsDue
  repeat'
    (first | with_reducible assumption | with_reducible exact Kept.refl _ | intro _
           | (extract_lets +onlyGivenNames x; refine Kept.use (x := x) ?_ (fun _ => ?_) <;> [subst x; clear_value x])
           | (extract_lets +onlyGivenNames x; refine Kept.use_fst (x := x) ?_ (fun _ => ?_) <;> [subst x; clear_value x])
           | (extract_lets +onlyGivenNames x; have _y : _ → _ := x; subst x; beta_reduce)
           | (extract_lets +onlyGivenNames x; have _y : TurnUnit := x; subst x)
           | (extract_lets +onlyGivenNames x; have _y : Mem := x; subst x) | (extract_lets +onlyGivenNames x; clear_value x)
           | with_reducible apply Kept.foldl | with_reducible apply Kept.foldl_fst | with_reducible apply deedDue_kept
           | with_reducible apply zeroRuns_kept | split)

theorem deedReadBody_kept {z : State} {s : State} (h0 : Kept z s) (c : Packet) (x0 : ReplyTo) :
    Kept z (deedReadBody c s x0).1 := by
  unfold deedReadBody
  repeat'
    (first | with_reducible assumption | with_reducible exact Kept.refl _ | intro _
           | (extract_lets +onlyGivenNames x; refine Kept.use (x := x) ?_ (fun _ => ?_) <;> [subst x; clear_value x])
           | (extract_lets +onlyGivenNames x; refine Kept.use_fst (x := x) ?_ (fun _ => ?_) <;> [subst x; clear_value x])
           | (extract_lets +onlyGivenNames x; have _y : _ → _ := x; subst x; beta_reduce)
           | (extract_lets +onlyGivenNames x; clear_value x) | with_reducible refine Kept.of_fst ?_ (by assumption)
           | with_reducible apply reservedFrom_kept | split)

theorem writeWindow_kept {z : State} {s : State} (h0 : Kept z s) (n : Nat) (e : Bytes) :
    Kept z (writeWindow s n e) := by
  unfold writeWindow
  repeat'
    (first | with_reducible assumption | with_reducible exact Kept.refl _ | intro _
           | (extract_lets +onlyGivenNames x; refine Kept.use (x := x) ?_ (fun _ => ?_) <;> [subst x; clear_value x])
           | (extract_lets +onlyGivenNames x; refine Kept.use_fst (x := x) ?_ (fun _ => ?_) <;> [subst x; clear_value x])
           | (extract_lets +onlyGivenNames x; have _y : _ → _ := x; subst x; beta_reduce)
           | (extract_lets +onlyGivenNames x; clear_value x) | with_reducible refine Kept.lit (by assumption) rfl ?_
           | (apply Mem.wf_of; assumption; rfl) | split)

theorem winForceBody_kept {z : State} {s : State} (h0 : Kept z s) (c : Packet) (entry : Option Bytes) (x0 : ReplyTo) :
    Kept z (winForceBody c entry s x0).1 := by
  unfold winForceBody
  repeat'
    (first | with_reducible assumption | with_reducible exact Kept.refl _ | intro _
           | with_reducible refine Kept.of_fst ?_ (by assumption) | with_reducible apply hostRefused_kept
           | with_reducible apply lockedWrite_kept | with_reducible apply reservedFrom_kept
           | with_reducible apply writeWindow_kept | split)

theorem memPoisonReadBody_kept {z : State} {s : State} (h0 : Kept z s) (c : Packet) (x0 : ReplyTo) :
    Kept z (memPoisonReadBody c s x0).1 := by
  unfold memPoisonReadBody
  repeat'
    (first | with_reducible assumption | with_reducible exact Kept.refl _ | intro _
           | (extract_lets +onlyGivenNames x; refine Kept.use (x := x) ?_ (fun _ => ?_) <;> [subst x; clear_value x])
           | (extract_lets +onlyGivenNames x; refine Kept.use_fst (x := x) ?_ (fun _ => ?_) <;> [subst x; clear_value x])
           | (extract_lets +onlyGivenNames x; have _y : _ → _ := x; subst x; beta_reduce)
           | (extract_lets +onlyGivenNames x; have _y : Mem := x; subst x) | (extract_lets +onlyGivenNames x; clear_value x)
           | (extract_lets +onlyGivenNames x; subst x) | with_reducible refine Kept.of_fst ?_ (by assumption)
           | with_reducible apply reservedFrom_kept | split)

theorem memRetireBody_kept {z : State} {s : State} (h0 : Kept z s) (c : Packet) (x0 : ReplyTo) :
    Kept z (memRetireBody c s x0).1 := by
  unfold memRetireBody
  repeat'
    (first | with_reducible assumption | with_reducible exact Kept.refl _ | intro _
           | (extract_lets +onlyGivenNames x; refine Kept.use (x := x) ?_ (fun _ => ?_) <;> [subst x; clear_value x])
           | (extract_lets +onlyGivenNames x; refine Kept.use_fst (x := x) ?_ (fun _ => ?_) <;> [subst x; clear_value x])
           | (extract_lets +onlyGivenNames x; have _y : _ → _ := x; subst x; beta_reduce)
           | (extract_lets +onlyGivenNames x; have _y : Mem := x; subst x) | (extract_lets +onlyGivenNames x; clear_value x)
           | with_reducible refine Kept.of_fst ?_ (by assumption) | with_reducible apply reservedFrom_kept
           | with_reducible refine Kept.lit (by assumption) rfl ?_ | with_reducible refine Kept.lit (Kept.refl _) rfl ?_
           | (apply Mem.wf_of; assumption; rfl) | split)

theorem memRetireListBody_kept {z : State} {s : State} (h0 : Kept z s) (c : Packet) (x0 : ReplyTo) :
    Kept z (memRetireListBody c s x0).1 := by
  unfold memRetireListBody
  repeat'
    (first | with_reducible assumption | with_reducible exact Kept.refl _ | intro _
           | (extract_lets +onlyGivenNames x; refine Kept.use (x := x) ?_ (fun _ => ?_) <;> [subst x; clear_value x])
           | (extract_lets +onlyGivenNames x; refine Kept.use_fst (x := x) ?_ (fun _ => ?_) <;> [subst x; clear_value x])
           | (extract_lets +onlyGivenNames x; have _y : _ → _ := x; subst x; beta_reduce)
           | (extract_lets +onlyGivenNames x; have _y : Mem := x; subst x) | (extract_lets +onlyGivenNames x; clear_value x)
           | with_reducible refine Kept.of_fst ?_ (by assumption) | with_reducible apply reservedFrom_kept | split)

theorem memScrubBody_kept {z : State} {s : State} (h0 : Kept z s) (c : Packet) (x0 : ReplyTo) :
    Kept z (memScrubBody c s x0).1 := by
  unfold memScrubBody
  repeat'
    (first | with_reducible assumption | with_reducible exact Kept.refl _ | intro _
           | (extract_lets +onlyGivenNames x; refine Kept.use (x := x) ?_ (fun _ => ?_) <;> [subst x; clear_value x])
           | (extract_lets +onlyGivenNames x; refine Kept.use_fst (x := x) ?_ (fun _ => ?_) <;> [subst x; clear_value x])
           | (extract_lets +onlyGivenNames x; have _y : _ → _ := x; subst x; beta_reduce)
           | (extract_lets +onlyGivenNames x; have _y : Mem := x; subst x) | (extract_lets +onlyGivenNames x; clear_value x)
           | with_reducible refine Kept.of_fst ?_ (by assumption) | with_reducible apply reservedFrom_kept
           | with_reducible refine Kept.lit (by assumption) rfl ?_ | with_reducible refine Kept.lit (Kept.refl _) rfl ?_
           | (apply Mem.wf_of; assumption; rfl) | split)

theorem losePc_kept {z : State} {s : State} (h0 : Kept z s) (n : Nat) :
    Kept z (losePc s n) := by
  unfold losePc
  repeat'
    (first | with_reducible assumption | with_reducible exact Kept.refl _ | intro _
           | (extract_lets +onlyGivenNames x; refine Kept.use (x := x) ?_ (fun _ => ?_) <;> [subst x; clear_value x])
           | (extract_lets +onlyGivenNames x; refine Kept.use_fst (x := x) ?_ (fun _ => ?_) <;> [subst x; clear_value x])
           | (extract_lets +onlyGivenNames x; have _y : _ → _ := x; subst x; beta_reduce)
           | (extract_lets +onlyGivenNames x; clear_value x) | with_reducible apply Kept.foldl
           | with_reducible apply Kept.foldl_fst | with_reducible apply setStack_kept
           | with_reducible refine Kept.lit (by assumption) rfl ?_ | with_reducible refine Kept.lit (Kept.refl _) rfl ?_
           | (apply Mem.wf_of; assumption; rfl) | split)

end Sys2Proof.Machine
end

