-- ==== Sys2Proof/Laws/KeptXlateCommands.lean ====
section
/-! SUPPORT. The operations of Machine/XlateCommands.lean keep what `Kept` names. -/

namespace Sys2Proof.Machine

theorem clearWork_kept {z : State} {s : State} (h0 : Kept z s) (c : Nat) (unbind : Bool) :
    Kept z (clearWork s c unbind) := by
  unfold clearWork
  repeat'
    (first | with_reducible assumption | with_reducible exact Kept.refl _ | intro _ | with_reducible apply clearShoe_kept
           | with_reducible apply clearTallies_kept | split)

theorem invalReply_kept {z : State} {s : State} (h0 : Kept z s) (v : Inval) :
    Kept z (invalReply s v) := by
  unfold invalReply
  repeat'
    (first | with_reducible assumption | with_reducible exact Kept.refl _ | intro _
           | (extract_lets +onlyGivenNames x; refine Kept.use (x := x) ?_ (fun _ => ?_) <;> [subst x; clear_value x])
           | (extract_lets +onlyGivenNames x; refine Kept.use_fst (x := x) ?_ (fun _ => ?_) <;> [subst x; clear_value x])
           | (extract_lets +onlyGivenNames x; have _y : _ → _ := x; subst x; beta_reduce)
           | (extract_lets +onlyGivenNames x; clear_value x) | with_reducible apply postFinal_kept
           | with_reducible refine Kept.lit (by assumption) rfl ?_
           | with_reducible refine Kept.lit (Kept.of_fst ?_ (by assumption)) rfl ?_ | (apply Mem.wf_of; assumption; rfl) | split)

theorem endInval_kept {z : State} {s : State} (h0 : Kept z s) (v : Inval) :
    Kept z (endInval s v) := by
  unfold endInval
  repeat'
    (first | with_reducible assumption | with_reducible exact Kept.refl _ | intro _
           | (extract_lets +onlyGivenNames x; refine Kept.use (x := x) ?_ (fun _ => ?_) <;> [subst x; clear_value x])
           | (extract_lets +onlyGivenNames x; refine Kept.use_fst (x := x) ?_ (fun _ => ?_) <;> [subst x; clear_value x])
           | (extract_lets +onlyGivenNames x; have _y : _ → _ := x; subst x; beta_reduce)
           | (extract_lets +onlyGivenNames x; clear_value x) | (extract_lets +onlyGivenNames x; subst x)
           | with_reducible apply clearWork_kept | with_reducible apply dropXents_kept | with_reducible apply invalReply_kept
           | split)

theorem applyInval_kept {z : State} {s : State} (h0 : Kept z s) (v : Inval) :
    Kept z (applyInval s v).1 := by
  unfold applyInval
  repeat'
    (first | with_reducible assumption | with_reducible exact Kept.refl _ | intro _
           | (extract_lets +onlyGivenNames x; refine Kept.use (x := x) ?_ (fun _ => ?_) <;> [subst x; clear_value x])
           | (extract_lets +onlyGivenNames x; refine Kept.use_fst (x := x) ?_ (fun _ => ?_) <;> [subst x; clear_value x])
           | (extract_lets +onlyGivenNames x; have _y : _ → _ := x; subst x; beta_reduce)
           | (extract_lets +onlyGivenNames x; clear_value x) | with_reducible refine Kept.of_fst ?_ (by assumption)
           | with_reducible apply dropXents_kept | with_reducible refine Kept.lit (by assumption) rfl ?_
           | (apply Mem.wf_of; assumption; rfl) | split)

theorem advanceInvals_kept {z : State} {z1 : State} (h0 : Kept z z1) (z0 : Nat) :
    Kept z (advanceInvals z0 z1) := by
  induction z0 generalizing z1 z with
  | zero =>
    rw [advanceInvals]
    repeat'
      (first | with_reducible assumption | with_reducible exact Kept.refl _ | intro _
             | (extract_lets +onlyGivenNames x; refine Kept.use (x := x) ?_ (fun _ => ?_) <;> [subst x; clear_value x])
             | (extract_lets +onlyGivenNames x; refine Kept.use_fst (x := x) ?_ (fun _ => ?_) <;> [subst x; clear_value x])
             | (extract_lets +onlyGivenNames x; have _y : _ → _ := x; subst x; beta_reduce)
             | (extract_lets +onlyGivenNames x; clear_value x) | with_reducible refine Kept.of_fst ?_ (by assumption)
             | with_reducible apply Kept.foldl | with_reducible apply Kept.foldl_fst | with_reducible apply applyInval_kept
             | with_reducible apply endInval_kept | with_reducible refine Kept.lit (by assumption) rfl ?_
             | with_reducible refine Kept.lit (Kept.refl _) rfl ?_
             | with_reducible refine Kept.lit (applyInval_kept (by assumption) ..) rfl ?_
             | with_reducible refine Kept.lit (Kept.of_fst ?_ (by assumption)) rfl ?_ | (apply Mem.wf_of; assumption; rfl) | split)
  | succ k ih =>
    rw [advanceInvals]
    repeat'
      (first | with_reducible assumption | with_reducible exact Kept.refl _ | intro _
             | (extract_lets +onlyGivenNames x; refine Kept.use (x := x) ?_ (fun _ => ?_) <;> [subst x; clear_value x])
             | (extract_lets +onlyGivenNames x; refine Kept.use_fst (x := x) ?_ (fun _ => ?_) <;> [subst x; clear_value x])
             | (extract_lets +onlyGivenNames x; have _y : _ → _ := x; subst x; beta_reduce)
             | (extract_lets +onlyGivenNames x; clear_value x) | with_reducible refine Kept.of_fst ?_ (by assumption)
             | with_reducible apply Kept.foldl | with_reducible apply Kept.foldl_fst | with_reducible apply ih
             | with_reducible apply applyInval_kept | with_reducible apply endInval_kept
             | with_reducible refine Kept.lit (by assumption) rfl ?_ | with_reducible refine Kept.lit (Kept.refl _) rfl ?_
             | with_reducible refine Kept.lit (applyInval_kept (by assumption) ..) rfl ?_
             | with_reducible refine Kept.lit (Kept.of_fst ?_ (by assumption)) rfl ?_ | (apply Mem.wf_of; assumption; rfl) | split)

theorem settleInvals_kept {z : State} {s : State} (h0 : Kept z s) :
    Kept z (settleInvals s) := by
  unfold settleInvals
  repeat'
    (first | with_reducible assumption | with_reducible exact Kept.refl _ | intro _ | with_reducible apply advanceInvals_kept
           | split)

theorem submitInval_kept {z : State} {s : State} (h0 : Kept z s) (v : Inval) :
    Kept z (submitInval s v) := by
  unfold submitInval
  repeat'
    (first | with_reducible assumption | with_reducible exact Kept.refl _ | intro _
           | (extract_lets +onlyGivenNames x; refine Kept.use (x := x) ?_ (fun _ => ?_) <;> [subst x; clear_value x])
           | (extract_lets +onlyGivenNames x; refine Kept.use_fst (x := x) ?_ (fun _ => ?_) <;> [subst x; clear_value x])
           | (extract_lets +onlyGivenNames x; have _y : _ → _ := x; subst x; beta_reduce)
           | (extract_lets +onlyGivenNames x; clear_value x) | with_reducible refine Kept.of_fst ?_ (by assumption)
           | with_reducible apply applyInval_kept | with_reducible apply settleInvals_kept
           | with_reducible refine Kept.lit (by assumption) rfl ?_
           | with_reducible refine Kept.lit (applyInval_kept (by assumption) ..) rfl ?_
           | with_reducible refine Kept.lit (Kept.of_fst ?_ (by assumption)) rfl ?_ | (apply Mem.wf_of; assumption; rfl) | split)

theorem beginClear_kept {z : State} {s : State} (h0 : Kept z s) (c : Nat) (r : Option ReplyTo) :
    Kept z (beginClear s c r) := by
  unfold beginClear
  repeat'
    (first | with_reducible assumption | with_reducible exact Kept.refl _ | intro _
           | (extract_lets +onlyGivenNames x; refine Kept.use (x := x) ?_ (fun _ => ?_) <;> [subst x; clear_value x])
           | (extract_lets +onlyGivenNames x; refine Kept.use_fst (x := x) ?_ (fun _ => ?_) <;> [subst x; clear_value x])
           | (extract_lets +onlyGivenNames x; have _y : _ → _ := x; subst x; beta_reduce)
           | (extract_lets +onlyGivenNames x; clear_value x) | with_reducible apply releasePorts_kept
           | with_reducible apply setCtx_kept | with_reducible apply submitInval_kept
           | with_reducible refine Kept.lit (by assumption) rfl ?_ | (apply Mem.wf_of; assumption; rfl) | split)

theorem ctxClearBody_kept {z : State} {s : State} (h0 : Kept z s) (c : Packet) (r : ReplyTo) :
    Kept z (ctxClearBody c s r).1 := by
  unfold ctxClearBody
  repeat'
    (first | with_reducible assumption | with_reducible exact Kept.refl _ | intro _
           | (extract_lets +onlyGivenNames x; refine Kept.use (x := x) ?_ (fun _ => ?_) <;> [subst x; clear_value x])
           | (extract_lets +onlyGivenNames x; refine Kept.use_fst (x := x) ?_ (fun _ => ?_) <;> [subst x; clear_value x])
           | (extract_lets +onlyGivenNames x; have _y : _ → _ := x; subst x; beta_reduce)
           | (extract_lets +onlyGivenNames x; clear_value x) | with_reducible refine Kept.of_fst ?_ (by assumption)
           | with_reducible apply beginClear_kept | with_reducible apply reservedFrom_kept | split)

theorem ctxRootBody_kept {z : State} {s : State} (h0 : Kept z s) (c : Packet) (r : ReplyTo) :
    Kept z (ctxRootBody c s r).1 := by
  unfold ctxRootBody
  repeat'
    (first | with_reducible assumption | with_reducible exact Kept.refl _ | intro _
           | (extract_lets +onlyGivenNames x; refine Kept.use (x := x) ?_ (fun _ => ?_) <;> [subst x; clear_value x])
           | (extract_lets +onlyGivenNames x; refine Kept.use_fst (x := x) ?_ (fun _ => ?_) <;> [subst x; clear_value x])
           | (extract_lets +onlyGivenNames x; have _y : _ → _ := x; subst x; beta_reduce)
           | (extract_lets +onlyGivenNames x; clear_value x) | with_reducible refine Kept.of_fst ?_ (by assumption)
           | with_reducible apply reservedFrom_kept | with_reducible apply setCtx_kept | with_reducible apply submitInval_kept
           | with_reducible refine Kept.lit (by assumption) rfl ?_ | with_reducible refine Kept.lit (Kept.refl _) rfl ?_
           | (apply Mem.wf_of; assumption; rfl) | split)

theorem xlateInvalBody_kept {z : State} {s : State} (h0 : Kept z s) (c : Packet) (r : ReplyTo) :
    Kept z (xlateInvalBody c s r).1 := by
  unfold xlateInvalBody
  repeat'
    (first | with_reducible assumption | with_reducible exact Kept.refl _ | intro _
           | (extract_lets +onlyGivenNames x; refine Kept.use (x := x) ?_ (fun _ => ?_) <;> [subst x; clear_value x])
           | (extract_lets +onlyGivenNames x; refine Kept.use_fst (x := x) ?_ (fun _ => ?_) <;> [subst x; clear_value x])
           | (extract_lets +onlyGivenNames x; have _y : _ → _ := x; subst x; beta_reduce)
           | (extract_lets +onlyGivenNames x; clear_value x) | with_reducible refine Kept.of_fst ?_ (by assumption)
           | with_reducible apply reservedFrom_kept | with_reducible apply submitInval_kept
           | with_reducible refine Kept.lit (by assumption) rfl ?_ | with_reducible refine Kept.lit (Kept.refl _) rfl ?_
           | (apply Mem.wf_of; assumption; rfl) | split)

theorem ctxBindBody_kept {z : State} {s : State} (h0 : Kept z s) (c : Packet) (r : ReplyTo) :
    Kept z (ctxBindBody c s r).1 := by
  unfold ctxBindBody
  repeat'
    (first | with_reducible assumption | with_reducible exact Kept.refl _ | intro _
           | (extract_lets +onlyGivenNames x; refine Kept.use (x := x) ?_ (fun _ => ?_) <;> [subst x; clear_value x])
           | (extract_lets +onlyGivenNames x; refine Kept.use_fst (x := x) ?_ (fun _ => ?_) <;> [subst x; clear_value x])
           | (extract_lets +onlyGivenNames x; have _y : _ → _ := x; subst x; beta_reduce)
           | (extract_lets +onlyGivenNames x; have _y : TurnUnit := x; subst x) | (extract_lets +onlyGivenNames x; clear_value x)
           | with_reducible refine Kept.of_fst ?_ (by assumption) | with_reducible apply reservedFrom_kept
           | with_reducible refine Kept.lit (by assumption) rfl ?_ | with_reducible refine Kept.lit (Kept.refl _) rfl ?_
           | with_reducible refine Kept.lit (Kept.of_fst ?_ (by assumption)) rfl ?_ | (apply Mem.wf_of; assumption; rfl) | split)

theorem dropBind_kept {z : State} {s : State} (h0 : Kept z s) (m : BindMove) :
    Kept z (dropBind s m) := by
  unfold dropBind
  repeat'
    (first | with_reducible assumption | with_reducible exact Kept.refl _ | intro _
           | (extract_lets +onlyGivenNames x; refine Kept.use (x := x) ?_ (fun _ => ?_) <;> [subst x; clear_value x])
           | (extract_lets +onlyGivenNames x; refine Kept.use_fst (x := x) ?_ (fun _ => ?_) <;> [subst x; clear_value x])
           | (extract_lets +onlyGivenNames x; have _y : _ → _ := x; subst x; beta_reduce)
           | (extract_lets +onlyGivenNames x; clear_value x) | with_reducible refine Kept.lit (by assumption) rfl ?_
           | (apply Mem.wf_of; assumption; rfl) | split)

theorem startUnbind_kept {z : State} {s : State} (h0 : Kept z s) (turn : Nat) (m : BindMove) :
    Kept z (startUnbind turn s m) := by
  unfold startUnbind
  repeat'
    (first | with_reducible assumption | with_reducible exact Kept.refl _ | intro _
           | (extract_lets +onlyGivenNames x; refine Kept.use (x := x) ?_ (fun _ => ?_) <;> [subst x; clear_value x])
           | (extract_lets +onlyGivenNames x; refine Kept.use_fst (x := x) ?_ (fun _ => ?_) <;> [subst x; clear_value x])
           | (extract_lets +onlyGivenNames x; have _y : _ → _ := x; subst x; beta_reduce)
           | (extract_lets +onlyGivenNames x; have _y : TurnUnit := x; subst x) | (extract_lets +onlyGivenNames x; clear_value x)
           | (extract_lets +onlyGivenNames x; subst x) | with_reducible apply beginClear_kept
           | with_reducible refine Kept.lit (by assumption) rfl ?_ | (apply Mem.wf_of; assumption; rfl) | split)

theorem bindDue_kept {z : State} {s : State} (h0 : Kept z s) (turn : Nat) (m : BindMove) :
    Kept z (bindDue turn s m) := by
  unfold bindDue
  repeat'
    (first | with_reducible assumption | with_reducible exact Kept.refl _ | intro _
           | (extract_lets +onlyGivenNames x; refine Kept.use (x := x) ?_ (fun _ => ?_) <;> [subst x; clear_value x])
           | (extract_lets +onlyGivenNames x; refine Kept.use_fst (x := x) ?_ (fun _ => ?_) <;> [subst x; clear_value x])
           | (extract_lets +onlyGivenNames x; have _y : _ → _ := x; subst x; beta_reduce)
           | (extract_lets +onlyGivenNames x; have _y : TurnUnit := x; subst x) | (extract_lets +onlyGivenNames x; clear_value x)
           | with_reducible apply dropBind_kept | with_reducible apply postFinal_kept | with_reducible apply setCtx_kept
           | with_reducible refine Kept.lit (by assumption) rfl ?_
           | with_reducible refine Kept.lit (Kept.of_fst ?_ (by assumption)) rfl ?_ | (apply Mem.wf_of; assumption; rfl) | split)

theorem bindsDue_kept {z : State} {s : State} (h0 : Kept z s) (turn : Nat) :
    Kept z (bindsDue s turn) := by
  unfold bindsDue
  repeat'
    (first | with_reducible assumption | with_reducible exact Kept.refl _ | intro _
           | (extract_lets +onlyGivenNames x; refine Kept.use (x := x) ?_ (fun _ => ?_) <;> [subst x; clear_value x])
           | (extract_lets +onlyGivenNames x; refine Kept.use_fst (x := x) ?_ (fun _ => ?_) <;> [subst x; clear_value x])
           | (extract_lets +onlyGivenNames x; have _y : _ → _ := x; subst x; beta_reduce)
           | (extract_lets +onlyGivenNames x; have _y : TurnUnit := x; subst x) | (extract_lets +onlyGivenNames x; clear_value x)
           | with_reducible apply Kept.foldl | with_reducible apply Kept.foldl_fst | with_reducible apply bindDue_kept
           | with_reducible apply startUnbind_kept | split)

theorem ackAll_kept {z : State} {s : State} (h0 : Kept z s) (u : Nat) (lost : Bool) :
    Kept z (ackAll s u lost) := by
  unfold ackAll
  repeat'
    (first | with_reducible assumption | with_reducible exact Kept.refl _ | intro _
           | (extract_lets +onlyGivenNames x; refine Kept.use (x := x) ?_ (fun _ => ?_) <;> [subst x; clear_value x])
           | (extract_lets +onlyGivenNames x; refine Kept.use_fst (x := x) ?_ (fun _ => ?_) <;> [subst x; clear_value x])
           | (extract_lets +onlyGivenNames x; have _y : _ → _ := x; subst x; beta_reduce)
           | (extract_lets +onlyGivenNames x; clear_value x) | with_reducible refine Kept.lit (by assumption) rfl ?_
           | (apply Mem.wf_of; assumption; rfl) | split)

end Sys2Proof.Machine
end

