-- ==== Sys2Proof/Laws/KeptEngines.lean ====
section
/-! SUPPORT. The operations of Machine/Engines.lean keep what `Kept` names. -/

namespace Sys2Proof.Machine

/-- What a part of an access answers, stopped or not, keeps what `Kept` names. -/
def KeptPart {α : Type} (u : State) : Halting (State × α) → Prop
  | .ok p => Kept u p.1
  | .error p => Kept u p.1

theorem KeptPart.of_eq {α : Type} {u t : State} {b : α} {x : Halting (State × α)} (k : KeptPart u x) (h : x = .ok (t, b)) : Kept u t := by
  rw [h] at k; exact k

theorem KeptPart.of_halt {α : Type} {u t : State} {b : Halt} {x : Halting (State × α)} (k : KeptPart u x) (h : x = .error (t, b)) :
    Kept u t := by
  rw [h] at k; exact k

theorem KeptPart.bind {α β : Type} {u : State} {x : Halting (State × α)} {f : State × α → Halting (State × β)} (h : KeptPart u x)
    (hf : ∀ t b, Kept u t → KeptPart u (f (t, b))) : KeptPart u (x >>= f) := by
  cases x with
  | error e => exact h
  | ok p => exact hf p.1 p.2 h

/-- The step of a descriptor, where it has one, keeps what `Kept` names. -/
theorem Kept.of_some {u t : State} {α : Type} {b : α} {x : State × α} (k : Kept u x.1) (h : some x = some (t, b)) : Kept u t := by
  cases h; exact k

theorem setRun_kept {z : State} {s : State} (h0 : Kept z s) (de : Nat) (c : Bool) (r : Option DmaRun) :
    Kept z (setRun s de c r) := by
  unfold setRun
  repeat'
    (first | with_reducible assumption | with_reducible exact Kept.refl _ | intro _
           | (extract_lets +onlyGivenNames x; refine Kept.use (x := x) ?_ (fun _ => ?_) <;> [subst x; clear_value x])
           | (extract_lets +onlyGivenNames x; refine Kept.use_fst (x := x) ?_ (fun _ => ?_) <;> [subst x; clear_value x])
           | (extract_lets +onlyGivenNames x; have _y : _ → _ := x; subst x; beta_reduce)
           | (extract_lets +onlyGivenNames x; clear_value x) | with_reducible apply setEngine_kept
           | with_reducible refine Kept.lit (by assumption) rfl ?_ | (apply Mem.wf_of; assumption; rfl) | split)

theorem putRun_kept {z : State} {s : State} (h0 : Kept z s) (de : Nat) (r : DmaRun) :
    Kept z (putRun s de r) := by
  unfold putRun
  repeat'
    (first | with_reducible assumption | with_reducible exact Kept.refl _ | intro _
           | (extract_lets +onlyGivenNames x; refine Kept.use (x := x) ?_ (fun _ => ?_) <;> [subst x; clear_value x])
           | (extract_lets +onlyGivenNames x; refine Kept.use_fst (x := x) ?_ (fun _ => ?_) <;> [subst x; clear_value x])
           | (extract_lets +onlyGivenNames x; have _y : _ → _ := x; subst x; beta_reduce)
           | (extract_lets +onlyGivenNames x; clear_value x) | with_reducible apply setEngine_kept
           | with_reducible refine Kept.lit (by assumption) rfl ?_ | (apply Mem.wf_of; assumption; rfl) | split)

theorem removeRun_kept {z : State} {s : State} (h0 : Kept z s) (de : Nat) (r : DmaRun) :
    Kept z (removeRun s de r) := by
  unfold removeRun
  repeat'
    (first | with_reducible assumption | with_reducible exact Kept.refl _ | intro _
           | (extract_lets +onlyGivenNames x; refine Kept.use (x := x) ?_ (fun _ => ?_) <;> [subst x; clear_value x])
           | (extract_lets +onlyGivenNames x; refine Kept.use_fst (x := x) ?_ (fun _ => ?_) <;> [subst x; clear_value x])
           | (extract_lets +onlyGivenNames x; have _y : _ → _ := x; subst x; beta_reduce)
           | (extract_lets +onlyGivenNames x; clear_value x) | with_reducible apply setEngine_kept
           | with_reducible refine Kept.lit (by assumption) rfl ?_ | (apply Mem.wf_of; assumption; rfl) | split)

theorem recordFor_kept {z : State} {s : State} (h0 : Kept z s) (de : Nat) (r : DmaRun) (cls addr : Nat) :
    Kept z (recordFor s de r cls addr) := by
  unfold recordFor
  repeat'
    (first | with_reducible assumption | with_reducible exact Kept.refl _ | intro _ | with_reducible apply recordIn_kept | split)

theorem refuseRun_kept {z : State} {s : State} (h0 : Kept z s) (de : Nat) (r : DmaRun) (guard : Bool) (off : Nat) :
    Kept z (refuseRun s de r guard off).1 := by
  unfold refuseRun
  repeat'
    (first | with_reducible assumption | with_reducible exact Kept.refl _ | intro _
           | (extract_lets +onlyGivenNames x; refine Kept.use (x := x) ?_ (fun _ => ?_) <;> [subst x; clear_value x])
           | (extract_lets +onlyGivenNames x; refine Kept.use_fst (x := x) ?_ (fun _ => ?_) <;> [subst x; clear_value x])
           | (extract_lets +onlyGivenNames x; have _y : _ → _ := x; subst x; beta_reduce)
           | (extract_lets +onlyGivenNames x; clear_value x) | with_reducible refine Kept.of_fst ?_ (by assumption)
           | with_reducible apply recordFor_kept | with_reducible refine Kept.lit (by assumption) rfl ?_
           | (apply Mem.wf_of; assumption; rfl) | split)

theorem refuseAs_kept {z : State} {s : State} (h0 : Kept z s) (de : Nat) (r : DmaRun) (cls addr off : Nat) :
    Kept z (refuseAs s de r cls addr off).1 := by
  unfold refuseAs
  repeat'
    (first | with_reducible assumption | with_reducible exact Kept.refl _ | intro _
           | (extract_lets +onlyGivenNames x; refine Kept.use (x := x) ?_ (fun _ => ?_) <;> [subst x; clear_value x])
           | (extract_lets +onlyGivenNames x; refine Kept.use_fst (x := x) ?_ (fun _ => ?_) <;> [subst x; clear_value x])
           | (extract_lets +onlyGivenNames x; have _y : _ → _ := x; subst x; beta_reduce)
           | (extract_lets +onlyGivenNames x; clear_value x) | with_reducible refine Kept.of_fst ?_ (by assumption)
           | with_reducible apply recordFor_kept | with_reducible apply refuseRun_kept | split)

theorem holdRun_kept {z : State} {s : State} (h0 : Kept z s) (de : Fin 64) (r : DmaRun) (lines : List Nat) (share tick : Bool) :
    Kept z (holdRun s de r lines share tick).1 := by
  unfold holdRun
  repeat'
    (first | with_reducible assumption | with_reducible exact Kept.refl _ | intro _
           | (extract_lets +onlyGivenNames x; refine Kept.use (x := x) ?_ (fun _ => ?_) <;> [subst x; clear_value x])
           | (extract_lets +onlyGivenNames x; refine Kept.use_fst (x := x) ?_ (fun _ => ?_) <;> [subst x; clear_value x])
           | (extract_lets +onlyGivenNames x; have _y : _ → _ := x; subst x; beta_reduce)
           | (extract_lets +onlyGivenNames x; clear_value x) | with_reducible refine Kept.of_fst ?_ (by assumption)
           | with_reducible apply enqueue_kept | with_reducible refine Kept.lit (by assumption) rfl ?_
           | (apply Mem.wf_of; assumption; rfl) | split)

theorem haltRun_kept {z : State} {s : State} (h0 : Kept z s) (de : Fin 64) (r : DmaRun) (off : Nat) (z0 : Halt) :
    Kept z (haltRun s de r off z0).1 := by
  unfold haltRun
  repeat'
    (first | with_reducible assumption | with_reducible exact Kept.refl _ | intro _
           | with_reducible refine Kept.of_fst ?_ (by assumption) | with_reducible apply holdRun_kept
           | with_reducible apply refuseAs_kept | split)

theorem sendFrom_kept {u s : State} {de : Nat} {r : DmaRun} {read : Bool} {len off : Nat} {packet : Nat → State → State} (h : Kept u s)
    (hp : ∀ k t, Kept t (packet k t)) : Kept u (sendFrom s de r read len off packet).1 := by
  unfold sendFrom
  split
  · exact h
  · exact h.trans (hp _ _)

theorem asDescriptor_kept {u s : State} {owner : Nat} {f : State → State} (h : Kept u s) (hf : ∀ t, Kept t (f t)) :
    Kept u (asDescriptor s owner f) := by
  unfold asDescriptor
  dsimp only
  exact Kept.lit ((Kept.lit h rfl id).trans (hf _)) rfl id

theorem ask_kept {u s : State} (h : Kept u s) (owner : Nat) (r : MemReq) : Kept u (ask s owner r).1 :=
  capture_kept h fun t => asDescriptor_kept (Kept.refl t) fun x => memoryRequest_kept (Kept.refl x) r

theorem locate_kept {u s : State} (h : Kept u s) (de : Fin 64) (r : DmaRun) (g : List Nat) (k : Access) (va : Nat) :
    KeptPart u (locate s de r g k va) := by
  unfold locate
  dsimp only
  repeat' (first | exact h | exact Kept.of_fst (translate_kept h ..) (by assumption) | split)

theorem runAccess_kept {z : State} {s : State} (h0 : Kept z s) (de : Fin 64) (r : DmaRun) (g : List Nat) (x : Reach) :
    Kept z (runAccess s de r g x).1 := by
  unfold runAccess
  repeat'
    (first | with_reducible assumption | with_reducible exact Kept.refl _ | intro _
           | (extract_lets +onlyGivenNames x; refine Kept.use (x := x) ?_ (fun _ => ?_) <;> [subst x; clear_value x])
           | (extract_lets +onlyGivenNames x; refine Kept.use_fst (x := x) ?_ (fun _ => ?_) <;> [subst x; clear_value x])
           | (extract_lets +onlyGivenNames x; have _y : _ → _ := x; subst x; beta_reduce)
           | (extract_lets +onlyGivenNames x; clear_value x) | (extract_lets +onlyGivenNames x; subst x)
           | with_reducible refine Kept.of_fst ?_ (by assumption) | with_reducible apply ask_kept
           | with_reducible apply haltRun_kept | with_reducible apply holdRun_kept
           | exact (locate_kept (by assumption) ..).of_eq (by assumption)
           | exact (locate_kept (by assumption) ..).of_halt (by assumption) | with_reducible apply refuseRun_kept
           | with_reducible apply sendFrom_kept | with_reducible apply sendUnder_kept
           | with_reducible refine Kept.lit (by assumption) rfl ?_ | with_reducible refine Kept.lit (Kept.refl _) rfl ?_
           | with_reducible refine Kept.lit (Kept.of_fst ?_ (by assumption)) rfl ?_ | (apply Mem.wf_of; assumption; rfl) | split)

theorem notePoison_kept {z : State} {s : State} (h0 : Kept z s) (de : Nat) (r : DmaRun) (d : List (Byte × Bool)) :
    Kept z (notePoison s de r d).1 := by
  unfold notePoison
  repeat'
    (first | with_reducible assumption | with_reducible exact Kept.refl _ | intro _
           | (extract_lets +onlyGivenNames x; refine Kept.use (x := x) ?_ (fun _ => ?_) <;> [subst x; clear_value x])
           | (extract_lets +onlyGivenNames x; refine Kept.use_fst (x := x) ?_ (fun _ => ?_) <;> [subst x; clear_value x])
           | (extract_lets +onlyGivenNames x; have _y : _ → _ := x; subst x; beta_reduce)
           | (extract_lets +onlyGivenNames x; clear_value x) | with_reducible refine Kept.of_fst ?_ (by assumption)
           | with_reducible apply recordFor_kept | with_reducible refine Kept.lit (by assumption) rfl ?_
           | (apply Mem.wf_of; assumption; rfl) | split)

theorem runWrite_kept {z : State} {s : State} (h0 : Kept z s) (de : Fin 64) (r : DmaRun) (g : List Nat) (va off hint target : Nat) (d : List (Byte × Bool)) :
    Kept z (runWrite s de r g va off hint target d).1 := by
  unfold runWrite
  repeat'
    (first | with_reducible assumption | with_reducible exact Kept.refl _ | intro _
           | (extract_lets +onlyGivenNames x; refine Kept.use (x := x) ?_ (fun _ => ?_) <;> [subst x; clear_value x])
           | (extract_lets +onlyGivenNames x; refine Kept.use_fst (x := x) ?_ (fun _ => ?_) <;> [subst x; clear_value x])
           | (extract_lets +onlyGivenNames x; have _y : _ → _ := x; subst x; beta_reduce)
           | (extract_lets +onlyGivenNames x; clear_value x) | with_reducible refine Kept.of_fst ?_ (by assumption)
           | with_reducible apply notePoison_kept | with_reducible apply runAccess_kept | split)

theorem writeHost_kept {z : State} {s : State} (h0 : Kept z s) (de : Nat) (r : DmaRun) (addr off : Nat) (d : List (Byte × Bool)) :
    Kept z (writeHost s de r addr off d).1 := by
  unfold writeHost
  repeat'
    (first | with_reducible assumption | with_reducible exact Kept.refl _ | intro _
           | (extract_lets +onlyGivenNames x; refine Kept.use (x := x) ?_ (fun _ => ?_) <;> [subst x; clear_value x])
           | (extract_lets +onlyGivenNames x; refine Kept.use_fst (x := x) ?_ (fun _ => ?_) <;> [subst x; clear_value x])
           | (extract_lets +onlyGivenNames x; have _y : _ → _ := x; subst x; beta_reduce)
           | (extract_lets +onlyGivenNames x; clear_value x) | with_reducible refine Kept.of_fst ?_ (by assumption)
           | with_reducible apply emit_kept | with_reducible apply notePoison_kept | with_reducible apply refuseRun_kept | split)

theorem readHost_kept {z : State} {s : State} (h0 : Kept z s) (de : Nat) (r : DmaRun) (p : Piece) :
    Kept z (readHost s de r p).1 := by
  unfold readHost
  repeat'
    (first | with_reducible assumption | with_reducible exact Kept.refl _ | intro _
           | (extract_lets +onlyGivenNames x; refine Kept.use (x := x) ?_ (fun _ => ?_) <;> [subst x; clear_value x])
           | (extract_lets +onlyGivenNames x; refine Kept.use_fst (x := x) ?_ (fun _ => ?_) <;> [subst x; clear_value x])
           | (extract_lets +onlyGivenNames x; have _y : _ → _ := x; subst x; beta_reduce)
           | (extract_lets +onlyGivenNames x; clear_value x) | with_reducible refine Kept.of_fst ?_ (by assumption)
           | with_reducible apply emit_kept | with_reducible apply putRun_kept | with_reducible apply refuseRun_kept
           | with_reducible refine Kept.lit (by assumption) rfl ?_
           | with_reducible refine Kept.lit (Kept.of_fst ?_ (by assumption)) rfl ?_ | (apply Mem.wf_of; assumption; rfl) | split)

theorem statusStep_kept {u s t : State} {b : DmaRun × Went} {de : Fin 64} {r : DmaRun} {g : List Nat} (h : Kept u s)
    (e : statusStep s de r g = some (t, b)) : Kept u t := by
  unfold statusStep at e
  split at e
  · split at e
    exact Kept.of_some ((runWrite_kept h ..).of_fst (by assumption)) e
  · cases e

theorem passRun_kept {z : State} {s : State} (h0 : Kept z s) (de : Nat) (r : DmaRun) :
    Kept z (passRun s de r) := by
  unfold passRun
  repeat'
    (first | with_reducible assumption | with_reducible exact Kept.refl _ | intro _
           | (extract_lets +onlyGivenNames x; refine Kept.use (x := x) ?_ (fun _ => ?_) <;> [subst x; clear_value x])
           | (extract_lets +onlyGivenNames x; refine Kept.use_fst (x := x) ?_ (fun _ => ?_) <;> [subst x; clear_value x])
           | (extract_lets +onlyGivenNames x; have _y : _ → _ := x; subst x; beta_reduce)
           | (extract_lets +onlyGivenNames x; clear_value x) | with_reducible apply passDesc_kept
           | with_reducible apply setEngine_kept | with_reducible refine Kept.lit (by assumption) rfl ?_
           | with_reducible refine Kept.lit (Kept.of_fst ?_ (by assumption)) rfl ?_ | (apply Mem.wf_of; assumption; rfl) | split)

theorem finishRun_kept {z : State} {s : State} (h0 : Kept z s) (de : Fin 64) (r : DmaRun) :
    Kept z (finishRun s de r) := by
  unfold finishRun
  repeat'
    (first | with_reducible assumption | with_reducible exact Kept.refl _ | intro _
           | (extract_lets +onlyGivenNames x; refine Kept.use (x := x) ?_ (fun _ => ?_) <;> [subst x; clear_value x])
           | (extract_lets +onlyGivenNames x; refine Kept.use_fst (x := x) ?_ (fun _ => ?_) <;> [subst x; clear_value x])
           | (extract_lets +onlyGivenNames x; have _y : _ → _ := x; subst x; beta_reduce)
           | (extract_lets +onlyGivenNames x; clear_value x) | with_reducible refine Kept.of_fst ?_ (by assumption)
           | with_reducible apply endGroups_kept | with_reducible apply passRun_kept | with_reducible apply raiseTo_kept
           | with_reducible apply removeRun_kept | with_reducible apply setMoved_kept | with_reducible apply settleInvals_kept
           | split)

end Sys2Proof.Machine
end

