-- ==== Sys2Proof/Laws/KeptDma.lean ====
section
/-! SUPPORT. The operations of Machine/Dma.lean keep what `Kept` names. -/

namespace Sys2Proof.Machine

theorem writeLineAt_kept {z : State} {s : State} (h0 : Kept z s) (de : Fin 64) (r : DmaRun) (d : DmaD) (g : List Nat) (off : Nat) (b : List (Byte × Bool)) :
    Kept z (writeLineAt s de r d g off b).1 := by
  unfold writeLineAt
  repeat'
    (first | with_reducible assumption | with_reducible exact Kept.refl _ | intro _
           | (extract_lets +onlyGivenNames x; refine Kept.use (x := x) ?_ (fun _ => ?_) <;> [subst x; clear_value x])
           | (extract_lets +onlyGivenNames x; refine Kept.use_fst (x := x) ?_ (fun _ => ?_) <;> [subst x; clear_value x])
           | (extract_lets +onlyGivenNames x; have _y : _ → _ := x; subst x; beta_reduce)
           | (extract_lets +onlyGivenNames x; clear_value x) | (extract_lets +onlyGivenNames x; subst x)
           | with_reducible refine Kept.of_fst ?_ (by assumption) | with_reducible apply runWrite_kept
           | with_reducible apply writeHost_kept | with_reducible refine Kept.lit (by assumption) rfl ?_
           | with_reducible refine Kept.lit (Kept.of_fst ?_ (by assumption)) rfl ?_ | (apply Mem.wf_of; assumption; rfl) | split)

theorem beginPiece_kept {z : State} {s : State} (h0 : Kept z s) (de : Fin 64) (r : DmaRun) (d : DmaD) (g : List Nat) (p : Piece) :
    Kept z (beginPiece s de r d g p).1 := by
  unfold beginPiece
  repeat'
    (first | with_reducible assumption | with_reducible exact Kept.refl _ | intro _
           | (extract_lets +onlyGivenNames x; refine Kept.use (x := x) ?_ (fun _ => ?_) <;> [subst x; clear_value x])
           | (extract_lets +onlyGivenNames x; refine Kept.use_fst (x := x) ?_ (fun _ => ?_) <;> [subst x; clear_value x])
           | (extract_lets +onlyGivenNames x; have _y : _ → _ := x; subst x; beta_reduce)
           | (extract_lets +onlyGivenNames x; clear_value x) | with_reducible refine Kept.of_fst ?_ (by assumption)
           | with_reducible apply readHost_kept | with_reducible apply runAccess_kept
           | with_reducible refine Kept.lit (by assumption) rfl ?_
           | with_reducible refine Kept.lit (Kept.of_fst ?_ (by assumption)) rfl ?_ | (apply Mem.wf_of; assumption; rfl) | split)

theorem copyStep_kept {u s t : State} {b : DmaRun × Went} {de : Fin 64} {r : DmaRun} {d : DmaD} {g : List Nat} (h : Kept u s)
    (e : copyStep s de r d g = some (t, b)) : Kept u t := by
  unfold copyStep at e
  split at e
  · exact Kept.of_some (writeLineAt_kept h ..) e
  · exact Kept.of_some (beginPiece_kept h ..) e
  · cases e

theorem tallyStep_kept {u s t : State} {b : DmaRun × Went} {de : Fin 64} {r : DmaRun} {d : TallyOpD} (h : Kept u s)
    (e : tallyStep s de r d = some (t, b)) : Kept u t := by
  unfold tallyStep at e
  split at e
  · cases e
  · refine Kept.of_some ?_ e
    have w (hub tag : Nat) (r1 : DmaRun) (f : Nat → State → State) (hf : ∀ k t, Kept t (f k t)) :=
      sendFrom_kept (de := de) (r := r1) (read := false) (len := hub) (off := tag) h hf
    repeat' (first | exact h | exact refuseAs_kept h .. | exact (tallyOp_kept h ..).of_fst (by assumption)
                   | exact w _ _ _ _ fun _ t => sendTally_kept (Kept.refl t) .. | split)

theorem engineFor_kept {u s : State} {c : Packet} {k : Nat → State × Ending} (h : Kept u s) (hk : ∀ n, Kept u (k n).1) :
    Kept u (engineFor c k s).1 := by
  unfold engineFor
  try dsimp only
  repeat' (first | exact h | exact hk _ | split)

theorem dmaQueueAssignBody_kept {z : State} {s : State} (h0 : Kept z s) (c : Packet) (x0 : ReplyTo) :
    Kept z (dmaQueueAssignBody c s x0).1 := by
  unfold dmaQueueAssignBody
  repeat'
    (first | with_reducible assumption | with_reducible exact Kept.refl _ | intro _
           | (extract_lets +onlyGivenNames x; refine Kept.use (x := x) ?_ (fun _ => ?_) <;> [subst x; clear_value x])
           | (extract_lets +onlyGivenNames x; refine Kept.use_fst (x := x) ?_ (fun _ => ?_) <;> [subst x; clear_value x])
           | (extract_lets +onlyGivenNames x; have _y : _ → _ := x; subst x; beta_reduce)
           | (extract_lets +onlyGivenNames x; clear_value x) | with_reducible refine Kept.of_fst ?_ (by assumption)
           | with_reducible apply engineFor_kept | with_reducible apply reservedFrom_kept | with_reducible apply setEngine_kept
           | with_reducible refine Kept.lit (by assumption) rfl ?_ | with_reducible refine Kept.lit (Kept.refl _) rfl ?_
           | (apply Mem.wf_of; assumption; rfl) | split)

theorem dmaSubmitBody_kept {z : State} {s : State} (h0 : Kept z s) (c : Packet) (x0 : ReplyTo) :
    Kept z (dmaSubmitBody c s x0).1 := by
  unfold dmaSubmitBody
  repeat'
    (first | with_reducible assumption | with_reducible exact Kept.refl _ | intro _
           | (extract_lets +onlyGivenNames x; refine Kept.use (x := x) ?_ (fun _ => ?_) <;> [subst x; clear_value x])
           | (extract_lets +onlyGivenNames x; refine Kept.use_fst (x := x) ?_ (fun _ => ?_) <;> [subst x; clear_value x])
           | (extract_lets +onlyGivenNames x; have _y : _ → _ := x; subst x; beta_reduce)
           | (extract_lets +onlyGivenNames x; clear_value x) | with_reducible refine Kept.of_fst ?_ (by assumption)
           | with_reducible apply Kept.foldl | with_reducible apply Kept.foldl_fst | with_reducible apply engineFor_kept
           | with_reducible apply reservedFrom_kept | with_reducible apply setEngine_kept | split)

theorem dmaQueueReadBody_kept {z : State} {s : State} (h0 : Kept z s) (c : Packet) (x0 : ReplyTo) :
    Kept z (dmaQueueReadBody c s x0).1 := by
  unfold dmaQueueReadBody
  repeat'
    (first | with_reducible assumption | with_reducible exact Kept.refl _ | intro _
           | (extract_lets +onlyGivenNames x; refine Kept.use (x := x) ?_ (fun _ => ?_) <;> [subst x; clear_value x])
           | (extract_lets +onlyGivenNames x; refine Kept.use_fst (x := x) ?_ (fun _ => ?_) <;> [subst x; clear_value x])
           | (extract_lets +onlyGivenNames x; have _y : _ → _ := x; subst x; beta_reduce)
           | (extract_lets +onlyGivenNames x; clear_value x) | with_reducible refine Kept.of_fst ?_ (by assumption)
           | with_reducible apply engineFor_kept | with_reducible apply reservedFrom_kept | split)

theorem dmaFlushBody_kept {z : State} {s : State} (h0 : Kept z s) (c : Packet) (x0 : ReplyTo) :
    Kept z (dmaFlushBody c s x0).1 := by
  unfold dmaFlushBody
  repeat'
    (first | with_reducible assumption | with_reducible exact Kept.refl _ | intro _
           | (extract_lets +onlyGivenNames x; refine Kept.use (x := x) ?_ (fun _ => ?_) <;> [subst x; clear_value x])
           | (extract_lets +onlyGivenNames x; refine Kept.use_fst (x := x) ?_ (fun _ => ?_) <;> [subst x; clear_value x])
           | (extract_lets +onlyGivenNames x; have _y : _ → _ := x; subst x; beta_reduce)
           | (extract_lets +onlyGivenNames x; clear_value x) | with_reducible refine Kept.of_fst ?_ (by assumption)
           | with_reducible apply engineFor_kept | with_reducible apply reservedFrom_kept | with_reducible apply setEngine_kept
           | with_reducible refine Kept.lit (by assumption) rfl ?_ | with_reducible refine Kept.lit (Kept.refl _) rfl ?_
           | (apply Mem.wf_of; assumption; rfl) | split)

end Sys2Proof.Machine
end

