-- ==== Sys2Proof/Laws/KeptReduce.lean ====
section
/-! SUPPORT. The operations of Machine/Reduce.lean keep what `Kept` names. -/

namespace Sys2Proof.Machine

theorem poisonAt_kept {z : State} {s : State} (h0 : Kept z s) (a : Nat) :
    Kept z (poisonAt s a) := by
  unfold poisonAt
  repeat'
    (first | with_reducible assumption | with_reducible exact Kept.refl _ | intro _
           | (extract_lets +onlyGivenNames x; refine Kept.use (x := x) ?_ (fun _ => ?_) <;> [subst x; clear_value x])
           | (extract_lets +onlyGivenNames x; refine Kept.use_fst (x := x) ?_ (fun _ => ?_) <;> [subst x; clear_value x])
           | (extract_lets +onlyGivenNames x; have _y : _ → _ := x; subst x; beta_reduce)
           | (extract_lets +onlyGivenNames x; have _y : Mem := x; subst x) | (extract_lets +onlyGivenNames x; clear_value x)
           | with_reducible refine Kept.lit (by assumption) rfl ?_ | with_reducible apply Mem.taint_wf
           | (apply Mem.wf_of; assumption; rfl) | split)

theorem applyPacket_kept {z : State} {s : State} (h0 : Kept z s) (q : AtomReq) (k : MintPkt) :
    Kept z (applyPacket s q k).1 := by
  unfold applyPacket
  repeat'
    (first | with_reducible assumption | with_reducible exact Kept.refl _ | intro _
           | (extract_lets +onlyGivenNames x; refine Kept.use (x := x) ?_ (fun _ => ?_) <;> [subst x; clear_value x])
           | (extract_lets +onlyGivenNames x; refine Kept.use_fst (x := x) ?_ (fun _ => ?_) <;> [subst x; clear_value x])
           | (extract_lets +onlyGivenNames x; have _y : _ → _ := x; subst x; beta_reduce)
           | (extract_lets +onlyGivenNames x; clear_value x) | with_reducible refine Kept.of_fst ?_ (by assumption)
           | with_reducible apply Kept.foldl | with_reducible apply Kept.foldl_fst | with_reducible apply noteBusy_kept
           | with_reducible apply noteErrPacket_kept | with_reducible apply poisonAt_kept
           | with_reducible apply recordRefusal_kept | with_reducible apply stepCell_kept
           | with_reducible refine Kept.lit (by assumption) rfl ?_ | with_reducible refine Kept.lit (Kept.refl _) rfl ?_
           | with_reducible refine Kept.lit (Kept.of_fst ?_ (by assumption)) rfl ?_ | (apply Mem.wf_of; assumption; rfl) | split)

theorem takeMint_kept {z : State} {s : State} (h0 : Kept z s) (q : AtomReq) (k : Option MintPkt) :
    Kept z (takeMint s q k) := by
  unfold takeMint
  repeat'
    (first | with_reducible assumption | with_reducible exact Kept.refl _ | intro _
           | with_reducible refine Kept.of_fst ?_ (by assumption) | with_reducible apply applyPacket_kept
           | with_reducible apply emit_kept | with_reducible apply record_kept
           | with_reducible refine Kept.lit (by assumption) rfl ?_
           | with_reducible refine Kept.lit (Kept.of_fst ?_ (by assumption)) rfl ?_ | (apply Mem.wf_of; assumption; rfl) | split)

theorem takePacket_kept {z : State} {s : State} (h0 : Kept z s) (part : Nat) (bytes : Bytes) :
    Kept z (takePacket s part bytes) := by
  unfold takePacket
  repeat'
    (first | with_reducible assumption | with_reducible exact Kept.refl _ | intro _
           | (extract_lets +onlyGivenNames x; refine Kept.use (x := x) ?_ (fun _ => ?_) <;> [subst x; clear_value x])
           | (extract_lets +onlyGivenNames x; refine Kept.use_fst (x := x) ?_ (fun _ => ?_) <;> [subst x; clear_value x])
           | (extract_lets +onlyGivenNames x; have _y : _ → _ := x; subst x; beta_reduce)
           | (extract_lets +onlyGivenNames x; clear_value x) | with_reducible apply takeMint_kept
           | with_reducible refine Kept.lit (by assumption) rfl ?_
           | with_reducible refine Kept.lit (Kept.of_fst ?_ (by assumption)) rfl ?_ | (apply Mem.wf_of; assumption; rfl) | split)

theorem cellStep_kept {z : State} {s : State} (h0 : Kept z s) (de : Nat) (r : DmaRun) (a : Nat) (op : AtomOp) :
    Kept z (cellStep s de r a op).1 := by
  unfold cellStep
  repeat'
    (first | with_reducible assumption | with_reducible exact Kept.refl _ | intro _
           | (extract_lets +onlyGivenNames x; refine Kept.use (x := x) ?_ (fun _ => ?_) <;> [subst x; clear_value x])
           | (extract_lets +onlyGivenNames x; refine Kept.use_fst (x := x) ?_ (fun _ => ?_) <;> [subst x; clear_value x])
           | (extract_lets +onlyGivenNames x; have _y : _ → _ := x; subst x; beta_reduce)
           | (extract_lets +onlyGivenNames x; clear_value x) | with_reducible refine Kept.of_fst ?_ (by assumption)
           | with_reducible apply recordFor_kept | with_reducible apply setCell_kept
           | with_reducible refine Kept.lit (by assumption) rfl ?_
           | with_reducible refine Kept.lit (Kept.of_fst ?_ (by assumption)) rfl ?_ | (apply Mem.wf_of; assumption; rfl) | split)

theorem granaryAt_kept {u s : State} (h : Kept u s) (de : Fin 64) (r : DmaRun) (g : List Nat) (va n : Nat) (far : Bool) :
    KeptPart u (granaryAt s de r g va n far) := by
  unfold granaryAt
  refine (locate_kept h ..).bind fun t b k => ?_
  dsimp only
  repeat' (first | exact k | split)

theorem takeCell_kept {u s : State} (h : Kept u s) (de : Fin 64) (r : DmaRun) (g : List Nat) (va : Nat) :
    KeptPart u (takeCell s de r g va) := by
  unfold takeCell
  refine (granaryAt_kept h ..).bind fun t b k => ?_
  dsimp only
  split
  · exact recordFor_kept (setCell_kept k ..) ..
  · exact setCell_kept k ..

theorem takeBytes_kept {u s : State} (h : Kept u s) (de : Fin 64) (r : DmaRun) (g : List Nat) (va n : Nat) (bin : Bool) :
    KeptPart u (takeBytes s de r g va n bin) := by
  unfold takeBytes
  refine (locate_kept h ..).bind fun t b k => ?_
  dsimp only
  repeat' (first | exact k | exact ask_kept k .. | split)

theorem addSource_kept {u s : State} (h : Kept u s) (de : Fin 64) (r : DmaRun) (g : List Nat) (d : RedD) (src : Nat) :
    KeptPart u (addSource s de r g d src) := by
  unfold addSource
  refine (takeBytes_kept h ..).bind fun t b k => ?_
  refine (takeBytes_kept k ..).bind fun t2 b2 k2 => ?_
  exact notePoison_kept k2 ..

theorem wordSource_kept {u s : State} (h : Kept u s) (de : Fin 64) (r : DmaRun) (g : List Nat) (d : RedD) (src : Nat) :
    KeptPart u (wordSource s de r g d src) := by
  unfold wordSource
  dsimp only
  split
  · exact h
  · split
    · exact (addSource_kept h ..).bind fun _ _ k => k
    · exact (takeCell_kept h ..).bind fun _ _ k => k

theorem nextWord_kept {u s : State} (h : Kept u s) (de : Fin 64) (r : DmaRun) (g : List Nat) (d : RedD) :
    KeptPart u (nextWord s de r g d) := by
  unfold nextWord
  refine (wordSource_kept h ..).bind fun t b k => ?_
  exact (granaryAt_kept k ..).bind fun _ _ k2 => k2

theorem fillPacket_kept {u s : State} (h : Kept u s) (de : Fin 64) (g : List Nat) (d : RedD) (n : Nat) (r : DmaRun)
    (cur : Option MintPkt) : KeptPart u (fillPacket de g d n s r cur) := by
  induction n generalizing s r cur with
  | zero => exact h
  | succ n ih =>
    unfold fillPacket
    have w := nextWord_kept h de r g d
    split
    · exact h
    · generalize nextWord s de r g d = x at w
      rcases x with ⟨t, e⟩ | ⟨t, r1, k⟩
      · cases e <;> cases cur <;> first | exact w | exact h
      · cases cur with
        | none => exact ih w ..
        | some c =>
          dsimp only
          split
          · exact ih w ..
          · exact h

theorem sendPkt_kept {z : State} {s : State} (h0 : Kept z s) (de : Fin 64) (r : DmaRun) (compact : Bool) (k : MintPkt) :
    Kept z (sendPkt s de r compact k).1 := by
  unfold sendPkt
  repeat'
    (first | with_reducible assumption | with_reducible exact Kept.refl _ | intro _
           | (extract_lets +onlyGivenNames x; refine Kept.use (x := x) ?_ (fun _ => ?_) <;> [subst x; clear_value x])
           | (extract_lets +onlyGivenNames x; refine Kept.use_fst (x := x) ?_ (fun _ => ?_) <;> [subst x; clear_value x])
           | (extract_lets +onlyGivenNames x; have _y : _ → _ := x; subst x; beta_reduce)
           | (extract_lets +onlyGivenNames x; clear_value x) | (extract_lets +onlyGivenNames x; subst x)
           | with_reducible refine Kept.of_fst ?_ (by assumption) | with_reducible apply Kept.foldl
           | with_reducible apply Kept.foldl_fst | with_reducible apply cellStep_kept | with_reducible apply poisonAt_kept
           | with_reducible apply sendFrom_kept | with_reducible apply sendPacket_kept
           | with_reducible refine Kept.lit (by assumption) rfl ?_ | with_reducible refine Kept.lit (Kept.refl _) rfl ?_
           | with_reducible refine Kept.lit (Kept.of_fst ?_ (by assumption)) rfl ?_ | (apply Mem.wf_of; assumption; rfl) | split)

theorem packetStep_kept {u s : State} (h : Kept u s) (de : Fin 64) (r : DmaRun) (g : List Nat) (d : RedD) :
    Kept u (packetStep s de r g d).1 := by
  have k := fillPacket_kept h de g d 16 r none
  unfold packetStep
  repeat' (first | exact h | exact holdRun_kept h .. | exact haltRun_kept (k.of_halt (by assumption)) ..
                 | exact sendPkt_kept (k.of_eq (by assumption)) .. | split)

theorem readStep_kept {u s t : State} {b : DmaRun × Went} {de : Fin 64} {r : DmaRun} {g : List Nat} {d : RedD} (h : Kept u s)
    (e : readStep s de r g d = some (t, b)) : Kept u t := by
  unfold readStep at e
  split at e
  split at e
  · split at e
    have k := (runWrite_kept h ..).of_fst (by assumption)
    refine Kept.of_some ?_ e
    split <;> exact k
  · split at e
    · cases e
    · refine Kept.of_some ?_ e
      split <;> rename_i f
      · exact haltRun_kept ((takeCell_kept h ..).of_halt f) ..
      · exact (takeCell_kept h ..).of_eq f

theorem nextElement_kept {u s : State} (h : Kept u s) (de : Fin 64) (r : DmaRun) (g : List Nat) (d : RedD) :
    KeptPart u (nextElement s de r g d) := by
  unfold nextElement
  refine (takeBytes_kept h ..).bind fun t b k => ?_
  refine (granaryAt_kept k ..).bind fun t2 b2 k2 => ?_
  exact notePoison_kept k2 ..

theorem elementStep_kept {u s : State} (h : Kept u s) (de : Fin 64) (r : DmaRun) (g : List Nat) (d : RedD) :
    Kept u (elementStep s de r g d).1 := by
  have k := nextElement_kept h de r g d
  unfold elementStep
  dsimp only
  split <;> rename_i e
  · exact holdRun_kept h ..
  · exact haltRun_kept (k.of_halt e) ..
  · split
    · exact h
    · exact sendFrom_kept (k.of_eq e) fun _ t => sendUnder_kept (Kept.refl t) ..
  · dsimp only
    split
    · exact poisonAt_kept (k.of_eq e) ..
    · exact capture_kept (k.of_eq e) fun t => applyElem_kept (Kept.refl t) ..

theorem redStep_kept {u s t : State} {b : DmaRun × Went} {de : Fin 64} {r : DmaRun} {g : List Nat} {d : RedD} (h : Kept u s)
    (e : redStep s de r d g = some (t, b)) : Kept u t := by
  unfold redStep at e
  dsimp only at e
  split at e
  · exact readStep_kept h e
  · split at e
    · cases e
    · refine Kept.of_some ?_ e
      split
      · exact elementStep_kept h ..
      · exact packetStep_kept h ..

end Sys2Proof.Machine
end

