-- ==== Sys2Proof/Laws/KeptProgress.lean ====
section
/-! SUPPORT. The operations of Machine/Progress.lean keep what `Kept` names. -/

namespace Sys2Proof.Machine

theorem stepRun_kept {u s t : State} {b : DmaRun × Went} {de : Fin 64} {r : DmaRun} {g : List Nat} (h : Kept u s)
    (e : stepRun s de r g = some (t, b)) : Kept u t := by
  unfold stepRun at e
  repeat' (first | cases e | exact statusStep_kept h e | exact copyStep_kept h e | exact tallyStep_kept h e | exact redStep_kept h e
                 | split at e)

theorem pumpSteps_kept {z : State} {z1 : State} (h0 : Kept z z1) (z0 : Nat) (z2 : Fin 64) (z3 : Bool) (z4 : List Nat) :
    Kept z (pumpSteps z0 z1 z2 z3 z4) := by
  induction z0 generalizing z1 z2 z3 z4 z with
  | zero =>
    rw [pumpSteps]
    repeat'
      (first | with_reducible assumption | with_reducible exact Kept.refl _ | intro _ | with_reducible apply setRun_kept
             | with_reducible refine stepRun_kept ?_ (by assumption) | split)
  | succ k ih =>
    rw [pumpSteps]
    repeat'
      (first | with_reducible assumption | with_reducible exact Kept.refl _ | intro _ | with_reducible apply ih
             | with_reducible apply setRun_kept | with_reducible refine stepRun_kept ?_ (by assumption) | split)

theorem pump_kept {z : State} {s : State} (h0 : Kept z s) (de : Fin 64) (c : Bool) (g : List Nat) :
    Kept z (pump s de c g) := by
  unfold pump
  repeat'
    (first | with_reducible assumption | with_reducible exact Kept.refl _ | intro _
           | (extract_lets +onlyGivenNames x; refine Kept.use (x := x) ?_ (fun _ => ?_) <;> [subst x; clear_value x])
           | (extract_lets +onlyGivenNames x; refine Kept.use_fst (x := x) ?_ (fun _ => ?_) <;> [subst x; clear_value x])
           | (extract_lets +onlyGivenNames x; have _y : _ → _ := x; subst x; beta_reduce)
           | (extract_lets +onlyGivenNames x; clear_value x) | with_reducible apply finishRun_kept
           | with_reducible apply pumpSteps_kept | split)

theorem pumpAll_kept {z : State} {s : State} (h0 : Kept z s) :
    Kept z (pumpAll s) := by
  unfold pumpAll
  repeat'
    (first | with_reducible assumption | with_reducible exact Kept.refl _ | intro _ | with_reducible apply Kept.foldl
           | with_reducible apply Kept.foldl_fst | with_reducible apply pump_kept | split)

theorem unblock_kept {z : State} {s : State} (h0 : Kept z s) (de : Nat) (c : Bool) :
    Kept z (unblock s de c) := by
  unfold unblock
  repeat'
    (first | with_reducible assumption | with_reducible exact Kept.refl _ | intro _ | with_reducible apply drainWaiting_kept
           | with_reducible apply leave_kept | split)

theorem stopRun_kept {z : State} {s : State} (h0 : Kept z s) (de : Nat) (r : DmaRun) :
    Kept z (stopRun s de r).1 := by
  unfold stopRun
  repeat'
    (first | with_reducible assumption | with_reducible exact Kept.refl _ | intro _
           | (extract_lets +onlyGivenNames x; refine Kept.use (x := x) ?_ (fun _ => ?_) <;> [subst x; clear_value x])
           | (extract_lets +onlyGivenNames x; refine Kept.use_fst (x := x) ?_ (fun _ => ?_) <;> [subst x; clear_value x])
           | (extract_lets +onlyGivenNames x; have _y : _ → _ := x; subst x; beta_reduce)
           | (extract_lets +onlyGivenNames x; clear_value x) | with_reducible refine Kept.of_fst ?_ (by assumption)
           | with_reducible apply unblock_kept | with_reducible refine Kept.lit (by assumption) rfl ?_
           | (apply Mem.wf_of; assumption; rfl) | split)

theorem engineGoes_kept {z : State} {s : State} (h0 : Kept z s) (de : Fin 64) (c : Bool) (g : List Nat) :
    Kept z (engineGoes s de c g) := by
  unfold engineGoes
  repeat'
    (first | with_reducible assumption | with_reducible exact Kept.refl _ | intro _
           | (extract_lets +onlyGivenNames x; refine Kept.use (x := x) ?_ (fun _ => ?_) <;> [subst x; clear_value x])
           | (extract_lets +onlyGivenNames x; refine Kept.use_fst (x := x) ?_ (fun _ => ?_) <;> [subst x; clear_value x])
           | (extract_lets +onlyGivenNames x; have _y : _ → _ := x; subst x; beta_reduce)
           | (extract_lets +onlyGivenNames x; clear_value x) | with_reducible apply pump_kept | with_reducible apply setRun_kept
           | with_reducible refine Kept.lit (by assumption) rfl ?_
           | with_reducible refine Kept.lit (Kept.of_fst ?_ (by assumption)) rfl ?_ | (apply Mem.wf_of; assumption; rfl) | split)

theorem arrangeEngine_kept {z : State} {s : State} (h0 : Kept z s) (de : Fin 64) :
    Kept z (arrangeEngine s de) := by
  unfold arrangeEngine
  repeat'
    (first | with_reducible assumption | with_reducible exact Kept.refl _ | intro _
           | (extract_lets +onlyGivenNames x; refine Kept.use (x := x) ?_ (fun _ => ?_) <;> [subst x; clear_value x])
           | (extract_lets +onlyGivenNames x; refine Kept.use_fst (x := x) ?_ (fun _ => ?_) <;> [subst x; clear_value x])
           | (extract_lets +onlyGivenNames x; have _y : _ → _ := x; subst x; beta_reduce)
           | (extract_lets +onlyGivenNames x; clear_value x) | with_reducible apply pump_kept
           | with_reducible apply setEngine_kept | with_reducible refine Kept.lit (by assumption) rfl ?_
           | with_reducible refine Kept.lit (Kept.of_fst ?_ (by assumption)) rfl ?_ | (apply Mem.wf_of; assumption; rfl) | split)

theorem startRun_kept {z : State} {s : State} (h0 : Kept z s) (de : Fin 64) (r : DmaRun) :
    Kept z (startRun s de r) := by
  unfold startRun
  repeat'
    (first | with_reducible assumption | with_reducible exact Kept.refl _ | intro _
           | (extract_lets +onlyGivenNames x; refine Kept.use (x := x) ?_ (fun _ => ?_) <;> [subst x; clear_value x])
           | (extract_lets +onlyGivenNames x; refine Kept.use_fst (x := x) ?_ (fun _ => ?_) <;> [subst x; clear_value x])
           | (extract_lets +onlyGivenNames x; have _y : _ → _ := x; subst x; beta_reduce)
           | (extract_lets +onlyGivenNames x; clear_value x) | with_reducible refine Kept.of_fst ?_ (by assumption)
           | with_reducible apply pump_kept | with_reducible apply refuseRun_kept | with_reducible apply setRun_kept | split)

theorem closeRun_kept {z : State} {s : State} (h0 : Kept z s) (de : Fin 64) (r : DmaRun) :
    Kept z (closeRun s de r) := by
  unfold closeRun
  repeat'
    (first | with_reducible assumption | with_reducible exact Kept.refl _ | intro _ | with_reducible apply pump_kept
           | with_reducible apply setRun_kept | split)

theorem offer_kept {u s : State} (h : Kept u s) (de : Fin 64) (r : DmaRun) : Kept u (offer s de r) := by
  have g := gate_kept (wakeJob_kept h (workOf de r.isCmd) r.job) (workOf de r.isCmd) r.desc.c r.part r.desc.b.hub
  unfold offer
  dsimp only
  repeat' (first | exact h | exact g.of_fst (by assumption) | exact closeRun_kept (setMoved_kept (g.of_fst (by assumption)) ..) ..
                 | exact startRun_kept (setMoved_kept (g.of_fst (by assumption)) ..) .. | split)

theorem runAnswered_kept {z : State} {s : State} (h0 : Kept z s) (n : Nat) (r : DmaRun) :
    Kept z (runAnswered s n r) := by
  unfold runAnswered
  repeat'
    (first | with_reducible assumption | with_reducible exact Kept.refl _ | intro _
           | (extract_lets +onlyGivenNames x; refine Kept.use (x := x) ?_ (fun _ => ?_) <;> [subst x; clear_value x])
           | (extract_lets +onlyGivenNames x; refine Kept.use_fst (x := x) ?_ (fun _ => ?_) <;> [subst x; clear_value x])
           | (extract_lets +onlyGivenNames x; have _y : _ → _ := x; subst x; beta_reduce)
           | (extract_lets +onlyGivenNames x; clear_value x) | with_reducible apply arrangeEngine_kept
           | with_reducible apply finishRun_kept | with_reducible apply pumpAll_kept | with_reducible apply putRun_kept
           | with_reducible apply settleInvals_kept | split)

theorem readArrives_kept {z : State} {s : State} (h0 : Kept z s) (n : Nat) (r : DmaRun) (q : HostReq) (b : List (Byte × Bool)) :
    Kept z (readArrives s n r q b) := by
  unfold readArrives
  repeat'
    (first | with_reducible assumption | with_reducible exact Kept.refl _ | intro _ | with_reducible apply runAnswered_kept
           | split)

theorem writeAcked_kept {z : State} {s : State} (h0 : Kept z s) (n : Nat) (r : DmaRun) (q : HostReq) (causes : Nat) (lost : Bool) :
    Kept z (writeAcked s n r q causes lost) := by
  unfold writeAcked
  repeat'
    (first | with_reducible assumption | with_reducible exact Kept.refl _ | intro _
           | (extract_lets +onlyGivenNames x; refine Kept.use (x := x) ?_ (fun _ => ?_) <;> [subst x; clear_value x])
           | (extract_lets +onlyGivenNames x; refine Kept.use_fst (x := x) ?_ (fun _ => ?_) <;> [subst x; clear_value x])
           | (extract_lets +onlyGivenNames x; have _y : _ → _ := x; subst x; beta_reduce)
           | (extract_lets +onlyGivenNames x; clear_value x) | with_reducible apply runAnswered_kept
           | with_reducible refine Kept.lit (by assumption) rfl ?_ | (apply Mem.wf_of; assumption; rfl) | split)

theorem reqRefused_kept {z : State} {s : State} (h0 : Kept z s) (n : Nat) (r : DmaRun) (q : HostReq) :
    Kept z (reqRefused s n r q) := by
  unfold reqRefused
  repeat'
    (first | with_reducible assumption | with_reducible exact Kept.refl _ | intro _
           | (extract_lets +onlyGivenNames x; refine Kept.use (x := x) ?_ (fun _ => ?_) <;> [subst x; clear_value x])
           | (extract_lets +onlyGivenNames x; refine Kept.use_fst (x := x) ?_ (fun _ => ?_) <;> [subst x; clear_value x])
           | (extract_lets +onlyGivenNames x; have _y : _ → _ := x; subst x; beta_reduce)
           | (extract_lets +onlyGivenNames x; clear_value x) | with_reducible refine Kept.of_fst ?_ (by assumption)
           | with_reducible apply refuseRun_kept | with_reducible apply runAnswered_kept | split)

end Sys2Proof.Machine
end

