-- ==== Sys2Proof/Laws/KeptSites.lean ====
section
/-! SUPPORT. The operations of Machine/Sites.lean keep what `Kept` names. -/

namespace Sys2Proof.Machine

theorem toChiplet_kept {z : State} {s : State} (h0 : Kept z s) (n op sub tag addr : Nat) (d : Bytes) (poison : List Bool) :
    Kept z (toChiplet s n op sub tag addr d poison) := by
  unfold toChiplet
  repeat'
    (first | with_reducible assumption | with_reducible exact Kept.refl _ | intro _ | with_reducible apply emit_kept | split)

theorem siteErr_kept {z : State} {s : State} (h0 : Kept z s) (n tag : Nat) :
    Kept z (siteErr s n tag) := by
  unfold siteErr
  repeat'
    (first | with_reducible assumption | with_reducible exact Kept.refl _ | intro _
           | (extract_lets +onlyGivenNames x; refine Kept.use (x := x) ?_ (fun _ => ?_) <;> [subst x; clear_value x])
           | (extract_lets +onlyGivenNames x; refine Kept.use_fst (x := x) ?_ (fun _ => ?_) <;> [subst x; clear_value x])
           | (extract_lets +onlyGivenNames x; have _y : _ → _ := x; subst x; beta_reduce)
           | (extract_lets +onlyGivenNames x; clear_value x) | with_reducible apply takeFresh_kept
           | with_reducible apply toChiplet_kept | split)

theorem answerChiplet_kept {z : State} {s : State} (h0 : Kept z s) (n op tag width : Nat) (o : Option Output) :
    Kept z (answerChiplet s n op tag width o) := by
  unfold answerChiplet
  repeat'
    (first | with_reducible assumption | with_reducible exact Kept.refl _ | intro _
           | (extract_lets +onlyGivenNames x; refine Kept.use (x := x) ?_ (fun _ => ?_) <;> [subst x; clear_value x])
           | (extract_lets +onlyGivenNames x; refine Kept.use_fst (x := x) ?_ (fun _ => ?_) <;> [subst x; clear_value x])
           | (extract_lets +onlyGivenNames x; have _y : _ → _ := x; subst x; beta_reduce)
           | (extract_lets +onlyGivenNames x; clear_value x) | (extract_lets +onlyGivenNames x; subst x)
           | with_reducible apply siteErr_kept | with_reducible apply toChiplet_kept | split)

theorem countCall_kept {z : State} {s : State} (h0 : Kept z s) (n bytes : Nat) (poison : Bool) :
    Kept z (countCall s n bytes poison) := by
  unfold countCall
  repeat'
    (first | with_reducible assumption | with_reducible exact Kept.refl _ | intro _
           | (extract_lets +onlyGivenNames x; refine Kept.use (x := x) ?_ (fun _ => ?_) <;> [subst x; clear_value x])
           | (extract_lets +onlyGivenNames x; refine Kept.use_fst (x := x) ?_ (fun _ => ?_) <;> [subst x; clear_value x])
           | (extract_lets +onlyGivenNames x; have _y : _ → _ := x; subst x; beta_reduce)
           | (extract_lets +onlyGivenNames x; clear_value x) | with_reducible apply setSite_kept
           | with_reducible refine Kept.lit (by assumption) rfl ?_
           | with_reducible refine Kept.lit (Kept.of_fst ?_ (by assumption)) rfl ?_ | (apply Mem.wf_of; assumption; rfl) | split)

theorem callRec_kept {z : State} {s : State} (h0 : Kept z s) (n : Nat) (r : SiteRun) (cls addr : Nat) :
    Kept z (callRec s n r cls addr) := by
  unfold callRec
  repeat'
    (first | with_reducible assumption | with_reducible exact Kept.refl _ | intro _
           | (extract_lets +onlyGivenNames x; refine Kept.use (x := x) ?_ (fun _ => ?_) <;> [subst x; clear_value x])
           | (extract_lets +onlyGivenNames x; refine Kept.use_fst (x := x) ?_ (fun _ => ?_) <;> [subst x; clear_value x])
           | (extract_lets +onlyGivenNames x; have _y : _ → _ := x; subst x; beta_reduce)
           | (extract_lets +onlyGivenNames x; clear_value x) | with_reducible apply recordIn_kept
           | with_reducible refine Kept.lit (by assumption) rfl ?_ | (apply Mem.wf_of; assumption; rfl) | split)

theorem closeCall_kept {z : State} {s : State} (h0 : Kept z s) (n : Nat) (r : SiteRun) :
    Kept z (closeCall s n r) := by
  unfold closeCall
  repeat'
    (first | with_reducible assumption | with_reducible exact Kept.refl _ | intro _
           | (extract_lets +onlyGivenNames x; refine Kept.use (x := x) ?_ (fun _ => ?_) <;> [subst x; clear_value x])
           | (extract_lets +onlyGivenNames x; refine Kept.use_fst (x := x) ?_ (fun _ => ?_) <;> [subst x; clear_value x])
           | (extract_lets +onlyGivenNames x; have _y : _ → _ := x; subst x; beta_reduce)
           | (extract_lets +onlyGivenNames x; clear_value x) | with_reducible apply endGroups_kept
           | with_reducible apply passDesc_kept | with_reducible apply raiseTo_kept | with_reducible apply setMoved_kept
           | with_reducible apply setSite_kept | with_reducible apply settleInvals_kept
           | with_reducible refine Kept.lit (by assumption) rfl ?_
           | with_reducible refine Kept.lit (Kept.of_fst ?_ (by assumption)) rfl ?_ | (apply Mem.wf_of; assumption; rfl) | split)

theorem markSent_kept {z : State} {s : State} (h0 : Kept z s) (n : Nat) (r : SiteRun) :
    Kept z (markSent s n r) := by
  unfold markSent
  repeat'
    (first | with_reducible assumption | with_reducible exact Kept.refl _ | intro _
           | (extract_lets +onlyGivenNames x; refine Kept.use (x := x) ?_ (fun _ => ?_) <;> [subst x; clear_value x])
           | (extract_lets +onlyGivenNames x; refine Kept.use_fst (x := x) ?_ (fun _ => ?_) <;> [subst x; clear_value x])
           | (extract_lets +onlyGivenNames x; have _y : _ → _ := x; subst x; beta_reduce)
           | (extract_lets +onlyGivenNames x; clear_value x) | with_reducible apply setSite_kept
           | with_reducible refine Kept.lit (by assumption) rfl ?_ | (apply Mem.wf_of; assumption; rfl) | split)

theorem waitCall_kept {z : State} {s : State} (h0 : Kept z s) (n : Nat) (lines : List Nat) (share tick : Bool) :
    Kept z (waitCall s n lines share tick) := by
  unfold waitCall
  repeat'
    (first | with_reducible assumption | with_reducible exact Kept.refl _ | intro _ | with_reducible apply enqueue_kept | split)

theorem endCall_kept {z : State} {s : State} (h0 : Kept z s) (n : Nat) (r0 : SiteRun) (g : List Nat) :
    Kept z (endCall s n r0 g) := by
  unfold endCall
  repeat'
    (first | with_reducible assumption | with_reducible exact Kept.refl _ | intro _
           | (extract_lets +onlyGivenNames x; refine Kept.use (x := x) ?_ (fun _ => ?_) <;> [subst x; clear_value x])
           | (extract_lets +onlyGivenNames x; refine Kept.use_fst (x := x) ?_ (fun _ => ?_) <;> [subst x; clear_value x])
           | (extract_lets +onlyGivenNames x; have _y : _ → _ := x; subst x; beta_reduce)
           | (extract_lets +onlyGivenNames x; have _y : Mem := x; subst x) | (extract_lets +onlyGivenNames x; clear_value x)
           | with_reducible refine Kept.of_fst ?_ (by assumption) | with_reducible apply asDescriptor_kept
           | with_reducible apply askFor_kept | with_reducible apply callRec_kept | with_reducible apply closeCall_kept
           | with_reducible apply markSent_kept | with_reducible apply memoryRequest_kept | with_reducible apply sendAccess_kept
           | with_reducible apply setSite_kept | with_reducible apply translate_kept | with_reducible apply waitCall_kept
           | with_reducible refine Kept.lit (by assumption) rfl ?_ | with_reducible refine Kept.lit (Kept.refl _) rfl ?_
           | with_reducible refine Kept.lit (Kept.of_fst ?_ (by assumption)) rfl ?_ | (apply Mem.wf_of; assumption; rfl) | split)

theorem finishSite_kept {z : State} {s : State} (h0 : Kept z s) (g : List Nat) (n : Nat) :
    Kept z (finishSite g s n) := by
  unfold finishSite
  repeat'
    (first | with_reducible assumption | with_reducible exact Kept.refl _ | intro _ | with_reducible apply endCall_kept | split)

theorem statusAcked_kept {z : State} {s : State} (h0 : Kept z s) (n : Nat) :
    Kept z (statusAcked s n) := by
  unfold statusAcked
  repeat'
    (first | with_reducible assumption | with_reducible exact Kept.refl _ | intro _
           | (extract_lets +onlyGivenNames x; refine Kept.use (x := x) ?_ (fun _ => ?_) <;> [subst x; clear_value x])
           | (extract_lets +onlyGivenNames x; refine Kept.use_fst (x := x) ?_ (fun _ => ?_) <;> [subst x; clear_value x])
           | (extract_lets +onlyGivenNames x; have _y : _ → _ := x; subst x; beta_reduce)
           | (extract_lets +onlyGivenNames x; clear_value x) | with_reducible apply closeCall_kept | split)

theorem faultCall_kept {z : State} {s : State} (h0 : Kept z s) (n : Nat) (r : SiteRun) :
    Kept z (faultCall s n r) := by
  unfold faultCall
  repeat'
    (first | with_reducible assumption | with_reducible exact Kept.refl _ | intro _
           | (extract_lets +onlyGivenNames x; refine Kept.use (x := x) ?_ (fun _ => ?_) <;> [subst x; clear_value x])
           | (extract_lets +onlyGivenNames x; refine Kept.use_fst (x := x) ?_ (fun _ => ?_) <;> [subst x; clear_value x])
           | (extract_lets +onlyGivenNames x; have _y : _ → _ := x; subst x; beta_reduce)
           | (extract_lets +onlyGivenNames x; clear_value x) | with_reducible apply endCall_kept
           | with_reducible apply setSite_kept | with_reducible refine Kept.lit (by assumption) rfl ?_
           | (apply Mem.wf_of; assumption; rfl) | split)

theorem siteDown_kept {z : State} {s : State} (h0 : Kept z s) (n : Nat) (flushed : Bool) :
    Kept z (siteDown s n flushed) := by
  unfold siteDown
  repeat'
    (first | with_reducible assumption | with_reducible exact Kept.refl _ | intro _
           | (extract_lets +onlyGivenNames x; refine Kept.use (x := x) ?_ (fun _ => ?_) <;> [subst x; clear_value x])
           | (extract_lets +onlyGivenNames x; refine Kept.use_fst (x := x) ?_ (fun _ => ?_) <;> [subst x; clear_value x])
           | (extract_lets +onlyGivenNames x; have _y : _ → _ := x; subst x; beta_reduce)
           | (extract_lets +onlyGivenNames x; clear_value x) | with_reducible apply Kept.foldl
           | with_reducible apply Kept.foldl_fst | with_reducible apply faultCall_kept | with_reducible apply fence_kept
           | with_reducible apply record_kept | with_reducible apply setSite_kept | with_reducible apply tariffChanged_kept
           | with_reducible refine Kept.lit (by assumption) rfl ?_ | with_reducible refine Kept.lit (Kept.refl _) rfl ?_
           | (apply Mem.wf_of; assumption; rfl) | split)

theorem siteTally_kept {z : State} {s : State} (h0 : Kept z s) (p : SitePkt) :
    Kept z (siteTally s p) := by
  unfold siteTally
  repeat'
    (first | with_reducible assumption | with_reducible exact Kept.refl _ | intro _
           | (extract_lets +onlyGivenNames x; refine Kept.use (x := x) ?_ (fun _ => ?_) <;> [subst x; clear_value x])
           | (extract_lets +onlyGivenNames x; refine Kept.use_fst (x := x) ?_ (fun _ => ?_) <;> [subst x; clear_value x])
           | (extract_lets +onlyGivenNames x; have _y : _ → _ := x; subst x; beta_reduce)
           | (extract_lets +onlyGivenNames x; clear_value x) | with_reducible apply refuse_kept
           | with_reducible apply tallyWrite_kept | with_reducible refine Kept.lit (by assumption) rfl ?_
           | with_reducible refine Kept.lit (Kept.of_fst ?_ (by assumption)) rfl ?_ | (apply Mem.wf_of; assumption; rfl) | split)

theorem serveChiplet_kept {z : State} {s : State} (h0 : Kept z s) (op : Nat) (p : SitePkt) (a : Option SiteAtom) :
    Kept z (serveChiplet s op p a) := by
  unfold serveChiplet
  repeat'
    (first | with_reducible assumption | with_reducible exact Kept.refl _ | intro _
           | (extract_lets +onlyGivenNames x; refine Kept.use (x := x) ?_ (fun _ => ?_) <;> [subst x; clear_value x])
           | (extract_lets +onlyGivenNames x; refine Kept.use_fst (x := x) ?_ (fun _ => ?_) <;> [subst x; clear_value x])
           | (extract_lets +onlyGivenNames x; have _y : _ → _ := x; subst x; beta_reduce)
           | (extract_lets +onlyGivenNames x; have _y : Mem := x; subst x) | (extract_lets +onlyGivenNames x; clear_value x)
           | (extract_lets +onlyGivenNames x; subst x) | with_reducible refine Kept.of_fst ?_ (by assumption)
           | with_reducible apply answerChiplet_kept | with_reducible apply askFor_kept | with_reducible apply atomNow_kept
           | with_reducible apply countCall_kept | with_reducible apply memoryRequest_kept | with_reducible apply siteTally_kept
           | with_reducible refine Kept.lit (by assumption) rfl ?_ | with_reducible refine Kept.lit (Kept.refl _) rfl ?_
           | with_reducible refine Kept.lit (Kept.of_fst ?_ (by assumption)) rfl ?_ | (apply Mem.wf_of; assumption; rfl)
           | exact Kept.refl _ | split)

theorem siteAbroad_kept {z : State} {s : State} (h0 : Kept z s) (op : Nat) (p : SitePkt) :
    Kept z (siteAbroad s op p) := by
  unfold siteAbroad
  repeat'
    (first | with_reducible assumption | with_reducible exact Kept.refl _ | intro _
           | (extract_lets +onlyGivenNames x; refine Kept.use (x := x) ?_ (fun _ => ?_) <;> [subst x; clear_value x])
           | (extract_lets +onlyGivenNames x; refine Kept.use_fst (x := x) ?_ (fun _ => ?_) <;> [subst x; clear_value x])
           | (extract_lets +onlyGivenNames x; have _y : _ → _ := x; subst x; beta_reduce)
           | (extract_lets +onlyGivenNames x; clear_value x) | with_reducible refine Kept.of_fst ?_ (by assumption)
           | with_reducible apply recordRefusal_kept | with_reducible apply sendAccess_kept | with_reducible apply sendTo_kept
           | with_reducible apply setSite_kept | with_reducible apply siteErr_kept
           | with_reducible refine Kept.lit (by assumption) rfl ?_
           | with_reducible refine Kept.lit (Kept.of_fst ?_ (by assumption)) rfl ?_ | (apply Mem.wf_of; assumption; rfl)
           | exact Kept.refl _ | split)

theorem refuseForm_kept {z : State} {s : State} (h0 : Kept z s) (p : SitePkt) :
    Kept z (refuseForm s p) := by
  unfold refuseForm
  repeat'
    (first | with_reducible assumption | with_reducible exact Kept.refl _ | intro _ | with_reducible apply record_kept
           | with_reducible apply siteErr_kept | split)

theorem chipletSends_kept {z : State} {s : State} (h0 : Kept z s) (op : Nat) (p : SitePkt) (a : Option SiteAtom) :
    Kept z (chipletSends s op p a) := by
  unfold chipletSends
  repeat'
    (first | with_reducible assumption | with_reducible exact Kept.refl _ | intro _
           | (extract_lets +onlyGivenNames x; refine Kept.use (x := x) ?_ (fun _ => ?_) <;> [subst x; clear_value x])
           | (extract_lets +onlyGivenNames x; refine Kept.use_fst (x := x) ?_ (fun _ => ?_) <;> [subst x; clear_value x])
           | (extract_lets +onlyGivenNames x; have _y : _ → _ := x; subst x; beta_reduce)
           | (extract_lets +onlyGivenNames x; clear_value x) | (extract_lets +onlyGivenNames x; subst x)
           | with_reducible apply enqueue_kept | with_reducible apply record_kept | with_reducible apply refuseForm_kept
           | with_reducible apply serveChiplet_kept | with_reducible apply siteAbroad_kept | with_reducible apply siteErr_kept
           | with_reducible refine Kept.lit (by assumption) rfl ?_
           | with_reducible refine Kept.lit (Kept.of_fst ?_ (by assumption)) rfl ?_ | (apply Mem.wf_of; assumption; rfl) | split)

theorem chipletGoes_kept {z : State} {s : State} (h0 : Kept z s) (op : Nat) (p : SitePkt) (a : Option SiteAtom) :
    Kept z (chipletGoes s op p a) := by
  unfold chipletGoes
  repeat'
    (first | with_reducible assumption | with_reducible exact Kept.refl _ | intro _
           | (extract_lets +onlyGivenNames x; refine Kept.use (x := x) ?_ (fun _ => ?_) <;> [subst x; clear_value x])
           | (extract_lets +onlyGivenNames x; refine Kept.use_fst (x := x) ?_ (fun _ => ?_) <;> [subst x; clear_value x])
           | (extract_lets +onlyGivenNames x; have _y : _ → _ := x; subst x; beta_reduce)
           | (extract_lets +onlyGivenNames x; clear_value x) | with_reducible apply serveChiplet_kept
           | with_reducible apply siteErr_kept | split)

theorem abroadAnswered_kept {z : State} {s : State} (h0 : Kept z s) (n k : Nat) (o : Output) :
    Kept z (abroadAnswered s n k o) := by
  unfold abroadAnswered
  repeat'
    (first | with_reducible assumption | with_reducible exact Kept.refl _ | intro _
           | (extract_lets +onlyGivenNames x; refine Kept.use (x := x) ?_ (fun _ => ?_) <;> [subst x; clear_value x])
           | (extract_lets +onlyGivenNames x; refine Kept.use_fst (x := x) ?_ (fun _ => ?_) <;> [subst x; clear_value x])
           | (extract_lets +onlyGivenNames x; have _y : _ → _ := x; subst x; beta_reduce)
           | (extract_lets +onlyGivenNames x; clear_value x) | (extract_lets +onlyGivenNames x; subst x)
           | with_reducible apply answerChiplet_kept | with_reducible apply countCall_kept | with_reducible apply finishSite_kept
           | with_reducible apply setSite_kept | with_reducible apply siteAbroad_kept | with_reducible apply statusAcked_kept
           | with_reducible refine Kept.lit (by assumption) rfl ?_
           | with_reducible refine Kept.lit (Kept.of_fst ?_ (by assumption)) rfl ?_ | (apply Mem.wf_of; assumption; rfl)
           | exact Kept.refl _ | split)

theorem answerFar_kept {z : State} {s : State} (h0 : Kept z s) (src tag part share a : Nat) (o : Option Output) :
    Kept z (answerFar s src tag part share a o) := by
  unfold answerFar
  repeat'
    (first | with_reducible assumption | with_reducible exact Kept.refl _ | intro _
           | with_reducible refine Kept.of_fst ?_ (by assumption) | with_reducible apply Kept.foldl
           | with_reducible apply Kept.foldl_fst | with_reducible apply sendTo_kept | split)

theorem apertureReply_kept {z : State} {s : State} (h0 : Kept z s) (n tag : Nat) (o : Output) :
    Kept z (apertureReply s n tag o) := by
  unfold apertureReply
  repeat'
    (first | with_reducible assumption | with_reducible exact Kept.refl _ | intro _
           | (extract_lets +onlyGivenNames x; refine Kept.use (x := x) ?_ (fun _ => ?_) <;> [subst x; clear_value x])
           | (extract_lets +onlyGivenNames x; refine Kept.use_fst (x := x) ?_ (fun _ => ?_) <;> [subst x; clear_value x])
           | (extract_lets +onlyGivenNames x; have _y : _ → _ := x; subst x; beta_reduce)
           | (extract_lets +onlyGivenNames x; clear_value x) | (extract_lets +onlyGivenNames x; subst x)
           | with_reducible apply answerChiplet_kept | with_reducible apply answerFar_kept | with_reducible apply emit_kept
           | with_reducible apply finishSite_kept | with_reducible apply readArrives_kept | with_reducible apply reqRefused_kept
           | with_reducible apply setSite_kept | with_reducible apply statusAcked_kept | with_reducible apply writeAcked_kept
           | with_reducible refine Kept.lit (by assumption) rfl ?_
           | with_reducible refine Kept.lit (Kept.of_fst ?_ (by assumption)) rfl ?_ | (apply Mem.wf_of; assumption; rfl) | split)

theorem chipletSays_kept {u s : State} {p : SitePkt} {f : State → State} (h : Kept u s) (hf : Kept u (f s)) :
    Kept u (chipletSays s p f) := by
  unfold chipletSays
  repeat' (first | exact h | exact hf | exact refuseForm_kept h .. | split)

theorem apertureFails_kept {z : State} {s : State} (h0 : Kept z s) (n tag : Nat) :
    Kept z (apertureFails s n tag) := by
  unfold apertureFails
  repeat'
    (first | with_reducible assumption | with_reducible exact Kept.refl _ | intro _ | with_reducible apply apertureReply_kept
           | with_reducible apply record_kept | split)

theorem callRange_kept {z : State} {s : State} (h0 : Kept z s) (n ctx : Nat) (va : Option Nat) (len : Nat) (k : Access) :
    Kept z (callRange s n ctx va len k).1 := by
  unfold callRange
  repeat'
    (first | with_reducible assumption | with_reducible exact Kept.refl _ | intro _
           | with_reducible refine Kept.of_fst ?_ (by assumption) | with_reducible apply translate_kept | split)

theorem endAtOnce_kept {z : State} {s : State} (h0 : Kept z s) (n : Nat) (r : SiteRun) :
    Kept z (endAtOnce s n r) := by
  unfold endAtOnce
  repeat'
    (first | with_reducible assumption | with_reducible exact Kept.refl _ | intro _
           | (extract_lets +onlyGivenNames x; refine Kept.use (x := x) ?_ (fun _ => ?_) <;> [subst x; clear_value x])
           | (extract_lets +onlyGivenNames x; refine Kept.use_fst (x := x) ?_ (fun _ => ?_) <;> [subst x; clear_value x])
           | (extract_lets +onlyGivenNames x; have _y : _ → _ := x; subst x; beta_reduce)
           | (extract_lets +onlyGivenNames x; clear_value x) | with_reducible apply endCall_kept
           | with_reducible apply setSite_kept | with_reducible refine Kept.lit (by assumption) rfl ?_
           | (apply Mem.wf_of; assumption; rfl) | split)

theorem startCall_kept {z : State} {s : State} (h0 : Kept z s) (n : Nat) (sl : Slot) (r : SiteRun) :
    Kept z (startCall s n sl r) := by
  unfold startCall
  repeat'
    (first | with_reducible assumption | with_reducible exact Kept.refl _ | intro _
           | (extract_lets +onlyGivenNames x; refine Kept.use (x := x) ?_ (fun _ => ?_) <;> [subst x; clear_value x])
           | (extract_lets +onlyGivenNames x; refine Kept.use_fst (x := x) ?_ (fun _ => ?_) <;> [subst x; clear_value x])
           | (extract_lets +onlyGivenNames x; have _y : _ → _ := x; subst x; beta_reduce)
           | (extract_lets +onlyGivenNames x; clear_value x) | with_reducible refine Kept.of_fst ?_ (by assumption)
           | with_reducible apply callRange_kept | with_reducible apply callRec_kept | with_reducible apply endAtOnce_kept
           | with_reducible apply setMoved_kept | with_reducible apply setSite_kept | with_reducible apply toChiplet_kept
           | with_reducible refine Kept.lit (by assumption) rfl ?_
           | with_reducible refine Kept.lit (Kept.of_fst ?_ (by assumption)) rfl ?_ | (apply Mem.wf_of; assumption; rfl) | split)

theorem arrangeSite_kept {z : State} {s : State} (h0 : Kept z s) (n : Nat) :
    Kept z (arrangeSite s n) := by
  unfold arrangeSite
  repeat'
    (first | with_reducible assumption | with_reducible exact Kept.refl _ | intro _
           | (extract_lets +onlyGivenNames x; refine Kept.use (x := x) ?_ (fun _ => ?_) <;> [subst x; clear_value x])
           | (extract_lets +onlyGivenNames x; refine Kept.use_fst (x := x) ?_ (fun _ => ?_) <;> [subst x; clear_value x])
           | (extract_lets +onlyGivenNames x; have _y : _ → _ := x; subst x; beta_reduce)
           | (extract_lets +onlyGivenNames x; clear_value x) | with_reducible apply setSite_kept
           | with_reducible apply toChiplet_kept | with_reducible refine Kept.lit (by assumption) rfl ?_
           | with_reducible refine Kept.lit (Kept.of_fst ?_ (by assumption)) rfl ?_ | (apply Mem.wf_of; assumption; rfl) | split)

theorem tryCall_kept {z : State} {s : State} (h0 : Kept z s) (n : Nat) (g : List Nat) :
    Kept z (tryCall s n g) := by
  unfold tryCall
  repeat'
    (first | with_reducible assumption | with_reducible exact Kept.refl _ | intro _
           | (extract_lets +onlyGivenNames x; refine Kept.use (x := x) ?_ (fun _ => ?_) <;> [subst x; clear_value x])
           | (extract_lets +onlyGivenNames x; refine Kept.use_fst (x := x) ?_ (fun _ => ?_) <;> [subst x; clear_value x])
           | (extract_lets +onlyGivenNames x; have _y : _ → _ := x; subst x; beta_reduce)
           | (extract_lets +onlyGivenNames x; clear_value x) | with_reducible refine Kept.of_fst ?_ (by assumption)
           | with_reducible apply endAtOnce_kept | with_reducible apply gate_kept | with_reducible apply setMoved_kept
           | with_reducible apply startCall_kept | with_reducible apply waitCall_kept | with_reducible apply wakeJob_kept
           | with_reducible refine Kept.lit (by assumption) rfl ?_
           | with_reducible refine Kept.lit (Kept.of_fst ?_ (by assumption)) rfl ?_ | (apply Mem.wf_of; assumption; rfl) | split)

theorem callGoes_kept {z : State} {s : State} (h0 : Kept z s) (n : Nat) (g : List Nat) :
    Kept z (callGoes s n g) := by
  unfold callGoes
  repeat'
    (first | with_reducible assumption | with_reducible exact Kept.refl _ | intro _
           | (extract_lets +onlyGivenNames x; refine Kept.use (x := x) ?_ (fun _ => ?_) <;> [subst x; clear_value x])
           | (extract_lets +onlyGivenNames x; refine Kept.use_fst (x := x) ?_ (fun _ => ?_) <;> [subst x; clear_value x])
           | (extract_lets +onlyGivenNames x; have _y : _ → _ := x; subst x; beta_reduce)
           | (extract_lets +onlyGivenNames x; clear_value x) | with_reducible apply endCall_kept
           | with_reducible apply finishSite_kept | with_reducible apply tryCall_kept | split)

theorem parkCall_kept {z : State} {s : State} (h0 : Kept z s) (n : Nat) :
    Kept z (parkCall s n) := by
  unfold parkCall
  repeat'
    (first | with_reducible assumption | with_reducible exact Kept.refl _ | intro _
           | (extract_lets +onlyGivenNames x; refine Kept.use (x := x) ?_ (fun _ => ?_) <;> [subst x; clear_value x])
           | (extract_lets +onlyGivenNames x; refine Kept.use_fst (x := x) ?_ (fun _ => ?_) <;> [subst x; clear_value x])
           | (extract_lets +onlyGivenNames x; have _y : _ → _ := x; subst x; beta_reduce)
           | (extract_lets +onlyGivenNames x; clear_value x) | with_reducible apply setSite_kept
           | with_reducible refine Kept.lit (by assumption) rfl ?_
           | with_reducible refine Kept.lit (Kept.of_fst ?_ (by assumption)) rfl ?_ | (apply Mem.wf_of; assumption; rfl) | split)

theorem sidebandSays_kept {u s : State} {n : Nat} {rsvd : Bool} {f : State → State} (h : Kept u s) (hf : Kept u (f s)) :
    Kept u (sidebandSays s n rsvd f) := by
  unfold sidebandSays
  repeat' (first | exact h | exact hf | exact record_kept h .. | split)

theorem enterBreach_kept {z : State} {s : State} (h0 : Kept z s) (n : Nat) :
    Kept z (enterBreach s n) := by
  unfold enterBreach
  repeat'
    (first | with_reducible assumption | with_reducible exact Kept.refl _ | intro _
           | (extract_lets +onlyGivenNames x; refine Kept.use (x := x) ?_ (fun _ => ?_) <;> [subst x; clear_value x])
           | (extract_lets +onlyGivenNames x; refine Kept.use_fst (x := x) ?_ (fun _ => ?_) <;> [subst x; clear_value x])
           | (extract_lets +onlyGivenNames x; have _y : _ → _ := x; subst x; beta_reduce)
           | (extract_lets +onlyGivenNames x; clear_value x) | with_reducible apply record_kept
           | with_reducible apply setSite_kept | with_reducible refine Kept.lit (by assumption) rfl ?_
           | (apply Mem.wf_of; assumption; rfl) | split)

theorem takeReport_kept {z : State} {s : State} (h0 : Kept z s) (n power : Nat) (missing : Bool) :
    Kept z (takeReport s n power missing) := by
  unfold takeReport
  repeat'
    (first | with_reducible assumption | with_reducible exact Kept.refl _ | intro _
           | (extract_lets +onlyGivenNames x; refine Kept.use (x := x) ?_ (fun _ => ?_) <;> [subst x; clear_value x])
           | (extract_lets +onlyGivenNames x; refine Kept.use_fst (x := x) ?_ (fun _ => ?_) <;> [subst x; clear_value x])
           | (extract_lets +onlyGivenNames x; have _y : _ → _ := x; subst x; beta_reduce)
           | (extract_lets +onlyGivenNames x; clear_value x) | (extract_lets +onlyGivenNames x; subst x)
           | with_reducible apply enterBreach_kept | with_reducible apply record_kept | with_reducible apply setSite_kept
           | with_reducible refine Kept.lit (by assumption) rfl ?_ | (apply Mem.wf_of; assumption; rfl) | split)

theorem bringSite_kept {z : State} {s : State} (h0 : Kept z s) (n : Nat) (e : SiteEnv) :
    Kept z (bringSite s n e) := by
  unfold bringSite
  repeat'
    (first | with_reducible assumption | with_reducible exact Kept.refl _ | intro _
           | (extract_lets +onlyGivenNames x; refine Kept.use (x := x) ?_ (fun _ => ?_) <;> [subst x; clear_value x])
           | (extract_lets +onlyGivenNames x; refine Kept.use_fst (x := x) ?_ (fun _ => ?_) <;> [subst x; clear_value x])
           | (extract_lets +onlyGivenNames x; have _y : _ → _ := x; subst x; beta_reduce)
           | (extract_lets +onlyGivenNames x; clear_value x) | (extract_lets +onlyGivenNames x; subst x)
           | with_reducible apply Kept.foldl | with_reducible apply Kept.foldl_fst | with_reducible apply emit_kept
           | with_reducible apply record_kept | with_reducible apply setSite_kept | with_reducible apply tariffChanged_kept
           | split)

theorem resetSite_kept {z : State} {s : State} (h0 : Kept z s) (n : Nat) (r : ReplyTo) (e : SiteEnv) :
    Kept z (resetSite s n r e) := by
  unfold resetSite
  repeat'
    (first | with_reducible assumption | with_reducible exact Kept.refl _ | intro _
           | (extract_lets +onlyGivenNames x; refine Kept.use (x := x) ?_ (fun _ => ?_) <;> [subst x; clear_value x])
           | (extract_lets +onlyGivenNames x; refine Kept.use_fst (x := x) ?_ (fun _ => ?_) <;> [subst x; clear_value x])
           | (extract_lets +onlyGivenNames x; have _y : _ → _ := x; subst x; beta_reduce)
           | (extract_lets +onlyGivenNames x; clear_value x) | with_reducible apply bringSite_kept
           | with_reducible apply dropUnit_kept | with_reducible apply emit_kept | with_reducible apply postFinal_kept
           | with_reducible apply rejoin_kept | split)

theorem askFlush_kept {z : State} {s : State} (h0 : Kept z s) (n : Nat) :
    Kept z (askFlush s n) := by
  unfold askFlush
  repeat'
    (first | with_reducible assumption | with_reducible exact Kept.refl _ | intro _
           | (extract_lets +onlyGivenNames x; refine Kept.use (x := x) ?_ (fun _ => ?_) <;> [subst x; clear_value x])
           | (extract_lets +onlyGivenNames x; refine Kept.use_fst (x := x) ?_ (fun _ => ?_) <;> [subst x; clear_value x])
           | (extract_lets +onlyGivenNames x; have _y : _ → _ := x; subst x; beta_reduce)
           | (extract_lets +onlyGivenNames x; clear_value x) | with_reducible apply emit_kept | with_reducible apply setAgent_kept
           | with_reducible refine Kept.lit (by assumption) rfl ?_ | (apply Mem.wf_of; assumption; rfl) | split)

theorem siteCapReadBody_kept {z : State} {s : State} (h0 : Kept z s) (c : Packet) (x0 : ReplyTo) :
    Kept z (siteCapReadBody c s x0).1 := by
  unfold siteCapReadBody
  repeat'
    (first | with_reducible assumption | with_reducible exact Kept.refl _ | intro _
           | (extract_lets +onlyGivenNames x; refine Kept.use (x := x) ?_ (fun _ => ?_) <;> [subst x; clear_value x])
           | (extract_lets +onlyGivenNames x; refine Kept.use_fst (x := x) ?_ (fun _ => ?_) <;> [subst x; clear_value x])
           | (extract_lets +onlyGivenNames x; have _y : _ → _ := x; subst x; beta_reduce)
           | (extract_lets +onlyGivenNames x; clear_value x) | with_reducible refine Kept.of_fst ?_ (by assumption)
           | with_reducible apply reservedFrom_kept | split)

theorem siteResetBody_kept {z : State} {s : State} (h0 : Kept z s) (c : Packet) (env : SiteEnv) (r : ReplyTo) :
    Kept z (siteResetBody c env s r).1 := by
  unfold siteResetBody
  repeat'
    (first | with_reducible assumption | with_reducible exact Kept.refl _ | intro _
           | (extract_lets +onlyGivenNames x; refine Kept.use (x := x) ?_ (fun _ => ?_) <;> [subst x; clear_value x])
           | (extract_lets +onlyGivenNames x; refine Kept.use_fst (x := x) ?_ (fun _ => ?_) <;> [subst x; clear_value x])
           | (extract_lets +onlyGivenNames x; have _y : _ → _ := x; subst x; beta_reduce)
           | (extract_lets +onlyGivenNames x; clear_value x) | with_reducible refine Kept.of_fst ?_ (by assumption)
           | with_reducible apply askFlush_kept | with_reducible apply reservedFrom_kept | with_reducible apply resetSite_kept
           | with_reducible apply setSite_kept | with_reducible refine Kept.lit (by assumption) rfl ?_
           | with_reducible refine Kept.lit (Kept.refl _) rfl ?_ | (apply Mem.wf_of; assumption; rfl) | split)

theorem purseReadBody_kept {z : State} {s : State} (h0 : Kept z s) (c : Packet) (x0 : ReplyTo) :
    Kept z (purseReadBody c s x0).1 := by
  unfold purseReadBody
  repeat'
    (first | with_reducible assumption | with_reducible exact Kept.refl _ | intro _
           | (extract_lets +onlyGivenNames x; refine Kept.use (x := x) ?_ (fun _ => ?_) <;> [subst x; clear_value x])
           | (extract_lets +onlyGivenNames x; refine Kept.use_fst (x := x) ?_ (fun _ => ?_) <;> [subst x; clear_value x])
           | (extract_lets +onlyGivenNames x; have _y : _ → _ := x; subst x; beta_reduce)
           | (extract_lets +onlyGivenNames x; clear_value x) | with_reducible refine Kept.of_fst ?_ (by assumption)
           | with_reducible apply reservedFrom_kept | split)

theorem siteBreachClearBody_kept {z : State} {s : State} (h0 : Kept z s) (c : Packet) (x0 : ReplyTo) :
    Kept z (siteBreachClearBody c s x0).1 := by
  unfold siteBreachClearBody
  repeat'
    (first | with_reducible assumption | with_reducible exact Kept.refl _ | intro _
           | (extract_lets +onlyGivenNames x; refine Kept.use (x := x) ?_ (fun _ => ?_) <;> [subst x; clear_value x])
           | (extract_lets +onlyGivenNames x; refine Kept.use_fst (x := x) ?_ (fun _ => ?_) <;> [subst x; clear_value x])
           | (extract_lets +onlyGivenNames x; have _y : _ → _ := x; subst x; beta_reduce)
           | (extract_lets +onlyGivenNames x; clear_value x) | with_reducible refine Kept.of_fst ?_ (by assumption)
           | with_reducible apply reservedFrom_kept | with_reducible apply setSite_kept
           | with_reducible refine Kept.lit (by assumption) rfl ?_ | with_reducible refine Kept.lit (Kept.refl _) rfl ?_
           | (apply Mem.wf_of; assumption; rfl) | split)

end Sys2Proof.Machine
end

