-- ==== Sys2Proof/Laws/KeptLevels.lean ====
section
/-! SUPPORT. The operations of Machine/Levels.lean keep what `Kept` names. -/

namespace Sys2Proof.Machine

theorem moveLevels_kept {z : State} {s : State} (h0 : Kept z s) (rise fall : Nat) :
    Kept z (moveLevels s rise fall) := by
  unfold moveLevels
  repeat'
    (first | with_reducible assumption | with_reducible exact Kept.refl _ | intro _
           | (extract_lets +onlyGivenNames x; refine Kept.use (x := x) ?_ (fun _ => ?_) <;> [subst x; clear_value x])
           | (extract_lets +onlyGivenNames x; refine Kept.use_fst (x := x) ?_ (fun _ => ?_) <;> [subst x; clear_value x])
           | (extract_lets +onlyGivenNames x; have _y : _ → _ := x; subst x; beta_reduce)
           | (extract_lets +onlyGivenNames x; clear_value x) | with_reducible refine Kept.lit (by assumption) rfl ?_
           | (apply Mem.wf_of; assumption; rfl) | split)

theorem bucketLevels_kept {z : State} {s : State} (h0 : Kept z s) :
    Kept z (bucketLevels s) := by
  unfold bucketLevels
  repeat'
    (first | with_reducible assumption | with_reducible exact Kept.refl _ | intro _ | with_reducible apply moveLevels_kept | split)

theorem stretchLevels_kept {z : State} {s : State} (h0 : Kept z s) (units : Nat) :
    Kept z (stretchLevels s units) := by
  unfold stretchLevels
  repeat'
    (first | with_reducible assumption | with_reducible exact Kept.refl _ | intro _ | with_reducible apply moveLevels_kept | split)

theorem turnLevels_kept {z : State} {s : State} (h0 : Kept z s) (stretched : Bool) :
    Kept z (turnLevels s stretched) := by
  unfold turnLevels
  repeat'
    (first | with_reducible assumption | with_reducible exact Kept.refl _ | intro _ | with_reducible apply moveLevels_kept | split)

end Sys2Proof.Machine
end

