-- ==== Sys2Proof/Laws/KeptLeatReceive.lean ====
section
/-! SUPPORT. The operations of Machine/LeatReceive.lean keep what `Kept` names. -/

namespace Sys2Proof.Machine

theorem dropOldKeys_kept {z : State} {s : State} (h0 : Kept z s) (p : Nat) :
    Kept z (dropOldKeys s p) := by
  unfold dropOldKeys
  repeat'
    (first | with_reducible assumption | with_reducible exact Kept.refl _ | intro _
           | (extract_lets +onlyGivenNames x; refine Kept.use (x := x) ?_ (fun _ => ?_) <;> [subst x; clear_value x])
           | (extract_lets +onlyGivenNames x; refine Kept.use_fst (x := x) ?_ (fun _ => ?_) <;> [subst x; clear_value x])
           | (extract_lets +onlyGivenNames x; have _y : _ → _ := x; subst x; beta_reduce)
           | (extract_lets +onlyGivenNames x; clear_value x) | with_reducible refine Kept.of_fst ?_ (by assumption)
           | with_reducible apply setPort_kept | with_reducible refine Kept.lit (by assumption) rfl ?_
           | with_reducible refine Kept.lit (Kept.of_fst ?_ (by assumption)) rfl ?_ | (apply Mem.wf_of; assumption; rfl) | split)

theorem takeReturns_kept {z : State} {s : State} (h0 : Kept z s) (n : Nat) (t : Trailer) :
    Kept z (takeReturns s n t) := by
  unfold takeReturns
  repeat'
    (first | with_reducible assumption | with_reducible exact Kept.refl _ | intro _
           | (extract_lets +onlyGivenNames x; refine Kept.use (x := x) ?_ (fun _ => ?_) <;> [subst x; clear_value x])
           | (extract_lets +onlyGivenNames x; refine Kept.use_fst (x := x) ?_ (fun _ => ?_) <;> [subst x; clear_value x])
           | (extract_lets +onlyGivenNames x; have _y : _ → _ := x; subst x; beta_reduce)
           | (extract_lets +onlyGivenNames x; clear_value x) | with_reducible apply dropOldKeys_kept
           | with_reducible apply setLink_kept | with_reducible apply setPort_kept
           | with_reducible refine Kept.lit (by assumption) rfl ?_ | (apply Mem.wf_of; assumption; rfl) | split)

theorem noteKeys_kept {z : State} {s : State} (h0 : Kept z s) (p : Nat) (a : Ahead) :
    Kept z (noteKeys s p a) := by
  unfold noteKeys
  repeat'
    (first | with_reducible assumption | with_reducible exact Kept.refl _ | intro _
           | (extract_lets +onlyGivenNames x; refine Kept.use (x := x) ?_ (fun _ => ?_) <;> [subst x; clear_value x])
           | (extract_lets +onlyGivenNames x; refine Kept.use_fst (x := x) ?_ (fun _ => ?_) <;> [subst x; clear_value x])
           | (extract_lets +onlyGivenNames x; have _y : _ → _ := x; subst x; beta_reduce)
           | (extract_lets +onlyGivenNames x; clear_value x) | with_reducible apply dropOldKeys_kept
           | with_reducible apply setPort_kept | with_reducible refine Kept.lit (by assumption) rfl ?_
           | with_reducible refine Kept.lit (Kept.of_fst ?_ (by assumption)) rfl ?_ | (apply Mem.wf_of; assumption; rfl) | split)

theorem farWork_kept {z : State} {s : State} (h0 : Kept z s) (b : Bytes) (p a : Nat) :
    Kept z (farWork s b p a) := by
  unfold farWork
  repeat'
    (first | with_reducible assumption | with_reducible exact Kept.refl _ | intro _
           | (extract_lets +onlyGivenNames x; refine Kept.use (x := x) ?_ (fun _ => ?_) <;> [subst x; clear_value x])
           | (extract_lets +onlyGivenNames x; refine Kept.use_fst (x := x) ?_ (fun _ => ?_) <;> [subst x; clear_value x])
           | (extract_lets +onlyGivenNames x; have _y : _ → _ := x; subst x; beta_reduce)
           | (extract_lets +onlyGivenNames x; have _y : Mem := x; subst x) | (extract_lets +onlyGivenNames x; clear_value x)
           | with_reducible apply atomNow_kept | with_reducible apply emit_kept | with_reducible apply memoryRequest_kept
           | with_reducible apply poisonAt_kept | with_reducible apply takeMint_kept | with_reducible apply tallyWrite_kept
           | split)

theorem serveFar_kept {z : State} {s : State} (h0 : Kept z s) (part : Nat) (b : Bytes) :
    Kept z (serveFar s part b) := by
  unfold serveFar
  repeat'
    (first | with_reducible assumption | with_reducible exact Kept.refl _ | intro _
           | (extract_lets +onlyGivenNames x; refine Kept.use (x := x) ?_ (fun _ => ?_) <;> [subst x; clear_value x])
           | (extract_lets +onlyGivenNames x; refine Kept.use_fst (x := x) ?_ (fun _ => ?_) <;> [subst x; clear_value x])
           | (extract_lets +onlyGivenNames x; have _y : _ → _ := x; subst x; beta_reduce)
           | (extract_lets +onlyGivenNames x; clear_value x) | with_reducible refine Kept.of_fst ?_ (by assumption)
           | with_reducible apply answerFar_kept | with_reducible apply askFor_kept | with_reducible apply capture_kept
           | with_reducible apply farWork_kept | with_reducible apply refuse_kept | split)

theorem takeFar_kept {z : State} {s : State} (h0 : Kept z s) (part : Nat) (b : Bytes) :
    Kept z (takeFar s part b) := by
  unfold takeFar
  repeat'
    (first | with_reducible assumption | with_reducible exact Kept.refl _ | intro _ | with_reducible apply enqueue_kept
           | with_reducible apply serveFar_kept | split)

theorem ownAnswered_kept {z : State} {s : State} (h0 : Kept z s) (k : Nat) (o : Output) :
    Kept z (ownAnswered s k o) := by
  unfold ownAnswered
  repeat'
    (first | with_reducible assumption | with_reducible exact Kept.refl _ | intro _
           | (extract_lets +onlyGivenNames x; refine Kept.use (x := x) ?_ (fun _ => ?_) <;> [subst x; clear_value x])
           | (extract_lets +onlyGivenNames x; refine Kept.use_fst (x := x) ?_ (fun _ => ?_) <;> [subst x; clear_value x])
           | (extract_lets +onlyGivenNames x; have _y : _ → _ := x; subst x; beta_reduce)
           | (extract_lets +onlyGivenNames x; clear_value x) | (extract_lets +onlyGivenNames x; subst x)
           | with_reducible apply emit_kept | with_reducible refine Kept.lit (by assumption) rfl ?_
           | with_reducible refine Kept.lit (Kept.of_fst ?_ (by assumption)) rfl ?_ | (apply Mem.wf_of; assumption; rfl) | split)

theorem markStale_kept {z : State} {s : State} (h0 : Kept z s) (e : FarRaise) (g : List Nat) :
    Kept z (markStale s e g) := by
  unfold markStale
  repeat'
    (first | with_reducible assumption | with_reducible exact Kept.refl _ | intro _
           | (extract_lets +onlyGivenNames x; refine Kept.use (x := x) ?_ (fun _ => ?_) <;> [subst x; clear_value x])
           | (extract_lets +onlyGivenNames x; refine Kept.use_fst (x := x) ?_ (fun _ => ?_) <;> [subst x; clear_value x])
           | (extract_lets +onlyGivenNames x; have _y : _ → _ := x; subst x; beta_reduce)
           | (extract_lets +onlyGivenNames x; have _y : Mem := x; subst x) | (extract_lets +onlyGivenNames x; clear_value x)
           | with_reducible refine Kept.of_fst ?_ (by assumption) | with_reducible apply capture_kept
           | with_reducible apply enqueue_kept | with_reducible apply memoryRequest_kept | with_reducible apply sendUnder_kept
           | with_reducible apply translate_kept | with_reducible refine Kept.lit (by assumption) rfl ?_
           | with_reducible refine Kept.lit (Kept.refl _) rfl ?_
           | with_reducible refine Kept.lit (Kept.of_fst ?_ (by assumption)) rfl ?_ | (apply Mem.wf_of; assumption; rfl) | split)

theorem raiseAnswered_kept {z : State} {s : State} (h0 : Kept z s) (tag : Nat) (o : Output) :
    Kept z (raiseAnswered s tag o) := by
  unfold raiseAnswered
  repeat'
    (first | with_reducible assumption | with_reducible exact Kept.refl _ | intro _
           | (extract_lets +onlyGivenNames x; refine Kept.use (x := x) ?_ (fun _ => ?_) <;> [subst x; clear_value x])
           | (extract_lets +onlyGivenNames x; refine Kept.use_fst (x := x) ?_ (fun _ => ?_) <;> [subst x; clear_value x])
           | (extract_lets +onlyGivenNames x; have _y : _ → _ := x; subst x; beta_reduce)
           | (extract_lets +onlyGivenNames x; clear_value x) | with_reducible apply markStale_kept
           | with_reducible refine Kept.lit (by assumption) rfl ?_
           | with_reducible refine Kept.lit (Kept.of_fst ?_ (by assumption)) rfl ?_ | (apply Mem.wf_of; assumption; rfl) | split)

theorem engineAnswered_kept {z : State} {s : State} (h0 : Kept z s) (b : Bytes) :
    Kept z (engineAnswered s b) := by
  unfold engineAnswered
  repeat'
    (first | with_reducible assumption | with_reducible exact Kept.refl _ | intro _ | with_reducible apply readArrives_kept
           | with_reducible apply reqRefused_kept | with_reducible apply writeAcked_kept | split)

theorem takeAnswer_kept {z : State} {s : State} (h0 : Kept z s) (b : Bytes) :
    Kept z (takeAnswer s b) := by
  unfold takeAnswer
  repeat'
    (first | with_reducible assumption | with_reducible exact Kept.refl _ | intro _
           | (extract_lets +onlyGivenNames x; refine Kept.use (x := x) ?_ (fun _ => ?_) <;> [subst x; clear_value x])
           | (extract_lets +onlyGivenNames x; refine Kept.use_fst (x := x) ?_ (fun _ => ?_) <;> [subst x; clear_value x])
           | (extract_lets +onlyGivenNames x; have _y : _ → _ := x; subst x; beta_reduce)
           | (extract_lets +onlyGivenNames x; clear_value x) | with_reducible apply abroadAnswered_kept
           | with_reducible apply engineAnswered_kept | with_reducible apply ownAnswered_kept
           | with_reducible apply raiseAnswered_kept | split)

theorem forwardPacket_kept {z : State} {s : State} (h0 : Kept z s) (p part : Nat) (b : Bytes) :
    Kept z (forwardPacket s p part b) := by
  unfold forwardPacket
  repeat'
    (first | with_reducible assumption | with_reducible exact Kept.refl _ | intro _ | with_reducible apply portSubmit_kept
           | with_reducible refine Kept.lit (by assumption) rfl ?_
           | with_reducible refine Kept.lit (Kept.of_fst ?_ (by assumption)) rfl ?_ | (apply Mem.wf_of; assumption; rfl) | split)

theorem deliverPacket_kept {z : State} {s : State} (h0 : Kept z s) (p part : Nat) (b : Bytes) :
    Kept z (deliverPacket p part s b) := by
  unfold deliverPacket
  repeat'
    (first | with_reducible assumption | with_reducible exact Kept.refl _ | intro _ | with_reducible apply forwardPacket_kept
           | with_reducible apply takeAnswer_kept | with_reducible apply takeFar_kept | split)

theorem deliverFlit_kept {z : State} {s : State} (h0 : Kept z s) (n : Nat) (a : Ahead) :
    Kept z (deliverFlit s n a) := by
  unfold deliverFlit
  repeat'
    (first | with_reducible assumption | with_reducible exact Kept.refl _ | intro _
           | (extract_lets +onlyGivenNames x; refine Kept.use (x := x) ?_ (fun _ => ?_) <;> [subst x; clear_value x])
           | (extract_lets +onlyGivenNames x; refine Kept.use_fst (x := x) ?_ (fun _ => ?_) <;> [subst x; clear_value x])
           | (extract_lets +onlyGivenNames x; have _y : _ → _ := x; subst x; beta_reduce)
           | (extract_lets +onlyGivenNames x; clear_value x) | with_reducible apply Kept.foldl
           | with_reducible apply Kept.foldl_fst | with_reducible apply deliverPacket_kept | with_reducible apply emit_kept
           | with_reducible apply noteKeys_kept | split)

theorem deliverAll_kept {z : State} {z1 : State} (h0 : Kept z z1) (z0 z2 : Nat) :
    Kept z (deliverAll z0 z1 z2) := by
  induction z0 generalizing z1 z2 z with
  | zero =>
    rw [deliverAll]
    repeat'
      (first | with_reducible assumption | with_reducible exact Kept.refl _ | intro _
             | (extract_lets +onlyGivenNames x; refine Kept.use (x := x) ?_ (fun _ => ?_) <;> [subst x; clear_value x])
             | (extract_lets +onlyGivenNames x; refine Kept.use_fst (x := x) ?_ (fun _ => ?_) <;> [subst x; clear_value x])
             | (extract_lets +onlyGivenNames x; have _y : _ → _ := x; subst x; beta_reduce)
             | (extract_lets +onlyGivenNames x; clear_value x) | with_reducible apply deliverFlit_kept
             | with_reducible apply setPort_kept | with_reducible refine Kept.lit (by assumption) rfl ?_
             | with_reducible refine Kept.lit (Kept.of_fst ?_ (by assumption)) rfl ?_ | (apply Mem.wf_of; assumption; rfl) | split)
  | succ k ih =>
    rw [deliverAll]
    repeat'
      (first | with_reducible assumption | with_reducible exact Kept.refl _ | intro _
             | (extract_lets +onlyGivenNames x; refine Kept.use (x := x) ?_ (fun _ => ?_) <;> [subst x; clear_value x])
             | (extract_lets +onlyGivenNames x; refine Kept.use_fst (x := x) ?_ (fun _ => ?_) <;> [subst x; clear_value x])
             | (extract_lets +onlyGivenNames x; have _y : _ → _ := x; subst x; beta_reduce)
             | (extract_lets +onlyGivenNames x; clear_value x) | with_reducible apply ih | with_reducible apply deliverFlit_kept
             | with_reducible apply setPort_kept | with_reducible refine Kept.lit (by assumption) rfl ?_
             | with_reducible refine Kept.lit (Kept.of_fst ?_ (by assumption)) rfl ?_ | (apply Mem.wf_of; assumption; rfl) | split)

theorem askResend_kept {z : State} {s : State} (h0 : Kept z s) (n : Nat) :
    Kept z (askResend s n) := by
  unfold askResend
  repeat'
    (first | with_reducible assumption | with_reducible exact Kept.refl _ | intro _ | with_reducible apply emitLeat_kept | split)

theorem acceptFlit_kept {z : State} {s : State} (h0 : Kept z s) (n : Nat) (t : Trailer) (b : Bytes) :
    Kept z (acceptFlit s n t b) := by
  unfold acceptFlit
  repeat'
    (first | with_reducible assumption | with_reducible exact Kept.refl _ | intro _
           | (extract_lets +onlyGivenNames x; refine Kept.use (x := x) ?_ (fun _ => ?_) <;> [subst x; clear_value x])
           | (extract_lets +onlyGivenNames x; refine Kept.use_fst (x := x) ?_ (fun _ => ?_) <;> [subst x; clear_value x])
           | (extract_lets +onlyGivenNames x; have _y : _ → _ := x; subst x; beta_reduce)
           | (extract_lets +onlyGivenNames x; clear_value x) | with_reducible apply deliverAll_kept
           | with_reducible apply emit_kept | with_reducible apply linkOut_kept | with_reducible apply record_kept
           | with_reducible apply setLink_kept | with_reducible apply setPort_kept
           | with_reducible refine Kept.lit (by assumption) rfl ?_
           | with_reducible refine Kept.lit (Kept.of_fst ?_ (by assumption)) rfl ?_ | (apply Mem.wf_of; assumption; rfl) | split)

theorem badCodeword_kept {z : State} {s : State} (h0 : Kept z s) (n : Nat) :
    Kept z (badCodeword s n) := by
  unfold badCodeword
  repeat'
    (first | with_reducible assumption | with_reducible exact Kept.refl _ | intro _
           | (extract_lets +onlyGivenNames x; refine Kept.use (x := x) ?_ (fun _ => ?_) <;> [subst x; clear_value x])
           | (extract_lets +onlyGivenNames x; refine Kept.use_fst (x := x) ?_ (fun _ => ?_) <;> [subst x; clear_value x])
           | (extract_lets +onlyGivenNames x; have _y : _ → _ := x; subst x; beta_reduce)
           | (extract_lets +onlyGivenNames x; clear_value x) | (extract_lets +onlyGivenNames x; subst x)
           | with_reducible apply askResend_kept | with_reducible apply linkOut_kept | with_reducible apply record_kept
           | with_reducible apply setLink_kept | with_reducible refine Kept.lit (by assumption) rfl ?_
           | (apply Mem.wf_of; assumption; rfl) | split)

theorem takeFlit_kept {z : State} {t : State} (h0 : Kept z t) (n : Nat) (bytes : Bytes) (fecBad : Bool) :
    Kept z (takeFlit t n bytes fecBad) := by
  unfold takeFlit
  repeat'
    (first | with_reducible assumption | with_reducible exact Kept.refl _ | intro _
           | (extract_lets +onlyGivenNames x; refine Kept.use (x := x) ?_ (fun _ => ?_) <;> [subst x; clear_value x])
           | (extract_lets +onlyGivenNames x; refine Kept.use_fst (x := x) ?_ (fun _ => ?_) <;> [subst x; clear_value x])
           | (extract_lets +onlyGivenNames x; have _y : _ → _ := x; subst x; beta_reduce)
           | (extract_lets +onlyGivenNames x; have _y : TurnUnit := x; subst x) | (extract_lets +onlyGivenNames x; clear_value x)
           | (extract_lets +onlyGivenNames x; subst x) | with_reducible apply acceptFlit_kept
           | with_reducible apply askResend_kept | with_reducible apply badCodeword_kept | with_reducible apply releasePort_kept
           | with_reducible apply restripe_kept | with_reducible apply takeReturns_kept | split)

theorem goOn_kept {z : State} {s : State} (h0 : Kept z s) (g : List Nat) (z0 : Arrival) :
    Kept z (goOn s g z0) := by
  unfold goOn
  repeat'
    (first | with_reducible assumption | with_reducible exact Kept.refl _ | intro _ | with_reducible apply arrive_kept
           | with_reducible apply atomNow_kept | with_reducible apply callGoes_kept | with_reducible apply chipletGoes_kept
           | with_reducible apply engineGoes_kept | with_reducible apply markStale_kept | with_reducible apply serveFar_kept
           | with_reducible apply serveFor_kept | with_reducible apply takeAnswer_kept | with_reducible apply takePacket_kept
           | with_reducible apply takeRow_kept | split)

theorem serveFirst_kept {z : State} {z1 : State} (h0 : Kept z z1) (z0 : Nat) :
    Kept z (serveFirst z0 z1) := by
  induction z0 generalizing z1 z with
  | zero =>
    rw [serveFirst]
    repeat'
      (first | with_reducible assumption | with_reducible exact Kept.refl _ | intro _ | with_reducible apply drainWaiting_kept
             | with_reducible apply goOn_kept | with_reducible apply leave_kept | split)
  | succ k ih =>
    rw [serveFirst]
    repeat'
      (first | with_reducible assumption | with_reducible exact Kept.refl _ | intro _ | with_reducible apply ih
             | with_reducible apply drainWaiting_kept | with_reducible apply goOn_kept | with_reducible apply leave_kept | split)

theorem serveArrivals_kept {z : State} {s : State} (h0 : Kept z s) :
    Kept z (serveArrivals s) := by
  unfold serveArrivals
  repeat'
    (first | with_reducible assumption | with_reducible exact Kept.refl _ | intro _ | with_reducible apply Kept.foldl
           | with_reducible apply Kept.foldl_fst | with_reducible apply finishSite_kept | with_reducible apply serveFirst_kept
           | with_reducible apply zeroRuns_kept | split)

end Sys2Proof.Machine
end

