-- ==== Sys2Proof/Laws/KeptSecurity.lean ====
section
/-! SUPPORT. The operations of Machine/Security.lean keep what `Kept` names. -/

namespace Sys2Proof.Machine

theorem rtpRefuse_kept {z : State} {s : State} (h0 : Kept z s) (cls : Nat) (st : Status) (detail : Nat) :
    Kept z (rtpRefuse s cls st detail).1 := by
  unfold rtpRefuse
  repeat'
    (first | with_reducible assumption | with_reducible exact Kept.refl _ | intro _
           | with_reducible refine Kept.of_fst ?_ (by assumption) | with_reducible apply record_kept
           | with_reducible refine Kept.lit (by assumption) rfl ?_ | (apply Mem.wf_of; assumption; rfl) | split)

theorem seals_grow {x : BitVec 16} {c t n : Nat} (e : x.toNat = 2 ^ c - 1) (h : c ≤ t) (k : x.getLsbD n = true) :
    (BitVec.ofNat 16 (2 ^ t - 1)).getLsbD n = true := by
  have hn : n < 16 := by
    rcases Nat.lt_or_ge n 16 with g | g
    · exact g
    · rw [BitVec.getLsbD_of_ge x n g] at k
      cases k
  simp only [BitVec.getLsbD, e, Nat.testBit_two_pow_sub_one, decide_eq_true_eq, BitVec.toNat_ofNat, Nat.testBit_mod_two_pow,
    Bool.and_eq_true] at k ⊢
  omega

/-- A transition that Table 19-10 permits clears no seal bit (R570). -/
theorem lcMake_kept {z s : State} (h0 : Kept z s) (target hash : Nat) (h : lcState s < target) (h6 : target ≤ 6) :
    Kept z (lcMake s target hash) := by
  unfold lcMake
  dsimp only
  apply endWarrants_kept
  apply record_kept
  refine h0.trans ⟨⟨rfl, rfl, fun n k => ?_, id⟩, rfl⟩
  revert h
  unfold lcState
  cases e : (List.range 7).find? fun n => s.otp.sealBits.toNat = 2 ^ n - 1 with
  | none => exact fun h => absurd h6 (Nat.not_le.mpr h)
  | some c =>
    have w := List.find?_some e
    simp only [decide_eq_true_eq] at w
    exact fun h => seals_grow w (Nat.le_of_lt h) k

theorem lcAdvanceBody_kept {z s : State} (h0 : Kept z s) (c : Packet) (r : ReplyTo) : Kept z (lcAdvanceBody c s r).1 := by
  unfold lcAdvanceBody
  dsimp only
  repeat' (first | exact h0 | exact rtpRefuse_kept h0 .. | split)
  rename_i hf _ _ ha _
  simp only [lcFormed, lcAllowed, Bool.not_eq_true', Bool.not_eq_false, Bool.and_eq_true, decide_eq_true_eq] at hf ha
  exact lcMake_kept h0 _ _ ha.1.1 hf.1.2

theorem loadWarrant_kept {z : State} {s : State} (h0 : Kept z s) (b : Bytes) :
    Kept z (loadWarrant s b).1 := by
  unfold loadWarrant
  repeat'
    (first | with_reducible assumption | with_reducible exact Kept.refl _ | intro _
           | (extract_lets +onlyGivenNames x; refine Kept.use (x := x) ?_ (fun _ => ?_) <;> [subst x; clear_value x])
           | (extract_lets +onlyGivenNames x; refine Kept.use_fst (x := x) ?_ (fun _ => ?_) <;> [subst x; clear_value x])
           | (extract_lets +onlyGivenNames x; have _y : _ → _ := x; subst x; beta_reduce)
           | (extract_lets +onlyGivenNames x; clear_value x) | with_reducible refine Kept.of_fst ?_ (by assumption)
           | with_reducible apply measureWarrants_kept | with_reducible apply record_kept | with_reducible apply rtpRefuse_kept
           | with_reducible refine Kept.lit (by assumption) rfl ?_ | (apply Mem.wf_of; assumption; rfl) | split)

theorem warrantLoadBody_kept {z : State} {s : State} (h0 : Kept z s) (c : Packet) (x0 : ReplyTo) :
    Kept z (warrantLoadBody c s x0).1 := by
  unfold warrantLoadBody
  repeat'
    (first | with_reducible assumption | with_reducible exact Kept.refl _ | intro _
           | (extract_lets +onlyGivenNames x; refine Kept.use (x := x) ?_ (fun _ => ?_) <;> [subst x; clear_value x])
           | (extract_lets +onlyGivenNames x; refine Kept.use_fst (x := x) ?_ (fun _ => ?_) <;> [subst x; clear_value x])
           | (extract_lets +onlyGivenNames x; have _y : _ → _ := x; subst x; beta_reduce)
           | (extract_lets +onlyGivenNames x; clear_value x) | (extract_lets +onlyGivenNames x; subst x)
           | with_reducible refine Kept.of_fst ?_ (by assumption) | with_reducible apply endWarrants_kept
           | with_reducible apply loadWarrant_kept | with_reducible apply operatorOnly_kept
           | with_reducible apply reservedFrom_kept | split)

theorem warrantReadBody_kept {z : State} {s : State} (h0 : Kept z s) (c : Packet) (x0 : ReplyTo) :
    Kept z (warrantReadBody c s x0).1 := by
  unfold warrantReadBody
  repeat'
    (first | with_reducible assumption | with_reducible exact Kept.refl _ | intro _
           | (extract_lets +onlyGivenNames x; refine Kept.use (x := x) ?_ (fun _ => ?_) <;> [subst x; clear_value x])
           | (extract_lets +onlyGivenNames x; refine Kept.use_fst (x := x) ?_ (fun _ => ?_) <;> [subst x; clear_value x])
           | (extract_lets +onlyGivenNames x; have _y : _ → _ := x; subst x; beta_reduce)
           | (extract_lets +onlyGivenNames x; clear_value x) | with_reducible refine Kept.of_fst ?_ (by assumption)
           | with_reducible apply operatorOnly_kept | with_reducible apply reservedFrom_kept | split)

theorem attestQuoteBody_kept {z : State} {s : State} (h0 : Kept z s) (c : Packet) (x0 : ReplyTo) :
    Kept z (attestQuoteBody c s x0).1 := by
  unfold attestQuoteBody
  repeat'
    (first | with_reducible assumption | with_reducible exact Kept.refl _ | intro _
           | (extract_lets +onlyGivenNames x; refine Kept.use (x := x) ?_ (fun _ => ?_) <;> [subst x; clear_value x])
           | (extract_lets +onlyGivenNames x; refine Kept.use_fst (x := x) ?_ (fun _ => ?_) <;> [subst x; clear_value x])
           | (extract_lets +onlyGivenNames x; have _y : _ → _ := x; subst x; beta_reduce)
           | (extract_lets +onlyGivenNames x; clear_value x) | (extract_lets +onlyGivenNames x; subst x)
           | with_reducible refine Kept.of_fst ?_ (by assumption) | with_reducible apply reservedFrom_kept | split)

end Sys2Proof.Machine
end

