-- ==== Sys2Proof/Laws/Outcomes.lean ====
section
/-! SUPPORT. What the operations that every row goes through answer: once for the gates, once for a command packet. -/

namespace Sys2Proof.Machine

open Sys2Proof.Safety

/-! ### Gates -/

theorem act_live {s : State} {f : State → State} (h : live s = true) : act s f = .next (f (fresh s)) := by
  rw [act, if_pos h]
  rfl

theorem act_dead {s : State} {f : State → State} (h : live s = false) : act s f = .next (fresh s) := by
  rw [act, h]
  rfl

theorem actAon_on {s : State} {f : State → State} (h : aon s = true) : actAon s f = .next (f (fresh s)) := by
  rw [actAon, if_pos h]
  rfl

theorem actAon_off {s : State} {f : State → State} (h : aon s = false) : actAon s f = .next (fresh s) := by
  rw [actAon, h]
  rfl

theorem cohRow_on {s : State} {f : State → State} (h : FabricUp s) : cohRow s f = .next (serveArrivals (f (fresh s))) := by
  rw [cohRow, act_live h.1]
  exact congrArg Host.Outcome.next (if_pos h.2)

/-- An atomic operation that its slice does not refuse, on a line that no agent holds, is applied. -/
theorem atomRow_applies {s : State} {q : AtomReq} {op : AtomOp} (h : FabricUp s) (f : atomFault s q = none)
    (a : conflicts s q.addr 1 true = []) : atomRow s q op = .next (applyAtom (fresh s) q op) := by
  have f' : atomFault (fresh s) q = none := f
  have a' : conflicts (fresh s) q.addr 1 true = [] := a
  rw [atomRow, act_live h.1, if_pos (show domainOn (fresh s) 28 = true from h.2), atomicOp, a', atomNow, f']
  rfl

/-- One that its slice refuses ends so. -/
theorem atomRow_refuses {s : State} {q : AtomReq} {op : AtomOp} {k : Nat} (h : FabricUp s) (f : atomFault s q = some k) :
    atomRow s q op = .next (refuse (fresh s) k q.part q.addr) := by
  have f' : atomFault (fresh s) q = some k := f
  rw [atomRow, act_live h.1, if_pos (show domainOn (fresh s) 28 = true from h.2), atomicOp, atomNow, f']
  rfl

/-! ### What every gate keeps -/

theorem Kept.fresh (s : State) : Kept s (fresh s) := Kept.of_same rfl rfl rfl rfl id

theorem act_kept {s : State} {f : State → State} (hf : ∀ t, Kept t (f t)) : ∃ t, act s f = .next t ∧ Kept s t := by
  cases h : live s
  · exact ⟨_, act_dead h, Kept.fresh s⟩
  · exact ⟨_, act_live h, (Kept.fresh s).trans (hf _)⟩

theorem actAon_kept {s : State} {f : State → State} (hf : ∀ t, Kept t (f t)) : ∃ t, actAon s f = .next t ∧ Kept s t := by
  cases h : aon s
  · exact ⟨_, actAon_off h, Kept.fresh s⟩
  · exact ⟨_, actAon_on h, (Kept.fresh s).trans (hf _)⟩

theorem cohRow_kept {s : State} {f : State → State} (hf : ∀ t, Kept t (f t)) : ∃ t, cohRow s f = .next t ∧ Kept s t := by
  refine act_kept fun t => ?_
  split
  · exact serveArrivals_kept (hf t)
  · exact Kept.refl t

theorem command_kept {op : Nat} {lens : Nat → Bool} {c : Packet} {s : State} {body : State → ReplyTo → State × Ending}
    (hb : ∀ t r, Kept t (body t r).1) : ∃ t, command op lens c s body = .next t ∧ Kept s t := by
  refine act_kept fun t => ?_
  split
  · exact runCommand_kept (Kept.refl t) hb
  · exact Kept.refl t

/-! ### Command packets -/

theorem setStarted_boot (s : State) (n : Nat) (l : List Started) : (setStarted s n l).boot = s.boot := by
  unfold setStarted
  split <;> rfl

theorem setFetched_boot (s : State) (n : Nat) (l : List Fetched) : (setFetched s n l).boot = s.boot := by
  unfold setFetched
  split <;> rfl

theorem begin_boot (s : State) (op : Nat) (c : Packet) : (begin s op c).1.boot = s.boot := by
  unfold begin
  simp only [setStarted_boot]
  split
  · exact setFetched_boot ..
  · rfl

theorem headerRefusal_begun (s : State) (op : Nat) (lens : Nat → Bool) (c : Packet) :
    headerRefusal (begun s op c) op lens c = headerRefusal s op lens c := by
  simp only [headerRefusal, begun, begin_boot, fresh]

theorem canStart_fresh (s : State) (op : Nat) (c : Packet) : canStart (fresh s) op c = canStart s op c := rfl

/-- A packet that is accepted does its work and ends as the work says. -/
theorem command_runs {op : Nat} {lens : Nat → Bool} {c : Packet} {s : State} {body : State → ReplyTo → State × Ending}
    (hs : Starts s op c) (hn : ¬ ninth s op c) (hh : headerRefusal s op lens c = none) :
    command op lens c s body =
      .next (finish (body (begun s op c) (replyTo s op c)).1 (replyTo s op c) (body (begun s op c) (replyTo s op c)).2) := by
  have hn' : ¬ (c.source.val = 17 ∧ (begin (fresh s) op c).1.cmd.mctp.length + (begin (fresh s) op c).1.cmd.mctpFetched.length > 8) := hn
  have hh' : headerRefusal (begin (fresh s) op c).1 op lens c = none := (headerRefusal_begun ..).trans hh
  rw [command, act_live hs.1, canStart_fresh, if_pos hs.2, runCommand]
  simp only [if_neg hn', hh']
  rfl

/-- A row of a packet that is accepted ends as its work does. -/
theorem packet_ends {i : Instr} {op : Nat} {c : Packet} {s t : State} {e : Ending} {body : State → ReplyTo → State × Ending}
    (x : exec i s = command op (lensOf op) c s body) (h : Accepts s op c)
    (b : body (begun s op c) (replyTo s op c) = (t, e)) : Ends i s op c t e := by
  rw [Ends, Gives, x, command_runs h.1 h.2.1 h.2.2, b]

/-- A packet whose header is refused ends with the refusal and does no work. -/
theorem command_refuses {op : Nat} {lens : Nat → Bool} {c : Packet} {s : State} {body : State → ReplyTo → State × Ending}
    {st : Status} {d : Nat} (hs : Starts s op c) (hn : ¬ ninth s op c) (hh : headerRefusal s op lens c = some (st, d)) :
    command op lens c s body = .next (finish (begun s op c) (replyTo s op c) (.done st d none none)) := by
  have hn' : ¬ (c.source.val = 17 ∧ (begin (fresh s) op c).1.cmd.mctp.length + (begin (fresh s) op c).1.cmd.mctpFetched.length > 8) := hn
  have hh' : headerRefusal (begin (fresh s) op c).1 op lens c = some (st, d) := (headerRefusal_begun ..).trans hh
  rw [command, act_live hs.1, canStart_fresh, if_pos hs.2, runCommand]
  simp only [if_neg hn', hh']
  rfl

/-- The ninth packet that would be open over MCTP ends with BUSY (R449). -/
theorem command_ninth {op : Nat} {lens : Nat → Bool} {c : Packet} {s : State} {body : State → ReplyTo → State × Ending}
    (hs : Starts s op c) (hn : ninth s op c) :
    command op lens c s body = .next (finish (begun s op c) (replyTo s op c) (.done .busy 0 none none)) := by
  have hn' : c.source.val = 17 ∧ (begin (fresh s) op c).1.cmd.mctp.length + (begin (fresh s) op c).1.cmd.mctpFetched.length > 8 := hn
  rw [command, act_live hs.1, canStart_fresh, if_pos hs.2, runCommand]
  simp only [if_pos hn']
  rfl

/-- A packet that may not start waits. -/
theorem command_waits {op : Nat} {lens : Nat → Bool} {c : Packet} {s : State} {body : State → ReplyTo → State × Ending}
    (hl : live s = true) (h : canStart s op c = false) : command op lens c s body = .next (fresh s) := by
  rw [command, act_live hl, canStart_fresh, h]
  rfl

/-! ### What the start of a packet leaves alone -/

/-- The start of a packet changes nothing but the command channels; the outputs of the row before are gone. -/
theorem begun_rest (s : State) (op : Nat) (c : Packet) : begun s op c = { fresh s with cmd := (begun s op c).cmd } := by
  unfold begun begin setStarted setFetched setChan
  dsimp only
  split <;> split <;> (try split) <;> rfl

@[simp] theorem begun_pending (s : State) (op : Nat) (c : Packet) : (begun s op c).pending = s.pending := by rw [begun_rest]; rfl
@[simp] theorem begun_fresh (s : State) (op : Nat) (c : Packet) : (begun s op c).fresh = s.fresh := by rw [begun_rest]; rfl
@[simp] theorem begun_fuse (s : State) (op : Nat) (c : Packet) : (begun s op c).fuse = s.fuse := by rw [begun_rest]; rfl
@[simp] theorem begun_otp (s : State) (op : Nat) (c : Packet) : (begun s op c).otp = s.otp := by rw [begun_rest]; rfl
@[simp] theorem begun_pins (s : State) (op : Nat) (c : Packet) : (begun s op c).pins = s.pins := by rw [begun_rest]; rfl
@[simp] theorem begun_boot (s : State) (op : Nat) (c : Packet) : (begun s op c).boot = s.boot := by rw [begun_rest]; rfl
@[simp] theorem begun_turn (s : State) (op : Nat) (c : Packet) : (begun s op c).turn = s.turn := by rw [begun_rest]; rfl
@[simp] theorem begun_set (s : State) (op : Nat) (c : Packet) : (begun s op c).set = s.set := by rw [begun_rest]; rfl
@[simp] theorem begun_ledger (s : State) (op : Nat) (c : Packet) : (begun s op c).ledger = s.ledger := by rw [begun_rest]; rfl
@[simp] theorem begun_glob (s : State) (op : Nat) (c : Packet) : (begun s op c).glob = s.glob := by rw [begun_rest]; rfl
@[simp] theorem begun_plans (s : State) (op : Nat) (c : Packet) : (begun s op c).plans = s.plans := by rw [begun_rest]; rfl
@[simp] theorem begun_mem (s : State) (op : Nat) (c : Packet) : (begun s op c).mem = s.mem := by rw [begun_rest]; rfl
@[simp] theorem begun_coh (s : State) (op : Nat) (c : Packet) : (begun s op c).coh = s.coh := by rw [begun_rest]; rfl
@[simp] theorem begun_xlate (s : State) (op : Nat) (c : Packet) : (begun s op c).xlate = s.xlate := by rw [begun_rest]; rfl
@[simp] theorem begun_fab (s : State) (op : Nat) (c : Packet) : (begun s op c).fab = s.fab := by rw [begun_rest]; rfl
@[simp] theorem begun_tallies (s : State) (op : Nat) (c : Packet) : (begun s op c).tallies = s.tallies := by rw [begun_rest]; rfl
@[simp] theorem begun_dma (s : State) (op : Nat) (c : Packet) : (begun s op c).dma = s.dma := by rw [begun_rest]; rfl
@[simp] theorem begun_arr (s : State) (op : Nat) (c : Packet) : (begun s op c).arr = s.arr := by rw [begun_rest]; rfl
@[simp] theorem begun_leat (s : State) (op : Nat) (c : Packet) : (begun s op c).leat = s.leat := by rw [begun_rest]; rfl
@[simp] theorem begun_sites (s : State) (op : Nat) (c : Packet) : (begun s op c).sites = s.sites := by rw [begun_rest]; rfl
@[simp] theorem begun_power (s : State) (op : Nat) (c : Packet) : (begun s op c).power = s.power := by rw [begun_rest]; rfl
@[simp] theorem begun_host (s : State) (op : Nat) (c : Packet) : (begun s op c).host = s.host := by rw [begun_rest]; rfl
@[simp] theorem begun_sec (s : State) (op : Nat) (c : Packet) : (begun s op c).sec = s.sec := by rw [begun_rest]; rfl
@[simp] theorem begun_fw (s : State) (op : Nat) (c : Packet) : (begun s op c).fw = s.fw := by rw [begun_rest]; rfl
@[simp] theorem begun_out (s : State) (op : Nat) (c : Packet) : (begun s op c).out = [] := by rw [begun_rest]; rfl

/-- Reserved parameters that are zero let the work go on. -/
theorem reservedFrom_zero {c : Packet} {n : Nat} {s : State} {k : Unit → State × Ending} (h : zeroFrom c n) :
    reservedFrom c n s k = k () := by
  have e : firstNonZero (paramsFrom c n) = none := by
    rw [firstNonZero, Option.map_eq_none_iff, List.find?_eq_none]
    intro x m
    simp [h x m]
  rw [reservedFrom, e]

end Sys2Proof.Machine
end

