-- ==== Sys2Proof/Laws/Recording.lean ====
section
/-! SUPPORT. What an event and an entry of the ledger can change: the event registers, the functions' vectors, the outputs, the ledger
and the FATAL flag; nothing else. -/

namespace Sys2Proof.Machine

/-- From `s` to `t` events and entries have been recorded, and nothing else has happened. -/
def Noted (s t : State) : Prop :=
  ∃ out glob host ledger fatal, t = { s with out := out, glob := glob, host := host, ledger := ledger,
                                             boot := { s.boot with fatal := fatal } }

theorem Noted.refl (s : State) : Noted s s := ⟨s.out, s.glob, s.host, s.ledger, s.boot.fatal, rfl⟩

theorem Noted.trans {s t u : State} (h : Noted s t) (k : Noted t u) : Noted s u := by
  obtain ⟨o, g, c, l, f, rfl⟩ := h
  obtain ⟨o', g', c', l', f', rfl⟩ := k
  exact ⟨o', g', c', l', f', rfl⟩

theorem Noted.foldl {α : Type} {f : State → α → State} (l : List α) (hf : ∀ a x, Noted a (f a x)) (s : State) :
    Noted s (l.foldl f s) := by
  induction l generalizing s with
  | nil => exact Noted.refl s
  | cons x r ih => exact (hf s x).trans (ih _)

/-! ### What stays -/

theorem Noted.pending {s t : State} (h : Noted s t) : t.pending = s.pending := by obtain ⟨_, _, _, _, _, rfl⟩ := h; rfl
theorem Noted.turn {s t : State} (h : Noted s t) : t.turn = s.turn := by obtain ⟨_, _, _, _, _, rfl⟩ := h; rfl
theorem Noted.pins {s t : State} (h : Noted s t) : t.pins = s.pins := by obtain ⟨_, _, _, _, _, rfl⟩ := h; rfl
theorem Noted.set {s t : State} (h : Noted s t) : t.set = s.set := by obtain ⟨_, _, _, _, _, rfl⟩ := h; rfl
theorem Noted.cmd {s t : State} (h : Noted s t) : t.cmd = s.cmd := by obtain ⟨_, _, _, _, _, rfl⟩ := h; rfl
theorem Noted.plans {s t : State} (h : Noted s t) : t.plans = s.plans := by obtain ⟨_, _, _, _, _, rfl⟩ := h; rfl
theorem Noted.mem {s t : State} (h : Noted s t) : t.mem = s.mem := by obtain ⟨_, _, _, _, _, rfl⟩ := h; rfl
theorem Noted.coh {s t : State} (h : Noted s t) : t.coh = s.coh := by obtain ⟨_, _, _, _, _, rfl⟩ := h; rfl
theorem Noted.xlate {s t : State} (h : Noted s t) : t.xlate = s.xlate := by obtain ⟨_, _, _, _, _, rfl⟩ := h; rfl
theorem Noted.fab {s t : State} (h : Noted s t) : t.fab = s.fab := by obtain ⟨_, _, _, _, _, rfl⟩ := h; rfl
theorem Noted.tallies {s t : State} (h : Noted s t) : t.tallies = s.tallies := by obtain ⟨_, _, _, _, _, rfl⟩ := h; rfl
theorem Noted.dma {s t : State} (h : Noted s t) : t.dma = s.dma := by obtain ⟨_, _, _, _, _, rfl⟩ := h; rfl
theorem Noted.arr {s t : State} (h : Noted s t) : t.arr = s.arr := by obtain ⟨_, _, _, _, _, rfl⟩ := h; rfl
theorem Noted.leat {s t : State} (h : Noted s t) : t.leat = s.leat := by obtain ⟨_, _, _, _, _, rfl⟩ := h; rfl
theorem Noted.sites {s t : State} (h : Noted s t) : t.sites = s.sites := by obtain ⟨_, _, _, _, _, rfl⟩ := h; rfl
theorem Noted.power {s t : State} (h : Noted s t) : t.power = s.power := by obtain ⟨_, _, _, _, _, rfl⟩ := h; rfl
theorem Noted.sec {s t : State} (h : Noted s t) : t.sec = s.sec := by obtain ⟨_, _, _, _, _, rfl⟩ := h; rfl
theorem Noted.fw {s t : State} (h : Noted s t) : t.fw = s.fw := by obtain ⟨_, _, _, _, _, rfl⟩ := h; rfl
theorem Noted.fuse {s t : State} (h : Noted s t) : t.fuse = s.fuse := by obtain ⟨_, _, _, _, _, rfl⟩ := h; rfl
theorem Noted.otp {s t : State} (h : Noted s t) : t.otp = s.otp := by obtain ⟨_, _, _, _, _, rfl⟩ := h; rfl
theorem Noted.fresh {s t : State} (h : Noted s t) : t.fresh = s.fresh := by obtain ⟨_, _, _, _, _, rfl⟩ := h; rfl
theorem Noted.boot {s t : State} (h : Noted s t) : { t.boot with fatal := s.boot.fatal } = s.boot := by
  obtain ⟨_, _, _, _, _, rfl⟩ := h; rfl

/-! ### What notes -/

theorem emit_noted (s : State) (o : Output) : Noted s (emit s o) := ⟨_, _, _, _, _, rfl⟩

theorem setFunc_noted (s : State) (f : Nat) (v : Func) : Noted s (setFunc s f v) := ⟨_, _, _, _, _, rfl⟩

theorem signal_noted (s : State) (f v : Nat) : Noted s (signal s f v) := by
  unfold signal setMsix
  dsimp only
  repeat' (first | exact Noted.refl s | exact emit_noted .. | exact setFunc_noted .. | split)

theorem eventAt_noted (s : State) (b f : Nat) : Noted s (eventAt s b f) := by
  unfold eventAt
  dsimp only
  split
  · have k (g : Global) : Noted s { s with glob := g } := ⟨_, _, _, _, _, rfl⟩
    split
    · exact (k _).trans (signal_noted ..)
    · exact k _
  · exact Noted.refl s

theorem event_noted (s : State) (b : Nat) : Noted s (event s b) := eventAt_noted ..

theorem eventFor_noted (s : State) (b p : Nat) : Noted s (eventFor s b p) := by
  unfold eventFor
  split
  · exact event_noted ..
  · exact (event_noted ..).trans (eventAt_noted ..)

theorem eventAll_noted (s : State) (b : Nat) : Noted s (eventAll s b) := Noted.foldl _ (fun a x => eventAt_noted a b x) s

theorem writeEntry_noted (s : State) (e : LedgerEntry) : Noted s (writeEntry s e) := by
  have k (l : Ledger) : Noted s { s with ledger := l } := ⟨_, _, _, _, _, rfl⟩
  have f (t : State) : Noted t { t with boot := { t.boot with fatal := true } } := ⟨_, _, _, _, _, rfl⟩
  have n : Noted s (if s.ledger.room (isFatal e.cls) then event { s with ledger := s.ledger.push (isFatal e.cls) e } 1
      else { s with ledger := s.ledger.push (isFatal e.cls) e }) := by
    split
    · exact (k _).trans (event_noted ..)
    · exact k _
  unfold writeEntry
  dsimp only
  split
  · exact (n.trans (f _)).trans (event_noted ..)
  · exact n

/-! ### What an entry writes -/

theorem signal_ledger (s : State) (f v : Nat) : (signal s f v).ledger = s.ledger ∧ (signal s f v).boot = s.boot := by
  unfold signal setMsix
  dsimp only
  repeat' (first | exact ⟨rfl, rfl⟩ | split)

theorem eventAt_ledger (s : State) (b f : Nat) : (eventAt s b f).ledger = s.ledger ∧ (eventAt s b f).boot = s.boot := by
  unfold eventAt
  dsimp only
  repeat' (first | exact ⟨rfl, rfl⟩ | exact signal_ledger .. | split)

theorem writeEntry_ledger (s : State) (e : LedgerEntry) : (writeEntry s e).ledger = s.ledger.push (isFatal e.cls) e := by
  unfold writeEntry event
  generalize isFatal e.cls = f
  have k (x : State) (b n : Nat) := (eventAt_ledger x b n).1
  by_cases h : s.ledger.room f = true <;> cases f <;> simp [h, k]

/-- An entry goes to the ledger as R532 says. -/
theorem record_ledger (s : State) (r : Rec) :
    (record s r).ledger = s.ledger.push (isFatal r.cls) (r.entry (now s) (bucketNow s)) := writeEntry_ledger ..

/-- Only a fatal class sets FATAL. -/
theorem record_boot {s : State} {r : Rec} (h : isFatal r.cls = false) : (record s r).boot = s.boot := by
  have h' : isFatal (r.entry (now s) (bucketNow s)).cls = false := h
  unfold record writeEntry event
  dsimp only
  rw [h', if_neg (by decide)]
  split
  · exact (eventAt_ledger ..).2
  · rfl

theorem record_noted (s : State) (r : Rec) : Noted s (record s r) := writeEntry_noted ..

theorem endGroup_noted (s : State) (key : Nat) : Noted s (endGroup s key) := by
  have k (t : State) (l : Ledger) : Noted t { t with ledger := l } := ⟨_, _, _, _, _, rfl⟩
  unfold endGroup dropGroup
  dsimp only
  split
  · split
    · exact (k ..).trans (writeEntry_noted ..)
    · exact k ..
  · exact Noted.refl s

theorem endGroups_noted (s : State) (owner : Nat) : Noted s (endGroups s owner) := Noted.foldl _ endGroup_noted s

theorem recordIn_noted (s : State) (owner : Nat) (r : Rec) : Noted s (recordIn s owner r) := by
  have k (t : State) (l : Ledger) : Noted t { t with ledger := l } := ⟨_, _, _, _, _, rfl⟩
  unfold recordIn
  dsimp only
  split
  · split
    · exact (k ..).trans (endGroup_noted ..)
    · exact k ..
  · exact (writeEntry_noted ..).trans (k ..)

theorem recordCount_noted (s : State) (r : Rec) : Noted s (recordCount s r) := recordIn_noted ..

end Sys2Proof.Machine
end

