-- ==== Sys2Proof/Laws/Rows.lean ====
section
/-! SUPPORT. What `exec` is on each row, so that no proof unfolds the dispatch. -/

namespace Sys2Proof.Machine

@[simp] theorem exec_pwrokRise (env : _) (s : State) : exec (.pwrokRise env) s = execPwrokRise env s := rfl
@[simp] theorem exec_pwrokFall (s : State) : exec .pwrokFall s = execPwrokFall s := rfl
@[simp] theorem exec_warmRstAssert (s : State) : exec .warmRstAssert s = execWarmRstAssert s := rfl
@[simp] theorem exec_warmRstRise (env : _) (s : State) : exec (.warmRstRise env) s = execWarmRstRise env s := rfl
@[simp] theorem exec_perstAssert (s : State) : exec .perstAssert s = execPerstAssert s := rfl
@[simp] theorem exec_perstDeassert (s : State) : exec .perstDeassert s = execPerstDeassert s := rfl
@[simp] theorem exec_turnTick (s : State) : exec .turnTick s = execTurnTick s := rfl
@[simp] theorem exec_bucketBoundary (s : State) : exec .bucketBoundary s = execBucketBoundary s := rfl
@[simp] theorem exec_stretchDecision (shortfall : _) (s : State) : exec (.stretchDecision shortfall) s = execStretchDecision shortfall s := rfl
@[simp] theorem exec_stretchRequest (link : _) (k : _) (turn : _) (hub : _) (s : State) : exec (.stretchRequest link k turn hub) s = execStretchRequest link k turn hub s := rfl
@[simp] theorem exec_commitWindow (s : State) : exec .commitWindow s = execCommitWindow s := rfl
@[simp] theorem exec_turnMarker (link : _) (m : _) (s : State) : exec (.turnMarker link m) s = execTurnMarker link m s := rfl
@[simp] theorem exec_markerLoss (s : State) : exec .markerLoss s = execMarkerLoss s := rfl
@[simp] theorem exec_headraceTimeout (s : State) : exec .headraceTimeout s = execHeadraceTimeout s := rfl
@[simp] theorem exec_turnInEdge (periodPs : _) (offsetNs : _) (s : State) : exec (.turnInEdge periodPs offsetNs) s = execTurnInEdge periodPs offsetNs s := rfl
@[simp] theorem exec_shoeSubmit (w : _) (s : State) : exec (.shoeSubmit w) s = execShoeSubmit w s := rfl
@[simp] theorem exec_arrayDescStart (a : _) (s : State) : exec (.arrayDescStart a) s = execArrayDescStart a s := rfl
@[simp] theorem exec_arrayDescComplete (la : _) (s : State) : exec (.arrayDescComplete la) s = execArrayDescComplete la s := rfl
@[simp] theorem exec_shoeBatchComplete (la : _) (s : State) : exec (.shoeBatchComplete la) s = execShoeBatchComplete la s := rfl
@[simp] theorem exec_arrayFault (pa : _) (f : _) (where1 : _) (s : State) : exec (.arrayFault pa f where1) s = execArrayFault pa f where1 s := rfl
@[simp] theorem exec_replayComplete (la : _) (cycles : _) (copied : _) (s : State) : exec (.replayComplete la cycles copied) s = execReplayComplete la cycles copied s := rfl
@[simp] theorem exec_retestComplete (pa : _) (pass : _) (s : State) : exec (.retestComplete pa pass) s = execRetestComplete pa pass s := rfl
@[simp] theorem exec_patrolDue (pa : _) (s : State) : exec (.patrolDue pa) s = execPatrolDue pa s := rfl
@[simp] theorem exec_patrolComplete (pa : _) (pass : _) (s : State) : exec (.patrolComplete pa pass) s = execPatrolComplete pa pass s := rfl
@[simp] theorem exec_dmaDescStart (de : _) (s : State) : exec (.dmaDescStart de) s = execDmaDescStart de s := rfl
@[simp] theorem exec_dmaRequestRefused (de : _) (guard : _) (offset : _) (s : State) : exec (.dmaRequestRefused de guard offset) s = execDmaRequestRefused de guard offset s := rfl
@[simp] theorem exec_dmaDescComplete (de : _) (s : State) : exec (.dmaDescComplete de) s = execDmaDescComplete de s := rfl
@[simp] theorem exec_reductionDescStart (de : _) (s : State) : exec (.reductionDescStart de) s = execReductionDescStart de s := rfl
@[simp] theorem exec_reductionDescComplete (de : _) (s : State) : exec (.reductionDescComplete de) s = execReductionDescComplete de s := rfl
@[simp] theorem exec_mintTransferPacket (part : _) (bytes : _) (s : State) : exec (.mintTransferPacket part bytes) s = execMintTransferPacket part bytes s := rfl
@[simp] theorem exec_mintInit (q : _) (anchor : _) (s : State) : exec (.mintInit q anchor) s = execMintInit q anchor s := rfl
@[simp] theorem exec_mintAdd (q : _) (w : _) (s : State) : exec (.mintAdd q w) s = execMintAdd q w s := rfl
@[simp] theorem exec_mintRead (q : _) (s : State) : exec (.mintRead q) s = execMintRead q s := rfl
@[simp] theorem exec_cellPut (q : _) (w : _) (err : _) (s : State) : exec (.cellPut q w err) s = execCellPut q w err s := rfl
@[simp] theorem exec_iadd (q : _) (w64 : _) (v : _) (s : State) : exec (.iadd q w64 v) s = execIadd q w64 v s := rfl
@[simp] theorem exec_iaddFetch (q : _) (w64 : _) (v : _) (s : State) : exec (.iaddFetch q w64 v) s = execIaddFetch q w64 v s := rfl
@[simp] theorem exec_cas (q : _) (w64 : _) (cmp : _) (new : _) (s : State) : exec (.cas q w64 cmp new) s = execCas q w64 cmp new s := rfl
@[simp] theorem exec_fmax (q : _) (bf16 : _) (v : _) (s : State) : exec (.fmax q bf16 v) s = execFmax q bf16 v s := rfl
@[simp] theorem exec_fmin (q : _) (bf16 : _) (v : _) (s : State) : exec (.fmin q bf16 v) s = execFmin q bf16 v s := rfl
@[simp] theorem exec_tallyAdd (q : _) (s : State) : exec (.tallyAdd q) s = execTallyAdd q s := rfl
@[simp] theorem exec_tallySub (q : _) (s : State) : exec (.tallySub q) s = execTallySub q s := rfl
@[simp] theorem exec_memoryAccess (r : _) (s : State) : exec (.memoryAccess r) s = execMemoryAccess r s := rfl
@[simp] theorem exec_windowRequest (r : _) (s : State) : exec (.windowRequest r) s = execWindowRequest r s := rfl
@[simp] theorem exec_directRequest (r : _) (s : State) : exec (.directRequest r) s = execDirectRequest r s := rfl
@[simp] theorem exec_rdS (m : _) (s : State) : exec (.rdS m) s = execRdS m s := rfl
@[simp] theorem exec_rdO (m : _) (s : State) : exec (.rdO m) s = execRdO m s := rfl
@[simp] theorem exec_upg (m : _) (s : State) : exec (.upg m) s = execUpg m s := rfl
@[simp] theorem exec_rdCur (r : _) (s : State) : exec (.rdCur r) s = execRdCur r s := rfl
@[simp] theorem exec_wrInv (r : _) (s : State) : exec (.wrInv r) s = execWrInv r s := rfl
@[simp] theorem exec_flush (m : _) (s : State) : exec (.flush m) s = execFlush m s := rfl
@[simp] theorem exec_wb (m : _) (d : _) (s : State) : exec (.wb m d) s = execWb m d s := rfl
@[simp] theorem exec_evc (m : _) (s : State) : exec (.evc m) s = execEvc m s := rfl
@[simp] theorem exec_rspI (m : _) (s : State) : exec (.rspI m) s = execRspI m s := rfl
@[simp] theorem exec_rspS (m : _) (s : State) : exec (.rspS m) s = execRspS m s := rfl
@[simp] theorem exec_rspIData (m : _) (d : _) (s : State) : exec (.rspIData m d) s = execRspIData m d s := rfl
@[simp] theorem exec_rspSData (m : _) (d : _) (s : State) : exec (.rspSData m d) s = execRspSData m d s := rfl
@[simp] theorem exec_rspIInflight (m : _) (s : State) : exec (.rspIInflight m) s = execRspIInflight m s := rfl
@[simp] theorem exec_stashAcc (m : _) (s : State) : exec (.stashAcc m) s = execStashAcc m s := rfl
@[simp] theorem exec_stashDec (m : _) (s : State) : exec (.stashDec m) s = execStashDec m s := rfl
@[simp] theorem exec_dirtyEvict (site : _) (q : _) (s : State) : exec (.dirtyEvict site q) s = execDirtyEvict site q s := rfl
@[simp] theorem exec_holdWindowExpiry (agent : _) (line : _) (s : State) : exec (.holdWindowExpiry agent line) s = execHoldWindowExpiry agent line s := rfl
@[simp] theorem exec_snoopTimeout (agent : _) (line : _) (s : State) : exec (.snoopTimeout agent line) s = execSnoopTimeout agent line s := rfl
@[simp] theorem exec_flushDone (f : _) (s : State) : exec (.flushDone f) s = execFlushDone f s := rfl
@[simp] theorem exec_flushTimeout (agent : _) (s : State) : exec (.flushTimeout agent) s = execFlushTimeout agent s := rfl
@[simp] theorem exec_invalAckTimeout (unit : _) (s : State) : exec (.invalAckTimeout unit) s = execInvalAckTimeout unit s := rfl
@[simp] theorem exec_deedZeroingComplete (first : _) (s : State) : exec (.deedZeroingComplete first) s = execDeedZeroingComplete first s := rfl
@[simp] theorem exec_wayDrainComplete (s : State) : exec .wayDrainComplete s = execWayDrainComplete s := rfl
@[simp] theorem exec_reserve (q : _) (s : State) : exec (.reserve q) s = execReserve q s := rfl
@[simp] theorem exec_slotReturn (q : _) (s : State) : exec (.slotReturn q) s = execSlotReturn q s := rfl
@[simp] theorem exec_flitReceive (f : _) (s : State) : exec (.flitReceive f) s = execFlitReceive f s := rfl
@[simp] theorem exec_shareWindowEnd (s : State) : exec .shareWindowEnd s = execShareWindowEnd s := rfl
@[simp] theorem exec_leatDataFlit (link : _) (bytes : _) (fecBad : _) (s : State) : exec (.leatDataFlit link bytes fecBad) s = execLeatDataFlit link bytes fecBad s := rfl
@[simp] theorem exec_leatResendRequest (link : _) (lseq : _) (s : State) : exec (.leatResendRequest link lseq) s = execLeatResendRequest link lseq s := rfl
@[simp] theorem exec_laneLossOfLock (link : _) (s : State) : exec (.laneLossOfLock link) s = execLaneLossOfLock link s := rfl
@[simp] theorem exec_linkSignalDetect (link : _) (s : State) : exec (.linkSignalDetect link) s = execLinkSignalDetect link s := rfl
@[simp] theorem exec_linkTrainingComplete (link : _) (r : _) (s : State) : exec (.linkTrainingComplete link r) s = execLinkTrainingComplete link r s := rfl
@[simp] theorem exec_berCheckStart (link : _) (turn : _) (s : State) : exec (.berCheckStart link turn) s = execBerCheckStart link turn s := rfl
@[simp] theorem exec_berCheckComplete (link : _) (errors : _) (uncorrectable : _) (s : State) : exec (.berCheckComplete link errors uncorrectable) s = execBerCheckComplete link errors uncorrectable s := rfl
@[simp] theorem exec_sealCounterRekey (link : _) (part : _) (s : State) : exec (.sealCounterRekey link part) s = execSealCounterRekey link part s := rfl
@[simp] theorem exec_sealCounterLimit (link : _) (part : _) (s : State) : exec (.sealCounterLimit link part) s = execSealCounterLimit link part s := rfl
@[simp] theorem exec_keyOffer (link : _) (f : _) (s : State) : exec (.keyOffer link f) s = execKeyOffer link f s := rfl
@[simp] theorem exec_keyOfferResponse (link : _) (f : _) (s : State) : exec (.keyOfferResponse link f) s = execKeyOfferResponse link f s := rfl
@[simp] theorem exec_keyFragmentResend (port : _) (part : _) (s : State) : exec (.keyFragmentResend port part) s = execKeyFragmentResend port part s := rfl
@[simp] theorem exec_purseReq (site : _) (power : _) (turn : _) (s : State) : exec (.purseReq site power turn) s = execPurseReq site power turn s := rfl
@[simp] theorem exec_purseReport (site : _) (power : _) (turn : _) (s : State) : exec (.purseReport site power turn) s = execPurseReport site power turn s := rfl
@[simp] theorem exec_purseReportDeadline (site : _) (s : State) : exec (.purseReportDeadline site) s = execPurseReportDeadline site s := rfl
@[simp] theorem exec_siteAlert (site : _) (code : _) (data : _) (s : State) : exec (.siteAlert site code data) s = execSiteAlert site code data s := rfl
@[simp] theorem exec_unknownSidebandMessage (site : _) (msg : _) (s : State) : exec (.unknownSidebandMessage site msg) s = execUnknownSidebandMessage site msg s := rfl
@[simp] theorem exec_rd (p : _) (s : State) : exec (.rd p) s = execRd p s := rfl
@[simp] theorem exec_wr (p : _) (s : State) : exec (.wr p) s = execWr p s := rfl
@[simp] theorem exec_atomic (p : _) (op : _) (s : State) : exec (.atomic p op) s = execAtomic p op s := rfl
@[simp] theorem exec_tally (p : _) (s : State) : exec (.tally p) s = execTally p s := rfl
@[simp] theorem exec_rdData (p : _) (s : State) : exec (.rdData p) s = execRdData p s := rfl
@[simp] theorem exec_wrAck (p : _) (s : State) : exec (.wrAck p) s = execWrAck p s := rfl
@[simp] theorem exec_err (p : _) (s : State) : exec (.err p) s = execErr p s := rfl
@[simp] theorem exec_apertureTimeout (site : _) (tag : _) (s : State) : exec (.apertureTimeout site tag) s = execApertureTimeout site tag s := rfl
@[simp] theorem exec_siteCallStart (site : _) (s : State) : exec (.siteCallStart site) s = execSiteCallStart site s := rfl
@[simp] theorem exec_slotDone (p : _) (s : State) : exec (.slotDone p) s = execSlotDone p s := rfl
@[simp] theorem exec_slotSuspended (p : _) (s : State) : exec (.slotSuspended p) s = execSlotSuspended p s := rfl
@[simp] theorem exec_siteCallTimeout (site : _) (s : State) : exec (.siteCallTimeout site) s = execSiteCallTimeout site s := rfl
@[simp] theorem exec_moduleLossOfLock (site : _) (module : _) (relock : _) (s : State) : exec (.moduleLossOfLock site module relock) s = execModuleLossOfLock site module relock s := rfl
@[simp] theorem exec_hbmCattrip (stack : _) (s : State) : exec (.hbmCattrip stack) s = execHbmCattrip stack s := rfl
@[simp] theorem exec_pcRetrainFail (stack : _) (pc : _) (s : State) : exec (.pcRetrainFail stack pc) s = execPcRetrainFail stack pc s := rfl
@[simp] theorem exec_scrubRead (addr : _) (e : _) (s : State) : exec (.scrubRead addr e) s = execScrubRead addr e s := rfl
@[simp] theorem exec_scrubIntervalEnd (s : State) : exec .scrubIntervalEnd s = execScrubIntervalEnd s := rfl
@[simp] theorem exec_domainSwitchComplete (s : State) : exec .domainSwitchComplete s = execDomainSwitchComplete s := rfl
@[simp] theorem exec_domainSwitchTimeout (s : State) : exec .domainSwitchTimeout s = execDomainSwitchTimeout s := rfl
@[simp] theorem exec_tempSample (temps : _) (s : State) : exec (.tempSample temps) s = execTempSample temps s := rfl
@[simp] theorem exec_thermtrip (s : State) : exec .thermtrip s = execThermtrip s := rfl
@[simp] theorem exec_railSample (outOfBand : _) (s : State) : exec (.railSample outOfBand) s = execRailSample outOfBand s := rfl
@[simp] theorem exec_ageingSample (slack : _) (s : State) : exec (.ageingSample slack) s = execAgeingSample slack s := rfl
@[simp] theorem exec_ageingReplan (s : State) : exec .ageingReplan s = execAgeingReplan s := rfl
@[simp] theorem exec_profilerSample (free : _) (s : State) : exec (.profilerSample free) s = execProfilerSample free s := rfl
@[simp] theorem exec_replaceMessageRepeat (s : State) : exec .replaceMessageRepeat s = execReplaceMessageRepeat s := rfl
@[simp] theorem exec_warrantExpiry (s : State) : exec .warrantExpiry s = execWarrantExpiry s := rfl
@[simp] theorem exec_debugAccess (path : _) (s : State) : exec (.debugAccess path) s = execDebugAccess path s := rfl
@[simp] theorem exec_testWindowWrite (win : _) (entry : _) (s : State) : exec (.testWindowWrite win entry) s = execTestWindowWrite win entry s := rfl
@[simp] theorem exec_observeSelect (on : _) (s : State) : exec (.observeSelect on) s = execObserveSelect on s := rfl
@[simp] theorem exec_bankEraseComplete (s : State) : exec .bankEraseComplete s = execBankEraseComplete s := rfl
@[simp] theorem exec_kyoharReportTimeout (s : State) : exec .kyoharReportTimeout s = execKyoharReportTimeout s := rfl
@[simp] theorem exec_commandFetch (src : _) (slots : _) (s : State) : exec (.commandFetch src slots) s = execCommandFetch src slots s := rfl
@[simp] theorem exec_sqTail (src : _) (v : _) (s : State) : exec (.sqTail src v) s = execSqTail src v s := rfl
@[simp] theorem exec_cqHead (src : _) (v : _) (s : State) : exec (.cqHead src v) s = execCqHead src v s := rfl
@[simp] theorem exec_ringEnable (src : _) (v : _) (s : State) : exec (.ringEnable src v) s = execRingEnable src v s := rfl
@[simp] theorem exec_ringDisable (src : _) (v : _) (s : State) : exec (.ringDisable src v) s = execRingDisable src v s := rfl
@[simp] theorem exec_mctpCommand (bytes : _) (s : State) : exec (.mctpCommand bytes) s = execMctpCommand bytes s := rfl
@[simp] theorem exec_bitAliasWrite (off : _) (v : _) (s : State) : exec (.bitAliasWrite off v) s = execBitAliasWrite off v s := rfl
@[simp] theorem exec_sqcClearWrite (off : _) (v : _) (s : State) : exec (.sqcClearWrite off v) s = execSqcClearWrite off v s := rfl
@[simp] theorem exec_cfgLockWrite (off : _) (v : _) (s : State) : exec (.cfgLockWrite off v) s = execCfgLockWrite off v s := rfl
@[simp] theorem exec_postedWrite (off : _) (v : _) (s : State) : exec (.postedWrite off v) s = execPostedWrite off v s := rfl
@[simp] theorem exec_postedWriteLand (b : _) (s : State) : exec (.postedWriteLand b) s = execPostedWriteLand b s := rfl
@[simp] theorem exec_leatFecClr (n : _) (s : State) : exec (.leatFecClr n) s = execLeatFecClr n s := rfl
@[simp] theorem exec_hostRdLimitWrite (v : _) (s : State) : exec (.hostRdLimitWrite v) s = execHostRdLimitWrite v s := rfl
@[simp] theorem exec_hostFnTagsWrite (fn : _) (v : _) (s : State) : exec (.hostFnTagsWrite fn v) s = execHostFnTagsWrite fn v s := rfl
@[simp] theorem exec_registerWrite (w : _) (s : State) : exec (.registerWrite w) s = execRegisterWrite w s := rfl
@[simp] theorem exec_msixUnmask (fn : _) (what : _) (s : State) : exec (.msixUnmask fn what) s = execMsixUnmask fn what s := rfl
@[simp] theorem exec_resizableBarWrite (sizeCode : _) (s : State) : exec (.resizableBarWrite sizeCode) s = execResizableBarWrite sizeCode s := rfl
@[simp] theorem exec_hostBar4Read (fn : _) (off : _) (len : _) (s : State) : exec (.hostBar4Read fn off len) s = execHostBar4Read fn off len s := rfl
@[simp] theorem exec_hostBar4Write (fn : _) (off : _) (d : _) (poison : _) (s : State) : exec (.hostBar4Write fn off d poison) s = execHostBar4Write fn off d poison s := rfl
@[simp] theorem exec_hostReadCompletion (tag : _) (c : _) (s : State) : exec (.hostReadCompletion tag c) s = execHostReadCompletion tag c s := rfl
@[simp] theorem exec_hostReadTimeout (tag : _) (s : State) : exec (.hostReadTimeout tag) s = execHostReadTimeout tag s := rfl
@[simp] theorem exec_functionLevelReset (fn : _) (s : State) : exec (.functionLevelReset fn) s = execFunctionLevelReset fn s := rfl
@[simp] theorem exec_hostLinkDown (s : State) : exec .hostLinkDown s = execHostLinkDown s := rfl
@[simp] theorem exec_hostLinkUp (rate : _) (width : _) (flit : _) (s : State) : exec (.hostLinkUp rate width flit) s = execHostLinkUp rate width flit s := rfl
@[simp] theorem exec_d3hotEntry (fn : _) (s : State) : exec (.d3hotEntry fn) s = execD3hotEntry fn s := rfl
@[simp] theorem exec_d0Return (fn : _) (s : State) : exec (.d0Return fn) s = execD0Return fn s := rfl
@[simp] theorem exec_doeRequest (obj : _) (s : State) : exec (.doeRequest obj) s = execDoeRequest obj s := rfl
@[simp] theorem exec_doeAbort (s : State) : exec .doeAbort s = execDoeAbort s := rfl
@[simp] theorem exec_stageSet (c : _) (s : State) : exec (.stageSet c) s = execStageSet c s := rfl
@[simp] theorem exec_stageCheck (c : _) (s : State) : exec (.stageCheck c) s = execStageCheck c s := rfl
@[simp] theorem exec_stagePost (c : _) (s : State) : exec (.stagePost c) s = execStagePost c s := rfl
@[simp] theorem exec_stageDiscard (c : _) (s : State) : exec (.stageDiscard c) s = execStageDiscard c s := rfl
@[simp] theorem exec_stageRead (c : _) (s : State) : exec (.stageRead c) s = execStageRead c s := rfl
@[simp] theorem exec_planLoad (c : _) (obj : _) (s : State) : exec (.planLoad c obj) s = execPlanLoad c obj s := rfl
@[simp] theorem exec_planAdmit (c : _) (s : State) : exec (.planAdmit c) s = execPlanAdmit c s := rfl
@[simp] theorem exec_planActivate (c : _) (s : State) : exec (.planActivate c) s = execPlanActivate c s := rfl
@[simp] theorem exec_planRetire (c : _) (s : State) : exec (.planRetire c) s = execPlanRetire c s := rfl
@[simp] theorem exec_tariffRead (c : _) (s : State) : exec (.tariffRead c) s = execTariffRead c s := rfl
@[simp] theorem exec_ctxBind (c : _) (s : State) : exec (.ctxBind c) s = execCtxBind c s := rfl
@[simp] theorem exec_ctxRoot (c : _) (s : State) : exec (.ctxRoot c) s = execCtxRoot c s := rfl
@[simp] theorem exec_xlateInval (c : _) (s : State) : exec (.xlateInval c) s = execXlateInval c s := rfl
@[simp] theorem exec_ctxClear (c : _) (s : State) : exec (.ctxClear c) s = execCtxClear c s := rfl
@[simp] theorem exec_deedSet (c : _) (s : State) : exec (.deedSet c) s = execDeedSet c s := rfl
@[simp] theorem exec_deedRead (c : _) (s : State) : exec (.deedRead c) s = execDeedRead c s := rfl
@[simp] theorem exec_winForce (c : _) (entry : _) (s : State) : exec (.winForce c entry) s = execWinForce c entry s := rfl
@[simp] theorem exec_memPoisonRead (c : _) (s : State) : exec (.memPoisonRead c) s = execMemPoisonRead c s := rfl
@[simp] theorem exec_memRetire (c : _) (s : State) : exec (.memRetire c) s = execMemRetire c s := rfl
@[simp] theorem exec_memRetireList (c : _) (s : State) : exec (.memRetireList c) s = execMemRetireList c s := rfl
@[simp] theorem exec_memScrub (c : _) (s : State) : exec (.memScrub c) s = execMemScrub c s := rfl
@[simp] theorem exec_tallyAssign (c : _) (s : State) : exec (.tallyAssign c) s = execTallyAssign c s := rfl
@[simp] theorem exec_tallyRead (c : _) (s : State) : exec (.tallyRead c) s = execTallyRead c s := rfl
@[simp] theorem exec_tallySet (c : _) (s : State) : exec (.tallySet c) s = execTallySet c s := rfl
@[simp] theorem exec_dmaQueueAssign (c : _) (s : State) : exec (.dmaQueueAssign c) s = execDmaQueueAssign c s := rfl
@[simp] theorem exec_dmaSubmit (c : _) (s : State) : exec (.dmaSubmit c) s = execDmaSubmit c s := rfl
@[simp] theorem exec_dmaQueueRead (c : _) (s : State) : exec (.dmaQueueRead c) s = execDmaQueueRead c s := rfl
@[simp] theorem exec_dmaFlush (c : _) (s : State) : exec (.dmaFlush c) s = execDmaFlush c s := rfl
@[simp] theorem exec_partRead (c : _) (s : State) : exec (.partRead c) s = execPartRead c s := rfl
@[simp] theorem exec_partOwners (c : _) (s : State) : exec (.partOwners c) s = execPartOwners c s := rfl
@[simp] theorem exec_partShares (c : _) (s : State) : exec (.partShares c) s = execPartShares c s := rfl
@[simp] theorem exec_partSeal (c : _) (s : State) : exec (.partSeal c) s = execPartSeal c s := rfl
@[simp] theorem exec_leatConfig (c : _) (s : State) : exec (.leatConfig c) s = execLeatConfig c s := rfl
@[simp] theorem exec_leatTrain (c : _) (s : State) : exec (.leatTrain c) s = execLeatTrain c s := rfl
@[simp] theorem exec_leatStatus (c : _) (s : State) : exec (.leatStatus c) s = execLeatStatus c s := rfl
@[simp] theorem exec_leatSave (c : _) (s : State) : exec (.leatSave c) s = execLeatSave c s := rfl
@[simp] theorem exec_siteCapRead (c : _) (s : State) : exec (.siteCapRead c) s = execSiteCapRead c s := rfl
@[simp] theorem exec_siteReset (c : _) (env : _) (s : State) : exec (.siteReset c env) s = execSiteReset c env s := rfl
@[simp] theorem exec_purseRead (c : _) (s : State) : exec (.purseRead c) s = execPurseRead c s := rfl
@[simp] theorem exec_siteBreachClear (c : _) (s : State) : exec (.siteBreachClear c) s = execSiteBreachClear c s := rfl
@[simp] theorem exec_turnRecordRead (c : _) (s : State) : exec (.turnRecordRead c) s = execTurnRecordRead c s := rfl
@[simp] theorem exec_fabStatsRead (c : _) (s : State) : exec (.fabStatsRead c) s = execFabStatsRead c s := rfl
@[simp] theorem exec_fabMissRead (c : _) (s : State) : exec (.fabMissRead c) s = execFabMissRead c s := rfl
@[simp] theorem exec_ledgerRead (c : _) (s : State) : exec (.ledgerRead c) s = execLedgerRead c s := rfl
@[simp] theorem exec_ledgerRelease (c : _) (s : State) : exec (.ledgerRelease c) s = execLedgerRelease c s := rfl
@[simp] theorem exec_ledgerOvfRead (c : _) (s : State) : exec (.ledgerOvfRead c) s = execLedgerOvfRead c s := rfl
@[simp] theorem exec_lcAdvance (c : _) (s : State) : exec (.lcAdvance c) s = execLcAdvance c s := rfl
@[simp] theorem exec_warrantLoad (c : _) (s : State) : exec (.warrantLoad c) s = execWarrantLoad c s := rfl
@[simp] theorem exec_warrantRead (c : _) (s : State) : exec (.warrantRead c) s = execWarrantRead c s := rfl
@[simp] theorem exec_attestQuote (c : _) (s : State) : exec (.attestQuote c) s = execAttestQuote c s := rfl
@[simp] theorem exec_fwChunk (c : _) (s : State) : exec (.fwChunk c) s = execFwChunk c s := rfl
@[simp] theorem exec_fwStatus (c : _) (s : State) : exec (.fwStatus c) s = execFwStatus c s := rfl
@[simp] theorem exec_fwActivate (c : _) (env : _) (s : State) : exec (.fwActivate c env) s = execFwActivate c env s := rfl
@[simp] theorem exec_fwDiscard (c : _) (s : State) : exec (.fwDiscard c) s = execFwDiscard c s := rfl
@[simp] theorem exec_pwrDomain (c : _) (s : State) : exec (.pwrDomain c) s = execPwrDomain c s := rfl
@[simp] theorem exec_thermRead (c : _) (s : State) : exec (.thermRead c) s = execThermRead c s := rfl
@[simp] theorem exec_thermWarn (c : _) (s : State) : exec (.thermWarn c) s = execThermWarn c s := rfl
@[simp] theorem exec_profSet (c : _) (s : State) : exec (.profSet c) s = execProfSet c s := rfl
@[simp] theorem exec_ageRead (c : _) (s : State) : exec (.ageRead c) s = execAgeRead c s := rfl
@[simp] theorem exec_agePolicy (c : _) (s : State) : exec (.agePolicy c) s = execAgePolicy c s := rfl
@[simp] theorem exec_turnInEdgeMissing (s : State) : exec .turnInEdgeMissing s = execTurnInEdgeMissing s := rfl
@[simp] theorem exec_serdesRefclkLoss (s : State) : exec .serdesRefclkLoss s = execSerdesRefclkLoss s := rfl
@[simp] theorem exec_serdesRefclkReturn (s : State) : exec .serdesRefclkReturn s = execSerdesRefclkReturn s := rfl
@[simp] theorem exec_slotSuspend (site : _) (s : State) : exec (.slotSuspend site) s = execSlotSuspend site s := rfl
@[simp] theorem exec_mctpSpdmMessage (msg : _) (s : State) : exec (.mctpSpdmMessage msg) s = execMctpSpdmMessage msg s := rfl
@[simp] theorem exec_cxlIoRequest (site : _) (tag : _) (s : State) : exec (.cxlIoRequest site tag) s = execCxlIoRequest site tag s := rfl
@[simp] theorem exec_vfEnableWrite (enable : _) (numVfs : _) (s : State) : exec (.vfEnableWrite enable numVfs) s = execVfEnableWrite enable numVfs s := rfl
@[simp] theorem exec_directoryWayEmptied (s : State) : exec .directoryWayEmptied s = execDirectoryWayEmptied s := rfl
@[simp] theorem exec_kyoharReportsRunning (s : State) : exec .kyoharReportsRunning s = execKyoharReportsRunning s := rfl

end Sys2Proof.Machine
end

