-- ==== Sys2Proof/Laws/State.lean ====
section
/-! SUPPORT. The fields of State that each shared update leaves alone, and what it leaves where it writes. -/

namespace Sys2Proof.Machine

/-! ### setPlan -/

@[simp] theorem setPlan_pending (s : State) (h : Nat) (v : Plan) : (setPlan s h v).pending = s.pending := rfl
@[simp] theorem setPlan_out (s : State) (h : Nat) (v : Plan) : (setPlan s h v).out = s.out := rfl
@[simp] theorem setPlan_fresh (s : State) (h : Nat) (v : Plan) : (setPlan s h v).fresh = s.fresh := rfl
@[simp] theorem setPlan_fuse (s : State) (h : Nat) (v : Plan) : (setPlan s h v).fuse = s.fuse := rfl
@[simp] theorem setPlan_otp (s : State) (h : Nat) (v : Plan) : (setPlan s h v).otp = s.otp := rfl
@[simp] theorem setPlan_pins (s : State) (h : Nat) (v : Plan) : (setPlan s h v).pins = s.pins := rfl
@[simp] theorem setPlan_boot (s : State) (h : Nat) (v : Plan) : (setPlan s h v).boot = s.boot := rfl
@[simp] theorem setPlan_turn (s : State) (h : Nat) (v : Plan) : (setPlan s h v).turn = s.turn := rfl
@[simp] theorem setPlan_set (s : State) (h : Nat) (v : Plan) : (setPlan s h v).set = s.set := rfl
@[simp] theorem setPlan_ledger (s : State) (h : Nat) (v : Plan) : (setPlan s h v).ledger = s.ledger := rfl
@[simp] theorem setPlan_glob (s : State) (h : Nat) (v : Plan) : (setPlan s h v).glob = s.glob := rfl
@[simp] theorem setPlan_cmd (s : State) (h : Nat) (v : Plan) : (setPlan s h v).cmd = s.cmd := rfl
@[simp] theorem setPlan_mem (s : State) (h : Nat) (v : Plan) : (setPlan s h v).mem = s.mem := rfl
@[simp] theorem setPlan_coh (s : State) (h : Nat) (v : Plan) : (setPlan s h v).coh = s.coh := rfl
@[simp] theorem setPlan_xlate (s : State) (h : Nat) (v : Plan) : (setPlan s h v).xlate = s.xlate := rfl
@[simp] theorem setPlan_fab (s : State) (h : Nat) (v : Plan) : (setPlan s h v).fab = s.fab := rfl
@[simp] theorem setPlan_tallies (s : State) (h : Nat) (v : Plan) : (setPlan s h v).tallies = s.tallies := rfl
@[simp] theorem setPlan_dma (s : State) (h : Nat) (v : Plan) : (setPlan s h v).dma = s.dma := rfl
@[simp] theorem setPlan_arr (s : State) (h : Nat) (v : Plan) : (setPlan s h v).arr = s.arr := rfl
@[simp] theorem setPlan_leat (s : State) (h : Nat) (v : Plan) : (setPlan s h v).leat = s.leat := rfl
@[simp] theorem setPlan_sites (s : State) (h : Nat) (v : Plan) : (setPlan s h v).sites = s.sites := rfl
@[simp] theorem setPlan_power (s : State) (h : Nat) (v : Plan) : (setPlan s h v).power = s.power := rfl
@[simp] theorem setPlan_host (s : State) (h : Nat) (v : Plan) : (setPlan s h v).host = s.host := rfl
@[simp] theorem setPlan_sec (s : State) (h : Nat) (v : Plan) : (setPlan s h v).sec = s.sec := rfl
@[simp] theorem setPlan_fw (s : State) (h : Nat) (v : Plan) : (setPlan s h v).fw = s.fw := rfl

/-! ### setAgent -/

@[simp] theorem setAgent_pending (s : State) (n : Nat) (v : Agent) : (setAgent s n v).pending = s.pending := rfl
@[simp] theorem setAgent_out (s : State) (n : Nat) (v : Agent) : (setAgent s n v).out = s.out := rfl
@[simp] theorem setAgent_fresh (s : State) (n : Nat) (v : Agent) : (setAgent s n v).fresh = s.fresh := rfl
@[simp] theorem setAgent_fuse (s : State) (n : Nat) (v : Agent) : (setAgent s n v).fuse = s.fuse := rfl
@[simp] theorem setAgent_otp (s : State) (n : Nat) (v : Agent) : (setAgent s n v).otp = s.otp := rfl
@[simp] theorem setAgent_pins (s : State) (n : Nat) (v : Agent) : (setAgent s n v).pins = s.pins := rfl
@[simp] theorem setAgent_boot (s : State) (n : Nat) (v : Agent) : (setAgent s n v).boot = s.boot := rfl
@[simp] theorem setAgent_turn (s : State) (n : Nat) (v : Agent) : (setAgent s n v).turn = s.turn := rfl
@[simp] theorem setAgent_set (s : State) (n : Nat) (v : Agent) : (setAgent s n v).set = s.set := rfl
@[simp] theorem setAgent_ledger (s : State) (n : Nat) (v : Agent) : (setAgent s n v).ledger = s.ledger := rfl
@[simp] theorem setAgent_glob (s : State) (n : Nat) (v : Agent) : (setAgent s n v).glob = s.glob := rfl
@[simp] theorem setAgent_cmd (s : State) (n : Nat) (v : Agent) : (setAgent s n v).cmd = s.cmd := rfl
@[simp] theorem setAgent_plans (s : State) (n : Nat) (v : Agent) : (setAgent s n v).plans = s.plans := rfl
@[simp] theorem setAgent_mem (s : State) (n : Nat) (v : Agent) : (setAgent s n v).mem = s.mem := rfl
@[simp] theorem setAgent_xlate (s : State) (n : Nat) (v : Agent) : (setAgent s n v).xlate = s.xlate := rfl
@[simp] theorem setAgent_fab (s : State) (n : Nat) (v : Agent) : (setAgent s n v).fab = s.fab := rfl
@[simp] theorem setAgent_tallies (s : State) (n : Nat) (v : Agent) : (setAgent s n v).tallies = s.tallies := rfl
@[simp] theorem setAgent_dma (s : State) (n : Nat) (v : Agent) : (setAgent s n v).dma = s.dma := rfl
@[simp] theorem setAgent_arr (s : State) (n : Nat) (v : Agent) : (setAgent s n v).arr = s.arr := rfl
@[simp] theorem setAgent_leat (s : State) (n : Nat) (v : Agent) : (setAgent s n v).leat = s.leat := rfl
@[simp] theorem setAgent_sites (s : State) (n : Nat) (v : Agent) : (setAgent s n v).sites = s.sites := rfl
@[simp] theorem setAgent_power (s : State) (n : Nat) (v : Agent) : (setAgent s n v).power = s.power := rfl
@[simp] theorem setAgent_host (s : State) (n : Nat) (v : Agent) : (setAgent s n v).host = s.host := rfl
@[simp] theorem setAgent_sec (s : State) (n : Nat) (v : Agent) : (setAgent s n v).sec = s.sec := rfl
@[simp] theorem setAgent_fw (s : State) (n : Nat) (v : Agent) : (setAgent s n v).fw = s.fw := rfl

/-! ### setFabQueue -/

@[simp] theorem setFabQueue_pending (s : State) (a b : Nat) (v : Queue) : (setFabQueue s a b v).pending = s.pending := rfl
@[simp] theorem setFabQueue_out (s : State) (a b : Nat) (v : Queue) : (setFabQueue s a b v).out = s.out := rfl
@[simp] theorem setFabQueue_fresh (s : State) (a b : Nat) (v : Queue) : (setFabQueue s a b v).fresh = s.fresh := rfl
@[simp] theorem setFabQueue_fuse (s : State) (a b : Nat) (v : Queue) : (setFabQueue s a b v).fuse = s.fuse := rfl
@[simp] theorem setFabQueue_otp (s : State) (a b : Nat) (v : Queue) : (setFabQueue s a b v).otp = s.otp := rfl
@[simp] theorem setFabQueue_pins (s : State) (a b : Nat) (v : Queue) : (setFabQueue s a b v).pins = s.pins := rfl
@[simp] theorem setFabQueue_boot (s : State) (a b : Nat) (v : Queue) : (setFabQueue s a b v).boot = s.boot := rfl
@[simp] theorem setFabQueue_turn (s : State) (a b : Nat) (v : Queue) : (setFabQueue s a b v).turn = s.turn := rfl
@[simp] theorem setFabQueue_set (s : State) (a b : Nat) (v : Queue) : (setFabQueue s a b v).set = s.set := rfl
@[simp] theorem setFabQueue_ledger (s : State) (a b : Nat) (v : Queue) : (setFabQueue s a b v).ledger = s.ledger := rfl
@[simp] theorem setFabQueue_glob (s : State) (a b : Nat) (v : Queue) : (setFabQueue s a b v).glob = s.glob := rfl
@[simp] theorem setFabQueue_cmd (s : State) (a b : Nat) (v : Queue) : (setFabQueue s a b v).cmd = s.cmd := rfl
@[simp] theorem setFabQueue_plans (s : State) (a b : Nat) (v : Queue) : (setFabQueue s a b v).plans = s.plans := rfl
@[simp] theorem setFabQueue_mem (s : State) (a b : Nat) (v : Queue) : (setFabQueue s a b v).mem = s.mem := rfl
@[simp] theorem setFabQueue_coh (s : State) (a b : Nat) (v : Queue) : (setFabQueue s a b v).coh = s.coh := rfl
@[simp] theorem setFabQueue_xlate (s : State) (a b : Nat) (v : Queue) : (setFabQueue s a b v).xlate = s.xlate := rfl
@[simp] theorem setFabQueue_tallies (s : State) (a b : Nat) (v : Queue) : (setFabQueue s a b v).tallies = s.tallies := rfl
@[simp] theorem setFabQueue_dma (s : State) (a b : Nat) (v : Queue) : (setFabQueue s a b v).dma = s.dma := rfl
@[simp] theorem setFabQueue_arr (s : State) (a b : Nat) (v : Queue) : (setFabQueue s a b v).arr = s.arr := rfl
@[simp] theorem setFabQueue_leat (s : State) (a b : Nat) (v : Queue) : (setFabQueue s a b v).leat = s.leat := rfl
@[simp] theorem setFabQueue_sites (s : State) (a b : Nat) (v : Queue) : (setFabQueue s a b v).sites = s.sites := rfl
@[simp] theorem setFabQueue_power (s : State) (a b : Nat) (v : Queue) : (setFabQueue s a b v).power = s.power := rfl
@[simp] theorem setFabQueue_host (s : State) (a b : Nat) (v : Queue) : (setFabQueue s a b v).host = s.host := rfl
@[simp] theorem setFabQueue_sec (s : State) (a b : Nat) (v : Queue) : (setFabQueue s a b v).sec = s.sec := rfl
@[simp] theorem setFabQueue_fw (s : State) (a b : Nat) (v : Queue) : (setFabQueue s a b v).fw = s.fw := rfl

/-! ### setSet -/

@[simp] theorem setSet_pending (s : State) (n : Nat) (v : StageSet) : (setSet s n v).pending = s.pending := rfl
@[simp] theorem setSet_out (s : State) (n : Nat) (v : StageSet) : (setSet s n v).out = s.out := rfl
@[simp] theorem setSet_fresh (s : State) (n : Nat) (v : StageSet) : (setSet s n v).fresh = s.fresh := rfl
@[simp] theorem setSet_fuse (s : State) (n : Nat) (v : StageSet) : (setSet s n v).fuse = s.fuse := rfl
@[simp] theorem setSet_otp (s : State) (n : Nat) (v : StageSet) : (setSet s n v).otp = s.otp := rfl
@[simp] theorem setSet_pins (s : State) (n : Nat) (v : StageSet) : (setSet s n v).pins = s.pins := rfl
@[simp] theorem setSet_boot (s : State) (n : Nat) (v : StageSet) : (setSet s n v).boot = s.boot := rfl
@[simp] theorem setSet_turn (s : State) (n : Nat) (v : StageSet) : (setSet s n v).turn = s.turn := rfl
@[simp] theorem setSet_set (s : State) (n : Nat) (v : StageSet) : (setSet s n v).set = s.set := rfl
@[simp] theorem setSet_ledger (s : State) (n : Nat) (v : StageSet) : (setSet s n v).ledger = s.ledger := rfl
@[simp] theorem setSet_glob (s : State) (n : Nat) (v : StageSet) : (setSet s n v).glob = s.glob := rfl
@[simp] theorem setSet_plans (s : State) (n : Nat) (v : StageSet) : (setSet s n v).plans = s.plans := rfl
@[simp] theorem setSet_mem (s : State) (n : Nat) (v : StageSet) : (setSet s n v).mem = s.mem := rfl
@[simp] theorem setSet_coh (s : State) (n : Nat) (v : StageSet) : (setSet s n v).coh = s.coh := rfl
@[simp] theorem setSet_xlate (s : State) (n : Nat) (v : StageSet) : (setSet s n v).xlate = s.xlate := rfl
@[simp] theorem setSet_fab (s : State) (n : Nat) (v : StageSet) : (setSet s n v).fab = s.fab := rfl
@[simp] theorem setSet_tallies (s : State) (n : Nat) (v : StageSet) : (setSet s n v).tallies = s.tallies := rfl
@[simp] theorem setSet_dma (s : State) (n : Nat) (v : StageSet) : (setSet s n v).dma = s.dma := rfl
@[simp] theorem setSet_arr (s : State) (n : Nat) (v : StageSet) : (setSet s n v).arr = s.arr := rfl
@[simp] theorem setSet_leat (s : State) (n : Nat) (v : StageSet) : (setSet s n v).leat = s.leat := rfl
@[simp] theorem setSet_sites (s : State) (n : Nat) (v : StageSet) : (setSet s n v).sites = s.sites := rfl
@[simp] theorem setSet_power (s : State) (n : Nat) (v : StageSet) : (setSet s n v).power = s.power := rfl
@[simp] theorem setSet_host (s : State) (n : Nat) (v : StageSet) : (setSet s n v).host = s.host := rfl
@[simp] theorem setSet_sec (s : State) (n : Nat) (v : StageSet) : (setSet s n v).sec = s.sec := rfl
@[simp] theorem setSet_fw (s : State) (n : Nat) (v : StageSet) : (setSet s n v).fw = s.fw := rfl

/-! ### setBank -/

@[simp] theorem setBank_pending (s : State) (n : Nat) (v : FlashBank) : (setBank s n v).pending = s.pending := rfl
@[simp] theorem setBank_out (s : State) (n : Nat) (v : FlashBank) : (setBank s n v).out = s.out := rfl
@[simp] theorem setBank_fresh (s : State) (n : Nat) (v : FlashBank) : (setBank s n v).fresh = s.fresh := rfl
@[simp] theorem setBank_fuse (s : State) (n : Nat) (v : FlashBank) : (setBank s n v).fuse = s.fuse := rfl
@[simp] theorem setBank_otp (s : State) (n : Nat) (v : FlashBank) : (setBank s n v).otp = s.otp := rfl
@[simp] theorem setBank_pins (s : State) (n : Nat) (v : FlashBank) : (setBank s n v).pins = s.pins := rfl
@[simp] theorem setBank_boot (s : State) (n : Nat) (v : FlashBank) : (setBank s n v).boot = s.boot := rfl
@[simp] theorem setBank_turn (s : State) (n : Nat) (v : FlashBank) : (setBank s n v).turn = s.turn := rfl
@[simp] theorem setBank_set (s : State) (n : Nat) (v : FlashBank) : (setBank s n v).set = s.set := rfl
@[simp] theorem setBank_ledger (s : State) (n : Nat) (v : FlashBank) : (setBank s n v).ledger = s.ledger := rfl
@[simp] theorem setBank_glob (s : State) (n : Nat) (v : FlashBank) : (setBank s n v).glob = s.glob := rfl
@[simp] theorem setBank_cmd (s : State) (n : Nat) (v : FlashBank) : (setBank s n v).cmd = s.cmd := rfl
@[simp] theorem setBank_plans (s : State) (n : Nat) (v : FlashBank) : (setBank s n v).plans = s.plans := rfl
@[simp] theorem setBank_mem (s : State) (n : Nat) (v : FlashBank) : (setBank s n v).mem = s.mem := rfl
@[simp] theorem setBank_coh (s : State) (n : Nat) (v : FlashBank) : (setBank s n v).coh = s.coh := rfl
@[simp] theorem setBank_xlate (s : State) (n : Nat) (v : FlashBank) : (setBank s n v).xlate = s.xlate := rfl
@[simp] theorem setBank_fab (s : State) (n : Nat) (v : FlashBank) : (setBank s n v).fab = s.fab := rfl
@[simp] theorem setBank_tallies (s : State) (n : Nat) (v : FlashBank) : (setBank s n v).tallies = s.tallies := rfl
@[simp] theorem setBank_dma (s : State) (n : Nat) (v : FlashBank) : (setBank s n v).dma = s.dma := rfl
@[simp] theorem setBank_arr (s : State) (n : Nat) (v : FlashBank) : (setBank s n v).arr = s.arr := rfl
@[simp] theorem setBank_leat (s : State) (n : Nat) (v : FlashBank) : (setBank s n v).leat = s.leat := rfl
@[simp] theorem setBank_sites (s : State) (n : Nat) (v : FlashBank) : (setBank s n v).sites = s.sites := rfl
@[simp] theorem setBank_power (s : State) (n : Nat) (v : FlashBank) : (setBank s n v).power = s.power := rfl
@[simp] theorem setBank_host (s : State) (n : Nat) (v : FlashBank) : (setBank s n v).host = s.host := rfl
@[simp] theorem setBank_sec (s : State) (n : Nat) (v : FlashBank) : (setBank s n v).sec = s.sec := rfl

/-! ### setStack -/

@[simp] theorem setStack_pending (s : State) (n : Nat) (v : Stack) : (setStack s n v).pending = s.pending := rfl
@[simp] theorem setStack_out (s : State) (n : Nat) (v : Stack) : (setStack s n v).out = s.out := rfl
@[simp] theorem setStack_fresh (s : State) (n : Nat) (v : Stack) : (setStack s n v).fresh = s.fresh := rfl
@[simp] theorem setStack_fuse (s : State) (n : Nat) (v : Stack) : (setStack s n v).fuse = s.fuse := rfl
@[simp] theorem setStack_otp (s : State) (n : Nat) (v : Stack) : (setStack s n v).otp = s.otp := rfl
@[simp] theorem setStack_pins (s : State) (n : Nat) (v : Stack) : (setStack s n v).pins = s.pins := rfl
@[simp] theorem setStack_boot (s : State) (n : Nat) (v : Stack) : (setStack s n v).boot = s.boot := rfl
@[simp] theorem setStack_turn (s : State) (n : Nat) (v : Stack) : (setStack s n v).turn = s.turn := rfl
@[simp] theorem setStack_set (s : State) (n : Nat) (v : Stack) : (setStack s n v).set = s.set := rfl
@[simp] theorem setStack_ledger (s : State) (n : Nat) (v : Stack) : (setStack s n v).ledger = s.ledger := rfl
@[simp] theorem setStack_glob (s : State) (n : Nat) (v : Stack) : (setStack s n v).glob = s.glob := rfl
@[simp] theorem setStack_cmd (s : State) (n : Nat) (v : Stack) : (setStack s n v).cmd = s.cmd := rfl
@[simp] theorem setStack_plans (s : State) (n : Nat) (v : Stack) : (setStack s n v).plans = s.plans := rfl
@[simp] theorem setStack_coh (s : State) (n : Nat) (v : Stack) : (setStack s n v).coh = s.coh := rfl
@[simp] theorem setStack_xlate (s : State) (n : Nat) (v : Stack) : (setStack s n v).xlate = s.xlate := rfl
@[simp] theorem setStack_fab (s : State) (n : Nat) (v : Stack) : (setStack s n v).fab = s.fab := rfl
@[simp] theorem setStack_tallies (s : State) (n : Nat) (v : Stack) : (setStack s n v).tallies = s.tallies := rfl
@[simp] theorem setStack_dma (s : State) (n : Nat) (v : Stack) : (setStack s n v).dma = s.dma := rfl
@[simp] theorem setStack_arr (s : State) (n : Nat) (v : Stack) : (setStack s n v).arr = s.arr := rfl
@[simp] theorem setStack_leat (s : State) (n : Nat) (v : Stack) : (setStack s n v).leat = s.leat := rfl
@[simp] theorem setStack_sites (s : State) (n : Nat) (v : Stack) : (setStack s n v).sites = s.sites := rfl
@[simp] theorem setStack_power (s : State) (n : Nat) (v : Stack) : (setStack s n v).power = s.power := rfl
@[simp] theorem setStack_host (s : State) (n : Nat) (v : Stack) : (setStack s n v).host = s.host := rfl
@[simp] theorem setStack_sec (s : State) (n : Nat) (v : Stack) : (setStack s n v).sec = s.sec := rfl
@[simp] theorem setStack_fw (s : State) (n : Nat) (v : Stack) : (setStack s n v).fw = s.fw := rfl

/-! ### setLog -/

@[simp] theorem setLog_pending (s : State) (n : Nat) (v : LogArr) : (setLog s n v).pending = s.pending := rfl
@[simp] theorem setLog_out (s : State) (n : Nat) (v : LogArr) : (setLog s n v).out = s.out := rfl
@[simp] theorem setLog_fresh (s : State) (n : Nat) (v : LogArr) : (setLog s n v).fresh = s.fresh := rfl
@[simp] theorem setLog_fuse (s : State) (n : Nat) (v : LogArr) : (setLog s n v).fuse = s.fuse := rfl
@[simp] theorem setLog_otp (s : State) (n : Nat) (v : LogArr) : (setLog s n v).otp = s.otp := rfl
@[simp] theorem setLog_pins (s : State) (n : Nat) (v : LogArr) : (setLog s n v).pins = s.pins := rfl
@[simp] theorem setLog_boot (s : State) (n : Nat) (v : LogArr) : (setLog s n v).boot = s.boot := rfl
@[simp] theorem setLog_turn (s : State) (n : Nat) (v : LogArr) : (setLog s n v).turn = s.turn := rfl
@[simp] theorem setLog_set (s : State) (n : Nat) (v : LogArr) : (setLog s n v).set = s.set := rfl
@[simp] theorem setLog_ledger (s : State) (n : Nat) (v : LogArr) : (setLog s n v).ledger = s.ledger := rfl
@[simp] theorem setLog_glob (s : State) (n : Nat) (v : LogArr) : (setLog s n v).glob = s.glob := rfl
@[simp] theorem setLog_cmd (s : State) (n : Nat) (v : LogArr) : (setLog s n v).cmd = s.cmd := rfl
@[simp] theorem setLog_plans (s : State) (n : Nat) (v : LogArr) : (setLog s n v).plans = s.plans := rfl
@[simp] theorem setLog_mem (s : State) (n : Nat) (v : LogArr) : (setLog s n v).mem = s.mem := rfl
@[simp] theorem setLog_coh (s : State) (n : Nat) (v : LogArr) : (setLog s n v).coh = s.coh := rfl
@[simp] theorem setLog_xlate (s : State) (n : Nat) (v : LogArr) : (setLog s n v).xlate = s.xlate := rfl
@[simp] theorem setLog_fab (s : State) (n : Nat) (v : LogArr) : (setLog s n v).fab = s.fab := rfl
@[simp] theorem setLog_tallies (s : State) (n : Nat) (v : LogArr) : (setLog s n v).tallies = s.tallies := rfl
@[simp] theorem setLog_dma (s : State) (n : Nat) (v : LogArr) : (setLog s n v).dma = s.dma := rfl
@[simp] theorem setLog_leat (s : State) (n : Nat) (v : LogArr) : (setLog s n v).leat = s.leat := rfl
@[simp] theorem setLog_sites (s : State) (n : Nat) (v : LogArr) : (setLog s n v).sites = s.sites := rfl
@[simp] theorem setLog_power (s : State) (n : Nat) (v : LogArr) : (setLog s n v).power = s.power := rfl
@[simp] theorem setLog_host (s : State) (n : Nat) (v : LogArr) : (setLog s n v).host = s.host := rfl
@[simp] theorem setLog_sec (s : State) (n : Nat) (v : LogArr) : (setLog s n v).sec = s.sec := rfl
@[simp] theorem setLog_fw (s : State) (n : Nat) (v : LogArr) : (setLog s n v).fw = s.fw := rfl

/-! ### setPhys -/

@[simp] theorem setPhys_pending (s : State) (n : Nat) (v : PhysArr) : (setPhys s n v).pending = s.pending := rfl
@[simp] theorem setPhys_out (s : State) (n : Nat) (v : PhysArr) : (setPhys s n v).out = s.out := rfl
@[simp] theorem setPhys_fresh (s : State) (n : Nat) (v : PhysArr) : (setPhys s n v).fresh = s.fresh := rfl
@[simp] theorem setPhys_fuse (s : State) (n : Nat) (v : PhysArr) : (setPhys s n v).fuse = s.fuse := rfl
@[simp] theorem setPhys_otp (s : State) (n : Nat) (v : PhysArr) : (setPhys s n v).otp = s.otp := rfl
@[simp] theorem setPhys_pins (s : State) (n : Nat) (v : PhysArr) : (setPhys s n v).pins = s.pins := rfl
@[simp] theorem setPhys_boot (s : State) (n : Nat) (v : PhysArr) : (setPhys s n v).boot = s.boot := rfl
@[simp] theorem setPhys_turn (s : State) (n : Nat) (v : PhysArr) : (setPhys s n v).turn = s.turn := rfl
@[simp] theorem setPhys_set (s : State) (n : Nat) (v : PhysArr) : (setPhys s n v).set = s.set := rfl
@[simp] theorem setPhys_ledger (s : State) (n : Nat) (v : PhysArr) : (setPhys s n v).ledger = s.ledger := rfl
@[simp] theorem setPhys_glob (s : State) (n : Nat) (v : PhysArr) : (setPhys s n v).glob = s.glob := rfl
@[simp] theorem setPhys_cmd (s : State) (n : Nat) (v : PhysArr) : (setPhys s n v).cmd = s.cmd := rfl
@[simp] theorem setPhys_plans (s : State) (n : Nat) (v : PhysArr) : (setPhys s n v).plans = s.plans := rfl
@[simp] theorem setPhys_mem (s : State) (n : Nat) (v : PhysArr) : (setPhys s n v).mem = s.mem := rfl
@[simp] theorem setPhys_coh (s : State) (n : Nat) (v : PhysArr) : (setPhys s n v).coh = s.coh := rfl
@[simp] theorem setPhys_xlate (s : State) (n : Nat) (v : PhysArr) : (setPhys s n v).xlate = s.xlate := rfl
@[simp] theorem setPhys_fab (s : State) (n : Nat) (v : PhysArr) : (setPhys s n v).fab = s.fab := rfl
@[simp] theorem setPhys_tallies (s : State) (n : Nat) (v : PhysArr) : (setPhys s n v).tallies = s.tallies := rfl
@[simp] theorem setPhys_dma (s : State) (n : Nat) (v : PhysArr) : (setPhys s n v).dma = s.dma := rfl
@[simp] theorem setPhys_leat (s : State) (n : Nat) (v : PhysArr) : (setPhys s n v).leat = s.leat := rfl
@[simp] theorem setPhys_sites (s : State) (n : Nat) (v : PhysArr) : (setPhys s n v).sites = s.sites := rfl
@[simp] theorem setPhys_power (s : State) (n : Nat) (v : PhysArr) : (setPhys s n v).power = s.power := rfl
@[simp] theorem setPhys_host (s : State) (n : Nat) (v : PhysArr) : (setPhys s n v).host = s.host := rfl
@[simp] theorem setPhys_sec (s : State) (n : Nat) (v : PhysArr) : (setPhys s n v).sec = s.sec := rfl
@[simp] theorem setPhys_fw (s : State) (n : Nat) (v : PhysArr) : (setPhys s n v).fw = s.fw := rfl

/-! ### setCtx -/

@[simp] theorem setCtx_pending (s : State) (n : Nat) (v : Ctx) : (setCtx s n v).pending = s.pending := rfl
@[simp] theorem setCtx_out (s : State) (n : Nat) (v : Ctx) : (setCtx s n v).out = s.out := rfl
@[simp] theorem setCtx_fresh (s : State) (n : Nat) (v : Ctx) : (setCtx s n v).fresh = s.fresh := rfl
@[simp] theorem setCtx_fuse (s : State) (n : Nat) (v : Ctx) : (setCtx s n v).fuse = s.fuse := rfl
@[simp] theorem setCtx_otp (s : State) (n : Nat) (v : Ctx) : (setCtx s n v).otp = s.otp := rfl
@[simp] theorem setCtx_pins (s : State) (n : Nat) (v : Ctx) : (setCtx s n v).pins = s.pins := rfl
@[simp] theorem setCtx_boot (s : State) (n : Nat) (v : Ctx) : (setCtx s n v).boot = s.boot := rfl
@[simp] theorem setCtx_turn (s : State) (n : Nat) (v : Ctx) : (setCtx s n v).turn = s.turn := rfl
@[simp] theorem setCtx_set (s : State) (n : Nat) (v : Ctx) : (setCtx s n v).set = s.set := rfl
@[simp] theorem setCtx_ledger (s : State) (n : Nat) (v : Ctx) : (setCtx s n v).ledger = s.ledger := rfl
@[simp] theorem setCtx_glob (s : State) (n : Nat) (v : Ctx) : (setCtx s n v).glob = s.glob := rfl
@[simp] theorem setCtx_cmd (s : State) (n : Nat) (v : Ctx) : (setCtx s n v).cmd = s.cmd := rfl
@[simp] theorem setCtx_plans (s : State) (n : Nat) (v : Ctx) : (setCtx s n v).plans = s.plans := rfl
@[simp] theorem setCtx_mem (s : State) (n : Nat) (v : Ctx) : (setCtx s n v).mem = s.mem := rfl
@[simp] theorem setCtx_coh (s : State) (n : Nat) (v : Ctx) : (setCtx s n v).coh = s.coh := rfl
@[simp] theorem setCtx_fab (s : State) (n : Nat) (v : Ctx) : (setCtx s n v).fab = s.fab := rfl
@[simp] theorem setCtx_tallies (s : State) (n : Nat) (v : Ctx) : (setCtx s n v).tallies = s.tallies := rfl
@[simp] theorem setCtx_dma (s : State) (n : Nat) (v : Ctx) : (setCtx s n v).dma = s.dma := rfl
@[simp] theorem setCtx_arr (s : State) (n : Nat) (v : Ctx) : (setCtx s n v).arr = s.arr := rfl
@[simp] theorem setCtx_leat (s : State) (n : Nat) (v : Ctx) : (setCtx s n v).leat = s.leat := rfl
@[simp] theorem setCtx_sites (s : State) (n : Nat) (v : Ctx) : (setCtx s n v).sites = s.sites := rfl
@[simp] theorem setCtx_power (s : State) (n : Nat) (v : Ctx) : (setCtx s n v).power = s.power := rfl
@[simp] theorem setCtx_host (s : State) (n : Nat) (v : Ctx) : (setCtx s n v).host = s.host := rfl
@[simp] theorem setCtx_sec (s : State) (n : Nat) (v : Ctx) : (setCtx s n v).sec = s.sec := rfl
@[simp] theorem setCtx_fw (s : State) (n : Nat) (v : Ctx) : (setCtx s n v).fw = s.fw := rfl

/-! ### emit -/

@[simp] theorem emit_pending (s : State) (o : Output) : (emit s o).pending = s.pending := rfl
@[simp] theorem emit_fresh (s : State) (o : Output) : (emit s o).fresh = s.fresh := rfl
@[simp] theorem emit_fuse (s : State) (o : Output) : (emit s o).fuse = s.fuse := rfl
@[simp] theorem emit_otp (s : State) (o : Output) : (emit s o).otp = s.otp := rfl
@[simp] theorem emit_pins (s : State) (o : Output) : (emit s o).pins = s.pins := rfl
@[simp] theorem emit_boot (s : State) (o : Output) : (emit s o).boot = s.boot := rfl
@[simp] theorem emit_turn (s : State) (o : Output) : (emit s o).turn = s.turn := rfl
@[simp] theorem emit_set (s : State) (o : Output) : (emit s o).set = s.set := rfl
@[simp] theorem emit_ledger (s : State) (o : Output) : (emit s o).ledger = s.ledger := rfl
@[simp] theorem emit_glob (s : State) (o : Output) : (emit s o).glob = s.glob := rfl
@[simp] theorem emit_cmd (s : State) (o : Output) : (emit s o).cmd = s.cmd := rfl
@[simp] theorem emit_plans (s : State) (o : Output) : (emit s o).plans = s.plans := rfl
@[simp] theorem emit_mem (s : State) (o : Output) : (emit s o).mem = s.mem := rfl
@[simp] theorem emit_coh (s : State) (o : Output) : (emit s o).coh = s.coh := rfl
@[simp] theorem emit_xlate (s : State) (o : Output) : (emit s o).xlate = s.xlate := rfl
@[simp] theorem emit_fab (s : State) (o : Output) : (emit s o).fab = s.fab := rfl
@[simp] theorem emit_tallies (s : State) (o : Output) : (emit s o).tallies = s.tallies := rfl
@[simp] theorem emit_dma (s : State) (o : Output) : (emit s o).dma = s.dma := rfl
@[simp] theorem emit_arr (s : State) (o : Output) : (emit s o).arr = s.arr := rfl
@[simp] theorem emit_leat (s : State) (o : Output) : (emit s o).leat = s.leat := rfl
@[simp] theorem emit_sites (s : State) (o : Output) : (emit s o).sites = s.sites := rfl
@[simp] theorem emit_power (s : State) (o : Output) : (emit s o).power = s.power := rfl
@[simp] theorem emit_host (s : State) (o : Output) : (emit s o).host = s.host := rfl
@[simp] theorem emit_sec (s : State) (o : Output) : (emit s o).sec = s.sec := rfl
@[simp] theorem emit_fw (s : State) (o : Output) : (emit s o).fw = s.fw := rfl

/-! ### setFunc -/

@[simp] theorem setFunc_pending (s : State) (n : Nat) (v : Func) : (setFunc s n v).pending = s.pending := rfl
@[simp] theorem setFunc_out (s : State) (n : Nat) (v : Func) : (setFunc s n v).out = s.out := rfl
@[simp] theorem setFunc_fresh (s : State) (n : Nat) (v : Func) : (setFunc s n v).fresh = s.fresh := rfl
@[simp] theorem setFunc_fuse (s : State) (n : Nat) (v : Func) : (setFunc s n v).fuse = s.fuse := rfl
@[simp] theorem setFunc_otp (s : State) (n : Nat) (v : Func) : (setFunc s n v).otp = s.otp := rfl
@[simp] theorem setFunc_pins (s : State) (n : Nat) (v : Func) : (setFunc s n v).pins = s.pins := rfl
@[simp] theorem setFunc_boot (s : State) (n : Nat) (v : Func) : (setFunc s n v).boot = s.boot := rfl
@[simp] theorem setFunc_turn (s : State) (n : Nat) (v : Func) : (setFunc s n v).turn = s.turn := rfl
@[simp] theorem setFunc_set (s : State) (n : Nat) (v : Func) : (setFunc s n v).set = s.set := rfl
@[simp] theorem setFunc_ledger (s : State) (n : Nat) (v : Func) : (setFunc s n v).ledger = s.ledger := rfl
@[simp] theorem setFunc_glob (s : State) (n : Nat) (v : Func) : (setFunc s n v).glob = s.glob := rfl
@[simp] theorem setFunc_cmd (s : State) (n : Nat) (v : Func) : (setFunc s n v).cmd = s.cmd := rfl
@[simp] theorem setFunc_plans (s : State) (n : Nat) (v : Func) : (setFunc s n v).plans = s.plans := rfl
@[simp] theorem setFunc_mem (s : State) (n : Nat) (v : Func) : (setFunc s n v).mem = s.mem := rfl
@[simp] theorem setFunc_coh (s : State) (n : Nat) (v : Func) : (setFunc s n v).coh = s.coh := rfl
@[simp] theorem setFunc_xlate (s : State) (n : Nat) (v : Func) : (setFunc s n v).xlate = s.xlate := rfl
@[simp] theorem setFunc_fab (s : State) (n : Nat) (v : Func) : (setFunc s n v).fab = s.fab := rfl
@[simp] theorem setFunc_tallies (s : State) (n : Nat) (v : Func) : (setFunc s n v).tallies = s.tallies := rfl
@[simp] theorem setFunc_dma (s : State) (n : Nat) (v : Func) : (setFunc s n v).dma = s.dma := rfl
@[simp] theorem setFunc_arr (s : State) (n : Nat) (v : Func) : (setFunc s n v).arr = s.arr := rfl
@[simp] theorem setFunc_leat (s : State) (n : Nat) (v : Func) : (setFunc s n v).leat = s.leat := rfl
@[simp] theorem setFunc_sites (s : State) (n : Nat) (v : Func) : (setFunc s n v).sites = s.sites := rfl
@[simp] theorem setFunc_power (s : State) (n : Nat) (v : Func) : (setFunc s n v).power = s.power := rfl
@[simp] theorem setFunc_sec (s : State) (n : Nat) (v : Func) : (setFunc s n v).sec = s.sec := rfl
@[simp] theorem setFunc_fw (s : State) (n : Nat) (v : Func) : (setFunc s n v).fw = s.fw := rfl

/-! ### setChan -/

@[simp] theorem setChan_pending (s : State) (n : Nat) (v : Chan) : (setChan s n v).pending = s.pending := rfl
@[simp] theorem setChan_out (s : State) (n : Nat) (v : Chan) : (setChan s n v).out = s.out := rfl
@[simp] theorem setChan_fresh (s : State) (n : Nat) (v : Chan) : (setChan s n v).fresh = s.fresh := rfl
@[simp] theorem setChan_fuse (s : State) (n : Nat) (v : Chan) : (setChan s n v).fuse = s.fuse := rfl
@[simp] theorem setChan_otp (s : State) (n : Nat) (v : Chan) : (setChan s n v).otp = s.otp := rfl
@[simp] theorem setChan_pins (s : State) (n : Nat) (v : Chan) : (setChan s n v).pins = s.pins := rfl
@[simp] theorem setChan_boot (s : State) (n : Nat) (v : Chan) : (setChan s n v).boot = s.boot := rfl
@[simp] theorem setChan_turn (s : State) (n : Nat) (v : Chan) : (setChan s n v).turn = s.turn := rfl
@[simp] theorem setChan_set (s : State) (n : Nat) (v : Chan) : (setChan s n v).set = s.set := rfl
@[simp] theorem setChan_ledger (s : State) (n : Nat) (v : Chan) : (setChan s n v).ledger = s.ledger := rfl
@[simp] theorem setChan_glob (s : State) (n : Nat) (v : Chan) : (setChan s n v).glob = s.glob := rfl
@[simp] theorem setChan_plans (s : State) (n : Nat) (v : Chan) : (setChan s n v).plans = s.plans := rfl
@[simp] theorem setChan_mem (s : State) (n : Nat) (v : Chan) : (setChan s n v).mem = s.mem := rfl
@[simp] theorem setChan_coh (s : State) (n : Nat) (v : Chan) : (setChan s n v).coh = s.coh := rfl
@[simp] theorem setChan_xlate (s : State) (n : Nat) (v : Chan) : (setChan s n v).xlate = s.xlate := rfl
@[simp] theorem setChan_fab (s : State) (n : Nat) (v : Chan) : (setChan s n v).fab = s.fab := rfl
@[simp] theorem setChan_tallies (s : State) (n : Nat) (v : Chan) : (setChan s n v).tallies = s.tallies := rfl
@[simp] theorem setChan_dma (s : State) (n : Nat) (v : Chan) : (setChan s n v).dma = s.dma := rfl
@[simp] theorem setChan_arr (s : State) (n : Nat) (v : Chan) : (setChan s n v).arr = s.arr := rfl
@[simp] theorem setChan_leat (s : State) (n : Nat) (v : Chan) : (setChan s n v).leat = s.leat := rfl
@[simp] theorem setChan_sites (s : State) (n : Nat) (v : Chan) : (setChan s n v).sites = s.sites := rfl
@[simp] theorem setChan_power (s : State) (n : Nat) (v : Chan) : (setChan s n v).power = s.power := rfl
@[simp] theorem setChan_host (s : State) (n : Nat) (v : Chan) : (setChan s n v).host = s.host := rfl
@[simp] theorem setChan_sec (s : State) (n : Nat) (v : Chan) : (setChan s n v).sec = s.sec := rfl
@[simp] theorem setChan_fw (s : State) (n : Nat) (v : Chan) : (setChan s n v).fw = s.fw := rfl

/-! ### takeFresh -/

@[simp] theorem takeFresh_pending (s : State) : (takeFresh s).pending = s.pending := rfl
@[simp] theorem takeFresh_out (s : State) : (takeFresh s).out = s.out := rfl
@[simp] theorem takeFresh_fuse (s : State) : (takeFresh s).fuse = s.fuse := rfl
@[simp] theorem takeFresh_otp (s : State) : (takeFresh s).otp = s.otp := rfl
@[simp] theorem takeFresh_pins (s : State) : (takeFresh s).pins = s.pins := rfl
@[simp] theorem takeFresh_boot (s : State) : (takeFresh s).boot = s.boot := rfl
@[simp] theorem takeFresh_turn (s : State) : (takeFresh s).turn = s.turn := rfl
@[simp] theorem takeFresh_set (s : State) : (takeFresh s).set = s.set := rfl
@[simp] theorem takeFresh_ledger (s : State) : (takeFresh s).ledger = s.ledger := rfl
@[simp] theorem takeFresh_glob (s : State) : (takeFresh s).glob = s.glob := rfl
@[simp] theorem takeFresh_cmd (s : State) : (takeFresh s).cmd = s.cmd := rfl
@[simp] theorem takeFresh_plans (s : State) : (takeFresh s).plans = s.plans := rfl
@[simp] theorem takeFresh_mem (s : State) : (takeFresh s).mem = s.mem := rfl
@[simp] theorem takeFresh_coh (s : State) : (takeFresh s).coh = s.coh := rfl
@[simp] theorem takeFresh_xlate (s : State) : (takeFresh s).xlate = s.xlate := rfl
@[simp] theorem takeFresh_fab (s : State) : (takeFresh s).fab = s.fab := rfl
@[simp] theorem takeFresh_tallies (s : State) : (takeFresh s).tallies = s.tallies := rfl
@[simp] theorem takeFresh_dma (s : State) : (takeFresh s).dma = s.dma := rfl
@[simp] theorem takeFresh_arr (s : State) : (takeFresh s).arr = s.arr := rfl
@[simp] theorem takeFresh_leat (s : State) : (takeFresh s).leat = s.leat := rfl
@[simp] theorem takeFresh_sites (s : State) : (takeFresh s).sites = s.sites := rfl
@[simp] theorem takeFresh_power (s : State) : (takeFresh s).power = s.power := rfl
@[simp] theorem takeFresh_host (s : State) : (takeFresh s).host = s.host := rfl
@[simp] theorem takeFresh_sec (s : State) : (takeFresh s).sec = s.sec := rfl
@[simp] theorem takeFresh_fw (s : State) : (takeFresh s).fw = s.fw := rfl

/-! ### setLink -/

@[simp] theorem setLink_pending (s : State) (n : Nat) (v : Link) : (setLink s n v).pending = s.pending := rfl
@[simp] theorem setLink_out (s : State) (n : Nat) (v : Link) : (setLink s n v).out = s.out := rfl
@[simp] theorem setLink_fresh (s : State) (n : Nat) (v : Link) : (setLink s n v).fresh = s.fresh := rfl
@[simp] theorem setLink_fuse (s : State) (n : Nat) (v : Link) : (setLink s n v).fuse = s.fuse := rfl
@[simp] theorem setLink_otp (s : State) (n : Nat) (v : Link) : (setLink s n v).otp = s.otp := rfl
@[simp] theorem setLink_pins (s : State) (n : Nat) (v : Link) : (setLink s n v).pins = s.pins := rfl
@[simp] theorem setLink_boot (s : State) (n : Nat) (v : Link) : (setLink s n v).boot = s.boot := rfl
@[simp] theorem setLink_turn (s : State) (n : Nat) (v : Link) : (setLink s n v).turn = s.turn := rfl
@[simp] theorem setLink_set (s : State) (n : Nat) (v : Link) : (setLink s n v).set = s.set := rfl
@[simp] theorem setLink_ledger (s : State) (n : Nat) (v : Link) : (setLink s n v).ledger = s.ledger := rfl
@[simp] theorem setLink_glob (s : State) (n : Nat) (v : Link) : (setLink s n v).glob = s.glob := rfl
@[simp] theorem setLink_cmd (s : State) (n : Nat) (v : Link) : (setLink s n v).cmd = s.cmd := rfl
@[simp] theorem setLink_plans (s : State) (n : Nat) (v : Link) : (setLink s n v).plans = s.plans := rfl
@[simp] theorem setLink_mem (s : State) (n : Nat) (v : Link) : (setLink s n v).mem = s.mem := rfl
@[simp] theorem setLink_coh (s : State) (n : Nat) (v : Link) : (setLink s n v).coh = s.coh := rfl
@[simp] theorem setLink_xlate (s : State) (n : Nat) (v : Link) : (setLink s n v).xlate = s.xlate := rfl
@[simp] theorem setLink_fab (s : State) (n : Nat) (v : Link) : (setLink s n v).fab = s.fab := rfl
@[simp] theorem setLink_tallies (s : State) (n : Nat) (v : Link) : (setLink s n v).tallies = s.tallies := rfl
@[simp] theorem setLink_dma (s : State) (n : Nat) (v : Link) : (setLink s n v).dma = s.dma := rfl
@[simp] theorem setLink_arr (s : State) (n : Nat) (v : Link) : (setLink s n v).arr = s.arr := rfl
@[simp] theorem setLink_sites (s : State) (n : Nat) (v : Link) : (setLink s n v).sites = s.sites := rfl
@[simp] theorem setLink_power (s : State) (n : Nat) (v : Link) : (setLink s n v).power = s.power := rfl
@[simp] theorem setLink_host (s : State) (n : Nat) (v : Link) : (setLink s n v).host = s.host := rfl
@[simp] theorem setLink_sec (s : State) (n : Nat) (v : Link) : (setLink s n v).sec = s.sec := rfl
@[simp] theorem setLink_fw (s : State) (n : Nat) (v : Link) : (setLink s n v).fw = s.fw := rfl

/-! ### setPort -/

@[simp] theorem setPort_pending (s : State) (n : Nat) (v : Port) : (setPort s n v).pending = s.pending := rfl
@[simp] theorem setPort_out (s : State) (n : Nat) (v : Port) : (setPort s n v).out = s.out := rfl
@[simp] theorem setPort_fresh (s : State) (n : Nat) (v : Port) : (setPort s n v).fresh = s.fresh := rfl
@[simp] theorem setPort_fuse (s : State) (n : Nat) (v : Port) : (setPort s n v).fuse = s.fuse := rfl
@[simp] theorem setPort_otp (s : State) (n : Nat) (v : Port) : (setPort s n v).otp = s.otp := rfl
@[simp] theorem setPort_pins (s : State) (n : Nat) (v : Port) : (setPort s n v).pins = s.pins := rfl
@[simp] theorem setPort_boot (s : State) (n : Nat) (v : Port) : (setPort s n v).boot = s.boot := rfl
@[simp] theorem setPort_turn (s : State) (n : Nat) (v : Port) : (setPort s n v).turn = s.turn := rfl
@[simp] theorem setPort_set (s : State) (n : Nat) (v : Port) : (setPort s n v).set = s.set := rfl
@[simp] theorem setPort_ledger (s : State) (n : Nat) (v : Port) : (setPort s n v).ledger = s.ledger := rfl
@[simp] theorem setPort_glob (s : State) (n : Nat) (v : Port) : (setPort s n v).glob = s.glob := rfl
@[simp] theorem setPort_cmd (s : State) (n : Nat) (v : Port) : (setPort s n v).cmd = s.cmd := rfl
@[simp] theorem setPort_plans (s : State) (n : Nat) (v : Port) : (setPort s n v).plans = s.plans := rfl
@[simp] theorem setPort_mem (s : State) (n : Nat) (v : Port) : (setPort s n v).mem = s.mem := rfl
@[simp] theorem setPort_coh (s : State) (n : Nat) (v : Port) : (setPort s n v).coh = s.coh := rfl
@[simp] theorem setPort_xlate (s : State) (n : Nat) (v : Port) : (setPort s n v).xlate = s.xlate := rfl
@[simp] theorem setPort_fab (s : State) (n : Nat) (v : Port) : (setPort s n v).fab = s.fab := rfl
@[simp] theorem setPort_tallies (s : State) (n : Nat) (v : Port) : (setPort s n v).tallies = s.tallies := rfl
@[simp] theorem setPort_dma (s : State) (n : Nat) (v : Port) : (setPort s n v).dma = s.dma := rfl
@[simp] theorem setPort_arr (s : State) (n : Nat) (v : Port) : (setPort s n v).arr = s.arr := rfl
@[simp] theorem setPort_sites (s : State) (n : Nat) (v : Port) : (setPort s n v).sites = s.sites := rfl
@[simp] theorem setPort_power (s : State) (n : Nat) (v : Port) : (setPort s n v).power = s.power := rfl
@[simp] theorem setPort_host (s : State) (n : Nat) (v : Port) : (setPort s n v).host = s.host := rfl
@[simp] theorem setPort_sec (s : State) (n : Nat) (v : Port) : (setPort s n v).sec = s.sec := rfl
@[simp] theorem setPort_fw (s : State) (n : Nat) (v : Port) : (setPort s n v).fw = s.fw := rfl

/-! ### setEngine -/

@[simp] theorem setEngine_pending (s : State) (n : Nat) (v : Engine) : (setEngine s n v).pending = s.pending := rfl
@[simp] theorem setEngine_out (s : State) (n : Nat) (v : Engine) : (setEngine s n v).out = s.out := rfl
@[simp] theorem setEngine_fresh (s : State) (n : Nat) (v : Engine) : (setEngine s n v).fresh = s.fresh := rfl
@[simp] theorem setEngine_fuse (s : State) (n : Nat) (v : Engine) : (setEngine s n v).fuse = s.fuse := rfl
@[simp] theorem setEngine_otp (s : State) (n : Nat) (v : Engine) : (setEngine s n v).otp = s.otp := rfl
@[simp] theorem setEngine_pins (s : State) (n : Nat) (v : Engine) : (setEngine s n v).pins = s.pins := rfl
@[simp] theorem setEngine_boot (s : State) (n : Nat) (v : Engine) : (setEngine s n v).boot = s.boot := rfl
@[simp] theorem setEngine_turn (s : State) (n : Nat) (v : Engine) : (setEngine s n v).turn = s.turn := rfl
@[simp] theorem setEngine_set (s : State) (n : Nat) (v : Engine) : (setEngine s n v).set = s.set := rfl
@[simp] theorem setEngine_ledger (s : State) (n : Nat) (v : Engine) : (setEngine s n v).ledger = s.ledger := rfl
@[simp] theorem setEngine_glob (s : State) (n : Nat) (v : Engine) : (setEngine s n v).glob = s.glob := rfl
@[simp] theorem setEngine_cmd (s : State) (n : Nat) (v : Engine) : (setEngine s n v).cmd = s.cmd := rfl
@[simp] theorem setEngine_plans (s : State) (n : Nat) (v : Engine) : (setEngine s n v).plans = s.plans := rfl
@[simp] theorem setEngine_mem (s : State) (n : Nat) (v : Engine) : (setEngine s n v).mem = s.mem := rfl
@[simp] theorem setEngine_coh (s : State) (n : Nat) (v : Engine) : (setEngine s n v).coh = s.coh := rfl
@[simp] theorem setEngine_xlate (s : State) (n : Nat) (v : Engine) : (setEngine s n v).xlate = s.xlate := rfl
@[simp] theorem setEngine_fab (s : State) (n : Nat) (v : Engine) : (setEngine s n v).fab = s.fab := rfl
@[simp] theorem setEngine_tallies (s : State) (n : Nat) (v : Engine) : (setEngine s n v).tallies = s.tallies := rfl
@[simp] theorem setEngine_arr (s : State) (n : Nat) (v : Engine) : (setEngine s n v).arr = s.arr := rfl
@[simp] theorem setEngine_leat (s : State) (n : Nat) (v : Engine) : (setEngine s n v).leat = s.leat := rfl
@[simp] theorem setEngine_sites (s : State) (n : Nat) (v : Engine) : (setEngine s n v).sites = s.sites := rfl
@[simp] theorem setEngine_power (s : State) (n : Nat) (v : Engine) : (setEngine s n v).power = s.power := rfl
@[simp] theorem setEngine_host (s : State) (n : Nat) (v : Engine) : (setEngine s n v).host = s.host := rfl
@[simp] theorem setEngine_sec (s : State) (n : Nat) (v : Engine) : (setEngine s n v).sec = s.sec := rfl
@[simp] theorem setEngine_fw (s : State) (n : Nat) (v : Engine) : (setEngine s n v).fw = s.fw := rfl

/-! ### setSite -/

@[simp] theorem setSite_pending (s : State) (n : Nat) (v : Site) : (setSite s n v).pending = s.pending := rfl
@[simp] theorem setSite_out (s : State) (n : Nat) (v : Site) : (setSite s n v).out = s.out := rfl
@[simp] theorem setSite_fresh (s : State) (n : Nat) (v : Site) : (setSite s n v).fresh = s.fresh := rfl
@[simp] theorem setSite_fuse (s : State) (n : Nat) (v : Site) : (setSite s n v).fuse = s.fuse := rfl
@[simp] theorem setSite_otp (s : State) (n : Nat) (v : Site) : (setSite s n v).otp = s.otp := rfl
@[simp] theorem setSite_pins (s : State) (n : Nat) (v : Site) : (setSite s n v).pins = s.pins := rfl
@[simp] theorem setSite_boot (s : State) (n : Nat) (v : Site) : (setSite s n v).boot = s.boot := rfl
@[simp] theorem setSite_turn (s : State) (n : Nat) (v : Site) : (setSite s n v).turn = s.turn := rfl
@[simp] theorem setSite_set (s : State) (n : Nat) (v : Site) : (setSite s n v).set = s.set := rfl
@[simp] theorem setSite_ledger (s : State) (n : Nat) (v : Site) : (setSite s n v).ledger = s.ledger := rfl
@[simp] theorem setSite_glob (s : State) (n : Nat) (v : Site) : (setSite s n v).glob = s.glob := rfl
@[simp] theorem setSite_cmd (s : State) (n : Nat) (v : Site) : (setSite s n v).cmd = s.cmd := rfl
@[simp] theorem setSite_plans (s : State) (n : Nat) (v : Site) : (setSite s n v).plans = s.plans := rfl
@[simp] theorem setSite_mem (s : State) (n : Nat) (v : Site) : (setSite s n v).mem = s.mem := rfl
@[simp] theorem setSite_coh (s : State) (n : Nat) (v : Site) : (setSite s n v).coh = s.coh := rfl
@[simp] theorem setSite_xlate (s : State) (n : Nat) (v : Site) : (setSite s n v).xlate = s.xlate := rfl
@[simp] theorem setSite_fab (s : State) (n : Nat) (v : Site) : (setSite s n v).fab = s.fab := rfl
@[simp] theorem setSite_tallies (s : State) (n : Nat) (v : Site) : (setSite s n v).tallies = s.tallies := rfl
@[simp] theorem setSite_dma (s : State) (n : Nat) (v : Site) : (setSite s n v).dma = s.dma := rfl
@[simp] theorem setSite_arr (s : State) (n : Nat) (v : Site) : (setSite s n v).arr = s.arr := rfl
@[simp] theorem setSite_leat (s : State) (n : Nat) (v : Site) : (setSite s n v).leat = s.leat := rfl
@[simp] theorem setSite_power (s : State) (n : Nat) (v : Site) : (setSite s n v).power = s.power := rfl
@[simp] theorem setSite_host (s : State) (n : Nat) (v : Site) : (setSite s n v).host = s.host := rfl
@[simp] theorem setSite_sec (s : State) (n : Nat) (v : Site) : (setSite s n v).sec = s.sec := rfl
@[simp] theorem setSite_fw (s : State) (n : Nat) (v : Site) : (setSite s n v).fw = s.fw := rfl

/-! ### setTally -/

@[simp] theorem setTally_pending (s : State) (n : Nat) (v : Tally) : (setTally s n v).pending = s.pending := rfl
@[simp] theorem setTally_out (s : State) (n : Nat) (v : Tally) : (setTally s n v).out = s.out := rfl
@[simp] theorem setTally_fresh (s : State) (n : Nat) (v : Tally) : (setTally s n v).fresh = s.fresh := rfl
@[simp] theorem setTally_fuse (s : State) (n : Nat) (v : Tally) : (setTally s n v).fuse = s.fuse := rfl
@[simp] theorem setTally_otp (s : State) (n : Nat) (v : Tally) : (setTally s n v).otp = s.otp := rfl
@[simp] theorem setTally_pins (s : State) (n : Nat) (v : Tally) : (setTally s n v).pins = s.pins := rfl
@[simp] theorem setTally_boot (s : State) (n : Nat) (v : Tally) : (setTally s n v).boot = s.boot := rfl
@[simp] theorem setTally_turn (s : State) (n : Nat) (v : Tally) : (setTally s n v).turn = s.turn := rfl
@[simp] theorem setTally_set (s : State) (n : Nat) (v : Tally) : (setTally s n v).set = s.set := rfl
@[simp] theorem setTally_ledger (s : State) (n : Nat) (v : Tally) : (setTally s n v).ledger = s.ledger := rfl
@[simp] theorem setTally_glob (s : State) (n : Nat) (v : Tally) : (setTally s n v).glob = s.glob := rfl
@[simp] theorem setTally_cmd (s : State) (n : Nat) (v : Tally) : (setTally s n v).cmd = s.cmd := rfl
@[simp] theorem setTally_plans (s : State) (n : Nat) (v : Tally) : (setTally s n v).plans = s.plans := rfl
@[simp] theorem setTally_mem (s : State) (n : Nat) (v : Tally) : (setTally s n v).mem = s.mem := rfl
@[simp] theorem setTally_coh (s : State) (n : Nat) (v : Tally) : (setTally s n v).coh = s.coh := rfl
@[simp] theorem setTally_xlate (s : State) (n : Nat) (v : Tally) : (setTally s n v).xlate = s.xlate := rfl
@[simp] theorem setTally_fab (s : State) (n : Nat) (v : Tally) : (setTally s n v).fab = s.fab := rfl
@[simp] theorem setTally_dma (s : State) (n : Nat) (v : Tally) : (setTally s n v).dma = s.dma := rfl
@[simp] theorem setTally_arr (s : State) (n : Nat) (v : Tally) : (setTally s n v).arr = s.arr := rfl
@[simp] theorem setTally_leat (s : State) (n : Nat) (v : Tally) : (setTally s n v).leat = s.leat := rfl
@[simp] theorem setTally_sites (s : State) (n : Nat) (v : Tally) : (setTally s n v).sites = s.sites := rfl
@[simp] theorem setTally_power (s : State) (n : Nat) (v : Tally) : (setTally s n v).power = s.power := rfl
@[simp] theorem setTally_host (s : State) (n : Nat) (v : Tally) : (setTally s n v).host = s.host := rfl
@[simp] theorem setTally_sec (s : State) (n : Nat) (v : Tally) : (setTally s n v).sec = s.sec := rfl
@[simp] theorem setTally_fw (s : State) (n : Nat) (v : Tally) : (setTally s n v).fw = s.fw := rfl

/-! ### setAge -/

@[simp] theorem setAge_pending (s : State) (n : Nat) (v : Age) : (setAge s n v).pending = s.pending := rfl
@[simp] theorem setAge_out (s : State) (n : Nat) (v : Age) : (setAge s n v).out = s.out := rfl
@[simp] theorem setAge_fresh (s : State) (n : Nat) (v : Age) : (setAge s n v).fresh = s.fresh := rfl
@[simp] theorem setAge_fuse (s : State) (n : Nat) (v : Age) : (setAge s n v).fuse = s.fuse := rfl
@[simp] theorem setAge_otp (s : State) (n : Nat) (v : Age) : (setAge s n v).otp = s.otp := rfl
@[simp] theorem setAge_pins (s : State) (n : Nat) (v : Age) : (setAge s n v).pins = s.pins := rfl
@[simp] theorem setAge_boot (s : State) (n : Nat) (v : Age) : (setAge s n v).boot = s.boot := rfl
@[simp] theorem setAge_turn (s : State) (n : Nat) (v : Age) : (setAge s n v).turn = s.turn := rfl
@[simp] theorem setAge_set (s : State) (n : Nat) (v : Age) : (setAge s n v).set = s.set := rfl
@[simp] theorem setAge_ledger (s : State) (n : Nat) (v : Age) : (setAge s n v).ledger = s.ledger := rfl
@[simp] theorem setAge_glob (s : State) (n : Nat) (v : Age) : (setAge s n v).glob = s.glob := rfl
@[simp] theorem setAge_cmd (s : State) (n : Nat) (v : Age) : (setAge s n v).cmd = s.cmd := rfl
@[simp] theorem setAge_plans (s : State) (n : Nat) (v : Age) : (setAge s n v).plans = s.plans := rfl
@[simp] theorem setAge_mem (s : State) (n : Nat) (v : Age) : (setAge s n v).mem = s.mem := rfl
@[simp] theorem setAge_coh (s : State) (n : Nat) (v : Age) : (setAge s n v).coh = s.coh := rfl
@[simp] theorem setAge_xlate (s : State) (n : Nat) (v : Age) : (setAge s n v).xlate = s.xlate := rfl
@[simp] theorem setAge_fab (s : State) (n : Nat) (v : Age) : (setAge s n v).fab = s.fab := rfl
@[simp] theorem setAge_tallies (s : State) (n : Nat) (v : Age) : (setAge s n v).tallies = s.tallies := rfl
@[simp] theorem setAge_dma (s : State) (n : Nat) (v : Age) : (setAge s n v).dma = s.dma := rfl
@[simp] theorem setAge_arr (s : State) (n : Nat) (v : Age) : (setAge s n v).arr = s.arr := rfl
@[simp] theorem setAge_leat (s : State) (n : Nat) (v : Age) : (setAge s n v).leat = s.leat := rfl
@[simp] theorem setAge_sites (s : State) (n : Nat) (v : Age) : (setAge s n v).sites = s.sites := rfl
@[simp] theorem setAge_host (s : State) (n : Nat) (v : Age) : (setAge s n v).host = s.host := rfl
@[simp] theorem setAge_sec (s : State) (n : Nat) (v : Age) : (setAge s n v).sec = s.sec := rfl
@[simp] theorem setAge_fw (s : State) (n : Nat) (v : Age) : (setAge s n v).fw = s.fw := rfl

/-! ### setDeed -/

@[simp] theorem setDeed_pending (s : State) (n : Nat) (v : Deed) : (setDeed s n v).pending = s.pending := rfl
@[simp] theorem setDeed_out (s : State) (n : Nat) (v : Deed) : (setDeed s n v).out = s.out := rfl
@[simp] theorem setDeed_fresh (s : State) (n : Nat) (v : Deed) : (setDeed s n v).fresh = s.fresh := rfl
@[simp] theorem setDeed_fuse (s : State) (n : Nat) (v : Deed) : (setDeed s n v).fuse = s.fuse := rfl
@[simp] theorem setDeed_otp (s : State) (n : Nat) (v : Deed) : (setDeed s n v).otp = s.otp := rfl
@[simp] theorem setDeed_pins (s : State) (n : Nat) (v : Deed) : (setDeed s n v).pins = s.pins := rfl
@[simp] theorem setDeed_boot (s : State) (n : Nat) (v : Deed) : (setDeed s n v).boot = s.boot := rfl
@[simp] theorem setDeed_turn (s : State) (n : Nat) (v : Deed) : (setDeed s n v).turn = s.turn := rfl
@[simp] theorem setDeed_set (s : State) (n : Nat) (v : Deed) : (setDeed s n v).set = s.set := rfl
@[simp] theorem setDeed_ledger (s : State) (n : Nat) (v : Deed) : (setDeed s n v).ledger = s.ledger := rfl
@[simp] theorem setDeed_glob (s : State) (n : Nat) (v : Deed) : (setDeed s n v).glob = s.glob := rfl
@[simp] theorem setDeed_cmd (s : State) (n : Nat) (v : Deed) : (setDeed s n v).cmd = s.cmd := rfl
@[simp] theorem setDeed_plans (s : State) (n : Nat) (v : Deed) : (setDeed s n v).plans = s.plans := rfl
@[simp] theorem setDeed_coh (s : State) (n : Nat) (v : Deed) : (setDeed s n v).coh = s.coh := rfl
@[simp] theorem setDeed_xlate (s : State) (n : Nat) (v : Deed) : (setDeed s n v).xlate = s.xlate := rfl
@[simp] theorem setDeed_fab (s : State) (n : Nat) (v : Deed) : (setDeed s n v).fab = s.fab := rfl
@[simp] theorem setDeed_tallies (s : State) (n : Nat) (v : Deed) : (setDeed s n v).tallies = s.tallies := rfl
@[simp] theorem setDeed_dma (s : State) (n : Nat) (v : Deed) : (setDeed s n v).dma = s.dma := rfl
@[simp] theorem setDeed_arr (s : State) (n : Nat) (v : Deed) : (setDeed s n v).arr = s.arr := rfl
@[simp] theorem setDeed_leat (s : State) (n : Nat) (v : Deed) : (setDeed s n v).leat = s.leat := rfl
@[simp] theorem setDeed_sites (s : State) (n : Nat) (v : Deed) : (setDeed s n v).sites = s.sites := rfl
@[simp] theorem setDeed_power (s : State) (n : Nat) (v : Deed) : (setDeed s n v).power = s.power := rfl
@[simp] theorem setDeed_host (s : State) (n : Nat) (v : Deed) : (setDeed s n v).host = s.host := rfl
@[simp] theorem setDeed_sec (s : State) (n : Nat) (v : Deed) : (setDeed s n v).sec = s.sec := rfl
@[simp] theorem setDeed_fw (s : State) (n : Nat) (v : Deed) : (setDeed s n v).fw = s.fw := rfl

/-! ### setDir -/

@[simp] theorem setDir_pending (s : State) (n : Nat) (v : DirEntry) : (setDir s n v).pending = s.pending := rfl
@[simp] theorem setDir_out (s : State) (n : Nat) (v : DirEntry) : (setDir s n v).out = s.out := rfl
@[simp] theorem setDir_fresh (s : State) (n : Nat) (v : DirEntry) : (setDir s n v).fresh = s.fresh := rfl
@[simp] theorem setDir_fuse (s : State) (n : Nat) (v : DirEntry) : (setDir s n v).fuse = s.fuse := rfl
@[simp] theorem setDir_otp (s : State) (n : Nat) (v : DirEntry) : (setDir s n v).otp = s.otp := rfl
@[simp] theorem setDir_pins (s : State) (n : Nat) (v : DirEntry) : (setDir s n v).pins = s.pins := rfl
@[simp] theorem setDir_boot (s : State) (n : Nat) (v : DirEntry) : (setDir s n v).boot = s.boot := rfl
@[simp] theorem setDir_turn (s : State) (n : Nat) (v : DirEntry) : (setDir s n v).turn = s.turn := rfl
@[simp] theorem setDir_set (s : State) (n : Nat) (v : DirEntry) : (setDir s n v).set = s.set := rfl
@[simp] theorem setDir_ledger (s : State) (n : Nat) (v : DirEntry) : (setDir s n v).ledger = s.ledger := rfl
@[simp] theorem setDir_glob (s : State) (n : Nat) (v : DirEntry) : (setDir s n v).glob = s.glob := rfl
@[simp] theorem setDir_cmd (s : State) (n : Nat) (v : DirEntry) : (setDir s n v).cmd = s.cmd := rfl
@[simp] theorem setDir_plans (s : State) (n : Nat) (v : DirEntry) : (setDir s n v).plans = s.plans := rfl
@[simp] theorem setDir_mem (s : State) (n : Nat) (v : DirEntry) : (setDir s n v).mem = s.mem := rfl
@[simp] theorem setDir_xlate (s : State) (n : Nat) (v : DirEntry) : (setDir s n v).xlate = s.xlate := rfl
@[simp] theorem setDir_fab (s : State) (n : Nat) (v : DirEntry) : (setDir s n v).fab = s.fab := rfl
@[simp] theorem setDir_tallies (s : State) (n : Nat) (v : DirEntry) : (setDir s n v).tallies = s.tallies := rfl
@[simp] theorem setDir_dma (s : State) (n : Nat) (v : DirEntry) : (setDir s n v).dma = s.dma := rfl
@[simp] theorem setDir_arr (s : State) (n : Nat) (v : DirEntry) : (setDir s n v).arr = s.arr := rfl
@[simp] theorem setDir_leat (s : State) (n : Nat) (v : DirEntry) : (setDir s n v).leat = s.leat := rfl
@[simp] theorem setDir_sites (s : State) (n : Nat) (v : DirEntry) : (setDir s n v).sites = s.sites := rfl
@[simp] theorem setDir_power (s : State) (n : Nat) (v : DirEntry) : (setDir s n v).power = s.power := rfl
@[simp] theorem setDir_host (s : State) (n : Nat) (v : DirEntry) : (setDir s n v).host = s.host := rfl
@[simp] theorem setDir_sec (s : State) (n : Nat) (v : DirEntry) : (setDir s n v).sec = s.sec := rfl
@[simp] theorem setDir_fw (s : State) (n : Nat) (v : DirEntry) : (setDir s n v).fw = s.fw := rfl

/-! ### noteBusy -/

/-- The work noted for the measured record changes the Turn unit's list alone. -/
theorem noteBusy_rest (s : State) (r : Res) (p : Nat) :
    noteBusy s r p = { s with turn := { s.turn with busyNow := (noteBusy s r p).turn.busyNow } } := by
  unfold noteBusy
  dsimp only
  split <;> rfl

@[simp] theorem noteBusy_pending (s : State) (r : Res) (p : Nat) : (noteBusy s r p).pending = s.pending := by rw [noteBusy_rest]
@[simp] theorem noteBusy_out (s : State) (r : Res) (p : Nat) : (noteBusy s r p).out = s.out := by rw [noteBusy_rest]
@[simp] theorem noteBusy_fresh (s : State) (r : Res) (p : Nat) : (noteBusy s r p).fresh = s.fresh := by rw [noteBusy_rest]
@[simp] theorem noteBusy_fuse (s : State) (r : Res) (p : Nat) : (noteBusy s r p).fuse = s.fuse := by rw [noteBusy_rest]
@[simp] theorem noteBusy_otp (s : State) (r : Res) (p : Nat) : (noteBusy s r p).otp = s.otp := by rw [noteBusy_rest]
@[simp] theorem noteBusy_pins (s : State) (r : Res) (p : Nat) : (noteBusy s r p).pins = s.pins := by rw [noteBusy_rest]
@[simp] theorem noteBusy_boot (s : State) (r : Res) (p : Nat) : (noteBusy s r p).boot = s.boot := by rw [noteBusy_rest]
@[simp] theorem noteBusy_set (s : State) (r : Res) (p : Nat) : (noteBusy s r p).set = s.set := by rw [noteBusy_rest]
@[simp] theorem noteBusy_ledger (s : State) (r : Res) (p : Nat) : (noteBusy s r p).ledger = s.ledger := by rw [noteBusy_rest]
@[simp] theorem noteBusy_glob (s : State) (r : Res) (p : Nat) : (noteBusy s r p).glob = s.glob := by rw [noteBusy_rest]
@[simp] theorem noteBusy_cmd (s : State) (r : Res) (p : Nat) : (noteBusy s r p).cmd = s.cmd := by rw [noteBusy_rest]
@[simp] theorem noteBusy_plans (s : State) (r : Res) (p : Nat) : (noteBusy s r p).plans = s.plans := by rw [noteBusy_rest]
@[simp] theorem noteBusy_mem (s : State) (r : Res) (p : Nat) : (noteBusy s r p).mem = s.mem := by rw [noteBusy_rest]
@[simp] theorem noteBusy_coh (s : State) (r : Res) (p : Nat) : (noteBusy s r p).coh = s.coh := by rw [noteBusy_rest]
@[simp] theorem noteBusy_xlate (s : State) (r : Res) (p : Nat) : (noteBusy s r p).xlate = s.xlate := by rw [noteBusy_rest]
@[simp] theorem noteBusy_fab (s : State) (r : Res) (p : Nat) : (noteBusy s r p).fab = s.fab := by rw [noteBusy_rest]
@[simp] theorem noteBusy_tallies (s : State) (r : Res) (p : Nat) : (noteBusy s r p).tallies = s.tallies := by rw [noteBusy_rest]
@[simp] theorem noteBusy_dma (s : State) (r : Res) (p : Nat) : (noteBusy s r p).dma = s.dma := by rw [noteBusy_rest]
@[simp] theorem noteBusy_arr (s : State) (r : Res) (p : Nat) : (noteBusy s r p).arr = s.arr := by rw [noteBusy_rest]
@[simp] theorem noteBusy_leat (s : State) (r : Res) (p : Nat) : (noteBusy s r p).leat = s.leat := by rw [noteBusy_rest]
@[simp] theorem noteBusy_sites (s : State) (r : Res) (p : Nat) : (noteBusy s r p).sites = s.sites := by rw [noteBusy_rest]
@[simp] theorem noteBusy_power (s : State) (r : Res) (p : Nat) : (noteBusy s r p).power = s.power := by rw [noteBusy_rest]
@[simp] theorem noteBusy_host (s : State) (r : Res) (p : Nat) : (noteBusy s r p).host = s.host := by rw [noteBusy_rest]
@[simp] theorem noteBusy_sec (s : State) (r : Res) (p : Nat) : (noteBusy s r p).sec = s.sec := by rw [noteBusy_rest]
@[simp] theorem noteBusy_fw (s : State) (r : Res) (p : Nat) : (noteBusy s r p).fw = s.fw := by rw [noteBusy_rest]

/-! ### putTxn -/

@[simp] theorem putTxn_pending (s : State) (t : Txn) : (putTxn s t).pending = s.pending := rfl
@[simp] theorem putTxn_out (s : State) (t : Txn) : (putTxn s t).out = s.out := rfl
@[simp] theorem putTxn_fresh (s : State) (t : Txn) : (putTxn s t).fresh = s.fresh := rfl
@[simp] theorem putTxn_fuse (s : State) (t : Txn) : (putTxn s t).fuse = s.fuse := rfl
@[simp] theorem putTxn_otp (s : State) (t : Txn) : (putTxn s t).otp = s.otp := rfl
@[simp] theorem putTxn_pins (s : State) (t : Txn) : (putTxn s t).pins = s.pins := rfl
@[simp] theorem putTxn_boot (s : State) (t : Txn) : (putTxn s t).boot = s.boot := rfl
@[simp] theorem putTxn_turn (s : State) (t : Txn) : (putTxn s t).turn = s.turn := rfl
@[simp] theorem putTxn_set (s : State) (t : Txn) : (putTxn s t).set = s.set := rfl
@[simp] theorem putTxn_ledger (s : State) (t : Txn) : (putTxn s t).ledger = s.ledger := rfl
@[simp] theorem putTxn_glob (s : State) (t : Txn) : (putTxn s t).glob = s.glob := rfl
@[simp] theorem putTxn_cmd (s : State) (t : Txn) : (putTxn s t).cmd = s.cmd := rfl
@[simp] theorem putTxn_plans (s : State) (t : Txn) : (putTxn s t).plans = s.plans := rfl
@[simp] theorem putTxn_mem (s : State) (t : Txn) : (putTxn s t).mem = s.mem := rfl
@[simp] theorem putTxn_xlate (s : State) (t : Txn) : (putTxn s t).xlate = s.xlate := rfl
@[simp] theorem putTxn_fab (s : State) (t : Txn) : (putTxn s t).fab = s.fab := rfl
@[simp] theorem putTxn_tallies (s : State) (t : Txn) : (putTxn s t).tallies = s.tallies := rfl
@[simp] theorem putTxn_dma (s : State) (t : Txn) : (putTxn s t).dma = s.dma := rfl
@[simp] theorem putTxn_arr (s : State) (t : Txn) : (putTxn s t).arr = s.arr := rfl
@[simp] theorem putTxn_leat (s : State) (t : Txn) : (putTxn s t).leat = s.leat := rfl
@[simp] theorem putTxn_sites (s : State) (t : Txn) : (putTxn s t).sites = s.sites := rfl
@[simp] theorem putTxn_power (s : State) (t : Txn) : (putTxn s t).power = s.power := rfl
@[simp] theorem putTxn_host (s : State) (t : Txn) : (putTxn s t).host = s.host := rfl
@[simp] theorem putTxn_sec (s : State) (t : Txn) : (putTxn s t).sec = s.sec := rfl
@[simp] theorem putTxn_fw (s : State) (t : Txn) : (putTxn s t).fw = s.fw := rfl

/-! ### dropTxn -/

@[simp] theorem dropTxn_pending (s : State) (line : Nat) : (dropTxn s line).pending = s.pending := rfl
@[simp] theorem dropTxn_out (s : State) (line : Nat) : (dropTxn s line).out = s.out := rfl
@[simp] theorem dropTxn_fresh (s : State) (line : Nat) : (dropTxn s line).fresh = s.fresh := rfl
@[simp] theorem dropTxn_fuse (s : State) (line : Nat) : (dropTxn s line).fuse = s.fuse := rfl
@[simp] theorem dropTxn_otp (s : State) (line : Nat) : (dropTxn s line).otp = s.otp := rfl
@[simp] theorem dropTxn_pins (s : State) (line : Nat) : (dropTxn s line).pins = s.pins := rfl
@[simp] theorem dropTxn_boot (s : State) (line : Nat) : (dropTxn s line).boot = s.boot := rfl
@[simp] theorem dropTxn_turn (s : State) (line : Nat) : (dropTxn s line).turn = s.turn := rfl
@[simp] theorem dropTxn_set (s : State) (line : Nat) : (dropTxn s line).set = s.set := rfl
@[simp] theorem dropTxn_ledger (s : State) (line : Nat) : (dropTxn s line).ledger = s.ledger := rfl
@[simp] theorem dropTxn_glob (s : State) (line : Nat) : (dropTxn s line).glob = s.glob := rfl
@[simp] theorem dropTxn_cmd (s : State) (line : Nat) : (dropTxn s line).cmd = s.cmd := rfl
@[simp] theorem dropTxn_plans (s : State) (line : Nat) : (dropTxn s line).plans = s.plans := rfl
@[simp] theorem dropTxn_mem (s : State) (line : Nat) : (dropTxn s line).mem = s.mem := rfl
@[simp] theorem dropTxn_xlate (s : State) (line : Nat) : (dropTxn s line).xlate = s.xlate := rfl
@[simp] theorem dropTxn_fab (s : State) (line : Nat) : (dropTxn s line).fab = s.fab := rfl
@[simp] theorem dropTxn_tallies (s : State) (line : Nat) : (dropTxn s line).tallies = s.tallies := rfl
@[simp] theorem dropTxn_dma (s : State) (line : Nat) : (dropTxn s line).dma = s.dma := rfl
@[simp] theorem dropTxn_arr (s : State) (line : Nat) : (dropTxn s line).arr = s.arr := rfl
@[simp] theorem dropTxn_leat (s : State) (line : Nat) : (dropTxn s line).leat = s.leat := rfl
@[simp] theorem dropTxn_sites (s : State) (line : Nat) : (dropTxn s line).sites = s.sites := rfl
@[simp] theorem dropTxn_power (s : State) (line : Nat) : (dropTxn s line).power = s.power := rfl
@[simp] theorem dropTxn_host (s : State) (line : Nat) : (dropTxn s line).host = s.host := rfl
@[simp] theorem dropTxn_sec (s : State) (line : Nat) : (dropTxn s line).sec = s.sec := rfl
@[simp] theorem dropTxn_fw (s : State) (line : Nat) : (dropTxn s line).fw = s.fw := rfl

/-! ### What is read after an update -/

@[simp] theorem setAgent_agentOf_same (s : State) (n : Nat) (v : Agent) : agentOf (setAgent s n v) n = v := Tbl.get_put_same ..
theorem setAgent_agentOf_other (s : State) {n k : Nat} (v : Agent) (h : n ≠ k) : agentOf (setAgent s n v) k = agentOf s k :=
  Tbl.get_put_other _ _ _ h

@[simp] theorem setSet_setOf_same (s : State) (n : Nat) (v : StageSet) : setOf (setSet s n v) n = v := Tbl.get_put_same ..
theorem setSet_setOf_other (s : State) {n k : Nat} (v : StageSet) (h : n ≠ k) : setOf (setSet s n v) k = setOf s k :=
  Tbl.get_put_other _ _ _ h

@[simp] theorem setBank_bankOf_same (s : State) (n : Nat) (v : FlashBank) : bankOf (setBank s n v) n = v := Tbl.get_put_same ..
theorem setBank_bankOf_other (s : State) {n k : Nat} (v : FlashBank) (h : n ≠ k) : bankOf (setBank s n v) k = bankOf s k :=
  Tbl.get_put_other _ _ _ h

@[simp] theorem setStack_stackOf_same (s : State) (n : Nat) (v : Stack) : stackOf (setStack s n v) n = v := Tbl.get_put_same ..
theorem setStack_stackOf_other (s : State) {n k : Nat} (v : Stack) (h : n ≠ k) : stackOf (setStack s n v) k = stackOf s k :=
  Tbl.get_put_other _ _ _ h

@[simp] theorem setLog_logArr_same (s : State) (n : Nat) (v : LogArr) : logArr (setLog s n v) n = v := Tbl.get_put_same ..
theorem setLog_logArr_other (s : State) {n k : Nat} (v : LogArr) (h : n ≠ k) : logArr (setLog s n v) k = logArr s k :=
  Tbl.get_put_other _ _ _ h

@[simp] theorem setPhys_physArr_same (s : State) (n : Nat) (v : PhysArr) : physArr (setPhys s n v) n = v := Tbl.get_put_same ..
theorem setPhys_physArr_other (s : State) {n k : Nat} (v : PhysArr) (h : n ≠ k) : physArr (setPhys s n v) k = physArr s k :=
  Tbl.get_put_other _ _ _ h

@[simp] theorem setCtx_ctxOf_same (s : State) (n : Nat) (v : Ctx) : ctxOf (setCtx s n v) n = v := Tbl.get_put_same ..
theorem setCtx_ctxOf_other (s : State) {n k : Nat} (v : Ctx) (h : n ≠ k) : ctxOf (setCtx s n v) k = ctxOf s k :=
  Tbl.get_put_other _ _ _ h

@[simp] theorem setFunc_func_same (s : State) (n : Nat) (v : Func) : func (setFunc s n v) n = v := Tbl.get_put_same ..
theorem setFunc_func_other (s : State) {n k : Nat} (v : Func) (h : n ≠ k) : func (setFunc s n v) k = func s k :=
  Tbl.get_put_other _ _ _ h

@[simp] theorem setChan_chan_same (s : State) (n : Nat) (v : Chan) : chan (setChan s n v) n = v := Tbl.get_put_same ..
theorem setChan_chan_other (s : State) {n k : Nat} (v : Chan) (h : n ≠ k) : chan (setChan s n v) k = chan s k :=
  Tbl.get_put_other _ _ _ h

@[simp] theorem setLink_linkOf_same (s : State) (n : Nat) (v : Link) : linkOf (setLink s n v) n = v := Tbl.get_put_same ..
theorem setLink_linkOf_other (s : State) {n k : Nat} (v : Link) (h : n ≠ k) : linkOf (setLink s n v) k = linkOf s k :=
  Tbl.get_put_other _ _ _ h

@[simp] theorem setPort_portOf_same (s : State) (n : Nat) (v : Port) : portOf (setPort s n v) n = v := Tbl.get_put_same ..
theorem setPort_portOf_other (s : State) {n k : Nat} (v : Port) (h : n ≠ k) : portOf (setPort s n v) k = portOf s k :=
  Tbl.get_put_other _ _ _ h

@[simp] theorem setEngine_engine_same (s : State) (n : Nat) (v : Engine) : engine (setEngine s n v) n = v := Tbl.get_put_same ..
theorem setEngine_engine_other (s : State) {n k : Nat} (v : Engine) (h : n ≠ k) : engine (setEngine s n v) k = engine s k :=
  Tbl.get_put_other _ _ _ h

@[simp] theorem setSite_siteOf_same (s : State) (n : Nat) (v : Site) : siteOf (setSite s n v) n = v := Tbl.get_put_same ..
theorem setSite_siteOf_other (s : State) {n k : Nat} (v : Site) (h : n ≠ k) : siteOf (setSite s n v) k = siteOf s k :=
  Tbl.get_put_other _ _ _ h

@[simp] theorem setTally_tallyAt_same (s : State) (n : Nat) (v : Tally) : tallyAt (setTally s n v) n = v := Tbl.get_put_same ..
theorem setTally_tallyAt_other (s : State) {n k : Nat} (v : Tally) (h : n ≠ k) : tallyAt (setTally s n v) k = tallyAt s k :=
  Tbl.get_put_other _ _ _ h

@[simp] theorem setAge_ageOf_same (s : State) (n : Nat) (v : Age) : ageOf (setAge s n v) n = v := Tbl.get_put_same ..
theorem setAge_ageOf_other (s : State) {n k : Nat} (v : Age) (h : n ≠ k) : ageOf (setAge s n v) k = ageOf s k :=
  Tbl.get_put_other _ _ _ h

@[simp] theorem emit_out (s : State) (o : Output) : (emit s o).out = s.out ++ [o] := rfl

@[simp] theorem takeFresh_fresh (s : State) : (takeFresh s).fresh = s.fresh + 1 := rfl

end Sys2Proof.Machine
end

