-- ==== Sys2Proof/Tests/Slice0.lean ====
section
/-! SUPPORT. Tests: commands that the well-formedness check refuses, worked examples of the spec, and for each statement states and
operands that meet its hypotheses, clause by clause. -/

namespace Sys2Proof.Tests

open Sys2Proof.Machine

set_option Elab.async false

/-! ### States and operands -/

/-- A hub that answers, after READY, with every domain on. -/
def up : State :=
  { State.reset with
    pins := { Pins.reset with pwrok := true }, boot := { Boot.reset with ready := true, coresRun := true },
    power := { Power.reset with on := List.range 30 } }

/-- A packet of the PF with its first four parameters. -/
def pkt (p0 p1 p2 p3 : Nat) : Packet :=
  { source := 0, tag := 7, part := 0, fence := false, noIrq := false, rsvd := false, p0 := BitVec.ofNat 64 p0,
    p1 := BitVec.ofNat 64 p1, p2 := BitVec.ofNat 64 p2, p3 := BitVec.ofNat 64 p3, p4 := 0, p5 := 0, payload := [] }

def with_ (c : Packet) (b : Bytes) : Packet := { c with payload := b }

def zeros (n : Nat) : Bytes := List.replicate n 0#8

def siteEnv : SiteEnv :=
  { detected := true, inTime := true, table := [], modules := List.replicate 16 .x64, protocolStarts := true }

def bootEnv : BootEnv :=
  { coresBoot := true, fabricOn := true, quartersOn := true, domainsOff := [], hbm := List.replicate 8 ⟨true, 5, false⟩, leatDetect := [],
    sites := List.replicate 12 siteEnv, katFail := [], stepTimes := List.replicate 13 1, entropy := 5 }

def marker : Marker :=
  { bucket := 0, turn := 9, bucketLen := 4, tailraceLen := 8, f := 1, u := 1, headrace := 0, hops := 0, sendOffset := 0, aligned := true,
    srcHealthy := true, protoMax := 1, sysMin := 1, protoFloor := 1, arrivalErr := 0 }

def shoe : ShoeWrite := { la := 0, off := 0, part := 0, ctx := some 0, bytes := zeros 64 }

def atomReq (a : Nat) : AtomReq :=
  { issuer := .core 0, epoch := 0, part := 0, ctx := none, addr := a, share := 0, reduction := false }

def word (v : Int) (a : Int) : MintWord := { value := v, flags := 0, anchor := a, hi := a }

def tallyReq (w : Nat) : TallyReq := { tally := 3, word := BitVec.ofNat 64 w, width := 8, part := 0, remote := false }

def memReq (k : Access) (a len : Nat) (d : Bytes) : MemReq :=
  { issuer := .core 0, epoch := 0, part := 0, ctx := none, kind := k, addr := a, len := len, data := d, mask := [], poison := [],
    share := 0, hint := 0, target := 0, ecc := .clean }

def remoteReq (k : Access) (a : Nat) : RemoteReq :=
  { srcHub := 1, part := 0, kind := k, addr := a, len := 64, data := [], poison := false, share := 0, tag := 0 }

def cohMsg (a : Fin 16) (line : Nat) : CohMsg := { agent := a, epoch := 0, line := line, late := false, ecc := .clean }

def queueReq (t : Nat) (vn : Fin 4) : QueueReq := { target := t, vn := vn, initiator := 1, cls := 0, part := 0 }

def flit (vn : Fin 4) (k : FlitCheck) : MeshFlit :=
  { target := 0, source := 1, vn := vn, op := 0, initiator := 1, cls := 0, part := 0, ctx := 0, epoch := 0, tag := 0, len := 0, addr := 0,
    index := 0, data := [], poison := 0, check := k, latency := 10, readBytes := 0, writeBytes := 0 }

def train : TrainResult :=
  { goodLanes := 0xF#4, delay := 100, farHub := 1, farLink := 8, farExtents := [2, 1, 1, 1], farProtoMax := 1, farUnit := 77, saved := false }

def fragment (i : Nat) : KeyFragment := { part := 1, keyId := 0, index := BitVec.ofNat 8 i, received := 0, body := zeros 40 }

def sitePkt (a : Nat) : SitePkt :=
  { site := 0, sub := 0, tag := 1, addr := a, len := 1, data := [], mask := [], poison := [], epoch := 0, malformed := false }

def regWrite (o v : Nat) : RegWrite := { master := .host 0, off := o, width := 4, value := v }

/-! ### Well-formedness -/

/-- Each check on a packet, a message or a request refuses a term that breaks it alone. -/
theorem test_wf_requests :
    Packet.wf (with_ (pkt 0 0 0 0) []) = true ∧
    CohMsg.wf (cohMsg 0 0) = true ∧ CohMsg.wf { cohMsg 0 0 with epoch := 256 } = false ∧ CohMsg.wf (cohMsg 0 (2 ^ 34)) = false ∧
    MemReq.wf (memReq .read 0 64 []) = true ∧ MemReq.wf { memReq .read 0 64 [] with epoch := 256 } = false ∧
    MemReq.wf (memReq .read (2 ^ 58) 64 []) = false ∧ MemReq.wf { memReq .read 0 64 [] with ctx := some (4096, 0) } = false ∧
    MemReq.wf { memReq .read 0 64 [] with ctx := some (0, 256) } = false ∧
    MemReq.wf { memReq .write 0 0 (zeros 2) with mask := [true] } = false ∧
    RemoteReq.wf (remoteReq .read 0) = true ∧ RemoteReq.wf { remoteReq .read 0 with srcHub := 2 ^ 17 } = false ∧
    RemoteReq.wf (remoteReq .read (2 ^ 58)) = false ∧ RemoteReq.wf { remoteReq .read 0 with tag := 4096 } = false ∧
    AtomReq.wf (atomReq 0) = true ∧ AtomReq.wf (atomReq (2 ^ 41)) = false ∧ AtomReq.wf { atomReq 0 with epoch := 256 } = false ∧
    AtomReq.wf { atomReq 0 with ctx := some (4096, 0) } = false ∧ AtomReq.wf { atomReq 0 with ctx := some (0, 256) } = false ∧
    TallyReq.wf (tallyReq 0) = true ∧ TallyReq.wf { tallyReq 0 with width := 2 } = false ∧
    SitePkt.wf (sitePkt 0) = true ∧ SitePkt.wf { sitePkt 0 with tag := 4096 } = false ∧ SitePkt.wf (sitePkt (2 ^ 58)) = false ∧
    SitePkt.wf { sitePkt 0 with len := 64 } = false ∧ SitePkt.wf { sitePkt 0 with epoch := 256 } = false ∧
    SitePkt.wf { sitePkt 0 with mask := [true] } = false ∧
    RegWrite.wf (regWrite 0 0) = true ∧ RegWrite.wf (regWrite (2 ^ 26) 0) = false ∧ RegWrite.wf { regWrite 0 0 with width := 3 } = false ∧
    RegWrite.wf (regWrite 0 (2 ^ 32)) = false := by decide +kernel

/-- PAYLOAD_LEN has 16 bits. -/
theorem test_wf_packet_length : Packet.wf (with_ (pkt 0 0 0 0) (zeros 65536)) = false := by decide +kernel

/-- Each check on an operand of the other rows refuses a term that breaks it alone. -/
theorem test_wf_operands :
    MintWord.wf (word (2 ^ 255 - 1) 0) = true ∧ MintWord.wf (word (2 ^ 255) 0) = false ∧ MintWord.wf (word (-2 ^ 255 - 1) 0) = false ∧
    MintWord.wf { word 0 0 with flags := 256 } = false ∧
    Marker.wf marker = true ∧ Marker.wf { marker with bucket := 128 } = false ∧ Marker.wf { marker with turn := 2 ^ 48 } = false ∧
    Marker.wf { marker with bucketLen := 256 } = false ∧ Marker.wf { marker with tailraceLen := 256 } = false ∧
    Marker.wf { marker with f := 256 } = false ∧ Marker.wf { marker with u := 256 } = false ∧
    Marker.wf { marker with headrace := 2 ^ 17 } = false ∧ Marker.wf { marker with hops := 256 } = false ∧
    Marker.wf { marker with protoMax := 65536 } = false ∧ Marker.wf { marker with sysMin := 65536 } = false ∧
    Marker.wf { marker with protoFloor := 65536 } = false ∧
    ShoeWrite.wf shoe = true ∧ ShoeWrite.wf { shoe with off := 65536 } = false ∧ ShoeWrite.wf { shoe with ctx := some 4096 } = false ∧
    TrainResult.wf train = true ∧ TrainResult.wf { train with farHub := 2 ^ 17 } = false ∧ TrainResult.wf { train with farLink := 64 } = false ∧
    TrainResult.wf { train with farExtents := [1] } = false ∧ TrainResult.wf { train with farProtoMax := 65536 } = false ∧
    TrainResult.wf { train with farUnit := 2 ^ 256 } = false ∧
    KeyFragment.wf (fragment 0) = true ∧ KeyFragment.wf { fragment 0 with body := [] } = false ∧
    QueueReq.wf (queueReq 0 0) = true ∧ QueueReq.wf (queueReq 65536 0) = false ∧ QueueReq.wf { queueReq 0 0 with initiator := 65536 } = false ∧
    MeshFlit.wf (flit 0 .good) = true ∧ MeshFlit.wf { flit 0 .good with target := 1024 } = false ∧
    MeshFlit.wf { flit 0 .good with source := 1024 } = false ∧ MeshFlit.wf { flit 0 .good with initiator := 65536 } = false ∧
    MeshFlit.wf { flit 0 .good with addr := 2 ^ 58 } = false ∧ MeshFlit.wf { flit 0 .good with data := zeros 257 } = false ∧
    MeshFlit.wf { flit 0 .good with index := 1 } = false ∧ MeshFlit.wf { flit 0 .good with len := 1 } = false := by decide +kernel

/-- Each check on what a bring-up finds refuses a term that breaks it alone. -/
theorem test_wf_environments :
    SiteEnv.wf siteEnv = true ∧ SiteEnv.wf { siteEnv with modules := [] } = false ∧
    BootEnv.wf bootEnv = true ∧ BootEnv.wf { bootEnv with hbm := [] } = false ∧
    BootEnv.wf { bootEnv with hbm := List.replicate 8 ⟨true, 6, false⟩ } = false ∧ BootEnv.wf { bootEnv with sites := [] } = false ∧
    BootEnv.wf { bootEnv with sites := List.replicate 12 { siteEnv with modules := [] } } = false ∧
    BootEnv.wf { bootEnv with stepTimes := [] } = false ∧ BootEnv.wf { bootEnv with domainsOff := [16] } = false ∧
    BootEnv.wf { bootEnv with leatDetect := [64] } = false ∧ BootEnv.wf { bootEnv with katFail := [288] } = false ∧
    BootEnv.wf { bootEnv with entropy := 2 ^ 64 } = false := by decide +kernel

/-- A capability table of more than 16 KiB is refused. -/
theorem test_wf_table_length : SiteEnv.wf { siteEnv with table := zeros 16385 } = false := by decide +kernel

/-- The rows whose operands stand alone refuse an operand that does not fit. -/
theorem test_wf_rows :
    Instr.wf (.stretchRequest 0 0 (2 ^ 48) 0) = false ∧ Instr.wf (.stretchRequest 0 0 0 (2 ^ 17)) = false ∧
    Instr.wf (.arrayFault 0 .residue (2 ^ 64)) = false ∧ Instr.wf (.replayComplete 0 (2 ^ 64) 0) = false ∧
    Instr.wf (.replayComplete 0 0 (2 ^ 64)) = false ∧ Instr.wf (.iadd (atomReq 0) false (2 ^ 32)) = false ∧
    Instr.wf (.iaddFetch (atomReq 0) true (2 ^ 64)) = false ∧ Instr.wf (.cas (atomReq 0) false (2 ^ 32) 0) = false ∧
    Instr.wf (.cas (atomReq 0) false 0 (2 ^ 32)) = false ∧ Instr.wf (.fmax (atomReq 0) true 65536) = false ∧
    Instr.wf (.fmin (atomReq 0) false (2 ^ 32)) = false ∧ Instr.wf (.wb (cohMsg 0 0) []) = false ∧
    Instr.wf (.rspIData (cohMsg 0 0) []) = false ∧ Instr.wf (.rspSData (cohMsg 0 0) []) = false ∧
    Instr.wf (.dirtyEvict 0 ⟨.rdCurr, 2 ^ 34, [], []⟩) = false ∧ Instr.wf (.dirtyEvict 0 ⟨.wrInv, 0, zeros 129, []⟩) = false ∧
    Instr.wf (.dirtyEvict 0 ⟨.wrInv, 0, zeros 64, [true]⟩) = false ∧ Instr.wf (.arrayDescStart ⟨0, [2 ^ 25]⟩) = false ∧ Instr.wf (.holdWindowExpiry 0 (2 ^ 34)) = false ∧
    Instr.wf (.snoopTimeout 0 (2 ^ 34)) = false ∧ Instr.wf (.leatDataFlit 0 [] false) = false ∧
    Instr.wf (.leatResendRequest 0 4096) = false ∧ Instr.wf (.berCheckStart 0 (2 ^ 48)) = false ∧
    Instr.wf (.berCheckComplete 0 [] false) = false ∧ Instr.wf (.purseReq 0 65536 ⟨0, false⟩) = false ∧
    Instr.wf (.purseReq 0 0 ⟨2 ^ 32, false⟩) = false ∧ Instr.wf (.purseReport 0 65536 ⟨0, false⟩) = false ∧
    Instr.wf (.purseReport 0 0 ⟨2 ^ 32, false⟩) = false ∧ Instr.wf (.siteAlert 0 0 (2 ^ 48)) = false ∧
    Instr.wf (.scrubRead (2 ^ 41) .clean) = false ∧ Instr.wf (.tempSample []) = false ∧ Instr.wf (.railSample [64]) = false ∧
    Instr.wf (.ageingSample []) = false ∧ Instr.wf (.testWindowWrite 0 []) = false := by decide +kernel

/-- The same for the rows of the registers and the host link. -/
theorem test_wf_register_rows :
    Instr.wf (.sqTail 0 (2 ^ 32)) = false ∧ Instr.wf (.cqHead 0 (2 ^ 32)) = false ∧ Instr.wf (.ringEnable 0 (2 ^ 32)) = false ∧
    Instr.wf (.ringDisable 0 (2 ^ 32)) = false ∧ Instr.wf (.bitAliasWrite (2 ^ 26) 0) = false ∧
    Instr.wf (.bitAliasWrite 0 (2 ^ 32)) = false ∧ Instr.wf (.sqcClearWrite (2 ^ 26) 0) = false ∧
    Instr.wf (.sqcClearWrite 0 (2 ^ 32)) = false ∧ Instr.wf (.cfgLockWrite (2 ^ 26) 0) = false ∧
    Instr.wf (.cfgLockWrite 0 (2 ^ 32)) = false ∧ Instr.wf (.postedWrite (2 ^ 26) 0) = false ∧
    Instr.wf (.postedWrite 0 (2 ^ 32)) = false ∧ Instr.wf (.leatFecClr (2 ^ 32)) = false ∧
    Instr.wf (.hostRdLimitWrite (2 ^ 32)) = false ∧ Instr.wf (.hostFnTagsWrite 0 (2 ^ 32)) = false ∧
    Instr.wf (.resizableBarWrite 64) = false ∧ Instr.wf (.hostBar4Read 0 (2 ^ 64) 0) = false ∧
    Instr.wf (.hostBar4Write 0 (2 ^ 64) [] false) = false ∧ Instr.wf (.hostReadCompletion 16384 .refused) = false ∧
    Instr.wf (.hostReadTimeout 16384) = false ∧ Instr.wf (.hostLinkUp 0 17 false) = false ∧ Instr.wf (.vfEnableWrite true 17) = false := by
  decide +kernel

/-! ### Witnesses: the queue, the invariants and the gates -/

theorem witness_StepRunsFrontCommand : ({ up with pending := [.pwrokFall, .thermtrip] } : State).pending = .pwrokFall :: [.thermtrip] := rfl

theorem witness_ResetStateAndIdling : State.reset.pending = [] := rfl

theorem witness_EveryStepKeepsMemoryCanonical :
    ({ up with mem := up.mem.put 5 1#8, pending := [.thermtrip] } : State).mem.wf = true ∧
      ∃ t, step { up with mem := up.mem.put 5 1#8, pending := [.thermtrip] } = .next t := ⟨by decide, _, rfl⟩

theorem witness_SealBitsOnlySet :
    (∃ t, step { up with otp := { Otp.reset with sealBits := 1 }, pending := [.thermtrip] } = .next t) ∧
      (1 : BitVec 16).getLsbD 0 = true := ⟨⟨_, rfl⟩, by decide⟩

theorem witness_QueueIsFirstInFirstOut : ∃ t, step { up with pending := [.thermtrip, .pwrokFall] } = .next t := ⟨_, rfl⟩

theorem witness_DeadHubDoesNothing :
    live State.reset = false ∧ Safety.pinRow .bucketBoundary = false ∧ Safety.sensorRow .bucketBoundary = false ∧
      Safety.pinRow .thermtrip = false ∧ aon State.reset = false := by decide +kernel

/-- The PF in D3hot starts nothing. -/
def asleep : State := setFunc up 0 { func up 0 with d3 := true }

/-- Eight packets of MCTP are open. -/
def eightOpen : State :=
  { up with cmd := { up.cmd with mctp := List.replicate 8 { reply := ⟨0, 17, 0, 0x0701, false⟩, interim := true } } }

def overMctp (c : Packet) : Packet := { c with source := 17 }

theorem witness_PacketRowsWaitOrRefuse :
    Safety.packetRow (.thermRead (pkt 0 0 0 0)) = some (0x0A02, pkt 0 0 0 0) ∧
    (live asleep = true ∧ canStart asleep 0x0A02 (pkt 0 0 0 0) = false) ∧
    (live eightOpen = true ∧ canStart eightOpen 0x0A02 (overMctp (pkt 0 0 0 0)) = true ∧
      Safety.ninth eightOpen 0x0A02 (overMctp (pkt 0 0 0 0))) ∧
    (live up = true ∧ canStart up 0x0A02 (with_ (pkt 0 0 0 0) (zeros 1)) = true ∧ ¬ Safety.ninth up 0x0A02 (with_ (pkt 0 0 0 0) (zeros 1)) ∧
      headerRefusal up 0x0A02 (Safety.lensOf 0x0A02) (with_ (pkt 0 0 0 0) (zeros 1)) = some (.badParam, 6)) := by decide +kernel

theorem witness_OnlyTicksAndMarkersMoveTheTurn :
    (∃ t, exec .thermtrip up = .next t) ∧ (∃ t, exec .turnTick up = .next t) ∧ (∃ t, exec .turnTick State.reset = .next t) ∧
      (∃ t, exec (.turnMarker 0 marker) up = .next t) ∧ ∃ t, exec (.pwrokRise bootEnv) State.reset = .next t :=
  ⟨⟨_, rfl⟩, ⟨_, rfl⟩, ⟨_, rfl⟩, ⟨_, rfl⟩, ⟨_, rfl⟩⟩

/-! ### Witnesses: bring-up -/

def cold : State := { State.reset with pins := { Pins.reset with warmLow := true } }

theorem witness_ColdStartLeavesResetState :
    (cold.pins.pwrok = false ∧ cold.pins.warmLow = true) ∧ up.pins.pwrok = true ∧
      State.reset.pins.pwrok = false ∧ State.reset.pins.warmLow = false := by decide

def held : State := { up with pins := { up.pins with warmLow := true } }

theorem witness_ResetPinsStopAndRestart :
    live up = true ∧ (held.pins.warmLow = true ∧ aon held = true) ∧ up.pins.warmLow = false ∧ aon cold = false := by decide

theorem witness_BringUpFindsBankOrRecovers :
    (∀ x ∈ arrayMap up, x.2.isSome = true) ∧ ∃ x ∈ arrayMap State.reset, x.2 = none := by decide +kernel

/-! ### Witnesses: Turn time -/

/-- Link 0 is in service. -/
def linked : State := setLink up 0 { Link.reset with state := .inService, lanes := 0xF#4, width := 3, ber := .passed, farUnit := 77 }

def atBucket (s : State) (n k : Nat) : State := { s with turn := { s.turn with bucket := n, kNow := k } }

theorem witness_BucketsAndStretchSegments :
    (live (atBucket up 126 0) = true ∧ (atBucket up 126 0).turn.bucket < 127) ∧
    (live (atBucket up 127 1) = true ∧ 127 ≤ (atBucket up 127 1).turn.bucket ∧ (atBucket up 127 1).turn.kNow ≠ 0) ∧
    (127 ≤ (atBucket up 127 0).turn.bucket ∧ (atBucket up 127 0).turn.kNow = 0) ∧ (1 : Nat) ≠ 0 ∧
    (live linked = true ∧ (linkOf linked (0 : Fin 64)).state = .inService) ∧
    (let s := { linked with turn := { linked.turn with forwarded := [(0, 3)] } }
     (linkOf s (0 : Fin 64)).state = .inService ∧ (∃ x ∈ s.turn.forwarded, x.1 = 0 ∧ (3 : Fin 256).val ≤ x.2)) ∧
    (let s := { linked with turn := { linked.turn with forwarded := [(0, 3)] } }
     ∀ x ∈ s.turn.forwarded, x.1 = 0 → x.2 < (4 : Fin 256).val) := by decide +kernel

theorem witness_CommitWindowOpensOnce :
    (live up = true ∧ up.turn.commit = false) ∧
      ({ up with turn := { up.turn with commit := true } } : State).turn.commit = true := by decide

/-- Hub 0 with link 0 in service, its reference clock healthy or not. -/
def clocked (ok : Bool) : State := { linked with turn := { linked.turn with refclk := ok } }

/-- After a marker of Headrace 5 over link 0. -/
def heard5 (ok : Bool) : State :=
  elect { Safety.fresh (clocked ok) with turn := { (clocked ok).turn with heard := (clocked ok).turn.heard.put 0 (0, 1, 5) } }

theorem witness_HeadraceEventsElect :
    (live linked = true ∧ linked.turn.isHeadrace = false ∧ coupled linked = true) ∧
    ({ linked with turn := { linked.turn with isHeadrace := true } } : State).turn.isHeadrace = true ∧
    (linkOf linked (0 : Fin 64)).state = .inService ∧ { marker with protoMax := 0 }.protoMax < linked.set.protoFloor ∧
    linked.set.protoFloor ≤ marker.protoMax ∧ (heard5 false).turn.parent = some 0 ∧
    (heard5 true).turn.parent ≠ some 0 ∧
    (aon up = true ∧ edgeGood up 102400000 = true) ∧ edgeGood up 102379519 = false ∧ edgeGood up 102379520 = true := by decide +kernel

theorem witness_TurnRecordAndPostedWrites :
    (Safety.Accepts up 0x0701 (pkt 4096 1040 15 0) ∧ (pkt 4096 1040 15 0).p3 = 0 ∧ (pkt 4096 1040 15 0).p4 = 0 ∧
      (pkt 4096 1040 15 0).p5 = 0 ∧ hostAddrOk (pkt 4096 1040 15 0) (pkt 4096 1040 15 0).p0.toNat = true ∧
      1040 ≤ (pkt 4096 1040 15 0).p1.toNat ∧ (pkt 4096 1040 15 0).p2.toNat < 16 ∧ (pkt 4096 1040 15 0).p2 = 0xF#64) ∧
    up.turn.lastRecord.getD (up.glob.tariffVer, 0, 0) = (1, 0, 0) ∧ live up = true := by decide +kernel

/-! ### Witnesses: the host -/

def vf1 : State := { up with host := { up.host with vfEnable := true, numVfs := 1 } }

/-- VF1 has one vector that waits, in D0 or in D3hot. -/
def waiting (d3 : Bool) : State :=
  setFunc vf1 1 { Func.reset 1 with msixEn := true, d3 := d3, msix := [(0, { addr := 64, data := 1, masked := false, pending := true })] }

theorem witness_HostVectorsAndPowerStates :
    (Safety.FabricUp vf1 ∧ fnExists vf1 (1 : Fin 17) = true) ∧ (func (waiting true) (1 : Fin 17)).d3 = true ∧
    (func (waiting false) (1 : Fin 17)).d3 = false ∧ (func (waiting false) (1 : Fin 17)).msixEn = true ∧
    (func (waiting false) (1 : Fin 17)).fnMask = false := by decide +kernel

def hostLink (rate : Nat) : State := { vf1 with host := { vf1.host with rate := rate, width := 16, mayTrain := true } }

theorem witness_HostLinkAndResets :
    (live (hostLink 3) = true ∧ hostUp (hostLink 3) = true) ∧ hostUp up = false ∧
    (hostUp (hostLink 0) = false ∧ (3 : Fin 4) ≠ 0 ∧ 1 ≤ 16 ∧ 16 ≤ 16 ∧ (hostLink 0).host.mayTrain = true ∧
      (hostLink 0).pins.perstLow = false) ∧
    (domainOn vf1 28 = true ∧ (1 : Fin 17) ≠ 0 ∧ fnExists vf1 (1 : Fin 17) = true ∧ 16 ≤ 16) ∧
    up.host.memSpace = false ∧ 16 ≤ 19 ∧ 19 ≤ 19 ∧ 15 < 16 ∧ 19 < 20 ∧
    ({ up with host := { up.host with memSpace := true } } : State).host.memSpace = true := by decide +kernel

def job0 : Job := { handle := 0, slot := 0, turn := 0, next := 0, suspended := false, overrun := true, saved := .none }

def common (type : Nat) : Common :=
  { type := type, len := 64, task := 0, waitEn := false, waitTally := 0, waitN := 0, waitSub := false, raiseEn := false, raiseTally := 0,
    raiseAmount := 0, iterFirst := 0, iterCount := 0, iterMod := 1 }

def tallyDesc : Desc := { off := 0, c := common 0x0501, b := .tallyOp { sub := false, hub := none, tally := 3, amount := 1 } }

def redDesc : Desc :=
  { off := 0, c := common 0x0301
    b := .red { anchor := 0, srcKind := 0, outFmt := 0, compact := false, count := 1, src := 0, dst := 0, srcStepI := 0, dstStepI := 0,
                status := none, raiseHub := none } }

def runOf (isCmd : Bool) (d : Desc) : DmaRun := .start up isCmd job0 0 0 0 d 0

/-- Engine 0 waits for a host read of the PF. -/
def reading : State :=
  setEngine up 0 { Engine.reset with run := some { runOf false tallyDesc with issued := [{ fn := 0, tag := 9, addr := 0, len := 64, dst := 0 }] } }

theorem witness_HostAccessesAndReads :
    (Safety.FabricUp up ∧ fnExists up (0 : Fin 17) = true ∧ 2 ^ 36 - 64 + 64 ≤ 2 ^ bar4Log2 up (0 : Fin 17)) ∧
    { memReq .write 0 0 (zeros 1) with issuer := .host 0 }.issuer = .host 0 ∧
    (live reading = true ∧ (hostRead reading 9).isSome = true) ∧ hostRead up 9 = none := by decide +kernel

theorem witness_DataObjectsAndSpdm :
    (Safety.FabricUp up ∧ 16384 < (zeros 16385).length) ∧ (zeros 16384).length ≤ 16384 ∧ rd [1, 0, 0, 0, 2, 0, 0, 0, 0] 0 3 = 1 ∧
      rd [1, 0, 1, 0, 2, 0, 0, 0] 0 3 = 0x10001 ∧ rd (zeros 16384) 0 3 ≠ 1 ∧ rd (zeros 16384) 0 3 ≠ 0x10001 := by decide +kernel

/-! ### Witnesses: plan work -/

/-- An active plan of partition 0 whose slot 0 runs descriptors on a resource. -/
def planFor (r : Res) (isShoe : Bool) (l : List Desc) : Plan :=
  { part := 0, store := 0, totalLen := 64, bucketLen := 4, tailraceLen := 8, tariffVer := 1, tables := [],
    slots := [{ res := r, ctx := 0, shoe := isShoe, descs := l }], transits := [], state := .active, unfit := false, takeover := none, tAct := 0,
    pendAct := none, pendRet := none }

def syncDesc : Desc := { off := 0, c := common 0x40, b := .sync }

def waitDesc : Desc := { off := 0, c := { common 0x40 with waitEn := true, waitTally := 3, waitN := 1 }, b := .sync }

def headD : ShoeHeadD := { maxBatches := 1, complLog2 := 6, complBase := 0, status := 0 }

def headDesc : Desc := { off := 0, c := common 0x30, b := .shoeHead headD }

/-- Logical array 0, carried by physical array 0, works on a job of descriptors `l`. -/
def arrayOn (isShoe : Bool) (l : List Desc) (v : LogArr → LogArr) : State :=
  let s := setPlan up 0 (planFor { type := 1, index := 0 } isShoe l)
  setLog (setPhys s 0 { PhysArr.reset with state := .carrying }) 0 (v { LogArr.reset with phys := some 0, jobs := [job0] })

def settled (s : State) : State := arrangeArray (Safety.fresh s) 0

/-- What ARRAY_DESC_START asks of a state, with its next descriptor. -/
def startsWith (s : State) (d : Desc) : Bool :=
  let t := settled s
  live s && arrayUp s 0 && arrayUp t 0 && (logArr t 0).run.isNone && (arrayJob t 0).isSome && (jobPlan t job0).isSome &&
    decide ((arrayNext t job0).map Prod.snd = some d)

/-- How the gate of array 0's next descriptor answers. -/
def gated (s : State) (d : Desc) : Gate := (gate (wakeJob (settled s) (.array 0) job0) (.array 0) d.c 0 none).2

def shoeTurn (b : List BatchRow) : ShoeTurn :=
  { job := job0, head := headD, raise := none, batches := 0, rows := 0, deferred := 0, refused := 0, gated := false, limit := false,
    batch := b, left := 0 }

def arrayRun : ArrRun :=
  { part := 0, job := job0, desc := syncDesc, j := 0, extents := [(0, 63)], writes := [], counts := Counts.reset, status := none,
    raise := none, anchorErr := false, replayed := false, poison := false, halted := false, bank0 := Bank.reset, bank1 := Bank.reset, rows := [] }

def row0 : ShoeRow := { turn := 0, reqId := 1, inOff := 0, outOff := 0, tag := 0, last := false, ctx := some 0 }

theorem witness_ArrayDescriptorsRun :
    (startsWith (arrayOn true [headDesc] fun l => { l with shoe := [shoeTurn []] }) headDesc = true ∧
      (shoeOf (settled (arrayOn true [headDesc] fun l => { l with shoe := [shoeTurn []] })) 0 job0).isSome = true) ∧
    (startsWith (arrayOn false [waitDesc] id) waitDesc = true ∧ gated (arrayOn false [waitDesc] id) waitDesc = .wait) ∧
    (startsWith (arrayOn false [syncDesc] fun l => { l with wait := .stale }) syncDesc = true ∧
      gated (arrayOn false [syncDesc] fun l => { l with wait := .stale }) syncDesc = .skip) ∧
    (startsWith (arrayOn true [headDesc] id) headDesc = true ∧ shoeOf (settled (arrayOn true [headDesc] id)) 0 job0 = none ∧
      gated (arrayOn true [headDesc] id) headDesc = .go) ∧
    (startsWith (arrayOn false [syncDesc] id) syncDesc = true ∧ gated (arrayOn false [syncDesc] id) syncDesc = .go) ∧
    (let s := arrayOn false [syncDesc] fun l => { l with run := some arrayRun }
     arrayUp s 0 = true ∧ (logArr s 0).run = some arrayRun ∧ jobNow s (.array 0) job0 = some job0 ∧ job0.suspended = false) ∧
    (let s := arrayOn true [headDesc] fun l =>
       { l with jobs := [{ job0 with next := 1 }], shoe := [shoeTurn [{ row := row0, refused := false, mint := 0 }]] }
     arrayUp s 0 = true ∧ (logArr s 0).run = none ∧ (arrayJob s 0).isSome = true ∧ (jobPlan s job0).isSome = true ∧
       arrayNext s { job0 with next := 1 } = none ∧ ((shoeOf s 0 job0).map ShoeTurn.batch).getD [] ≠ []) ∧
    (let s := arrayOn false [syncDesc] fun l => { l with run := some arrayRun, replay := true }
     (logArr s 0).phys = some 0 ∧ (logArr s 0).replay = true ∧ (logArr s 0).held = false ∧ domainOn s (domOfArray 0) = true) := by
  decide +kernel

/-- A row of 16 bytes: REQ_ID, offsets 0, TAG 0. -/
def submit (k : Nat) (id : Nat) : ShoeWrite := { la := 0, off := k, part := 0, ctx := some 0, bytes := leBytes 4 id ++ zeros 12 }

theorem witness_ShoeRowsAreAcceptedOrRefused :
    Safety.FabricUp (arrayOn false [] id) ∧ (arrayOn false [] id).turn.commit = false ∧
      ({ up with turn := { up.turn with commit := true } } : State).turn.commit = true ∧ shoeFault (arrayOn false [] id) 0 1 0 (submit 1 5).bytes = some 0x1A ∧
      shoeFault (arrayOn false [] id) 0 0 0 (submit 0 5).bytes = none := by decide +kernel

/-- Physical array 287 in a state, in the last bucket. -/
def arrayIn (v : PhysArr → PhysArr) : State := { setPhys up 287 (v PhysArr.reset) with turn := { up.turn with bucket := 127 } }

theorem witness_ArrayFaultsQuarantineAndSubstitute :
    (live up = true ∧ domainOn up (domOfArray (287 : Fin 288)) = true ∧
      (physArr (arrayIn fun p => { p with state := .carrying }) (287 : Fin 288)).state = .carrying) ∧
    (let s := arrayIn fun p => { p with state := .quarantined }
     live s = true ∧ domainOn s (domOfArray (287 : Fin 288)) = true ∧ (physArr s (287 : Fin 288)).state = .quarantined ∧
       inTailrace s = true ∧ servicePause s = false) ∧
    1 < (physArr (arrayIn fun p => { p with state := .testing, faults := 2 }) (287 : Fin 288)).faults ∧
    (physArr (arrayIn fun p => { p with state := .testing, faults := 1 }) (287 : Fin 288)).faults ≤ 1 ∧
    (let s := arrayIn fun p => { p with state := .spare, patrol := true }
     (physArr s (287 : Fin 288)).state = .spare ∧ (physArr s (287 : Fin 288)).patrol = true ∧ inTailrace s = true ∧ servicePause s = false) := by decide +kernel

/-- Engine 0 works on a job of one descriptor. -/
def engineOn (l : List Desc) (v : Engine → Engine) : State :=
  setEngine (setPlan up 0 (planFor { type := 2, index := 0 } false l)) 0 (v { Engine.reset with jobs := if l.isEmpty then [] else [job0] })

theorem witness_EngineDescriptorsRun :
    (live (engineOn [tallyDesc] id) = true ∧ domainOn (arrangeEngine (Safety.fresh (engineOn [tallyDesc] id)) 0) 28 = true ∧
      (planRun (arrangeEngine (Safety.fresh (engineOn [tallyDesc] id)) 0) 0).map DmaRun.desc = some tallyDesc ∧ isTransfer tallyDesc = true) ∧
    ((planRun (arrangeEngine (Safety.fresh (engineOn [redDesc] id)) 0) 0).map DmaRun.desc = some redDesc ∧ isRed redDesc = true) ∧
    (let t := arrangeEngine (Safety.fresh (engineOn [] fun e => { e with queue := [{ seq := 1, ctx := 0, desc := tallyDesc }] })) 0
     planRun t 0 = none ∧ (queuedRun t 0).isSome = true) ∧
    (pickRun (engineOn [] fun e => { e with run := some (runOf false tallyDesc) }) 0 (fun _ => true)).isSome = true ∧
    (let s := engineOn [] fun e => { e with run := some (runOf false tallyDesc) }
     (pickRun s 0 (fun r => isTransfer r.desc && runDone s 0 r)).isSome = true) ∧
    (let s := engineOn [] fun e => { e with run := some (runOf false redDesc) }
     (engine s 0).run = some (runOf false redDesc) ∧ runDone s 0 (runOf false redDesc) = true) := by decide +kernel

/-- A descriptor of partition 1 that raises a tally of partition 0, or waits on one. -/
def raising : Common := { common 0x40 with raiseEn := true, raiseTally := 3, raiseAmount := 1 }

def waitState (v : WaitState) : State := setEngine up 0 { Engine.reset with wait := v }

theorem witness_OfferedDescriptorsWaitSkipOrRun :
    (waitOf up (.dma 0) = .none ∧ badRaise up 1 raising none = true) ∧ (badRaise up 0 raising none = false ∧ raising.waitEn = false) ∧
    waitOf (waitState .released) (.dma 0) = .released ∧ waitOf (waitState .stale) (.dma 0) = .stale ∧
    waitOf (waitState .waiting) (.dma 0) = .waiting ∧ (badRaise up 0 waitDesc.c none = false ∧ waitDesc.c.waitEn = true) := by
  decide +kernel

/-- A TALLY_OP descriptor as DMA_SUBMIT carries it: 48 bytes, tally 3, amount 1. -/
def submitted : Bytes :=
  leBytes 2 0x0501 ++ leBytes 2 48 ++ zeros 22 ++ leBytes 2 0 ++ leBytes 2 1 ++ leBytes 1 1 ++ zeros 5 ++ leBytes 2 3 ++ zeros 2 ++
    leBytes 4 1 ++ zeros 4

theorem witness_EngineCommands :
    (Safety.Accepts up 0x0360 (pkt 63 15 0 0) ∧ partOf (pkt 63 15 0 0) = 0 ∧ Safety.zeroFrom (pkt 63 15 0 0) 2 ∧
      queueBusy up 63 = false) ∧
    (let c := with_ (pkt 63 0 1 0) submitted
     Safety.Accepts up 0x0361 c ∧ Safety.zeroFrom c 3 ∧ (engine up 63).owner = partOf c ∧ boundTo up 0 (partOf c) = true ∧
       (parseSubmit c.payload 1).isSome = true) ∧
    (Safety.zeroFrom (pkt 63 0 0 0) 1 ∧ partOf (pkt 63 0 0 0) = 0) ∧ Safety.Accepts up 0x0362 (pkt 63 0 0 0) ∧
    (Safety.Accepts up 0x0363 (pkt 0 0 0 0) ∧ headTaken (engine up 0) = false) ∧
    (let s := setEngine up 0 { Engine.reset with queue := [{ seq := 1, ctx := 0, desc := tallyDesc }], cmdRun := some (runOf true tallyDesc) }
     Safety.Accepts s 0x0363 (pkt 0 0 0 0) ∧ headTaken (engine s 0) = true) := by decide +kernel

/-- Tally 3 with a value. -/
def tallyIs (v : Nat) : State := setTally up 3 { Tally.reset with value := v, assigned := true, remoteOk := true }

theorem witness_TallyWindowWrites :
    (live (tallyIs (maxTally - 1)) = true ∧ mayTally (tallyIs (maxTally - 1)) 3 0 = true) ∧
    ((tallyReq (1 + 2 ^ 32)).word.toNat = 1 + 2 ^ 32 ∧ (tallyAt (tallyIs (maxTally - 1)) 3).value + 1 ≤ maxTally) ∧
    maxTally < (tallyAt (tallyIs maxTally) 3).value + 1 ∧
    ((tallyReq (1 + 2 * 2 ^ 32)).word.toNat = 1 + 2 * 2 ^ 32 ∧ 1 ≤ (tallyAt (tallyIs 1) 3).value) ∧ (tallyAt (tallyIs 0) 3).value < 1 ∧
    mayTally (tallyIs 0) 3 1 = false ∧
    ((tallyReq (1 + 2 ^ 32)).remote = false ∧ { tallyReq (1 + 2 ^ 32) with remote := true }.remote = true ∧
      (tallyAt (tallyIs 0) 3).remoteOk = true ∧ (tallyAt (setTally up 3 Tally.reset) 3).remoteOk = false) := by decide +kernel

/-- A word of amount zero, and one of amount 2^31, is neither an add nor a subtract. -/
theorem witness_TallyWindowWrites_malformed :
    (∀ n, 1 ≤ n → n < 2 ^ 31 → (tallyReq 0).width = 8 → (tallyReq 0).word.toNat ≠ n + 2 ^ 32) ∧
    (∀ n, 1 ≤ n → n < 2 ^ 31 → (tallyReq (2 ^ 31 + 2 * 2 ^ 32)).width = 8 → (tallyReq (2 ^ 31 + 2 * 2 ^ 32)).word.toNat ≠ n + 2 * 2 ^ 32) := by
  refine ⟨fun n _ _ _ => ?_, fun n _ _ _ => ?_⟩ <;> simp only [tallyReq, BitVec.toNat_ofNat] <;> omega

/-- VF2, the function of partition 1, exists. -/
def vf2 : State := { up with host := { up.host with vfEnable := true, numVfs := 2 } }

def ofVf2 (c : Packet) : Packet := { c with source := 2, part := 1 }

theorem witness_TallyCommands :
    (let c := pkt 16383 1 (0 + 0 * 16 + 65536) 0
     Safety.Accepts up 0x0350 c ∧ partOf c = 0 ∧ Safety.zeroFrom c 3 ∧ boundTo up 0 0 = true ∧ up.tallies.waiters = []) ∧
    (Safety.Accepts up 0x0351 (pkt 0x1000 16383 1 0) ∧ Safety.zeroFrom (pkt 0x1000 16383 1 0) 3) ∧
    (Safety.Accepts up 0x0352 (pkt 16383 maxTally 0 0) ∧ Safety.zeroFrom (pkt 16383 maxTally 0 0) 2 ∧ mayTally up 16383 0 = true) ∧
    (let c := ofVf2 (pkt 16383 maxTally 0 0)
     Safety.Accepts vf2 0x0352 c ∧ Safety.zeroFrom c 2 ∧ mayTally vf2 16383 (partOf c) = false) := by decide +kernel

/-- A scratch atomic's target in a state of cells. -/
def cellIn (n : Nat) : State :=
  setCell up scratchBase { (Cell.fresh 0) with state := n }

theorem witness_MintCellsFollowTheirTable :
    ([0, 1, 2, 3].all fun n =>
      decide (Safety.FabricUp (cellIn n)) && decide (atomFault (cellIn n) (atomReq scratchBase) = none) &&
        (conflicts (cellIn n) scratchBase 1 true).isEmpty && decide ((cellAt (cellIn n) scratchBase).state = n)) = true ∧
    atomFault up (atomReq 0) = some 0x25 ∧ Safety.FabricUp up ∧ MintPkt.ofBytes [] = none := by decide +kernel

/-- A mint packet of one word for a cell of scratch that is applied, and one for a cell that its slice refuses. -/
theorem witness_MintCellsFollowTheirTable_packet :
    let b := fun (a : Nat) => zeros 4 ++ [1#8, 0#8, 1#8, 0#8] ++ leBytes 8 a ++ zeros 48
    let run := fun (a : Nat) => (MintPkt.ofBytes (b a)).map fun k =>
      ((conflicts up (localOf k.dst) (64 * k.words.length) true).isEmpty, (applyPacket (Safety.fresh up) (packetReq 0 (localOf k.dst)) k).2.isSome)
    run scratchBase = some (true, true) ∧ run 0 = some (true, false) := by decide +kernel

theorem witness_MintAddsCommute :
    let c := Cell.fresh 0
    let scaled := fun (lo : Int) (x : Int × Int) => x.1 * 2 ^ (x.2 - lo).toNat
    let cc : Int × Int := (c.value, c.aCur)
    let vv : Int × Int := ((normWord (word (2 ^ 200) 0)).value, (normWord (word (2 ^ 200) 0)).anchor)
    let ww : Int × Int := ((normWord (word (-3) 2)).value, (normWord (word (-3) 2)).anchor)
    let lo := min (min cc.2 vv.2) ww.2
    let inRange := fun (n : Int) => -2 ^ 287 ≤ n ∧ n < 2 ^ 287
    c.state = 1 ∧ inRange (scaled (min cc.2 vv.2) cc + scaled (min cc.2 vv.2) vv) ∧
      inRange (scaled (min cc.2 ww.2) cc + scaled (min cc.2 ww.2) ww) ∧
      inRange (scaled lo cc + scaled lo vv + scaled lo ww) := by decide +kernel

theorem witness_FmaxFminPickTheNumber :
    (0x7F800001 < 2 ^ 32 ∧ decide (0x7F800001 % 2 ^ 31 > 255 * 2 ^ 23) = true) ∧
    (0xFF80 < 2 ^ 16 ∧ decide (0xFF80 % 2 ^ 15 > 255 * 2 ^ 7) = false) := by decide +kernel

theorem witness_ElementAtomicsReadAndWrite :
    (Safety.FabricUp up ∧ atomFault up (atomReq scratchBase) = none ∧ conflicts up scratchBase 1 true = []) ∧ atomFault up (atomReq (scratchBase + 2 * 2 ^ 31)) = some 0x25 := by decide +kernel
/-! ### Witnesses: memory and coherence -/

/-- All eight stacks trained. -/
def hbmUp : State := { up with mem := { up.mem with hbm := (upto 0 8).map fun n => (n, { Stack.reset with trained := true, rate := 10 }) } }

def binState : State := arrayOn false [] id

/-- A request at this hub that nothing refuses. -/
def passes (s : State) (r : MemReq) : Bool :=
  decide (Safety.FabricUp s) && decide (hubOf r.addr = 0) && (reqFault s { r with addr := localOf r.addr }).isNone &&
    (classFor s.set r.part (issuerShare r.issuer r.share)).isSome && (epochFault s r.issuer r.epoch r.ctx).isNone

theorem witness_MemoryRequestsReachTheirPlace :
    Safety.FabricUp up ∧ (∀ f, (memReq .read 0 64 []).issuer ≠ .host f) ∧
    (hubOf (2 ^ 57) ≠ 0 ∧ hubOf (2 ^ 57) ≠ up.leat.hub ∧ localOf (2 ^ 57) = 0) ∧
    classFor up.set 1 (issuerShare (.core 0) 0) = none ∧ reqFault up { memReq .read 0 64 [] with part := 1 } = some (0x34, 0) ∧
    epochFault up (.core 0) 1 none = some 0x30 ∧ epochFault up (.core 0) 0 (some (0, 1)) = some 0x47 ∧
    regWaits up (memReq .read 0 64 []) = false ∧
    (passes up (memReq .read (siteBase + 12 * 0x4_0000_0000 - 64) 64 []) = true ∧
      regionOf (siteBase + 12 * 0x4_0000_0000 - 64) = .site 11 (0x4_0000_0000 - 64)) ∧
    (passes up (memReq .read regBase 4 []) = true ∧ regionOf regBase = .regs 0 ∧ regWaits up (memReq .read regBase 4 []) = false) ∧
    (regionOf 0 = .hbm ∧ reqFault up (memReq .read 0 64 []) = some (0x40, 0)) ∧
    (passes hbmUp (memReq .read (fitted hbmUp - 64) 64 []) = true ∧ regionOf (fitted hbmUp - 64) = .hbm ∧
      conflicts hbmUp (fitted hbmUp - 64) 64 false = []) ∧
    (passes up (memReq .write scratchBase 0 (zeros 64)) = true ∧ regionOf scratchBase = .scratch ∧
      conflicts up scratchBase 64 true = []) ∧
    (passes binState (memReq .read binBase 64 []) = true ∧ regionOf binBase = .bin 0 0) ∧
    (passes binState (memReq .write (binBase + shoeBase - 64) 0 (zeros 64)) = true ∧
      regionOf (binBase + shoeBase - 64) = .bin 0 (shoeBase - 64) ∧ guardHit binState 0 (shoeBase - 64) 64 = false) ∧
    passes up (memReq .atomic scratchBase 64 []) = true := by
  refine ⟨by decide +kernel, fun f h => ?_, ?_⟩
  · cases h
  · decide +kernel

theorem witness_WritesChangeOnlyTheirBytes :
    (passes hbmUp (memReq .write (fitted hbmUp - 64) 0 (zeros 64)) = true ∧
      regionOf (fitted hbmUp - 64) = .hbm ∧ regionOf (fitted hbmUp - 64 + 64 - 1) = .hbm ∧
      conflicts hbmUp (fitted hbmUp - 64) 64 true = [] ∧ lostAt hbmUp (fitted hbmUp - 64) = false ∧
      (memReq .write 0 0 []).hint ≠ 2 ∧ (memReq .write 0 0 []).mask = []) ∧
    (passes up (memReq .read (scratchBase + 64) 64 []) = true ∧ regionOf (scratchBase + 64) = .scratch ∧
      regionOf (scratchBase + 64 + 64 - 1) = .scratch ∧ conflicts up (scratchBase + 64) 64 false = [] ∧
      (scratchBase + 64) % 128 + 64 ≤ 128) ∧
    (∀ i, i < 128 → fitted hbmUp - 192 + i < hbmEnd → deadAt hbmUp (fitted hbmUp - 192 + i) = false) := by
  decide +kernel

def windowed (b : Bool) (w : Window) : State := { up with set := { up.set with windowMode := b, window := [(63, w)] } }

def openWindow : Window := { Window.reset with valid := true, read := true, sizeLog2 := 16, inBase := 0x10000, outBase := scratchBase }

theorem witness_RequestsOfOtherHubs :
    (Safety.FabricUp (windowed true openWindow) ∧ (remoteReq .read 0x1FFFF).part = 0 ∧
      windowFor (windowed true openWindow) 1 (localOf 0x1FFFF) = some openWindow ∧ openWindow.allows .read = true ∧
      windowTarget (windowed true openWindow) (openWindow.outBase + (localOf 0x1FFFF - openWindow.inBase)) = true) ∧
    windowFor (windowed true openWindow) 1 (localOf 0x20000) = none ∧ openWindow.allows .write = false ∧
    (windowFor (windowed true { openWindow with outBase := regBase }) 1 0x10000 = some { openWindow with outBase := regBase } ∧
      windowTarget (windowed true { openWindow with outBase := regBase }) regBase = false) ∧
    (windowed false openWindow).set.windowMode = false ∧ (windowed true openWindow).set.windowMode = true := by decide +kernel

/-- Partition 0 owns every granule of scratch that the tests use; agent 15 is a core. -/
def ownedUp : State := { up with mem := { up.mem with deeds := [(scratchBase / granule, { Deed.reset with kind := .owned })] } }

def scratchLine : Nat := scratchBase / 128

/-- A directory entry for the scratch line. -/
def heldBy (l : List Nat) (owned : Bool) : State :=
  { ownedUp with coh := { ownedUp.coh with dir := [(scratchLine, { owned := owned, holders := l, way := 0 })] } }

theorem witness_CachingRequests :
    (Safety.FabricUp up ∧ { cohMsg 15 0 with epoch := 1 }.epoch % 256 ≠ (agentOf up 15).epoch) ∧
    ((cohMsg 15 0).epoch % 256 = (agentOf up 15).epoch ∧
      (agentOf (setAgent up 15 { Agent.reset with fenced := true }) 15).fenced = true ∧ (agentOf up 15).fenced = false) ∧
    (cohFault up 15 0 = some (some 0x3A) ∧ cohFault up 15 scratchLine = some (some 0x3A)) ∧ cohFault ownedUp 15 scratchLine = none ∧
    (without (holdersOf (heldBy [15] true) scratchLine) 15 = [] ∧ without (holdersOf (heldBy [14] true) scratchLine) 15 ≠ [] ∧
      15 ∈ holdersOf (heldBy [15] true) scratchLine ∧ 15 ∉ holdersOf (heldBy [14] true) scratchLine) := by decide +kernel

theorem witness_CachingRequests_evict :
    let s := setSite up 11 { siteOf up 11 with cxl := true, state := .inService }
    let f := setAgent s 11 { agentOf s 11 with fenced := true }
    (Safety.FabricUp s ∧ siteUp s 11 = true ∧ (siteOf s 11).cxl = true ∧ (agentOf s 11).fenced = false) ∧
      (Safety.FabricUp f ∧ siteUp f 11 = true ∧ (siteOf f 11).cxl = true ∧ (agentOf f 11).fenced = true) := by decide +kernel

/-- A transaction on the scratch line that waits for agent 15. -/
def txn15 (k : TxnKind) : Txn := { line := scratchLine, kind := k, awaiting := [15], dirty := none, wb := none, inflight := none, keepS := [15] }

def txnUp : State := { heldBy [15] true with coh := { (heldBy [15] true).coh with txns := [txn15 (.rdS 14 .clean)], offers := [(15, scratchLine)] } }

theorem witness_SnoopResponsesAndEvictions :
    (Safety.FabricUp txnUp ∧ (cohMsg 15 scratchLine).epoch % 256 = (agentOf txnUp 15).epoch ∧ (agentOf txnUp 15).fenced = false) ∧
    (txnOf txnUp scratchLine = some (txn15 (.rdS 14 .clean)) ∧ 15 ∈ (txn15 (.rdS 14 .clean)).awaiting) ∧
    (txnOf ownedUp scratchLine = none ∧ cohFault ownedUp 15 scratchLine = none) ∧
    (let s := { ownedUp with coh := { ownedUp.coh with txns := [{ txn15 (.stashTo 15) with keepS := [] }] } }
     Safety.FabricUp s ∧ (cohMsg 15 scratchLine).epoch % 256 = (agentOf s 15).epoch ∧ (agentOf s 15).fenced = false ∧
       (txnOf s scratchLine).map Txn.kind = some (.stashTo 15)) ∧
    (15, scratchLine) ∈ txnUp.coh.offers ∧
    awaitsFlush (setAgent up 15 { Agent.reset with flushing := true }) 15 = true ∧
    (∀ n : Fin 16, let s := setSite (setAgent up n { Agent.reset with flushing := true }) 11 { siteOf up 11 with state := .inService }
      Safety.FabricUp s ∧ (agentOf s n).flushing = true ∧ (n = 11 → sidebandUp s n = true)) := by decide +kernel

theorem witness_OwnedLinesHaveOneHolder :
    (∀ x ∈ (heldBy [15] true).coh.dir, x.2.owned = true → x.2.holders.length ≤ 1) ∧
      (match exec (.rdS (cohMsg 14 scratchLine)) (heldBy [15] true) with | .next _ => true | _ => false) = true := by decide +kernel

def inval0 : Inval := { ctx := none, part := 0, lo := 0, len := 2 ^ 57, units := [63, 64], lost := [], reply := none, after := none }

theorem witness_ContextsAndInvalidations :
    (Safety.Accepts up 0x0301 (pkt 4095 15 1 0) ∧ Safety.zeroFrom (pkt 4095 15 1 0) 3 ∧ (ctxOf up 4095).bound = false ∧
      ctxInPlan up 4095 = false ∧ up.xlate.binds = [] ∧ boundaryFor up 1 = .ok 1) ∧
    (Safety.Accepts up 0x0301 (pkt 15 0xFF 0 0) ∧ boundaryFor up 0 = .ok 1 ∧ ctxInPlan up 15 = false) ∧
    (Safety.Accepts up 0x0302 (pkt 0 scratchBase 0 0) ∧ Safety.zeroFrom (pkt 0 scratchBase 0 0) 2 ∧
      mayContext up (pkt 0 scratchBase 0 0) 0 = true ∧ rootOk up scratchBase = true) ∧
    (Safety.Accepts up 0x0304 (pkt 4095 0 0 0) ∧ Safety.zeroFrom (pkt 4095 0 0 0) 1 ∧ mayContext up (pkt 4095 0 0 0) 4095 = true) ∧
    (let c := pkt 0xFFFF (2 ^ 57 - 65536) 65536 0
     Safety.Accepts up 0x0303 c ∧ Safety.zeroFrom c 3 ∧ c.p1.toNat + c.p2.toNat ≤ 2 ^ 57 ∧ c.p1.toNat % 65536 = 0) ∧
    (let s := { up with xlate := { up.xlate with invals := [inval0] } }
     live s = true ∧ (∃ v ∈ s.xlate.invals.take 16, (63 : Fin 76).val ∈ v.units) ∧ ∃ v ∈ s.xlate.invals.take 16, (64 : Fin 76).val ∈ v.units) := by
  decide +kernel

def deedMove : DeedMove :=
  { first := scratchBase / granule, count := 1, deed := { Deed.reset with kind := .owned, owner := 1 }, turn := 1, zeroing := true, zeroed := false,
    reply := { id := 0, source := 0, tag := 7, opcode := 0x0310, noIrq := false } }

theorem witness_DeedsChangeAtABoundary :
    (let c := pkt scratchBase 1024 17 0
     Safety.Accepts up 0x0310 c ∧ Safety.zeroFrom c 4 ∧ partOf c = 0 ∧ runFault up c.p0.toNat c.p1.toNat 0 1 = none ∧
       Deed.ofWord c.p2.toNat = some deedMove.deed ∧ storeInRun up (scratchBase / granule) 1024 = false ∧
       moveInRun up (scratchBase / granule) 1024 = false ∧ boundaryFor up c.p3.toNat = .ok 1) ∧
    (let s := { up with mem := { up.mem with moves := [deedMove] } }
     live s = true ∧ deedMove ∈ s.mem.moves ∧ deedMove.zeroing = true ∧
       (∀ i, i < deedMove.count → granuleQuiet s (deedMove.first + i) = true) ∧
       (∀ x ∈ s.mem.moves, x.first = deedMove.first → x = deedMove) ∧
       ∀ x ∈ s.mem.moves, x ≠ deedMove → x.zeroing = true → x.zeroed = false) ∧
    (let c := pkt 0x1000 scratchBase 1024 0
     Safety.Accepts up 0x0311 c ∧ Safety.zeroFrom c 3 ∧ runFault up c.p1.toNat c.p2.toNat 1 2 = none) := by decide +kernel

/-- The entry of Table 8-7 for a window of 64 KiB. -/
def windowBytes : Bytes := leBytes 1 3 ++ leBytes 1 16 ++ zeros 30

def factory : State := { up with otp := { up.otp with sealBits := 0 } }

def locked (s : State) : State := { s with glob := { s.glob with xlateLock := true } }

theorem witness_WindowsWrittenAtOnce :
    (Safety.Accepts up 0x0320 (pkt 63 0 0 0) ∧ Safety.zeroFrom (pkt 63 0 0 0) 2 ∧ partOf (pkt 63 0 0 0) = 0 ∧ up.glob.xlateLock = false ∧
      windowBytes.length = 32 ∧ windowFormat windowBytes = true) ∧
    (Safety.Accepts (locked up) 0x0320 (pkt 63 0 0 0) ∧ (locked up).glob.xlateLock = true) ∧
    (Safety.FabricUp factory ∧ pathOpen factory .test = true ∧ factory.glob.xlateLock = false) ∧
    pathOpen (locked factory) .test = true ∧ pathOpen up .test = false := by decide +kernel

def retired (n : Nat) : State := { hbmUp with mem := { hbmUp.mem with retired := List.range n } }

theorem witness_MemoryIsReadRetiredAndScrubbed :
    (Safety.Accepts up 0x0340 (pkt 0x1000 16 0 0) ∧ Safety.zeroFrom (pkt 0x1000 16 0 0) 3) ∧
    (let c := fun v => pkt (fitted hbmUp - 65536) v 0 0
     let last := (fitted hbmUp - 65536) / 65536
     Safety.Accepts hbmUp 0x0341 (c 1) ∧ Safety.Accepts hbmUp 0x0341 (c 0) ∧ Safety.zeroFrom (c 1) 2 ∧
       (c 0).p0.toNat % 65536 = 0 ∧ (c 0).p0.toNat < fitted hbmUp ∧
       last ∉ (retired 1).mem.retired ∧ (retired 1).mem.retired.length < 4096) ∧
    (Safety.Accepts (retired 1) 0x0341 (pkt 0 0 0 0) ∧ 0 ∈ (retired 1).mem.retired) ∧
    (Safety.Accepts up 0x0342 (pkt 0x1000 8 0 0) ∧ Safety.zeroFrom (pkt 0x1000 8 0 0) 2) ∧
    (Safety.Accepts up 0x0343 (pkt 720 0 0 0) ∧ Safety.zeroFrom (pkt 720 0 0 0) 1) ∧
    (regionOf (fitted hbmUp - 1) = .hbm ∧ addrFault hbmUp (fitted hbmUp - 1) = none ∧ lostAt hbmUp (fitted hbmUp - 1) = false ∧
      scrubFree hbmUp (fitted hbmUp - 1) = true) := by
  decide +kernel

/-- 4,096 pages are listed, and page 4,096 is not among them. -/
theorem witness_MemoryIsReadRetiredAndScrubbed_full :
    Safety.Accepts (retired 4096) 0x0341 (pkt (4096 * 65536) 0 0 0) ∧ 4096 * 65536 < fitted (retired 4096) ∧
      4096 ∉ (retired 4096).mem.retired ∧ 4096 ≤ (retired 4096).mem.retired.length := by
  refine ⟨by decide +kernel, by decide +kernel, ?_, ?_⟩
  · simp [retired]
  · simp [retired]
/-! ### Witnesses: posting, the fabric and the links -/

def sealItem : Item := { item := 0x0505, index := 15, value := leBytes 8 1 }

/-- Set 3 of the PF holds an item. -/
def staged (st : SetState) (i : Item) : State :=
  { up with cmd := { up.cmd with sets := [(3, { StageSet.reset with state := st, items := [i], turn := 5
                                                                    reply := some { id := 0, source := 0, tag := 1, opcode := 0x0103, noIrq := false } })],
                                 started := 1,
                                 chan := [(0, { Chan.reset with started := [{ reply := { id := 0, source := 0, tag := 1, opcode := 0x0103, noIrq := false }
                                                                              interim := true }] })] } }

def sealPkt : Packet := with_ (pkt 3 0 0 0) (leBytes 2 0x0505 ++ leBytes 2 15 ++ leBytes 2 8 ++ leBytes 2 0 ++ leBytes 8 1)
def ownerPkt : Packet := with_ (pkt 3 0 0 0) (leBytes 2 0x0501 ++ leBytes 2 (6 * 256 + 11) ++ leBytes 2 128 ++ leBytes 2 0 ++ zeros 128)
def slopePkt : Packet := with_ (pkt 3 0 0 0) (leBytes 2 0x0503 ++ leBytes 2 15 ++ leBytes 2 16 ++ leBytes 2 0 ++ zeros 16)

def parsed (c : Packet) : List Item := (parseItems (c.payload.length / 16 + 1) c.payload).getD []

theorem witness_StagedSetsArePosted_items :
    (Safety.zeroFrom sealPkt 1 ∧ parsed sealPkt = [sealItem] ∧ Safety.Accepts up 0x0101 sealPkt ∧
      (setOf (Safety.begun up 0x0101 sealPkt) 3).state = .empty) ∧
    (Safety.Accepts up 0x0402 ownerPkt ∧ (parsed ownerPkt).map Item.item = [0x0501]) ∧
    (Safety.Accepts up 0x0403 slopePkt ∧ (parsed slopePkt).map Item.item = [0x0503]) ∧
    (Safety.Accepts up 0x0404 (pkt 3 15 1 0) ∧ Safety.zeroFrom (pkt 3 15 1 0) 3) := by decide +kernel

theorem witness_StagedSetsArePosted_states :
    (let s := staged .opened sealItem
     Safety.Accepts s 0x0102 (pkt 3 0 0 0) ∧ Safety.zeroFrom (pkt 3 0 0 0) 1 ∧
       (setOf (Safety.begun s 0x0102 (pkt 3 0 0 0)) 3).state = .opened ∧ Safety.Accepts s 0x0103 (pkt 3 2 0 0) ∧
       turnFor (Safety.begun s 0x0103 (pkt 3 2 0 0)) 2 1 = .ok 2) ∧
    (let s := staged .posted sealItem
     Safety.Accepts s 0x0104 (pkt 3 0 0 0) ∧ (setOf (Safety.begun s 0x0104 (pkt 3 0 0 0)) 3).state = .posted ∧
       (setOf (Safety.begun s 0x0104 (pkt 3 0 0 0)) 3).deferred = false ∧ committedFor s 5 = false ∧
       (setOf (Safety.begun s 0x0104 (pkt 3 0 0 0)) 3).reply.isSome = true) ∧
    (Safety.Accepts (staged .checked sealItem) 0x0105 (pkt 3 0 0 0) ∧ Safety.zeroFrom (pkt 3 0 0 0) 3) ∧
    (Safety.Accepts up 0x0401 (pkt 0 256 0xF 0) ∧ Safety.zeroFrom (pkt 0 256 0xF 0) 3) := by decide +kernel

/-- The checks of a set that posts and of one whose item breaks its own rule. -/
theorem witness_StagedSetsArePosted_check :
    checkSet (Safety.begun (staged .opened sealItem) 0x0102 (pkt 3 0 0 0)) 3 [sealItem] = none ∧
    (checkSet (Safety.begun up 0x0102 (pkt 3 0 0 0)) 3 [{ item := 0x0101, index := 0, value := leBytes 8 17 }]).isSome = true := by
  decide +kernel

/-- Initiator 1 holds a slot of queue 0 of target 0. -/
def granted : State :=
  { up with fab := { up.fab with queue := [(0, { Queue.reset with granted := [(1, 0, 0)] })] } }

theorem witness_FabricSlotsAndStatistics :
    (Safety.FabricUp up ∧ (unitBehind (queueReq 0 2).target).isSome = true ∧ (queueReq 0 2).vn = 2 ∧ isSlice 128 = true ∧
      isSlice (queueReq 0 2).initiator = false) ∧
    ((queueReq 0 3).vn ≠ 1 ∧ (queueReq 0 3).vn ≠ 2 ∧ classFor up.set (queueReq 0 3).part (queueReq 0 3).cls = some 0) ∧
    classFor up.set ({ queueReq 0 0 with part := 1 } : QueueReq).part 0 = none ∧
    (Safety.FabricUp granted ∧ (slotOf (queueOf granted 0 0) 1).isSome = true) ∧
    ((flit 0 .headerBad).check = .headerBad ∧ (flit 0 .good).check ≠ .headerBad ∧ (unitBehind (flit 0 .good).target).isSome = true ∧
      (admitFlit (Safety.fresh up) (flit 0 .good)).isNone = true) ∧
    (∀ k ∈ [FlitCheck.good, .corrected, .dataBad], (admitFlit (Safety.fresh up) (flit 1 k)).isSome = true ∧ (flit 1 k).check = k) ∧
    (slotOf (queueOf granted 0 0) (flit 0 .good).initiator).isSome = true ∧ slotOf (queueOf up 0 0) 1 = none ∧
    ({ flit 3 .good with index := 1 }.index ≠ 0 ∧ (queueOf up 0 3).coming.get 1 0 = 0 ∧
      0 < (queueOf (setComing up (flit 3 .good) 2) 0 3).coming.get 1 0) ∧
    (let c := fun (v : Nat) => { pkt 0x1000 96 191 1 with p4 := 15, p5 := BitVec.ofNat 64 v }
     statPart (c 0) = some 0 ∧ Safety.Accepts up 0x0710 (c 0) ∧ Safety.Accepts up 0x0710 (c 1) ∧
       (c 0).p2.toNat + (c 0).p3.toNat ≤ 192) ∧
    (let c := { pkt 0x1000 16 63 1 with p4 := 14 }
     statPart c = some 14 ∧ Safety.Accepts up 0x0711 c ∧ Safety.zeroFrom c 5) := by decide +kernel

/-- Link 7, the last of port 0, in a torus of two hubs along X. -/
def linkIs (v : Link → Link) : State :=
  let s := { up with leat := { up.leat with exm1 := 1 } }
  setLink s 7 (v Link.reset)

def trained : Link → Link := fun l => { l with state := .inService, lanes := 0xF#4, ber := .passed }

theorem witness_LinksTrainServeAndFail_rows :
    (let s := { linkIs id with boot := { (linkIs id).boot with leatCfg := true } }
     live s = true ∧ s.boot.leatCfg = true ∧ (linkOf s 7).state = .down ∧ domainOn s (domOfLink 7) = true) ∧
    (let s := linkIs fun l => { l with state := .training, fromSaved := true }
     (linkOf s 7).state = .training ∧ servicePause s = false ∧ goodLanes (linkOf s 7) { train with goodLanes := 0#4 } = 0#4 ∧
       (linkOf s 7).fromSaved = true) ∧
    (let s := linkIs fun l => { l with state := .training }
     (linkOf s 7).fromSaved = false ∧ goodLanes (linkOf s 7) train ≠ 0#4 ∧ trainFault s 7 { train with delay := 2000 } = none ∧
       trainFault s 7 { train with delay := 2001 } = some (2, 0x62)) ∧
    (let s := linkIs trained
     (linkOf s 7).state = .inService ∧ (linkOf s 7).ber = .passed) ∧
    (let s := linkIs fun l => { trained l with ber := .agreed 0 true }
     (linkOf s 7).ber = .agreed 0 true ∧ 0 ≤ now s ∧ berLanes (linkOf s 7) [212500, 0, 0, 0] = (linkOf s 7).lanes ∧
       berLanes (linkOf s 7) [212501, 0, 0, 0] ≠ (linkOf s 7).lanes) := by decide +kernel

theorem witness_LinksTrainServeAndFail_commands :
    (let c := pkt (2 ^ 17 - 1) (2 ^ 17 - 1) 0 0
     Safety.Accepts up 0x0501 c ∧ Safety.zeroFrom c 2 ∧ linksBusy up = false ∧ bits (2 ^ 17 - 1) 16 14 ≤ bits (2 ^ 17 - 1) 16 14) ∧
    (let c := pkt (2 ^ 63) 2 0 0
     Safety.Accepts up 0x0502 c ∧ Safety.zeroFrom c 2 ∧ up.leat.training = none ∧
       ((setBits 64 c.p0.toNat).any fun n => (linkOf ((setBits 64 c.p0.toNat).foldl (trainOne 2) (Safety.begun up 0x0502 c)) n).state = .training) =
         false) ∧
    (let c := pkt (2 ^ 63) 1 0 0
     Safety.Accepts up 0x0502 c ∧
       ((setBits 64 c.p0.toNat).any fun n => (linkOf ((setBits 64 c.p0.toNat).foldl (trainOne 1) (Safety.begun up 0x0502 c)) n).state = .training) =
         true) ∧
    (Safety.Accepts up 0x0503 (pkt 0x1000 1024 0 0) ∧ Safety.zeroFrom (pkt 0x1000 1024 0 0) 2 ∧ hostAddrOk (pkt 0x1000 1024 0 0) 0x1000 = true) ∧
    (Safety.Accepts up 0x0504 (pkt 0 0 0 0) ∧ Safety.zeroFrom (pkt 0 0 0 0) 0) := by decide +kernel
/-! ### Witnesses: flits, keys and sites -/

/-- A data flit of TYPE 1 with no packet, an LSEQ and a CRC. -/
def dataFlit (lseq crc : Nat) : Bytes := zeros 4080 ++ leBytes 3 lseq ++ [1#8] ++ zeros 8 ++ leBytes 4 crc

def sent (resent : Nat) : Replay := { lseq := 1, part := 0, pseq := 0, mgmt := false, data := [], resent := resent }

theorem witness_FlitsAndSealKeys_flits :
    (live (linkIs trained) = true ∧ linkOpen (linkIs trained) 7 = true) ∧ (trailerOf []).good = false ∧
    (let s := linkIs fun l => { trained l with replay := [sent 4] }
     ∃ r ∈ ((linkOf s 7).ackUpTo 0).replay, 4 ≤ r.resent) ∧
    (let s := linkIs fun l => { trained l with replay := [sent 3] }
     ∀ r ∈ ((linkOf s 7).ackUpTo 0).replay, r.resent < 4) := by decide +kernel

theorem witness_FlitsAndSealKeys_good : (trailerOf (dataFlit 1 3034728453)).good = true ∧ (trailerOf (dataFlit 2 2636840183)).good = true := by
  decide +kernel

theorem witness_FlitsAndSealKeys_lseq :
    ((trailerOf (dataFlit 1 3034728453)).kind = 1 ∧
      (trailerOf (dataFlit 1 3034728453)).lseq =
        ((linkOf (takeReturns (Safety.fresh (linkIs trained)) 7 (trailerOf (dataFlit 1 3034728453))) 7).rxSeq + 1) % 4096) ∧
    (trailerOf (dataFlit 2 2636840183)).lseq ≠
      ((linkOf (takeReturns (Safety.fresh (linkIs trained)) 7 (trailerOf (dataFlit 2 2636840183))) 7).rxSeq + 1) % 4096 := by
  decide +kernel

/-- Partition 1 is sealed; this hub initiates on port 0, or answers. -/
def sealedUp (first : Bool) (x : Option KeyEx) : State :=
  let s := linkIs trained
  { s with
    set := { s.set with sealed := [(1, 1)] }
    leat := { s.leat with hub := if first then 0 else 1, port := [(0, { Port.reset with keyEx := x.toList.map fun y => (1, y) })] } }

def keyEx (first : Bool) (got : Nat) : KeyEx :=
  { keyId := 0, num := 0, failed := false, got := (List.range got).map fun k => (k, zeros 40), theyHave := 0, initiator := first }

theorem witness_FlitsAndSealKeys_keys :
    (servicePause (sealedUp false none) = false ∧ initiates (sealedUp false none) ((7 : Fin 64).val / 8) = false ∧
      linkOpen (sealedUp false none) 7 = true ∧ mayExchange (linkIs trained) (fragment 0).part = false ∧
      initiates (linkIs trained) ((7 : Fin 64).val / 8) = true) ∧
    (let s := sealedUp false (some (keyEx false 0))
     mayExchange s (fragment 0).part = true ∧
       (((portOf s 0).keyEx.find? 1).filter fun x => x.keyId = (fragment 0).keyId.toNat && !x.failed) = some (keyEx false 0)) ∧
    ((portOf (sealedUp false none) 0).keyEx.find? 1 = none ∧ (portOf (sealedUp false none) 0).keys.find? 1 = none) ∧
    (let s := sealedUp true none
     mayExchange s 1 = true ∧ initiates s 0 = true ∧ (portOf s 0).keyEx.find? 1 = none ∧ (portOf s 0).keys.find? 1 = none ∧
       (fragment 0).index = 0#8) ∧
    (let s := sealedUp true (some (keyEx true 10))
     (portOf s 0).keyEx.find? 1 = some (keyEx true 10) ∧ (fragment 255).index = 0xFF#8 ∧ (fragment 254).index = 0xFE#8 ∧
       (fragment 0).index ≠ 0xFE#8 ∧ (fragment 0).index ≠ 0xFF#8 ∧ (keyEx true 10).has 0 10 = true ∧ (keyEx true 10).failed = false ∧
       (keyEx true 10).initiator = true ∧ (fragment 0).keyId.toNat = (keyEx true 10).keyId) ∧
    (let x := { keyEx true 10 with failed := true }
     (portOf (sealedUp true (some x)) 0).keyEx.find? 1 = some x ∧ x.failed = true) := by decide +kernel

/-- A partition's answers are refused on a hub that answers with no exchange allowed. -/
theorem witness_FlitsAndSealKeys_refused :
    let s := { sealedUp false none with set := Settings.reset }
    linkOpen s 7 = true ∧ servicePause s = false ∧ initiates s 0 = false ∧ mayExchange s 1 = false := by decide +kernel

/-- Keys stand installed on port 0, and perhaps an exchange is open. -/
def keysUp (first : Bool) (x : Option KeyEx) : State :=
  let s := sealedUp first x
  let p := { portOf s 0 with keys := [(1, { keyId := 0, material := [], old := none, newSeen := false })] }
  { s with leat := { s.leat with port := [(0, p)] } }

def keyed : State := keysUp true none

/-- A responder that has installed the keys, an initiator and a responder that have not. -/
theorem witness_FlitsAndSealKeys_installed :
    (let s := keysUp false none
     servicePause s = false ∧ initiates s 0 = false ∧ mayExchange s 1 = true ∧
       (((portOf s 0).keyEx.find? 1).filter fun x => x.keyId = (fragment 0).keyId.toNat && !x.failed) = none ∧
       ((portOf s 0).keys.find? 1).map Keys.keyId = some (fragment 0).keyId.toNat ∧
       ((portOf s 0).keys.find? 1).map Keys.keyId ≠ some ({ fragment 0 with keyId := 1#8 } : KeyFragment).keyId.toNat) ∧
    (let s := keysUp false (some (keyEx false 10))
     live s = true ∧ (portOf s 0).keyEx.find? 1 = some (keyEx false 10) ∧ (keyEx false 10).initiator = false ∧
       installed s 0 1 (keyEx false 10) = true) ∧
    (let s := sealedUp false (some (keyEx false 10))
     (portOf s 0).keyEx.find? 1 = some (keyEx false 10) ∧ installed s 0 1 (keyEx false 10) = false) := by decide +kernel

theorem witness_FlitsAndSealKeys_limits :
    (live keyed = true ∧ isSealed keyed 1 = true ∧ (linkOf keyed 7).sealHeld.contains 1 = false ∧ ((portOf keyed 0).keys.find? 1).isSome = true ∧
      mayExchange keyed 1 = true ∧ (portOf keyed 0).keyEx.find? 1 = none) ∧
    (let s := setLink keyed 7 { linkOf keyed 7 with sealHeld := [1] }
     live s = true ∧ isSealed s 1 = true ∧ (linkOf s 7).sealHeld.contains 1 = true) ∧
    ((portOf (keysUp true (some (keyEx true 0))) 0).keyEx.find? 1).isSome = true ∧
    mayExchange { keyed with boot := { keyed.boot with coresRun := false } } 1 = false := by decide +kernel

/-- Site 11 in a state. -/
def siteIs (v : Site → Site) : State := setSite up 11 (v { Site.reset with state := .inService, modules := List.replicate 16 .x64 })

theorem witness_AlertsAndMissingReports :
    (live (siteIs id) = true ∧ sidebandUp (siteIs id) 11 = true) ∧
    ((siteOf (siteIs id) 11).state = .inService ∧ (siteOf (siteIs id) 11).reported = false) := by decide +kernel

/-- A call of function 1, with a wait on tally 3 or without. -/
def siteDesc (w : Bool) : Desc :=
  { off := 0, c := { common 0x0401 with waitEn := w, waitTally := 3, waitN := 1 }
    b := .site { args := zeros 32, inVa := none, inLen := 0, outVa := none, outLen := 0, status := none, raiseHub := none, units := 1, stepI := 0 } }

def calling : SiteRun := .start job0 5 0 (siteDesc false) 0

theorem witness_SidebandAndPurse_rows :
    (sidebandUp (siteIs id) 11 = true ∧ (siteOf (siteIs id) 11).reported = false ∧ (siteIs id).turn.bucket < 16) ∧
    ({ siteIs id with turn := { (siteIs id).turn with bucket := 15 } } : State).turn.bucket < 16 ∧
    (siteUp (siteIs id) 11 = true ∧ (siteOf (siteIs id) 11).modules.getD (15 : Fin 16) .excluded = .x64) := by decide +kernel

theorem witness_SidebandAndPurse_commands :
    (Safety.Accepts up 0x0601 (pkt 11 0x1000 64 0) ∧ Safety.zeroFrom (pkt 11 0x1000 64 0) 3) ∧
    (Safety.Accepts (siteIs id) 0x0602 (pkt 11 0 0 0) ∧ Safety.zeroFrom (pkt 11 0 0 0) 1 ∧ claimed (siteIs id) (siteRes 11) = false ∧
      (siteOf (siteIs id) 11).resetting = none ∧ domainOn (siteIs id) (domOfSite 11) = true ∧ agentEnabled (siteIs id) 11 = false) ∧
    (let s := { siteIs id with set := { (siteIs id).set with siteCache := [(11, 1)] } }
     Safety.Accepts s 0x0602 (pkt 11 0 0 0) ∧ agentEnabled s 11 = true ∧ (agentOf s 11).fenced = false ∧ claimed s (siteRes 11) = false) ∧
    (Safety.Accepts up 0x0603 (pkt 0x1000 192 0 0) ∧ Safety.zeroFrom (pkt 0x1000 192 0 0) 2) ∧
    (Safety.Accepts up 0x0604 (pkt 11 0 0 0) ∧ Safety.zeroFrom (pkt 11 0 0 0) 1) := by decide +kernel

def chiplet (a : Nat) : SitePkt := { sitePkt a with site := 11 }

/-- Site 11 has an aperture request without a reply. -/
def askedSite (a : Asker) : State := siteIs fun x => { x with aperture := [{ tag := 4095, addr := 0, len := 64, asker := a }] }

theorem witness_ChipletPackets :
    (live (siteIs id) = true ∧ siteUp (siteIs id) (chiplet 0).site = true ∧ (siteOf (siteIs id) 11).cxl = false ∧
      pktFormOk 1 (chiplet 0) = true ∧ pktFormOk 1 { chiplet 0 with len := 33 } = false ∧
      pktFormOk 2 { chiplet 0 with data := zeros 64, mask := List.replicate 64 true } = true) ∧
    ((agentOf (setAgent (siteIs id) 11 { Agent.reset with fenced := true }) 11).fenced = true ∧ (agentOf (siteIs id) 11).fenced = false ∧
      { chiplet 0 with epoch := 255 }.epoch % 256 ≠ (agentOf (siteIs id) 11).epoch ∧ (chiplet 0).epoch % 256 = (agentOf (siteIs id) 11).epoch) ∧
    (hubOf (chiplet (2 ^ 41)).addr ≠ (siteIs id).leat.hub ∧ hubOf (chiplet (2 ^ 41 - 1)).addr = (siteIs id).leat.hub) ∧
    siteHeld (siteIs id) 1 (chiplet scratchBase) = none ∧
    (let s := { siteIs id with coh := { (siteIs id).coh with dir := [(scratchLine, { owned := true, holders := [15], way := 0 })] } }
     (siteHeld s 1 (chiplet scratchBase)).isSome = true) ∧
    ((chiplet 0).malformed = false ∧ (chiplet 0).len ≤ 32 ∧ { chiplet 0 with malformed := true }.malformed = true) ∧
    (∃ e ∈ (siteOf (askedSite .row) (11 : Fin 12)).aperture, e.tag = 4095) ∧
    (∀ a ∈ [Asker.row, .far 1 0 0 0, .chiplet 10 1 0, .call 10],
      (siteOf (askedSite a) 11).aperture.find? (fun q => q.tag = 4095) = some { tag := 4095, addr := 0, len := 64, asker := a }) ∧
    waitingFor (askedSite .row) (fun q => q.fn = 32 + 11 && q.tag = 4095) = none ∧
    (siteUp (siteIs fun x => { x with cxl := true }) 11 = true ∧ (siteOf (siteIs fun x => { x with cxl := true }) 11).cxl = true) := by
  decide +kernel

/-- Site 11 works on a slot of one descriptor. -/
def callOn (d : Desc) (w : WaitState) (a : Agent) : State :=
  let s := setPlan (siteIs fun x => { x with jobs := [job0], wait := w }) 0 (planFor { type := 6, index := 11 } false [d])
  setAgent s 11 a

def callGate (s : State) (d : Desc) : Gate := (gate (wakeJob (arrangeSite (Safety.fresh s) 11) (.site 11) job0) (.site 11) d.c 0 d.b.hub).2

def startable (s : State) (d : Desc) : Bool :=
  let t := arrangeSite (Safety.fresh s) 11
  live s && (siteOf t 11).run.isNone && domainOn t 28 && decide (currentJob t (.site 11) = some job0) && (jobPlan t job0).isSome &&
    decide (nextDesc t job0 = some (0, d))

theorem witness_SiteCalls :
    (startable (callOn (siteDesc true) .none Agent.reset) (siteDesc true) = true ∧ callGate (callOn (siteDesc true) .none Agent.reset) (siteDesc true) = .wait) ∧
    (startable (callOn (siteDesc false) .stale Agent.reset) (siteDesc false) = true ∧ callGate (callOn (siteDesc false) .stale Agent.reset) (siteDesc false) = .skip) ∧
    (startable (callOn (siteDesc false) .none Agent.reset) (siteDesc false) = true ∧ callGate (callOn (siteDesc false) .none Agent.reset) (siteDesc false) = .go) ∧
    (let s := siteIs fun x => { x with run := some calling }
     live s = true ∧ siteUp s 11 = true ∧ (siteOf s 11).run = some calling ∧ calling.tag = (chiplet 5).addr ∧ calling.done = none ∧
       calling.suspending = false) ∧
    (siteOf (siteIs fun x => { x with run := some { calling with suspending := true } }) 11).run = some { calling with suspending := true } := by
  decide +kernel

/-- The lines of its ranges that an agent owns. -/
def heldBy11 (s : State) (d : Desc) : List Nat :=
  let t := arrangeSite (Safety.fresh s) 11
  let r := SiteRun.start job0 (freeTag ((siteOf t 11).parked.map SiteRun.tag) 64) 0 d 0
  match d.b with
  | .site b => ((callRanges r b).1.toList ++ (callRanges r b).2.toList).flatMap (callHeld t 11 0 [])
  | _ => []

/-- A call with an input, in a context whose table lies in the scratch line, and the same call while agent 15 owns that line. -/
theorem witness_SiteCalls_held :
    let d : Desc :=
      { siteDesc false with
        b := .site { args := zeros 32, inVa := some 0, inLen := 64, outVa := none, outLen := 0, status := none, raiseHub := none, units := 1,
                     stepI := 0 } }
    let s := setCtx (callOn d .none Agent.reset) 0 { ctxOf up 0 with root := scratchBase }
    let t := { s with coh := { s.coh with dir := [(scratchLine, { owned := true, holders := [15], way := 0 })] } }
    (startable s d = true ∧ clearing (arrangeSite (Safety.fresh s) 11) 0 = false ∧ heldBy11 s d = []) ∧
    (startable t d = true ∧ clearing (arrangeSite (Safety.fresh t) 11) 0 = false ∧ heldBy11 t d ≠ []) := by decide +kernel
/-! ### Witnesses: power, the ledger, security and firmware -/

def switchingTo (l : List Nat) (on : Bool) : State :=
  { up with power := { up.power with
      switching := some { left := l, on := on, turn := 0, started := true, count := 0
                          reply := { id := 0, source := 0, tag := 7, opcode := 0x0A01, noIrq := false } } } }

theorem witness_PowerSensorsAndProfiler_rows :
    (live (switchingTo [0] true) = true ∧
      ((switchingTo [0] true).power.switching.map fun w => (w.left, w.on, w.started)) = some ([0], true, true)) ∧
    groupFlushing (switchingTo [27] false) 27 = false ∧
    (let s := setAgent (switchingTo [27] false) 11 { Agent.reset with flushing := true }
     groupFlushing s 27 = true) ∧
    pathOpen factory .observe = true ∧ pathOpen up .observe = false ∧
    (let s := { up with power := { up.power with profOn := true }, turn := { up.turn with count := 1023 } }
     live s = true ∧ s.power.profOn = true ∧ ageingTurn s = false) ∧ aon up = true := by decide +kernel

theorem witness_PowerSensorsAndProfiler_commands :
    (let c := pkt 1 0 2 0
     Safety.Accepts up 0x0A01 c ∧ Safety.zeroFrom c 3 ∧ turnFor up 2 2 = .ok 2 ∧ breaksPower up (switchOrder 1 false) false = false ∧
       up.power.switching = none ∧ ∀ d ∈ switchOrder 1 false, offBusy up d = false) ∧
    (Safety.Accepts up 0x0A01 (pkt (2 ^ 29 - 1) 1 0 0) ∧ breaksPower up (switchOrder (2 ^ 29 - 1) true) true = false) ∧
    (Safety.Accepts up 0x0A02 (pkt 0x1000 96 0 0) ∧ Safety.zeroFrom (pkt 0x1000 96 0 0) 2 ∧ hostAddrOk (pkt 0x1000 96 0 0) 0x1000 = true) ∧
    (Safety.Accepts up 0x0A03 (pkt 95 0 0 0) ∧ Safety.zeroFrom (pkt 60 0 0 0) 1) ∧
    (Safety.Accepts up 0x0A04 (pkt 0x1000 0x1000 (2 ^ 24) 1) ∧ Safety.zeroFrom (pkt 0x1000 0x1000 2000 1) 4 ∧
      Safety.Accepts up 0x0A04 (pkt 0 0 0 0)) := by decide +kernel

theorem witness_AgeingAndTheLedger :
    (live up = true ∧ ageingTurn up = true ∧ up.turn.bucket = 0 ∧ up.turn.inStretch = false ∧ now up % 2 ^ 20 = 0 ∧ servicePause up = false) ∧
    (let s := { up with pins := { up.pins with replaceMsg := true }, cmd := { up.cmd with mctpPeer := true } }
     live s = true ∧ s.pins.replaceMsg = true ∧ s.cmd.mctpPeer = true) ∧
    (Safety.Accepts up 0x0A10 (pkt 0x1000 528 0 0) ∧ Safety.zeroFrom (pkt 0x1000 528 0 0) 2) ∧
    (Safety.Accepts up 0x0A11 (pkt 1 (2 ^ 20) 0 0) ∧ Safety.zeroFrom (pkt 0 16 0 0) 2) ∧
    (let s := record up { cls := 0x52 }
     Safety.Accepts s 0x0720 (pkt 0x1000 64 1 0) ∧ Safety.zeroFrom (pkt 0x1000 64 1 0) 3 ∧ (1 + 2 ^ 32 - s.ledger.tail) % 2 ^ 32 ≤ s.ledger.used ∧
       Safety.Accepts s 0x0721 (pkt 1 0 0 0) ∧ Safety.zeroFrom (pkt 1 0 0 0) 1 ∧ Safety.Accepts s 0x0720 { pkt 0 64 1 0 with source := 17 }) ∧
    (Safety.Accepts up 0x0722 (pkt 0x1000 1024 1 0) ∧ Safety.zeroFrom (pkt 0x1000 1024 1 0) 3) := by decide +kernel

/-- The base point as a public key, of the private key 1. -/
def testKey : Bytes := beBytes 48 gx384 ++ beBytes 48 gy384

def keyHash : Nat := sha384 testKey

/-- A hub in a life-cycle state whose keys are the test key, with nonce 5. -/
def lcUp (n : Nat) : State :=
  { up with
    otp := { sealBits := BitVec.ofNat 16 (2 ^ n - 1), ownerHash := keyHash, ownerWritten := true }
    fuse := { up.fuse with lcKeyHash := keyHash }
    sec := { up.sec with nonce := 5 } }

def testSig : Nat := 1362138308511466522361153706999924933599454966107597910086607881313301390679204654798639248640660900363360053616481

/-- A request of the factory for a target, with a nonce, not signed. -/
def lcBody (target nonce : Nat) : Bytes :=
  leBytes 4 0x4345564C ++ leBytes 2 1 ++ leBytes 1 0 ++ leBytes 1 target ++ zeros 32 ++ leBytes 8 nonce ++ zeros 48 ++ testKey

def lcRequest (target nonce s : Nat) : Bytes := lcBody target nonce ++ beBytes 48 testSig ++ beBytes 48 s

def lcSig : Nat := 37006541595285473121232078445665628706606649975021345010716662890792022293261031727578668763337201281542796129087098

def lcPkt (target nonce s : Nat) : Packet := with_ (pkt 0 0 0 0) (lcRequest target nonce s)

theorem witness_LifeCycle_taken :
    Safety.Accepts (lcUp 0) 0x0801 (lcPkt 1 5 lcSig) ∧ Safety.zeroFrom (lcPkt 1 5 lcSig) 0 := by decide +kernel

theorem witness_LifeCycle_request :
    lcFormed (lcRequest 1 5 lcSig) = true ∧ lcFormed (lcRequest 6 6 0) = true ∧ rd (lcRequest 1 5 lcSig) 8 32 = 0 ∧
      rd (lcRequest 1 5 lcSig) 40 8 = 5 ∧ rd (lcRequest 6 6 0) 40 8 ≠ 5 :=
  ⟨by decide +kernel, by decide +kernel, by decide +kernel, by decide +kernel, by decide +kernel⟩

/-- The factory's unit has identity 0 and nonce 5, and stands in BLANK. -/
theorem witness_LifeCycle_unit :
    (lcUp 0).fuse.unitId = 0 ∧ (lcUp 0).sec.nonce = 5 ∧ lcAllowed (Safety.begun (lcUp 0) 0x0801 (lcPkt 1 5 lcSig)) 1 0 = true ∧
      lcAllowed (Safety.begun (lcUp 0) 0x0801 (lcPkt 6 5 0)) 6 0 = false := by decide +kernel

/-- A signature that holds. -/
theorem witness_LifeCycle_signed : requestSigned (Safety.begun (lcUp 0) 0x0801 (lcPkt 1 5 lcSig)) (lcPkt 1 5 lcSig).payload 0 96 = true := by
  decide +kernel

/-- One that does not. -/
theorem witness_LifeCycle_not_signed : requestSigned (Safety.begun (lcUp 0) 0x0801 (lcPkt 1 5 0)) (lcPkt 1 5 0).payload 0 96 = false := by
  decide +kernel

def warrantPkt (s : Nat) : Packet :=
  with_ (pkt 0 0 0 0)
    (leBytes 4 0x544E5257 ++ leBytes 2 1 ++ leBytes 1 1 ++ zeros 33 ++ leBytes 8 5 ++ leBytes 6 100 ++ zeros 2 ++ leBytes 8 2 ++ leBytes 8 9 ++
      zeros 8 ++ testKey ++ beBytes 48 testSig ++ beBytes 48 s)

def warrantSig : Nat := 4580224665105307395614652123429541349869807871152182762513067533935212116209417492224645240300137369696012170115325

def holding (l : List Nat) : State :=
  { lcUp 4 with sec := { (lcUp 4).sec with warrants := l.map fun n => { signer := 1, expiry := 100, rights := 2#4, serial := n } } }

theorem witness_Warrants :
    (let c := warrantPkt warrantSig
     Safety.Accepts (holding [1, 2, 3]) 0x0802 c ∧ Safety.zeroFrom c 2 ∧ c.payload.length = 272 ∧ warrantFormed c.payload = true ∧
       rd c.payload 8 32 = (lcUp 4).fuse.unitId ∧ rd c.payload 40 8 = 5 ∧ now (lcUp 4) < (warrantOf c.payload).expiry ∧
       warrantAllowed (lcUp 4) (warrantOf c.payload) = true ∧ (warrantOf c.payload).signer = 1 ∧ (warrantOf c.payload).serial = 9) ∧
    (∃ x ∈ (holding [1, 2, 3, 9]).sec.warrants, x.serial = 9) ∧ (holding [1, 2, 3]).sec.warrants.length < 4 ∧
    (Safety.Accepts (holding [9]) 0x0802 (pkt 1 9 0 0) ∧ Safety.zeroFrom (pkt 1 9 0 0) 2 ∧ (pkt 1 9 0 0).payload = []) ∧
    (Safety.Accepts up 0x0803 (pkt 0x1000 112 0 0) ∧ Safety.zeroFrom (pkt 0x1000 112 0 0) 2) ∧
    (Safety.Accepts up 0x0804 (with_ (pkt 0x1000 448 126 0) (zeros 48)) ∧ Safety.zeroFrom (with_ (pkt 0x1000 448 126 0) (zeros 48)) 3 ∧
      bit 126 0 = false) := by decide +kernel

theorem witness_Warrants_signed : requestSigned (lcUp 4) (warrantPkt warrantSig).payload 1 80 = true := by decide +kernel

theorem witness_DebugPaths : pathOpen factory .bscan = true ∧ pathOpen up .rtpdbg = false := by decide +kernel

/-- Bank 1, the inactive one, as given. -/
def bankIs (v : FlashBank → FlashBank) : State := { up with fw := { up.fw with bank := [(1, v FlashBank.reset)] } }

def chunkPkt : Packet := { with_ (pkt 7151 5 7152 0) (zeros 4096) with p4 := 3340501009 }

theorem witness_Firmware_crc : chunkPkt.p4.toNat = crc32 chunkPkt.payload := by decide +kernel

theorem witness_Firmware_chunk :
    (Safety.Accepts up 0x0901 chunkPkt ∧ chunkPkt.p3.toNat ≤ 1 ∧ chunkPkt.p5 = 0 ∧ inactiveBank up = 1 ∧ (bankOf up 1).erasing = false ∧
      (bankOf up 1).cutShort = false ∧ mayProgram up 1 = true ∧ (bankOf up 1).imageId = 0) ∧
    (bankOf (bankIs fun k => { k with imageId := 5, chunks := 7152, held := [7151] }) 1).held.contains 7151 = true := by decide +kernel

/-- An erased chunk is blank; one that holds a zero is not. -/
theorem witness_Firmware_blank :
    (((bankOf up 1).at_ 7151).all (· = 0xFF#8)) = true ∧
      (((bankOf (bankIs fun k => { k with chunk := [(7151, [0#8])] }) 1).at_ 7151).all (· = 0xFF#8)) = false := by decide +kernel

theorem witness_Firmware_commands :
    (Safety.Accepts up 0x0902 (pkt 0x1000 928 0 0) ∧ Safety.zeroFrom (pkt 0x1000 928 0 0) 2) ∧
    (Safety.Accepts up 0x0904 (pkt 0 0 0 0) ∧ Safety.zeroFrom (pkt 0 0 0 0) 0 ∧ mayProgram up 1 = true) ∧
    (let k : FlashBank := { FlashBank.reset with imageId := 5, chunks := 1, held := [0], chunk := [(0, zeros 6 ++ [1#8, 0#8] ++ zeros 56)] }
     Safety.Accepts (bankIs fun _ => k) 0x0903 (pkt 5 0 0 0) ∧ Safety.zeroFrom (pkt 5 0 0 0) 1 ∧ k.missing = 0 ∧
       (bankIs fun _ => k).set.protoFloor ≤ k.protoMax ∧ activationBusy (Safety.begun (bankIs fun _ => k) 0x0903 (pkt 5 0 0 0)) = false) := by
  decide +kernel

def activating (old : Bool) : State :=
  { up with fw := { up.fw with
      activation := some { version := 3, oldRestart := old, flushing := false, reply := { id := 0, source := 0, tag := 7, opcode := 0x0903, noIrq := false } } } }

theorem witness_Firmware_rows :
    live (activating true) = true ∧ ((activating true).fw.activation.map Activation.oldRestart) = some true ∧
      ((activating false).fw.activation.map Activation.oldRestart) = some false ∧ (activating true).fw.halted = false ∧
      ((activating true).fw.activation.map Activation.flushing) = some false := by decide +kernel

/-! ### Witnesses: commands, registers and plans -/

/-- The PF's ring, in use or not. -/
def ring (v : Chan → Chan) : State := setChan up 0 (v Chan.reset)

theorem witness_CommandsReachTheHub :
    (Safety.FabricUp vf2 ∧ fnExists vf2 (2 : Fin 17) = true ∧ 63 < 2 ^ (chan vf2 2).sqLog2 ∧ 2 ^ (chan vf2 2).sqLog2 ≤ 64 ∧
      127 < 2 ^ (chan vf2 2).cqLog2 ∧ 2 ^ (chan vf2 2).cqLog2 ≤ 128) ∧
    ((chan up 0).enable = false ∧ (chan up 0).started = []) ∧
    ({ Chan.reset with sqLog2 := bits (16 * 2 + 17 * 64) 5 1, cqLog2 := bits (16 * 2 + 17 * 64) 10 6 } : Chan).sizesOk = true ∧
    ({ Chan.reset with sqLog2 := bits (5 * 2 + 7 * 64) 5 1, cqLog2 := bits (5 * 2 + 7 * 64) 10 6 } : Chan).sizesOk = false ∧
    (chan (ring fun c => { c with enable := true }) 0).enable = true ∧
    (let s := ring fun c => { c with enable := true, sqTail := 1 }
     live s = true ∧ mayFetch s (0 : Fin 17) = true ∧ (chan s 0).sqHead ≠ (chan s 0).sqTail ∧ (zeros 64).length = 64) ∧
    (mayFetch up (0 : Fin 17) = false ∧ (chan (ring fun c => { c with enable := true }) 0).sqHead = 0) := by decide +kernel

/-- A message over MCTP that carries an opcode and a payload length. -/
def mctp (op len n : Nat) : Bytes := leBytes 2 op ++ zeros 4 ++ leBytes 2 len ++ zeros n

theorem witness_CommandsReachTheHub_mctp :
    (64 ≤ (mctp 0x0701 0 56).length ∧ mctpServes up (rd (mctp 0x0701 0 56) 0 2) = true ∧ mctpOpen up < 8 ∧
      (mctp 0x0701 0 56).length = 64 + payloadLen (mctp 0x0701 0 56) ∧ opcodes.contains 0x0701 = true) ∧
    ((mctp 0x0701 4 56).length ≠ 64 + payloadLen (mctp 0x0701 4 56)) ∧ opcodes.contains (rd (mctp 0x0702 0 56) 0 2) = false ∧
    8 ≤ mctpOpen { up with cmd := { up.cmd with mctpFetched := List.replicate 8 { opcode := 0x0701, packet := pkt 0 0 0 0 } } } := by
  decide +kernel

theorem witness_RegisterWritesByAccessType :
    Safety.FabricUp up ∧
    (regDomain 0x50 = none ∧ regAccessOk 0x50 4 = true ∧ inTallyWindow 0x50 = false ∧ postedBlock 0x50 = none ∧
      isForeignSet (baseOf 0x50) = false ∧ isHostReg (baseOf 0x50) = false) ∧
    (∃ d, regDomain 0x1F_FFFC = some d ∧ domainOn up d = true) ∧
    (isForeignSet (baseOf 0x2_0040) = true ∧ isForeignSet (baseOf 0x2_043C) = true ∧ isForeignSet (baseOf 0x2_0440) = false ∧
      isHostReg (baseOf 0x6000) = true ∧ isHostReg (baseOf 0x620C) = true ∧ isHostReg (baseOf 0x6210) = false) ∧
    (0x3_FFFC < 0x4_0000 ∧ postedBlock (0x100_0000 + (0x3_FFFC * 8 + 31) * 4) = none ∧ postedBlock (0x100_0000 + (0x2_0000 * 8 + 0) * 4) = none) ∧
    (postedBlock 0x1_0000 = some .turn ∧ postedBlock 0x1_FFFC = some .turn ∧ postedBlock 0x120_0000 = some .turn ∧ blockBusy up .turn = false ∧
      blockBusy { up with glob := { up.glob with posted := [(.turn, 0x1_0000, 0)] } } .turn = true) ∧
    (up.glob.cfgLock = false ∧ ({ up.glob with cfgLock := true } : Global).cfgLock = true ∧ tagSum up 17 0 ≤ 4096) := by decide +kernel

theorem witness_ClearsRemoveOnlyWhatWasRead :
    (Sqc.reset.seq < 256 ∧ (∀ x ∈ Sqc.reset.stamps, x.2 < 256) ∧ (0 + 256 - 128) % 256 ≥ 128 ∧ (0 + 256 - 129) % 256 < 128) ∧
      Safety.FabricUp up ∧ 16 < 17 := by decide +kernel

/-- A plan object: an idle bucket table of LA0, one slot on it without descriptors. -/
def planBytes : Bytes :=
  leBytes 4 0x4E4C5048 ++ leBytes 2 1 ++ leBytes 2 64 ++ leBytes 4 360 ++ leBytes 4 2299098639 ++ [0#8, 4#8, 8#8, 0#8] ++ leBytes 4 1 ++
    leBytes 2 1 ++ leBytes 2 1 ++ leBytes 4 64 ++ leBytes 4 328 ++ leBytes 4 64 ++ zeros 24 ++ [1#8] ++ zeros 263 ++ [1#8] ++ zeros 31

/-- Partition 0 owns the first granule of the HBM. -/
def storeUp : State := { hbmUp with mem := { hbmUp.mem with deeds := [(0, { Deed.reset with kind := .owned })] } }

theorem witness_PlanCommands_load :
    (Safety.Accepts storeUp 0x0201 (pkt 0x1000 360 0 0) ∧ Safety.zeroFrom (pkt 0x1000 360 0 0) 3 ∧ planBytes.length = 360 ∧
      rd planBytes 8 4 = 360 ∧ storeOk storeUp 0 0 360 = true ∧ freeHandle storeUp = some 0) ∧
    ((parsePlan planBytes 0).map fun p => (p.part, p.totalLen)) = some (0, 360) := by decide +kernel

def planIn (st : PlanState) (v : Plan → Plan) : State :=
  setPlan up 63 (v { planFor { type := 1, index := 0 } false [syncDesc] with state := st })

theorem witness_PlanCommands :
    (let s := planIn .loaded id
     let c := { pkt 63 0x1000 1040 0xFFFF with p4 := 0 }
     (planOf s 63).map Plan.state = some .loaded ∧ Safety.Accepts s 0x0202 c ∧ Safety.zeroFrom c 4) ∧
    (let s := planIn .admitted id
     let c := pkt 63 (2 ^ 24) 0xFFFF 0
     Safety.Accepts s 0x0203 c ∧ Safety.zeroFrom c 3 ∧ (planOf s 63).map Plan.pendAct = some none ∧ turnFor s (2 ^ 24) 1 = .ok (2 ^ 24)) ∧
    (let s := planIn .active id
     let c := pkt 63 2 0 0
     Safety.Accepts s 0x0204 c ∧ Safety.zeroFrom c 2 ∧ (planOf s 63).map Plan.pendRet = some none ∧ turnFor s 2 1 = .ok 2) ∧
    (Safety.Accepts (planIn .loaded id) 0x0204 (pkt 63 0 0 0) ∧ Safety.Accepts up 0x0205 (pkt 0x1000 64 0xFFFF 0) ∧
      Safety.zeroFrom (pkt 0x1000 64 0xFFFF 0) 3) := by decide +kernel
/-! ### Worked examples of the spec -/

/-- R223's example (06_memory). -/
theorem test_pseudo_channel : pcIndex 0x12345 = 0x22 ∧ pcIndex 0x12345 / 32 = 1 := by decide +kernel

/-- R284's example (08_translation): three words of a deed entry. -/
theorem test_deed_words :
    Deed.ofWord 0x31 = some { Deed.reset with kind := .owned, owner := 3 } ∧ Deed.ofWord 0x6223 = none ∧
      Deed.ofWord 0x01000C32 = some { kind := .shared, owner := 3, members := 0xC#16, memberWrite := true } := by decide +kernel

/-- Tables in scratch for R274's example. -/
def walking : State :=
  let entry := fun (t : State) (a v : Nat) => memPut t (scratchBase + a) (leBytes 8 v)
  let s := entry (entry (entry (entry up 0 (scratchBase + 0x1001)) (0x1000 + 8 * 36) (scratchBase + 0x2001)) (0x2000 + 8 * 209)
    (scratchBase + 0x3001)) (0x3000 + 8 * 179) 0x0000_4212_3440_000F
  setCtx s 40 { bound := true, part := 0, root := scratchBase, epoch := 0 }

/-- R274's example (08_translation): context 40 of hub 0. -/
theorem test_walk :
    (match translatePure walking 40 .read 0x0000_1234_5678_9ABC with | .ok pa => some pa | .error _ => none) = some 0x4212_3458_9ABC := by
  decide +kernel

/-- WIN5 and WIN9 of R290's example. -/
def twoWindows : List (Nat × Window) :=
  let w : Window := { Window.reset with valid := true, prio := 1, read := true }
  [(5, { w with sizeLog2 := 30, outBase := 0x20_0000_0000, part := 3 }), (9, { w with sizeLog2 := 28, inBase := 0x2000_0000, outBase := 0x10_0000_0000 })]

/-- The address of R274's example, and the granule of the far hub (08_translation). -/
theorem test_far_address :
    hubOf 0x4212_3458_9ABC = 33 ∧ (List.range 4).map (coord 33) = [1, 1, 0, 0] ∧ localOf 0x4212_3458_9ABC = 0x12_3458_9ABC ∧
      localOf 0x4212_3458_9ABC / granule = 37282 := by decide +kernel

/-- R290's example (08_translation): of two windows of one priority the lower index applies. -/
theorem test_window_choice :
    let s := { up with set := { up.set with window := twoWindows } }
    (windowFor s 0 0x2000_0040).map (fun w => (w.part, w.outBase + (0x2000_0040 - w.inBase))) = some (3, 0x20_2000_0040) := by decide +kernel

/-- R499's example (16_registers): the alias at 0x0160_0314 sets bit 5 of EVT_EN1. -/
theorem test_bit_alias :
    (match exec (.bitAliasWrite 0x160_0314 1) vf1 with | .next t => some (evtRegs t 1).en | _ => none) = some 0x20#13 := by decide +kernel

/-- R501's example (16_registers). -/
theorem test_sequence_clear :
    let r := ({ seq := 0x2E, stamps := [(1, 0x2D), (4, 0x2E)], value := 0, clr := 0 } : Sqc).record 4
    r.seq = 0x2F ∧ (r.clear 0x2E).events = 0x10 ∧ (r.clear 0x2E).seq = 0x2F := by decide +kernel

/-- R467's example (14_commands): the value of class 7 and the payload of its STAGE_SET. -/
theorem test_share_value :
    shareOfWord 0x0000_0409_0808_0225 =
      { valid := true, owner := 2, prio := 1, wayQuota := 2, reqSlots := 8, bulkSlots := 8, latBin := 9, missMax := 4 } ∧
    (parseItems 3 [0x01, 0x02, 0x07, 0, 8, 0, 0, 0, 0x25, 0x02, 0x08, 0x08, 0x09, 0x04, 0, 0,
        0x02, 0x02, 0, 0, 8, 0, 0, 0, 0x40, 0, 0, 0, 0, 0, 0, 0]).map (List.map fun i => (i.item, i.index, i.num)) =
      some [(0x0201, 7, 0x0000_0409_0808_0225), (0x0202, 0, 64)] := by decide +kernel

/-- R79's example (02_turn): a 4 x 4 torus with the default buckets. -/
theorem test_notice_time :
    let s := noticeTime { up with leat := { up.leat with exm1 := 3, eym1 := 3 } }
    s.turn.f = 14 ∧ s.turn.u = 4 := by decide +kernel

/-- R350's example (11_leat_links): a port of eight links of four lanes, and after the loss of one, in bytes per bucket of 0.8 us. -/
theorem test_port_capacity :
    let s := fun (n : Nat) => { up with plans := { up.plans with linkRec := (upto 16 n).map fun k => (k, 4) } }
    let perBucket := fun (x : Nat × Nat) => (x.1 * 4 / 5, x.2 * 4 / 5)
    perBucket (capOf (s 8) { type := 3, index := 2 }) = (627200, 548800) ∧
      perBucket (capOf (s 7) { type := 3, index := 2 }) = (548800, 470400) := by decide +kernel

/-- R393's example (12_open_sites): the grants of Table 12-6. -/
theorem test_grants :
    let ask := fun (n : Nat) (r debit : Nat) => (n, { Site.reset with state := .inService, req := some r, debit := debit })
    let s := { up with
      set := { up.set with purse := 18000, siteReserve := (List.range 12).map fun n => (n, if n < 4 then 2000 else if n < 8 then 1000 else 1500) }
      sites := { site := [ask 0 2500 0, ask 1 1800 150, ask 2 2500 0, ask 3 2000 0, ask 4 2500 0, ask 5 900 0, ask 6 1000 0, ask 7 2500 0,
        ask 8 600 0, ask 9 600 0, ask 10 600 0, ask 11 600 0] } }
    (grantsOf s).map Claim.grant = [2500, 1650, 2500, 2000, 2500, 900, 1000, 2500, 600, 600, 600, 600] := by decide +kernel

/-- Table 3-7 (03_arrays_and_mint): four terms at anchor -8, and the entry converted to BF16. -/
theorem test_pass_terms :
    let e := (List.zipWith Val.mul ([0x3D, 0xC6, 0x01, 0x7E].map (decodeElem 1)) ([0x2A, 0x07, 0x38, 0xA8].map (decodeElem 1))).foldl (addTerm (-8))
      MEntry.reset
    (e.value, e.flags, e.residue) = (-28555, 2, 2) ∧ mintBytes e.value = [0x75, 0x90] ++ List.replicate 30 0xFF#8 ∧
      convertMint fmtBF16 e.value (-8) e.flags = (0xC2DF, false) := by decide +kernel

/-- Table 4-20 (04_array_programs): the blocks of one MXFP4 entry at anchor -4. -/
theorem test_mx_blocks :
    let blk := fun (v : Nat) => List.replicate 32 (decodeElem 0x15 v)
    let e := (blockTerms [0x7C, 0x7F, 0x7E] [0x85, 0x70, 0x7F] (blk 3 ++ blk 9 ++ blk 6) (blk 4 ++ blk 7 ++ blk 0xA)).foldl (addTerm (-4)) MEntry.reset
    (e.value, e.flags, e.residue) = (11263, 2, 1) ∧ convertMint fmtBF16 e.value (-4) e.flags = (0x4430, false) := by decide +kernel

/-- Table 5-12 (05_mint_collectives): both trees of adds leave the same cell. -/
theorem test_all_reduce :
    let c := fun (v a : Int) => { Cell.fresh a with value := v }
    let w := fun (x : Cell) => ({ value := x.value, flags := x.flags, anchor := x.aCur, hi := x.aHi } : MintWord)
    let c0 := c 1000003 (-8)
    let c1 := c (-250001) (-6)
    let c2 := c 77 (-8)
    let c3 := c 5 (-10)
    let ring := c3.add (w (c2.add (w (c1.add (w c0)))))
    let torus := (c0.add (w c1)).add (w (c2.add (w c3)))
    ring = { value := 309, aCur := -10, aHi := -6, flags := 0, state := 1, cause := 0 } ∧ torus = ring := by decide +kernel

/-- R518's example (17_bring_up): array 95 is fused out and array 100 fails. -/
theorem test_array_map :
    let s := { up with boot := { up.boot with excluded := [95, 100] } }
    ((arrayMap s).getD 85 (0, none)).2 = some 96 ∧ ((arrayMap s).getD 89 (0, none)).2 = some 101 ∧
      ((arrayMap s).getD 80 (0, none)).2 = some 90 ∧ ((arrayMap s).getD 95 (0, none)).2 = some 107 := by decide +kernel

/-- R542's example (18_reliability): the spare for array 225. -/
theorem test_spare_choice :
    let s := { up with arr := { up.arr with phys := [40, 135, 170, 240, 261].map fun n => (n, { PhysArr.reset with state := .spare }) } }
    chooseSpare (designateNow s) 225 = some 240 := by decide +kernel

/-- Table 15-2 (15_host_endpoint): identities, class code, header type and capabilities pointer of the PF and of a VF. -/
theorem test_config_header :
    let h := headerWord up (fun _ => 0)
    (h 0 0, h 0 8 / 256, h 0 12, h 0 0x2C % 65536, h 0 0x34, h 0 0x3C / 256) = (0x0160_1F3B, 0x12_0000, 0, 0x1F3B, 0x40, 0) ∧
      (h 1 0, h 1 8 / 256, h 1 0x10, h 1 0x34) = (0xFFFF_FFFF, 0x12_0000, 0, 0x70) := by decide +kernel
end Sys2Proof.Tests
end

section
/-! PROOFS. Command packets that wait or are refused (O8), and the open sites: sideband and purse (O50), packets of chiplets (O51), calls of
plan slots (O52). -/

namespace Sys2Proof.Machine

open Sys2Proof.Safety

/-! ### Command packets -/

/-- A row that delivers a command packet runs a work of its own as the command of its opcode (Table 14-5). -/
theorem exec_packetRow {i : Instr} {op : Nat} {c : Packet} (h : packetRow i = some (op, c)) (s : State) :
    ∃ body, exec i s = command op (lensOf op) c s body := by
  unfold packetRow at h
  split at h <;> cases h
  all_goals exact ⟨_, rfl⟩

/-- Settles O8, by what `command` does with a packet that waits, is the ninth over MCTP, or is refused by its header. -/
theorem packetRowsWaitOrRefuse : Obligations.PacketRowsWaitOrRefuse := by
  intro i s op c h hl
  obtain ⟨body, row⟩ := exec_packetRow h s
  refine ⟨fun waits => ?_, fun starts ninth => ?_, fun st d starts first refused => ?_⟩
  · rw [row, command_waits hl waits]
  · rw [Ends, Gives, row, command_ninth ⟨hl, starts⟩ ninth]
  · rw [Ends, Gives, row, command_refuses ⟨hl, starts⟩ first refused]

/-! ### Rows behind the gate -/

/-- A row that acts on a hub that answers gives what its effect makes of the fresh state. -/
theorem gives_act {i : Instr} {s t : State} {f : State → State} (x : exec i s = act s f) (hl : live s = true)
    (h : f (fresh s) = t) : Gives i s t := by
  rw [Gives, x, act_live hl, h]

theorem cohRow_live {s : State} {f : State → State} (h : live s = true) :
    cohRow s f = .next (if domainOn s 28 = true then serveArrivals (f (fresh s)) else fresh s) := act_live h

/-! ### What the sites are after shared updates -/

@[simp] theorem siteOf_fresh (s : State) (n : Nat) : siteOf (fresh s) n = siteOf s n := rfl

@[simp] theorem siteUp_fresh (s : State) (n : Nat) : siteUp (fresh s) n = siteUp s n := rfl

@[simp] theorem siteOf_begun (s : State) (op : Nat) (c : Packet) (n : Nat) : siteOf (begun s op c) n = siteOf s n := by
  rw [siteOf, begun_sites, siteOf]

@[simp] theorem agentOf_begun (s : State) (op : Nat) (c : Packet) (n : Nat) : agentOf (begun s op c) n = agentOf s n := by
  rw [agentOf, begun_coh, agentOf]

@[simp] theorem agentEnabled_begun (s : State) (op : Nat) (c : Packet) (n : Nat) :
    agentEnabled (begun s op c) n = agentEnabled s n := by
  rw [agentEnabled, begun_set, siteOf_begun, agentEnabled]

@[simp] theorem domainOn_begun (s : State) (op : Nat) (c : Packet) (d : Nat) : domainOn (begun s op c) d = domainOn s d := by
  rw [domainOn, begun_power, domainOn]

@[simp] theorem claimed_begun (s : State) (op : Nat) (c : Packet) (r : Res) : claimed (begun s op c) r = claimed s r := by
  rw [begun_rest]
  rfl

@[simp] theorem purseRecord_begun (s : State) (op : Nat) (c : Packet) : purseRecord (begun s op c) = purseRecord s := by
  funext n
  rw [purseRecord, siteOf_begun, purseRecord]

@[simp] theorem siteOf_record (s : State) (r : Rec) (n : Nat) : siteOf (record s r) n = siteOf s n := by
  rw [siteOf, (record_noted s r).sites, siteOf]

@[simp] theorem siteOf_tariffChanged (s : State) (n : Nat) : siteOf (tariffChanged s) n = siteOf s n := rfl

/-! ### Sideband messages -/

/-- A message without a reserved bit, of a chiplet that has been detected, is heard. -/
theorem sidebandSays_heard {s : State} {n : Nat} {f : State → State} (h : sidebandUp s n = true) :
    sidebandSays s n false f = f s := by
  simp [sidebandSays, h]

/-- One with a reserved bit set is refused under class 0x78 (R15, log entry 53). -/
theorem sidebandSays_reserved {s : State} {n : Nat} {f : State → State} (h : sidebandUp s n = true) :
    sidebandSays s n true f = record s (siteRec s n 0x78) := by
  simp [sidebandSays, h]

theorem purseReq_kept {s : State} {n : Fin 12} {power turn : Nat} (hl : live s = true) (up : sidebandUp s n = true)
    (h : turn < 2 ^ 32) :
    Gives (.purseReq n power ⟨turn, false⟩) s (setSite (fresh s) n { siteOf s n with req := some (power % 65536) }) :=
  gives_act (exec_purseReq ..) hl ((sidebandSays_heard (s := fresh s) up).trans (if_pos h))

theorem purseReport_taken {s : State} {n : Fin 12} {power : Nat} (hl : live s = true) (up : sidebandUp s n = true)
    (first : (siteOf s n).reported = false) (early : s.turn.bucket < 16) :
    Gives (.purseReport n power ⟨(now s - 1) % 2 ^ 32, false⟩) s (takeReport (fresh s) n (power % 65536) false) :=
  gives_act (exec_purseReport ..) hl
    ((sidebandSays_heard (s := fresh s) up).trans (if_pos ⟨(Bool.not_eq_true' _).mpr first, rfl, early⟩))

theorem purseReq_reserved {s : State} {n : Fin 12} {power turn : Nat} (hl : live s = true) (up : sidebandUp s n = true) :
    Gives (.purseReq n power ⟨turn, true⟩) s (record (fresh s) (siteRec s n 0x78)) :=
  gives_act (exec_purseReq ..) hl (sidebandSays_reserved (s := fresh s) up)

theorem purseReport_reserved {s : State} {n : Fin 12} {power turn : Nat} (hl : live s = true) (up : sidebandUp s n = true) :
    Gives (.purseReport n power ⟨turn, true⟩) s (record (fresh s) (siteRec s n 0x78)) :=
  gives_act (exec_purseReport ..) hl (sidebandSays_reserved (s := fresh s) up)

theorem flushDone_reserved {s : State} {n : Fin 12} (hl : live s = true) (up : sidebandUp s n = true) :
    Gives (.flushDone ⟨⟨n.val, Nat.lt_of_lt_of_le n.isLt (by decide)⟩, true⟩) s
      (if domainOn s 28 = true then serveArrivals (record (fresh s) (siteRec s n 0x78)) else fresh s) := by
  rw [Gives, exec_flushDone, execFlushDone, cohRow_live hl, if_pos n.isLt, sidebandSays_reserved (s := fresh s) up]
  rfl

theorem unknownSidebandMessage_recorded {s : State} {n : Fin 12} {msg : Byte} (hl : live s = true) (up : sidebandUp s n = true) :
    Gives (.unknownSidebandMessage n msg) s (record (fresh s) { siteRec s n 0x78 with d0 := msg.toNat }) :=
  gives_act (exec_unknownSidebandMessage ..) hl (if_pos up)

/-! ### Modules -/

/-- A module that comes back narrower, or not at all, costs the site capacity, and the last one the site (R377). -/
theorem moduleLossOfLock_narrows {s : State} {n : Fin 12} {m : Fin 16} {relock new : ModuleState} (hl : live s = true)
    (up : siteUp s n = true) (was : (siteOf s n).modules.getD m .excluded ≠ .excluded)
    (hnew : (if (siteOf s n).modules.getD m .excluded = .x32 ∧ relock = .x64 then .x32 else relock) = new)
    (change : new ≠ (siteOf s n).modules.getD m .excluded) :
    let left := (siteOf s n).modules.set m new
    let u := record (tariffChanged (setSite (fresh s) n { siteOf s n with modules := left })) (siteRec s n 0x72)
    Gives (.moduleLossOfLock n m relock) s (if left.all (· = .excluded) = true then siteDown u n false else u) := by
  subst hnew
  have goes : ¬ ((!siteUp s n) = true ∨ (siteOf s n).modules.getD m .excluded = .excluded) := by simp only [up, was]; decide
  refine gives_act (exec_moduleLossOfLock ..) hl ((if_neg goes).trans ((if_neg change).trans ?_))
  simp only [siteOf_record, siteOf_tariffChanged, setSite_siteOf_same]
  rfl

/-! ### Commands of the sites -/

/-- The table goes to the site's partition and to partition 0 (R411). -/
theorem siteCapReadBody_answers {c : Packet} {s : State} {r : ReplyTo} (h0 : zeroFrom c 3) (hn : c.p0.toNat < 12)
    (hp : partOf c = 0 ∨ partOf c = s.set.sitePartOf c.p0.toNat) :
    let d := (siteOf s c.p0.toNat).table.take (bufLen c c.p2.toNat)
    siteCapReadBody c s r = (s, output d.length c.p1.toNat d) := by
  have may : ¬ (partOf c ≠ 0 ∧ partOf c ≠ s.set.sitePartOf c.p0.toNat) := by tauto
  exact (reservedFrom_zero h0).trans ((if_neg (by omega)).trans (if_neg may))

section
variable {c : Packet} {env : SiteEnv} {s : State} {r : ReplyTo} (h0 : zeroFrom c 1) (hp : partOf c = 0) (hn : c.p0.toNat < 12)
include h0 hp hn

/-- The reset of a site that no plan claims, that is powered and that no reset has hold of (R410). -/
theorem siteResetBody_goes (free : claimed s (siteRes c.p0.toNat) = false) (idle : (siteOf s c.p0.toNat).resetting = none)
    (on : domainOn s (domOfSite c.p0.toNat) = true) :
    siteResetBody c env s r =
      if agentEnabled s c.p0.toNat && !(agentOf s c.p0.toNat).fenced then
        (askFlush (setSite s c.p0.toNat { siteOf s c.p0.toNat with resetting := some (r, env) }) c.p0.toNat, .later)
      else (resetSite s c.p0.toNat r env, .later) := by
  have ready : ¬ (claimed s (siteRes c.p0.toNat) = true ∨ (siteOf s c.p0.toNat).resetting.isSome = true ∨
      (!domainOn s (domOfSite c.p0.toNat)) = true) := by simp [free, idle, on]
  exact (if_neg (not_not.mpr hp)).trans ((reservedFrom_zero h0).trans ((if_neg (by omega)).trans (if_neg ready)))

/-- A breach ends with the runs that led to it (R396). -/
theorem siteBreachClearBody_clears :
    siteBreachClearBody c s r =
      (setSite s c.p0.toNat { siteOf s c.p0.toNat with breach := false, overRun := 0, missing := 0 }, okay c.p0.toNat) :=
  (if_neg (not_not.mpr hp)).trans ((reservedFrom_zero h0).trans (if_neg (by omega)))

end

/-- The records are as many as the buffer holds (R411). -/
theorem purseReadBody_answers {c : Packet} {s : State} {r : ReplyTo} (h0 : zeroFrom c 2) (hp : partOf c = 0)
    (whole : c.p1.toNat % 16 = 0) :
    let k := min 12 (bufLen c c.p1.toNat / 16)
    purseReadBody c s r = (s, output k c.p0.toNat ((List.range k).flatMap (purseRecord s))) :=
  (if_neg (not_not.mpr hp)).trans ((reservedFrom_zero h0).trans (if_neg (not_not.mpr whole)))

theorem siteReset_ends {s : State} {c : Packet} {env : SiteEnv} (ha : Accepts s 0x0602 c) (h0 : zeroFrom c 1) (hp : partOf c = 0)
    (hn : c.p0.toNat < 12) (free : claimed s (siteRes c.p0.toNat) = false) (idle : (siteOf s c.p0.toNat).resetting = none)
    (on : domainOn s (domOfSite c.p0.toNat) = true) :
    (agentEnabled s c.p0.toNat = true → (agentOf s c.p0.toNat).fenced = false →
      Ends (.siteReset c env) s 0x0602 c
        (askFlush (setSite (begun s 0x0602 c) c.p0.toNat
          { siteOf s c.p0.toNat with resetting := some (replyTo s 0x0602 c, env) }) c.p0.toNat) .later) ∧
    (agentEnabled s c.p0.toNat = false ∨ (agentOf s c.p0.toNat).fenced = true →
      Ends (.siteReset c env) s 0x0602 c (resetSite (begun s 0x0602 c) c.p0.toNat (replyTo s 0x0602 c) env) .later) := by
  have goes := siteResetBody_goes (s := begun s 0x0602 c) (r := replyTo s 0x0602 c) (env := env) h0 hp hn
    (by rwa [claimed_begun]) (by rwa [siteOf_begun]) (by rwa [domainOn_begun])
  rw [agentEnabled_begun, agentOf_begun, siteOf_begun] at goes
  refine ⟨fun enabled joined => packet_ends rfl ha (goes.trans (if_pos ?_)),
    fun quiet => packet_ends rfl ha (goes.trans (if_neg ?_))⟩
  · simp [enabled, joined]
  · rcases quiet with h | h <;> simp [h]

/-- Settles O50, row by row: the sideband's messages, a module's loss of lock, and the four commands of the sites. -/
theorem sidebandAndPurse : Obligations.SidebandAndPurse := by
  refine ⟨fun s n hl => ⟨fun _ _ up h => purseReq_kept hl up h, fun _ up first early => purseReport_taken hl up first early,
    fun _ _ up => ⟨purseReq_reserved hl up, purseReport_reserved hl up, flushDone_reserved hl up⟩,
    fun _ up => unknownSidebandMessage_recorded hl up, fun _ _ up was change => moduleLossOfLock_narrows hl up was rfl change⟩,
    fun s c => ⟨fun ha h0 hn hp => packet_ends rfl ha ?_, fun env ha h0 hp hn free idle on => siteReset_ends ha h0 hp hn free idle on,
      fun ha h0 hp whole => packet_ends rfl ha ?_, fun ha h0 hp hn => packet_ends rfl ha ?_⟩⟩
  · exact (siteCapReadBody_answers h0 hn (by rwa [begun_set])).trans (by rw [siteOf_begun])
  · exact (purseReadBody_answers h0 hp whole).trans (by rw [purseRecord_begun])
  · exact (siteBreachClearBody_clears h0 hp hn).trans (by rw [siteOf_begun])

/-! ### Requests of chiplets -/

/-- What a chiplet can ask for in CXL mode: reads, writes, and the atomic operations of CXL.cache (R382). -/
def cxlCarries (op : Nat) (a : Option SiteAtom) : Bool :=
  match a with | some (.iadd _ _ _) => true | some (.cas _ _ _) => true | _ => decide (op = 1 ∨ op = 2)

/-- A request is of good form: that of R383, and in CXL mode one that CXL carries. -/
def requestFormed (s : State) (op : Nat) (p : SitePkt) (a : Option SiteAtom) : Bool :=
  pktFormOk op p && (!(siteOf s p.site).cxl || cxlCarries op a)

/-- The two faults of form that `chipletSends` looks for. -/
theorem requestFormed_eq_false_iff {s : State} {op : Nat} {p : SitePkt} {a : Option SiteAtom} :
    requestFormed s op p a = false ↔
      (!pktFormOk op p) = true ∨ ((siteOf s p.site).cxl = true ∧ (!cxlCarries op a) = true) := by
  cases h : pktFormOk op p <;> simp [requestFormed, h]

section
variable {s : State} {op : Nat} {p : SitePkt} {a : Option SiteAtom} (up : siteUp s p.site = true)
include up

theorem chipletSends_malformed (h : requestFormed s op p a = false) : chipletSends s op p a = refuseForm s p :=
  (if_neg (by simp [up])).trans (if_pos (requestFormed_eq_false_iff.mp h))

variable (formed : requestFormed s op p a = true)
include formed

/-- A request of good form goes on to the checks of its agent, its epoch and its address (R258, R384, R529). -/
theorem chipletSends_formed : chipletSends s op p a =
    if (agentOf s p.site).fenced = true then siteErr s p.site p.tag
    else if p.epoch % 256 ≠ (agentOf s p.site).epoch then siteErr (record s (cohRec s 0x3B p.site (p.addr / 128))) p.site p.tag
    else if hubOf p.addr ≠ s.leat.hub then siteAbroad s op p
    else (siteHeld s op p).elim (serveChiplet s op p a) fun w => enqueue s (.site op p a) w.1 (op = 1) w.2 := by
  have form := mt requestFormed_eq_false_iff.mpr (ne_false_of_eq_true formed)
  refine ((if_neg (by simp [up])).trans (if_neg form)).trans ?_
  rcases siteHeld s op p with _ | ⟨l, tick⟩ <;> rfl

theorem chipletSends_fenced (h : (agentOf s p.site).fenced = true) : chipletSends s op p a = siteErr s p.site p.tag := by
  rw [chipletSends_formed up formed, if_pos h]

variable (joined : (agentOf s p.site).fenced = false)
include joined

theorem chipletSends_stale (h : p.epoch % 256 ≠ (agentOf s p.site).epoch) :
    chipletSends s op p a = siteErr (record s (cohRec s 0x3B p.site (p.addr / 128))) p.site p.tag := by
  simp [chipletSends_formed up formed, joined, h]

variable (current : p.epoch % 256 = (agentOf s p.site).epoch)
include current

theorem chipletSends_abroad (h : hubOf p.addr ≠ s.leat.hub) : chipletSends s op p a = siteAbroad s op p := by
  simp [chipletSends_formed up formed, joined, current, h]

variable (here : hubOf p.addr = s.leat.hub)
include here

theorem chipletSends_served (free : (siteHeld s op p).isNone = true) : chipletSends s op p a = serveChiplet s op p a := by
  simp [chipletSends_formed up formed, joined, current, here, Option.isNone_iff_eq_none.mp free]

theorem chipletSends_waits (held : (siteHeld s op p).isSome = true) :
    let w := (siteHeld s op p).getD ([], false)
    chipletSends s op p a = enqueue s (.site op p a) w.1 (op = 1) w.2 := by
  obtain ⟨w, found⟩ := Option.isSome_iff_exists.mp held
  simp [chipletSends_formed up formed, joined, current, here, found]

end

/-- The four rows of a chiplet's requests all go through `chipletSends`. -/
theorem chipletRows_give {s : State} {p : SitePkt} (hl : live s = true) {ok : Nat → Option SiteAtom → Bool}
    {t : Nat → Option SiteAtom → State} (h : ∀ op a, ok op a = true → chipletSends (fresh s) op p a = t op a) :
    (ok 1 none = true → Gives (.rd p) s (t 1 none)) ∧ (ok 2 none = true → Gives (.wr p) s (t 2 none)) ∧
      (ok 0x0E none = true → Gives (.tally p) s (t 0x0E none)) ∧
      ∀ a, ok 6 (some a) = true → Gives (.atomic p a) s (t 6 (some a)) :=
  ⟨fun k => gives_act (exec_rd ..) hl (h _ _ k), fun k => gives_act (exec_wr ..) hl (h _ _ k),
    fun k => gives_act (exec_tally ..) hl (h _ _ k), fun _ k => gives_act (exec_atomic ..) hl (h _ _ k)⟩

/-! ### Messages and aperture replies of chiplets -/

theorem chipletSays_heard {s : State} {p : SitePkt} {f : State → State} (up : siteUp s p.site = true) (good : p.malformed = false)
    (short : p.len ≤ 32) : chipletSays s p f = f s := by
  simp [chipletSays, up, good, short]

theorem chipletSays_malformed {s : State} {p : SitePkt} {f : State → State} (up : siteUp s p.site = true)
    (h : p.malformed = true ∨ 32 < p.len) : chipletSays s p f = refuseForm s p := by
  simp [chipletSays, up, h]

theorem apertureFails_asked {s : State} {n tag : Nat} (h : ∃ e ∈ (siteOf s n).aperture, e.tag = tag) :
    apertureFails s n tag = apertureReply (record s (siteRec s n 0x70)) n tag .errorCompletion :=
  if_pos (by simpa using h)

/-- A reply reaches the asker of its request (R386). -/
theorem apertureReply_reaches {s : State} {n tag : Nat} {e : ApertureReq} (o : Output)
    (found : (siteOf s n).aperture.find? (fun q => q.tag = tag) = some e) :
    let t := setSite s n { siteOf s n with aperture := (siteOf s n).aperture.filter fun q => q ≠ e }
    (∀ src k part share, e.asker = .far src k part share → apertureReply s n tag o = answerFar t src k part share e.addr (some o)) ∧
    (∀ m op k, e.asker = .chiplet m op k → apertureReply s n tag o = finishSite [] (answerChiplet t m op k 8 (some o)) m) ∧
    (∀ m, e.asker = .call m → apertureReply s n tag o = statusAcked t m) ∧
    (e.asker = .row → waitingFor t (fun q => q.fn = 32 + n && q.tag = tag) = none → apertureReply s n tag o = emit t o) := by
  refine ⟨fun _ _ _ _ asker => ?_, fun _ _ _ asker => ?_, fun _ asker => ?_, fun asker unawaited => ?_⟩
  · simp only [apertureReply, found, asker]
  · simp only [apertureReply, found, asker]
  · simp only [apertureReply, found, asker]
  · simp only [apertureReply, found, asker, unawaited]

/-- Settles O51, by the leaves of `chipletSends` for the four request rows and of `apertureReply` for the replies. -/
theorem chipletPackets : Obligations.ChipletPackets := by
  refine ⟨fun s p hl up => ⟨?_, fun fenced => ?_, fun joined old => ?_,
      fun joined current => ⟨fun away => ?_, fun here => ⟨?_, ?_⟩⟩⟩,
    fun s p hl up => ⟨fun good short => ⟨?_, ?_, fun asked => ?_⟩, fun bad => ⟨?_, ?_, ?_⟩⟩,
    fun s n tag e o found => apertureReply_reaches o found,
    fun s n tag hl => ⟨fun asked => ?_, fun up cxl => ?_⟩⟩
  · exact chipletRows_give hl fun _ _ bad => chipletSends_malformed (s := fresh s) up ((Bool.not_eq_true' _).mp bad)
  · exact chipletRows_give hl fun _ _ formed => chipletSends_fenced (s := fresh s) up formed fenced
  · exact chipletRows_give hl fun _ _ formed => chipletSends_stale (s := fresh s) up formed joined old
  · exact chipletRows_give hl fun _ _ formed => chipletSends_abroad (s := fresh s) up formed joined current away
  · exact chipletRows_give hl fun _ _ h => by
      obtain ⟨formed, free⟩ := (Bool.and_eq_true _ _).mp h
      exact chipletSends_served (s := fresh s) up formed joined current here free
  · exact chipletRows_give hl fun _ _ h => by
      obtain ⟨formed, held⟩ := (Bool.and_eq_true _ _).mp h
      exact chipletSends_waits (s := fresh s) up formed joined current here held
  · exact gives_act (exec_rdData ..) hl (chipletSays_heard (s := fresh s) up good short)
  · exact gives_act (exec_wrAck ..) hl (chipletSays_heard (s := fresh s) up good short)
  · exact gives_act (exec_err ..) hl
      ((chipletSays_heard (s := fresh s) up good short).trans (apertureFails_asked (s := fresh s) asked))
  · exact gives_act (exec_rdData ..) hl (chipletSays_malformed (s := fresh s) up bad)
  · exact gives_act (exec_wrAck ..) hl (chipletSays_malformed (s := fresh s) up bad)
  · exact gives_act (exec_err ..) hl (chipletSays_malformed (s := fresh s) up bad)
  · exact gives_act (exec_apertureTimeout ..) hl (apertureFails_asked (s := fresh s) asked)
  · exact gives_act (exec_cxlIoRequest ..) hl (if_pos ((Bool.and_eq_true _ _).mpr ⟨up, cxl⟩))

/-! ### Calls -/

/-- The run of a site's next call: job `j` is at step `k` of descriptor `d`, for partition `part`. -/
def nextCall (t : State) (n : Nat) (j : Job) (part : Nat) (d : Desc) (k : Nat) : SiteRun :=
  .start j (freeTag ((siteOf t n).parked.map SiteRun.tag) 64) part d k

/-- The lines of its ranges' table entries that agents own. -/
def nextCallHeld (t : State) (n ctx : Nat) (r : SiteRun) : List Nat :=
  match r.desc.b with
  | .site b => ((callRanges r b).1.toList ++ (callRanges r b).2.toList).flatMap (callHeld t n ctx [])
  | _ => []

/-- What becomes of a call as its gate has answered (R147, R322). -/
def callGated (n : Nat) (sl : Slot) (r : SiteRun) : State × Gate → State
  | (t, .wait) => t
  | (t, .skip) => endAtOnce (setMoved t (.site n) r.part) n { r with stale := true }
  | (t, .go) => startCall t n sl r

/-- The next call of a site waits for the lines of its table entries, and otherwise goes to its gate. -/
theorem tryCall_next {t : State} {n i k : Nat} {j : Job} {p : Plan} {sl : Slot} {d : Desc} (idle : (siteOf t n).run = none)
    (on : domainOn t 28 = true) (job : currentJob t (.site n) = some j) (plan : jobPlan t j = some (p, sl, k))
    (next : nextDesc t j = some (i, d)) (bound : clearing t sl.ctx = false) :
    let r := nextCall t n j p.part d k
    let held := nextCallHeld t n sl.ctx r
    tryCall t n [] = if held ≠ [] then waitCall t n held true false
      else callGated n sl r (gate (wakeJob t (.site n) j) (.site n) d.c p.part d.b.hub) := by
  intro r held
  have same : tryCall t n [] = if !held.isEmpty then waitCall t n held true false
      else callGated n sl r (gate (wakeJob t (.site n) j) (.site n) d.c p.part d.b.hub) := by
    simp only [tryCall, idle, on, job, plan, next, bound]
    rcases gate (wakeJob t (.site n) j) (.site n) d.c p.part d.b.hub with ⟨t1, _ | _ | _⟩ <;> rfl
  simpa using same

theorem slotDone_ends {s : State} {p : SitePkt} {r : SiteRun} (hl : live s = true) (up : siteUp s p.site = true)
    (good : p.malformed = false) (short : p.len ≤ 32) (runs : (siteOf s p.site).run = some r) (mine : r.tag = p.addr)
    (unfinished : r.done = none) :
    Gives (.slotDone p) s (arrangeSite (finishSite [] (setSite (fresh s) p.site
      { siteOf s p.site with run := some { r with done := some p.sub.toNat } }) p.site) p.site) := by
  refine gives_act (exec_slotDone ..) hl ((chipletSays_heard (s := fresh s) up good short).trans ?_)
  simp only [siteOf_fresh, runs, mine, unfinished]
  rfl

theorem slotSuspended_parks {s : State} {p : SitePkt} {r : SiteRun} (hl : live s = true) (up : siteUp s p.site = true)
    (good : p.malformed = false) (short : p.len ≤ 32) (runs : (siteOf s p.site).run = some r) (mine : r.tag = p.addr)
    (asked : r.suspending = true) :
    Gives (.slotSuspended p) s (parkCall (setSite (fresh s) p.site
      { siteOf s p.site with run := some { r with suspended := true } }) p.site) := by
  refine gives_act (exec_slotSuspended ..) hl ((chipletSays_heard (s := fresh s) up good short).trans ?_)
  simp only [siteOf_fresh, runs, mine, asked]
  rfl

theorem slotSuspend_asks {s : State} {n : Fin 12} {r : SiteRun} (hl : live s = true) (up : siteUp s n = true)
    (runs : (siteOf s n).run = some r) (unfinished : r.done = none) (first : r.suspending = false) :
    Gives (.slotSuspend n) s (toChiplet (setSite (fresh s) n
      { siteOf s n with run := some { r with suspending := true } }) n 0x0B 0 0 r.tag [] []) := by
  refine gives_act (exec_slotSuspend ..) hl ?_
  simp only [siteOf_fresh, siteUp_fresh, runs, up, unfinished, first]
  rfl

theorem siteCallTimeout_isolates {s : State} {n : Fin 12} {r : SiteRun} (hl : live s = true) (up : siteUp s n = true)
    (runs : (siteOf s n).run = some r) :
    Gives (.siteCallTimeout n) s
      (siteDown (record (emit (fresh s) (.sideband n 0x21 3 0)) (siteRec s n 0x77)) n false) := by
  have busy : ((siteOf s n).run.isSome && siteUp s n) = true := by simp [runs, up]
  exact gives_act (exec_siteCallTimeout ..) hl (if_pos busy)

/-- Settles O52: the start of a call by `tryCall_next`, each message of the call that runs by its own row. -/
theorem siteCalls : Obligations.SiteCalls := by
  refine ⟨fun s n hl idle on j p sl k i d job plan next bound => ?_,
    fun s p hl up => ⟨fun r good short runs mine =>
        ⟨slotDone_ends hl up good short runs mine, slotSuspended_parks hl up good short runs mine⟩,
      fun bad => ⟨gives_act (exec_slotDone ..) hl (chipletSays_malformed (s := fresh s) up bad),
        gives_act (exec_slotSuspended ..) hl (chipletSays_malformed (s := fresh s) up bad)⟩⟩,
    fun s n r hl up runs => ⟨slotSuspend_asks hl up runs, siteCallTimeout_isolates hl up runs⟩⟩
  have tries := tryCall_next idle on job plan next bound
  refine ⟨fun held => gives_act (exec_siteCallStart ..) hl (tries.trans (if_pos held)), fun held t1 g gated => ?_⟩
  have goes := tries.trans (if_neg (not_not.mpr held))
  rw [gated] at goes
  refine ⟨?_, ?_, ?_⟩ <;> rintro rfl <;> exact gives_act (exec_siteCallStart ..) hl goes

end Sys2Proof.Machine
end

section
/-! PROOFS. Faults, retests and patrol of physical arrays (O24), and the descriptors of the DMA engines (O25). -/

namespace Sys2Proof.Machine

open Sys2Proof.Safety

/-! ### What a row reads of the hub before its effect -/

@[simp] theorem servicePause_fresh (s : State) : servicePause (fresh s) = servicePause s := rfl

@[simp] theorem engine_fresh (s : State) (de : Nat) : engine (fresh s) de = engine s de := rfl

@[simp] theorem runDone_fresh (s : State) (de : Nat) (r : DmaRun) : runDone (fresh s) de r = runDone s de r := rfl

@[simp] theorem pickRun_fresh (s : State) (de : Nat) (f : DmaRun → Bool) : pickRun (fresh s) de f = pickRun s de f := rfl

/-! ### Physical arrays -/

section
variable {s : State} {pa : Fin 288}

/-- The fault of an array that carries a logical array: its entry, the replay mark, quarantine, a spare, and the lost line
(R173, R539, R541). -/
theorem arrayFails_carrying {t : State} {n where1 : Nat} {f : ArrayFaultKind} (carries : (physArr t n).state = .carrying) :
    arrayFails t n f where1 =
      let la := (physArr t n).la
      let t1 := record t (faultRec t la n f where1)
      let t2 := setLog t1 la { logArr t1 la with run := (logArr t1 la).run.map fun r => { r with replayed := true } }
      let t3 := substitute (quarantine t2 n) la n
      if f = .binEccLost then loseLine t3 la where1 else t3 :=
  if_neg (not_not.mpr carries)

/-- A retest that ends in a tailrace outside a service pause retires the array or returns it under a new epoch (R20, R547, R602). -/
theorem retestComplete_ends (pass : Bool) (hl : live s = true) (on : domainOn s (domOfArray pa) = true)
    (tested : (physArr s pa).state = .quarantined ∨ (physArr s pa).state = .testing) (tail : inTailrace s = true)
    (pause : servicePause s = false) :
    Gives (.retestComplete pa pass) s
      (if !pass then retire (fresh s) pa 0
      else if 1 < (physArr s pa).faults then retire (fresh s) pa 1
      else spareJoins (record
        (setPhys (fresh s) pa { physArr s pa with state := .spare, epoch := ((physArr s pa).epoch + 1) % 256 })
        { cls := 0x99, kind := 1, index := pa, d0 := 1 })) := by
  refine gives_act (exec_retestComplete ..) hl (if_pos ⟨tested, tail, ?_, on⟩)
  rw [servicePause_fresh, pause, Bool.not_false]

theorem patrolDue_marks (hl : live s = true) (on : domainOn s (domOfArray pa) = true) (spare : (physArr s pa).state = .spare) :
    Gives (.patrolDue pa) s (setPhys (fresh s) pa { physArr s pa with patrol := true }) :=
  gives_act (exec_patrolDue ..) hl (if_pos ⟨spare, on⟩)

/-- A patrol pass that ends in a tailrace outside a service pause returns the spare, or retires it (R548, R602). -/
theorem patrolComplete_ends (pass : Bool) (hl : live s = true) (spare : (physArr s pa).state = .spare)
    (due : (physArr s pa).patrol = true) (tail : inTailrace s = true) (pause : servicePause s = false) :
    let t := setPhys (fresh s) pa { physArr s pa with patrol := false }
    Gives (.patrolComplete pa pass) s
      (if pass then spareJoins (record t { cls := 0x99, kind := 1, index := pa, d0 := 2 })
      else sparesChanged (retire t pa 2)) := by
  refine gives_act (exec_patrolComplete ..) hl (if_pos ⟨spare, due, tail, ?_⟩)
  rw [servicePause_fresh, pause, Bool.not_false]

end

/-- Settles O24: the fault by `arrayFails_carrying`, a retest and a patrol pass by what their ends leave. -/
theorem arrayFaultsQuarantineAndSubstitute : Obligations.ArrayFaultsQuarantineAndSubstitute := by
  intro s pa hl on
  refine ⟨fun f where1 carries => ?_, fun tested tail pause => ?_, fun spare => ⟨patrolDue_marks hl on spare, ?_⟩⟩
  · exact gives_act (exec_arrayFault ..) hl ((if_pos on).trans (arrayFails_carrying (t := fresh s) carries))
  · have failed := retestComplete_ends false hl on tested tail pause
    have passed := retestComplete_ends true hl on tested tail pause
    refine ⟨by simpa using failed, fun often => ?_, fun seldom => ?_⟩
    · simpa [often] using passed
    · simpa [Nat.not_lt.mpr seldom] using passed
  · intro due tail pause
    have passed := patrolComplete_ends true hl spare due tail pause
    have failed := patrolComplete_ends false hl spare due tail pause
    exact ⟨by simpa using passed, by simpa using failed⟩

/-! ### Descriptors of the engines -/

section
variable {s : State} {de : Fin 64} {r : DmaRun}

theorem dmaDescStart_plan (hl : live s = true) (on : domainOn (arrangeEngine (fresh s) de) 28 = true)
    (next : planRun (arrangeEngine (fresh s) de) de = some r) (transfer : isTransfer r.desc = true) :
    Gives (.dmaDescStart de) s (offer (arrangeEngine (fresh s) de) de r) := by
  refine gives_act (exec_dmaDescStart ..) hl ?_
  simp [on, next, transfer]

theorem dmaDescStart_queue (hl : live s = true) (on : domainOn (arrangeEngine (fresh s) de) 28 = true)
    (noPlan : planRun (arrangeEngine (fresh s) de) de = none) (next : queuedRun (arrangeEngine (fresh s) de) de = some r) :
    Gives (.dmaDescStart de) s (offer (arrangeEngine (fresh s) de) de r) := by
  refine gives_act (exec_dmaDescStart ..) hl ?_
  simp [on, noPlan, next]

theorem reductionDescStart_plan (hl : live s = true) (on : domainOn (arrangeEngine (fresh s) de) 28 = true)
    (next : planRun (arrangeEngine (fresh s) de) de = some r) (red : isRed r.desc = true) :
    Gives (.reductionDescStart de) s (offer (arrangeEngine (fresh s) de) de r) := by
  refine gives_act (exec_reductionDescStart ..) hl ?_
  simp [on, next, red]

/-- A refused request ends its descriptor, which gives up its place among the waiting requests (R331). -/
theorem dmaRequestRefused_ends {t : State} {q : DmaRun} {guard : Bool} {off : Nat} (hl : live s = true)
    (runs : pickRun s de (fun _ => true) = some r)
    (refused : refuseRun (if r.blocked then unblock (fresh s) de r.isCmd else fresh s) de
      { r with issued := r.issued.filter (fun x => x.dst ≠ off), blocked := false } guard off = (t, q)) :
    Gives (.dmaRequestRefused de guard off) s (runAnswered t de q) := by
  refine gives_act (exec_dmaRequestRefused ..) hl ?_
  rw [pickRun_fresh, runs]
  simp only [refused]

theorem dmaDescComplete_closes (hl : live s = true)
    (answered : pickRun s de (fun r => isTransfer r.desc && runDone s de r) = some r) :
    Gives (.dmaDescComplete de) s (arrangeEngine (closeRun (fresh s) de r) de) := by
  refine gives_act (exec_dmaDescComplete ..) hl ?_
  simp [answered]

theorem reductionDescComplete_closes (hl : live s = true) (runs : (engine s de).run = some r) (red : isRed r.desc = true)
    (answered : runDone s de r = true) :
    Gives (.reductionDescComplete de) s (arrangeEngine (closeRun (fresh s) de r) de) := by
  refine gives_act (exec_reductionDescComplete ..) hl ?_
  simp [runs, red, answered]

end

/-- Settles O25, row by row: the starts take the plan's work before the queue's, a refusal ends its descriptor, and an answered
descriptor closes. -/
theorem engineDescriptorsRun : Obligations.EngineDescriptorsRun := by
  intro s de hl
  refine ⟨fun on => ⟨fun r next => ⟨dmaDescStart_plan hl on next, reductionDescStart_plan hl on next⟩,
      fun r noPlan next => dmaDescStart_queue hl on noPlan next⟩,
    fun r guard off runs t q refused => dmaRequestRefused_ends hl runs refused,
    fun r answered => dmaDescComplete_closes hl answered,
    fun r runs red answered => reductionDescComplete_closes hl runs red answered⟩

end Sys2Proof.Machine
end

section
/-! PROOFS. What moves TURN_COUNT (O9): every row but the tick, a marker and a cold start keeps what `Kept` names. -/

namespace Sys2Proof.Machine

open Sys2Proof.Safety

/-- A row answers a next state, and keeps what `Kept` names. -/
abbrev Keeps (row : State → Host.Outcome State Fault Refusal) : Prop := ∀ s, ∃ t, row s = .next t ∧ Kept s t

/-! ### How `Kept` passes through the branches of an effect -/

theorem Kept.ite {s a b : State} {c : Prop} [Decidable c] (ha : Kept s a) (hb : Kept s b) : Kept s (if c then a else b) := by
  split
  · exact ha
  · exact hb

/-- An effect behind a condition, on a state that stays otherwise. -/
theorem Kept.when {s a : State} {c : Prop} [Decidable c] (h : Kept s a) : Kept s (if c then a else s) := .ite h (.refl s)

/-- The same with the branches the other way round. -/
theorem Kept.unless {s a : State} {c : Prop} [Decidable c] (h : Kept s a) : Kept s (if c then s else a) := .ite (.refl s) h

/-! ### Rows behind a gate -/

section
variable {row : State → Host.Outcome State Fault Refusal} {f : State → State}

theorem keeps_act (x : ∀ s, row s = act s f) (hf : ∀ t, Kept t (f t)) : Keeps row := fun s => x s ▸ act_kept hf

theorem keeps_actAon (x : ∀ s, row s = actAon s f) (hf : ∀ t, Kept t (f t)) : Keeps row := fun s => x s ▸ actAon_kept hf

theorem keeps_cohRow (x : ∀ s, row s = cohRow s f) (hf : ∀ t, Kept t (f t)) : Keeps row := fun s => x s ▸ cohRow_kept hf

theorem keeps_atomRow {q : AtomReq} {op : AtomOp} (x : ∀ s, row s = atomRow s q op) : Keeps row :=
  keeps_act x fun t => .when (atomicOp_kept (.refl t) ..)

theorem keeps_command {op : Nat} {lens : Nat → Bool} {c : Packet} {body : State → ReplyTo → State × Ending}
    (x : ∀ s, row s = command op lens c s body) (hb : ∀ t r, Kept t (body t r).1) : Keeps row :=
  fun s => x s ▸ command_kept hb

end

/-! ### Turn and Headrace -/

theorem execStretchDecision_kept (n : Nat) : Keeps (execStretchDecision n) :=
  fun _ => act_kept fun t => .unless (sendStretch_kept (takeStretch_kept (.refl t) ..) ..)

theorem execStretchRequest_kept (l : Fin 64) (k : Fin 256) (turn hub : Nat) : Keeps (execStretchRequest l k turn hub) := by
  refine fun _ => act_kept fun t => .unless ?_
  have h := takeStretch_kept (.refl t) k turn hub
  exact .ite h (sendStretch_kept h ..)

theorem execMarkerLoss_kept : Keeps execMarkerLoss :=
  fun _ => act_kept fun t => .unless (enterHoldover_kept (.lit (.refl t) rfl id))

/-! ### Memory, registers and tallies -/

theorem execWindowRequest_kept (q : RemoteReq) : Keeps (execWindowRequest q) := by
  refine fun _ => act_kept fun t => .unless (.ite (refuse_kept (.refl t) ..) ?_)
  dsimp only
  split
  · exact .ite (refuse_kept (.refl t) ..) (serveRemote_kept (.refl t) ..)
  · exact refuse_kept (.refl t) ..

theorem execPostedWrite_kept (off v : Nat) : Keeps (execPostedWrite off v) := by
  refine fun _ => act_kept fun t => ?_
  split
  · exact .when (postWrite_kept (.refl t) ..)
  · exact .refl t

theorem execCqHead_kept (src : Fin 17) (v : Nat) : Keeps (execCqHead src v) :=
  fun _ => act_kept fun t =>
    .unless (.ite (badDoorbell_kept (.refl t) ..) (flushHeld_kept (setChan_kept (.refl t) ..) ..))

theorem execScrubRead_kept (addr : Nat) (e : EccResult) : Keeps (execScrubRead addr e) := by
  refine fun _ => act_kept fun t => ?_
  split
  · exact .when (foundError_kept (.refl t) ..)
  · exact .when (foundError_kept (.refl t) ..)
  · exact .refl t

theorem execInvalAckTimeout_kept (unit : Fin 76) : Keeps (execInvalAckTimeout unit) :=
  fun _ => act_kept fun t => .unless (.ite (settleInvals_kept (ackAll_kept (fence_kept (.refl t) ..) ..))
    (settleInvals_kept (ackAll_kept (record_kept (.refl t) ..) ..)))

/-! ### Engines -/

theorem execMintTransferPacket_kept (part : Fin 16) (bytes : Bytes) : Keeps (execMintTransferPacket part bytes) :=
  fun _ => act_kept fun t => .unless (.ite (takePacket_kept (.refl t) ..) (enqueue_kept (.refl t) ..))

theorem execDmaDescStart_kept (de : Fin 64) : Keeps (execDmaDescStart de) := by
  refine fun _ => act_kept fun t => ?_
  have h := arrangeEngine_kept (.refl t) de
  refine .ite h ?_
  split
  · exact .ite (offer_kept h ..) h
  · exact offer_kept h ..
  · exact h

theorem execReductionDescStart_kept (de : Fin 64) : Keeps (execReductionDescStart de) := by
  refine fun _ => act_kept fun t => ?_
  have h := arrangeEngine_kept (.refl t) de
  refine .ite h ?_
  split
  · exact .ite (offer_kept h ..) h
  · exact h

theorem execDmaDescComplete_kept (de : Fin 64) : Keeps (execDmaDescComplete de) := by
  refine fun _ => act_kept fun t => ?_
  split
  · exact arrangeEngine_kept (closeRun_kept (.refl t) ..) ..
  · exact .refl t

theorem execReductionDescComplete_kept (de : Fin 64) : Keeps (execReductionDescComplete de) := by
  refine fun _ => act_kept fun t => ?_
  split
  · exact .when (arrangeEngine_kept (closeRun_kept (.refl t) ..) ..)
  · exact .refl t

theorem execDmaRequestRefused_kept (de : Fin 64) (guard : Bool) (off : Nat) : Keeps (execDmaRequestRefused de guard off) := by
  refine fun _ => act_kept fun t => ?_
  split
  · exact runAnswered_kept (refuseRun_kept (.ite (unblock_kept (.refl t) ..) (.refl t)) ..) ..
  · exact .refl t

/-! ### Arrays -/

theorem execRetestComplete_kept (pa : Fin 288) (pass : Bool) : Keeps (execRetestComplete pa pass) :=
  fun _ => act_kept fun t => .when (.ite (retire_kept (.refl t) ..) (.ite (retire_kept (.refl t) ..)
    (spareJoins_kept (record_kept (setPhys_kept (.refl t) ..) ..))))

theorem execPatrolComplete_kept (pa : Fin 288) (pass : Bool) : Keeps (execPatrolComplete pa pass) := by
  refine fun _ => act_kept fun t => .when ?_
  have h := setPhys_kept (.refl t) pa { physArr t pa with patrol := false }
  exact .ite (spareJoins_kept (record_kept h ..)) (sparesChanged_kept (retire_kept h ..))

theorem execArrayDescStart_kept (a : ArrayStart) : Keeps (execArrayDescStart a) := by
  refine fun _ => act_kept fun t => ?_
  have h : Kept t (if arrayUp t a.la then arrangeArray t a.la else t) := .when (arrangeArray_kept (.refl t) ..)
  dsimp only
  generalize (if arrayUp t a.la then arrangeArray t a.la else t) = u at h ⊢
  refine .ite h ?_
  split
  · exact h
  next j _ =>
    split
    next p sl n i d _ _ =>
      have g (again : Bool) : Kept t (if again = true then (u, Gate.go)
          else gate (wakeJob u (.array a.la) j) (.array a.la) d.c p.part none).1 := by
        split
        · exact h
        · exact gate_kept (wakeJob_kept h ..) ..
      split
      · exact g _
      · exact skipArray_kept (g _) ..
      · exact startHead_kept (g _) ..
      · exact startArray_kept (g _) ..
    · exact h

theorem execArrayDescComplete_kept (la : Fin 256) : Keeps (execArrayDescComplete la) := by
  refine fun _ => act_kept fun t => ?_
  split
  · exact .when (arrangeArray_kept (endArray_kept (.refl t) ..) ..)
  · exact .refl t

theorem execShoeBatchComplete_kept (la : Fin 256) : Keeps (execShoeBatchComplete la) := by
  refine fun _ => act_kept fun t => .unless ?_
  split
  · exact .refl t
  · split
    · exact .unless (arrangeArray_kept (endBatch_kept (.refl t) ..) ..)
    · exact .refl t

theorem execReplayComplete_kept (la : Fin 256) (cycles copied : Nat) : Keeps (execReplayComplete la cycles copied) := by
  refine fun _ => act_kept fun t => ?_
  dsimp only
  split
  · refine .when (record_kept ?_ ..)
    have h := setLog_kept (.refl t) la { logArr t la with replay := false }
    split
    · exact replayRun_kept h ..
    · exact h
  · exact .refl t

/-! ### Fabric -/

theorem execReserve_kept (q : QueueReq) : Keeps (execReserve q) := by
  refine fun _ => act_kept fun t => .unless (.ite (.when (reserveSlot_kept (.refl t) ..)) ?_)
  split
  · exact reserveSlot_kept (.refl t) ..
  · exact record_kept (.refl t) ..

theorem execSlotReturn_kept (q : QueueReq) : Keeps (execSlotReturn q) := by
  refine fun _ => act_kept fun t => ?_
  split
  · exact .when (freeSlot_kept (.refl t) ..)
  · exact .refl t

theorem admitFlit_kept {t u : State} {f : MeshFlit} (h : admitFlit t f = some u) : Kept t u := by
  unfold admitFlit at h
  split at h
  · cases h
    exact .refl t
  · split at h
    · obtain ⟨x, _, rfl⟩ := Option.map_eq_some_iff.mp h
      exact setComing_kept (freeSlot_kept (.refl t) ..) ..
    · split at h
      · cases h
      · cases h
        exact setComing_kept (.refl t) ..

theorem execFlitReceive_kept (f : MeshFlit) : Keeps (execFlitReceive f) := by
  refine fun _ => act_kept fun t => .unless (.ite (record_kept ?_ ..) ?_)
  · cases h : admitFlit t f
    · exact .refl t
    · exact admitFlit_kept h
  · split
    · exact record_kept (.refl t) ..
    next u admitted =>
      have h := admitFlit_kept admitted
      have measured {v : State} {p : Prop} [Decidable p] {cls : Nat} (k : Kept t v) :
          Kept t (if p then measure v f cls else v) := .ite (measure_kept k ..) k
      exact measured (emit_kept (.ite (record_kept h _) (.ite (record_kept h _) h)) _)

theorem execShareWindowEnd_kept : Keeps execShareWindowEnd :=
  fun _ => act_kept fun t =>
    .lit (endGroups_kept (.foldl _ (fun a c => missClass_kept (.refl a) c) (.refl t)) 700) rfl id

/-! ### Leat links -/

theorem execLeatResendRequest_kept (link : Fin 64) (lseq : Nat) : Keeps (execLeatResendRequest link lseq) := by
  refine fun _ => act_kept fun t => .unless ?_
  have h := setLink_kept (.refl t) link ((linkOf t link).ackUpTo lseq)
  exact .ite (linkOut_kept h ..)
    (releasePort_kept (.foldl _ (fun a r => emitLeat_kept (.refl a) _) (setLink_kept h ..)) ..)

theorem execLinkTrainingComplete_kept (link : Fin 64) (r : TrainResult) : Keeps (execLinkTrainingComplete link r) := by
  refine fun _ => act_kept fun t => .unless (.ite (.ite (trainLink_kept (.refl t) ..) ?_) ?_)
  · exact trainingEnds_kept (excludeLink_kept (setLink_kept (.refl t) ..) ..)
  · split
    · exact trainingEnds_kept (excludeLink_kept (setLink_kept (.refl t) ..) ..)
    · exact trainingEnds_kept (linkUp_kept (.refl t) ..)

theorem execBerCheckStart_kept (link : Fin 64) (turn : Nat) : Keeps (execBerCheckStart link turn) := by
  refine fun _ => act_kept fun t => .unless ?_
  split
  · exact .refl t
  · exact emit_kept (setLink_kept (.refl t) ..) ..

theorem execBerCheckComplete_kept (link : Fin 64) (errors : List Nat) (bad : Bool) :
    Keeps (execBerCheckComplete link errors bad) := by
  refine fun _ => act_kept fun t => .unless ?_
  split
  · exact .unless (.ite (releasePort_kept (restripe_kept (setLink_kept (.refl t) ..) ..) ..) (berFails_kept (.refl t) ..))
  · exact .refl t

/-! ### Key exchange -/

theorem execKeyOffer_kept (link : Fin 64) (f : KeyFragment) : Keeps (execKeyOffer link f) := by
  refine fun _ => act_kept fun t => .unless (.ite (emitLeat_kept (.refl t) _) ?_)
  dsimp only
  split
  · exact respondKeys_kept (takeFragment_kept (.refl t) ..) ..
  · refine .ite (answerKey_kept (.refl t) ..) (respondKeys_kept (takeFragment_kept ?_ ..) ..)
    exact .foldl _ (fun a k => sendFragment_kept (.refl a) ..) (openExchange_kept (.refl t) ..)

theorem execKeyOfferResponse_kept (link : Fin 64) (f : KeyFragment) : Keeps (execKeyOfferResponse link f) := by
  refine fun _ => act_kept fun t => .unless ?_
  split
  · exact .ite (failExchange_kept (.refl t) ..) (.ite (startExchange_kept (.refl t) ..)
      (.ite (.when (.ite (setEx_kept (installKeys_kept (.refl t) ..) ..) (failExchange_kept (.refl t) ..)))
        (.when (takeFragment_kept (.refl t) ..))))
  · exact .when (startExchange_kept (.refl t) ..)

theorem execKeyFragmentResend_kept (port : Fin 8) (part : Fin 16) : Keeps (execKeyFragmentResend port part) := by
  refine fun _ => act_kept fun t => ?_
  split
  · exact .when (startExchange_kept (.refl t) ..)
  next x _ =>
    refine .unless ?_
    have h (l : List Nat) : Kept t (l.foldl (fun a k => sendFragment a port part x k) t) :=
      .foldl _ (fun a k => sendFragment_kept (.refl a) ..) (.refl t)
    exact .ite (answerKey_kept (h _) ..) (h _)

theorem execSealCounterRekey_kept (link : Fin 64) (part : Fin 16) : Keeps (execSealCounterRekey link part) := by
  refine fun _ => act_kept fun t => .unless ?_
  have h := record_kept (.refl t) { linkRec link 0x68 0 with part := some part.val }
  exact .ite (startExchange_kept h ..) h

/-! ### Open sites -/

theorem execSlotDone_kept (p : SitePkt) : Keeps (execSlotDone p) := by
  refine fun _ => act_kept fun t => chipletSays_kept (.refl t) ?_
  dsimp only
  split
  · exact .when (arrangeSite_kept (finishSite_kept (setSite_kept (.refl t) ..) ..) ..)
  · exact .refl t

theorem execSlotSuspend_kept (site : Fin 12) : Keeps (execSlotSuspend site) := by
  refine fun _ => act_kept fun t => ?_
  dsimp only
  split
  · exact .when (toChiplet_kept (setSite_kept (.refl t) ..) ..)
  · exact .refl t

theorem execSlotSuspended_kept (p : SitePkt) : Keeps (execSlotSuspended p) := by
  refine fun _ => act_kept fun t => chipletSays_kept (.refl t) ?_
  dsimp only
  split
  · exact .when (parkCall_kept (setSite_kept (.refl t) ..) ..)
  · exact .refl t

theorem execModuleLossOfLock_kept (site : Fin 12) (m : Fin 16) (relock : ModuleState) :
    Keeps (execModuleLossOfLock site m relock) := by
  refine fun _ => act_kept fun t => .unless (.unless ?_)
  have h (x : Site) (r : Rec) := record_kept (tariffChanged_kept (setSite_kept (.refl t) site x)) r
  exact .ite (siteDown_kept (h ..) ..) (h ..)

theorem execFlushDone_kept (f : FlushReport) : Keeps (execFlushDone f) :=
  fun _ => cohRow_kept fun t =>
    .ite (sidebandSays_kept (.refl t) (flushReport_kept (.refl t) _)) (flushReport_kept (.refl t) _)

/-! ### Host -/

theorem execHostBar4Write_kept (fn : Fin 17) (off : Nat) (d : Bytes) (poison : Bool) : Keeps (execHostBar4Write fn off d poison) :=
  fun _ => act_kept fun t => .when (arrive_kept (.ite (record_kept (.refl t) _) (.refl t)) ..)

theorem execHostReadCompletion_kept (tag : Nat) (c : Completion) : Keeps (execHostReadCompletion tag c) := by
  refine fun _ => act_kept fun t => ?_
  split
  · exact .refl t
  · cases c with
    | data d => exact readArrives_kept (.refl t) ..
    | poisoned d => exact readArrives_kept (record_kept (.refl t) _) ..
    | refused => exact reqRefused_kept (record_kept (.refl t) _) ..

theorem execHostReadTimeout_kept (tag : Nat) : Keeps (execHostReadTimeout tag) := by
  refine fun _ => act_kept fun t => ?_
  split
  · exact .refl t
  · exact reqRefused_kept (record_kept (.refl t) _) ..

theorem execFunctionLevelReset_kept (fn : Fin 17) : Keeps (execFunctionLevelReset fn) := by
  refine fun _ => act_kept fun t => .unless (record_kept ?_ _)
  exact .ite (refuseReads_kept (resetFunctions_kept (.refl t)) _) (resetFn_kept (.refl t) _)

theorem execVfEnableWrite_kept (enable : Bool) (numVfs : Nat) : Keeps (execVfEnableWrite enable numVfs) :=
  fun _ => act_kept fun t => .unless
    (refuseReads_kept (.foldl _ (fun a f => resetFn_kept (.refl a) f) (.lit (.refl t) rfl id)) _)

theorem execHostLinkUp_kept (rate : Fin 4) (width : Nat) (flit : Bool) : Keeps (execHostLinkUp rate width flit) := by
  refine fun _ => act_kept fun t => .unless ?_
  have h (g : Global) (p : Plans) (e : HostEnd) : Kept t { t with host := e, plans := p, glob := g } := .lit (.refl t) rfl id
  exact .ite (h ..) (record_kept (h ..) _)

theorem execDoeRequest_kept (obj : Bytes) : Keeps (execDoeRequest obj) := by
  refine fun _ => act_kept fun t => .unless (.ite (emit_kept (record_kept (.refl t) _) _) ?_)
  exact .ite (emit_kept (.lit (.refl t) rfl id) _) (.when (emit_kept (.lit (takeFresh_kept (.refl t)) rfl id) _))

/-! ### Commands and firmware -/

theorem execCommandFetch_kept (src : Fin 17) (slots : Completion) : Keeps (execCommandFetch src slots) := by
  refine fun _ => act_kept fun t => .unless ?_
  cases slots with
  | data b => exact .unless (takeSlots_kept (.refl t) ..)
  | poisoned d => exact stopRing_kept (record_kept (.refl t) _) ..
  | refused => exact stopRing_kept (record_kept (.refl t) _) ..

theorem execMctpCommand_kept (bytes : Bytes) : Keeps (execMctpCommand bytes) := by
  refine fun _ => act_kept fun t => .unless ?_
  have h : Kept t { t with cmd := { t.cmd with mctpPeer := true } } := .lit (.refl t) rfl id
  exact .ite (refuseHeader_kept h ..) (.ite (refuseHeader_kept h ..) (.ite (refuseHeader_kept h ..) (.lit h rfl id)))

theorem execBankEraseComplete_kept : Keeps execBankEraseComplete := by
  refine fun _ => act_kept fun t => .foldl _ (fun a b => ?_) (takeFresh_kept (.refl t))
  exact .ite (record_kept (setBank_kept (.refl a) ..) _) (.when (setBank_kept (.lit (.refl a) rfl id) ..))

theorem execKyoharReportsRunning_kept : Keeps execKyoharReportsRunning := by
  refine fun _ => act_kept fun t => ?_
  split
  · have h := renewCores_kept (.refl t)
    exact .unless (.ite (endPause_kept (record_kept h _) ..)
      (endPause_kept (record_kept (runBank_kept (writeBootRecord_kept h _) _) _) ..))
  · exact .refl t

theorem execKyoharReportTimeout_kept : Keeps execKyoharReportTimeout := by
  refine fun _ => act_kept fun t => ?_
  split
  · exact .unless (.ite (record_kept (.lit (.refl t) rfl id) _) (emit_kept (.lit (renewCores_kept (.refl t)) rfl id) _))
  · exact .refl t

/-! ### Power and sensors -/

theorem execDomainSwitchComplete_kept : Keeps execDomainSwitchComplete := by
  refine fun _ => act_kept fun t => ?_
  split
  · split
    · exact .unless (beginSwitch_kept (.ite (comeOn_kept (.refl t) _) (goOff_kept (.refl t) _)) _)
    · exact .refl t
  · exact .refl t

theorem execDomainSwitchTimeout_kept : Keeps execDomainSwitchTimeout := by
  refine fun _ => act_kept fun t => ?_
  split
  · split
    · exact beginSwitch_kept (record_kept (goOff_kept (.refl t) _) _) _
    · exact .refl t
  · exact .refl t

theorem execTempSample_kept (temps : List Nat) : Keeps (execTempSample temps) := by
  refine fun _ => actAon_kept fun t => ?_
  have h (p : Power) := watchTj_kept (stackTemps_kept (s := { t with power := p }) (.lit (.refl t) rfl id) ((temps.drop 96).take 8))
  exact .ite (trip_kept (h _)) (h _)

theorem execRailSample_kept (l : List Nat) : Keeps (execRailSample l) :=
  fun _ => actAon_kept fun t => .foldl _ (fun a _ => record_kept (.refl a) _) (.lit (.refl t) rfl id)

theorem execProfilerSample_kept (free : Bool) : Keeps (execProfilerSample free) := by
  refine fun _ => act_kept fun t => .unless (.ite (.lit (.refl t) rfl id) ?_)
  exact .lit (emit_kept (.refl t) _) rfl id

/-! ### Pins and reset -/

theorem execPwrokFall_kept : Keeps execPwrokFall :=
  fun s => ⟨_, rfl, .lit (cutErases_kept (Kept.fresh s)) rfl id⟩

theorem execWarmRstAssert_kept : Keeps execWarmRstAssert := by
  intro s
  have low : Kept s { s with out := [], pins := { s.pins with warmLow := true } } := .lit (.refl s) rfl id
  unfold execWarmRstAssert
  dsimp only
  split
  · exact ⟨_, rfl, enterHoldover_kept (forgetStarted_kept (cutErases_kept (.lit (.refl s) rfl id)))⟩
  · exact ⟨_, rfl, low⟩

theorem execWarmRstRise_kept (env : BootEnv) : Keeps (execWarmRstRise env) := by
  intro s
  unfold execWarmRstRise
  split
  · exact ⟨_, rfl, fromBank_kept (warmReset_kept (Kept.fresh s)) env true⟩
  · exact ⟨_, rfl, .lit (.refl s) rfl id⟩

theorem execPerstAssert_kept : Keeps execPerstAssert := by
  intro s
  have low : Kept s { s with out := [], pins := { s.pins with perstLow := true } } := .lit (.refl s) rfl id
  unfold execPerstAssert
  split
  · exact ⟨_, rfl, .ite (linkLost_kept low) low⟩
  · exact ⟨_, rfl, low⟩

/-! ### Every row -/

/-- The rows that can move TURN_COUNT: the tick, a marker, and the rise of PWROK (R43, R361, R510). -/
def movesTurn : Instr → Bool
  | .turnTick | .turnMarker _ _ | .pwrokRise _ => true
  | _ => false

/-- Every other row answers a next state and keeps what `Kept` names: each by the operations that make up its effect. -/
theorem exec_kept : ∀ {i : Instr}, movesTurn i = false → Keeps (exec i)
  | .turnTick, h | .turnMarker .., h | .pwrokRise .., h => nomatch h
  | .pwrokFall, _ => execPwrokFall_kept
  | .warmRstAssert, _ => execWarmRstAssert_kept
  | .warmRstRise .., _ => execWarmRstRise_kept _
  | .perstAssert, _ => execPerstAssert_kept
  | .perstDeassert, _ => fun s => ⟨_, exec_perstDeassert s, .lit (.refl s) rfl id⟩
  | .bucketBoundary, _ => keeps_act exec_bucketBoundary fun t => serveArrivals_kept (bucketBoundary_kept (.refl t))
  | .stretchDecision .., _ => execStretchDecision_kept _
  | .stretchRequest .., _ => execStretchRequest_kept _ _ _ _
  | .commitWindow, _ => keeps_act exec_commitWindow fun t => openCommit_kept (.refl t)
  | .markerLoss, _ => execMarkerLoss_kept
  | .headraceTimeout, _ => keeps_act exec_headraceTimeout fun t => .unless (elect_kept (forgetHead_kept (.refl t) _))
  | .turnInEdge .., _ => keeps_actAon (exec_turnInEdge _ _) fun t => withHealth_kept (.lit (.refl t) rfl id)
  | .shoeSubmit .., _ => keeps_act (exec_shoeSubmit _) fun t =>
      .unless (.ite (enqueue_kept (.refl t) ..) (takeRow_kept (.refl t) _))
  | .arrayDescStart .., _ => execArrayDescStart_kept _
  | .arrayDescComplete .., _ => execArrayDescComplete_kept _
  | .shoeBatchComplete .., _ => execShoeBatchComplete_kept _
  | .arrayFault .., _ => keeps_act (exec_arrayFault _ _ _) fun t => .when (arrayFails_kept (.refl t) ..)
  | .replayComplete .., _ => execReplayComplete_kept _ _ _
  | .retestComplete .., _ => execRetestComplete_kept _ _
  | .patrolDue .., _ => keeps_act (exec_patrolDue _) fun t => .when (setPhys_kept (.refl t) ..)
  | .patrolComplete .., _ => execPatrolComplete_kept _ _
  | .dmaDescStart .., _ => execDmaDescStart_kept _
  | .dmaRequestRefused .., _ => execDmaRequestRefused_kept _ _ _
  | .dmaDescComplete .., _ => execDmaDescComplete_kept _
  | .reductionDescStart .., _ => execReductionDescStart_kept _
  | .reductionDescComplete .., _ => execReductionDescComplete_kept _
  | .mintTransferPacket .., _ => execMintTransferPacket_kept _ _
  | .mintInit .., _ => keeps_atomRow (exec_mintInit _ _)
  | .mintAdd .., _ => keeps_atomRow (exec_mintAdd _ _)
  | .mintRead .., _ => keeps_atomRow (exec_mintRead _)
  | .cellPut .., _ => keeps_atomRow (exec_cellPut _ _ _)
  | .iadd .., _ => keeps_atomRow (exec_iadd _ _ _)
  | .iaddFetch .., _ => keeps_atomRow (exec_iaddFetch _ _ _)
  | .cas .., _ => keeps_atomRow (exec_cas _ _ _ _)
  | .fmax .., _ => keeps_atomRow (exec_fmax _ _ _)
  | .fmin .., _ => keeps_atomRow (exec_fmin _ _ _)
  | .tallyAdd .., _ => keeps_act (exec_tallyAdd _) fun t => tallyWrite_kept (.refl t) ..
  | .tallySub .., _ => keeps_act (exec_tallySub _) fun t => tallyWrite_kept (.refl t) ..
  | .memoryAccess .., _ => keeps_act (exec_memoryAccess _) fun t => .when (arrive_kept (.refl t) _)
  | .windowRequest .., _ => execWindowRequest_kept _
  | .directRequest .., _ => keeps_act (exec_directRequest _) fun t =>
      .unless (.ite (refuse_kept (.refl t) ..) (serveRemote_kept (.refl t) ..))
  | .rdS .., _ => keeps_act (exec_rdS _) fun t => .when (cohRequest_kept (.refl t) ..)
  | .rdO .., _ => keeps_act (exec_rdO _) fun t => .when (cohRequest_kept (.refl t) ..)
  | .upg .., _ => keeps_act (exec_upg _) fun t => .when (cohRequest_kept (.refl t) ..)
  | .rdCur .., _ => keeps_act (exec_rdCur _) fun t => .when (arrive_kept (.refl t) _)
  | .wrInv .., _ => keeps_act (exec_wrInv _) fun t => .when (arrive_kept (.refl t) _)
  | .flush .., _ => keeps_act (exec_flush _) fun t => .when (cohRequest_kept (.refl t) ..)
  | .wb .., _ => keeps_cohRow (exec_wb _ _) fun t => takeWb_kept (.refl t) ..
  | .evc .., _ => keeps_cohRow (exec_evc _) fun t => takeEvc_kept (.refl t) _
  | .rspI .., _ => keeps_cohRow (exec_rspI _) fun t => respond_kept (.refl t) ..
  | .rspS .., _ => keeps_cohRow (exec_rspS _) fun t => respond_kept (.refl t) ..
  | .rspIData .., _ => keeps_cohRow (exec_rspIData _ _) fun t => respond_kept (.refl t) ..
  | .rspSData .., _ => keeps_cohRow (exec_rspSData _ _) fun t => respond_kept (.refl t) ..
  | .rspIInflight .., _ => keeps_cohRow (exec_rspIInflight _) fun t => respond_kept (.refl t) ..
  | .stashAcc .., _ => keeps_cohRow (exec_stashAcc _) fun t => answerOffer_kept (.refl t) ..
  | .stashDec .., _ => keeps_cohRow (exec_stashDec _) fun t => answerOffer_kept (.refl t) ..
  | .dirtyEvict .., _ => keeps_cohRow (exec_dirtyEvict _ _) fun t =>
      .unless (.ite (emit_kept (.refl t) _) (cxlSays_kept (.refl t) ..))
  | .holdWindowExpiry .., _ => keeps_cohRow (exec_holdWindowExpiry _ _) fun t => drainWaiting_kept (.lit (.refl t) rfl id)
  | .snoopTimeout .., _ => keeps_cohRow (exec_snoopTimeout _ _) fun t => .when (fence_kept (.refl t) _)
  | .flushDone .., _ => execFlushDone_kept _
  | .flushTimeout .., _ => keeps_cohRow (exec_flushTimeout _) fun t => .when (afterFlush_kept (fence_kept (.refl t) _) _)
  | .invalAckTimeout .., _ => execInvalAckTimeout_kept _
  | .deedZeroingComplete .., _ => keeps_act (exec_deedZeroingComplete _) fun t => zeroRuns_kept (.lit (.refl t) rfl id)
  | .wayDrainComplete, _ => keeps_act exec_wayDrainComplete fun t => .lit (.refl t) rfl id
  | .reserve .., _ => execReserve_kept _
  | .slotReturn .., _ => execSlotReturn_kept _
  | .flitReceive .., _ => execFlitReceive_kept _
  | .shareWindowEnd, _ => execShareWindowEnd_kept
  | .leatDataFlit .., _ => keeps_act (exec_leatDataFlit _ _ _) fun t => serveArrivals_kept (takeFlit_kept (.refl t) ..)
  | .leatResendRequest .., _ => execLeatResendRequest_kept _ _
  | .laneLossOfLock .., _ => keeps_act (exec_laneLossOfLock _) fun t => linkOut_kept (.refl t) _
  | .linkSignalDetect .., _ => keeps_act (exec_linkSignalDetect _) fun t => .when (trainLink_kept (.refl t) ..)
  | .linkTrainingComplete .., _ => execLinkTrainingComplete_kept _ _
  | .berCheckStart .., _ => execBerCheckStart_kept _ _
  | .berCheckComplete .., _ => execBerCheckComplete_kept _ _ _
  | .sealCounterRekey .., _ => execSealCounterRekey_kept _ _
  | .sealCounterLimit .., _ => keeps_act (exec_sealCounterLimit _ _) fun t => .unless (record_kept (setLink_kept (.refl t) ..) _)
  | .keyOffer .., _ => execKeyOffer_kept _ _
  | .keyOfferResponse .., _ => execKeyOfferResponse_kept _ _
  | .keyFragmentResend .., _ => execKeyFragmentResend_kept _ _
  | .purseReq .., _ => keeps_act (exec_purseReq _ _ _) fun t => sidebandSays_kept (.refl t) (.when (setSite_kept (.refl t) ..))
  | .purseReport .., _ => keeps_act (exec_purseReport _ _ _) fun t =>
      sidebandSays_kept (.refl t) (.when (takeReport_kept (.refl t) ..))
  | .purseReportDeadline .., _ => keeps_act (exec_purseReportDeadline _) fun t =>
      .when (takeReport_kept (record_kept (.refl t) _) ..)
  | .siteAlert .., _ => keeps_act (exec_siteAlert _ _ _) fun t => .when (event_kept (record_kept (.refl t) _) _)
  | .unknownSidebandMessage .., _ => keeps_act (exec_unknownSidebandMessage _ _) fun t => .when (record_kept (.refl t) _)
  | .rd .., _ => keeps_act (exec_rd _) fun t => chipletSends_kept (.refl t) ..
  | .wr .., _ => keeps_act (exec_wr _) fun t => chipletSends_kept (.refl t) ..
  | .atomic .., _ => keeps_act (exec_atomic _ _) fun t => chipletSends_kept (.refl t) ..
  | .tally .., _ => keeps_act (exec_tally _) fun t => chipletSends_kept (.refl t) ..
  | .rdData .., _ => keeps_act (exec_rdData _) fun t => chipletSays_kept (.refl t) (apertureReply_kept (.refl t) ..)
  | .wrAck .., _ => keeps_act (exec_wrAck _) fun t => chipletSays_kept (.refl t) (apertureReply_kept (.refl t) ..)
  | .err .., _ => keeps_act (exec_err _) fun t => chipletSays_kept (.refl t) (apertureFails_kept (.refl t) ..)
  | .apertureTimeout .., _ => keeps_act (exec_apertureTimeout _ _) fun t => apertureFails_kept (.refl t) ..
  | .siteCallStart .., _ => keeps_act (exec_siteCallStart _) fun t => tryCall_kept (arrangeSite_kept (.refl t) _) ..
  | .slotDone .., _ => execSlotDone_kept _
  | .slotSuspended .., _ => execSlotSuspended_kept _
  | .siteCallTimeout .., _ => keeps_act (exec_siteCallTimeout _) fun t =>
      .when (siteDown_kept (record_kept (emit_kept (.refl t) _) _) ..)
  | .moduleLossOfLock .., _ => execModuleLossOfLock_kept _ _ _
  | .hbmCattrip .., _ => keeps_act (exec_hbmCattrip _) fun t => record_kept (setStack_kept (.refl t) ..) _
  | .pcRetrainFail .., _ => keeps_act (exec_pcRetrainFail _ _) fun t => record_kept (setStack_kept (.refl t) ..) _
  | .scrubRead .., _ => execScrubRead_kept _ _
  | .scrubIntervalEnd, _ => keeps_act exec_scrubIntervalEnd fun t => record_kept (.refl t) _
  | .domainSwitchComplete, _ => execDomainSwitchComplete_kept
  | .domainSwitchTimeout, _ => execDomainSwitchTimeout_kept
  | .tempSample .., _ => execTempSample_kept _
  | .thermtrip, _ => keeps_actAon exec_thermtrip fun t => trip_kept (.refl t)
  | .railSample .., _ => execRailSample_kept _
  | .ageingSample .., _ => keeps_act (exec_ageingSample _) fun t =>
      .when (.foldl _ (fun a d => sampleDomain_kept (.refl a) _ d) (.refl t))
  | .ageingReplan, _ => keeps_act exec_ageingReplan fun t => .when (.foldl _ (fun a d => replanDomain_kept (.refl a) d) (.refl t))
  | .profilerSample .., _ => execProfilerSample_kept _
  | .replaceMessageRepeat, _ => keeps_act exec_replaceMessageRepeat fun t => .when (emit_kept (.refl t) _)
  | .warrantExpiry, _ => keeps_act exec_warrantExpiry fun t => endWarrants_kept (.refl t) _
  | .debugAccess .., _ => keeps_act (exec_debugAccess _) fun t =>
      .ite (emit_kept (.refl t) _) (emit_kept (closedPath_kept (.refl t)) _)
  | .testWindowWrite .., _ => keeps_act (exec_testWindowWrite _ _) fun t =>
      .unless (.ite (recordCount_kept (.refl t) _) (.ite (lockedWrite_kept (.refl t)) (writeWindow_kept (.refl t) ..)))
  | .observeSelect .., _ => keeps_act (exec_observeSelect _) fun t =>
      .ite (.lit (.refl t) rfl id) (emit_kept (closedPath_kept (.refl t)) _)
  | .bankEraseComplete, _ => execBankEraseComplete_kept
  | .kyoharReportTimeout, _ => execKyoharReportTimeout_kept
  | .commandFetch .., _ => execCommandFetch_kept _ _
  | .sqTail .., _ => keeps_act (exec_sqTail _ _) fun t =>
      .unless (.ite (badDoorbell_kept (.refl t) _) (setChan_kept (.refl t) ..))
  | .cqHead .., _ => execCqHead_kept _ _
  | .ringEnable .., _ => keeps_act (exec_ringEnable _ _) fun t => .when (writeCtl_kept (.refl t) ..)
  | .ringDisable .., _ => keeps_act (exec_ringDisable _ _) fun t => .when (writeCtl_kept (.refl t) ..)
  | .mctpCommand .., _ => execMctpCommand_kept _
  | .bitAliasWrite .., _ => keeps_act (exec_bitAliasWrite _ _) fun t => .when (aliasWrite_kept (.refl t) ..)
  | .sqcClearWrite .., _ => keeps_act (exec_sqcClearWrite _ _) fun t => .when (writeWord_kept (.refl t) ..)
  | .cfgLockWrite .., _ => keeps_act (exec_cfgLockWrite _ _) fun t =>
      .unless (.ite (writeWord_kept (.refl t) ..) (.when (postWrite_kept (.refl t) ..)))
  | .postedWrite .., _ => execPostedWrite_kept _ _
  | .postedWriteLand .., _ => keeps_act (exec_postedWriteLand _) fun t => serveArrivals_kept (landPosted_kept (.refl t) _)
  | .leatFecClr .., _ => keeps_act (exec_leatFecClr _) fun t => .when (postWrite_kept (.refl t) ..)
  | .hostRdLimitWrite .., _ => keeps_act (exec_hostRdLimitWrite _) fun t => .when (writeWord_kept (.refl t) ..)
  | .hostFnTagsWrite .., _ => keeps_act (exec_hostFnTagsWrite _ _) fun t =>
      .when (guarded_kept (.refl t) (writeHostFn_kept (.refl t) ..))
  | .registerWrite .., _ => keeps_act (exec_registerWrite _) fun t => .when (writeBy_kept (.refl t) ..)
  | .msixUnmask .., _ => keeps_act (exec_msixUnmask _ _) fun t => .when (sendPending_kept (setFunc_kept (.refl t) ..) _)
  | .resizableBarWrite .., _ => keeps_act (exec_resizableBarWrite _) fun t => .unless (.lit (.refl t) rfl id)
  | .hostBar4Read .., _ => keeps_act (exec_hostBar4Read _ _ _) fun t => .when (arrive_kept (.refl t) _)
  | .hostBar4Write .., _ => execHostBar4Write_kept _ _ _ _
  | .hostReadCompletion .., _ => execHostReadCompletion_kept _ _
  | .hostReadTimeout .., _ => execHostReadTimeout_kept _
  | .functionLevelReset .., _ => execFunctionLevelReset_kept _
  | .hostLinkDown, _ => keeps_act exec_hostLinkDown fun t => linkLost_kept (.refl t)
  | .hostLinkUp .., _ => execHostLinkUp_kept _ _ _
  | .d3hotEntry .., _ => keeps_act (exec_d3hotEntry _) fun t => .when (setFunc_kept (.refl t) ..)
  | .d0Return .., _ => keeps_act (exec_d0Return _) fun t => .when (sendPending_kept (setFunc_kept (.refl t) ..) _)
  | .doeRequest .., _ => execDoeRequest_kept _
  | .doeAbort, _ => keeps_act exec_doeAbort fun t => .when (record_kept (.lit (.refl t) rfl id) _)
  | .stageSet .., _ => keeps_command (exec_stageSet _) fun t _ => stageBody_kept (.refl t) ..
  | .stageCheck .., _ => keeps_command (exec_stageCheck _) fun t _ => stageCheckBody_kept (.refl t) ..
  | .stagePost .., _ => keeps_command (exec_stagePost _) fun t _ => stagePostBody_kept (.refl t) ..
  | .stageDiscard .., _ => keeps_command (exec_stageDiscard _) fun t _ => stageDiscardBody_kept (.refl t) ..
  | .stageRead .., _ => keeps_command (exec_stageRead _) fun t _ => stageReadBody_kept (.refl t) ..
  | .planLoad .., _ => keeps_command (exec_planLoad _ _) fun t _ => planLoadBody_kept (.refl t) ..
  | .planAdmit .., _ => keeps_command (exec_planAdmit _) fun t _ => planAdmitBody_kept (.refl t) ..
  | .planActivate .., _ => keeps_command (exec_planActivate _) fun t _ => planActivateBody_kept (.refl t) ..
  | .planRetire .., _ => keeps_command (exec_planRetire _) fun t _ => planRetireBody_kept (.refl t) ..
  | .tariffRead .., _ => keeps_command (exec_tariffRead _) fun t _ => tariffReadBody_kept (.refl t) ..
  | .ctxBind .., _ => keeps_command (exec_ctxBind _) fun t _ => ctxBindBody_kept (.refl t) ..
  | .ctxRoot .., _ => keeps_command (exec_ctxRoot _) fun t _ => ctxRootBody_kept (.refl t) ..
  | .xlateInval .., _ => keeps_command (exec_xlateInval _) fun t _ => xlateInvalBody_kept (.refl t) ..
  | .ctxClear .., _ => keeps_command (exec_ctxClear _) fun t _ => ctxClearBody_kept (.refl t) ..
  | .deedSet .., _ => keeps_command (exec_deedSet _) fun t _ => deedSetBody_kept (.refl t) ..
  | .deedRead .., _ => keeps_command (exec_deedRead _) fun t _ => deedReadBody_kept (.refl t) ..
  | .winForce .., _ => keeps_command (exec_winForce _ _) fun t _ => winForceBody_kept (.refl t) ..
  | .memPoisonRead .., _ => keeps_command (exec_memPoisonRead _) fun t _ => memPoisonReadBody_kept (.refl t) ..
  | .memRetire .., _ => keeps_command (exec_memRetire _) fun t _ => memRetireBody_kept (.refl t) ..
  | .memRetireList .., _ => keeps_command (exec_memRetireList _) fun t _ => memRetireListBody_kept (.refl t) ..
  | .memScrub .., _ => keeps_command (exec_memScrub _) fun t _ => memScrubBody_kept (.refl t) ..
  | .tallyAssign .., _ => keeps_command (exec_tallyAssign _) fun t _ => tallyAssignBody_kept (.refl t) ..
  | .tallyRead .., _ => keeps_command (exec_tallyRead _) fun t _ => tallyReadBody_kept (.refl t) ..
  | .tallySet .., _ => keeps_command (exec_tallySet _) fun t _ => tallySetBody_kept (.refl t) ..
  | .dmaQueueAssign .., _ => keeps_command (exec_dmaQueueAssign _) fun t _ => dmaQueueAssignBody_kept (.refl t) ..
  | .dmaSubmit .., _ => keeps_command (exec_dmaSubmit _) fun t _ => dmaSubmitBody_kept (.refl t) ..
  | .dmaQueueRead .., _ => keeps_command (exec_dmaQueueRead _) fun t _ => dmaQueueReadBody_kept (.refl t) ..
  | .dmaFlush .., _ => keeps_command (exec_dmaFlush _) fun t _ => dmaFlushBody_kept (.refl t) ..
  | .partRead .., _ => keeps_command (exec_partRead _) fun t _ => partReadBody_kept (.refl t) ..
  | .partOwners .., _ => keeps_command (exec_partOwners _) fun t _ => stageBody_kept (.refl t) ..
  | .partShares .., _ => keeps_command (exec_partShares _) fun t _ => stageBody_kept (.refl t) ..
  | .partSeal .., _ => keeps_command (exec_partSeal _) fun t _ => partSealBody_kept (.refl t) ..
  | .leatConfig .., _ => keeps_command (exec_leatConfig _) fun t _ => leatConfigBody_kept (.refl t) ..
  | .leatTrain .., _ => keeps_command (exec_leatTrain _) fun t _ => leatTrainBody_kept (.refl t) ..
  | .leatStatus .., _ => keeps_command (exec_leatStatus _) fun t _ => leatStatusBody_kept (.refl t) ..
  | .leatSave .., _ => keeps_command (exec_leatSave _) fun t _ => leatSaveBody_kept (.refl t) ..
  | .siteCapRead .., _ => keeps_command (exec_siteCapRead _) fun t _ => siteCapReadBody_kept (.refl t) ..
  | .siteReset .., _ => keeps_command (exec_siteReset _ _) fun t _ => siteResetBody_kept (.refl t) ..
  | .purseRead .., _ => keeps_command (exec_purseRead _) fun t _ => purseReadBody_kept (.refl t) ..
  | .siteBreachClear .., _ => keeps_command (exec_siteBreachClear _) fun t _ => siteBreachClearBody_kept (.refl t) ..
  | .turnRecordRead .., _ => keeps_command (exec_turnRecordRead _) fun t _ => turnRecordReadBody_kept (.refl t) ..
  | .fabStatsRead .., _ => keeps_command (exec_fabStatsRead _) fun t _ => fabStatsReadBody_kept (.refl t) ..
  | .fabMissRead .., _ => keeps_command (exec_fabMissRead _) fun t _ => fabMissReadBody_kept (.refl t) ..
  | .ledgerRead .., _ => keeps_command (exec_ledgerRead _) fun t _ => ledgerReadBody_kept (.refl t) ..
  | .ledgerRelease .., _ => keeps_command (exec_ledgerRelease _) fun t _ => ledgerReleaseBody_kept (.refl t) ..
  | .ledgerOvfRead .., _ => keeps_command (exec_ledgerOvfRead _) fun t _ => ledgerOvfReadBody_kept (.refl t) ..
  | .lcAdvance .., _ => keeps_command (exec_lcAdvance _) fun t _ => lcAdvanceBody_kept (.refl t) ..
  | .warrantLoad .., _ => keeps_command (exec_warrantLoad _) fun t _ => warrantLoadBody_kept (.refl t) ..
  | .warrantRead .., _ => keeps_command (exec_warrantRead _) fun t _ => warrantReadBody_kept (.refl t) ..
  | .attestQuote .., _ => keeps_command (exec_attestQuote _) fun t _ => attestQuoteBody_kept (.refl t) ..
  | .fwChunk .., _ => keeps_command (exec_fwChunk _) fun t _ => fwChunkBody_kept (.refl t) ..
  | .fwStatus .., _ => keeps_command (exec_fwStatus _) fun t _ => fwStatusBody_kept (.refl t) ..
  | .fwActivate .., _ => keeps_command (exec_fwActivate _ _) fun t _ => fwActivateBody_kept (.refl t) ..
  | .fwDiscard .., _ => keeps_command (exec_fwDiscard _) fun t _ => fwDiscardBody_kept (.refl t) ..
  | .pwrDomain .., _ => keeps_command (exec_pwrDomain _) fun t _ => pwrDomainBody_kept (.refl t) ..
  | .thermRead .., _ => keeps_command (exec_thermRead _) fun t _ => thermReadBody_kept (.refl t) ..
  | .thermWarn .., _ => keeps_command (exec_thermWarn _) fun t _ => thermWarnBody_kept (.refl t) ..
  | .profSet .., _ => keeps_command (exec_profSet _) fun t _ => profSetBody_kept (.refl t) ..
  | .ageRead .., _ => keeps_command (exec_ageRead _) fun t _ => ageReadBody_kept (.refl t) ..
  | .agePolicy .., _ => keeps_command (exec_agePolicy _) fun t _ => agePolicyBody_kept (.refl t) ..
  | .turnInEdgeMissing, _ => keeps_actAon exec_turnInEdgeMissing fun t => withHealth_kept (.lit (.refl t) rfl id)
  | .serdesRefclkLoss, _ => keeps_actAon exec_serdesRefclkLoss fun t => withHealth_kept (.lit (.refl t) rfl id)
  | .serdesRefclkReturn, _ => keeps_actAon exec_serdesRefclkReturn fun t => withHealth_kept (.lit (.refl t) rfl id)
  | .slotSuspend .., _ => execSlotSuspend_kept _
  | .mctpSpdmMessage .., _ => keeps_act (exec_mctpSpdmMessage _) fun t => emit_kept (takeFresh_kept (.refl t)) _
  | .cxlIoRequest .., _ => keeps_act (exec_cxlIoRequest _ _) fun t => .when (emit_kept (.refl t) _)
  | .vfEnableWrite .., _ => execVfEnableWrite_kept _ _
  | .directoryWayEmptied, _ => keeps_act exec_directoryWayEmptied fun t => emptyWays_kept (.refl t)
  | .kyoharReportsRunning, _ => execKyoharReportsRunning_kept

/-! ### The three rows that move the count -/

theorem turnMod_eq (n : Nat) : turnMod n = n % 2 ^ 48 := rfl

theorem pwrok_of_live {s : State} (h : live s = true) : s.pins.pwrok = true := by
  simp only [live, aon, Bool.and_eq_true] at h
  exact h.1.1

/-- What the tick is on a hub that answers: its own work, or the stretch segment that a request in hand begins (R81). -/
theorem execTurnTick_live {s : State} (h : live s = true) : execTurnTick s =
    .next (if s.turn.kNow ≠ 0 then serveArrivals (enterStretch (fresh s)) else tick (fresh s)) :=
  (if_pos h).trans (act_live h)

/-- A tick advances the count on a hub that runs, unless a stretch request in hand moves it; with PWROK high the timer alone still
goes on (R43, R81, R511). -/
theorem execTurnTick_count (s : State) : ∃ t, execTurnTick s = .next t ∧ t.turn.count =
    if s.pins.pwrok = true ∧ (live s = true → s.turn.kNow = 0) then turnMod (s.turn.count + 1) else s.turn.count := by
  cases hl : live s with
  | true =>
    rw [execTurnTick_live hl]
    refine ⟨_, rfl, ?_⟩
    by_cases stretch : s.turn.kNow = 0
    · rw [if_neg (not_not.mpr stretch), if_pos ⟨pwrok_of_live hl, fun _ => stretch⟩]
      exact (tick_held (fresh s)).2
    · rw [if_pos stretch, if_neg fun h => stretch (h.2 rfl)]
      exact (serveArrivals_kept (enterStretch_kept (Kept.fresh s))).count
  | false =>
    unfold execTurnTick
    rw [hl, if_neg (by decide)]
    by_cases hp : s.pins.pwrok = true
    · rw [if_pos hp, if_pos ⟨hp, nofun⟩]
      exact ⟨_, rfl, (observeTick_kept (endWarrants_kept (.refl _) _)).count⟩
    · rw [if_neg hp, if_neg fun h => hp h.1]
      exact ⟨_, rfl, rfl⟩

/-- The count stays or becomes the one that a marker carries. -/
def KeptOrTaken (m : Marker) (s t : State) : Prop := t.turn.count = s.turn.count ∨ t.turn.count = turnMod m.turn

theorem Kept.keptOrTaken {s t : State} (h : Kept s t) (m : Marker) : KeptOrTaken m s t := .inl h.count

theorem KeptOrTaken.kept {m : Marker} {s t u : State} (h : KeptOrTaken m s t) (k : Kept t u) : KeptOrTaken m s u := by
  unfold KeptOrTaken
  rwa [k.count]

theorem Kept.thenTaken {m : Marker} {s t u : State} (k : Kept s t) (h : KeptOrTaken m t u) : KeptOrTaken m s u := by
  unfold KeptOrTaken
  rwa [← k.count]

theorem adoptCount_keptOrTaken (s : State) (m : Marker) : KeptOrTaken m s (adoptCount s m) := by
  unfold adoptCount
  dsimp only
  split
  · exact .inl rfl
  · exact .inr (Kept.ite (endWarrants_kept (.refl _) _) (.refl _)).count

theorem parentMarker_keptOrTaken (s : State) (m : Marker) : KeptOrTaken m s (parentMarker s m) := by
  have h := compareParams_kept (alignTo_kept (.refl (adoptCount s m)) m) m
  exact (adoptCount_keptOrTaken s m).kept (.ite (resumeLeat_kept h) h)

/-- Only the parent's marker gives its count (R43, R361). -/
theorem execTurnMarker_count (l : Fin 64) (m : Marker) (s : State) :
    ∃ t, execTurnMarker l m s = .next t ∧ KeptOrTaken m s t := by
  cases hl : live s with
  | false => exact ⟨_, act_dead hl, .inl rfl⟩
  | true =>
    refine ⟨_, act_live hl, ?_⟩
    dsimp only
    split
    · exact .inl rfl
    · split
      · exact (excludeLink_kept (Kept.fresh s) ..).keptOrTaken m
      · generalize hu : elect _ = u
        have h : Kept s u := hu ▸ elect_kept (.lit (Kept.fresh s) rfl id)
        split
        · exact h.thenTaken (parentMarker_keptOrTaken u m)
        · exact (otherMarker_kept h ..).keptOrTaken m

/-- A cold start begins at 0 (R43, Table 17-1). -/
theorem execPwrokRise_count {s : State} (env : BootEnv) (h : s.pins.pwrok = false) :
    ∃ t, execPwrokRise env s = .next t ∧ t.turn.count = 0 := by
  unfold execPwrokRise
  rw [h, if_neg (by decide)]
  exact ⟨_, rfl, (bootStep_kept (.refl (coldReset s env.entropy)) (fun t => .refl t) fun t => fromBank_kept (.refl t) ..).count⟩

theorem movesTurn_eq_false {i : Instr} (tick : i ≠ .turnTick) (marker : ∀ l m, i ≠ .turnMarker l m)
    (rise : ∀ e, i ≠ .pwrokRise e) : movesTurn i = false := by
  unfold movesTurn
  split
  · exact absurd rfl tick
  · exact absurd rfl (marker _ _)
  · exact absurd rfl (rise _)
  · rfl

/-- A row's next state is the one that its lemma speaks of. -/
theorem next_of {row : Host.Outcome State Fault Refusal} {t : State} {p : State → Prop} (h : ∃ u, row = .next u ∧ p u)
    (x : row = .next t) : p t := by
  obtain ⟨u, hu, hp⟩ := h
  cases hu.symm.trans x
  exact hp

/-- Settles O9: `exec_kept` for every row but three, and what each of the three does to the count. -/
theorem onlyTicksAndMarkersMoveTheTurn : Obligations.OnlyTicksAndMarkersMoveTheTurn := by
  refine ⟨fun i s t x tick marker rise => ?_, fun s t x => ?_, fun l m s t x => ?_, fun env s t low x => ?_⟩
  · exact (next_of (exec_kept (movesTurn_eq_false tick marker rise) s) x).count
  · exact next_of (execTurnTick_count s) x
  · exact next_of (execTurnMarker_count l m s) x
  · exact next_of (execPwrokRise_count env low) x

end Sys2Proof.Machine
end

section
/-! PROOFS. The reset state (O2), the bucket clock and the stretching of a Turn (O14), the commit window (O15), and the
Headrace (O16). -/

namespace Sys2Proof.Machine

open Sys2Proof.Safety

/-! ### Idling -/

/-- With no command waiting a step changes nothing (log entry 2). -/
theorem step_idles {s : State} (h : s.pending = []) : step s = .next s := by
  rw [step, h]

/-- No row has bits, so a word puts nothing into the queue. -/
theorem withFetchWord_eq (s : State) (nbits w : Nat) : s.withFetchWord nbits w = s := rfl

/-- Settles O2: the reset state's fields by evaluation, and the two ways in which nothing happens. -/
theorem resetStateAndIdling : Obligations.ResetStateAndIdling :=
  ⟨rfl, rfl, rfl, rfl, rfl, rfl, fun _ => step_idles, fun s nbits w => ⟨rfl, withFetchWord_eq s nbits w⟩⟩

/-! ### The bucket clock -/

section
variable {s : State} (hl : live s = true)
include hl

/-- A bucket before B127 is followed by the next (R74). -/
theorem bucketBoundary_nextBucket (h : s.turn.bucket < 127) :
    Gives .bucketBoundary s (serveArrivals (bucketLevels (startBucket
      { fresh s with turn := { s.turn with bucket := s.turn.bucket + 1 } }))) :=
  gives_act (exec_bucketBoundary ..) hl (congrArg serveArrivals (if_pos h))

variable (h : 127 ≤ s.turn.bucket)
include h

/-- After B127 a request in hand begins a stretch segment (R81). -/
theorem bucketBoundary_stretches (k : s.turn.kNow ≠ 0) : Gives .bucketBoundary s (serveArrivals (enterStretch (fresh s))) :=
  gives_act (exec_bucketBoundary ..) hl (congrArg serveArrivals ((if_neg (Nat.not_lt.mpr h)).trans (if_pos k)))

/-- With none in hand the tick follows (R43). -/
theorem bucketBoundary_awaitsTick (k : s.turn.kNow = 0) : Gives .bucketBoundary s (serveArrivals (fresh s)) :=
  gives_act (exec_bucketBoundary ..) hl
    (congrArg serveArrivals ((if_neg (Nat.not_lt.mpr h)).trans (if_neg (not_not.mpr k))))

end

/-! ### Stretch requests -/

section
variable {s : State} (hl : live s = true)
include hl

theorem stretchDecision_sends {n : Nat} (h : n ≠ 0) :
    let k := min 255 (ceilDiv n (max 1 (s.turn.u * s.set.bucketLen)))
    Gives (.stretchDecision n) s
      (sendStretch (takeStretch (fresh s) k s.turn.count s.leat.hub) none k s.turn.count s.leat.hub) :=
  gives_act (exec_stretchDecision ..) hl (if_neg h)

theorem stretchDecision_none : Gives (.stretchDecision 0) s (fresh s) :=
  gives_act (exec_stretchDecision ..) hl (if_pos rfl)

variable {l : Fin 64} (up : (linkOf s l).state = .inService) (k : Fin 256) (turn hub : Nat)
include up

/-- A request over a link in service stands where it is the larger, and goes on where none as large went before (R81, R363). -/
theorem stretchRequest_taken : Gives (.stretchRequest l k turn hub) s
    (if s.turn.forwarded.any (fun x => x.1 = turn && k ≤ x.2) then takeStretch (fresh s) k turn hub
     else sendStretch (takeStretch (fresh s) k turn hub) (some l.val) k turn hub) :=
  gives_act (exec_stretchRequest ..) hl (if_neg (not_not.mpr up))

theorem stretchRequest_stops (h : ∃ x ∈ s.turn.forwarded, x.1 = turn ∧ k.val ≤ x.2) :
    Gives (.stretchRequest l k turn hub) s (takeStretch (fresh s) k turn hub) := by
  have before : s.turn.forwarded.any (fun x => x.1 = turn && k ≤ x.2) = true := by simpa using h
  simpa only [before, if_true] using stretchRequest_taken hl up k turn hub

theorem stretchRequest_goesOn (h : ∀ x ∈ s.turn.forwarded, x.1 = turn → x.2 < k.val) :
    Gives (.stretchRequest l k turn hub) s
      (sendStretch (takeStretch (fresh s) k turn hub) (some l.val) k turn hub) := by
  have first : s.turn.forwarded.any (fun x => x.1 = turn && k ≤ x.2) = false := by simpa using h
  simpa only [first, Bool.false_eq_true, if_false] using stretchRequest_taken hl up k turn hub

end

/-- Settles O14: the three cases of a boundary, and what a decision and a request do. -/
theorem bucketsAndStretchSegments : Obligations.BucketsAndStretchSegments := fun _ hl =>
  ⟨bucketBoundary_nextBucket hl, bucketBoundary_stretches hl, bucketBoundary_awaitsTick hl,
    fun _ => stretchDecision_sends hl, stretchDecision_none hl,
    fun _ k turn hub up => ⟨stretchRequest_stops hl up k turn hub, stretchRequest_goesOn hl up k turn hub⟩⟩

/-! ### The commit window -/

section
variable {s : State} (hl : live s = true)
include hl

theorem commitWindow_opens (h : s.turn.commit = false) : Gives .commitWindow s
    (endGroups (releaseInputs (applyDue { fresh s with turn := { s.turn with commit := true } } (s.turn.count + 1))) 0) :=
  gives_act (exec_commitWindow ..) hl (if_neg (ne_true_of_eq_false h))

theorem commitWindow_open (h : s.turn.commit = true) : Gives .commitWindow s (fresh s) :=
  gives_act (exec_commitWindow ..) hl (if_pos h)

theorem turnTick_ticks (h : s.turn.kNow = 0) : Gives .turnTick s (tick (fresh s)) := by
  rw [Gives, exec_turnTick, execTurnTick_live hl, if_neg (not_not.mpr h)]

theorem turnTick_stretches (h : s.turn.kNow ≠ 0) : Gives .turnTick s (serveArrivals (enterStretch (fresh s))) := by
  rw [Gives, exec_turnTick, execTurnTick_live hl, if_pos h]

end

/-- Settles O15: the window's two cases, and the tick with and without a stretch request in hand. -/
theorem commitWindowOpensOnce : Obligations.CommitWindowOpensOnce := fun _ hl =>
  ⟨commitWindow_opens hl, commitWindow_open hl, turnTick_ticks hl, turnTick_stretches hl⟩

/-! ### The Headrace -/

section
variable {s : State} (hl : live s = true)
include hl

theorem markerLoss_holdsOver (follower : s.turn.isHeadrace = false) (h : coupled s = true) : Gives .markerLoss s
    (enterHoldover { fresh s with turn := { s.turn with heard := [], heardLast := [] } }) := by
  have lost : ¬ (s.turn.isHeadrace || !coupled s) = true := by simp [follower, h]
  exact gives_act (exec_markerLoss ..) hl (if_neg lost)

theorem headraceTimeout_elects (follower : s.turn.isHeadrace = false) :
    Gives .headraceTimeout s (elect (forgetHead (fresh s) s.turn.headrace)) :=
  gives_act (exec_headraceTimeout ..) hl (if_neg (ne_true_of_eq_false follower))

theorem headraceTimeout_onHeadrace (leads : s.turn.isHeadrace = true) : Gives .headraceTimeout s (fresh s) :=
  gives_act (exec_headraceTimeout ..) hl (if_pos leads)

variable {l : Fin 64} {m : Marker} (up : (linkOf s l).state = .inService)
include up

/-- A far hub below the protocol floor costs the link (R365). -/
theorem turnMarker_belowFloor (h : m.protoMax < s.set.protoFloor) :
    Gives (.turnMarker l m) s (excludeLink (fresh s) l 4 0x6B) :=
  gives_act (exec_turnMarker ..) hl ((if_neg (not_not.mpr up)).trans (if_pos h))

variable (h : s.set.protoFloor ≤ m.protoMax) {t : State}
  (elected : elect { fresh s with turn := { s.turn with heard := s.turn.heard.put l (m.hops, m.sysMin, m.headrace) } } = t)
include h elected

/-- A marker that is heard elects, and acts by the link that it came over (R88, R361, R362). -/
theorem turnMarker_heard :
    Gives (.turnMarker l m) s (if t.turn.parent = some l.val then parentMarker t m else otherMarker t l m) := by
  subst elected
  exact gives_act (exec_turnMarker ..) hl ((if_neg (not_not.mpr up)).trans (if_neg (Nat.not_lt.mpr h)))

theorem turnMarker_fromParent (p : t.turn.parent = some l.val) : Gives (.turnMarker l m) s (parentMarker t m) := by
  simpa only [if_pos p] using turnMarker_heard hl up h elected

theorem turnMarker_fromOther (p : t.turn.parent ≠ some l.val) : Gives (.turnMarker l m) s (otherMarker t l m) := by
  simpa only [if_neg p] using turnMarker_heard hl up h elected

end

/-! ### The clock source -/

/-- A row that the always-on domain sees gives what its effect makes of the fresh state. -/
theorem gives_actAon {i : Instr} {s t : State} {f : State → State} (x : exec i s = actAon s f) (ha : aon s = true)
    (h : f (fresh s) = t) : Gives i s t := by
  rw [Gives, x, actAon_on ha, h]

section
variable {s : State} (ha : aon s = true)
include ha

/-- A row that may change the health of the source elects exactly where it does, with WARM_RST# high (R84-R86, R511). -/
theorem gives_withHealth {i : Instr} {f : State → State} {u : State}
    (x : exec i s = actAon s fun t => withHealth t f) (h : f (fresh s) = u) :
    Gives i s (if srcHealthy s = srcHealthy u ∨ s.pins.warmLow = true then u else elect u) :=
  gives_actAon x ha (h ▸ rfl)

/-- The effect of an edge, by the count of good edges that it leaves (R84). -/
theorem turnInEdge_counts (p : Nat) (o : Int) {n : Nat} (h : (if edgeGood s p then min 16 (s.turn.edges + 1) else 0) = n) :
    let u := { fresh s with turn := { s.turn with edges := n, inOffset := if s.turn.src = 2 then o else s.turn.inOffset } }
    Gives (.turnInEdge p o) s (if srcHealthy s = srcHealthy u ∨ s.pins.warmLow = true then u else elect u) := by
  subst h
  exact gives_withHealth ha (exec_turnInEdge ..) rfl

end

/-- Settles O16: the protocol's events on a hub that answers, and the source's while PD29 lives. -/
theorem headraceEventsElect : Obligations.HeadraceEventsElect :=
  ⟨fun _ hl => ⟨markerLoss_holdsOver hl, headraceTimeout_elects hl, headraceTimeout_onHeadrace hl,
      fun _ _ up => ⟨turnMarker_belowFloor hl up,
        fun h => ⟨turnMarker_fromParent hl up h rfl, turnMarker_fromOther hl up h rfl⟩⟩⟩,
    fun _ ha => ⟨fun p o good => turnInEdge_counts ha p o (if_pos good),
      fun p o off => turnInEdge_counts ha p o (if_neg (ne_true_of_eq_false off)),
      gives_withHealth ha (exec_turnInEdgeMissing ..) rfl, gives_withHealth ha (exec_serdesRefclkLoss ..) rfl,
      gives_withHealth ha (exec_serdesRefclkReturn ..) rfl⟩⟩

end Sys2Proof.Machine
end

section
/-! PROOFS. The Shoe intake areas (O23): the order of a queue, and a row that is accepted, refused or waits. -/

namespace Sys2Proof.Machine

open Sys2Proof.Safety

/-! ### The order of rows -/

/-- No row of a queue goes before one that stands ahead of it: the queue rises in (Turn, REQ_ID) (R92, R131). -/
abbrev InOrder (q : List ShoeRow) : Prop := q.Pairwise fun a b => b.before a = false

theorem ShoeRow.before_iff {a b : ShoeRow} : a.before b = true ↔ a.turn < b.turn ∨ a.turn = b.turn ∧ a.reqId < b.reqId := by
  simp [ShoeRow.before]

theorem ShoeRow.before_asymm {a b : ShoeRow} (h : a.before b = true) : b.before a = false := by
  rw [← Bool.not_eq_true, before_iff]
  rw [before_iff] at h
  omega

theorem ShoeRow.before_trans {a b c : ShoeRow} (h : a.before b = true) (k : b.before c = true) : a.before c = true := by
  rw [before_iff] at *
  omega

theorem mem_insRow {x z : ShoeRow} {q : List ShoeRow} (h : z ∈ insRow x q) : z = x ∨ z ∈ q := by
  induction q with
  | nil => exact .inl (List.mem_singleton.mp h)
  | cons y r ih =>
    rw [insRow] at h
    split at h
    · exact List.mem_cons.mp h
    · rcases List.mem_cons.mp h with rfl | h
      · exact .inr List.mem_cons_self
      · exact (ih h).imp_right (List.mem_cons_of_mem y)

theorem length_insRow (x : ShoeRow) (q : List ShoeRow) : (insRow x q).length = q.length + 1 := by
  induction q with
  | nil => rfl
  | cons y r ih =>
    rw [insRow]
    split
    · rfl
    · rw [List.length_cons, ih, List.length_cons]

/-- A row goes in before the first that it goes before, so the queue goes on rising. -/
theorem InOrder.insRow {q : List ShoeRow} (h : InOrder q) (x : ShoeRow) : InOrder (insRow x q) := by
  induction q with
  | nil => exact List.pairwise_singleton ..
  | cons y r ih =>
    obtain ⟨head, tail⟩ := List.pairwise_cons.mp h
    rw [Machine.insRow]
    split
    next first =>
      refine List.pairwise_cons.mpr ⟨fun z hz => ?_, h⟩
      rcases List.mem_cons.mp hz with rfl | hz
      · exact ShoeRow.before_asymm first
      · rw [← Bool.not_eq_true]
        intro overtakes
        exact Bool.false_ne_true ((head z hz).symm.trans (ShoeRow.before_trans overtakes first))
    next later =>
      refine List.pairwise_cons.mpr ⟨fun z hz => ?_, ih tail⟩
      rcases mem_insRow hz with rfl | hz
      · exact Bool.eq_false_of_not_eq_true later
      · exact head z hz

/-! ### Queues after an update of an array's record -/

theorem shoeQueue_setLog {s : State} {n : Nat} {v : LogArr} (h : v.queue = (logArr s n).queue) (la p : Nat) :
    shoeQueue (setLog s n v) la p = shoeQueue s la p := by
  unfold shoeQueue
  by_cases e : n = la
  · subst e
    rw [setLog_logArr_same, h]
  · rw [setLog_logArr_other s v e]

theorem shoeQueue_setQueue_same (s : State) (la p : Nat) (q : List ShoeRow) : shoeQueue (setQueue s la p q) la p = q := by
  rw [shoeQueue, setQueue, setLog_logArr_same, Tbl.get_put_same]

theorem shoeQueue_setQueue_other (s : State) {n k la p : Nat} (q : List ShoeRow) (h : la ≠ n ∨ p ≠ k) :
    shoeQueue (setQueue s n k q) la p = shoeQueue s la p := by
  unfold shoeQueue setQueue
  by_cases e : n = la
  · subst e
    rw [setLog_logArr_same, Tbl.get_put_other _ _ _ (h.resolve_left fun g => g rfl).symm]
  · rw [setLog_logArr_other s _ e]

theorem shoeQueue_emit (s : State) (o : Output) (la p : Nat) : shoeQueue (emit s o) la p = shoeQueue s la p := rfl

theorem shoeQueue_record (s : State) (r : Rec) (la p : Nat) : shoeQueue (record s r) la p = shoeQueue s la p := by
  rw [shoeQueue, logArr, (record_noted s r).arr]
  rfl

/-! ### A write to an intake area -/

/-- The row that a write brings (Table 3-11). -/
def rowOf (s : State) (ctx : Option Nat) (b : Bytes) : ShoeRow :=
  { turn := now s, reqId := rd b 0 4, inOff := rd b 4 4, outOff := rd b 8 4, tag := rd b 12 2, last := bit (rd b 14 1) 0, ctx := ctx }

/-- A row joins its partition's queue, and its REQ_ID the accepted ones (R92, R132). -/
def joinRow (s : State) (la part : Nat) (r : ShoeRow) : State :=
  let t := setQueue s la part (insRow r (shoeQueue s la part))
  setLog t la { logArr t la with accepted := (logArr t la).accepted ++ [r.reqId] }

theorem shoeQueue_joinRow (s : State) (n k : Nat) (r : ShoeRow) (la p : Nat) :
    shoeQueue (joinRow s n k r) la p = shoeQueue (setQueue s n k (insRow r (shoeQueue s n k))) la p := by
  apply shoeQueue_setLog
  rfl

theorem shoeQueue_joinRow_same (s : State) (la part : Nat) (r : ShoeRow) :
    shoeQueue (joinRow s la part r) la part = insRow r (shoeQueue s la part) :=
  (shoeQueue_joinRow ..).trans (shoeQueue_setQueue_same ..)

theorem shoeQueue_joinRow_other (s : State) {n k la p : Nat} (r : ShoeRow) (h : la ≠ n ∨ p ≠ k) :
    shoeQueue (joinRow s n k r) la p = shoeQueue s la p :=
  (shoeQueue_joinRow ..).trans (shoeQueue_setQueue_other s _ h)

section
variable {s : State} {w : ShoeWrite}

theorem takeRow_refuses {c : Nat} (h : shoeFault s w.la w.off w.part w.bytes = some c) :
    takeRow s w = emit (record s (shoeRec s c w.la w.part)) .errorCompletion := by
  rw [takeRow, shoeTake, h]
  rfl

theorem takeRow_accepts (h : shoeFault s w.la w.off w.part w.bytes = none) :
    takeRow s w = emit (joinRow s w.la w.part (rowOf s w.ctx w.bytes)) .ack := by
  rw [takeRow, shoeTake, h]
  rfl

/-- A write that nothing refuses finds room (R132). -/
theorem shoeFault_none_room {la k part : Nat} {b : Bytes} (h : shoeFault s la k part b = none) :
    (shoeQueue s la part).length < 255 := by
  unfold shoeFault at h
  dsimp only at h
  split at h
  · cases h
  · split_ifs at h with _ _ _ _ full
    exact Nat.lt_of_not_le full

variable (up : FabricUp s)
include up

theorem shoeSubmit_waits (h : s.turn.commit = true) :
    Gives (.shoeSubmit w) s (enqueue (fresh s) (.shoe w) [] true true) := by
  have on : ¬ (!domainOn s 28) = true := by simp [up.2]
  exact gives_act (exec_shoeSubmit ..) up.1 ((if_neg on).trans (if_pos h))

theorem shoeSubmit_takes (h : s.turn.commit = false) : Gives (.shoeSubmit w) s (takeRow (fresh s) w) := by
  have on : ¬ (!domainOn s 28) = true := by simp [up.2]
  exact gives_act (exec_shoeSubmit ..) up.1 ((if_neg on).trans (if_neg (ne_true_of_eq_false h)))

end

/-- Settles O23: what `takeRow` does to the queues, and the order that `insRow` keeps. -/
theorem shoeRowsAreAcceptedOrRefused : Obligations.ShoeRowsAreAcceptedOrRefused := by
  refine fun s w up => ⟨shoeSubmit_waits up, fun early => ⟨fun c fault => ?_, fun sound => ?_⟩⟩
  · have gives := shoeSubmit_takes (w := w) up early
    rw [takeRow_refuses (s := fresh s) fault] at gives
    exact ⟨_, gives, rfl, fun la p => (shoeQueue_emit ..).trans (shoeQueue_record ..)⟩
  · have gives := shoeSubmit_takes (w := w) up early
    rw [takeRow_accepts (s := fresh s) sound] at gives
    have joins := shoeQueue_joinRow_same (fresh s) w.la w.part (rowOf s w.ctx w.bytes)
    refine ⟨_, rowOf s w.ctx w.bytes, gives, rfl, rfl, rfl, joins, ?_, fun sorted => ?_,
      fun la p other => shoeQueue_joinRow_other (fresh s) _ other⟩
    · exact (congrArg List.length joins).trans (length_insRow ..) ▸ shoeFault_none_room sound
    · exact joins.symm ▸ InOrder.insRow sorted _

end Sys2Proof.Machine
end

section
/-! PROOFS. The plan commands (O60). -/

namespace Sys2Proof.Machine

open Sys2Proof.Safety

/-! ### What the start of a packet leaves of the plans -/

@[simp] theorem planOf_begun (s : State) (op : Nat) (c : Packet) (h : Nat) : planOf (begun s op c) h = planOf s h := by
  rw [planOf, begun_plans, planOf]

@[simp] theorem freeHandle_begun (s : State) (op : Nat) (c : Packet) : freeHandle (begun s op c) = freeHandle s := by
  simp only [freeHandle, planOf_begun]

@[simp] theorem storeOk_begun (s : State) (op : Nat) (c : Packet) (part a n : Nat) :
    storeOk (begun s op c) part a n = storeOk s part a n := by
  rw [begun_rest]
  rfl

@[simp] theorem turnFor_begun (s : State) (op : Nat) (c : Packet) (t idx : Nat) :
    turnFor (begun s op c) t idx = turnFor s t idx := by
  rw [begun_rest]
  rfl

/-! ### Handles -/

/-- A handle of the sender's partition, or any for partition 0, whose plan is as the command asks (R57, R58). -/
theorem handleFor_ok {s : State} {c : Packet} {h idx : Nat} {ok : Plan → Bool} {p : Plan} (found : planOf s h = some p)
    (mine : partOf c = 0 ∨ p.part = partOf c) (fits : ok p = true) : handleFor s c h ok idx = .ok p := by
  have may : ¬ (partOf c ≠ 0 ∧ p.part ≠ partOf c) := by tauto
  simp only [handleFor, found, if_neg may, if_pos fits]

theorem takeoverFor_none (s : State) (h : Nat) (p : Plan) : takeoverFor s h 0xFFFF p = .ok none := if_pos rfl

/-! ### The works of the commands -/

section
variable {c : Packet} {s : State} {r : ReplyTo}

section
variable (h0 : zeroFrom c 3) (low : 64 ≤ c.p1.toNat) (high : c.p1.toNat ≤ 2 ^ 28)
include h0 low high

/-- The host refuses the read of the plan object: class 0x83 (R486). -/
theorem planLoadBody_hostRefuses : planLoadBody c none s r = (record s { cls := 0x83 }, bad 0) :=
  (reservedFrom_zero h0).trans (if_neg (by omega))

/-- A formed plan, with a store of its partition and a handle free, is loaded (R58). -/
theorem planLoadBody_loads {b : Bytes} {p : Plan} {h : Nat} (len : b.length = c.p1.toNat) (total : rd b 8 4 = c.p1.toNat)
    (formed : parsePlan b c.p2.toNat = some p) (mine : partOf c = 0 ∨ p.part = partOf c)
    (store : storeOk s p.part p.store p.totalLen = true) (free : freeHandle s = some h) :
    planLoadBody c (some b) s r = (setPlan (memPut s p.store b) h p, okay h) := by
  have may : ¬ (partOf c ≠ 0 ∧ p.part ≠ partOf c) := by tauto
  have sized : ¬ (b.length ≠ c.p1.toNat ∨ rd b 8 4 ≠ c.p1.toNat) := by tauto
  refine (reservedFrom_zero h0).trans ((if_neg (by omega)).trans ((if_neg sized).trans ?_))
  simp only [formed, loadPlan, if_neg may, store, free]
  rfl

end

section
variable {p : Plan} (found : planOf s c.p0.toNat = some p) (mine : partOf c = 0 ∨ p.part = partOf c)
include found mine

/-- A LOADED plan that takes over nothing is checked by `admitBoth`, and its verdict ends the command (R464). -/
theorem planAdmitBody_judges (h0 : zeroFrom c 4) (loaded : p.state = .loaded) (alone : c.p3 = 0xFFFF)
    (buffer : c.p1 = 0 ∨ 1040 ≤ c.p2.toNat) {x : Verdict × Bytes}
    (judged : admitBoth (designateNow s) c.p0.toNat { p with takeover := none } = x) :
    let t := designateNow s
    let out := if c.p1 = 0 then none else some (c.p1.toNat, x.2)
    (x.1 = none → planAdmitBody c s r =
      (setPlan t c.p0.toNat { p with takeover := none, state := .admitted }, .done .ok t.glob.tariffVer none out)) ∧
    (∀ st d, x.1 = some (st, d) → planAdmitBody c s r = (t, .done st d none out)) := by
  obtain ⟨v, rep⟩ := x
  have handle := handleFor_ok (ok := fun p => p.state = .loaded) (idx := 0) found mine (decide_eq_true loaded)
  have roomy : ¬ (c.p1 ≠ 0#64 ∧ c.p2.toNat < 1040) := fun h => buffer.elim h.1 (by omega)
  have takes : takeoverFor s c.p0.toNat c.p3.toNat p = .ok none := alone ▸ takeoverFor_none ..
  intro t out
  rw [planAdmitBody, reservedFrom_zero h0]
  simp only [handle, if_neg roomy, takes, judged]
  refine ⟨fun fit => ?_, fun st d unfit => ?_⟩
  · cases fit
    rfl
  · cases unfit
    rfl

/-- The activation of an ADMITTED plan that takes over nothing is filed for its Turn (R59). -/
theorem planActivateBody_files (h0 : zeroFrom c 3) (admitted : p.state = .admitted) (first : p.pendAct = none)
    (alone : p.takeover = none) (noOther : c.p2 = 0xFFFF) {t : Nat} (turn : turnFor s c.p1.toNat 1 = .ok t) :
    planActivateBody c s r = (setPlan s c.p0.toNat { p with pendAct := some (t, none, r) }, .interim t) := by
  have handle := handleFor_ok (ok := fun p => p.state = .admitted) (idx := 0) found mine (decide_eq_true admitted)
  have other : (if c.p2 = 0xFFFF#64 then none else some c.p2.toNat) = none := if_pos noOther
  rw [planActivateBody, reservedFrom_zero h0]
  simp only [handle, first, turn, other, alone]
  rfl

variable (h0 : zeroFrom c 2)
include h0

/-- A plan neither ACTIVE nor filed goes at once (R58). -/
theorem planRetireBody_frees (idle : p.state ≠ .active) (unfiled : p.pendAct = none) :
    planRetireBody c s r = (freePlan s c.p0.toNat, okay 0) := by
  have handle := handleFor_ok (ok := fun _ => true) (idx := 0) found mine rfl
  rw [planRetireBody, reservedFrom_zero h0]
  simp only [handle, if_neg idle, unfiled]

/-- The retirement of an ACTIVE plan is filed for its Turn (R59). -/
theorem planRetireBody_files (active : p.state = .active) (first : p.pendRet = none) {t : Nat}
    (turn : turnFor s c.p1.toNat 1 = .ok t) :
    planRetireBody c s r = (setPlan s c.p0.toNat { p with pendRet := some (t, some r) }, .interim t) := by
  have handle := handleFor_ok (ok := fun _ => true) (idx := 0) found mine rfl
  rw [planRetireBody, reservedFrom_zero h0]
  simp only [handle, if_pos active, first, turn, markRetire, found]
  rfl

end

/-- With P3 zero the tariff is the one in force (R62). -/
theorem tariffReadBody_inForce (h0 : zeroFrom c 3) (h : c.p2.toNat ≤ 0xFFFF) :
    tariffReadBody c s r = (s, output s.glob.tariffVer c.p0.toNat
      ((tariffBytes s s.set s.glob.tariffVer c.p2.toNat).take c.p1.toNat)) := by
  have p3 : c.p3 = 0#64 := h0 (3, c.p3) (by simp [paramsFrom])
  have rest : zeroFrom c 4 := fun x m => h0 x (List.mem_of_mem_drop (i := 1) (by simpa [paramsFrom] using m))
  have own : ¬ c.p3 = 1#64 := by simp [p3]
  have le1 : ¬ c.p3.toNat > 1 := by simp [p3]
  have same : ((List.range 16).any fun d => s.set.freqStep.get d 0 ≠ s.set.freqStep.get d 0) = false := by simp
  rw [tariffReadBody, reservedFrom_zero rest]
  simp only [if_neg (Nat.not_lt.mpr h), if_neg le1, if_neg own, same]
  rfl

end

/-- Settles O60, command by command, each by the ending of its work. -/
theorem planCommands : Obligations.PlanCommands := by
  intro s c
  refine ⟨fun ha h0 low high => ⟨packet_ends rfl ha (planLoadBody_hostRefuses h0 low high),
      fun b p h len total formed mine store free => packet_ends rfl ha ?_⟩,
    fun p found mine => ⟨fun ha h0 loaded alone buffer => ?_, fun ha h0 admitted first alone noOther t turn => ?_,
      fun ha h0 => ⟨fun idle unfiled => ?_, fun active first t turn => ?_⟩⟩,
    fun ha h0 h => packet_ends rfl ha ?_⟩
  · exact planLoadBody_loads h0 low high len total formed mine (by rwa [storeOk_begun]) (by rwa [freeHandle_begun])
  · obtain ⟨admits, refuses⟩ := planAdmitBody_judges (r := replyTo s 0x0202 c)
      ((planOf_begun s 0x0202 c _).trans found) mine h0 loaded alone buffer rfl
    exact ⟨fun fit => packet_ends rfl ha (admits fit), fun st d unfit => packet_ends rfl ha (refuses st d unfit)⟩
  · exact packet_ends rfl ha (planActivateBody_files ((planOf_begun ..).trans found) mine h0 admitted first alone noOther
      ((turnFor_begun ..).trans turn))
  · exact packet_ends rfl ha (planRetireBody_frees ((planOf_begun ..).trans found) mine h0 idle unfiled)
  · exact packet_ends rfl ha (planRetireBody_files ((planOf_begun ..).trans found) mine h0 active first
      ((turnFor_begun ..).trans turn))
  · exact (tariffReadBody_inForce h0 h).trans (by rw [begun_glob, begun_set])

end Sys2Proof.Machine
end

section
/-! PROOFS. The sequencer of a logical array (O22): its descriptors, its Shoe batches and its replays. -/

namespace Sys2Proof.Machine

open Sys2Proof.Safety

/-! ### What the rows read of an array before their effect -/

@[simp] theorem logArr_fresh (s : State) (la : Nat) : logArr (fresh s) la = logArr s la := rfl

@[simp] theorem arrayUp_fresh (s : State) (la : Nat) : arrayUp (fresh s) la = arrayUp s la := rfl

@[simp] theorem arrayJob_fresh (s : State) (la : Nat) : arrayJob (fresh s) la = arrayJob s la := rfl

@[simp] theorem jobPlan_fresh (s : State) (j : Job) : jobPlan (fresh s) j = jobPlan s j := rfl

@[simp] theorem arrayNext_fresh (s : State) (j : Job) : arrayNext (fresh s) j = arrayNext s j := rfl

@[simp] theorem shoeOf_fresh (s : State) (la : Nat) (j : Job) : shoeOf (fresh s) la j = shoeOf s la j := rfl

/-- A job, as its queue holds it now, is suspended. -/
def jobStopped (s : State) (w : Work) (j : Job) : Bool :=
  match jobNow s w j with
  | some x => x.suspended
  | none => false

theorem jobStopped_false {s : State} {w : Work} {j : Job} (h : ∀ x, jobNow s w j = some x → x.suspended = false) :
    jobStopped s w j = false := by
  unfold jobStopped
  split
  next x found => exact h x found
  · rfl

/-! ### The start of a descriptor -/

/-- A SHOE_HEAD whose job already forms batches: it goes without its wait (R167). -/
def headAgain (t : State) (la : Nat) (j : Job) (d : Desc) : Bool :=
  match d.b with
  | .shoeHead _ => (shoeOf t la j).isSome
  | _ => false

theorem headAgain_of_shoeHead {t : State} {la : Nat} {j : Job} {d : Desc} {h : ShoeHeadD} (head : d.b = .shoeHead h) :
    headAgain t la j d = (shoeOf t la j).isSome := by
  rw [headAgain, head]

theorem headAgain_false {t : State} {la : Nat} {j : Job} {d : Desc} (first : ∀ h, d.b = .shoeHead h → shoeOf t la j = none) :
    headAgain t la j d = false := by
  unfold headAgain
  split
  next h head => rw [first h head]; rfl
  · rfl

/-- What becomes of an array's next descriptor as its gate has answered (R147). -/
def arrayGated (la part : Nat) (j : Job) (d : Desc) (descs : List Desc) (n : Nat) (corrected : List Nat) (a : State × Gate) : State :=
  match a.2, d.b with
  | .wait, _ => a.1
  | .skip, _ => skipArray a.1 la part j d n
  | .go, .shoeHead h => startHead a.1 la part j d h descs n
  | .go, _ => startArray a.1 la part j d n corrected

section
variable {t : State} {la part n : Nat} {j : Job} {d : Desc} {descs : List Desc} {corrected : List Nat}

theorem arrayGated_head {h : ShoeHeadD} (head : d.b = .shoeHead h) :
    arrayGated la part j d descs n corrected (t, .go) = startHead t la part j d h descs n := by
  simp only [arrayGated, head]

theorem arrayGated_other (other : ∀ h, d.b ≠ .shoeHead h) :
    arrayGated la part j d descs n corrected (t, .go) = startArray t la part j d n corrected := by
  simp [arrayGated]

end

section
variable {s : State} {la : Fin 256}

/-- An idle array's next descriptor goes to its gate, but for a SHOE_HEAD that runs again (R147, R167). -/
theorem arrayDescStart_next {t : State} {j : Job} {p : Plan} {sl : Slot} {n k : Nat} {d : Desc} (corrected : List Nat)
    (hl : live s = true) (up : arrayUp s la = true) (settles : arrangeArray (fresh s) la = t) (stays : arrayUp t la = true)
    (idle : (logArr t la).run = none) (job : arrayJob t la = some j) (plan : jobPlan t j = some (p, sl, n))
    (next : arrayNext t j = some (k, d)) :
    Gives (.arrayDescStart ⟨la, corrected⟩) s (arrayGated la p.part j d sl.descs n corrected
      (if headAgain t la j d = true then (t, .go) else gate (wakeJob t (.array la) j) (.array la) d.c p.part none)) := by
  have goes : ¬ ((!true) = true ∨ (none : Option ArrRun).isSome = true) := by decide
  refine gives_act (exec_arrayDescStart ..) hl ?_
  simp only [arrayUp_fresh, up, if_true, settles, stays, idle, if_neg goes, job, plan, next]
  rfl

/-! ### The ends of a descriptor, a batch and a replay -/

theorem arrayDescComplete_ends {r : ArrRun} (hl : live s = true) (up : arrayUp s la = true) (runs : (logArr s la).run = some r)
    (goes : jobStopped s (.array la) r.job = false) :
    Gives (.arrayDescComplete la) s (arrangeArray (endArray (fresh s) la r) la) := by
  have ready : (arrayUp s la && !jobStopped s (.array la) r.job) = true := by rw [up, goes]; rfl
  refine gives_act (exec_arrayDescComplete ..) hl ?_
  simp only [logArr_fresh, runs]
  exact if_pos ready

theorem shoeBatchComplete_ends {j : Job} {p : Plan} {sl : Slot} {n : Nat} {x : ShoeTurn} (hl : live s = true)
    (up : arrayUp s la = true) (idle : (logArr s la).run = none) (job : arrayJob s la = some j)
    (plan : jobPlan s j = some (p, sl, n)) (last : arrayNext s j = none) (shoe : shoeOf s la j = some x) (batch : x.batch ≠ []) :
    Gives (.shoeBatchComplete la) s (arrangeArray (endBatch (fresh s) la p.part x) la) := by
  refine gives_act (exec_shoeBatchComplete ..) hl ?_
  simp [up, idle, job, plan, last, shoe, batch]

theorem replayComplete_computesAgain {r : ArrRun} {pa : Nat} (cycles copied : Nat) (hl : live s = true)
    (carried : (logArr s la).phys = some pa) (due : (logArr s la).replay = true) (free : (logArr s la).held = false)
    (on : domainOn s (domOfArray pa) = true) (runs : (logArr s la).run = some r)
    (goes : jobStopped s (.array la) r.job = false) :
    Gives (.replayComplete la cycles copied) s
      (record (replayRun (setLog (fresh s) la { logArr s la with replay := false }) la r)
        { cls := 0x18, kind := 1, index := pa, part := some r.part, d0 := la, d1 := pa, d2 := cycles, d3 := copied }) := by
  have ready : ((logArr s la).replay && !(logArr s la).held && domainOn s (domOfArray pa) &&
      !jobStopped s (.array la) r.job) = true := by
    rw [due, free, on, goes]; rfl
  refine gives_act (exec_replayComplete ..) hl ?_
  simp only [logArr_fresh, carried, runs]
  exact if_pos ready

end

/-- Settles O22, row by row: a start by what its gate answers, and the ends of descriptors, batches and replays. -/
theorem arrayDescriptorsRun : Obligations.ArrayDescriptorsRun := by
  refine fun s la hl => ⟨fun up stays idle j p sl n k d corrected job plan next => ?_,
    fun r up runs goes => arrayDescComplete_ends hl up runs (jobStopped_false goes),
    fun j p sl n x up idle job plan last shoe batch => shoeBatchComplete_ends hl up idle job plan last shoe batch,
    fun r pa cycles copied carried due free on runs goes =>
      replayComplete_computesAgain cycles copied hl carried due free on runs (jobStopped_false goes)⟩
  have gives := arrayDescStart_next corrected hl up rfl stays idle job plan next
  refine ⟨fun h head again => ?_, fun first t1 g gated => ?_⟩
  · rw [if_pos ((headAgain_of_shoeHead head).trans again), arrayGated_head head] at gives
    exact gives
  · rw [if_neg (ne_true_of_eq_false (headAgain_false first)), gated] at gives
    refine ⟨?_, ?_, ?_, ?_⟩
    · rintro rfl
      exact gives
    · rintro rfl
      exact gives
    · rintro h rfl head
      rwa [arrayGated_head head] at gives
    · rintro rfl other
      rwa [arrayGated_other other] at gives

end Sys2Proof.Machine
end

section
/-! PROOFS. The atomic operations of the Granary: two adds to a mint cell in either order (O32). -/

namespace Sys2Proof.Machine

open Sys2Proof.Safety

/-! ### Words at an anchor -/

/-- A value under anchor `a` as a multiple of 2^lo, as R178 shifts it. -/
def atAnchor (lo v a : Int) : Int := v * 2 ^ (a - lo).toNat

/-- A value shifted to one anchor and then to a lower one is the value shifted there at once. -/
theorem atAnchor_trans {lo mid a : Int} (h : lo ≤ mid) (k : mid ≤ a) (v : Int) :
    atAnchor lo (atAnchor mid v a) mid = atAnchor lo v a := by
  have e : (a - lo).toNat = (a - mid).toNat + (mid - lo).toNat := by omega
  rw [atAnchor, atAnchor, atAnchor, e, pow_add, mul_assoc]

theorem atAnchor_add (lo v w a : Int) : atAnchor lo (v + w) a = atAnchor lo v a + atAnchor lo w a := add_mul ..

/-- A value that a cell holds without its clamp (R178). -/
def InCell (v : Int) : Prop := -2 ^ 287 ≤ v ∧ v < 2 ^ 287

theorem clamp288_inCell {v : Int} (h : InCell v) : clamp288 v = (v, false) := by
  have e : satInt 288 v = v := by
    obtain ⟨low, high⟩ := h
    unfold satInt
    omega
  rw [clamp288, e]
  simp

/-! ### One add -/

/-- The range of anchors that an add would leave in a cell (R119, R178). -/
def Cell.span (c : Cell) (w : MintWord) : Int := max c.aHi w.hi - min c.aCur w.anchor

/-- The exact sum of a cell's value and a word, at the lower of their anchors (R178). -/
def Cell.sum (c : Cell) (w : MintWord) : Int :=
  let lo := min c.aCur w.anchor
  atAnchor lo c.value c.aCur + atAnchor lo w.value w.anchor

/-- The cell that an add leaves which nothing refuses and nothing clamps (R178). -/
def Cell.plus (c : Cell) (w : MintWord) : Cell :=
  { c with value := c.sum w, aCur := min c.aCur w.anchor, aHi := max c.aHi w.hi, flags := c.flags ||| w.flags }

theorem Cell.addOpen_wide {c : Cell} {w : MintWord} (h : 255 ≤ c.span w) : c.addOpen w = c.fail 1 := if_pos h

theorem Cell.addOpen_narrow {c : Cell} {w : MintWord} (h : c.span w < 255) :
    c.addOpen w = { c.plus w with value := (clamp288 (c.sum w)).1,
                                  flags := c.flags ||| w.flags ||| (if (clamp288 (c.sum w)).2 = true then mintOvf else 0) } := by
  simp only [Cell.addOpen, if_neg (show ¬ max c.aHi w.hi - min c.aCur w.anchor ≥ 255 from Int.not_le.2 h)]
  rfl

theorem Cell.addOpen_exact {c : Cell} {w : MintWord} (h : c.span w < 255) (r : InCell (c.sum w)) : c.addOpen w = c.plus w := by
  rw [Cell.addOpen_narrow h, clamp288_inCell r]
  simp [Cell.plus]

theorem Cell.add_open {c : Cell} (h : c.state = 1) (w : MintWord) : c.add w = c.addOpen (normWord w) := if_pos h

theorem Cell.add_err {c : Cell} (h : c.state = 3) (w : MintWord) : c.add w = c := by simp [Cell.add, h]

/-! ### Two adds -/

theorem Cell.plus_span_comm (c : Cell) (v w : MintWord) : (c.plus v).span w = (c.plus w).span v := by
  simp only [Cell.span, Cell.plus]
  omega

theorem Cell.span_le_plus_span (c : Cell) (v w : MintWord) : c.span v ≤ (c.plus v).span w := by
  simp only [Cell.span, Cell.plus]
  omega

/-- The sum of a cell and two words is that of all three at their lowest anchor. -/
theorem Cell.plus_sum (c : Cell) (v w : MintWord) :
    (c.plus v).sum w = atAnchor (min (min c.aCur v.anchor) w.anchor) c.value c.aCur +
      atAnchor (min (min c.aCur v.anchor) w.anchor) v.value v.anchor +
      atAnchor (min (min c.aCur v.anchor) w.anchor) w.value w.anchor := by
  have low : min (min c.aCur v.anchor) w.anchor ≤ min c.aCur v.anchor := min_le_left ..
  simp only [Cell.sum, Cell.plus]
  rw [atAnchor_add, atAnchor_trans low (min_le_left ..), atAnchor_trans low (min_le_right ..)]

theorem Cell.plus_sum_comm (c : Cell) (v w : MintWord) : (c.plus v).sum w = (c.plus w).sum v := by
  rw [Cell.plus_sum, Cell.plus_sum, min_right_comm, add_right_comm]

theorem Cell.plus_comm (c : Cell) (v w : MintWord) : (c.plus v).plus w = (c.plus w).plus v := by
  rw [Cell.plus, c.plus_sum_comm, Cell.plus.eq_def (c.plus w)]
  simp only [Cell.plus, min_right_comm, max_right_comm, Nat.or_right_comm]

section
variable {c : Cell} {v w : MintWord}

/-- Where the anchors of a cell and two words span 255 or more, the second add ends in ERR 1 if the first did not. -/
theorem Cell.add_add_wide (h : c.state = 1) (r : InCell (c.sum (normWord v)))
    (wide : 255 ≤ (c.plus (normWord v)).span (normWord w)) : ((c.add v).add w).state = 3 ∧ ((c.add v).add w).cause = 1 := by
  rw [Cell.add_open h v]
  by_cases first : 255 ≤ c.span (normWord v)
  · rw [Cell.addOpen_wide first, Cell.add_err rfl]
    exact ⟨rfl, rfl⟩
  · rw [Cell.addOpen_exact (Int.not_le.1 first) r, Cell.add_open (c := c.plus _) h, Cell.addOpen_wide wide]
    exact ⟨rfl, rfl⟩

theorem Cell.add_add_exact (h : c.state = 1) (r : InCell (c.sum (normWord v)))
    (r2 : InCell ((c.plus (normWord v)).sum (normWord w))) (narrow : (c.plus (normWord v)).span (normWord w) < 255) :
    (c.add v).add w = (c.plus (normWord v)).plus (normWord w) := by
  rw [Cell.add_open h v, Cell.addOpen_exact (Int.lt_of_le_of_lt (c.span_le_plus_span ..) narrow) r, Cell.add_open (c := c.plus _) h,
    Cell.addOpen_exact narrow r2]

end

/-- Settles O32: both orders meet the same span of anchors, and where it is legal both leave the sum of all three. -/
theorem mintAddsCommute : Obligations.MintAddsCommute := by
  intro c v w opened scaled cc vv ww lo inRange rv rw both
  have rvw : InCell ((c.plus (normWord v)).sum (normWord w)) := by rw [Cell.plus_sum]; exact both
  have rwv := rvw
  rw [Cell.plus_sum_comm] at rwv
  by_cases wide : 255 ≤ (c.plus (normWord v)).span (normWord w)
  · obtain ⟨sv, cv⟩ := Cell.add_add_wide opened rv wide
    obtain ⟨sw, cw⟩ := Cell.add_add_wide opened rw (wide.trans_eq (c.plus_span_comm ..))
    exact .inl ⟨sv, cv, sw, cw⟩
  · have narrow := Int.not_le.1 wide
    have swapped := (c.plus_span_comm ..).symm.trans_lt narrow
    exact .inr ((Cell.add_add_exact opened rv rvw narrow).trans
      ((c.plus_comm ..).trans (Cell.add_add_exact opened rw rwv swapped).symm))

end Sys2Proof.Machine
end

section
/-! PROOFS. FMAX and FMIN (O33): an encoding is a sign and a magnitude, magnitudes rise with the numbers they stand for, and encoding
undoes decoding. -/

namespace Sys2Proof.Machine

open Sys2Proof.Safety

/-- A format with infinities and NaNs, whose exponent field tells subnormal, normal and special numbers apart. -/
structure FpFmt.Ieee (f : FpFmt) : Prop where
  kind : f.kind = 0
  expBits : 2 ≤ f.e

theorem pickFmt_ieee (bf16 : Bool) : (pickFmt bf16).Ieee := by
  cases bf16
  · exact ⟨rfl, by decide⟩
  · exact ⟨rfl, by decide⟩

/-! ### Magnitudes -/

/-- The exponent field and the fraction of a magnitude. -/
def FpFmt.field (f : FpFmt) (k : Nat) : Nat := k / 2 ^ f.m
def FpFmt.frac (f : FpFmt) (k : Nat) : Nat := k % 2 ^ f.m

theorem FpFmt.field_frac (f : FpFmt) (k : Nat) : f.field k * 2 ^ f.m + f.frac k = k := Nat.div_add_mod' ..

theorem FpFmt.frac_lt (f : FpFmt) (k : Nat) : f.frac k < 2 ^ f.m := Nat.mod_lt _ (Nat.two_pow_pos _)

theorem FpFmt.field_mono (f : FpFmt) {k l : Nat} (h : k ≤ l) : f.field k ≤ f.field l := Nat.div_le_div_right h

theorem FpFmt.field_lt_iff (f : FpFmt) (k n : Nat) : f.field k < n ↔ k < n * 2 ^ f.m := Nat.div_lt_iff_lt_mul (Nat.two_pow_pos _)

/-- The significand of a finite magnitude: a normal one has its leading one. -/
def FpFmt.sig (f : FpFmt) (k : Nat) : Nat := if f.field k = 0 then f.frac k else f.frac k + 2 ^ f.m

/-- The exponent field of a magnitude as it counts: subnormals have that of the smallest normal numbers. -/
def FpFmt.rung (f : FpFmt) (k : Nat) : Nat := max (f.field k) 1

/-- The exponent of the last bit of a magnitude. -/
def FpFmt.expo (f : FpFmt) (k : Nat) : Int := f.rung k - (f.bias : Int) - f.m

/-- The sign bit and the magnitude of an encoding. -/
def FpFmt.neg (f : FpFmt) (v : Nat) : Bool := bit v (f.e + f.m)
def FpFmt.mag (f : FpFmt) (v : Nat) : Nat := v % 2 ^ (f.e + f.m)

/-- The value of a magnitude with a sign. -/
def FpFmt.signed (f : FpFmt) (s : Bool) (k : Nat) : Val :=
  if k < f.infBits then .fin s (f.sig k) (f.expo k) else if k = f.infBits then .inf s else .nan

theorem FpFmt.signed_isNan (f : FpFmt) (s : Bool) (k : Nat) : (f.signed s k).isNan = decide (f.infBits < k) := by
  unfold FpFmt.signed
  split
  next finite => simp [Val.isNan]; omega
  next =>
    split
    next inf => simp [Val.isNan, inf]
    next => simp [Val.isNan]; omega

theorem FpFmt.signed_isNeg {f : FpFmt} {k : Nat} (h : k ≤ f.infBits) (s : Bool) : (f.signed s k).isNeg = s := by
  unfold FpFmt.signed
  split
  · rfl
  next => rw [if_pos (by omega)]; rfl

section
variable {f : FpFmt}

theorem FpFmt.sig_lt (k : Nat) : f.sig k < 2 ^ (f.m + 1) := by
  have r := f.frac_lt k
  unfold FpFmt.sig
  split <;> omega

/-- A magnitude is finite where its exponent field is not the last one. -/
theorem FpFmt.lt_infBits_iff (k : Nat) : k < f.infBits ↔ f.field k < 2 ^ f.e - 1 := (f.field_lt_iff ..).symm

/-- A magnitude with the last exponent field and no fraction is infinity's. -/
theorem FpFmt.eq_infBits {k : Nat} (field : f.field k = 2 ^ f.e - 1) : k = f.infBits ↔ f.frac k = 0 := by
  have split := f.field_frac k
  rw [field] at split
  unfold FpFmt.infBits
  omega

theorem FpFmt.signed_of_field {k : Nat} (h : k < 2 ^ (f.e + f.m)) (s : Bool) :
    f.signed s k =
      if f.field k = 2 ^ f.e - 1 then (if f.frac k = 0 then .inf s else .nan)
      else if f.field k = 0 then .fin s (f.frac k) (1 - (f.bias : Int) - f.m)
      else .fin s (f.frac k + 2 ^ f.m) ((f.field k : Nat) - (f.bias : Int) - f.m) := by
  have top : f.field k < 2 ^ f.e := by rwa [f.field_lt_iff, ← pow_add]
  by_cases last : f.field k = 2 ^ f.e - 1
  · simp only [FpFmt.signed, FpFmt.lt_infBits_iff, last, FpFmt.eq_infBits last, Nat.lt_irrefl, if_false, if_true]
  · have below : f.field k < 2 ^ f.e - 1 := by omega
    rw [FpFmt.signed, if_pos ((FpFmt.lt_infBits_iff k).2 below), if_neg last]
    by_cases sub : f.field k = 0
    · simp [FpFmt.sig, FpFmt.expo, FpFmt.rung, sub]
    · have rung : f.rung k = f.field k := max_eq_left (by omega)
      simp [FpFmt.sig, FpFmt.expo, rung, sub]

/-- Decoding takes an encoding apart into its sign and its magnitude (R104). -/
theorem FpFmt.decode_eq (hf : f.Ieee) (v : Nat) : f.decode v = f.signed (f.neg v) (f.mag v) := by
  have field : bits v (f.e + f.m - 1) f.m = f.field (f.mag v) := by
    have he := hf.expBits
    rw [bits, show f.e + f.m - 1 + 1 - f.m = f.e by omega, FpFmt.field, FpFmt.mag, Nat.add_comm f.e, pow_add,
      Nat.mod_mul_right_div_self]
  have frac : v % 2 ^ f.m = f.frac (f.mag v) := (Nat.mod_mod_of_dvd _ (Nat.pow_dvd_pow 2 (Nat.le_add_left ..))).symm
  have bound : f.mag v < 2 ^ (f.e + f.m) := Nat.mod_lt _ (Nat.two_pow_pos _)
  rw [FpFmt.signed_of_field bound, FpFmt.decode, field, frac]
  simp [hf.kind, FpFmt.neg]

/-! ### Encoding undoes decoding -/

theorem FpFmt.round_sig {k : Nat} (h : f.sig k ≠ 0) : f.round (f.sig k) (f.expo k) = (f.sig k, f.expo k) := by
  have q : max (topExp (f.sig k) (f.expo k) - f.m) (1 - (f.bias : Int) - f.m) = f.expo k := by
    have top : (f.sig k).log2 < f.m + 1 := (Nat.log2_lt h).2 (f.sig_lt k)
    by_cases sub : f.field k = 0
    · simp only [topExp, FpFmt.expo, FpFmt.rung, sub]
      omega
    · have lead : f.m ≤ (f.sig k).log2 := (Nat.le_log2 h).2 (by rw [FpFmt.sig, if_neg sub]; omega)
      simp only [topExp, FpFmt.expo, FpFmt.rung]
      omega
  rw [FpFmt.round, q]
  simp [roundAt]

theorem FpFmt.pack_sig (k : Nat) : f.pack (f.sig k) (f.expo k) = k := by
  have fields := f.field_frac k
  have r := f.frac_lt k
  have whole : f.sig k ≠ 2 ^ (f.m + 1) := (f.sig_lt k).ne
  by_cases sub : f.field k = 0
  · have low : f.sig k = k := by rw [sub] at fields; rw [FpFmt.sig, if_pos sub]; omega
    rw [sub] at fields
    have fits : k < 2 ^ f.m := by omega
    simp [FpFmt.pack, low, fits, eq_comm]
  · have normal : f.sig k = f.frac k + 2 ^ f.m := if_neg sub
    have field : (f.expo k + f.m + f.bias).toNat = f.field k := by simp only [FpFmt.expo, FpFmt.rung]; omega
    simp only [FpFmt.pack, if_neg whole, field]
    rw [if_neg (by omega), if_neg (by omega), normal]
    omega

theorem FpFmt.not_above_largest (hf : f.Ieee) {k : Nat} (h : k < f.infBits) :
    gtExp (f.sig k) (f.expo k) f.largest.1 f.largest.2 = false := by
  have small := f.sig_lt k
  have expBits : 2 ^ 2 ≤ 2 ^ f.e := Nat.pow_le_pow_right (by decide) hf.expBits
  have field := (FpFmt.lt_infBits_iff k).1 h
  have low : f.expo k ≤ (2 ^ f.e : Nat) - 2 - (f.bias : Int) - f.m := by simp only [FpFmt.expo, FpFmt.rung]; omega
  simp only [FpFmt.largest, hf.kind, gtExp]
  split
  next high =>
    have same : f.expo k = (2 ^ f.e : Nat) - 2 - (f.bias : Int) - f.m := le_antisymm low high
    simp only [same, Int.sub_self, Int.toNat_zero, pow_zero, Nat.mul_one]
    simp; omega
  next =>
    have grows := Nat.le_mul_of_pos_right (2 ^ (f.m + 1) - 1)
      (Nat.two_pow_pos ((2 ^ f.e : Nat) - 2 - (f.bias : Int) - f.m - f.expo k).toNat)
    simp only [decide_eq_false_iff_not]
    omega

theorem FpFmt.encode_signed (hf : f.Ieee) {k : Nat} (h : k ≤ f.infBits) (s : Bool) :
    (f.encode (f.signed s k)).1 = f.sign s + k := by
  rcases Nat.lt_or_eq_of_le h with finite | rfl
  · rw [FpFmt.signed, if_pos finite, FpFmt.encode, FpFmt.encodeFin]
    by_cases zero : f.sig k = 0
    · have none := f.pack_sig k
      rw [FpFmt.pack, if_pos zero] at none
      rw [if_pos zero, ← none, Nat.add_zero]
    · simp only [if_neg zero, FpFmt.round_sig zero, FpFmt.not_above_largest hf finite, FpFmt.pack_sig, Bool.false_eq_true, if_false]
  · rw [FpFmt.signed, if_neg (Nat.lt_irrefl _), if_pos rfl, FpFmt.encode, if_pos hf.kind]

/-! ### The order of the numbers -/

/-- A magnitude in units of the smallest subnormal; infinity takes the place after the largest number. -/
def FpFmt.units (f : FpFmt) (k : Nat) : Nat := f.sig k * 2 ^ (f.rung k - 1)

theorem FpFmt.units_lt (k : Nat) : f.units k < 2 ^ f.m * 2 ^ (f.field k) := by
  have r := f.frac_lt k
  by_cases sub : f.field k = 0
  · simpa [FpFmt.units, FpFmt.sig, FpFmt.rung, sub] using r
  · have rung : f.field k = f.rung k - 1 + 1 := by simp only [FpFmt.rung]; omega
    rw [rung, pow_succ', ← mul_assoc, ← pow_succ]
    exact Nat.mul_lt_mul_of_pos_right (f.sig_lt k) (Nat.two_pow_pos _)

theorem FpFmt.le_units {k : Nat} (normal : f.field k ≠ 0) : 2 ^ f.m * 2 ^ (f.field k - 1) ≤ f.units k := by
  have rung : f.rung k = f.field k := max_eq_left (by omega)
  rw [FpFmt.units, rung, FpFmt.sig, if_neg normal]
  exact Nat.mul_le_mul_right _ (Nat.le_add_left ..)

/-- Greater magnitudes stand for greater numbers: by the fraction within one exponent field, by the field elsewhere. -/
theorem FpFmt.units_strictMono (f : FpFmt) : StrictMono f.units := by
  intro k l h
  rcases Nat.lt_or_eq_of_le (f.field_mono h.le) with below | same
  · calc f.units k < 2 ^ f.m * 2 ^ (f.field k) := f.units_lt k
      _ ≤ 2 ^ f.m * 2 ^ (f.field l - 1) := Nat.mul_le_mul_left _ (Nat.pow_le_pow_right (by decide) (by omega))
      _ ≤ f.units l := FpFmt.le_units (by omega)
  · have fraction : f.frac k < f.frac l := by
      have hk := f.field_frac k
      have hl := f.field_frac l
      rw [same] at hk
      omega
    have sig : f.sig k < f.sig l := by
      simp only [FpFmt.sig, same]
      split <;> omega
    rw [FpFmt.units, FpFmt.rung, same]
    exact Nat.mul_lt_mul_of_pos_right sig (Nat.two_pow_pos _)

/-- The number of an encoding in units of the smallest subnormal. -/
def FpFmt.number (f : FpFmt) (s : Bool) (k : Nat) : Int := if s then -f.units k else f.units k

/-- The exponent of the smallest subnormal. -/
def FpFmt.unitExp (f : FpFmt) : Int := 1 - (f.bias : Int) - f.m

theorem scaled_shift (s : Bool) (n : Nat) {x u lo : Int} (h : lo ≤ u) (k : u ≤ x) :
    scaled s n x lo = scaled s n x u * 2 ^ (u - lo).toNat := by
  have e : (x - lo).toNat = (x - u).toNat + (u - lo).toNat := by omega
  cases s <;> simp [scaled, e, pow_add, mul_assoc]

theorem FpFmt.scaled_unitExp (s : Bool) (k : Nat) : scaled s (f.sig k) (f.expo k) f.unitExp = f.number s k := by
  have e : (f.expo k - f.unitExp).toNat = f.rung k - 1 := by simp only [FpFmt.expo, FpFmt.unitExp, FpFmt.rung]; omega
  simp [scaled, e, FpFmt.number, FpFmt.units]

theorem FpFmt.number_lt_infinity {k : Nat} (h : k < f.infBits) (s : Bool) :
    -(f.units f.infBits : Int) < f.number s k ∧ f.number s k < f.units f.infBits := by
  have below := f.units_strictMono h
  unfold FpFmt.number
  split <;> omega

/-- Finite values compare as their numbers do. -/
theorem FpFmt.cmp_fin (s t : Bool) (k l : Nat) :
    Val.cmp (.fin s (f.sig k) (f.expo k)) (.fin t (f.sig l) (f.expo l)) = (f.number s k - f.number t l).sign := by
  have low : f.unitExp ≤ min (f.expo k) (f.expo l) := by simp only [FpFmt.expo, FpFmt.unitExp, FpFmt.rung]; omega
  rw [← FpFmt.scaled_unitExp, ← FpFmt.scaled_unitExp, scaled_shift s _ low (min_le_left ..), scaled_shift t _ low (min_le_right ..),
    ← Int.sub_mul, Int.sign_mul, Int.sign_eq_one_of_pos (Int.pow_pos (by decide)), Int.mul_one]
  rfl

theorem FpFmt.infBits_pos (hf : f.Ieee) : 0 < f.infBits := by
  have expBits : 2 ^ 2 ≤ 2 ^ f.e := Nat.pow_le_pow_right (by decide) hf.expBits
  exact Nat.mul_pos (by omega) (Nat.two_pow_pos _)

theorem FpFmt.signed_infBits (s : Bool) : f.signed s f.infBits = .inf s := by
  rw [FpFmt.signed, if_neg (Nat.lt_irrefl _), if_pos rfl]

/-- Values that are not NaN compare as their numbers do: an infinity lies beyond every finite one. -/
theorem FpFmt.cmp_signed (hf : f.Ieee) {k l : Nat} (hk : k ≤ f.infBits) (hl : l ≤ f.infBits) (s t : Bool) :
    Val.cmp (f.signed s k) (f.signed t l) = (f.number s k - f.number t l).sign := by
  have top : (0 : Int) < f.units f.infBits := by
    have := f.units_strictMono (FpFmt.infBits_pos hf)
    omega
  have plus : f.number false f.infBits = f.units f.infBits := rfl
  have minus : f.number true f.infBits = -f.units f.infBits := rfl
  rcases Nat.lt_or_eq_of_le hk with hk | rfl <;> rcases Nat.lt_or_eq_of_le hl with hl | rfl
  · rw [FpFmt.signed, if_pos hk, FpFmt.signed, if_pos hl, FpFmt.cmp_fin]
  · obtain ⟨above, below⟩ := FpFmt.number_lt_infinity hk s
    rw [FpFmt.signed_infBits, FpFmt.signed, if_pos hk]
    cases t
    · exact (Int.sign_eq_neg_one_of_neg (by omega)).symm
    · exact (Int.sign_eq_one_of_pos (by omega)).symm
  · obtain ⟨above, below⟩ := FpFmt.number_lt_infinity hl t
    rw [FpFmt.signed_infBits, FpFmt.signed, if_pos hl]
    cases s
    · exact (Int.sign_eq_one_of_pos (by omega)).symm
    · exact (Int.sign_eq_neg_one_of_neg (by omega)).symm
  · rw [FpFmt.signed_infBits, FpFmt.signed_infBits]
    cases s <;> cases t
    · rw [Int.sub_self]; rfl
    · exact (Int.sign_eq_one_of_pos (by omega)).symm
    · exact (Int.sign_eq_neg_one_of_neg (by omega)).symm
    · rw [Int.sub_self]; rfl

/-! ### The choice -/

/-- The place of an encoding in the order of the numbers, with -0 below +0. -/
def encPlace (s : Bool) (k : Nat) : Int := if s then -(k : Int) - 1 else k

/-- Places tell the encodings apart, the two zeros among them. -/
theorem encPlace_inj {s t : Bool} {k l : Nat} (h : encPlace s k = encPlace t l) : s = t ∧ k = l := by
  cases s <;> cases t <;> simp only [encPlace, Bool.false_eq_true, if_false, if_true] at h
  · exact ⟨rfl, by omega⟩
  · omega
  · omega
  · exact ⟨rfl, by omega⟩

/-- Of two different encodings, the one whose number is greater, or is the +0 of two zeros, has the greater place. -/
theorem FpFmt.number_place {s t : Bool} {k l : Nat} (h : encPlace s k ≠ encPlace t l) :
    (0 < (f.number s k - f.number t l).sign ∨ (f.number s k - f.number t l).sign = 0 ∧ s = false) ↔ encPlace t l < encPlace s k := by
  have less := f.units_strictMono.lt_iff_lt (a := k) (b := l)
  have more := f.units_strictMono.lt_iff_lt (a := l) (b := k)
  rw [Int.sign_pos_iff, Int.sign_eq_zero_iff_zero]
  cases s <;> cases t <;> simp only [FpFmt.number, encPlace, Bool.false_eq_true, Bool.true_eq_false, and_true, and_false, or_false,
    if_false, if_true] at h ⊢
  all_goals omega

/-- MAX takes the second operand where its place is not below the first's, and MIN the other one (R182). -/
theorem FpFmt.maxMin_signed (hf : f.Ieee) {k l : Nat} (hk : k ≤ f.infBits) (hl : l ≤ f.infBits) (s t isMax : Bool) :
    Val.maxMin isMax (f.signed s k) (f.signed t l) =
      if decide (encPlace s k ≤ encPlace t l) = isMax then f.signed t l else f.signed s k := by
  have number {s : Bool} {k : Nat} (h : k ≤ f.infBits) : (f.signed s k).isNan = false := by
    rw [FpFmt.signed_isNan]
    exact decide_eq_false (Nat.not_lt.2 h)
  rw [Val.maxMin, number hk, number hl, FpFmt.cmp_signed hf hk hl, FpFmt.signed_isNeg hk]
  by_cases same : encPlace s k = encPlace t l
  · obtain ⟨rfl, rfl⟩ := encPlace_inj same
    simp
  · have order := FpFmt.number_place (f := f) same
    have first : (decide ((f.number s k - f.number t l).sign > 0) ||
        decide ((f.number s k - f.number t l).sign = 0) && !s) = !decide (encPlace s k ≤ encPlace t l) := by
      rw [Bool.eq_iff_iff]
      simpa using order
    simp only [first]
    cases decide (encPlace s k ≤ encPlace t l) <;> cases isMax <;> rfl

end

/-! ### Encodings -/

section
variable {f : FpFmt} {v : Nat} (h : v < 2 ^ (f.e + f.m + 1))
include h

theorem FpFmt.neg_eq : f.neg v = decide (2 ^ (f.e + f.m) ≤ v) := by
  have top : v / 2 ^ (f.e + f.m) < 2 := by rwa [Nat.div_lt_iff_lt_mul (Nat.two_pow_pos _), ← pow_succ']
  have one : 2 ^ (f.e + f.m) ≤ v ↔ 0 < v / 2 ^ (f.e + f.m) := by simp [Nat.div_pos_iff]
  rw [FpFmt.neg, bit, Nat.mod_eq_of_lt top]
  refine decide_eq_decide.2 ?_
  rw [one]
  omega

theorem FpFmt.mag_eq : f.mag v = if 2 ^ (f.e + f.m) ≤ v then v - 2 ^ (f.e + f.m) else v := by
  rw [FpFmt.mag]
  split
  next high => rw [Nat.mod_eq_sub_mod high, Nat.mod_eq_of_lt (by omega)]
  next low => exact Nat.mod_eq_of_lt (Nat.not_le.1 low)

theorem FpFmt.sign_add_mag : f.sign (f.neg v) + f.mag v = v := by
  rw [FpFmt.neg_eq h, FpFmt.mag_eq h, FpFmt.sign]
  by_cases high : 2 ^ (f.e + f.m) ≤ v <;> simp [high]

theorem FpFmt.encPlace_eq :
    encPlace (f.neg v) (f.mag v) = if v < 2 ^ (f.e + f.m) then (v : Int) else (2 ^ (f.e + f.m) : Int) - v - 1 := by
  rw [FpFmt.neg_eq h, FpFmt.mag_eq h, encPlace]
  by_cases high : 2 ^ (f.e + f.m) ≤ v
  · simp [high, Nat.not_lt.2 high]
  · simp [high, Nat.not_le.1 high]

end

section
variable {bf16 : Bool} {a b : Nat} {f : FpFmt} (fmt : pickFmt bf16 = f)
include fmt

theorem pickBits_nan (h : f.infBits < f.mag a ∨ f.infBits < f.mag b) (isMax : Bool) : pickBits isMax bf16 a b = f.nanBits := by
  have hf : f.Ieee := fmt ▸ pickFmt_ieee bf16
  have nan : ((f.decode a).isNan || (f.decode b).isNan) = true := by
    rw [FpFmt.decode_eq hf, FpFmt.decode_eq hf, FpFmt.signed_isNan, FpFmt.signed_isNan]
    simpa using h
  rw [pickBits, fmt, Val.maxMin, if_pos nan, FpFmt.encode, hf.kind]
  rfl

/-- Of two encodings that are not NaN, MAX picks the one with the greater place, and MIN the other one. -/
theorem pickBits_number (ha : a < 2 ^ (f.e + f.m + 1)) (hb : b < 2 ^ (f.e + f.m + 1)) (na : f.mag a ≤ f.infBits)
    (nb : f.mag b ≤ f.infBits) (isMax : Bool) :
    pickBits isMax bf16 a b = if decide (encPlace (f.neg a) (f.mag a) ≤ encPlace (f.neg b) (f.mag b)) = isMax then b else a := by
  have hf : f.Ieee := fmt ▸ pickFmt_ieee bf16
  rw [pickBits, fmt, FpFmt.decode_eq hf, FpFmt.decode_eq hf, FpFmt.maxMin_signed hf na nb]
  split
  · rw [FpFmt.encode_signed hf nb, FpFmt.sign_add_mag hb]
  · rw [FpFmt.encode_signed hf na, FpFmt.sign_add_mag ha]

/-- The choice in terms of the bits alone. -/
theorem pickBits_spec (ha : a < 2 ^ (f.e + f.m + 1)) (hb : b < 2 ^ (f.e + f.m + 1)) :
    let isNan := fun (x : Nat) => decide (x % 2 ^ (f.e + f.m) > f.infBits)
    let place := fun (x : Nat) => if x < 2 ^ (f.e + f.m) then (x : Int) else (2 ^ (f.e + f.m) : Int) - x - 1
    (isNan a = true ∨ isNan b = true → ∀ isMax, pickBits isMax bf16 a b = f.nanBits) ∧
      (isNan a = false → isNan b = false →
        pickBits true bf16 a b = (if place a ≤ place b then b else a) ∧
        pickBits false bf16 a b = (if place a ≤ place b then a else b)) := by
  intro isNan place
  refine ⟨fun nan isMax => pickBits_nan fmt (nan.imp of_decide_eq_true of_decide_eq_true) isMax, fun na nb => ?_⟩
  have pick := pickBits_number fmt ha hb (Nat.not_lt.1 (of_decide_eq_false na)) (Nat.not_lt.1 (of_decide_eq_false nb))
  rw [FpFmt.encPlace_eq ha, FpFmt.encPlace_eq hb] at pick
  refine ⟨(pick true).trans ?_, (pick false).trans ?_⟩
  · simp [place]
  · simp only [decide_eq_false_iff_not, ite_not]
    rfl

end

/-- Settles O33: magnitudes rise with their numbers, so the choice among two values is one among two encodings. -/
theorem fmaxFminPickTheNumber : Obligations.FmaxFminPickTheNumber := by
  intro bf16 a b w m isNan place ha hb
  cases bf16
  · exact pickBits_spec (f := fmtFP32) rfl ha hb
  · exact pickBits_spec (f := fmtBF16) rfl ha hb

end Sys2Proof.Machine
end

section
/-! PROOFS. The rows of the Granary's atomic operations: elements (O34), mint cells and mint transfer packets (O31). -/

namespace Sys2Proof.Machine

open Sys2Proof.Safety

/-! ### What a read of memory looks at -/

section
variable {s t : State} (mem : t.mem = s.mem) (arr : t.arr = s.arr)
include mem arr

/-- A read depends on the memory and on the map of the arrays' bins alone. -/
theorem memRead_congr (pa n : Nat) : memRead t pa n = memRead s pa n := by
  simp only [memRead, keyOf, logArr, lostAt, deadAt, stackOf, cacheLine, mem, arr]

theorem cellAt_congr (pa : Nat) : cellAt t pa = cellAt s pa := by
  simp only [cellAt, memBytes, memRead_congr mem arr]

end

/-! ### The row of an operation -/

/-- The state in which a slice applies an operation: its work for the partition is noted (R94). -/
abbrev atSlice (s : State) (q : AtomReq) : State := noteBusy (fresh s) { type := 5, index := sliceOf (q.addr / 128) } q.part

theorem memRead_atSlice (s : State) (q : AtomReq) (pa n : Nat) : memRead (atSlice s q) pa n = memRead s pa n :=
  memRead_congr (noteBusy_mem ..) (noteBusy_arr ..) pa n

theorem cellAt_atSlice (s : State) (q : AtomReq) (pa : Nat) : cellAt (atSlice s q) pa = cellAt s pa :=
  cellAt_congr (noteBusy_mem ..) (noteBusy_arr ..) pa

theorem refuse_mem (s : State) (cls part addr : Nat) : (refuse s cls part addr).mem = s.mem := by
  have noted (r : Rec) : (recordRefusal s r).mem = s.mem := by
    unfold recordRefusal
    split
    · exact (recordCount_noted ..).mem
    · exact (record_noted ..).mem
  exact noted _

section
variable {s : State} {q : AtomReq} {op : AtomOp} {i : Instr} (row : exec i s = atomRow s q op) (up : FabricUp s)
include row up

theorem gives_refused {k : Nat} (f : atomFault s q = some k) : Gives i s (refuse (fresh s) k q.part q.addr) := by
  rw [Gives, row, atomRow_refuses up f]

section
variable (f : atomFault s q = none) (free : conflicts s q.addr 1 true = [])
include f free

theorem gives_cell (cell : op.isCell = true) : Gives i s (applyCell (atSlice s q) q op) := by
  rw [Gives, row, atomRow_applies up f free, applyAtom, if_pos cell]

/-- An operation on an element writes what becomes of the bytes read, with their poison, and answers (R229, R231). -/
theorem gives_elem (elem : op.isCell = false) :
    let r := memRead s q.addr op.width
    let old := leVal (r.map Prod.fst)
    let bad := r.any Prod.snd
    Gives i s (emit (memWrite (atSlice s q) q.addr (marked (leBytes op.width (op.elem old)) bad))
      (if op.fetches = true then (if bad = true then .readData (leBytes op.width old) [true] else .value old) else .ack)) := by
  rw [Gives, row, atomRow_applies up f free, applyAtom, elem]
  simp only [applyElem, memRead_atSlice]
  rfl

end
end

/-- Settles O34: each row is its operation on the element that its slice reads, or the slice's refusal. -/
theorem elementAtomicsReadAndWrite : Obligations.ElementAtomicsReadAndWrite := by
  refine ⟨fun s q up f free => ?_, fun s q k up f => ?_⟩
  · refine ⟨fun w64 v => ?_, fun w64 cmp new => ?_, fun bf16 v => ?_⟩
    · have add := gives_elem (exec_iadd q w64 v s) up f free rfl
      have fetch := gives_elem (exec_iaddFetch q w64 v s) up f free rfl
      cases w64 <;> exact ⟨add, fetch⟩
    · have swap := gives_elem (exec_cas q w64 cmp new s) up f free rfl
      cases w64 <;> exact swap
    · have most := gives_elem (exec_fmax q bf16 v s) up f free rfl
      have least := gives_elem (exec_fmin q bf16 v s) up f free rfl
      cases bf16 <;> exact ⟨most, least⟩
  · exact ⟨refuse_mem .., fun w v => ⟨gives_refused (exec_iadd q w v s) up f, gives_refused (exec_iaddFetch q w v s) up f⟩,
      fun w c n => gives_refused (exec_cas q w c n s) up f,
      fun b v => ⟨gives_refused (exec_fmax q b v s) up f, gives_refused (exec_fmin q b v s) up f⟩⟩

/-! ### Operations on a cell -/

/-- A cell becomes another one, and the change is recorded under its class (R180, R200). -/
def becomes (z : State) (q : AtomReq) (c d : Cell) : State :=
  match cellClass c d with
  | some k => record (setCell z q.addr d) (atomRec k q)
  | none => setCell z q.addr d

/-- The operations whose change of a cell its slice records: neither a read, nor a PUT that carries an error. -/
def AtomOp.Noted (op : AtomOp) : Prop := (∃ a, op = .mintInit a) ∨ (∃ w, op = .mintAdd w) ∨ ∃ w, op = .put w none

theorem AtomOp.Noted.isCell {op : AtomOp} (h : op.Noted) : op.isCell = true := by
  obtain ⟨a, rfl⟩ | ⟨w, rfl⟩ | ⟨w, rfl⟩ := h <;> rfl

theorem stepCell_noted {op : AtomOp} (h : op.Noted) (z : State) (q : AtomReq) :
    stepCell z q op = becomes z q (cellAt z q.addr) (op.cell (cellAt z q.addr)) := by
  obtain ⟨a, rfl⟩ | ⟨w, rfl⟩ | ⟨w, rfl⟩ := h <;>
    simp only [stepCell, becomes, AtomOp.carriesErr, Bool.false_eq_true, if_false] <;> rfl

theorem applyCell_noted {op : AtomOp} (h : op.Noted) (z : State) (q : AtomReq) :
    applyCell z q op = emit (becomes z q (cellAt z q.addr) (op.cell (cellAt z q.addr))) .ack := by
  rw [← stepCell_noted h]
  obtain ⟨a, rfl⟩ | ⟨w, rfl⟩ | ⟨w, rfl⟩ := h <;>
    simp only [applyCell, AtomOp.carriesErr, Bool.false_eq_true, if_false]

theorem stepCell_poisonIn (z : State) (q : AtomReq) (w : MintWord) (e : Nat) :
    stepCell z q (.put w (some e)) = setCell z q.addr (cellAt z q.addr).poisonIn := by
  simp only [stepCell, AtomOp.cell, AtomOp.carriesErr, if_true]
  split <;> rfl

theorem stepCell_read (z : State) (q : AtomReq) :
    stepCell z q .mintRead =
      if (cellAt z q.addr).readErr.isSome = true then record (setCell z q.addr (cellAt z q.addr).sealUp) (atomRec 0x2A q)
      else setCell z q.addr (cellAt z q.addr).sealUp := by
  simp only [stepCell, AtomOp.cell, AtomOp.carriesErr, Bool.false_eq_true, if_false]
  cases (cellAt z q.addr).readErr.isSome <;> simp

section
variable {s : State} {q : AtomReq} {i : Instr} (up : FabricUp s) (f : atomFault s q = none) (free : conflicts s q.addr 1 true = [])
include up f free

/-- An operation that leaves a cell as its state says, and carries no error, is recorded and acknowledged. -/
theorem gives_becomes {op : AtomOp} (row : exec i s = atomRow s q op) (noted : op.Noted) :
    Gives i s (emit (becomes (atSlice s q) q (cellAt s q.addr) (op.cell (cellAt s q.addr))) .ack) := by
  have gives := gives_cell row up f free noted.isCell
  rwa [applyCell_noted noted, cellAt_atSlice] at gives

/-- A PUT that carries an error is counted, and leaves the cell in ERR (R188, R200). -/
theorem gives_poisonIn {w : MintWord} {e : Nat} (row : exec i s = atomRow s q (.put w (some e))) :
    Gives i s (emit (setCell (noteErrPacket (atSlice s q) q) q.addr (cellAt s q.addr).poisonIn) .ack) := by
  have counted : Noted (atSlice s q) (noteErrPacket (atSlice s q) q) := recordCount_noted ..
  have same : cellAt (noteErrPacket (atSlice s q) q) q.addr = cellAt s q.addr :=
    (cellAt_congr counted.mem counted.arr _).trans (cellAt_atSlice ..)
  have gives := gives_cell row up f free rfl
  simp only [applyCell, stepCell_poisonIn, AtomOp.carriesErr, if_true, same] at gives
  exact gives

/-- A cell that is OPEN or SEALED is read and sealed (R176, R179). -/
theorem gives_sealUp (row : exec i s = atomRow s q .mintRead) (readable : (cellAt s q.addr).readErr.isSome = false) :
    Gives i s (emit (setCell (atSlice s q) q.addr (cellAt s q.addr).sealUp) (.readData (cellAt s q.addr).shown.bytes [])) := by
  have gives := gives_cell row up f free rfl
  simp only [applyCell, stepCell_read, AtomOp.carriesErr, Bool.false_eq_true, if_false, cellAt_atSlice, readable] at gives
  exact gives

/-- A cell in NONE or ERR is read as an error, and stays as it is (R188, R200). -/
theorem gives_readErr (row : exec i s = atomRow s q .mintRead) (err : (cellAt s q.addr).readErr.isSome = true)
    (stays : (cellAt s q.addr).sealUp = cellAt s q.addr) :
    Gives i s (emit (record (setCell (atSlice s q) q.addr (cellAt s q.addr)) (atomRec 0x2A q))
      (.readData (cellAt s q.addr).shown.bytes [])) := by
  have gives := gives_cell row up f free rfl
  simp only [applyCell, stepCell_read, AtomOp.carriesErr, Bool.false_eq_true, if_false, cellAt_atSlice, err, if_true, stays] at gives
  exact gives

end

theorem Cell.readErr_isSome_of_read {c : Cell} (h : c.state = 1 ∨ c.state = 2) : c.readErr.isSome = false := by
  rw [Cell.readErr, if_neg (by omega), if_neg (by omega)]
  rfl

theorem Cell.readErr_isSome_of_err {c : Cell} (h : c.state = 0 ∨ c.state = 3) : c.readErr.isSome = true := by
  unfold Cell.readErr
  rcases h with none | err
  · rw [if_pos none]; rfl
  · rw [if_neg (by omega), if_pos err]; rfl

theorem Cell.sealUp_of_err {c : Cell} (h : c.state = 0 ∨ c.state = 3) : c.sealUp = c := if_neg (by omega)

/-! ### Mint transfer packets -/

theorem packetReq_part (p : Fin 16) (a : Nat) : (packetReq p a).part = p := Fin.ext (Nat.mod_eq_of_lt p.isLt)

section
variable {s : State} {p : Fin 16} {b : Bytes} (up : FabricUp s)
include up

/-- A packet that breaks Table 5-5 is refused (R185). -/
theorem mintTransferPacket_malformed (bad : MintPkt.ofBytes b = none) :
    Gives (.mintTransferPacket p b) s (emit (record (fresh s) { cls := 0x2B, kind := 3, part := some p }) .errorCompletion) := by
  have on : (!domainOn (fresh s) 28) = false := congrArg not up.2
  rw [Gives, exec_mintTransferPacket, execMintTransferPacket, act_live up.1, on]
  simp only [bad, takePacket, takeMint, packetReq_part]
  rfl

/-- A packet whose cells no agent holds is taken at its slices (R187). -/
theorem mintTransferPacket_taken {k : MintPkt} (good : MintPkt.ofBytes b = some k)
    (free : conflicts s (localOf k.dst) (64 * k.words.length) true = []) :
    Gives (.mintTransferPacket p b) s (takeMint (fresh s) (packetReq p (localOf k.dst)) (some k)) := by
  have on : (!domainOn (fresh s) 28) = false := congrArg not up.2
  have held : k.held (fresh s) (localOf k.dst) = [] := free
  rw [Gives, exec_mintTransferPacket, execMintTransferPacket, act_live up.1, on]
  simp only [good, held, takePacket]
  rfl

end

/-- Settles O31: each row of a cell by what its operation makes of the cell that its slice reads, and a packet by its words. -/
theorem mintCellsFollowTheirTable : Obligations.MintCellsFollowTheirTable := by
  refine ⟨fun s q up f free => ⟨fun a => ?_, fun w => ?_, fun w => ?_, fun w e => ?_, fun readable => ?_, fun err => ?_⟩,
    fun s q k up f => ⟨fun a => ?_, fun w => ?_, ?_, fun w e => ?_⟩,
    fun s p b up => ⟨fun bad => ?_, fun k good free t causes applied => ?_⟩⟩
  · exact gives_becomes up f free (exec_mintInit q a s) (.inl ⟨a, rfl⟩)
  · exact gives_becomes up f free (exec_mintAdd q w s) (.inr (.inl ⟨w, rfl⟩))
  · exact gives_becomes up f free (exec_cellPut q w none s) (.inr (.inr ⟨w, rfl⟩))
  · exact gives_poisonIn up f free (exec_cellPut q w (some e) s)
  · exact gives_sealUp up f free (exec_mintRead q s) (Cell.readErr_isSome_of_read readable)
  · exact gives_readErr up f free (exec_mintRead q s) (Cell.readErr_isSome_of_err err) (Cell.sealUp_of_err err)
  · exact gives_refused (exec_mintInit q a s) up f
  · exact gives_refused (exec_mintAdd q w s) up f
  · exact gives_refused (exec_mintRead q s) up f
  · exact gives_refused (exec_cellPut q w e s) up f
  · exact mintTransferPacket_malformed up bad
  · have gives := mintTransferPacket_taken (p := p) up good free
    rw [takeMint, applied] at gives
    cases causes <;> exact gives

end Sys2Proof.Machine
end

section
/-! PROOFS. What is kept about memory's errors, and what takes memory out of service (O44). -/

namespace Sys2Proof.Machine

open Sys2Proof.Safety

/-! ### What the start of a packet and of a row leave of the memory -/

@[simp] theorem deedAt_begun (s : State) (op : Nat) (c : Packet) (pa : Nat) : deedAt (begun s op c) pa = deedAt s pa := by
  rw [deedAt, begun_mem, deedAt]

@[simp] theorem stackOf_begun (s : State) (op : Nat) (c : Packet) (n : Nat) : stackOf (begun s op c) n = stackOf s n := by
  rw [stackOf, begun_mem, stackOf]

@[simp] theorem fitted_begun (s : State) (op : Nat) (c : Packet) : fitted (begun s op c) = fitted s := by
  simp only [fitted, stackOf_begun]

@[simp] theorem addrFault_fresh (s : State) (pa : Nat) : addrFault (fresh s) pa = addrFault s pa := rfl

@[simp] theorem lostAt_fresh (s : State) (pa : Nat) : lostAt (fresh s) pa = lostAt s pa := rfl

@[simp] theorem scrubFree_fresh (s : State) (pa : Nat) : scrubFree (fresh s) pa = scrubFree s pa := rfl

/-! ### Lists of numbers -/

theorem addNew_of_mem {l : List Nat} {x : Nat} (h : x ∈ l) : addNew l x = l := if_pos (List.contains_iff_mem.mpr h)

theorem addNew_of_not_mem {l : List Nat} {x : Nat} (h : x ∉ l) : addNew l x = l ++ [x] :=
  if_neg fun found => h (List.contains_iff_mem.mp found)

/-! ### The works of the commands -/

/-- The records whose granule's deed names the caller, all of them for partition 0 (R235). -/
theorem memPoisonReadBody_answers {c : Packet} {s : State} {r : ReplyTo} (h0 : zeroFrom c 3) (whole : c.p1.toNat % 16 = 0) :
    let mine := s.mem.records.filter fun x => partOf c = 0 || (deedAt s x.addr).names (partOf c)
    let l := (mine.drop c.p2.toNat).take (bufLen c c.p1.toNat / 16)
    memPoisonReadBody c s r = (s, output l.length c.p0.toNat (l.flatMap PoisonRec.bytes)) :=
  (reservedFrom_zero h0).trans (if_neg (not_not.mpr whole))

section
variable {c : Packet} {s : State} {r : ReplyTo} (hp : partOf c = 0)
include hp

section
variable (h0 : zeroFrom c 2)
include h0

section
variable (aligned : c.p0.toNat % 65536 = 0) (inHbm : c.p0.toNat < fitted s)
include aligned inHbm

theorem memRetireBody_takesOff (off : c.p1.toNat = 1) :
    let l := without s.mem.retired (c.p0.toNat / 65536)
    memRetireBody c s r = ({ s with mem := { s.mem with retired := l } }, okay l.length) :=
  (if_neg (not_not.mpr hp)).trans ((reservedFrom_zero h0).trans ((if_neg (by omega)).trans ((if_neg (by omega)).trans (if_pos off))))

/-- A page that is to be retired meets the limit of 4,096 only where it is not listed (R234). -/
theorem memRetireBody_retires (on : c.p1.toNat = 0) :
    let page := c.p0.toNat / 65536
    memRetireBody c s r =
      if !s.mem.retired.contains page && s.mem.retired.length ≥ 4096 then (s, busy 0)
      else ({ s with mem := { s.mem with retired := addNew s.mem.retired page } }, okay (addNew s.mem.retired page).length) :=
  (if_neg (not_not.mpr hp)).trans
    ((reservedFrom_zero h0).trans ((if_neg (by omega)).trans ((if_neg (by omega)).trans (if_neg (by omega)))))

theorem memRetireBody_again (on : c.p1.toNat = 0) (listed : c.p0.toNat / 65536 ∈ s.mem.retired) :
    memRetireBody c s r = (s, okay s.mem.retired.length) := by
  rw [memRetireBody_retires hp h0 aligned inHbm on, if_neg (by simp [listed]), addNew_of_mem listed]

theorem memRetireBody_lists (on : c.p1.toNat = 0) (new : c.p0.toNat / 65536 ∉ s.mem.retired) (room : s.mem.retired.length < 4096) :
    let l := s.mem.retired ++ [c.p0.toNat / 65536]
    memRetireBody c s r = ({ s with mem := { s.mem with retired := l } }, okay l.length) := by
  rw [memRetireBody_retires hp h0 aligned inHbm on, if_neg (by simp [room]), addNew_of_not_mem new]

theorem memRetireBody_full (on : c.p1.toNat = 0) (new : c.p0.toNat / 65536 ∉ s.mem.retired) (full : 4096 ≤ s.mem.retired.length) :
    memRetireBody c s r = (s, busy 0) := by
  rw [memRetireBody_retires hp h0 aligned inHbm on, if_pos (by simp [new, full])]

end

theorem memRetireListBody_answers (whole : c.p1.toNat % 8 = 0) :
    let l := s.mem.retired.take (bufLen c c.p1.toNat / 8)
    memRetireListBody c s r = (s, output l.length c.p0.toNat (l.flatMap fun k => leBytes 8 (k * 65536))) :=
  (if_neg (not_not.mpr hp)).trans ((reservedFrom_zero h0).trans (if_neg (not_not.mpr whole)))

end

theorem memScrubBody_sets (h0 : zeroFrom c 1) (low : 1 ≤ c.p0.toNat) (high : c.p0.toNat ≤ 720) :
    memScrubBody c s r = ({ s with mem := { s.mem with scrubHours := c.p0.toNat } }, okay c.p0.toNat) :=
  (if_neg (not_not.mpr hp)).trans ((reservedFrom_zero h0).trans (if_neg (by omega)))

end

theorem memRetire_ends {s : State} {c : Packet} (hp : partOf c = 0) (ha : Accepts s 0x0341 c) (h0 : zeroFrom c 2)
    (aligned : c.p0.toNat % 65536 = 0) (inHbm : c.p0.toNat < fitted s) :
    let page := c.p0.toNat / 65536
    let put := fun (l : List Nat) => Ends (.memRetire c) s 0x0341 c
      { begun s 0x0341 c with mem := { s.mem with retired := l } } (okay l.length)
    (c.p1.toNat = 1 → put (without s.mem.retired page)) ∧
    (c.p1.toNat = 0 → page ∈ s.mem.retired → put s.mem.retired) ∧
    (c.p1.toNat = 0 → page ∉ s.mem.retired → s.mem.retired.length < 4096 → put (s.mem.retired ++ [page])) ∧
    (c.p1.toNat = 0 → page ∉ s.mem.retired → 4096 ≤ s.mem.retired.length →
      Ends (.memRetire c) s 0x0341 c (begun s 0x0341 c) (busy 0)) := by
  have fits : c.p0.toNat < fitted (begun s 0x0341 c) := by rwa [fitted_begun]
  refine ⟨fun off => packet_ends rfl ha ?_, fun on listed => packet_ends rfl ha ?_,
    fun on new room => packet_ends rfl ha ?_, fun on new full => packet_ends rfl ha ?_⟩
  · exact (memRetireBody_takesOff hp h0 aligned fits off).trans (by rw [begun_mem])
  · exact (memRetireBody_again hp h0 aligned fits on (by rwa [begun_mem])).trans (by rw [← begun_mem s 0x0341 c])
  · exact (memRetireBody_lists hp h0 aligned fits on (by rwa [begun_mem]) (by rwa [begun_mem])).trans (by rw [begun_mem])
  · exact memRetireBody_full hp h0 aligned fits on (by rwa [begun_mem]) (by rwa [begun_mem])

/-! ### Scrubbing -/

/-- The scrubber reads HBM that answers and scratch alike, where no plan claims the resource (R232). -/
theorem scrubRead_finds {s : State} {a : Nat} (e : EccResult) (hl : live s = true)
    (place : regionOf a = .hbm ∨ regionOf a = .scratch) (mapped : addrFault s a = none)
    (answers : regionOf a = .hbm → lostAt s a = false) (free : scrubFree s a = true) :
    Gives (.scrubRead a e) s (foundError (fresh s) a 0 e) := by
  refine gives_act (exec_scrubRead ..) hl ?_
  rcases place with hbm | scratch
  · simp [hbm, mapped, answers hbm, free]
  · simp [scratch, mapped, free]

/-- Settles O44: each command by what its work answers, each row of a loss by its entry. -/
theorem memoryIsReadRetiredAndScrubbed : Obligations.MemoryIsReadRetiredAndScrubbed := by
  refine ⟨fun s c ha h0 whole => packet_ends rfl ha ?_,
    fun s c hp => ⟨fun ha h0 aligned inHbm => memRetire_ends hp ha h0 aligned inHbm,
      fun ha h0 whole => packet_ends rfl ha ?_, fun ha h0 low high => packet_ends rfl ha ?_⟩,
    fun s hl => ⟨fun a e place mapped answers free => scrubRead_finds e hl place mapped answers free,
      gives_act (exec_scrubIntervalEnd ..) hl rfl, fun n => gives_act (exec_hbmCattrip ..) hl rfl,
      fun n pc => gives_act (exec_pcRetrainFail ..) hl rfl⟩⟩
  · exact (memPoisonReadBody_answers h0 whole).trans (by simp only [deedAt_begun, begun_mem])
  · exact (memRetireListBody_answers hp h0 whole).trans (by rw [begun_mem])
  · exact (memScrubBody_sets hp h0 low high).trans (by rw [begun_mem])

end Sys2Proof.Machine
end

section
/-! PROOFS. The table of deeds (O42): a change is filed and its run emptied, the emptied run is zeroed, and the deeds are read. -/

namespace Sys2Proof.Tbl

/-- A table without the entries whose numbers a test rejects. -/
theorem get_filter {α : Type} (t : Tbl α) (p : Nat → Bool) (k : Nat) (d : α) :
    get (t.filter fun e => p e.1) k d = if p k = true then t.get k d else d := by
  induction t with
  | nil => simp [get]
  | cons x r ih =>
    obtain ⟨j, v⟩ := x
    rw [List.filter_cons]
    by_cases e : j = k
    · subst e
      by_cases kept : p j = true
      · simp [kept, get]
      · simp [kept, ih]
    · by_cases kept : p j = true <;> simp [kept, get, e, ih]

end Sys2Proof.Tbl

namespace Sys2Proof.Machine

open Sys2Proof.Safety

/-! ### Runs of granules, and folds -/

theorem mem_upto {k a n : Nat} : k ∈ upto a n ↔ a ≤ k ∧ k < a + n := by
  simp only [upto, List.mem_map, List.mem_range]
  constructor
  · rintro ⟨i, hi, rfl⟩
    omega
  · rintro ⟨low, high⟩
    exact ⟨k - a, by omega, by omega⟩

/-- What each step of a fold leaves alone, the fold leaves alone. -/
theorem foldl_keeps {α β : Type} {f : State → α → State} (g : State → β) (h : ∀ a x, g (f a x) = g a) (l : List α) (s : State) :
    g (l.foldl f s) = g s := by
  induction l generalizing s with
  | nil => rfl
  | cons x r ih => exact (ih (f s x)).trans (h s x)

/-! ### The commands -/

@[simp] theorem deedOf_begun (s : State) (op : Nat) (c : Packet) (g : Nat) : deedOf (begun s op c) g = deedOf s g := by
  rw [deedOf, begun_mem, deedOf]

@[simp] theorem runFault_begun (s : State) (op : Nat) (c : Packet) (addr count iAddr iCount : Nat) :
    runFault (begun s op c) addr count iAddr iCount = runFault s addr count iAddr iCount := by
  rw [begun_rest]
  rfl

@[simp] theorem storeInRun_begun (s : State) (op : Nat) (c : Packet) (g n : Nat) :
    storeInRun (begun s op c) g n = storeInRun s g n := by
  rw [storeInRun, begun_plans, storeInRun]

@[simp] theorem moveInRun_begun (s : State) (op : Nat) (c : Packet) (g n : Nat) :
    moveInRun (begun s op c) g n = moveInRun s g n := by
  rw [moveInRun, begun_mem, moveInRun]

@[simp] theorem boundaryFor_begun (s : State) (op : Nat) (c : Packet) (t : Nat) :
    boundaryFor (begun s op c) t = boundaryFor s t := by
  rw [begun_rest]
  rfl

/-- A legal run that nothing else touches: its change is filed, and it is emptied where its holder changes (R215, R283, R284). -/
theorem deedSetBody_files {c : Packet} {s : State} {r : ReplyTo} {d : Deed} {t : Nat} (h0 : zeroFrom c 4) (hp : partOf c = 0)
    (legal : runFault s c.p0.toNat c.p1.toNat 0 1 = none) (spells : Deed.ofWord c.p2.toNat = some d)
    (noStore : storeInRun s (c.p0.toNat / granule) c.p1.toNat = false)
    (noMove : moveInRun s (c.p0.toNat / granule) c.p1.toNat = false) (boundary : boundaryFor s c.p3.toNat = .ok t) :
    let g := c.p0.toNat / granule
    let n := c.p1.toNat
    let z := (upto g n).any fun k => (deedOf s k).zeroes d
    let m : DeedMove := { first := g, count := n, deed := d, turn := t, zeroing := z, zeroed := false, reply := r }
    let u := { s with mem := { s.mem with moves := s.mem.moves ++ [m] } }
    deedSetBody c s r = (if z = true then emptyRun u g n else u, .interim t) := by
  refine (if_neg (not_not.mpr hp)).trans ((reservedFrom_zero h0).trans ?_)
  simp only [legal, spells, noStore, noMove, boundary]
  rfl

/-- Each granule's word to partition 0 and to the partitions that its deed names, 3 to others (R284). -/
theorem deedReadBody_answers {c : Packet} {s : State} {r : ReplyTo} (h0 : zeroFrom c 3)
    (legal : runFault s c.p1.toNat c.p2.toNat 1 2 = none) :
    deedReadBody c s r = (s, output c.p2.toNat c.p0.toNat ((upto (c.p1.toNat / granule) c.p2.toNat).flatMap fun g =>
      leBytes 4 (if partOf c = 0 ∨ (deedOf s g).names (partOf c) = true then (deedOf s g).word else 3))) := by
  refine (reservedFrom_zero h0).trans ?_
  simp only [legal]

/-! ### Clearing the lines of a granule leaves memory alone (R249) -/

theorem dropHolder_mem (s : State) (line a : Nat) : (dropHolder s line a).mem = s.mem := by
  unfold dropHolder
  split <;> rfl

theorem dropHolder_txns (s : State) (line a : Nat) : (dropHolder s line a).coh.txns = s.coh.txns := by
  unfold dropHolder
  split <;> rfl

theorem sendSnoops_mem (s : State) (line : Nat) (k : TxnKind) : (sendSnoops s line k).mem = s.mem := by
  unfold sendSnoops
  dsimp only
  rw [foldl_keeps State.mem fun x _ => emit_mem x _, foldl_keeps State.mem fun x a => dropHolder_mem x line a]

/-- The transaction that snoops go out for is the last one; it brings no data yet. -/
theorem sendSnoops_txns (s : State) (line : Nat) (k : TxnKind) :
    ∃ t : Txn, t.line = line ∧ t.kind = k ∧ t.dirty = none ∧ (sendSnoops s line k).coh.txns = s.coh.txns ++ [t] := by
  unfold sendSnoops
  dsimp only
  rw [foldl_keeps State.coh fun x _ => emit_coh x _, foldl_keeps (fun x => x.coh.txns) fun x a => dropHolder_txns x line a]
  exact ⟨_, rfl, rfl, rfl, rfl⟩

theorem txnOf_sendSnoops {s : State} {line : Nat} {k : TxnKind} (first : txnOf s line = none) :
    ∃ t : Txn, t.line = line ∧ t.kind = k ∧ t.dirty = none ∧ txnOf (sendSnoops s line k) line = some t := by
  obtain ⟨t, hline, hkind, hdirty, last⟩ := sendSnoops_txns s line k
  refine ⟨t, hline, hkind, hdirty, ?_⟩
  rw [txnOf] at first
  rw [txnOf, last, List.find?_append, first]
  simp [hline]

/-- A clearing discards what its snoops bring, and enters nothing. -/
theorem closeTxn_clear_mem {s : State} {line : Nat} {t : Txn} (found : txnOf s line = some t) (kind : t.kind = .clear)
    (dirty : t.dirty = none) : (closeTxn s line).mem = s.mem := by
  unfold closeTxn landDirty
  simp only [found, kind, dirty]
  split <;> rfl

theorem attempt_clear_mem (s : State) (line : Nat) : (attempt s line .clear).1.mem = s.mem := by
  cases free : lineFree s line .clear
  · simp [attempt, free]
  · have first : txnOf s line = none := by
      rw [lineFree, Bool.and_eq_true] at free
      exact Option.isNone_iff_eq_none.mp free.1
    obtain ⟨t, -, kind, dirty, found⟩ := txnOf_sendSnoops (k := .clear) first
    have taken : attempt s line .clear = (closeTxn (sendSnoops s line .clear) line, true) := if_neg (by simp [free])
    rw [taken, closeTxn_clear_mem found kind dirty, sendSnoops_mem]

theorem requestLine_clear_mem (s : State) (line : Nat) : (requestLine s line .clear).mem = s.mem := by
  have kept := attempt_clear_mem s line
  unfold requestLine
  dsimp only
  split
  · rfl
  · split <;> exact kept

theorem clearGranule_mem (s : State) (g : Nat) : (clearGranule s g).mem = s.mem :=
  foldl_keeps State.mem requestLine_clear_mem _ s

/-! ### Emptied runs -/

theorem deedOf_congr {s t : State} (h : t.mem = s.mem) (g : Nat) : deedOf t g = deedOf s g := by rw [deedOf, h, deedOf]

theorem setDeed_reset_same (s : State) (g : Nat) : deedOf (setDeed s g Deed.reset) g = Deed.reset := Tbl.get_drop_same ..

theorem setDeed_reset_other (s : State) {g k : Nat} (h : g ≠ k) : deedOf (setDeed s g Deed.reset) k = deedOf s k :=
  Tbl.get_drop_other _ _ h

/-- One granule emptied. -/
def emptyGranule (s : State) (g : Nat) : State := clearGranule (setDeed s g Deed.reset) g

theorem deedOf_emptyGranule (s : State) (g k : Nat) : deedOf (emptyGranule s g) k = if g = k then Deed.reset else deedOf s k := by
  rw [emptyGranule, deedOf_congr (clearGranule_mem ..)]
  split
  next same => rw [same, setDeed_reset_same]
  next other => exact setDeed_reset_other s other

/-- A granule that is among those emptied, or had no deed before, has none after. -/
theorem deedOf_emptyGranules {l : List Nat} {s : State} {k : Nat} (h : k ∈ l ∨ deedOf s k = Deed.reset) :
    deedOf (l.foldl emptyGranule s) k = Deed.reset := by
  induction l generalizing s with
  | nil => exact h.resolve_left List.not_mem_nil
  | cons g r ih =>
    refine ih ?_
    rw [deedOf_emptyGranule]
    by_cases e : g = k
    · exact .inr (if_pos e)
    · rw [if_neg e]
      exact h.imp_left fun m => (List.mem_cons.mp m).resolve_left (Ne.symm e)

theorem deedOf_emptyRun (s : State) {g n k : Nat} (low : g ≤ k) (high : k < g + n) : deedOf (emptyRun s g n) k = Deed.reset :=
  deedOf_emptyGranules (l := upto g n) (.inl (mem_upto.mpr ⟨low, high⟩))

/-! ### Zeros in memory -/

/-- The byte at a key is zero, and its unit is not poisoned. -/
def Mem.ClearAt (m : Mem) (k : Nat) : Prop := m.byte k = 0#8 ∧ m.poisoned k = false

theorem Mem.byte_zero (m : Mem) (k n j : Nat) : (m.zero k n).byte j = if j < k ∨ k + n ≤ j then m.byte j else 0#8 := by
  have h := Tbl.get_filter m.cells (fun a => decide (a < k) || decide (k + n ≤ a)) j 0#8
  simpa [Mem.byte, Mem.zero] using h

theorem Mem.poisoned_zero (m : Mem) (k n j : Nat) :
    (m.zero k n).poisoned j = (m.poisoned j && (decide (j / 64 * 64 < k) || decide (k + n ≤ j / 64 * 64))) := by
  rw [Bool.eq_iff_iff]
  simp [Mem.poisoned, Mem.zero]

theorem Mem.ClearAt.zero {m : Mem} {j : Nat} (h : m.ClearAt j) (k n : Nat) : (m.zero k n).ClearAt j := by
  obtain ⟨byte, unit⟩ := h
  refine ⟨?_, ?_⟩
  · rw [Mem.byte_zero, byte, ite_self]
  · rw [Mem.poisoned_zero, unit, Bool.false_and]

/-- Whole units that are zeroed are clear. -/
theorem Mem.clearAt_zero (m : Mem) {k n j : Nat} (units : k % 64 = 0) (low : k ≤ j) (high : j < k + n) :
    (m.zero k n).ClearAt j := by
  refine ⟨?_, ?_⟩
  · rw [Mem.byte_zero, if_neg (by omega)]
  · have inside : (decide (j / 64 * 64 < k) || decide (k + n ≤ j / 64 * 64)) = false := by
      simp only [Bool.or_eq_false_iff, decide_eq_false_iff_not]
      omega
    rw [Mem.poisoned_zero, inside, Bool.and_false]

/-! ### One granule zeroed -/

theorem keyOf_congr {s t : State} (h : t.arr = s.arr) (pa : Nat) : keyOf t pa = keyOf s pa := by
  simp only [keyOf, logArr, h]

theorem keyOf_hbm (s : State) {pa : Nat} (h : pa < hbmEnd) : keyOf s pa = pa := by
  simp [keyOf, regionOf, h]

/-- The bytes of one granule become zero. -/
def zeroGranule (s : State) (g : Nat) : State := { s with mem := s.mem.zero (keyOf s (g * granule)) granule }

theorem zeroGranule_arr (s : State) (g : Nat) : (zeroGranule s g).arr = s.arr := rfl

theorem zeroGranule_coh (s : State) (g : Nat) : (zeroGranule s g).coh = s.coh := rfl

theorem granule_units (g : Nat) : g * granule % 64 = 0 := by
  rw [granule]
  omega

/-- A granule of HBM is clear once it is among those zeroed; what was clear stays so. -/
theorem clearAt_zeroGranules {l : List Nat} {s : State} {g i : Nat} (inside : i < granule) (hbm : g * granule < hbmEnd)
    (h : g ∈ l ∨ s.mem.ClearAt (g * granule + i)) : (l.foldl zeroGranule s).mem.ClearAt (g * granule + i) := by
  induction l generalizing s with
  | nil => exact h.resolve_left List.not_mem_nil
  | cons x r ih =>
    refine ih ?_
    rcases h with m | clear
    · refine (List.mem_cons.mp m).symm.imp_right ?_
      rintro rfl
      rw [zeroGranule, keyOf_hbm s hbm]
      exact Mem.clearAt_zero _ (granule_units g) (Nat.le_add_right ..) (Nat.add_lt_add_left inside _)
    · exact .inr (clear.zero ..)

/-- No granule of a list has its bytes under a key. -/
def Outside (s : State) (l : List Nat) (k : Nat) : Prop :=
  ∀ g ∈ l, k < keyOf s (g * granule) ∨ keyOf s (g * granule) + granule ≤ k

theorem Outside.congr {s t : State} {l : List Nat} {k : Nat} (h : Outside s l k) (same : t.arr = s.arr) : Outside t l k := by
  intro g m
  rw [keyOf_congr same]
  exact h g m

theorem byte_zeroGranules {l : List Nat} {s : State} {k : Nat} (h : Outside s l k) :
    (l.foldl zeroGranule s).mem.byte k = s.mem.byte k := by
  induction l generalizing s with
  | nil => rfl
  | cons x r ih =>
    have rest : Outside (zeroGranule s x) r k := Outside.congr (fun g m => h g (List.mem_cons_of_mem _ m)) rfl
    exact (ih rest).trans ((Mem.byte_zero ..).trans (if_pos (h x List.mem_cons_self)))

/-! ### Runs zeroed -/

/-- From `s` to `t` nothing but zeros in a run of granules and the marks of moves have been written. -/
structure OnlyRun (s : State) (m : DeedMove) (t : State) : Prop where
  arr : t.arr = s.arr
  coh : t.coh = s.coh
  outside : ∀ k, Outside s (upto m.first m.count) k → t.mem.byte k = s.mem.byte k

/-- The run of a move holds zeros, and no move waits for its zeros. -/
structure RunZero (m : DeedMove) (t : State) : Prop where
  clear : ∀ g i, g ∈ upto m.first m.count → i < granule → g * granule < hbmEnd → t.mem.ClearAt (g * granule + i)
  done : ∀ x ∈ t.mem.moves, x.first = m.first → x.zeroing = false

/-- The granules of a move's run are quiet (R249). -/
abbrev RunQuiet (s : State) (m : DeedMove) : Prop := (upto m.first m.count).all (granuleQuiet s) = true

theorem zeroRun_idle {s : State} {m : DeedMove} (h : m.zeroing = true → m.zeroed = false) : zeroRun s m = s := by
  have notDue : (m.zeroing && m.zeroed) = false := by
    cases zeroing : m.zeroing
    · rfl
    · exact h zeroing
  rw [zeroRun, notDue]
  rfl

/-- A move after the zeros of a run: it no longer waits for them where the run is its own. -/
def DeedMove.done (first : Nat) (x : DeedMove) : DeedMove := if x.first = first then { x with zeroing := false } else x

theorem DeedMove.done_zeroing {x : DeedMove} {first : Nat} (h : (x.done first).first = first) : (x.done first).zeroing = false := by
  unfold DeedMove.done at *
  split at h
  next own => rw [if_pos own]
  next other => exact absurd h other

theorem zeroRun_due {s : State} {m : DeedMove} (zeroing : m.zeroing = true) (zeroed : m.zeroed = true) (quiet : RunQuiet s m) :
    let z := (upto m.first m.count).foldl zeroGranule s
    zeroRun s m = { z with mem := { z.mem with moves := z.mem.moves.map (DeedMove.done m.first) } } := by
  rw [zeroRun, if_pos (by rw [zeroing, zeroed, quiet]; rfl)]
  rfl

theorem zeroRun_zeroes {s t : State} {m : DeedMove} (zeroing : m.zeroing = true) (zeroed : m.zeroed = true)
    (quiet : RunQuiet s m) (h : OnlyRun s m t) : OnlyRun s m (zeroRun t m) ∧ RunZero m (zeroRun t m) := by
  have same : granuleQuiet t = granuleQuiet s := by
    funext g
    simp only [granuleQuiet, h.coh]
  rw [zeroRun_due zeroing zeroed (by rw [RunQuiet, same]; exact quiet)]
  refine ⟨⟨?_, ?_, fun k out => ?_⟩, ⟨fun g i mg inside hbm => clearAt_zeroGranules inside hbm (.inl mg), fun x mx => ?_⟩⟩
  · exact (foldl_keeps State.arr zeroGranule_arr _ t).trans h.arr
  · exact (foldl_keeps State.coh zeroGranule_coh _ t).trans h.coh
  · exact (byte_zeroGranules (out.congr h.arr)).trans (h.outside k out)
  · obtain ⟨y, -, rfl⟩ := List.mem_map.mp mx
    exact DeedMove.done_zeroing

/-- Where one move alone is due, its run alone is zeroed. -/
theorem zeroRun_foldl {l : List DeedMove} {s t : State} {m : DeedMove} (zeroing : m.zeroing = true) (zeroed : m.zeroed = true)
    (quiet : RunQuiet s m) (alone : ∀ x ∈ l, x = m ∨ (x.zeroing = true → x.zeroed = false)) (h : OnlyRun s m t)
    (due : m ∈ l ∨ RunZero m t) : OnlyRun s m (l.foldl zeroRun t) ∧ RunZero m (l.foldl zeroRun t) := by
  induction l generalizing t with
  | nil => exact ⟨h, due.resolve_left List.not_mem_nil⟩
  | cons x r ih =>
    have rest := fun y (hy : y ∈ r) => alone y (List.mem_cons_of_mem _ hy)
    rw [List.foldl_cons]
    by_cases this : x = m
    · subst this
      obtain ⟨only, zero⟩ := zeroRun_zeroes zeroing zeroed quiet h
      exact ih rest only (.inr zero)
    · rw [zeroRun_idle ((alone x List.mem_cons_self).resolve_left this)]
      exact ih rest h (due.imp_left fun mem => (List.mem_cons.mp mem).resolve_left (Ne.symm this))

/-- The move whose run the hub reports zeroed. -/
def DeedMove.report (first : Nat) (x : DeedMove) : DeedMove := if x.first = first then { x with zeroed := true } else x

theorem DeedMove.report_same {x : DeedMove} {first : Nat} (h : x.first = first) : x.report first = { x with zeroed := true } :=
  if_pos h

theorem DeedMove.report_other {x : DeedMove} {first : Nat} (h : x.first ≠ first) : x.report first = x := if_neg h

/-- The state in which the hub has reported a run zeroed. -/
def reported (s : State) (first : Nat) : State :=
  { s with mem := { s.mem with moves := s.mem.moves.map (DeedMove.report first) } }

theorem deedZeroingComplete_gives {s : State} (first : Nat) (hl : live s = true) :
    Gives (.deedZeroingComplete first) s (zeroRuns (reported (fresh s) first)) :=
  gives_act (exec_deedZeroingComplete ..) hl rfl

/-- The run that is reported zeroed, alone of those whose snoops are over, is zeroed (R215, R283). -/
theorem zeroRuns_reported {s : State} {m : DeedMove} (filed : m ∈ s.mem.moves) (zeroing : m.zeroing = true)
    (quiet : RunQuiet s m) (only : ∀ x ∈ s.mem.moves, x.first = m.first → x = m)
    (others : ∀ x ∈ s.mem.moves, x ≠ m → x.zeroing = true → x.zeroed = false) :
    let t := zeroRuns (reported (fresh s) m.first)
    OnlyRun s (m.report m.first) t ∧ RunZero (m.report m.first) t := by
  rw [DeedMove.report_same rfl]
  refine zeroRun_foldl zeroing rfl quiet (fun y my => ?_) ⟨rfl, rfl, fun _ _ => rfl⟩
    (.inl (List.mem_map.mpr ⟨m, filed, DeedMove.report_same rfl⟩))
  obtain ⟨x, mx, rfl⟩ := List.mem_map.mp my
  by_cases this : x.first = m.first
  · rw [DeedMove.report_same this, only x mx this]
    exact .inl rfl
  · rw [DeedMove.report_other this]
    exact .inr (others x mx fun e => this (congrArg DeedMove.first e))

/-- Settles O42: DEED_SET and DEED_READ by their works, an emptied run granule by granule, and the zeroing by the one move due. -/
theorem deedsChangeAtABoundary : Obligations.DeedsChangeAtABoundary := by
  refine ⟨fun s c d t ha h0 hp legal spells => ?_, fun s g n k low high => deedOf_emptyRun s low high,
    fun s m hl filed zeroing quiet only others => ?_, fun s c ha h0 legal => packet_ends rfl ha ?_⟩
  · intro g n noStore noMove boundary z m u
    refine packet_ends rfl ha ?_
    refine (deedSetBody_files h0 hp (by rwa [runFault_begun]) spells (by rwa [storeInRun_begun]) (by rwa [moveInRun_begun])
      (by rwa [boundaryFor_begun])).trans ?_
    simp only [deedOf_begun, begun_mem]
    rfl
  · have still : RunQuiet s m := List.all_eq_true.mpr fun g mg => quiet g (mem_upto.mp mg).1 (mem_upto.mp mg).2
    obtain ⟨run, zero⟩ := zeroRuns_reported filed zeroing still only others
    rw [DeedMove.report_same rfl] at run zero
    exact ⟨_, deedZeroingComplete_gives m.first hl,
      fun g i low high inside hbm => zero.clear g i (mem_upto.mpr ⟨low, high⟩) inside hbm, fun k out => run.outside k fun g mg => out g (mem_upto.mp mg).1 (mem_upto.mp mg).2, zero.done⟩
  · exact (deedReadBody_answers h0 (by rwa [runFault_begun])).trans (by simp only [deedOf_begun])

end Sys2Proof.Machine
end

section
/-! PROOFS. The directory under caching requests (O40), and the rows of responses, evictions, answered offers, the hold window, time-outs
and flushes (O39). -/

namespace Sys2Proof.Tbl

theorem mem_of_find? {α : Type} {t : Tbl α} {k : Nat} {v : α} (h : t.find? k = some v) : (k, v) ∈ t := by
  induction t with
  | nil => cases h
  | cons x r ih =>
    rw [find?] at h
    split at h
    case isTrue same =>
      cases h
      exact same ▸ List.mem_cons_self
    case isFalse => exact List.mem_cons_of_mem _ (ih h)

theorem mem_of_mem_drop {α : Type} {t : Tbl α} {k : Nat} {e : Nat × α} (h : e ∈ t.drop k) : e ∈ t := List.mem_of_mem_filter h

end Sys2Proof.Tbl

namespace Sys2Proof.Machine

open Sys2Proof.Safety

/-! ### What memory, the Granary and the ledger leave of the directory -/

@[simp] theorem record_coh (s : State) (r : Rec) : (record s r).coh = s.coh := (record_noted s r).coh

@[simp] theorem memPut_coh (s : State) (pa : Nat) (d : Bytes) : (memPut s pa d).coh = s.coh := by
  have pieces (n : Nat) : ∀ s pa d, (memWritePieces n s pa d).coh = s.coh := by
    induction n with
    | zero => intros; rfl
    | succ n ih =>
      intro s pa d
      rw [memWritePieces]
      split
      · rfl
      · exact (ih ..).trans (by split <;> rfl)
  exact pieces ..

@[simp] theorem touchLine_coh (s : State) (c : CacheLine) (w : Bool) : (touchLine s c w).coh = s.coh := rfl

@[simp] theorem writeLine_coh (s : State) (line : Nat) (d : Bytes) : (writeLine s line d).coh = s.coh := by
  unfold writeLine
  dsimp only
  split <;> simp

@[simp] theorem landDirty_coh (s : State) (t : Txn) : (landDirty s t).coh = s.coh := by
  unfold landDirty
  split <;> simp

@[simp] theorem dropLine_coh (s : State) (line : Nat) : (dropLine s line).coh = s.coh := rfl

@[simp] theorem wayMiss_coh (s : State) (cls held : Nat) : (wayMiss s cls held).coh = s.coh := by
  unfold wayMiss
  split <;> rfl

@[simp] theorem allocate_coh (s : State) (p cls line : Nat) (w : Bool) : (allocate s p cls line w).coh = s.coh := by
  unfold allocate
  dsimp only
  repeat' split
  all_goals simp

@[simp] theorem cacheAccess_coh (s : State) (p cls line : Nat) (w alloc : Bool) : (cacheAccess s p cls line w alloc).coh = s.coh := by
  unfold cacheAccess
  split
  · rfl
  · split <;> simp

@[simp] theorem noteLine_coh (old s : State) (p line : Nat) : (noteLine old s p line).coh = s.coh := by
  unfold noteLine
  dsimp only
  split
  · split <;> split <;> simp
  · simp
  · rfl

@[simp] theorem lookUp_coh (s : State) (p share pa n : Nat) (w alloc : Bool) : (lookUp s p share pa n w alloc).coh = s.coh := by
  unfold lookUp cacheSpan
  split
  case h_2 => rfl
  case h_1 =>
    rw [foldl_keeps State.coh fun _ _ => noteLine_coh ..]
    split
    · exact foldl_keeps State.coh (fun _ _ => cacheAccess_coh ..) _ _
    · rfl

@[simp] theorem correctedHbm_coh (s : State) (pa part symbol : Nat) : (correctedHbm s pa part symbol).coh = s.coh := record_coh ..

@[simp] theorem taintWith_coh (s : State) (pa source symbols : Nat) : (taintWith s pa source symbols).coh = s.coh := rfl

@[simp] theorem taintLine_coh (s : State) (line source : Nat) : (taintLine s line source).coh = s.coh := rfl

@[simp] theorem foundError_coh (s : State) (pa part : Nat) (e : EccResult) : (foundError s pa part e).coh = s.coh := by
  unfold foundError
  dsimp only
  repeat' split
  all_goals simp

@[simp] theorem refuseCoh_coh (s : State) (a line : Nat) (cls : Option Nat) : (refuseCoh s a line cls).coh = s.coh := by
  unfold refuseCoh
  cases cls <;> simp

/-! ### The entry of a grant -/

/-- The entry that a grant makes: an agent granted S joins the others (R243, R247). -/
def grantEntry (s : State) (line a way : Nat) (g : Grant) : DirEntry :=
  { way := way, owned := g ≠ .s, holders := addNew (if g = .s then without (holdersOf s line) a else []) a }

theorem grantLine_dir (s : State) (line a way : Nat) (g : Grant) (e : EccResult) :
    (grantLine s line a way g e).coh.dir = (setDir s line (grantEntry s line a way g)).coh.dir := by
  unfold grantLine grantEntry
  dsimp only
  split <;> split <;> simp

/-- One in state O names the agent alone. -/
theorem grantEntry_alone (s : State) (line a way : Nat) (g : Grant) (owned : (grantEntry s line a way g).owned = true) :
    (grantEntry s line a way g).holders.length ≤ 1 := by
  have exclusive : g ≠ .s := of_decide_eq_true owned
  rw [grantEntry, if_neg exclusive]
  exact Nat.le_refl 1

/-! ### Entries in state O (R243) -/

/-- Each directory entry in state O names at most one holder. -/
def OneHolder (s : State) : Prop := ∀ x ∈ s.coh.dir, x.2.owned = true → x.2.holders.length ≤ 1

namespace OneHolder

variable {s t : State}

theorem of_dir (h : OneHolder s) (e : t.coh.dir = s.coh.dir) : OneHolder t := by rwa [OneHolder, e]

theorem of_coh (h : OneHolder s) (e : t.coh = s.coh) : OneHolder t := h.of_dir (by rw [e])

theorem foldl {α : Type} {f : State → α → State} (l : List α) (hf : ∀ u x, OneHolder u → OneHolder (f u x)) (h : OneHolder s) :
    OneHolder (l.foldl f s) :=
  List.foldlRecOn l f h fun u hu x _ => hf u x hu

theorem dropDir (h : OneHolder s) (line : Nat) : OneHolder (dropDir s line) := fun x hx => h x (Tbl.mem_of_mem_drop hx)

theorem setDir {d : DirEntry} (h : OneHolder s) (line : Nat) (one : d.owned = true → d.holders.length ≤ 1) :
    OneHolder (setDir s line d) := by
  by_cases none : d.holders.isEmpty = true
  · exact (h.dropDir line).of_dir (if_pos none)
  · have entry : (Machine.setDir s line d).coh.dir = s.coh.dir.put line d := if_neg none
    intro x hx
    rw [entry] at hx
    rcases Tbl.mem_put hx with rfl | old
    · exact one
    · exact h x old

theorem dropHolder (h : OneHolder s) (line a : Nat) : OneHolder (dropHolder s line a) := by
  unfold Machine.dropHolder
  split
  case h_1 d found =>
    refine h.setDir line fun owned => ?_
    exact (List.length_filter_le ..).trans (h _ (Tbl.mem_of_find? found) owned)
  case h_2 => exact h

theorem grantLine (h : OneHolder s) (line a way : Nat) (g : Grant) (e : EccResult) : OneHolder (grantLine s line a way g e) :=
  (h.setDir line (grantEntry_alone s line a way g)).of_dir (grantLine_dir ..)

theorem serveTxn (h : OneHolder s) (line way : Nat) (k : TxnKind) : OneHolder (serveTxn s line way k) := by
  cases k with
  | rdS a e => exact h.grantLine line a way _ _
  | rdO a e => exact h.grantLine line a way _ _
  | upg a e => exact h.grantLine line a way _ _
  | stashIn a => exact h.setDir line fun _ => Nat.le_refl 1
  | flush a => exact (h.dropDir line).of_coh (emit_coh ..)
  | purge share =>
    cases share
    · exact h.dropDir line
    · exact h
  | evict => exact h.dropDir line
  | clear => exact h.dropDir line
  | stashTo a => exact h
  | visit n share => exact h

theorem sendSnoops (h : OneHolder s) (line : Nat) (k : TxnKind) : OneHolder (sendSnoops s line k) :=
  foldl _ (fun _ _ hu => hu.of_coh (emit_coh ..)) (foldl _ (fun _ a hu => hu.dropHolder line a) (h.of_dir rfl))

theorem evictFor (h : OneHolder s) (line a : Nat) : OneHolder (evictFor s line a) := by
  unfold Machine.evictFor
  split
  · split
    · exact h.sendSnoops _ _
    · exact h
  · exact h

theorem closeTxn (h : OneHolder s) (line : Nat) : OneHolder (closeTxn s line) := by
  unfold Machine.closeTxn
  dsimp only
  split
  · exact h
  case h_2 t _ =>
    have landed : OneHolder (putTxn (landDirty s t) { t with dirty := none }) := (h.of_coh (landDirty_coh s t)).of_dir rfl
    have closed : OneHolder (dropTxn (putTxn (landDirty s t) { t with dirty := none }) line) := landed.of_dir rfl
    split
    · exact h
    · split
      · exact closed.of_coh (refuseCoh_coh ..)
      · split
        · exact closed.serveTxn line _ _
        · split
          · exact closed.serveTxn line _ _
          · exact landed.evictFor line _

theorem attempt (h : OneHolder s) (line : Nat) (k : TxnKind) : OneHolder (attempt s line k).1 := by
  unfold Machine.attempt
  split
  · split
    · exact h.sendSnoops _ _
    · exact h
  · split
    · exact h
    · split
      · exact h.of_coh (refuseCoh_coh ..)
      · exact (h.sendSnoops line k).closeTxn line

theorem requestLine (h : OneHolder s) (line : Nat) (k : TxnKind) : OneHolder (requestLine s line k) := by
  have tried := h.attempt line k
  unfold Machine.requestLine
  dsimp only
  split
  · exact h.of_dir rfl
  · split
    · exact tried
    · exact tried.of_dir rfl

theorem cohRequest (h : OneHolder s) (m : CohMsg) (k : TxnKind) : OneHolder (cohRequest s m k) := by
  unfold Machine.cohRequest cohRefused
  split
  case h_1 refused =>
    split at refused
    · cases refused
      exact h.of_coh (refuseCoh_coh ..)
    · split at refused <;> cases refused
      exact h.of_coh (refuseCoh_coh ..)
  case h_2 =>
    split
    · exact h.of_coh (refuseCoh_coh ..)
    · exact h.requestLine m.line k

end OneHolder

/-- A row that asks for a line on behalf of an agent. -/
theorem oneHolder_request {s t : State} {i : Instr} {m : CohMsg} {k : TxnKind} (h : OneHolder s)
    (row : exec i s = act s fun u => if domainOn u 28 = true then cohRequest u m k else u) (gives : exec i s = .next t) : OneHolder t := by
  have start : OneHolder (fresh s) := h.of_dir rfl
  rw [row, act] at gives
  split at gives <;> cases gives
  · split
    · exact start.cohRequest m k
    · exact start
  · exact start

/-- Settles O40: a grant of E or M names its agent alone, and everything else that a request does takes holders away. -/
theorem ownedLinesHaveOneHolder : Obligations.OwnedLinesHaveOneHolder := by
  intro s t m one i row gives
  simp only [List.mem_cons, List.not_mem_nil, or_false] at row
  rcases row with rfl | rfl | rfl | rfl
  · exact oneHolder_request one (exec_rdS m s) gives
  · exact oneHolder_request one (exec_rdO m s) gives
  · exact oneHolder_request one (exec_upg m s) gives
  · exact oneHolder_request one (exec_flush m s) gives

/-! ### Messages of an agent that the home hears -/

/-- What the home hears is a message with the epoch of its agent, which is not fenced (R247, R258). -/
theorem cohRefused_eq_none {s : State} {m : CohMsg} :
    cohRefused s m = none ↔ m.epoch % 256 = (agentOf s m.agent).epoch ∧ (agentOf s m.agent).fenced = false := by
  unfold cohRefused
  split
  case isTrue old => simp [old]
  case isFalse current => simp [not_not.mp current]

theorem gives_cohRow {i : Instr} {s t : State} {f : State → State} (row : exec i s = cohRow s f) (up : FabricUp s)
    (h : f (fresh s) = t) : Gives i s (serveArrivals t) := by
  rw [Gives, row, cohRow_live up.1, if_pos up.2, h]

section
variable {s : State} {m : CohMsg} (heard : cohRefused s m = none)
include heard

theorem respond_awaited {t : Txn} (found : txnOf s m.line = some t) (awaited : m.agent.val ∈ t.awaiting) (r : Rsp) :
    respond s m r =
      let u := putTxn (dirAfter (lateResponse s m) m.line m.agent (r.keeps && t.keepS.contains m.agent.val)) (t.take m.agent r).1
      settle (if (t.take m.agent r).2 = true then emit u (.wbAck m.agent m.line) else u) m.line := by
  simp [respond, heard, found, awaited]

/-- A WB for a line without a transaction that its agent may cache is applied (R241, R254, R255). -/
theorem takeWb_lands (d : Bytes) (quiet : txnOf s m.line = none) (allowed : cohFault s m.agent m.line = none) :
    takeWb s m d =
      drainWaiting (emit (dropHolder (writeLine (dropEvict s m.agent m.line) m.line d) m.line m.agent) (.wbAck m.agent m.line)) := by
  have current := cohRefused_eq_none.mp heard
  have heard' : cohRefused (dropEvict s m.agent m.line) m = none := cohRefused_eq_none.mpr current
  have quiet' : txnOf (dropEvict s m.agent m.line) m.line = none := quiet
  have allowed' : cohFault (dropEvict s m.agent m.line) m.agent m.line = none := allowed
  simp only [takeWb, heard', quiet', plainWb, allowed', landWb]

theorem takeEvc_drops : takeEvc s m = drainWaiting (dropHolder s m.line m.agent) := by
  simp only [takeEvc, heard]

theorem answerOffer_stands {t : Txn} (found : txnOf s m.line = some t) (offered : t.kind = .stashTo m.agent) (accept : Bool) :
    answerOffer s m accept =
      let u := lateResponse s m
      settle (putTxn { u with coh := { u.coh with
          offers := u.coh.offers.filter fun x => x ≠ (m.agent.val, m.line),
          hold := if accept = true then u.coh.hold ++ [(m.agent.val, m.line)] else u.coh.hold } }
        { t with awaiting := [], kind := if accept = true then .stashIn m.agent else .stashTo m.agent }) m.line := by
  simp only [answerOffer, heard, found, if_pos offered]

end

/-! ### Agents that do not answer -/

theorem snoopTimeout_fences {s : State} (a : Fin 16) (line : Nat) (up : FabricUp s)
    (late : (∃ t, txnOf s line = some t ∧ (a.val ∈ t.awaiting ∨ t.inflight = some a.val)) ∨ (a.val, line) ∈ s.coh.offers) :
    Gives (.snoopTimeout a line) s (serveArrivals (fence (fresh s) a)) := by
  refine gives_cohRow (exec_snoopTimeout ..) up ?_
  have same : txnOf (fresh s) line = txnOf s line := rfl
  dsimp only
  rw [same]
  rcases late with ⟨t, found, owes⟩ | offered
  · simp [found, owes]
  · have stands : (fresh s).coh.offers.contains (a.val, line) = true := List.contains_iff_mem.mpr offered
    rw [stands, Bool.or_true, if_pos rfl]

theorem flushReport_flushing {s : State} {n : Nat} (flushing : (agentOf s n).flushing = true) :
    flushReport s n = afterFlush (setAgent s n { agentOf s n with flushing := false, flushed := true }) n :=
  if_pos flushing

/-- A site reports over its sideband, a management core by itself (R259). -/
theorem flushDone_reports {s : State} {n : Fin 16} {rsvd : Bool} (up : FabricUp s)
    (way : 12 ≤ n.val ∨ (sidebandUp s n = true ∧ rsvd = false)) :
    Gives (.flushDone ⟨n, rsvd⟩) s (serveArrivals (flushReport (fresh s) n)) := by
  refine gives_cohRow (exec_flushDone ..) up ?_
  by_cases site : n.val < 12
  · obtain ⟨heard, rfl⟩ := way.resolve_left (Nat.not_le.mpr site)
    exact (if_pos site).trans (sidebandSays_heard (s := fresh s) heard)
  · exact if_neg site

/-- Settles O39, row by row: each message by what the home makes of one that it hears, each time-out by what it finds open. -/
theorem snoopResponsesAndEvictions : Obligations.SnoopResponsesAndEvictions := by
  refine ⟨fun s m up epoch unfenced => ?_, fun s up => ⟨fun a line => ⟨?_, snoopTimeout_fences a line up, fun waits => ?_⟩,
    fun n rsvd flushing way => ?_⟩⟩
  · have heard : cohRefused (fresh s) m = none := cohRefused_eq_none.mpr ⟨epoch, unfenced⟩
    refine ⟨fun t found awaited => ?_, fun d quiet allowed => ?_, ?_, fun t found offered => ⟨?_, ?_⟩⟩
    · have answers := respond_awaited heard found awaited
      exact ⟨gives_cohRow (exec_rspI ..) up (answers .inv), gives_cohRow (exec_rspS ..) up (answers .shared),
        fun d => ⟨gives_cohRow (exec_rspIData ..) up (answers (.invData d)),
          gives_cohRow (exec_rspSData ..) up (answers (.sharedData d))⟩,
        gives_cohRow (exec_rspIInflight ..) up (answers .inflight)⟩
    · exact gives_cohRow (exec_wb ..) up (takeWb_lands heard d quiet allowed)
    · exact gives_cohRow (exec_evc ..) up (takeEvc_drops heard)
    · exact gives_cohRow (exec_stashAcc ..) up (answerOffer_stands heard found offered true)
    · exact gives_cohRow (exec_stashDec ..) up (answerOffer_stands heard found offered false)
  · exact gives_cohRow (exec_holdWindowExpiry ..) up rfl
  · exact gives_cohRow (exec_flushTimeout ..) up (if_pos waits)
  · have reports := flushDone_reports up way
    rwa [flushReport_flushing (s := fresh s) flushing] at reports

end Sys2Proof.Machine
end

section
/-! PROOFS. The windows: requests of other hubs pass one, or go past them all in DIRECT mode (O37), and windows are written at once (O43). -/

namespace Sys2Proof.Machine

open Sys2Proof.Safety

/-! ### Rows of the fabric's domain -/

/-- A row that needs PD28 gives, on a powered hub, what its effect makes of the fresh state. -/
theorem gives_powered {i : Instr} {s t : State} {f : State → State}
    (row : exec i s = act s fun u => if !domainOn u 28 then u else f u) (up : FabricUp s) (h : f (fresh s) = t) : Gives i s t := by
  obtain ⟨answers, powered⟩ := up
  have on : (!domainOn (fresh s) 28) = false := congrArg not powered
  refine gives_act row answers ?_
  rw [on, if_neg Bool.false_ne_true, h]

@[simp] theorem windowFor_fresh (s : State) (hub a : Nat) : windowFor (fresh s) hub a = windowFor s hub a := rfl

@[simp] theorem windowTarget_fresh (s : State) (a : Nat) : windowTarget (fresh s) a = windowTarget s a := rfl

@[simp] theorem pathOpen_fresh (s : State) (p : DebugPath) : pathOpen (fresh s) p = pathOpen s p := rfl

/-! ### The window that applies (R287) -/

theorem le_maxOf {l : List Nat} {x : Nat} (h : x ∈ l) : x ≤ maxOf l :=
  (List.max?_eq_some_iff.mp (List.max?_cons' (x := 0) (xs := l))).2 x (List.mem_cons_of_mem 0 h)

/-- It matches, none that matches has a higher PRIORITY, and none before it has the same. -/
theorem windowFor_best {s : State} {hub a : Nat} {w : Window} (h : windowFor s hub a = some w) :
    ∃ n, n < 64 ∧ w = s.set.windowOf n ∧ w.hits hub a = true ∧ ∀ m, m < 64 → (s.set.windowOf m).hits hub a = true →
      (s.set.windowOf m).prio < w.prio ∨ ((s.set.windowOf m).prio = w.prio ∧ n ≤ m) := by
  obtain ⟨n, found, rfl⟩ := Option.map_eq_some_iff.mp h
  rw [List.find?_filter, List.find?_range_eq_some] at found
  obtain ⟨chosen, inTable, first⟩ := found
  obtain ⟨hits, best⟩ : (s.set.windowOf n).hits hub a = true ∧ (s.set.windowOf n).prio = _ := by simpa using chosen
  refine ⟨n, List.mem_range.mp inTable, rfl, hits, fun m inTable' hits' => ?_⟩
  have listed : (s.set.windowOf m).prio ∈ ((List.range 64).filter fun n => (s.set.windowOf n).hits hub a).map
      fun n => (s.set.windowOf n).prio :=
    List.mem_map.mpr ⟨m, List.mem_filter.mpr ⟨List.mem_range.mpr inTable', hits'⟩, rfl⟩
  rcases (le_maxOf listed).lt_or_eq with lower | equal
  · exact .inl (best ▸ lower)
  · refine .inr ⟨equal.trans best.symm, Nat.not_lt.mp fun before => ?_⟩
    have passedOver := first m before
    simp [hits', equal] at passedOver

/-! ### Requests of other hubs (R285, R286, R290) -/

section
variable {s : State} {q : RemoteReq} (up : FabricUp s)
include up

theorem windowRequest_serves {w : Window} (unnamed : q.part = 0) (found : windowFor s q.srcHub (localOf q.addr) = some w)
    (allowed : w.allows q.kind = true) (reached : windowTarget s (w.outBase + (localOf q.addr - w.inBase)) = true) :
    Gives (.windowRequest q) s
      (serveRemote (fresh s) q ⟨w.part % 16, Nat.mod_lt _ (by decide)⟩ (w.outBase + (localOf q.addr - w.inBase))) := by
  refine gives_powered (exec_windowRequest ..) up ((if_neg (not_not.mpr unnamed)).trans ?_)
  simp [found, allowed, reached]

theorem windowRequest_refuses (misfit : q.part ≠ 0 ∨ windowFor s q.srcHub (localOf q.addr) = none ∨
      ∃ w, windowFor s q.srcHub (localOf q.addr) = some w ∧
        (w.allows q.kind = false ∨ windowTarget s (w.outBase + (localOf q.addr - w.inBase)) = false)) :
    Gives (.windowRequest q) s (refuse (fresh s) 0x45 q.part q.addr) := by
  refine gives_powered (exec_windowRequest ..) up ?_
  by_cases named : q.part ≠ 0
  · exact if_pos named
  · refine (if_neg named).trans ?_
    rcases misfit.resolve_left named with missed | ⟨w, found, barred⟩
    · simp [missed]
    · rcases barred with kind | target
      · simp [found, kind]
      · simp [found, target]

theorem directRequest_serves (direct : s.set.windowMode = false) :
    Gives (.directRequest q) s (serveRemote (fresh s) q q.part (localOf q.addr)) :=
  gives_powered (exec_directRequest ..) up (if_neg (ne_true_of_eq_false direct))

theorem directRequest_refuses (windowed : s.set.windowMode = true) :
    Gives (.directRequest q) s (refuse (fresh s) 0x46 q.part q.addr) :=
  gives_powered (exec_directRequest ..) up (if_pos windowed)

end

/-- Settles O37: each kind of request by its mode and its window, and the window by the search that finds it. -/
theorem requestsOfOtherHubs : Obligations.RequestsOfOtherHubs :=
  ⟨fun _ _ up => ⟨fun _ unnamed found allowed reached => windowRequest_serves up unnamed found allowed reached,
    windowRequest_refuses up, directRequest_serves up, directRequest_refuses up⟩, fun _ _ _ _ => windowFor_best⟩

/-! ### Windows written outside a posted set (R289, R579) -/

section
variable {c : Packet} {s : State} {r : ReplyTo} (h0 : zeroFrom c 2) (hp : partOf c = 0)
include h0 hp

theorem winForceBody_writes {e : Bytes} (unlocked : s.glob.xlateLock = false) (hn : c.p0.toNat < 64) (whole : e.length = 32)
    (formed : windowFormat e = true) :
    winForceBody c (some e) s r = (writeWindow s c.p0.toNat e, okay c.p0.toNat) := by
  have sound : ¬ (e.length ≠ 32 ∨ (!windowFormat e) = true) := by simp [whole, formed]
  exact (if_neg (not_not.mpr hp)).trans ((reservedFrom_zero h0).trans
    ((if_neg (ne_true_of_eq_false unlocked)).trans ((if_neg (by omega)).trans (if_neg sound))))

theorem winForceBody_locked (entry : Option Bytes) (lock : s.glob.xlateLock = true) :
    winForceBody c entry s r = (lockedWrite s, denied) :=
  (if_neg (not_not.mpr hp)).trans ((reservedFrom_zero h0).trans (if_pos lock))

end

section
variable {s : State} (w : Fin 64) (e : Bytes) (up : FabricUp s)
include up

theorem testWindowWrite_closed (closed : pathOpen s .test = false) :
    Gives (.testWindowWrite w e) s (recordCount (fresh s) { cls := 0xA6, kind := 10 }) :=
  gives_powered (exec_testWindowWrite ..) up (if_pos (by rw [pathOpen_fresh, closed]; rfl))

section
variable (opened : pathOpen s .test = true)
include opened

theorem testWindowWrite_open :
    Gives (.testWindowWrite w e) s
      (if s.glob.xlateLock = true then lockedWrite (fresh s) else writeWindow (fresh s) w (sub e 0 32)) :=
  gives_powered (exec_testWindowWrite ..) up (if_neg (by simp [opened]))

theorem testWindowWrite_locked (lock : s.glob.xlateLock = true) :
    Gives (.testWindowWrite w e) s (lockedWrite (fresh s)) := by
  simpa [lock] using testWindowWrite_open w e up opened

theorem testWindowWrite_writes (unlocked : s.glob.xlateLock = false) :
    Gives (.testWindowWrite w e) s (writeWindow (fresh s) w (sub e 0 32)) := by
  simpa [unlocked] using testWindowWrite_open w e up opened

end

end

/-- Settles O43: both ways to a window write it, or meet the lock; that of the test network may be closed. -/
theorem windowsWrittenAtOnce : Obligations.WindowsWrittenAtOnce := by
  refine ⟨fun s c e ha h0 hp => ⟨fun unlocked hn whole formed => packet_ends rfl ha ?_, fun lock x => packet_ends rfl ha ?_⟩,
    fun s w e up => ⟨testWindowWrite_writes w e up, testWindowWrite_locked w e up, testWindowWrite_closed w e up⟩⟩
  · exact winForceBody_writes h0 hp (by rwa [begun_glob]) hn whole formed
  · exact winForceBody_locked h0 hp x (by rwa [begun_glob])

end Sys2Proof.Machine
end

section
/-! PROOFS. Contexts (O41): they are bound, rooted and cleared, their translations are invalidated, and a unit fails to acknowledge. -/

namespace Sys2Proof.Machine

open Sys2Proof.Safety

/-! ### What the start of a packet leaves of the contexts -/

@[simp] theorem ctxOf_begun (s : State) (op : Nat) (c : Packet) (n : Nat) : ctxOf (begun s op c) n = ctxOf s n := by
  rw [ctxOf, begun_xlate, ctxOf]

@[simp] theorem mayContext_begun (s : State) (op : Nat) (c d : Packet) (n : Nat) :
    mayContext (begun s op c) d n = mayContext s d n := by
  simp only [mayContext, boundTo, ctxOf_begun]

@[simp] theorem ctxInPlan_begun (s : State) (op : Nat) (c : Packet) (n : Nat) : ctxInPlan (begun s op c) n = ctxInPlan s n := by
  simp only [ctxInPlan, holders, begun_plans]

@[simp] theorem rootOk_begun (s : State) (op : Nat) (c : Packet) (v : Nat) : rootOk (begun s op c) v = rootOk s v := by
  simp only [rootOk, fitted_begun, begun_leat, begun_set]

/-! ### The works of the commands (R265, R267, R275, R276, R291) -/

section
variable {c : Packet} {s : State} {r : ReplyTo}

/-- A context that no plan names and no other partition holds: its binding or unbinding waits for the boundary. -/
theorem ctxBindBody_files {t : Nat} (h0 : zeroFrom c 3) (hp : partOf c = 0) (hn : c.p0.toNat < 4096)
    (legal : c.p1.toNat < 16 ∨ c.p1.toNat = 0xFF)
    (mine : (ctxOf s c.p0.toNat).bound = true → c.p1.toNat ≠ 0xFF → (ctxOf s c.p0.toNat).part = c.p1.toNat)
    (unplanned : ctxInPlan s c.p0.toNat = false) (boundary : boundaryFor s c.p2.toNat = .ok t) :
    let m : BindMove := { ctx := c.p0.toNat, part := if c.p1.toNat = 0xFF then none else some c.p1.toNat, turn := t,
                          reply := r, clearing := false }
    ctxBindBody c s r = ({ s with xlate := { s.xlate with binds := s.xlate.binds ++ [m] } }, .interim t) := by
  have own : ¬ ((ctxOf s c.p0.toNat).bound = true ∧ c.p1.toNat ≠ 0xFF ∧ (ctxOf s c.p0.toNat).part ≠ c.p1.toNat) := by tauto
  refine (if_neg (not_not.mpr hp)).trans ((reservedFrom_zero h0).trans
    ((if_neg (by omega)).trans ((if_neg (by omega)).trans ((if_neg own).trans
      ((if_neg (ne_true_of_eq_false unplanned)).trans ?_)))))
  simp only [boundary]

section
variable (may : mayContext s c c.p0.toNat = true)
include may

theorem mayContext_not_denied : ¬ (!mayContext s c c.p0.toNat) = true := by simp [may]

theorem ctxRootBody_sets (h0 : zeroFrom c 2) (hn : c.p0.toNat < 4096) (legal : rootOk s c.p1.toNat = true) :
    let u := setCtx s c.p0.toNat { ctxOf s c.p0.toNat with root := c.p1.toNat }
    ctxRootBody c s r = (submitInval u (wholeInval u c.p0.toNat (some r)), .later) :=
  (reservedFrom_zero h0).trans ((if_neg (by omega)).trans ((if_neg (mayContext_not_denied may)).trans (if_neg (by simp [legal]))))

theorem ctxClearBody_begins (h0 : zeroFrom c 1) (hn : c.p0.toNat < 4096) :
    ctxClearBody c s r = (beginClear s c.p0.toNat (some r), .later) :=
  (reservedFrom_zero h0).trans ((if_neg (by omega)).trans (if_neg (mayContext_not_denied may)))

end

/-- One context that the sender may name, or all of its partition's; 64 KiB-aligned bytes, or all. -/
theorem xlateInvalBody_submits (h0 : zeroFrom c 3)
    (target : (c.p0.toNat < 4096 ∧ mayContext s c c.p0.toNat = true) ∨ c.p0.toNat = 0xFFFF)
    (aligned : c.p1.toNat % 65536 = 0) (low : c.p1.toNat < 2 ^ 57) (whole : c.p2.toNat % 65536 = 0)
    (high : c.p2.toNat = 0 ∨ c.p1.toNat + c.p2.toNat ≤ 2 ^ 57) :
    let v : Inval := { ctx := if c.p0.toNat = 0xFFFF then none else some c.p0.toNat, part := partOf c,
                       lo := if c.p2.toNat = 0 then 0 else c.p1.toNat, len := if c.p2.toNat = 0 then 2 ^ 57 else c.p2.toNat,
                       units := List.range 76, lost := [], reply := some r, after := none }
    xlateInvalBody c s r = (submitInval s v, .later) := by
  have may : ¬ (c.p0.toNat ≠ 0xFFFF ∧ (!mayContext s c c.p0.toNat) = true) := by
    rintro ⟨single, barred⟩
    exact mayContext_not_denied (target.resolve_right single).2 barred
  exact (reservedFrom_zero h0).trans
    ((if_neg (by omega)).trans ((if_neg (by omega)).trans ((if_neg (by omega)).trans (if_neg may))))

end

/-! ### Units that do not acknowledge (R278) -/

section
variable {s : State} {n : Fin 76} (hl : live s = true) (owes : ∃ v ∈ s.xlate.invals.take 16, n.val ∈ v.units)
include hl owes

theorem invalAckTimeout_gives :
    Gives (.invalAckTimeout n) s
      (if n.val ≥ 64 then settleInvals (ackAll (fence (fresh s) (n.val - 64)) n false)
       else settleInvals (ackAll (record (fresh s) { cls := 0x44, kind := 2, index := n.val }) n true)) := by
  have awaited : ((fresh s).xlate.invals.take 16).any (fun v => v.units.contains n.val) = true := by
    obtain ⟨v, applied, lists⟩ := owes
    exact List.any_eq_true.mpr ⟨v, applied, List.contains_iff_mem.mpr lists⟩
  exact gives_act (exec_invalAckTimeout ..) hl (if_neg (by simp only [awaited]; decide))

theorem invalAckTimeout_engine (engine : n.val < 64) :
    Gives (.invalAckTimeout n) s
      (settleInvals (ackAll (record (fresh s) { cls := 0x44, kind := 2, index := n.val }) n true)) := by
  simpa only [if_neg (Nat.not_le.mpr engine)] using invalAckTimeout_gives hl owes

theorem invalAckTimeout_site (site : 64 ≤ n.val) :
    Gives (.invalAckTimeout n) s (settleInvals (ackAll (fence (fresh s) (n.val - 64)) n false)) := by
  simpa only [if_pos site] using invalAckTimeout_gives hl owes

end

/-- Settles O41: the four commands by their works, and the time-out by the unit that did not acknowledge. -/
theorem contextsAndInvalidations : Obligations.ContextsAndInvalidations := by
  refine ⟨?_, fun s c ha h0 target aligned low whole high => packet_ends rfl ha ?_,
    fun s n hl owes => ⟨invalAckTimeout_engine hl owes, invalAckTimeout_site hl owes⟩⟩
  · rintro s c _ t rfl hn
    refine ⟨fun ha h0 hp legal mine unplanned boundary => packet_ends rfl ha ?_,
      fun ha h0 may legal => packet_ends rfl ha ?_, fun ha h0 may => packet_ends rfl ha ?_⟩
    · exact (ctxBindBody_files h0 hp hn legal (by rwa [ctxOf_begun]) (by rwa [ctxInPlan_begun])
        (by rwa [boundaryFor_begun])).trans (by rw [begun_xlate])
    · exact (ctxRootBody_sets (by rwa [mayContext_begun]) h0 hn (by rwa [rootOk_begun])).trans (by rw [ctxOf_begun])
    · exact ctxClearBody_begins (by rwa [mayContext_begun]) h0 hn
  · exact xlateInvalBody_submits h0 (by rwa [mayContext_begun]) aligned low whole high

end Sys2Proof.Machine
end

section
/-! PROOFS. The mesh (O46): its slots, its flits, the end of a share window, and the commands that read what was counted. -/

namespace Sys2Proof.Machine

open Sys2Proof.Safety

/-- A row at a local port of the mesh: nothing happens while PD28 is off, or where the row finds no queue to act on. -/
theorem gives_atPort {i : Instr} {s t : State} {f : State → State} {idle : Prop} [Decidable idle]
    (row : exec i s = act s fun u => if !domainOn u 28 ∨ idle then u else f u) (up : FabricUp s) (served : ¬ idle)
    (h : f (fresh s) = t) : Gives i s t := by
  refine gives_powered (f := f) ?_ up h
  simp only [row, served, or_false]

/-! ### Reservations (R294, R299, R301) -/

theorem reserve_served {q : QueueReq} (unit : (unitBehind q.target).isSome = true) (reserved : q.vn ≠ 1) :
    ¬ (q.vn = 1 ∨ (unitBehind q.target).isNone = true) := by
  simp [reserved, Option.isNone_eq_false_iff.mpr unit]

section
variable {s : State} {q : QueueReq} (up : FabricUp s) (unit : (unitBehind q.target).isSome = true)
include up unit

/-- In the snoop network a home slice alone reserves. -/
theorem reserve_snoop (snoop : q.vn = 2) :
    Gives (.reserve q) s (if isSlice q.initiator = true then reserveSlot (fresh s) q q.cls else fresh s) :=
  gives_atPort (exec_reserve ..) up (reserve_served unit (by simp [snoop])) (if_pos snoop)

theorem reserve_snoop_slice (snoop : q.vn = 2) (home : isSlice q.initiator = true) :
    Gives (.reserve q) s (reserveSlot (fresh s) q q.cls) := by
  simpa only [if_pos home] using reserve_snoop up unit snoop

theorem reserve_snoop_other (snoop : q.vn = 2) (other : isSlice q.initiator = false) : Gives (.reserve q) s (fresh s) := by
  simpa only [if_neg (ne_true_of_eq_false other)] using reserve_snoop up unit snoop

section
variable (reserved : q.vn ≠ 1) (classed : q.vn ≠ 2)
include reserved classed

/-- In the request and bulk networks the reservation joins under the class that the share table gives it. -/
theorem reserve_inClass {k : Nat} (owned : classFor s.set q.part q.cls = some k) :
    Gives (.reserve q) s (reserveSlot (fresh s) q k) := by
  have owned' : classFor (fresh s).set q.part q.cls = some k := owned
  refine gives_atPort (exec_reserve ..) up (reserve_served unit reserved) ((if_neg classed).trans ?_)
  simp only [owned']

theorem reserve_unclassed (lacks : classFor s.set q.part q.cls = none) :
    Gives (.reserve q) s (record (fresh s) { cls := 0x34, part := some q.part }) := by
  have lacks' : classFor (fresh s).set q.part q.cls = none := lacks
  refine gives_atPort (exec_reserve ..) up (reserve_served unit reserved) ((if_neg classed).trans ?_)
  simp only [lacks']

end

end

/-- A slot that its initiator holds falls free. -/
theorem slotReturn_frees {s : State} {q : QueueReq} {x : Nat × Nat × Nat} (up : FabricUp s)
    (held : slotOf (queueOf s q.target q.vn) q.initiator = some x) :
    Gives (.slotReturn q) s (freeSlot (fresh s) q.target q.vn x) := by
  have found : slotOf (queueOf (fresh s) q.target q.vn) q.initiator = some x := held
  refine gives_act (exec_slotReturn ..) up.1 ?_
  simp only [found]
  exact if_pos up.2

/-! ### Where a flit is admitted (R296, R298) -/

section
variable (s : State) {f : MeshFlit}

theorem admitFlit_response (response : f.vn = 1) : admitFlit s f = some s := if_pos response

section
variable (reserved : f.vn ≠ 1)
include reserved

/-- The first flit of a packet takes the slot of its initiator. -/
theorem admitFlit_first (first : f.index = 0) :
    admitFlit s f = (slotOf (queueOf s f.target f.vn) f.initiator).map fun x =>
      setComing (freeSlot s f.target f.vn x) f f.len :=
  (if_neg reserved).trans (if_pos (congrArg Fin.val first))

theorem admitFlit_first_held {x : Nat × Nat × Nat} (first : f.index = 0)
    (held : slotOf (queueOf s f.target f.vn) f.initiator = some x) :
    admitFlit s f = some (setComing (freeSlot s f.target f.vn x) f f.len) := by
  rw [admitFlit_first s reserved first, held, Option.map_some]

theorem admitFlit_first_unheld (first : f.index = 0) (lacks : slotOf (queueOf s f.target f.vn) f.initiator = none) :
    admitFlit s f = none := by
  rw [admitFlit_first s reserved first, lacks, Option.map_none]

/-- A later flit follows the packet that its initiator has begun. -/
theorem admitFlit_later (later : f.index ≠ 0) :
    admitFlit s f = if comingOf s f = 0 then none else some (setComing s f (comingOf s f - 1)) :=
  (if_neg reserved).trans (if_neg (Fin.val_ne_of_ne later))

theorem admitFlit_later_awaited (later : f.index ≠ 0) (left : 0 < comingOf s f) :
    admitFlit s f = some (setComing s f (comingOf s f - 1)) :=
  (admitFlit_later s reserved later).trans (if_neg left.ne')

theorem admitFlit_later_unawaited (later : f.index ≠ 0) (spent : comingOf s f = 0) : admitFlit s f = none :=
  (admitFlit_later s reserved later).trans (if_pos spent)

end

end

/-! ### What becomes of a flit (R297, R308) -/

/-- The entry of a flit's error. -/
def noteFlit (f : MeshFlit) (s : State) (cls : Nat) : State :=
  record s { cls := cls, kind := 15, index := f.target, part := some f.part, task := f.cls, addr := f.addr }

/-- A flit that carries data is measured under the class that the share table `g` gives it. -/
def measureData (g : Settings) (f : MeshFlit) (s : State) : State :=
  if f.readBytes + f.writeBytes > 0 then measure s f ((classFor g f.part f.cls).getD f.cls.val) else s

theorem deliveredFlit_dataBad {f : MeshFlit} (damaged : f.check = .dataBad) : deliveredFlit f = { f with poison := 0xF#4 } :=
  if_pos damaged

theorem deliveredFlit_sound {f : MeshFlit} (sound : f.check ≠ .dataBad) : deliveredFlit f = f := if_neg sound

section
variable {s : State} {f : MeshFlit} (up : FabricUp s) (unit : (unitBehind f.target).isSome = true)
include up unit

/-- A flit with a bad header goes no further, and its place is taken all the same (log entry 57). -/
theorem flitReceive_headerBad (damaged : f.check = .headerBad) :
    Gives (.flitReceive f) s (noteFlit f ((admitFlit (fresh s) f).getD (fresh s)) 0x33) :=
  gives_atPort (exec_flitReceive ..) up (ne_true_of_eq_false (Option.isNone_eq_false_iff.mpr unit)) (if_pos damaged)

section
variable (legible : f.check ≠ .headerBad)
include legible

theorem flitReceive_unadmitted (barred : admitFlit (fresh s) f = none) :
    Gives (.flitReceive f) s (noteFlit f (fresh s) 0x36) := by
  refine gives_atPort (exec_flitReceive ..) up (ne_true_of_eq_false (Option.isNone_eq_false_iff.mpr unit)) ((if_neg legible).trans ?_)
  simp only [barred]
  rfl

/-- An admitted flit is noted where it has an error, delivered, and measured where it carries data. -/
theorem flitReceive_admitted {t : State} (admitted : admitFlit (fresh s) f = some t) :
    let u := if f.check = .corrected then noteFlit f t 0x31 else if f.check = .dataBad then noteFlit f t 0x32 else t
    Gives (.flitReceive f) s (measureData s.set f (emit u (.flit (deliveredFlit f)))) := by
  refine gives_atPort (exec_flitReceive ..) up (ne_true_of_eq_false (Option.isNone_eq_false_iff.mpr unit)) ((if_neg legible).trans ?_)
  simp only [admitted]
  rfl

end

section
variable {t : State} (admitted : admitFlit (fresh s) f = some t)
include admitted

theorem flitReceive_good (sound : f.check = .good) :
    Gives (.flitReceive f) s (measureData s.set f (emit t (.flit f))) := by
  simpa [sound, deliveredFlit_sound] using flitReceive_admitted up unit (by simp [sound]) admitted

theorem flitReceive_corrected (mended : f.check = .corrected) :
    Gives (.flitReceive f) s (measureData s.set f (emit (noteFlit f t 0x31) (.flit f))) := by
  simpa [mended, deliveredFlit_sound] using flitReceive_admitted up unit (by simp [mended]) admitted

theorem flitReceive_dataBad (damaged : f.check = .dataBad) :
    Gives (.flitReceive f) s (measureData s.set f (emit (noteFlit f t 0x32) (.flit { f with poison := 0xF#4 }))) := by
  simpa [damaged, deliveredFlit_dataBad] using flitReceive_admitted up unit (by simp [damaged]) admitted

end

end

/-! ### The telemetry commands (R310) -/

@[simp] theorem statBytes_begun (s : State) (op : Nat) (c : Packet) (i p : Nat) :
    statBytes (begun s op c) i p = statBytes s i p := by
  simp only [statBytes, begun_fab]

section
variable {c : Packet} {s : State} {r : ReplyTo} {p : Nat} (answers : statPart c = some p) (part : c.p4.toNat ≤ 15)
include answers part

/-- The initiators that fit in the buffer are answered, and cleared on demand. -/
theorem fabStatsReadBody_answers (low : c.p2.toNat < 192) (high : c.p2.toNat + c.p3.toNat ≤ 192) (flag : c.p5.toNat ≤ 1) :
    let ids := (upto c.p2.toNat c.p3.toNat).take (bufLen c c.p1.toNat / 96)
    let wipe := fun (t : Tbl Counters) => ids.foldl (fun a i => a.drop (i * 16 + p)) t
    fabStatsReadBody c s r =
      (if c.p5 = 1#64 then { s with fab := { s.fab with counters := wipe s.fab.counters, snapshot := wipe s.fab.snapshot } } else s,
        output ids.length c.p0.toNat (ids.flatMap fun i => statBytes s i p)) := by
  refine (if_neg (Nat.not_le.mpr low)).trans ((if_neg (Nat.not_lt.mpr high)).trans ((if_neg (Nat.not_lt.mpr part)).trans
    ((if_neg (Nat.not_lt.mpr flag)).trans ?_)))
  simp only [answers]

/-- The classes of the partition that fit in the buffer are answered. -/
theorem fabMissReadBody_answers (h0 : zeroFrom c 5) (low : c.p2.toNat < 64) (high : c.p2.toNat + c.p3.toNat ≤ 64) :
    let mine := (upto c.p2.toNat c.p3.toNat).filter fun k => (s.set.shareOf k).valid && (s.set.shareOf k).owner = p
    let ids := mine.take (bufLen c c.p1.toNat / 16)
    fabMissReadBody c s r = (s, output ids.length c.p0.toNat (ids.flatMap fun k =>
      leBytes 1 k ++ leBytes 1 (s.set.shareOf k).owner ++ leBytes 2 0 ++ leBytes 4 (s.fab.latLast.get k 0) ++
        leBytes 4 (s.fab.wayLast.get k 0) ++ leBytes 4 (s.fab.missed.get k 0))) := by
  refine (reservedFrom_zero h0).trans ((if_neg (Nat.not_le.mpr low)).trans ((if_neg (Nat.not_lt.mpr high)).trans
    ((if_neg (Nat.not_lt.mpr part)).trans ?_)))
  simp only [answers]

end

/-- Settles O46: the rows of the slots and the flits by what they find at the port, the end of a window in one step (its
misses one group, log entry 88), and the commands by their works. -/
theorem fabricSlotsAndStatistics : Obligations.FabricSlotsAndStatistics := by
  refine ⟨fun s q up => ⟨fun unit => ⟨reserve_snoop_slice up unit, reserve_snoop_other up unit,
        fun _ reserved classed => reserve_inClass up unit reserved classed, reserve_unclassed up unit⟩, fun _ => slotReturn_frees up⟩,
    fun s f up unit => ⟨flitReceive_headerBad up unit, flitReceive_unadmitted up unit, fun t admitted =>
      ⟨flitReceive_good up unit admitted, flitReceive_corrected up unit admitted, flitReceive_dataBad up unit admitted⟩⟩,
    fun s f => ⟨admitFlit_response s, fun _ reserved => admitFlit_first_held s reserved, admitFlit_first_unheld s,
      admitFlit_later_awaited s, admitFlit_later_unawaited s⟩,
    fun s hl => gives_act (exec_shareWindowEnd ..) hl rfl,
    fun s c p answers part => ⟨fun ha low high keep => packet_ends rfl ha ?_, fun ha low high clear => packet_ends rfl ha ?_,
      fun ha h0 low high => packet_ends rfl ha ?_⟩⟩
  · simpa [keep] using fabStatsReadBody_answers (s := begun s 0x0710 c) answers part low high (by simp [keep])
  · simpa [clear] using fabStatsReadBody_answers (s := begun s 0x0710 c) answers part low high (by simp [clear])
  · simpa using fabMissReadBody_answers (s := begun s 0x0711 c) answers part h0 low high

end Sys2Proof.Machine
end

section
/-! PROOFS. The tally memory: the waiters of a tally (O29), the gate of a descriptor (O26), operations by a write of a tally's word
(O28), and the commands (O30). -/

namespace Sys2Proof.Machine

open Sys2Proof.Safety

/-! ### The wait of a queue of work -/

@[simp] theorem setWait_tallies (s : State) (w : Work) (v : WaitState) : (setWait s w v).tallies = s.tallies := by
  cases w <;> rfl

@[simp] theorem setWait_waitOf_same (s : State) (w : Work) (v : WaitState) : waitOf (setWait s w v) w = v := by
  cases w <;> simp [waitOf, setWait]

/-- An update of an engine that leaves a part of it as it was leaves that part of every engine. -/
theorem engine_setEngine_keeps {α : Type} (f : Engine → α) {s : State} {n : Nat} {v : Engine} (h : f v = f (engine s n)) (k : Nat) :
    f (engine (setEngine s n v) k) = f (engine s k) := by
  by_cases e : n = k
  · subst e
    rw [setEngine_engine_same, h]
  · rw [setEngine_engine_other _ _ e]

/-- An engine's plan slots and its command queue wait apart. -/
theorem setWait_waitOf_other (s : State) {w k : Work} (v : WaitState) (h : w ≠ k) : waitOf (setWait s w v) k = waitOf s k := by
  cases w with
  | array n =>
    cases k with
    | array m => exact congrArg LogArr.wait (setLog_logArr_other s _ (by simpa using h))
    | _ => rfl
  | dma n =>
    cases k with
    | dma m => exact congrArg Engine.wait (setEngine_engine_other s _ (by simpa using h))
    | cmd m => exact engine_setEngine_keeps Engine.cmdWait (v := { engine s n with wait := v }) rfl m
    | _ => rfl
  | cmd n =>
    cases k with
    | dma m => exact engine_setEngine_keeps Engine.wait (v := { engine s n with cmdWait := v }) rfl m
    | cmd m => exact congrArg Engine.cmdWait (setEngine_engine_other s _ (by simpa using h))
    | _ => rfl
  | site n =>
    cases k with
    | site m => exact congrArg Site.wait (setSite_siteOf_other s _ (by simpa using h))
    | _ => rfl

/-- A release takes no other release back. -/
theorem setWait_released_keeps {s : State} (w : Work) {k : Work} (h : waitOf s k = .released) :
    waitOf (setWait s w .released) k = .released := by
  by_cases e : w = k
  · rw [e, setWait_waitOf_same]
  · rw [setWait_waitOf_other s _ e, h]

@[simp] theorem tallyAt_setWait (s : State) (w : Work) (v : WaitState) (t : Nat) : tallyAt (setWait s w v) t = tallyAt s t := by
  rw [tallyAt, setWait_tallies, tallyAt]

@[simp] theorem waitersOn_setWait (s : State) (w : Work) (v : WaitState) (t : Nat) : waitersOn (setWait s w v) t = waitersOn s t := by
  rw [waitersOn, setWait_tallies, waitersOn]

/-! ### The waiters of a tally (R317) -/

theorem mem_waitersOn {s : State} {t : Nat} {w : Waiter} : w ∈ waitersOn s t ↔ w ∈ s.tallies.waiters ∧ w.tally = t := by
  simp [waitersOn]

/-- A waiter with SUB takes its N from the tally, and leaves the table. -/
def payWaiter (t : Nat) (s : State) (w : Waiter) : State :=
  let s1 := if w.sub then setTally s t { tallyAt s t with value := (tallyAt s t).value - w.n } else s
  { s1 with tallies := { s1.tallies with waiters := s1.tallies.waiters.filter (· ≠ w) } }

theorem evalWaiter_reached {t : Nat} {x : State × Nat} {w : Waiter} (h : w.n ≤ (tallyAt x.1 t).value) :
    evalWaiter t x w = (setWait (payWaiter t x.1 w) w.who .released, x.2 + 1) := if_pos h

theorem evalWaiter_short {t : Nat} {x : State × Nat} {w : Waiter} (h : (tallyAt x.1 t).value < w.n) : evalWaiter t x w = x :=
  if_neg (Nat.not_le.mpr h)

theorem tallyAt_payWaiter_same (t : Nat) (s : State) (w : Waiter) : (tallyAt (payWaiter t s w) t).value ≤ (tallyAt s t).value := by
  cases sub : w.sub
  · simp [payWaiter, sub, tallyAt]
  · have paid : tallyAt (payWaiter t s w) t = { tallyAt s t with value := (tallyAt s t).value - w.n } := by
      simp only [payWaiter, sub]
      exact setTally_tallyAt_same ..
    rw [paid]
    exact Nat.sub_le ..

theorem tallyAt_payWaiter_other (s : State) (w : Waiter) {t k : Nat} (h : k ≠ t) : tallyAt (payWaiter t s w) k = tallyAt s k := by
  cases sub : w.sub
  · simp [payWaiter, sub, tallyAt]
  · simp only [payWaiter, sub]
    exact setTally_tallyAt_other s _ h.symm

theorem payWaiter_waiters (t : Nat) (s : State) (w : Waiter) :
    (payWaiter t s w).tallies.waiters = s.tallies.waiters.filter (· ≠ w) := by
  cases sub : w.sub <;> simp [payWaiter, sub, setTally]

theorem payWaiter_waitOf (t : Nat) (s : State) (w : Waiter) (k : Work) : waitOf (payWaiter t s w) k = waitOf s k := by
  cases sub : w.sub <;> cases k <;> simp [payWaiter, sub, waitOf, logArr, engine, siteOf, setTally]

/-- From `s` to `u` waiters of tally `t` have been released: its VALUE has not risen, the waiters that have gone are released, and
other tallies, their waiters and earlier releases stand. -/
structure ReleasedOn (t : Nat) (s u : State) : Prop where
  value : (tallyAt u t).value ≤ (tallyAt s t).value
  others : ∀ k, k ≠ t → tallyAt u k = tallyAt s k ∧ waitersOn u k = waitersOn s k
  left : ∀ w ∈ waitersOn u t, w ∈ waitersOn s t
  gone : ∀ w ∈ waitersOn s t, w ∈ waitersOn u t ∨ waitOf u w.who = .released
  stays : ∀ k, waitOf s k = .released → waitOf u k = .released

namespace ReleasedOn

variable {t : Nat} {s u v : State}

theorem refl (t : Nat) (s : State) : ReleasedOn t s s :=
  ⟨le_rfl, fun _ _ => ⟨rfl, rfl⟩, fun _ h => h, fun _ h => .inl h, fun _ h => h⟩

theorem trans (h : ReleasedOn t s u) (k : ReleasedOn t u v) : ReleasedOn t s v where
  value := k.value.trans h.value
  others j other := ⟨(k.others j other).1.trans (h.others j other).1, (k.others j other).2.trans (h.others j other).2⟩
  left w m := h.left w (k.left w m)
  gone w m := (h.gone w m).elim (k.gone w) fun r => .inr (k.stays _ r)
  stays j r := k.stays j (h.stays j r)

end ReleasedOn

/-- A waiter that is released pays, and leaves with every copy of itself. -/
theorem releasedOn_payWaiter {t : Nat} (s : State) {w : Waiter} (h : w.tally = t) :
    ReleasedOn t s (setWait (payWaiter t s w) w.who .released) where
  value := by
    rw [tallyAt_setWait]
    exact tallyAt_payWaiter_same t s w
  others k other := by
    rw [tallyAt_setWait, waitersOn_setWait, waitersOn, payWaiter_waiters, List.filter_filter]
    refine ⟨tallyAt_payWaiter_other s w other, List.filter_congr fun x _ => ?_⟩
    by_cases e : x = w
    · subst e
      simp [h, Ne.symm other]
    · simp [e]
  left x m := by
    rw [waitersOn_setWait, mem_waitersOn, payWaiter_waiters] at m
    exact mem_waitersOn.mpr ⟨List.mem_of_mem_filter m.1, m.2⟩
  gone x m := by
    by_cases e : x = w
    · exact .inr (e ▸ setWait_waitOf_same ..)
    · rw [waitersOn_setWait, mem_waitersOn, payWaiter_waiters, List.mem_filter]
      exact .inl ⟨⟨(mem_waitersOn.mp m).1, by simpa using e⟩, (mem_waitersOn.mp m).2⟩
  stays k r := setWait_released_keeps _ ((payWaiter_waitOf ..).trans r)

theorem evalWaiter_releasedOn {t : Nat} (x : State × Nat) {w : Waiter} (h : w.tally = t) : ReleasedOn t x.1 (evalWaiter t x w).1 := by
  rcases Nat.lt_or_ge (tallyAt x.1 t).value w.n with short | reached
  · rw [evalWaiter_short short]
    exact .refl t x.1
  · rw [evalWaiter_reached reached]
    exact releasedOn_payWaiter x.1 h

/-- A waiter that its evaluation leaves waits for more than the tally holds. -/
theorem evalWaiter_left {t : Nat} {x : State × Nat} {w : Waiter} (h : w ∈ waitersOn (evalWaiter t x w).1 t) :
    (tallyAt (evalWaiter t x w).1 t).value < w.n := by
  rcases Nat.lt_or_ge (tallyAt x.1 t).value w.n with short | reached
  · rwa [evalWaiter_short short]
  · rw [evalWaiter_reached reached, waitersOn_setWait, mem_waitersOn, payWaiter_waiters] at h
    simp at h

theorem evalWaiter_count (t : Nat) (x : State × Nat) (w : Waiter) : (evalWaiter t x w).2 ≤ x.2 + 1 := by
  rcases Nat.lt_or_ge (tallyAt x.1 t).value w.n with short | reached
  · rw [evalWaiter_short short]
    exact Nat.le_succ _
  · rw [evalWaiter_reached reached]

/-- The evaluation of any waiters of a tally, one after another: VALUE only falls, so one that was left stays short of its N. -/
theorem evalWaiter_foldl {t : Nat} {l : List Waiter} (on : ∀ w ∈ l, w.tally = t) (x : State × Nat) :
    ReleasedOn t x.1 (l.foldl (evalWaiter t) x).1 ∧ (l.foldl (evalWaiter t) x).2 ≤ x.2 + l.length ∧
      ∀ w ∈ l, w ∈ waitersOn (l.foldl (evalWaiter t) x).1 t → (tallyAt (l.foldl (evalWaiter t) x).1 t).value < w.n := by
  induction l generalizing x with
  | nil => exact ⟨.refl t x.1, le_rfl, by simp⟩
  | cons w r ih =>
    rw [List.forall_mem_cons] at on
    obtain ⟨rest, count, short⟩ := ih on.2 (evalWaiter t x w)
    refine ⟨(evalWaiter_releasedOn x on.1).trans rest, ?_, List.forall_mem_cons.mpr ⟨fun m => ?_, short⟩⟩
    · have one := evalWaiter_count t x w
      rw [List.foldl_cons, List.length_cons]
      omega
    · exact rest.value.trans_lt (evalWaiter_left (rest.left w m))

/-- Settles O29, by what an evaluation of a list of a tally's waiters leaves. -/
theorem waitersLeftStandAboveTheValue : Obligations.WaitersLeftStandAboveTheValue := by
  intro s t
  obtain ⟨released, count, short⟩ := evalWaiter_foldl (l := waitersOn s t) (fun _ m => (mem_waitersOn.mp m).2) (s, 0)
  exact ⟨fun w m => short w (released.left w m) m, released.value, released.others, released.gone, count.trans_eq (Nat.zero_add _)⟩

/-! ### The gate of a descriptor (R147, R322) -/

/-- What a wait that has been filed answers: it goes, is skipped or waits. -/
def answerWait (s : State) (w : Work) : State × Gate :=
  if waitOf s w = .released then (setWait s w .none, .go)
  else if waitOf s w = .stale then (setWait s w .none, .skip)
  else (s, .wait)

theorem gate_filed {s : State} {w : Work} (c : Common) (p : Nat) (hub : Option Nat) (filed : waitOf s w ≠ .none) :
    gate s w c p hub = answerWait s w := by
  cases h : waitOf s w with
  | none => exact absurd h filed
  | _ => simp [gate, answerWait, h]

theorem gate_badRaise {s : State} {w : Work} {c : Common} {p : Nat} {hub : Option Nat} (unfiled : waitOf s w = .none)
    (refused : badRaise s p c hub = true) : gate s w c p hub = (record s (tallyRec 0x53 c.raiseTally p), .skip) := by
  simp [gate, unfiled, refused]

theorem gate_waitless {s : State} {w : Work} {c : Common} {p : Nat} {hub : Option Nat} (unfiled : waitOf s w = .none)
    (raises : badRaise s p c hub = false) (waitless : c.waitEn = false) : gate s w c p hub = (s, .go) := by
  simp [gate, unfiled, raises, waitless]

theorem gate_files {s : State} {w : Work} {c : Common} {p : Nat} {hub : Option Nat} (unfiled : waitOf s w = .none)
    (raises : badRaise s p c hub = false) (waits : c.waitEn = true) :
    gate s w c p hub = answerWait (fileWait s w c.waitTally c.waitN c.waitSub p) w := by
  simp only [gate, unfiled, raises, waits, answerWait]
  cases waitOf (fileWait s w c.waitTally c.waitN c.waitSub p) w <;> simp

/-- Settles O26: a wait that stands is answered, one that does not is refused, left out or filed. -/
theorem offeredDescriptorsWaitSkipOrRun : Obligations.OfferedDescriptorsWaitSkipOrRun := by
  intro s w c p hub
  refine ⟨gate_badRaise, gate_waitless, fun h => ?_, fun h => ?_, fun h => ?_, gate_files⟩ <;>
    rw [gate_filed c p hub (by simp [h])] <;> simp [answerWait, h]

/-! ### Operations by a write of a tally's word (R315, R318) -/

/-- The word of a write carries an operation's code and an amount of 1 to 2^31 - 1, and nothing else (R318). -/
def OperationWord (q : TallyReq) (op n : Nat) : Prop := 1 ≤ n ∧ n < 2 ^ 31 ∧ q.width = 8 ∧ q.word.toNat = n + op * 2 ^ 32

/-- An operation that reached the tally memory is answered: an error completion where it was refused. -/
def answerTally (x : State × TallyResult) : State := emit x.1 (if x.2 = .refused then .errorCompletion else .ack)

theorem tallyWrite_formed {q : TallyReq} {op n : Nat} (small : op < 8) (word : OperationWord q op n) (s : State) :
    tallyWrite s q op = answerTally (tallyOp s q.tally (op = 2) n q.part q.remote) := by
  obtain ⟨pos, amount, width, value⟩ := word
  have low : bits q.word.toNat 30 0 = n := by
    rw [value, bits]
    omega
  have code : bits q.word.toNat 34 32 = op := by
    rw [value, bits]
    omega
  have formed : ¬ (q.width ≠ 8 ∨ op ≠ op ∨ q.word.toNat ≠ n + op * 2 ^ 32 ∨ n = 0) := by omega
  simp only [tallyWrite, low, code, if_neg formed]
  rfl

theorem tallyWrite_malformed {q : TallyReq} {op : Nat} (misfit : ∀ n, ¬ OperationWord q op n) (s : State) :
    tallyWrite s q op = emit (record s (tallyRec 0x53 q.tally q.part)) .errorCompletion := by
  refine if_pos ?_
  by_contra formed
  simp only [not_or, not_not] at formed
  obtain ⟨width, -, value, pos⟩ := formed
  exact misfit _ ⟨Nat.pos_of_ne_zero pos, Nat.mod_lt _ (by decide), width, value⟩

section
variable {s : State} {t n p : Nat}

theorem tallyOp_applies {sub remote : Bool} (may : mayTally s t p = true) (ok : remote = true → (tallyAt s t).remoteOk = true) :
    tallyOp s t sub n p remote = tallyApply s t sub n p := by
  cases remote <;> simp_all [tallyOp]

theorem tallyOp_notMine (sub : Bool) (barred : mayTally s t p = false) :
    tallyOp s t sub n p false = (record s (tallyRec 0x53 t p), .refused) := by
  simp [tallyOp, barred]

theorem tallyOp_notRemote (sub : Bool) (barred : (tallyAt s t).remoteOk = false ∨ mayTally s t p = false) :
    tallyOp s t sub n p true = (record s (tallyRec 0x54 t p), .refused) := by
  rcases barred with h | h <;> simp [tallyOp, h]

theorem tallyApply_adds (fits : (tallyAt s t).value + n ≤ maxTally) :
    tallyApply s t false n p =
      ((evalWaiters (setTally s t { tallyAt s t with value := (tallyAt s t).value + n }) t).1, .done) :=
  if_neg (Nat.not_lt.mpr fits)

theorem tallyApply_over (exceeds : maxTally < (tallyAt s t).value + n) :
    tallyApply s t false n p = (record (setTally s t { tallyAt s t with overflow := true }) (tallyRec 0x52 t p), .held) := if_pos exceeds

theorem tallyApply_subtracts (fits : n ≤ (tallyAt s t).value) :
    tallyApply s t true n p =
      ((evalWaiters (setTally s t { tallyAt s t with value := (tallyAt s t).value - n }) t).1, .done) :=
  if_neg (Nat.not_lt.mpr fits)

theorem tallyApply_under (under : (tallyAt s t).value < n) :
    tallyApply s t true n p = (record (setTally s t { tallyAt s t with underflow := true }) (tallyRec 0x51 t p), .held) := if_pos under

end

section
variable {i : Instr} {s : State} {q : TallyReq} {op n : Nat} (row : exec i s = act s fun u => tallyWrite u q op) (hl : live s = true)
include row hl

theorem tallyRow_misfit (misfit : ∀ n, ¬ OperationWord q op n) :
    Gives i s (emit (record (fresh s) (tallyRec 0x53 q.tally q.part)) .errorCompletion) :=
  gives_act row hl (tallyWrite_malformed misfit (fresh s))

variable (small : op < 8) (word : OperationWord q op n)
include small word

/-- A well-formed write whose operation comes to `x` gives the answer to it. -/
theorem tallyRow_gives {x : State × TallyResult} (h : tallyOp (fresh s) q.tally (op = 2) n q.part q.remote = x) :
    Gives i s (answerTally x) :=
  gives_act row hl ((tallyWrite_formed small word (fresh s)).trans (congrArg answerTally h))

theorem tallyRow_notMine (here : q.remote = false) (barred : mayTally s q.tally q.part = false) :
    Gives i s (emit (record (fresh s) (tallyRec 0x53 q.tally q.part)) .errorCompletion) := by
  have refused := tallyOp_notMine (s := fresh s) (n := n) (op = 2) barred
  rw [← here] at refused
  exact tallyRow_gives row hl small word refused

theorem tallyRow_notRemote (far : q.remote = true) (barred : (tallyAt s q.tally).remoteOk = false ∨ mayTally s q.tally q.part = false) :
    Gives i s (emit (record (fresh s) (tallyRec 0x54 q.tally q.part)) .errorCompletion) := by
  have refused := tallyOp_notRemote (s := fresh s) (n := n) (op = 2) barred
  rw [← far] at refused
  exact tallyRow_gives row hl small word refused

end

/-- Settles O28: a well-formed write by its operation, which applies, is held or is refused; any other as malformed. -/
theorem tallyWindowWrites : Obligations.TallyWindowWrites := by
  intro s q hl
  have add := exec_tallyAdd q s
  have sub := exec_tallySub q s
  have adds {n : Nat} (pos : 1 ≤ n) (amount : n < 2 ^ 31) (width : q.width = 8) (value : q.word.toNat = n + 2 ^ 32) :
      OperationWord q 1 n := ⟨pos, amount, width, by omega⟩
  refine ⟨fun n pos amount width may ok => ⟨fun value => ⟨fun fits => ?_, fun exceeds => ?_⟩, fun value => ⟨fun fits => ?_, fun under => ?_⟩⟩,
    fun misfit => ?_, fun misfit => ?_, fun n pos amount width => ⟨fun value => ?_, fun value => ?_⟩, fun cls => ?_⟩
  · exact tallyRow_gives add hl (by decide) (adds pos amount width value)
      ((tallyOp_applies (s := fresh s) may ok).trans (tallyApply_adds fits))
  · exact tallyRow_gives add hl (by decide) (adds pos amount width value)
      ((tallyOp_applies (s := fresh s) may ok).trans (tallyApply_over exceeds))
  · exact tallyRow_gives sub hl (by decide) ⟨pos, amount, width, value⟩
      ((tallyOp_applies (s := fresh s) may ok).trans (tallyApply_subtracts fits))
  · exact tallyRow_gives sub hl (by decide) ⟨pos, amount, width, value⟩
      ((tallyOp_applies (s := fresh s) may ok).trans (tallyApply_under under))
  · exact tallyRow_misfit add hl fun n ⟨pos, amount, width, value⟩ => misfit n pos amount width (by omega)
  · exact tallyRow_misfit sub hl fun n ⟨pos, amount, width, value⟩ => misfit n pos amount width value
  · exact ⟨tallyRow_notMine add hl (by decide) (adds pos amount width value),
      tallyRow_notRemote add hl (by decide) (adds pos amount width value)⟩
  · exact ⟨tallyRow_notMine sub hl (by decide) ⟨pos, amount, width, value⟩,
      tallyRow_notRemote sub hl (by decide) ⟨pos, amount, width, value⟩⟩
  · exact (record_noted (fresh s) _).tallies

/-! ### The commands of the tally memory (R320, R336) -/

@[simp] theorem tallyAt_begun (s : State) (op : Nat) (c : Packet) (t : Nat) : tallyAt (begun s op c) t = tallyAt s t := by
  rw [tallyAt, begun_tallies, tallyAt]

@[simp] theorem mayTally_begun (s : State) (op : Nat) (c : Packet) (t p : Nat) : mayTally (begun s op c) t p = mayTally s t p := by
  rw [mayTally, tallyAt_begun, mayTally]

@[simp] theorem tallyWord_begun (s : State) (op : Nat) (c : Packet) (t : Nat) : tallyWord (begun s op c) t = tallyWord s t := by
  simp only [tallyWord, waitersOn, tallyAt_begun, begun_tallies]

@[simp] theorem boundTo_begun (s : State) (op : Nat) (c : Packet) (ctx p : Nat) : boundTo (begun s op c) ctx p = boundTo s ctx p := by
  simp only [boundTo, ctxOf_begun]

section
variable {c : Packet} {s : State} {r : ReplyTo}

/-- P2 of TALLY_ASSIGN: partition, context and REMOTE_OK, and nothing above them. -/
theorem assignWord_fields {w part ctx : Nat} {far : Bool} (hp : part < 16) (hc : ctx < 4096)
    (h : w = part + ctx * 16 + if far then 65536 else 0) :
    bits w 3 0 = part ∧ bits w 15 4 = ctx ∧ bit w 16 = far ∧ bits w 63 17 = 0 := by
  have sum : w = part + ctx * 16 + flag far * 65536 := by cases far <;> exact h
  have one : flag far ≤ 1 := by cases far <;> decide
  refine ⟨?_, ?_, ?_, ?_⟩
  · rw [sum, bits]
    omega
  · rw [sum, bits]
    omega
  · have top : w / 2 ^ 16 % 2 = flag far := by omega
    rw [bit, top]
    cases far <;> rfl
  · rw [sum, bits]
    omega

/-- A run of tallies without waiters goes to a partition and a context bound to it. -/
theorem tallyAssignBody_assigns {part ctx : Nat} {far : Bool} (hp : partOf c = 0) (h0 : zeroFrom c 3) (nonempty : 1 ≤ c.p1.toNat)
    (inside : c.p0.toNat + c.p1.toNat ≤ 16384) (isPart : part < 16) (isCtx : ctx < 4096)
    (word : c.p2.toNat = part + ctx * 16 + if far then 65536 else 0) (bound : boundTo s ctx part = true)
    (idle : ∀ w ∈ s.tallies.waiters, w.tally < c.p0.toNat ∨ c.p0.toNat + c.p1.toNat ≤ w.tally) :
    tallyAssignBody c s r =
      (assignRun s c.p0.toNat c.p1.toNat { Tally.reset with part := part, ctx := ctx, assigned := true, remoteOk := far },
        okay c.p1.toNat) := by
  obtain ⟨ePart, eCtx, eFar, eZero⟩ := assignWord_fields isPart isCtx word
  have legal : ¬ (bits c.p2.toNat 63 17 ≠ 0 ∨ (!boundTo s (bits c.p2.toNat 15 4) (bits c.p2.toNat 3 0)) = true) := by
    simp [eZero, eCtx, ePart, bound]
  have free : ¬ (s.tallies.waiters.any fun w => c.p0.toNat ≤ w.tally && w.tally < c.p0.toNat + c.p1.toNat) = true := by
    simp only [List.any_eq_true, Bool.and_eq_true, decide_eq_true_eq, not_exists, not_and]
    exact fun w m low => by have := idle w m; omega
  refine (if_neg (not_not.mpr hp)).trans ((reservedFrom_zero h0).trans ((if_neg (by omega)).trans ((if_neg (by omega)).trans
    ((if_neg legal).trans ((if_neg free).trans ?_)))))
  rw [ePart, eCtx, eFar]

/-- The words that the caller may not read are answered as zero (R314). -/
theorem tallyReadBody_answers (h0 : zeroFrom c 3) (nonempty : 1 ≤ c.p2.toNat) (inside : c.p1.toNat + c.p2.toNat ≤ 16384) :
    tallyReadBody c s r = (s, output c.p2.toNat c.p0.toNat ((upto c.p1.toNat c.p2.toNat).flatMap fun t =>
      leBytes 8 (if mayTally s t (partOf c) = true then tallyWord s t else 0))) :=
  (reservedFrom_zero h0).trans ((if_neg (by omega)).trans (if_neg (by omega)))

section
variable (h0 : zeroFrom c 2) (inside : c.p0.toNat < 16384) (fits : c.p1.toNat ≤ maxTally)
include h0 inside fits

theorem tallySetBody_sets (may : mayTally s c.p0.toNat (partOf c) = true) :
    tallySetBody c s r = ((tallySetTo s c.p0.toNat c.p1.toNat).1, okay (tallySetTo s c.p0.toNat c.p1.toNat).2) :=
  (reservedFrom_zero h0).trans ((if_neg (Nat.not_le.mpr inside)).trans ((if_neg (Nat.not_lt.mpr fits)).trans (if_neg (by simp [may]))))

theorem tallySetBody_denied (barred : mayTally s c.p0.toNat (partOf c) = false) :
    tallySetBody c s r = (record s (tallyRec 0x53 c.p0.toNat (partOf c)), denied) :=
  (reservedFrom_zero h0).trans ((if_neg (Nat.not_le.mpr inside)).trans ((if_neg (Nat.not_lt.mpr fits)).trans (if_pos (by simp [barred]))))

end

end

/-- Settles O30: each command by what its work answers. -/
theorem tallyCommands : Obligations.TallyCommands := by
  refine ⟨fun s c n part ctx far ha hp h0 len nonempty inside isPart isCtx word bound idle => ?_,
    fun s c ha h0 nonempty inside => packet_ends rfl ha ?_,
    fun s c ha h0 inside fits => ⟨fun may t n set => packet_ends rfl ha ?_, fun barred => packet_ends rfl ha ?_⟩⟩
  · subst len
    exact packet_ends rfl ha (tallyAssignBody_assigns hp h0 nonempty inside isPart isCtx word (by rwa [boundTo_begun])
      (by rwa [begun_tallies]))
  · simpa using tallyReadBody_answers (s := begun s 0x0351 c) h0 nonempty inside
  · rw [tallySetBody_sets h0 inside fits (by rwa [mayTally_begun]), set]
  · exact tallySetBody_denied h0 inside fits (by rwa [mayTally_begun])

end Sys2Proof.Machine
end

section
/-! PROOFS. The commands of the DMA engines' queues (O27), and the host's accesses to memory and the hub's reads of the host's (O20). -/

namespace Sys2Proof.Machine

open Sys2Proof.Safety

/-! ### The queues of the engines (R325, R326, R336, R337) -/

@[simp] theorem engine_begun (s : State) (op : Nat) (c : Packet) (n : Nat) : engine (begun s op c) n = engine s n := by
  rw [engine, begun_dma, engine]

@[simp] theorem queueBusy_begun (s : State) (op : Nat) (c : Packet) (n : Nat) : queueBusy (begun s op c) n = queueBusy s n := by
  rw [queueBusy, engine_begun, queueBusy]

/-- A submission appends its descriptors in their order, and leaves what the queue holds. -/
theorem enqueueOne_foldl_queue (ctx : Nat) (l : List Desc) (e : Engine) :
    ∃ q : List CmdDesc, (l.foldl (enqueueOne ctx) e).queue = e.queue ++ q ∧ q.map CmdDesc.desc = l := by
  induction l generalizing e with
  | nil => exact ⟨[], (List.append_nil _).symm, rfl⟩
  | cons d l ih =>
    obtain ⟨q, queue, descs⟩ := ih (enqueueOne ctx e d)
    refine ⟨{ seq := (e.seq + 1) % 2 ^ 32, ctx := ctx, desc := d } :: q, ?_, congrArg (d :: ·) descs⟩
    rw [List.foldl_cons, queue]
    exact List.append_assoc ..

section
variable {c : Packet} {s : State} {r : ReplyTo}

theorem engineFor_named (named : c.p0.toNat < 64) (k : Nat → State × Ending) : engineFor c k s = k c.p0.toNat :=
  if_neg (Nat.not_le.mpr named)

theorem dmaQueueAssignBody_assigns (hp : partOf c = 0) (h0 : zeroFrom c 2) (named : c.p0.toNat < 64) (part : c.p1.toNat < 16)
    (idle : queueBusy s c.p0.toNat = false) :
    dmaQueueAssignBody c s r = (setEngine s c.p0.toNat { engine s c.p0.toNat with owner := c.p1.toNat }, okay c.p0.toNat) :=
  (if_neg (not_not.mpr hp)).trans ((reservedFrom_zero h0).trans ((engineFor_named named _).trans
    ((if_neg (Nat.not_le.mpr part)).trans (if_neg (ne_true_of_eq_false idle)))))

/-- Well-formed descriptors of the queue's owner, in a context bound to it, that fit the queue. -/
theorem dmaSubmitBody_appends {l : List Desc} (h0 : zeroFrom c 3) (named : c.p0.toNat < 64)
    (owned : (engine s c.p0.toNat).owner = partOf c) (isCtx : c.p1.toNat < 4096) (low : 1 ≤ c.p2.toNat) (high : c.p2.toNat ≤ 256)
    (bound : boundTo s c.p1.toNat (partOf c) = true) (formed : parseSubmit c.payload c.p2.toNat = some l)
    (fits : (engine s c.p0.toNat).queue.length + l.length ≤ 256) :
    let e := l.foldl (enqueueOne c.p1.toNat) (engine s c.p0.toNat)
    dmaSubmitBody c s r = (setEngine s c.p0.toNat e, okay e.seq) := by
  refine (reservedFrom_zero h0).trans ((engineFor_named named _).trans ((if_neg (not_not.mpr owned)).trans
    ((if_neg (Nat.not_le.mpr isCtx)).trans ((if_neg (by omega)).trans ((if_neg (by simp [owned, bound])).trans ?_)))))
  simp only [formed]
  exact if_neg (Nat.not_lt.mpr fits)

section
variable (h0 : zeroFrom c 1) (named : c.p0.toNat < 64) (may : partOf c = 0 ∨ (engine s c.p0.toNat).owner = partOf c)
include h0 named may

theorem dmaQueueReadBody_answers : dmaQueueReadBody c s r =
    (s, okay ((engine s c.p0.toNat).doneSeq + (engine s c.p0.toNat).queue.length * 2 ^ 32)) :=
  (reservedFrom_zero h0).trans ((engineFor_named named _).trans (if_neg (by tauto)))

/-- A flush leaves the head of a queue where the head is taken, and nothing else. -/
theorem dmaFlushBody_empties {kept : List CmdDesc}
    (h : (if headTaken (engine s c.p0.toNat) then (engine s c.p0.toNat).queue.take 1 else []) = kept) :
    dmaFlushBody c s r = (setEngine s c.p0.toNat { engine s c.p0.toNat with queue := kept },
      okay ((engine s c.p0.toNat).queue.length - kept.length)) := by
  subst h
  exact (reservedFrom_zero h0).trans ((engineFor_named named _).trans (if_neg (by tauto)))

theorem dmaFlushBody_all (untaken : headTaken (engine s c.p0.toNat) = false) :
    dmaFlushBody c s r = (setEngine s c.p0.toNat { engine s c.p0.toNat with queue := [] },
      okay (engine s c.p0.toNat).queue.length) :=
  dmaFlushBody_empties h0 named may (kept := []) (if_neg (ne_true_of_eq_false untaken))

theorem dmaFlushBody_butHead (taken : headTaken (engine s c.p0.toNat) = true) :
    dmaFlushBody c s r = (setEngine s c.p0.toNat { engine s c.p0.toNat with queue := (engine s c.p0.toNat).queue.take 1 },
      okay ((engine s c.p0.toNat).queue.length - 1)) := by
  have count : (engine s c.p0.toNat).queue.length - ((engine s c.p0.toNat).queue.take 1).length =
      (engine s c.p0.toNat).queue.length - 1 := by
    rw [List.length_take]
    omega
  rw [dmaFlushBody_empties h0 named may (if_pos taken), count]

end

end

/-- Settles O27: each command by what its work answers, and the order of a submission. -/
theorem engineCommands : Obligations.EngineCommands := by
  refine ⟨fun s c ha hp h0 named part idle => packet_ends rfl ha ?_,
    fun s c l ha h0 named owned isCtx low high bound formed fits => packet_ends rfl ha ?_,
    fun s c h0 named may => ⟨fun ha => packet_ends rfl ha ?_, fun ha untaken => packet_ends rfl ha ?_,
      fun ha taken => packet_ends rfl ha ?_⟩, fun ctx l e => ?_⟩
  · simpa using dmaQueueAssignBody_assigns (s := begun s 0x0360 c) hp h0 named part (by rwa [queueBusy_begun])
  · simpa using dmaSubmitBody_appends (s := begun s 0x0361 c) h0 named (by rwa [engine_begun]) isCtx low high
      (by rwa [boundTo_begun]) formed (by rwa [engine_begun])
  · simpa using dmaQueueReadBody_answers (s := begun s 0x0362 c) h0 named (by rwa [engine_begun])
  · simpa using dmaFlushBody_all (s := begun s 0x0363 c) h0 named (by rwa [engine_begun]) (by rwa [engine_begun])
  · simpa using dmaFlushBody_butHead (s := begun s 0x0363 c) h0 named (by rwa [engine_begun]) (by rwa [engine_begun])
  · obtain ⟨q, queue, descs⟩ := enqueueOne_foldl_queue ctx l e
    rw [queue, List.drop_left, List.take_left]
    exact ⟨descs, rfl⟩

/-! ### Accesses through BAR4 (R479, R480) -/

section
variable {s : State} {f : Fin 17} {off : Nat} (up : FabricUp s) (present : fnExists s f = true)
include up present

theorem bar4Open_fresh {n : Nat} (inside : off + n ≤ 2 ^ bar4Log2 s f) : bar4Open (fresh s) f off n = true := by
  have on : domainOn (fresh s) 28 = true := up.2
  have fn : fnExists (fresh s) f = true := present
  have fits : off + n ≤ 2 ^ bar4Log2 (fresh s) f := inside
  simp [bar4Open, on, fn, fits]

theorem hostBar4Read_arrives {len : Nat} (inside : off + len ≤ 2 ^ bar4Log2 s f) :
    Gives (.hostBar4Read f off len) s (arrive (fresh s) (bar4Req s f .read off len [] false)) :=
  gives_act (exec_hostBar4Read ..) up.1 (if_pos (bar4Open_fresh up present inside))

theorem hostBar4Write_arrives {d : Bytes} (poison : Bool) (inside : off + d.length ≤ 2 ^ bar4Log2 s f) :
    let t := if poison then record (fresh s) { cls := 0x84, kind := 8, index := f, part := some (srcPart f) } else fresh s
    Gives (.hostBar4Write f off d poison) s (arrive t (bar4Req t f .write off 0 d poison)) :=
  gives_act (exec_hostBar4Write ..) up.1 (if_pos (bar4Open_fresh up present inside))

end

/-- A request of the host: refused, it is recorded under class 0x85; a write answers nothing. -/
theorem serveFor_host (s : State) {f : Fin 17} {r : MemReq} (h : r.issuer = .host f) :
    let t := memoryRequest { s with out := [] } r
    let u := { t with out := s.out ++ if r.kind = .write then t.out.filter fun x => !isAnswer x else t.out }
    serveFor s r = if .errorCompletion ∈ t.out then
      recordCount u { cls := 0x85, kind := 8, index := f, part := some r.part, addr := r.addr } else u := by
  simp only [serveFor, h, List.contains_iff_mem]

/-! ### The hub's reads of host memory (R331, R486) -/

@[simp] theorem hostRead_fresh (s : State) (tag : Nat) : hostRead (fresh s) tag = hostRead s tag := rfl

section
variable {s : State} {tag : Nat} (hl : live s = true)
include hl

section
variable {de : Nat} {r : DmaRun} {q : HostReq} (waits : hostRead s tag = some (de, r, q))
include waits

theorem hostReadCompletion_data (d : Bytes) :
    Gives (.hostReadCompletion tag (.data d)) s (readArrives (fresh s) de r q (marked d false)) :=
  gives_act (exec_hostReadCompletion ..) hl (by rw [hostRead_fresh, waits])

theorem hostReadCompletion_poisoned (d : Bytes) :
    Gives (.hostReadCompletion tag (.poisoned d)) s (readArrives (record (fresh s) (hostRec 0x84 r q)) de r q (marked d true)) :=
  gives_act (exec_hostReadCompletion ..) hl (by rw [hostRead_fresh, waits])

theorem hostReadCompletion_refused :
    Gives (.hostReadCompletion tag .refused) s (reqRefused (record (fresh s) (hostRec 0x83 r q)) de r q) :=
  gives_act (exec_hostReadCompletion ..) hl (by rw [hostRead_fresh, waits])

theorem hostReadTimeout_refuses :
    Gives (.hostReadTimeout tag) s (reqRefused (record (fresh s) (hostRec 0x82 r q)) de r q) :=
  gives_act (exec_hostReadTimeout ..) hl (by rw [hostRead_fresh, waits])

end

section
variable (unawaited : hostRead s tag = none)
include unawaited

theorem hostReadCompletion_discarded (c : Completion) : Gives (.hostReadCompletion tag c) s (fresh s) :=
  gives_act (exec_hostReadCompletion ..) hl (by rw [hostRead_fresh, unawaited])

theorem hostReadTimeout_discarded : Gives (.hostReadTimeout tag) s (fresh s) :=
  gives_act (exec_hostReadTimeout ..) hl (by rw [hostRead_fresh, unawaited])

end

end

/-- Settles O20: both accesses arrive, the host's request is served by `serveFor_host`, and a read's end by what waits under its tag. -/
theorem hostAccessesAndReads : Obligations.HostAccessesAndReads :=
  ⟨fun _ _ up fn => ⟨fun _ _ inside => hostBar4Read_arrives up fn inside,
      fun _ _ poison inside => hostBar4Write_arrives up fn poison inside⟩,
    fun s _ _ host => serveFor_host s host,
    fun _ _ _ _ _ hl => ⟨fun waits => ⟨hostReadCompletion_data hl waits, hostReadCompletion_poisoned hl waits,
        hostReadCompletion_refused hl waits, hostReadTimeout_refuses hl waits⟩,
      fun unawaited => ⟨hostReadTimeout_discarded hl unawaited, hostReadCompletion_discarded hl unawaited⟩⟩⟩

end Sys2Proof.Machine
end

section
/-! PROOFS. The life of a Leat link and the Leat commands (O47). -/

namespace Sys2Proof.Machine

open Sys2Proof.Safety

@[simp] theorem linkOf_fresh (s : State) (n : Nat) : linkOf (fresh s) n = linkOf s n := rfl

@[simp] theorem linkOf_begun (s : State) (op : Nat) (c : Packet) (n : Nat) : linkOf (begun s op c) n = linkOf s n := by
  rw [linkOf, begun_leat, linkOf]

@[simp] theorem linksBusy_begun (s : State) (op : Nat) (c : Packet) : linksBusy (begun s op c) = linksBusy s := by
  simp only [linksBusy, linkOf_begun]

/-! ### Signals and training (R353, R354, R522) -/

theorem training_heard {s : State} {n : Nat} (training : (linkOf s n).state = .training) (unpaused : servicePause s = false) :
    ¬ ((linkOf (fresh s) n).state ≠ .training ∨ servicePause (fresh s) = true) := by
  simp [training, unpaused]

section
variable {s : State} {n : Fin 64} (hl : live s = true)
include hl

theorem laneLossOfLock_leaves : Gives (.laneLossOfLock n) s (linkOut (fresh s) n) :=
  gives_act (exec_laneLossOfLock ..) hl rfl

theorem linkSignalDetect_trains (saved : s.boot.leatCfg = true) (isDown : (linkOf s n).state = .down)
    (powered : domainOn s (domOfLink n) = true) :
    Gives (.linkSignalDetect n) s (trainLink (fresh s) n (savedFits s n)) := by
  have may : (s.boot.leatCfg && decide ((linkOf s n).state = .down) && domainOn s (domOfLink n)) = true := by
    simp [saved, isDown, powered]
  exact gives_act (exec_linkSignalDetect ..) hl (if_pos may)

section
variable {r : TrainResult} (training : (linkOf s n).state = .training) (unpaused : servicePause s = false)
include training unpaused

/-- No good lane under saved settings: the link trains in full (R354). -/
theorem linkTrainingComplete_retrains (dark : goodLanes (linkOf s n) r = 0#4) (saved : (linkOf s n).fromSaved = true) :
    Gives (.linkTrainingComplete n r) s (trainLink (fresh s) n false) :=
  gives_act (exec_linkTrainingComplete ..) hl
    ((if_neg (training_heard training unpaused)).trans ((if_pos dark).trans (if_pos saved)))

/-- No good lane in a full training: the link is excluded (R353). -/
theorem linkTrainingComplete_dark (dark : goodLanes (linkOf s n) r = 0#4) (full : (linkOf s n).fromSaved = false) :
    Gives (.linkTrainingComplete n r) s
      (trainingEnds (excludeLink (setLink (fresh s) n { linkOf s n with lanes := 0#4 }) n 1 0x62)) :=
  gives_act (exec_linkTrainingComplete ..) hl
    ((if_neg (training_heard training unpaused)).trans ((if_pos dark).trans (if_neg (ne_true_of_eq_false full))))

section
variable (lit : goodLanes (linkOf s n) r ≠ 0#4)
include lit

/-- What does not fit excludes the link at once, from saved settings too (log entry 60). -/
theorem linkTrainingComplete_misfit {cause cls : Nat} (misfit : trainFault s n r = some (cause, cls)) :
    Gives (.linkTrainingComplete n r) s
      (trainingEnds (excludeLink (setLink (fresh s) n { linkOf s n with lanes := goodLanes (linkOf s n) r, delay := r.delay })
        n cause cls)) := by
  have found : trainFault (fresh s) n r = some (cause, cls) := misfit
  refine gives_act (exec_linkTrainingComplete ..) hl
    ((if_neg (training_heard training unpaused)).trans ((if_neg lit).trans ?_))
  simp only [found, linkOf_fresh]

theorem linkTrainingComplete_up (fit : trainFault s n r = none) :
    Gives (.linkTrainingComplete n r) s (trainingEnds (linkUp (fresh s) n (goodLanes (linkOf s n) r) r)) := by
  have found : trainFault (fresh s) n r = none := fit
  refine gives_act (exec_linkTrainingComplete ..) hl
    ((if_neg (training_heard training unpaused)).trans ((if_neg lit).trans ?_))
  simp only [found, linkOf_fresh]

end

end

/-! ### The bit-error check (R525, R526) -/

section
variable (serves : (linkOf s n).state = .inService)
include serves

theorem berCheckStart_agrees {turn : Nat} (unagreed : ∀ t b, (linkOf s n).ber ≠ .agreed t b) :
    Gives (.berCheckStart n turn) s
      (emit (setLink (fresh s) n { linkOf s n with ber := .agreed turn ((linkOf s n).ber = .failedOnce) }) (.berStart n turn)) := by
  refine gives_act (exec_berCheckStart ..) hl ((if_neg (not_not.mpr serves)).trans ?_)
  cases was : (linkOf s n).ber with
  | agreed t b => exact absurd was (unagreed t b)
  | never | failedOnce | passed => simp only [linkOf_fresh, was]

section
variable {errors : List Nat} {bad : Bool} {turn : Nat} {again : Bool} (agreed : (linkOf s n).ber = .agreed turn again)
  (due : turn ≤ now s)
include agreed due

theorem berCheckComplete_passes (whole : berLanes (linkOf s n) errors = (linkOf s n).lanes) (sound : bad = false) :
    Gives (.berCheckComplete n errors bad) s
      (releasePort (restripe (setLink (fresh s) n { linkOf s n with ber := .passed }) (n.val / 8)) (n.val / 8)) := by
  refine gives_act (exec_berCheckComplete ..) hl ((if_neg (not_not.mpr serves)).trans ?_)
  simp only [linkOf_fresh, agreed]
  exact (if_neg (Nat.not_lt.mpr due)).trans (if_pos (by simp [whole, sound]))

theorem berCheckComplete_fails (failed : berLanes (linkOf s n) errors ≠ (linkOf s n).lanes ∨ bad = true) :
    Gives (.berCheckComplete n errors bad) s (berFails (fresh s) n again (berLanes (linkOf s n) errors)) := by
  refine gives_act (exec_berCheckComplete ..) hl ((if_neg (not_not.mpr serves)).trans ?_)
  simp only [linkOf_fresh, agreed]
  exact (if_neg (Nat.not_lt.mpr due)).trans (if_neg (by rcases failed with h | h <;> simp [h]))

end

end

end

/-! ### The Leat commands (R342, R354, R370) -/

section
variable {c : Packet} {s : State} {r : ReplyTo} (operator : partOf c = 0)
include operator

theorem operatorOnly_operator (k : Unit → State × Ending) : operatorOnly c s k = k () := if_neg (not_not.mpr operator)

theorem leatConfigBody_sets (h0 : zeroFrom c 2) (idle : linksBusy s = false) (hub : c.p0.toNat < 2 ^ 17) (ext : c.p1.toNat < 2 ^ 17)
    (x : bits c.p0.toNat 4 0 ≤ bits c.p1.toNat 4 0) (y : bits c.p0.toNat 9 5 ≤ bits c.p1.toNat 9 5)
    (z : bits c.p0.toNat 13 10 ≤ bits c.p1.toNat 13 10) (w : bits c.p0.toNat 16 14 ≤ bits c.p1.toNat 16 14) :
    let e := c.p1.toNat
    let t := { s with
      leat := { s.leat with hub := c.p0.toNat, exm1 := bits e 4 0, eym1 := bits e 9 5, ezm1 := bits e 13 10, ewm1 := bits e 16 14 }
      turn := { s.turn with headrace := if s.turn.isHeadrace then c.p0.toNat else s.turn.headrace } }
    leatConfigBody c s r = (t, okay (diameter t)) := by
  refine (operatorOnly_operator operator _).trans ((reservedFrom_zero h0).trans ((if_neg (Nat.not_le.mpr ext)).trans
    ((if_neg ?_).trans (if_neg (ne_true_of_eq_false idle)))))
  exact not_or.mpr ⟨Nat.not_le.mpr hub, by simp [x, y, z, w]⟩

section
variable (h0 : zeroFrom c 2) (mode : c.p1.toNat ≤ 2) (free : s.leat.training = none)
include h0 mode free

/-- Where a link of the mask trains, the reply waits. -/
theorem leatTrainBody_waits :
    let mask := setBits 64 c.p0.toNat
    let t := mask.foldl (trainOne c.p1.toNat) s
    (mask.any fun n => (linkOf t n).state = .training) = true →
      leatTrainBody c s r = ({ t with leat := { t.leat with training := some (mask, r) } }, .later) := fun waits =>
  (operatorOnly_operator operator _).trans ((reservedFrom_zero h0).trans ((if_neg (Nat.not_lt.mpr mode)).trans
    ((if_neg (by simp [free])).trans (if_pos waits))))

theorem leatTrainBody_ends :
    let mask := setBits 64 c.p0.toNat
    let t := mask.foldl (trainOne c.p1.toNat) s
    let u := if c.p1.toNat = 2 then trainingEnds t else t
    (mask.any fun n => (linkOf t n).state = .training) = false → leatTrainBody c s r = (u, okay (linksUp u)) := fun ended =>
  (operatorOnly_operator operator _).trans ((reservedFrom_zero h0).trans ((if_neg (Nat.not_lt.mpr mode)).trans
    ((if_neg (by simp [free])).trans (if_neg (ne_true_of_eq_false ended)))))

end

theorem leatStatusBody_answers (h0 : zeroFrom c 2) (addr : hostAddrOk c c.p0.toNat = true) (whole : c.p1.toNat % 16 = 0) :
    let n := min 64 (bufLen c c.p1.toNat / 16)
    leatStatusBody c s r = (s, output n c.p0.toNat ((List.range n).flatMap (linkBytesOf s))) :=
  (operatorOnly_operator operator _).trans ((reservedFrom_zero h0).trans ((if_neg (by simp [addr])).trans
    (if_neg (not_not.mpr whole))))

/-- The records of the links in service replace those saved before (log entry 59). -/
theorem leatSaveBody_saves (h0 : zeroFrom c 0) :
    let up := (List.range 64).filter fun n => (linkOf s n).state = .inService
    let recs := up.foldl (fun (a : Tbl (Nat × Nat)) n => a.put n ((linkOf s n).farUnit, (linkOf s n).lanes.toNat)) []
    let l := s.leat
    leatSaveBody c s r = ({ s with fw := { s.fw.eraseSaved with
        saved := { s.fw.saved with links := recs, leat := some (l.hub, l.exm1, l.eym1, l.ezm1, l.ewm1), sealOk := true } } },
      okay up.length) :=
  (operatorOnly_operator operator _).trans (reservedFrom_zero h0)

end

/-- Settles O47: the rows by the state of their link, a check by its Turn, and the commands by their works. -/
theorem linksTrainServeAndFail : Obligations.LinksTrainServeAndFail := by
  refine ⟨fun s n hl => ⟨laneLossOfLock_leaves hl, linkSignalDetect_trains hl, fun r training unpaused =>
      ⟨linkTrainingComplete_retrains hl training unpaused, linkTrainingComplete_dark hl training unpaused,
        fun _ _ lit => linkTrainingComplete_misfit hl training unpaused lit, linkTrainingComplete_up hl training unpaused⟩,
      fun _ serves => berCheckStart_agrees hl serves, fun _ _ _ _ serves agreed due =>
      ⟨berCheckComplete_passes hl serves agreed due, berCheckComplete_fails hl serves agreed due⟩⟩,
    fun s c operator => ⟨fun ha h0 idle hub ext x y z w => packet_ends rfl ha ?_,
      fun ha h0 mode free => ⟨fun waits => packet_ends rfl ha ?_, fun ended => packet_ends rfl ha ?_⟩,
      fun ha h0 addr whole => packet_ends rfl ha ?_, fun ha h0 => packet_ends rfl ha ?_⟩⟩
  · simpa using leatConfigBody_sets (s := begun s 0x0501 c) operator h0 (by rwa [linksBusy_begun]) hub ext x y z w
  · exact leatTrainBody_waits operator h0 mode (by rwa [begun_leat]) waits
  · exact leatTrainBody_ends operator h0 mode (by rwa [begun_leat]) ended
  · exact leatStatusBody_answers operator h0 addr whole
  · simpa using leatSaveBody_saves (s := begun s 0x0504 c) operator h0

end Sys2Proof.Machine
end

section
/-! PROOFS. What arrives over a Leat link, the key exchange of sealed partitions, and their counters (O48). -/

namespace Sys2Proof.Machine

open Sys2Proof.Safety

@[simp] theorem portOf_fresh (s : State) (p : Nat) : portOf (fresh s) p = portOf s p := rfl

@[simp] theorem mayExchange_fresh (s : State) (part : Nat) : mayExchange (fresh s) part = mayExchange s part := rfl

@[simp] theorem initiates_fresh (s : State) (p : Nat) : initiates (fresh s) p = initiates s p := rfl

@[simp] theorem sealedfresh (s : State) (part : Nat) : isSealed (fresh s) part = isSealed s part := rfl

@[simp] theorem linkOpen_fresh (s : State) (n : Nat) : linkOpen (fresh s) n = linkOpen s n := rfl

/-! ### Flits (R344, R348, R349) -/

section
variable {s : State} {n : Nat} (carries : linkOpen s n = true)
include carries

theorem takeFlit_uncorrectable (b : Bytes) : takeFlit s n b true = badCodeword s n :=
  (if_neg (by simp [carries])).trans (if_pos rfl)

section
variable {b : Bytes}

theorem takeFlit_badCheck (bad : (trailerOf b).good = false) : takeFlit s n b false = askResend s n :=
  (if_neg (by simp [carries])).trans ((if_neg Bool.false_ne_true).trans (if_pos (by simp [bad])))

section
variable (good : (trailerOf b).good = true)
include good

/-- A good flit returns its credits and its acknowledgement; a data flit that is the next in order is accepted, and another
asks for a resend (log entry 58). -/
theorem takeFlit_good :
    let t := takeReturns s n (trailerOf b)
    takeFlit s n b false = releasePort (restripe
      (if (trailerOf b).kind ≠ 1 then t else if (trailerOf b).lseq ≠ ((linkOf t n).rxSeq + 1) % 4096 then askResend t n
        else acceptFlit t n (trailerOf b) b) (n / 8)) (n / 8) :=
  (if_neg (by simp [carries])).trans ((if_neg Bool.false_ne_true).trans (if_neg (by simp [good])))

theorem takeFlit_noData (other : (trailerOf b).kind ≠ 1) :
    takeFlit s n b false = releasePort (restripe (takeReturns s n (trailerOf b)) (n / 8)) (n / 8) := by
  rw [takeFlit_good carries good, if_pos other]

section
variable (data : (trailerOf b).kind = 1)
include data

theorem takeFlit_inOrder (next : (trailerOf b).lseq = ((linkOf (takeReturns s n (trailerOf b)) n).rxSeq + 1) % 4096) :
    takeFlit s n b false =
      releasePort (restripe (acceptFlit (takeReturns s n (trailerOf b)) n (trailerOf b) b) (n / 8)) (n / 8) := by
  rw [takeFlit_good carries good, if_neg (not_not.mpr data), if_neg (not_not.mpr next)]

theorem takeFlit_outOfOrder (gap : (trailerOf b).lseq ≠ ((linkOf (takeReturns s n (trailerOf b)) n).rxSeq + 1) % 4096) :
    takeFlit s n b false = releasePort (restripe (askResend (takeReturns s n (trailerOf b)) n) (n / 8)) (n / 8) := by
  rw [takeFlit_good carries good, if_neg (not_not.mpr data), if_pos gap]

end

end

end

end

/-- The exchange of a partition that has not failed, where a KEY_ID names it. -/
def underWay (s : State) (p part k : Nat) : Option KeyEx :=
  ((portOf s p).keyEx.find? part).filter fun x => x.keyId = k && !x.failed

/-! ### Rows of one link -/

theorem leatDataFlit_gives {s t : State} {n : Fin 64} {b : Bytes} {bad : Bool} (hl : live s = true)
    (taken : takeFlit (fresh s) n b bad = t) : Gives (.leatDataFlit n b bad) s (serveArrivals t) :=
  gives_act (exec_leatDataFlit ..) hl (congrArg serveArrivals taken)

theorem keyOffer_heard {s : State} {n : Nat} (carries : linkOpen s n = true) (unpaused : servicePause s = false)
    (responds : initiates s (n / 8) = false) :
    ¬ ((!linkOpen (fresh s) n) = true ∨ servicePause (fresh s) = true ∨ initiates (fresh s) (n / 8) = true) := by
  simp [carries, unpaused, responds]

theorem keyOfferResponse_heard {s : State} {n part : Nat} (carries : linkOpen s n = true) (may : mayExchange s part = true)
    (begins : initiates s (n / 8) = true) :
    ¬ ((!linkOpen (fresh s) n) = true ∨ (!mayExchange (fresh s) part) = true ∨ (!initiates (fresh s) (n / 8)) = true) := by
  simp [carries, may, begins]

section
variable {s : State} {n : Fin 64} (hl : live s = true) (carries : linkOpen s n = true)
include hl carries

/-- A flit that was sent again four times takes the link out of service (R354). -/
theorem leatResendRequest_leaves {q : Nat} (spent : ∃ r ∈ ((linkOf s n).ackUpTo q).replay, 4 ≤ r.resent) :
    Gives (.leatResendRequest n q) s (linkOut (setLink (fresh s) n ((linkOf s n).ackUpTo q)) n) :=
  gives_act (exec_leatResendRequest ..) hl ((if_neg (by simp [carries])).trans (if_pos (by simpa using spent)))

theorem leatResendRequest_resends {q : Nat} (unspent : ∀ r ∈ ((linkOf s n).ackUpTo q).replay, r.resent < 4) :
    let l := (linkOf s n).ackUpTo q
    let t := setLink (setLink (fresh s) n l) n { l with replay := l.replay.map fun (r : Replay) => { r with resent := r.resent + 1 } }
    Gives (.leatResendRequest n q) s (releasePort (l.replay.foldl (fun a r => emitLeat a (flitOf a n r)) t) (n.val / 8)) :=
  gives_act (exec_leatResendRequest ..) hl ((if_neg (by simp [carries])).trans (if_neg (by simpa using unspent)))

/-! ### The responder (R584, log entry 61) -/

section
variable {f : KeyFragment} (unpaused : servicePause s = false) (responds : initiates s (n.val / 8) = false)
include unpaused responds

theorem keyOffer_refused (barred : mayExchange s f.part = false) :
    Gives (.keyOffer n f) s (emitLeat (fresh s) (.keyResponse n f.part.val f.keyId.toNat 0xFF 0 (List.replicate 40 0#8))) :=
  gives_act (exec_keyOffer ..) hl ((if_neg (keyOffer_heard carries unpaused responds)).trans (if_pos (by simp [barred])))

section
variable (may : mayExchange s f.part = true)
include may

/-- A fragment of the exchange in progress. -/
theorem keyOffer_continues {x : KeyEx} (was : underWay s (n.val / 8) f.part f.keyId.toNat = some x) :
    let u := takeFragment (fresh s) (n.val / 8) f.part x f
    Gives (.keyOffer n f) s (respondKeys u.1 (n.val / 8) f.part u.2) := by
  rw [underWay] at was
  refine gives_act (exec_keyOffer ..) hl ((if_neg (keyOffer_heard carries unpaused responds)).trans
    ((if_neg (by simp [may])).trans ?_))
  simp only [portOf_fresh, was]

section
variable (idle : underWay s (n.val / 8) f.part f.keyId.toNat = none)
include idle

theorem keyOffer_answered {y : Keys} (holds : (portOf s (n.val / 8)).keys.find? f.part = some y) (named : y.keyId = f.keyId.toNat) :
    Gives (.keyOffer n f) s (answerKey (fresh s) (n.val / 8) f.part f.keyId.toNat 0xFE 1023) := by
  rw [underWay] at idle
  refine gives_act (exec_keyOffer ..) hl ((if_neg (keyOffer_heard carries unpaused responds)).trans
    ((if_neg (by simp [may])).trans ?_))
  simp only [portOf_fresh, idle, holds]
  exact if_pos (by simp [named])

theorem keyOffer_opens (other : ∀ y, (portOf s (n.val / 8)).keys.find? f.part = some y → y.keyId ≠ f.keyId.toNat) :
    let o := openExchange (fresh s) (n.val / 8) f.part f.keyId.toNat
    let t := (List.range 7).foldl (fun a i => sendFragment a (n.val / 8) f.part o.2 i) o.1
    let u := takeFragment t (n.val / 8) f.part o.2 f
    Gives (.keyOffer n f) s (respondKeys u.1 (n.val / 8) f.part u.2) := by
  rw [underWay] at idle
  refine gives_act (exec_keyOffer ..) hl ((if_neg (keyOffer_heard carries unpaused responds)).trans
    ((if_neg (by simp [may])).trans ?_))
  simp only [portOf_fresh, idle]
  exact if_neg (by simpa [Option.any_eq_true] using other)

end

end

end

/-! ### The initiator (R584, log entry 61) -/

section
variable {f : KeyFragment} (may : mayExchange s f.part = true) (begins : initiates s (n.val / 8) = true)
include may begins

/-- With no exchange open, a prompt opens one. -/
theorem keyOfferResponse_prompted (idle : (portOf s (n.val / 8)).keyEx.find? f.part = none) (prompt : f.index = 0#8) :
    Gives (.keyOfferResponse n f) s (startExchange (n.val / 8) (fresh s) f.part) := by
  refine gives_act (exec_keyOfferResponse ..) hl ((if_neg (keyOfferResponse_heard carries may begins)).trans ?_)
  simp only [portOf_fresh, idle]
  exact if_pos prompt

section
variable {x : KeyEx} (was : (portOf s (n.val / 8)).keyEx.find? f.part = some x)
include was

theorem keyOfferResponse_fails (refused : f.index = 0xFF#8) :
    Gives (.keyOfferResponse n f) s (failExchange (fresh s) (n.val / 8) f.part x) := by
  refine gives_act (exec_keyOfferResponse ..) hl ((if_neg (keyOfferResponse_heard carries may begins)).trans ?_)
  simp only [portOf_fresh, was]
  exact if_pos refused

/-- A failed exchange starts again. -/
theorem keyOfferResponse_restarts (unrefused : f.index ≠ 0xFF#8) (failed : x.failed = true) :
    Gives (.keyOfferResponse n f) s (startExchange (n.val / 8) (fresh s) f.part) := by
  refine gives_act (exec_keyOfferResponse ..) hl ((if_neg (keyOfferResponse_heard carries may begins)).trans ?_)
  simp only [portOf_fresh, was]
  exact (if_neg unrefused).trans (if_pos failed)

section
variable (running : x.failed = false) (named : f.keyId.toNat = x.keyId)
include running named

theorem keyOfferResponse_takes (unrefused : f.index ≠ 0xFF#8) (uninstalled : f.index ≠ 0xFE#8) :
    Gives (.keyOfferResponse n f) s (takeFragment (fresh s) (n.val / 8) f.part x f).1 := by
  refine gives_act (exec_keyOfferResponse ..) hl ((if_neg (keyOfferResponse_heard carries may begins)).trans ?_)
  simp only [portOf_fresh, was]
  exact (if_neg unrefused).trans ((if_neg (ne_true_of_eq_false running)).trans ((if_neg uninstalled).trans (if_pos named)))

/-- The far end has installed the keys, and this end has its whole offer. -/
theorem keyOfferResponse_installs (installs : f.index = 0xFE#8) (whole : x.has 0 10 = true) :
    Gives (.keyOfferResponse n f) s
      (if offerGood s (n.val / 8) f.part x = true then
        setEx (installKeys (fresh s) (n.val / 8) f.part x) (n.val / 8) f.part none
      else failExchange (fresh s) (n.val / 8) f.part x) := by
  refine gives_act (exec_keyOfferResponse ..) hl ((if_neg (keyOfferResponse_heard carries may begins)).trans ?_)
  simp only [portOf_fresh, was]
  exact (if_neg (by simp [installs])).trans ((if_neg (ne_true_of_eq_false running)).trans ((if_pos installs).trans
    (if_pos (by simp [whole, named]))))

end

end

end

end

/-! ### What goes out again after 100 us (R584) -/

/-- The fragments that the far end lacks. -/
def lacked (x : KeyEx) : List Nat := (sendable x).filter fun k => !x.theyHave.getLsbD k

/-- Fragments of an exchange go out. -/
def sendAll (s : State) (p q : Nat) (x : KeyEx) (l : List Nat) : State := l.foldl (fun a k => sendFragment a p q x k) s

section
variable {s : State} {p : Fin 8} {q : Fin 16} (hl : live s = true) (may : mayExchange s q = true)
include hl may

theorem keyFragmentResend_starts (idle : (portOf s p).keyEx.find? q = none) (keyless : (portOf s p).keys.find? q = none) :
    Gives (.keyFragmentResend p q) s (startExchange p (fresh s) q) := by
  refine gives_act (exec_keyFragmentResend ..) hl ?_
  simp only [portOf_fresh, idle]
  exact if_pos (by simp [may, keyless])

section
variable {x : KeyEx} (was : (portOf s p).keyEx.find? q = some x) (running : x.failed = false)
include was running

theorem keyFragmentResend_sends :
    let t := sendAll (fresh s) p q x (if ((lacked x).isEmpty && x.initiator) = true then [9] else lacked x)
    Gives (.keyFragmentResend p q) s
      (if (!x.initiator && installed s p q x) = true then answerKey t p q x.keyId 0xFE (gotMask x) else t) := by
  refine gives_act (exec_keyFragmentResend ..) hl ?_
  simp only [portOf_fresh, was]
  exact if_neg (by simp [running, may])

theorem keyFragmentResend_initiator (begins : x.initiator = true) :
    Gives (.keyFragmentResend p q) s (sendAll (fresh s) p q x (if (lacked x).isEmpty = true then [9] else lacked x)) := by
  simpa [begins] using keyFragmentResend_sends hl may was running

section
variable (responds : x.initiator = false)
include responds

theorem keyFragmentResend_responder (uninstalled : installed s p q x = false) :
    Gives (.keyFragmentResend p q) s (sendAll (fresh s) p q x (lacked x)) := by
  simpa [responds, uninstalled] using keyFragmentResend_sends hl may was running

/-- A responder that has installed the keys answers too. -/
theorem keyFragmentResend_answers (keyed : installed s p q x = true) :
    Gives (.keyFragmentResend p q) s (answerKey (sendAll (fresh s) p q x (lacked x)) p q x.keyId 0xFE (gotMask x)) := by
  simpa [responds, keyed] using keyFragmentResend_sends hl may was running

end

end

end

/-! ### The counter of a sealed partition (R368, R369) -/

section
variable {s : State} {n : Fin 64} {q : Fin 16} (hl : live s = true)
include hl

theorem sealCounterLimit_again (stopped : (linkOf s n).sealHeld.contains q.val = true) :
    Gives (.sealCounterLimit n q) s (fresh s) :=
  gives_act (exec_sealCounterLimit ..) hl (if_pos (.inr stopped))

section
variable (sealed : isSealed s q = true)
include sealed

theorem sealCounterLimit_stops (sealing : (linkOf s n).sealHeld.contains q.val = false) :
    Gives (.sealCounterLimit n q) s
      (record (setLink (fresh s) n { linkOf s n with sealHeld := (linkOf s n).sealHeld ++ [q.val] })
        { linkRec n 0x69 0 with part := some q.val }) :=
  gives_act (exec_sealCounterLimit ..) hl (if_neg (by simpa [sealed] using sealing))

section
variable (keyed : ((portOf s (n.val / 8)).keys.find? q).isSome = true)
include keyed

/-- The mark opens an exchange where one may run and none does. -/
theorem sealCounterRekey_starts (may : mayExchange s q = true) (idle : (portOf s (n.val / 8)).keyEx.find? q = none) :
    Gives (.sealCounterRekey n q) s
      (startExchange (n.val / 8) (record (fresh s) { linkRec n 0x68 0 with part := some q.val }) q) :=
  gives_act (exec_sealCounterRekey ..) hl ((if_neg (by simp [sealed, Option.isSome_iff_ne_none.mp keyed])).trans
    (if_pos (by simp [may, idle])))

theorem sealCounterRekey_records
    (barred : mayExchange s q = false ∨ ((portOf s (n.val / 8)).keyEx.find? q).isSome = true) :
    Gives (.sealCounterRekey n q) s (record (fresh s) { linkRec n 0x68 0 with part := some q.val }) := by
  have stays : (mayExchange s q && ((portOf s (n.val / 8)).keyEx.find? q).isNone) = false := by
    rcases barred with held | running
    · rw [held, Bool.false_and]
    · rw [Option.isNone_eq_false_iff.mpr running, Bool.and_false]
  exact gives_act (exec_sealCounterRekey ..) hl ((if_neg (by simp [sealed, Option.isSome_iff_ne_none.mp keyed])).trans
    (if_neg (ne_true_of_eq_false stays)))

end

end

end

/-- Settles O48: a flit by what `takeFlit` makes of it, a fragment by the exchange that it meets, and a counter by its keys. -/
theorem flitsAndSealKeys : Obligations.FlitsAndSealKeys := by
  refine ⟨fun s n hl carries => ⟨fun b => leatDataFlit_gives hl (takeFlit_uncorrectable (s := fresh s) carries b),
      fun b bad => leatDataFlit_gives hl (takeFlit_badCheck (s := fresh s) carries bad),
      fun b good => ⟨fun other => leatDataFlit_gives hl (takeFlit_noData (s := fresh s) carries good other),
        fun data next => leatDataFlit_gives hl (takeFlit_inOrder (s := fresh s) carries good data next),
        fun data gap => leatDataFlit_gives hl (takeFlit_outOfOrder (s := fresh s) carries good data gap)⟩,
      fun q => ⟨leatResendRequest_leaves hl carries, leatResendRequest_resends hl carries⟩,
      fun f unpaused responds => ⟨keyOffer_refused hl carries unpaused responds, fun may => ⟨fun x t y was took => ?_,
        fun y idle holds named => keyOffer_answered hl carries unpaused responds may idle holds named,
        fun idle other t x u y opened took => ?_⟩⟩,
      fun f may begins => ⟨keyOfferResponse_prompted hl carries may begins, fun x was =>
        ⟨keyOfferResponse_fails hl carries may begins was, keyOfferResponse_restarts hl carries may begins was,
          fun running named => ⟨keyOfferResponse_takes hl carries may begins was running named,
            keyOfferResponse_installs hl carries may begins was running named⟩⟩⟩⟩,
    fun s p q hl may => ⟨keyFragmentResend_starts hl may, fun x was running => ⟨keyFragmentResend_initiator hl may was running,
      keyFragmentResend_responder hl may was running, keyFragmentResend_answers hl may was running⟩⟩,
    fun s n q hl sealed => ⟨sealCounterLimit_stops hl sealed, sealCounterLimit_again hl, fun keyed =>
      ⟨sealCounterRekey_starts hl sealed keyed, sealCounterRekey_records hl sealed keyed⟩⟩⟩
  · simpa only [took] using keyOffer_continues hl carries unpaused responds may was
  · simpa only [opened, took] using keyOffer_opens hl carries unpaused responds may idle other

end Sys2Proof.Machine
end

section
/-! PROOFS. Register writes (O58): masters, aliases of bits, locks, posted writes and the rows of single registers. -/

namespace Sys2Proof.Machine

open Sys2Proof.Safety

/-! ### Posted writes (R503, R504) -/

section
variable {s : State} {b : PostedBlock}

theorem postWrite_idle (idle : blockBusy s b = false) (o v : Nat) :
    postWrite s b o v = { s with glob := { s.glob with posted := s.glob.posted ++ [(b, o, v % 2 ^ 32)] } } :=
  if_neg (ne_true_of_eq_false idle)

theorem postWrite_busy (busy : blockBusy s b = true) (o v : Nat) :
    postWrite s b o v = { s with glob := { s.glob with pwDrop := s.glob.pwDrop ||| BitVec.ofNat 4 (2 ^ dropBit b) } } :=
  if_pos busy

end

/-! ### One word of the map (R495, R498) -/

section
variable {s : State} {o v : Nat} (unposted : postedBlock o = none)
include unposted

/-- A word whose writes are not posted is written at once, by itself or bit by bit. -/
theorem writeOne_unposted :
    writeOne s o v = if 0x100_0000 ≤ o ∧ o < 0x180_0000 then aliasWrite s o v else writeWord s o v := by
  simp only [writeOne, unposted]

/-- An aligned write of 4 bytes to a unit that answers acts once, on its word. -/
theorem writeMap_word (p : Fin 16) (reach : regDomain o = none ∨ ∃ d, regDomain o = some d ∧ answers s d = true)
    (aligned : regAccessOk o 4 = true) (outside : inTallyWindow o = false) (fits : v < 2 ^ 32) :
    writeMap s p o 4 v = if 0x100_0000 ≤ o ∧ o < 0x180_0000 then aliasWrite s o v else writeWord s o v := by
  have both : writeMap.writeBoth o 4 v s = writeOne s o v := by
    simp only [writeMap.writeBoth, unposted, Nat.mod_eq_of_lt fits, if_neg (show ¬ 4 = 8 by decide)]
  rw [← writeOne_unposted unposted, ← both, writeMap, if_neg (ne_true_of_eq_false outside), if_neg (by simp [aligned])]
  rcases reach with core | ⟨d, domain, on⟩
  · simp only [core]
  · simp only [domain, on, if_true]

end

/-! ### Masters (R476, R487) -/

section
variable (s : State) {o : Nat} (width v : Nat)

theorem writeBy_pf_reaches (own : isForeignSet (baseOf o) = false) : writeBy s (.host 0) o width v = writeMap s 0 o width v :=
  if_neg (ne_true_of_eq_false own)

theorem writeBy_pf_ignored (foreign : isForeignSet (baseOf o) = true) : writeBy s (.host 0) o width v = s := if_pos foreign

theorem writeBy_core_reaches (other : isHostReg (baseOf o) = false) : writeBy s .core o width v = writeMap s 0 o width v :=
  if_neg (ne_true_of_eq_false other)

theorem writeBy_core_ignored (host : isHostReg (baseOf o) = true) : writeBy s .core o width v = s := if_pos host

end

/-! ### Aliases (R499) -/

/-- The offset at which a bit is aliased gives its word and its number back; an RW bit is replaced in its word. -/
theorem aliasWrite_bit (s : State) {r b : Nat} (v : Nat) (aligned : r % 4 = 0) (inWord : b < 32) (unlocked : r ≠ 0x50)
    (unposted : postedBlock (0x100_0000 + (r * 8 + b) * 4) = none) :
    aliasWrite s (0x100_0000 + (r * 8 + b) * 4) v =
      if bit (rwMask r) b then writeWord s r (setBit (regRaw s r) b (bit v 0)) else s := by
  have place : (0x100_0000 + (r * 8 + b) * 4 - 0x100_0000) / 4 = r * 8 + b := by omega
  have word : (r * 8 + b) / 32 * 4 = r := by omega
  have bitNo : (r * 8 + b) % 32 = b := by omega
  simp only [aliasWrite, unposted, place, word, bitNo]
  exact if_neg fun h => unlocked h.1

/-! ### Rows of the registers -/

section
variable {s : State} (up : FabricUp s)
include up

theorem gives_register {i : Instr} {t : State} {f : State → State} (row : exec i s = act s fun u => if domainOn u 28 then f u else u)
    (h : f (fresh s) = t) : Gives i s t := gives_act row up.1 ((if_pos up.2).trans h)

theorem registerWrite_gives {w : RegWrite} {t : State} (h : writeBy (fresh s) w.master w.off w.width w.value = t) :
    Gives (.registerWrite w) s t :=
  gives_register up (exec_registerWrite ..) h

theorem bitAliasWrite_gives {r b : Nat} (v : Nat) (low : r < 0x4_0000) (aligned : r % 4 = 0) (inWord : b < 32) (unlocked : r ≠ 0x50)
    (unposted : postedBlock (0x100_0000 + (r * 8 + b) * 4) = none) :
    Gives (.bitAliasWrite (0x100_0000 + (r * 8 + b) * 4) v) s
      (if bit (rwMask r) b then writeWord (fresh s) r (setBit (regRaw (fresh s) r) b (bit v 0)) else fresh s) :=
  gives_act (exec_bitAliasWrite ..) up.1 ((if_pos ⟨up.2, by omega, by omega, by omega⟩).trans
    (aliasWrite_bit _ v aligned inWord unlocked unposted))

theorem cfgLockWrite_global (v : Nat) : Gives (.cfgLockWrite 0x50 v) s
    (if bit v 0 then { fresh s with glob := { s.glob with cfgLock := true } } else fresh s) :=
  gives_powered (exec_cfgLockWrite ..) up rfl

/-- The lock of the Turn unit is posted (R502). -/
theorem cfgLockWrite_turn (v : Nat) : Gives (.cfgLockWrite 0x1_0000 v) s (postWrite (fresh s) .turn 0x1_0000 v) :=
  gives_powered (exec_cfgLockWrite ..) up rfl

theorem postedWrite_gives {o v : Nat} {b : PostedBlock} {t : State} (posted : postedBlock o = some b)
    (h : postWrite (fresh s) b o v = t) : Gives (.postedWrite o v) s t := by
  refine gives_act (exec_postedWrite ..) up.1 ?_
  simp only [posted]
  exact (if_pos up.2).trans h

theorem hostRdLimitWrite_guarded (v : Nat) :
    Gives (.hostRdLimitWrite v) s (guarded s.glob.cfgLock (fresh s) fun t => writeLimit t v) :=
  gives_register up (exec_hostRdLimitWrite ..) rfl

theorem hostFnTagsWrite_guarded (fn : Fin 17) (v : Nat) : Gives (.hostFnTagsWrite fn v) s
    (guarded s.glob.cfgLock (fresh s) fun t => writeHostFn t fn (func t fn).share (v % 2 ^ 13)) :=
  gives_register up (exec_hostFnTagsWrite ..) rfl

end

/-! ### The limits of the host's reads (R487) -/

/-- A limit in range that holds the sum of TAGS is taken. -/
theorem writeLimit_inRange (s : State) {v : Nat} (low : 16 ≤ v) (high : v ≤ 4096) :
    writeLimit s v = if v < tagSum s 17 0 then s else { s with host := { s.host with limit := v } } := by
  have whole : v % 2 ^ 13 = v := Nat.mod_eq_of_lt (by omega)
  simp only [writeLimit, whole, if_pos (And.intro low high), gt_iff_lt]

/-- Settles O58: a word write by its master, an aliased bit by its mask, the posted rows by their block, the limits by the lock. -/
theorem registerWritesByAccessType : Obligations.RegisterWritesByAccessType := by
  refine fun s up => ⟨fun o v reach aligned outside unposted fits => ?_,
    fun r b v low aligned inWord unlocked unposted => bitAliasWrite_gives up v low aligned inWord unlocked unposted,
    fun v => ⟨cfgLockWrite_global up v, cfgLockWrite_turn up v⟩,
    fun o b v posted => ⟨fun idle => postedWrite_gives up posted (postWrite_idle (s := fresh s) idle o v),
      fun busy => postedWrite_gives up posted (postWrite_busy (s := fresh s) busy o v)⟩,
    fun n idle => gives_register up (exec_leatFecClr ..) (postWrite_idle (s := fresh s) idle 0x40_0010 n),
    fun unlocked => ⟨fun v low high => ?_, fun fn v fits => ?_⟩, fun locked => ⟨fun v => ?_, fun fn v => ?_⟩⟩
  · have word := writeMap_word (s := fresh s) unposted 0 reach aligned outside fits
    exact ⟨fun own => registerWrite_gives up ((writeBy_pf_reaches _ 4 v own).trans word),
      fun foreign => registerWrite_gives up (writeBy_pf_ignored _ 4 v foreign),
      fun other => registerWrite_gives up ((writeBy_core_reaches _ 4 v other).trans word),
      fun host => registerWrite_gives up (writeBy_core_ignored _ 4 v host)⟩
  · have row := hostRdLimitWrite_guarded up v
    rwa [guarded, if_neg (ne_true_of_eq_false unlocked), writeLimit_inRange _ low high] at row
  · have row := hostFnTagsWrite_guarded up fn v
    rwa [guarded, if_neg (ne_true_of_eq_false unlocked), Nat.mod_eq_of_lt fits] at row
  · simpa only [guarded, locked, if_true] using hostRdLimitWrite_guarded up v
  · simpa only [guarded, locked, if_true] using hostFnTagsWrite_guarded up fn v

end Sys2Proof.Machine
end

section
/-! PROOFS. What every step keeps (O4, O5, O6), and that every command answers (O1, O3): `exec_kept` for every row but three, and
`Held` for each of the three. -/

namespace Sys2Proof.Machine

open Sys2Proof.Safety

/-! ### The three rows that move TURN_COUNT hold everything else -/

theorem execTurnTick_held (s : State) : ∃ t, execTurnTick s = .next t ∧ Held s t := by
  cases hl : live s with
  | true =>
    refine ⟨_, execTurnTick_live hl, ?_⟩
    split
    · exact (serveArrivals_kept (enterStretch_kept (Kept.fresh s))).held
    · exact (Kept.fresh s).held.trans (tick_held (fresh s)).1
  | false =>
    have late : Held s (observeTick (endWarrants (nextTurn (fresh s)) fun w => w.expiry ≤ now (nextTurn (fresh s)))) :=
      ((Kept.fresh s).held.trans (nextTurn_held (fresh s)).1).trans (observeTick_kept (endWarrants_kept (.refl _) _)).held
    unfold execTurnTick
    rw [hl, if_neg (by decide)]
    split
    · exact ⟨_, rfl, late⟩
    · exact ⟨_, rfl, (Kept.fresh s).held⟩

theorem execTurnMarker_held (l : Fin 64) (m : Marker) (s : State) : ∃ t, execTurnMarker l m s = .next t ∧ Held s t := by
  cases hl : live s with
  | false => exact ⟨_, act_dead hl, (Kept.fresh s).held⟩
  | true =>
    refine ⟨_, act_live hl, ?_⟩
    dsimp only
    split
    · exact (Kept.fresh s).held
    · split
      · exact (excludeLink_kept (Kept.fresh s) ..).held
      · generalize hu : elect _ = u
        have h : Kept s u := hu ▸ elect_kept (.lit (Kept.fresh s) rfl id)
        split
        · exact h.held.trans (parentMarker_held u m)
        · exact (otherMarker_kept h ..).held

/-- A cold start keeps what the die keeps (Table 17-1), and its memory lists nothing. -/
theorem execPwrokRise_held (env : BootEnv) (s : State) : ∃ t, execPwrokRise env s = .next t ∧ Held s t := by
  unfold execPwrokRise
  split
  · exact ⟨_, rfl, (Kept.fresh s).held⟩
  · exact ⟨_, rfl, (coldReset_held s env.entropy).trans
      (bootStep_kept (.refl _) (fun t => .refl t) fun t => fromBank_kept (.refl t) ..).held⟩

/-! ### Every row, every step -/

/-- Every row answers a next state, and holds the queue, the fuses, the seal bits and the form of memory. -/
theorem exec_held (i : Instr) (s : State) : ∃ t, exec i s = .next t ∧ Held s t := by
  cases moves : movesTurn i with
  | false =>
    obtain ⟨t, answers, kept⟩ := exec_kept moves s
    exact ⟨t, answers, kept.held⟩
  | true =>
    unfold movesTurn at moves
    split at moves
    · exact execTurnTick_held s
    · exact execTurnMarker_held _ _ s
    · exact execPwrokRise_held _ s
    · cases moves

/-- A step runs the command at the front of the queue on the state with the queue's rest. -/
theorem step_runs {s : State} {c : Instr} {rest : List Instr} (front : s.pending = c :: rest) :
    step s = exec c { s with pending := rest } := by
  rw [step, front]

/-- Every step answers, takes the front of the queue, and holds everything else that `Held` names. -/
theorem step_held (s : State) : ∃ t, step s = .next t ∧ Held { s with pending := s.pending.tail } t := by
  cases queue : s.pending with
  | nil =>
    refine ⟨s, step_idles queue, ?_⟩
    rw [List.tail_nil, ← queue]
    exact Held.refl s
  | cons c rest => exact step_runs queue ▸ exec_held c { s with pending := rest }

/-- Settles O6: the front of the queue is taken before the command runs, and no row touches the queue. -/
theorem queueIsFirstInFirstOut : Obligations.QueueIsFirstInFirstOut := fun s _ x => (next_of (step_held s) x).pending

/-- Settles O5: seal bits and fuses are among what every row holds. -/
theorem sealBitsOnlySet : Obligations.SealBitsOnlySet := by
  intro s t x
  have held := next_of (step_held s) x
  exact ⟨held.seals, held.fuse⟩

/-- Settles O4: the canonical form of memory is among what every row holds. -/
theorem everyStepKeepsMemoryCanonical : Obligations.EveryStepKeepsMemoryCanonical :=
  fun s _ canonical x => (next_of (step_held s) x).mem canonical

/-- Settles O3: a row answers the state that holds what it must. -/
theorem everyCommandAnswers : Obligations.EveryCommandAnswers := by
  refine ⟨fun i s => ?_, fun s => ?_⟩
  · obtain ⟨t, answers, -⟩ := exec_held i s
    exact ⟨t, answers⟩
  · obtain ⟨t, answers, -⟩ := step_held s
    exact ⟨t, answers⟩

/-- Settles O1, by what a step does with a queue that is not empty. -/
theorem stepRunsFrontCommand : Obligations.StepRunsFrontCommand := fun _ _ _ => step_runs

end Sys2Proof.Machine
end

section
/-! PROOFS. The gates of the rows (O7), the reset pins (O10, O11), bring-up's decisions (O12) and the array map (O13). -/

namespace Sys2Proof.Machine

open Sys2Proof.Safety

/-! ### The gate of each row (R510, R511) -/

/-- The sensors and the reference clocks are PD29's. -/
theorem exec_of_sensorRow {i : Instr} (sensor : sensorRow i = true) (s : State) : ∃ f, exec i s = actAon s f := by
  unfold sensorRow at sensor
  split at sensor
  case h_8 => cases sensor
  all_goals
    unfold exec
    exact ⟨_, rfl⟩

/-- Every other row but the pins' own acts on a hub that answers. -/
theorem exec_of_gatedRow {i : Instr} (pin : pinRow i = false) (sensor : sensorRow i = false) (s : State) : ∃ f, exec i s = act s f := by
  unfold exec
  cases i
  case pwrokRise | pwrokFall | warmRstAssert | warmRstRise | perstAssert | perstDeassert | turnTick => cases pin
  case turnInEdge | turnInEdgeMissing | serdesRefclkLoss | serdesRefclkReturn | tempSample | railSample | thermtrip => cases sensor
  all_goals
    dsimp only
    exact ⟨_, rfl⟩

/-- Settles O7: each row's gate is that of the hub, or PD29's. -/
theorem deadHubDoesNothing : Obligations.DeadHubDoesNothing := by
  intro i s dead pin asleep
  cases sensor : sensorRow i with
  | false =>
    obtain ⟨f, row⟩ := exec_of_gatedRow pin sensor s
    exact row.trans (act_dead dead)
  | true =>
    obtain ⟨f, row⟩ := exec_of_sensorRow sensor s
    exact row.trans (actAon_off (asleep.resolve_left (ne_false_of_eq_true sensor)))

/-! ### PWROK rises -/

/-- With WARM_RST# low a cold start stands after step 1 (R511). -/
theorem pwrokRise_stopsAtStep1 {s : State} (env : BootEnv) (low : s.pins.pwrok = false) (held : s.pins.warmLow = true) :
    exec (.pwrokRise env) s = .next (bootStep env 1 (fun t => (t, false)) id (coldReset s env.entropy)) := by
  rw [exec_pwrokRise, execPwrokRise, if_neg (ne_true_of_eq_false low)]
  simp only [bootStep, coldReset, held, Bool.not_true, Bool.false_eq_true, if_false]

/-- With WARM_RST# high it goes on with step 2. -/
theorem pwrokRise_goesOn {s : State} (env : BootEnv) (low : s.pins.pwrok = false) (high : s.pins.warmLow = false) :
    exec (.pwrokRise env) s = .next (fromBank env false (bootStep env 1 (fun t => (t, false)) id (coldReset s env.entropy))) := by
  rw [exec_pwrokRise, execPwrokRise, if_neg (ne_true_of_eq_false low)]
  simp only [bootStep, coldReset, high, Bool.not_false, if_true, Bool.false_eq_true, if_false]

/-- Settles O10: `coldReset` says what a cold start keeps, and the level of WARM_RST# whether step 2 follows. -/
theorem coldStartLeavesResetState : Obligations.ColdStartLeavesResetState := by
  refine fun env s => ⟨fun low held => ?_, fun high => ?_, fun low high => ?_⟩
  · exact ⟨_, pwrokRise_stopsAtStep1 env low held, rfl, rfl, rfl, rfl, rfl, rfl, rfl, rfl, rfl, rfl, rfl, rfl⟩
  · exact if_pos high
  · exact ⟨_, pwrokRise_goesOn env low high, rfl, rfl, rfl⟩

/-! ### The other edges of the reset pins -/

/-- The hub as WARM_RST# falls, but for the holdover that follows. -/
def warmStop (s : State) : State :=
  forgetStarted (cutErases { s with out := [], pins := { s.pins with warmLow := true }, boot := { s.boot with ready := false } })

/-- Holdover changes the Turn unit, and what it records is not fatal (R90). -/
theorem enterHoldover_noted (s : State) :
    let u := { s with turn := { s.turn with aligned := false, parent := none, holdover := true } }
    Noted u (enterHoldover s) ∧ (enterHoldover s).boot = s.boot := by
  unfold enterHoldover
  dsimp only
  split
  · exact ⟨Noted.refl _, rfl⟩
  · exact ⟨record_noted .., record_boot rfl⟩

theorem warmRstAssert_stops {s : State} (hl : live s = true) : exec .warmRstAssert s = .next (enterHoldover (warmStop s)) := if_pos hl

/-- No command of a source has started any more (R511). -/
theorem warmStop_chan {s : State} : ∀ x ∈ (warmStop s).cmd.chan, x.2.started = [] ∧ x.2.fetched = [] ∧ x.2.held = [] := by
  intro x found
  obtain ⟨y, -, rfl⟩ := List.mem_map.mp found
  exact ⟨rfl, rfl, rfl⟩

theorem warmRstRise_restarts {s : State} (env : BootEnv) (low : s.pins.warmLow = true) (on : aon s = true) :
    exec (.warmRstRise env) s = .next (fromBank env true (warmReset (fresh s))) :=
  if_pos ((Bool.and_eq_true _ _).mpr ⟨low, on⟩)

theorem warmRstRise_onlyPin {s : State} (env : BootEnv) (h : s.pins.warmLow = false ∨ aon s = false) :
    exec (.warmRstRise env) s = .next { s with out := [], pins := { s.pins with warmLow := false } } := by
  refine if_neg fun both => ?_
  obtain ⟨low, on⟩ := (Bool.and_eq_true _ _).mp both
  rcases h with h | h
  · exact absurd low (ne_true_of_eq_false h)
  · exact absurd on (ne_true_of_eq_false h)

/-- Settles O11: the fall of PWROK as it is; the fall of WARM_RST# by what holdover notes; its rise by what the sequence keeps. -/
theorem resetPinsStopAndRestart : Obligations.ResetPinsStopAndRestart := by
  refine ⟨fun s => rfl, fun s hl => ?_, fun s dead => if_neg (ne_true_of_eq_false dead), fun env s low on => ?_,
    fun env s => warmRstRise_onlyPin env⟩
  · obtain ⟨noted, boot⟩ := enterHoldover_noted (warmStop s)
    refine ⟨_, warmRstAssert_stops hl, noted.pins, boot, noted.turn, ?_, ?_, noted.mem, noted.fuse, noted.otp, noted.pending⟩
    · rw [noted.cmd]
      rfl
    · rw [noted.cmd]
      exact warmStop_chan
  · have kept := fromBank_kept (.refl (warmReset (fresh s))) env true
    exact ⟨_, _, warmRstRise_restarts env low on, rfl, rfl, rfl, rfl, rfl, rfl, rfl, rfl, rfl, rfl, rfl, rfl, kept.count,
      kept.held.fuse, kept.held.pending, kept.held.seals⟩

/-! ### Steps 2 and 13 of bring-up -/

/-- The state in which step `n` does its work. -/
def atStep (env : BootEnv) (n : Nat) (s : State) : State :=
  { s with boot := { s.boot with step := n, stepTime := s.boot.stepTime.put n (min (env.stepTimes.getD (n - 1) 0) (2 ^ 32 - 1)) } }

section
variable {env : BootEnv} {n : Nat} {f : State → State × Bool} {s u : State}

theorem bootStep_goesOn (rest : State → State) (h : f (atStep env n s) = (u, true)) : bootStep env n f rest s = rest u := by
  change (if (f (atStep env n s)).2 then rest (f (atStep env n s)).1 else (f (atStep env n s)).1) = rest u
  rw [h, if_pos rfl]

theorem bootStep_ends (rest : State → State) (h : f (atStep env n s) = (u, false)) : bootStep env n f rest s = u := by
  change (if (f (atStep env n s)).2 then rest (f (atStep env n s)).1 else (f (atStep env n s)).1) = u
  rw [h]
  exact if_neg Bool.false_ne_true

end

section
variable {t : State} {warm : Bool}

theorem verifyBank_selected (own : bankGood (checkSeal t) warm (checkSeal t).boot.bank = true) :
    verifyBank warm t = (takeMeasures (checkSeal t), true) := if_pos own

variable (bad : ¬ bankGood (checkSeal t) warm (checkSeal t).boot.bank = true)
include bad

theorem verifyBank_other (other : bankGood (checkSeal t) warm (1 - (checkSeal t).boot.bank) = true) :
    let u := checkSeal t
    verifyBank warm t =
      (takeMeasures (record { u with boot := { u.boot with bank := 1 - u.boot.bank, fallback := true } } { cls := 0xB1, kind := 10 }), true) :=
  (if_neg bad).trans (if_pos other)

theorem verifyBank_recovers (worse : ¬ bankGood (checkSeal t) warm (1 - (checkSeal t).boot.bank) = true) :
    let u := checkSeal t
    verifyBank warm t =
      (takeMeasures (record { u with boot := { u.boot with recovery := true } } { cls := 0xB2, kind := 10 }), false) :=
  (if_neg bad).trans (if_neg worse)

end

/-- Step 2 in the three cases of R598 and R599. -/
theorem fromBank_verifies (env : BootEnv) (warm : Bool) (s : State) :
    let u := checkSeal (atStep env 2 s)
    let b := u.boot.bank
    fromBank env warm s =
      if bankGood u warm b = true then fromCores env (takeMeasures u)
      else if bankGood u warm (1 - b) = true then
        fromCores env (takeMeasures (record { u with boot := { u.boot with bank := 1 - b, fallback := true } } { cls := 0xB1, kind := 10 }))
      else takeMeasures (record { u with boot := { u.boot with recovery := true } } { cls := 0xB2, kind := 10 }) := by
  intro u b
  split
  next own => exact bootStep_goesOn _ (verifyBank_selected own)
  next bad =>
    split
    next other => exact bootStep_goesOn _ (verifyBank_other bad other)
    next worse => exact bootStep_ends _ (verifyBank_recovers bad worse)

/-- READY where every logical array has a physical one (R527). -/
theorem decideReady_ready {s : State} (h : ∀ x ∈ arrayMap s, x.2.isSome) :
    let u := coldCauses (mapArrays s)
    ∃ n, decideReady s = event { u with boot := { u.boot with ready := true, time := n } } 0 := by
  have full : (arrayMap s).find? (fun x => x.2.isNone) = none := by
    rw [List.find?_eq_none]
    intro x found
    rw [Option.isNone_iff_eq_none, ← Option.not_isSome_iff_eq_none, not_not]
    exact h x found
  simp only [decideReady, full]
  exact ⟨_, rfl⟩

/-- Class 0x19 names a logical array that has none. -/
theorem decideReady_blocks {s : State} (h : ∃ x ∈ arrayMap s, x.2 = none) :
    let u := coldCauses (mapArrays s)
    ∃ la, (la, none) ∈ arrayMap s ∧
      decideReady s = addCause (record { u with boot := { u.boot with blocked := true } } { cls := 0x19, d0 := la }) 4 := by
  obtain ⟨x, found, none_⟩ := h
  obtain ⟨y, first⟩ := Option.isSome_iff_exists.mp
    (List.find?_isSome.mpr ⟨x, found, Option.isNone_iff_eq_none.mpr none_⟩ : ((arrayMap s).find? fun x => x.2.isNone).isSome)
  have bare : y.2.isNone = true := List.find?_some (p := fun x : Nat × Option Nat => x.2.isNone) first
  refine ⟨y.1, ?_, ?_⟩
  · rw [← Option.isNone_iff_eq_none.mp bare]
    exact List.mem_of_find?_eq_some first
  · simp only [decideReady, first]

/-- Settles O12: step 2 by the banks that verify, step 13 by the first logical array without a physical one. -/
theorem bringUpFindsBankOrRecovers : Obligations.BringUpFindsBankOrRecovers :=
  ⟨fromBank_verifies, fun _ => ⟨decideReady_ready, decideReady_blocks⟩⟩

/-! ### The array map (R518) -/

/-- The physical arrays of a map, in the order of the logical ones. -/
abbrev carried (m : List (Nat × Option Nat)) : List Nat := m.filterMap Prod.snd

theorem spareFor_mem {pool : List Nat} {g p : Nat} (h : spareFor pool g = some p) : p ∈ pool := by
  unfold spareFor at h
  rcases own : pool.find? (fun n => spareGroup n = g) with _ | q
  · rw [own] at h
    obtain ⟨k, -, found⟩ := List.exists_of_findSome?_eq_some h
    exact List.mem_of_find?_eq_some found
  · rw [own] at h
    cases h
    exact List.mem_of_find?_eq_some own

/-- An element and the list without it are no more than the list. -/
theorem cons_without_subperm {l : List Nat} {x : Nat} (h : x ∈ l) : (x :: without l x).Subperm l := by
  have once : [x].Sublist (l.filter (· == x)) := List.singleton_sublist.mpr (List.mem_filter.mpr ⟨h, beq_self_eq_true x⟩)
  exact (once.append (List.Sublist.refl (without l x))).subperm.trans (List.filter_append_perm (· == x) l).subperm

/-- What `fillMap` gives the logical arrays that have none comes from the pool, each once. -/
theorem carried_fillMap_subperm (pool : List Nat) (m : List (Nat × Option Nat)) :
    (carried (fillMap pool m)).Subperm (carried m ++ pool) := by
  induction pool, m using fillMap.induct with
  | case1 pool => exact (List.nil_sublist _).subperm
  | case2 pool la p r ih => simpa only [fillMap, carried, List.filterMap_cons, List.cons_append] using (List.subperm_cons p).mpr ih
  | case3 pool la r p found ih =>
    have first : carried (fillMap pool ((la, none) :: r)) = p :: carried (fillMap (without pool p) r) := by simp [fillMap, found]
    have rest : (p :: carried (fillMap (without pool p) r)).Subperm (carried r ++ p :: without pool p) :=
      ((List.subperm_cons p).mpr ih).trans List.perm_middle.symm.subperm
    rw [first]
    exact rest.trans ((List.subperm_append_left _).mpr (cons_without_subperm (spareFor_mem found)))
  | case4 pool la r dry ih => simpa only [fillMap, dry, carried, List.filterMap_cons] using ih

theorem fillMap_fst (pool : List Nat) (m : List (Nat × Option Nat)) : (fillMap pool m).map Prod.fst = m.map Prod.fst := by
  induction pool, m using fillMap.induct with
  | case1 pool => rfl
  | case2 pool la p r ih => simp [fillMap, ih]
  | case3 pool la r p found ih => simp [fillMap, found, ih]
  | case4 pool la r dry ih => simp [fillMap, dry, ih]

/-- The first `n` places of a list, where it has them. -/
theorem filterMap_range_getElem? {α : Type} (l : List α) (n : Nat) : (List.range n).filterMap (fun k => l[k]?) = l.take n := by
  induction n with
  | zero => rfl
  | succ n ih =>
    rw [List.range_succ, List.filterMap_append, ih, List.take_add_one]
    cases h : l[n]? <;> simp [h]

/-- Numbers in groups of `n`, group by group. -/
theorem range_mul (m n : Nat) : List.range (m * n) = (List.range m).flatMap fun d => (List.range n).map (d * n + ·) := by
  induction m with
  | zero => simp
  | succ m ih => rw [Nat.succ_mul, List.range_add, List.range_succ, List.flatMap_append, ih, List.flatMap_singleton]

/-- Before the gaps are filled each domain's logical arrays have its first good arrays. -/
theorem carried_own (s : State) :
    carried ((List.range 256).map fun la => (la, (goodIn s (la / 16))[la % 16]?)) = (List.range 16).flatMap fun d => (goodIn s d).take 16 := by
  rw [carried, List.filterMap_map, show 256 = 16 * 16 from rfl, range_mul, List.filterMap_flatMap]
  refine List.flatMap_congr fun d _ => ?_
  rw [List.filterMap_map, ← filterMap_range_getElem?]
  refine List.filterMap_congr fun k inRange => ?_
  have low := List.mem_range.mp inRange
  simp only [Function.comp_apply, show (d * 16 + k) / 16 = d by omega, show (d * 16 + k) % 16 = k by omega]

/-- The physical arrays of all domains (Table 1-1). -/
theorem arraysOf_all : (List.range 16).flatMap arraysOf = List.range 288 := by
  rw [show 288 = 16 * 18 from rfl, range_mul]
  refine List.flatMap_congr fun d _ => ?_
  rw [arraysOf, upto, Nat.mul_comm]

/-- The arrays that carry one are among the good ones, each once. -/
theorem carried_arrayMap_subperm (s : State) : (carried (arrayMap s)).Subperm ((List.range 288).filter (goodArray s)) := by
  refine (carried_fillMap_subperm ..).trans ?_
  rw [carried_own]
  refine (List.flatMap_append_perm ..).subperm.trans ?_
  simp only [List.take_append_drop, goodIn, ← List.filter_flatMap, arraysOf_all]
  exact List.Subperm.refl _

/-- Settles O13: the map gives out the good arrays, each at most once, to the logical arrays in their order. -/
theorem arrayMapIsInjective : Obligations.ArrayMapIsInjective := by
  intro s
  have among := carried_arrayMap_subperm s
  refine ⟨?_, fun la p found => ?_, ?_⟩
  · obtain ⟨l, same, sub⟩ := among
    exact same.nodup_iff.mp (sub.nodup (List.nodup_range.filter _))
  · have carries : p ∈ carried (arrayMap s) := List.mem_filterMap.mpr ⟨(la, some p), found, rfl⟩
    exact (List.mem_filter.mp (among.subset carries)).2
  · rw [arrayMap, fillMap_fst, List.map_map]
    exact List.map_id _

end Sys2Proof.Machine
end

section
/-! PROOFS. The host endpoint: vectors and power states (O18), the link and function resets (O19), data objects (O21). -/

namespace Sys2Proof.Machine

open Sys2Proof.Safety

/-! ### Vectors that wait (R482, R483, R489) -/

@[simp] theorem func_fresh (s : State) (f : Nat) : func (fresh s) f = func s f := rfl

@[simp] theorem fnExists_fresh (s : State) (f : Nat) : fnExists (fresh s) f = fnExists s f := rfl

/-- Outputs that follow one another go to the end of what the hub drives. -/
theorem foldl_emit {α : Type} (g : α → Output) (l : List α) (s : State) :
    l.foldl (fun a x => emit a (g x)) s = { s with out := s.out ++ l.map g } := by
  induction l generalizing s with
  | nil => simp
  | cons x r ih =>
    rw [List.foldl_cons, ih, emit_out, List.append_assoc, List.map_cons]
    rfl

/-- In D3hot nothing is sent. -/
theorem sendPending_d3 {s : State} {f : Nat} (d3 : (func s f).d3 = true) : sendPending s f = s := if_pos d3

/-- The vectors of a table once those that may be sent have been. -/
def sentVectors (t : Tbl Msix) : Tbl Msix := t.map fun x => if x.2.masked = true then x else (x.1, { x.2 with pending := false })

/-- With MSI-X in use each vector due is sent, and pends no more. -/
theorem sendPending_msix {s : State} {f : Nat} (d0 : (func s f).d3 = false) (inUse : (func s f).msixEn = true)
    (unmasked : (func s f).fnMask = false) :
    sendPending s f = { setFunc s f { func s f with msix := sentVectors (func s f).msix } with
      out := s.out ++ ((func s f).msix.filter fun x => x.2.pending && !x.2.masked).map fun x => Output.msix f x.2.addr x.2.data } := by
  simp only [sendPending, d0, inUse, unmasked, Bool.false_eq_true, if_false, if_true]
  exact foldl_emit (fun x : Nat × Msix => Output.msix f x.2.addr x.2.data) _ _

/-- A row of a function acts where PD28 is on and the function exists. -/
theorem gives_atFunction {i : Instr} {s t : State} {f : Nat} {g : State → State}
    (row : exec i s = act s fun u => if domainOn u 28 && fnExists u f then g u else u) (up : FabricUp s) (present : fnExists s f = true)
    (h : g (fresh s) = t) : Gives i s t := by
  have reached : (domainOn (fresh s) 28 && fnExists (fresh s) f) = true := (Bool.and_eq_true _ _).mpr ⟨up.2, present⟩
  exact gives_act row up.1 ((if_pos reached).trans h)

/-- Settles O18: the three rows at a function that exists, and `sendPending` in D3hot and with MSI-X in use. -/
theorem hostVectorsAndPowerStates : Obligations.HostVectorsAndPowerStates := by
  refine ⟨fun s f up present => ⟨fun what => ?_, ?_, ?_⟩, fun s f => sendPending_d3, fun s f d0 inUse unmasked => ⟨?_, ?_⟩⟩
  · exact gives_atFunction (exec_msixUnmask ..) up present rfl
  · exact gives_atFunction (exec_d3hotEntry ..) up present rfl
  · exact gives_atFunction (exec_d0Return ..) up present rfl
  · rw [sendPending_msix d0 inUse unmasked]
  · rw [sendPending_msix d0 inUse unmasked]
    exact congrArg Func.msix (setFunc_func_same ..)

/-! ### The link (R471, R490, R513) -/

section
variable {s : State} (hl : live s = true)
include hl

theorem hostLinkDown_resets (up : hostUp s = true) :
    let t := resetFunctions { fresh s with
      host := { s.host with rate := 0, width := 0, flit := false, downs := satAdd 16 s.host.downs 1 } }
    Gives .hostLinkDown s (refuseReads (record t { cls := 0x80, kind := 8 }) fun _ => true) :=
  gives_act (exec_hostLinkDown ..) hl (if_neg fun down => absurd up (ne_true_of_eq_false ((Bool.not_eq_true' _).mp down)))

theorem hostLinkDown_untrained (down : hostUp s = false) : Gives .hostLinkDown s (fresh s) :=
  gives_act (exec_hostLinkDown ..) hl (if_pos ((Bool.not_eq_true' _).mpr down))

theorem hostLinkUp_comes {rate : Fin 4} {width : Nat} (flit : Bool) (down : hostUp s = false) (trained : rate ≠ 0) (low : 1 ≤ width)
    (high : width ≤ 16) (may : s.host.mayTrain = true) (perst : s.pins.perstLow = false) :
    let t := { fresh s with
      host := { s.host with rate := rate, width := width, flit := flit }
      plans := { s.plans with hostRec := (rate.val, width) }
      glob := { s.glob with tariffDirty := s.glob.tariffDirty || decide (s.plans.hostRec ≠ (rate.val, width)) } }
    Gives (.hostLinkUp rate width flit) s (if rate = 3 ∧ width = 16 then t else record t { cls := 0x81, kind := 8 }) := by
  have rate0 : rate.val ≠ 0 := fun h => trained (Fin.ext h)
  have goes : ¬ (hostUp (fresh s) = true ∨ rate.val = 0 ∨ width = 0 ∨ width > 16 ∨ (!(fresh s).host.mayTrain) = true ∨
      (fresh s).pins.perstLow = true) := by
    have down' : hostUp (fresh s) = false := down
    have may' : (fresh s).host.mayTrain = true := may
    have perst' : (fresh s).pins.perstLow = false := perst
    simp [down', may', perst', rate0]
    omega
  have whole : ((rate.val, width) = (3, 16)) = (rate = 3 ∧ width = 16) := by simp [Fin.ext_iff]
  refine gives_act (exec_hostLinkUp ..) hl ((if_neg goes).trans ?_)
  simp only [whole]
  rfl

theorem perstAssert_losesLink : Gives .perstAssert s (linkLost { fresh s with pins := { s.pins with perstLow := true } }) := by
  have stillLive : live { s with out := [], pins := { s.pins with perstLow := true } } = true := hl
  exact (if_pos (pwrok_of_live hl)).trans (congrArg Host.Outcome.next (if_pos stillLive))

/-! ### Function resets and VF Enable (R475, R488) -/

theorem resizableBarWrite_sizes {code : Nat} (off : s.host.memSpace = false) (low : 16 ≤ code) (high : code ≤ 19) :
    Gives (.resizableBarWrite code) s { fresh s with host := { s.host with barLog2 := code + 20 } } := by
  have takes : ¬ ((fresh s).host.memSpace = true ∨ code < 16 ∨ code > 19) := by
    rintro (h | h | h)
    · exact absurd h (ne_true_of_eq_false off)
    · omega
    · omega
  exact gives_act (exec_resizableBarWrite ..) hl (if_neg takes)

theorem resizableBarWrite_ignored {code : Nat} (h : s.host.memSpace = true ∨ code < 16 ∨ 19 < code) :
    Gives (.resizableBarWrite code) s (fresh s) := gives_act (exec_resizableBarWrite ..) hl (if_pos h)

variable (on : domainOn s 28 = true)
include on

/-- A function that exists on a powered hub is reset, the PF with all others. -/
theorem functionLevelReset_resets {f : Fin 17} (present : fnExists s f = true) :
    Gives (.functionLevelReset f) s
      (record (if f.val = 0 then refuseReads (resetFunctions (fresh s)) (fun q => q.fn ≠ 0) else resetFn (fresh s) f)
        { cls := 0x87, kind := 8, index := f }) := by
  have reached : ¬ ((!domainOn (fresh s) 28) = true ∨ (!fnExists (fresh s) f) = true) := by
    rw [fnExists_fresh, show domainOn (fresh s) 28 = true from on, present]
    decide
  exact gives_act (exec_functionLevelReset ..) hl (if_neg reached)

theorem functionLevelReset_vf {f : Fin 17} (vf : f ≠ 0) (present : fnExists s f = true) :
    Gives (.functionLevelReset f) s (record (resetFn (fresh s) f) { cls := 0x87, kind := 8, index := f }) := by
  have row := functionLevelReset_resets hl on present
  rwa [if_neg (Fin.val_ne_zero_iff.mpr vf)] at row

theorem vfEnableWrite_takes (en : Bool) {n : Nat} (h : n ≤ 16) :
    let t := { fresh s with host := { s.host with vfEnable := en, numVfs := n } }
    let gone := (List.range 17).filter fun f => fnExists s f && !fnExists t f
    Gives (.vfEnableWrite en n) s (refuseReads (gone.foldl resetFn t) fun q => gone.contains q.fn) := by
  have takes : ¬ ((!domainOn (fresh s) 28) = true ∨ n > 16) := by
    rw [show domainOn (fresh s) 28 = true from on]
    simpa using h
  exact gives_act (exec_vfEnableWrite ..) hl (if_neg takes)

end

/-- Settles O19, row by row. -/
theorem hostLinkAndResets : Obligations.HostLinkAndResets := fun _ hl =>
  ⟨hostLinkDown_resets hl, hostLinkDown_untrained hl,
    fun _ _ flit down trained low high may perst => hostLinkUp_comes hl flit down trained low high may perst,
    perstAssert_losesLink hl, rfl,
    fun on => ⟨functionLevelReset_resets hl on rfl, fun _ vf present => functionLevelReset_vf hl on vf present,
      fun en _ h => vfEnableWrite_takes hl on en h⟩,
    fun _ off low high => resizableBarWrite_sizes hl off low high, fun _ h => resizableBarWrite_ignored hl h⟩

/-! ### Data objects and SPDM (R492, R493) -/

/-- The mailbox holds an answer, and the hub drives it. -/
def answerObject (s : State) (d : Bytes) : State := emit { s with host := { s.host with doe := some d } } (.spdm true d)

section
variable {s : State} (up : FabricUp s) {obj : Bytes}
include up

theorem doeRequest_tooLong (long : 16384 < obj.length) :
    Gives (.doeRequest obj) s (emit (record (fresh s) { cls := 0x88, kind := 8 }) .doeError) :=
  gives_powered (exec_doeRequest ..) up (if_pos long)

variable (fits : obj.length ≤ 16384)
include fits

/-- What an object of legal length is answered goes by its protocol. -/
theorem doeRequest_byProtocol : Gives (.doeRequest obj) s
    (if rd obj 0 3 = 1 then answerObject (fresh s) (doeDiscovery (rd obj 8 1))
     else if rd obj 0 3 = 0x10001 then
       answerObject (takeFresh (fresh s)) (Config.spdmAnswer true (measurements (fresh s) ++ [s.fresh]) obj)
     else fresh s) :=
  gives_powered (exec_doeRequest ..) up (if_neg (Nat.not_lt.mpr fits))

theorem doeRequest_discovery (h : rd obj 0 3 = 1) :
    Gives (.doeRequest obj) s (answerObject (fresh s) (doeDiscovery (rd obj 8 1))) := by
  simpa only [h, if_true] using doeRequest_byProtocol up fits

theorem doeRequest_spdm (h : rd obj 0 3 = 0x10001) : Gives (.doeRequest obj) s
    (answerObject (takeFresh (fresh s)) (Config.spdmAnswer true (measurements (fresh s) ++ [s.fresh]) obj)) := by
  have row := doeRequest_byProtocol up fits
  rwa [if_neg (by omega), if_pos h] at row

theorem doeRequest_other (h : rd obj 0 3 ≠ 1) (k : rd obj 0 3 ≠ 0x10001) : Gives (.doeRequest obj) s (fresh s) := by
  have row := doeRequest_byProtocol up fits
  rwa [if_neg h, if_neg k] at row

end

/-- Settles O21: an object by its length and its protocol, the abort, and SPDM over MCTP. -/
theorem dataObjectsAndSpdm : Obligations.DataObjectsAndSpdm :=
  ⟨fun _ up => ⟨fun _ long => doeRequest_tooLong up long,
      fun _ fits => ⟨doeRequest_discovery up fits, doeRequest_spdm up fits, doeRequest_other up fits⟩,
      gives_act (exec_doeAbort ..) up.1 (if_pos up.2)⟩,
    fun _ _ hl => gives_act (exec_mctpSpdmMessage ..) hl rfl⟩

end Sys2Proof.Machine
end

section
/-! PROOFS. Sequence clears (O59); the record of the last Turn, and posted writes as they land (O17). -/

namespace Sys2Proof.Machine

open Sys2Proof.Safety

/-! ### One sequence-clear register (R501) -/

section
variable {r : Sqc} {n : Nat}

/-- A value that lies ahead of SEQ clears nothing. -/
theorem Sqc.clear_ahead (ahead : 128 ≤ (r.seq + 256 - n) % 256) : r.clear n = { r with clr := n } := if_pos ahead

/-- What stays after a clear: the stamps later than the value written. -/
def Sqc.later (r : Sqc) (n : Nat) : Tbl Nat := r.stamps.filter fun e => !((n + 256 - e.2) % 256 < 128)

theorem Sqc.clear_read (read : (r.seq + 256 - n) % 256 < 128) :
    r.clear n = { r with stamps := r.later n, clr := n, value := if (r.later n).isEmpty then 0 else r.value } :=
  if_neg (Nat.not_le.mpr read)

theorem Sqc.mem_later {b q : Nat} : (b, q) ∈ r.later n ↔ (b, q) ∈ r.stamps ∧ 128 ≤ (n + 256 - q) % 256 := by
  simp [Sqc.later]

/-- The value goes with the last event bit. -/
theorem Sqc.later_isEmpty : (r.later n).isEmpty = true ↔ ∀ b q, (b, q) ∈ r.stamps → (n + 256 - q) % 256 < 128 := by
  simp [Sqc.later, List.isEmpty_iff, List.filter_eq_nil_iff]

/-- Either way the clear register reads what was written, and SEQ stays. -/
theorem Sqc.clear_clr_seq : (r.clear n).clr = n ∧ (r.clear n).seq = r.seq := by
  rcases Nat.lt_or_ge ((r.seq + 256 - n) % 256) 128 with read | ahead
  · rw [Sqc.clear_read read]
    exact ⟨rfl, rfl⟩
  · rw [Sqc.clear_ahead ahead]
    exact ⟨rfl, rfl⟩

end

/-! ### The clear registers of the map (R508, R509) -/

theorem sqcClearWrite_gives {s : State} {o v : Nat} (up : FabricUp s) (clears : isClearReg o = true) :
    Gives (.sqcClearWrite o v) s (writeWord (fresh s) o v) :=
  gives_act (exec_sqcClearWrite ..) up.1 (if_pos ((Bool.and_eq_true _ _).mpr ⟨up.2, clears⟩))

section
variable {f : Nat} (h : f < 17)
include h

theorem isClearReg_evt : isClearReg (0x3_0004 + 16 * f) = true := by
  simp [isClearReg]
  omega

/-- EVT_CLRf is the word at offset 4 of the function's events registers. -/
theorem writeWord_evtClr (s : State) (v : Nat) : writeWord s (0x3_0004 + 16 * f) v =
    { s with glob := { s.glob with evt := s.glob.evt.put f { evtRegs s f with stat := (evtRegs s f).stat.clear (v % 256) } } } := by
  have evt : writeWord s (0x3_0004 + 16 * f) v = writeEvt s f 0x4 v := by
    rw [writeWord, if_neg (by omega), if_neg (by omega), if_neg (by omega), if_neg (by omega), if_neg (by omega), if_neg (by omega),
      if_neg (by omega), if_pos (by omega), show (0x3_0004 + 16 * f - 0x3_0000) / 16 = f by omega,
      show (0x3_0004 + 16 * f) % 16 = 4 by omega]
  exact evt

end

/-- Settles O59: a clear by whether its value lies ahead of SEQ, and the registers by their words. -/
theorem clearsRemoveOnlyWhatWasRead : Obligations.ClearsRemoveOnlyWhatWasRead := by
  refine ⟨fun r n _ _ _ => ⟨Sqc.clear_ahead, fun read => ?_, Sqc.clear_clr_seq⟩, fun s v up => ⟨?_, ?_, fun f h => ?_⟩⟩
  · rw [Sqc.clear_read read]
    refine ⟨fun b q => Sqc.mem_later, fun all => if_pos (Sqc.later_isEmpty.mpr all), fun ⟨b, q, stands, late⟩ => if_neg fun none_ => ?_⟩
    exact absurd (Sqc.later_isEmpty.mp none_ b q stands) (Nat.not_lt.mpr late)
  · exact sqcClearWrite_gives up rfl
  · exact sqcClearWrite_gives up rfl
  · have row := sqcClearWrite_gives (v := v) up (isClearReg_evt h)
    rwa [writeWord_evtClr h] at row

/-! ### The record of the last Turn (R459) -/

/-- A partition reads its own record, partition 0 any. -/
theorem turnRecordReadBody_answers {c : Packet} {s : State} {r : ReplyTo} {ver n st : Nat} (h0 : zeroFrom c 3)
    (addr : hostAddrOk c c.p0.toNat = true) (long : 1040 ≤ c.p1.toNat) (named : c.p2.toNat < 16)
    (may : partOf c = 0 ∨ c.p2 = 0xF#64 ∨ c.p2.toNat = partOf c) (last : s.turn.lastRecord.getD (s.glob.tariffVer, 0, 0) = (ver, n, st)) :
    let p := if c.p2 = 0xF#64 then partOf c else c.p2.toNat
    turnRecordReadBody c s r = ({ s with fresh := s.fresh + 2048 * 128 },
      output n c.p0.toNat (leBytes 4 ver ++ leBytes 6 n ++ leBytes 2 (min st 65535) ++ leBytes 4 0 ++
        (List.range 128).flatMap (recordEntry s p))) := by
  intro p
  have mine : ¬ (partOf c ≠ 0 ∧ p ≠ partOf c) := by
    rintro ⟨other, foreign⟩
    rcases may with h | h | h
    · exact other h
    · exact foreign (if_pos h)
    · exact foreign (by simp only [p, h, ite_self])
  rw [turnRecordReadBody, reservedFrom_zero h0, if_neg (by simp [addr]), if_neg (by omega), if_neg (by omega)]
  refine (if_neg mine).trans ?_
  rw [last]

/-- Settles O17: the record by its work, a landing by the writes of its block in their order. -/
theorem turnRecordAndPostedWrites : Obligations.TurnRecordAndPostedWrites := by
  refine ⟨fun s c ha h0 addr long named may ver n st last => packet_ends rfl ha ?_, fun b s hl => ?_⟩
  · have same : (begun s 0x0701 c).turn.lastRecord.getD ((begun s 0x0701 c).glob.tariffVer, 0, 0) = (ver, n, st) := by
      rw [begun_turn, begun_glob, last]
    exact (turnRecordReadBody_answers h0 addr long named may same).trans (by rw [begun_fresh])
  · exact gives_act (exec_postedWriteLand ..) hl rfl

end Sys2Proof.Machine
end

section
/-! PROOFS. Alerts and reports of the sites (O49); domain switches, sensors and the profiler (O53); ageing and the fault ledger (O54). -/

namespace Sys2Proof.Machine

open Sys2Proof.Safety

/-! ### Alerts and missing reports (R380, R394, R395) -/

/-- A breach changes nothing else of the site (R396). -/
theorem siteOf_enterBreach (s : State) (n : Nat) : ∃ b, siteOf (enterBreach s n) n = { siteOf s n with breach := b } := by
  unfold enterBreach
  dsimp only
  split
  · exact ⟨true, by rw [siteOf_record, setSite_siteOf_same]⟩
  · exact ⟨(siteOf s n).breach, rfl⟩

@[simp] theorem enterBreach_report (s : State) (n : Nat) : (siteOf (enterBreach s n) n).report = (siteOf s n).report := by
  obtain ⟨b, h⟩ := siteOf_enterBreach s n
  rw [h]

@[simp] theorem enterBreach_reported (s : State) (n : Nat) : (siteOf (enterBreach s n) n).reported = (siteOf s n).reported := by
  obtain ⟨b, h⟩ := siteOf_enterBreach s n
  rw [h]

@[simp] theorem enterBreach_missing (s : State) (n : Nat) : (siteOf (enterBreach s n) n).missing = (siteOf s n).missing := by
  obtain ⟨b, h⟩ := siteOf_enterBreach s n
  rw [h]

theorem siteOf_record_when (s : State) (r : Rec) (n : Nat) {p : Prop} [Decidable p] :
    siteOf (if p then record s r else s) n = siteOf s n := by
  split
  · exact siteOf_record ..
  · rfl

/-- What a report leaves of the site, but for its debit, its overruns and a breach. -/
theorem siteOf_takeReport (s : State) (n power : Nat) (missing : Bool) :
    let x := siteOf (takeReport s n power missing) n
    x.report = power ∧ x.reported = true ∧ x.missing = if missing then min 4 ((siteOf s n).missing + 1) else 0 := by
  simp only [takeReport, enterBreach_report, enterBreach_reported, enterBreach_missing, siteOf_record_when, setSite_siteOf_same, and_self]

/-- At the deadline the report of a site in service is missed. -/
theorem purseReportDeadline_misses {s : State} {n : Fin 12} (hl : live s = true) (inService : (siteOf s n).state = .inService)
    (unreported : (siteOf s n).reported = false) :
    Gives (.purseReportDeadline n) s (takeReport (record (fresh s) (siteRec s n 0x76)) n (s.set.siteMaxOf n) true) := by
  refine gives_act (exec_purseReportDeadline ..) hl (if_pos ?_)
  simp only [siteOf_fresh, inService, unreported, decide_true, Bool.not_false, Bool.and_self]

/-- Settles O49: an alert by its row, a missing report by what `takeReport` leaves of the site. -/
theorem alertsAndMissingReports : Obligations.AlertsAndMissingReports := fun s n hl =>
  ⟨fun _ _ up => gives_act (exec_siteAlert ..) hl (if_pos up), purseReportDeadline_misses hl, fun power => siteOf_takeReport s n power true⟩

/-! ### Domain switches (R417, R418, R420) -/

section
variable {s : State} {w : Switching} {d : Nat} {r : List Nat} (hl : live s = true) (sw : s.power.switching = some w) (left : w.left = d :: r)
  (started : w.started = true)
include hl sw left started

/-- The first domain has switched, unless an agent of a site group that goes off still flushes. -/
theorem domainSwitchComplete_goesOn : Gives .domainSwitchComplete s
    (if !w.on && groupFlushing s d then fresh s
     else beginSwitch (if w.on then comeOn (fresh s) d else goOff (fresh s) d) { w with left := r, count := w.count + 1 }) := by
  refine gives_act (exec_domainSwitchComplete ..) hl ?_
  simp only [show (fresh s).power.switching = some w from sw, left, started]
  rfl

theorem domainSwitchComplete_switches (quiet : w.on = true ∨ groupFlushing s d = false) : Gives .domainSwitchComplete s
    (beginSwitch (if w.on then comeOn (fresh s) d else goOff (fresh s) d) { w with left := r, count := w.count + 1 }) := by
  have row := domainSwitchComplete_goesOn hl sw left started
  rwa [if_neg (by rcases quiet with h | h <;> simp [h])] at row

theorem domainSwitchComplete_awaits (off : w.on = false) (flushing : groupFlushing s d = true) : Gives .domainSwitchComplete s (fresh s) := by
  have row := domainSwitchComplete_goesOn hl sw left started
  rwa [if_pos (by simp [off, flushing])] at row

theorem domainSwitchTimeout_countsOff : Gives .domainSwitchTimeout s
    (beginSwitch (record (goOff (fresh s) d) { cls := 0x94, kind := 12, index := d }) { w with left := r }) := by
  refine gives_act (exec_domainSwitchTimeout ..) hl ?_
  simp only [show (fresh s).power.switching = some w from sw, left, started]

end

/-! ### OBSERVE and the profiler (R432, R433, R616) -/

section
variable {s : State} (hl : live s = true)
include hl

theorem observeSelect_open (on : Bool) (h : pathOpen s .observe = true) :
    Gives (.observeSelect on) s { fresh s with pins := { s.pins with observeNext := on } } :=
  gives_act (exec_observeSelect ..) hl (if_pos h)

theorem observeSelect_closed (on : Bool) (h : pathOpen s .observe = false) :
    Gives (.observeSelect on) s (emit (closedPath (fresh s)) .testZeros) :=
  gives_act (exec_observeSelect ..) hl (if_neg (ne_true_of_eq_false h))

/-- The profiler takes a sample where it is on, outside ageing Turns. -/
theorem profilerSample_takes (free : Bool) (on : s.power.profOn = true) (other : ageingTurn s = false) :
    Gives (.profilerSample free) s
      (if !free then { fresh s with power := { s.power with dropped := satAdd 16 s.power.dropped 1 } }
       else { emit (fresh s) (.hostWrite 0 (s.power.profBase + s.power.profCount * 64 % max 64 s.power.profLen) (profRecord (fresh s))) with
          power := { s.power with profCount := s.power.profCount + 1 }, fresh := s.fresh + 2 }) := by
  have takes : ¬ (!(fresh s).power.profOn || ageingTurn (fresh s)) = true := by
    rw [show (fresh s).power.profOn = true from on, show ageingTurn (fresh s) = false from other]
    decide
  exact gives_act (exec_profilerSample ..) hl (if_neg takes)

end

/-! ### The commands of power and heat (R417, R433, R435, R437) -/

/-- Partition 0 alone gives an operator's command. -/
theorem operatorOnly_zero {c : Packet} {s : State} {k : Unit → State × Ending} (h : partOf c = 0) : operatorOnly c s k = k () :=
  if_neg (not_not.mpr h)

@[simp] theorem breaksPower_begun (s : State) (op : Nat) (c : Packet) (l : List Nat) (on : Bool) :
    breaksPower (begun s op c) l on = breaksPower s l on := by
  rw [begun_rest]
  rfl

@[simp] theorem offBusy_begun (s : State) (op : Nat) (c : Packet) (d : Nat) : offBusy (begun s op c) d = offBusy s d := by
  rw [begun_rest]
  rfl

section
variable {c : Packet} {s : State} {r : ReplyTo}

/-- The switch that a PWR_DOMAIN files. -/
def filedSwitch (c : Packet) (t : Nat) (r : ReplyTo) : Switching :=
  { left := switchOrder c.p0.toNat (decide (c.p1 = 1#64)), on := decide (c.p1 = 1#64), turn := t, started := false, reply := r, count := 0 }

theorem thermReadBody_answers (h0 : zeroFrom c 2) (addr : hostAddrOk c c.p0.toNat = true) (long : 96 ≤ c.p1.toNat) :
    thermReadBody c s r =
      (s, output 96 c.p0.toNat ((List.range 96).flatMap fun n => leBytes 1 (min 255 (s.power.temps.get n 0)))) :=
  (reservedFrom_zero h0).trans ((if_neg (by simp [addr])).trans (if_neg (Nat.not_lt.mpr long)))

variable (hp : partOf c = 0)
include hp

theorem pwrDomainBody_files {t : Nat} (h0 : zeroFrom c 3) (mask : c.p0.toNat < 2 ^ 29) (onOff : c.p1.toNat ≤ 1)
    (due : turnFor s c.p2.toNat 2 = .ok t) (keeps : breaksPower s (filedSwitch c t r).left (filedSwitch c t r).on = false)
    (idle : s.power.switching = none) (free : (filedSwitch c t r).on = false → ∀ d ∈ (filedSwitch c t r).left, offBusy s d = false) :
    pwrDomainBody c s r = ({ s with power := { s.power with switching := some (filedSwitch c t r) } }, .interim t) := by
  have unclaimed : ¬ (s.power.switching.isSome = true ∨ (!(filedSwitch c t r).on) = true ∧ (filedSwitch c t r).left.any (offBusy s) = true) := by
    rw [idle]
    rintro (h | ⟨off, busy⟩)
    · cases h
    · obtain ⟨d, mem, claimed⟩ := List.any_eq_true.mp busy
      exact absurd claimed (ne_true_of_eq_false (free ((Bool.not_eq_true' _).mp off) d mem))
  rw [pwrDomainBody, operatorOnly_zero hp, reservedFrom_zero h0, if_neg (Nat.not_le.mpr mask), if_neg (Nat.not_lt.mpr onOff), due]
  exact (if_neg (ne_true_of_eq_false keeps)).trans (if_neg unclaimed)

theorem thermWarnBody_sets (h0 : zeroFrom c 1) (low : 60 ≤ c.p0.toNat) (high : c.p0.toNat ≤ 95) :
    thermWarnBody c s r = (watchTj { s with power := { s.power with warnAt := c.p0.toNat } }, okay c.p0.toNat) :=
  (operatorOnly_zero hp).trans ((reservedFrom_zero h0).trans (if_neg (by omega)))

variable (h0 : zeroFrom c 4)
include h0

theorem profSetBody_stops (stop : c.p3 = 0) :
    profSetBody c s r = ({ s with power := { s.power with profOn := false } }, okay s.power.profCount) := by
  refine (operatorOnly_zero hp).trans ((reservedFrom_zero h0).trans ((if_neg ?_).trans (if_pos stop)))
  rw [stop]
  decide

theorem profSetBody_starts (start : c.p3 = 1) (base : c.p0.toNat % 4096 = 0) (whole : c.p1.toNat % 4096 = 0) (some_ : c.p1 ≠ 0)
    (low : 2000 ≤ c.p2.toNat) (high : c.p2.toNat ≤ 2 ^ 24) :
    profSetBody c s r =
      ({ s with power := { s.power with
          profOn := true, profBase := c.p0.toNat, profLen := c.p1.toNat, profPeriod := c.p2.toNat, profCount := 0 } }, okay 0) := by
  have ring : ¬ (c.p1.toNat % 4096 ≠ 0 ∨ c.p1 = 0#64) := by
    rintro (h | h)
    · exact h whole
    · exact some_ h
  refine (operatorOnly_zero hp).trans ((reservedFrom_zero h0).trans ?_)
  rw [start]
  exact (if_neg (not_not.mpr base)).trans ((if_neg ring).trans (if_neg (by omega)))

end

/-- Settles O53: the rows of a hub that answers, the sensors of PD29, and the commands by their works. -/
theorem powerSensorsAndProfiler : Obligations.PowerSensorsAndProfiler := by
  refine ⟨fun s hl => ⟨fun w d r sw left started => ⟨domainSwitchComplete_switches hl sw left started,
        domainSwitchComplete_awaits hl sw left started, domainSwitchTimeout_countsOff hl sw left started⟩,
      observeSelect_open hl, observeSelect_closed hl,
      fun on other => ⟨profilerSample_takes hl false on other, profilerSample_takes hl true on other⟩⟩,
    fun s ha => ⟨fun temps => gives_actAon (exec_tempSample ..) ha rfl, gives_actAon (exec_thermtrip ..) ha rfl,
      fun bad => gives_actAon (exec_railSample ..) ha rfl⟩,
    fun s c => ⟨fun t ha hp h0 mask onOff due keeps idle free => packet_ends rfl ha ?_, fun ha h0 addr long => packet_ends rfl ha ?_,
      fun ha hp h0 low high => packet_ends rfl ha ?_, fun ha hp h0 => ⟨fun stop => packet_ends rfl ha ?_,
        fun start base whole some_ low high => packet_ends rfl ha ?_⟩⟩⟩
  · exact (pwrDomainBody_files hp h0 mask onOff (by rwa [turnFor_begun]) (by rwa [breaksPower_begun]) (by rwa [begun_power])
      (by simpa only [offBusy_begun, filedSwitch] using free)).trans (by rw [begun_power]; rfl)
  · exact (thermReadBody_answers h0 addr long).trans (by rw [begun_power])
  · exact (thermWarnBody_sets hp h0 low high).trans (by rw [begun_power])
  · exact (profSetBody_stops hp h0 stop).trans (by rw [begun_power])
  · exact (profSetBody_starts hp h0 start base whole some_ low high).trans (by rw [begun_power])

/-! ### Ageing (R550, R551, R553, R554) -/

section
variable {s : State} (hl : live s = true)
include hl

theorem ageingSample_samples (slack : List Nat) (turn : ageingTurn s = true) (first : s.turn.bucket = 0)
    (unstretched : s.turn.inStretch = false) :
    Gives (.ageingSample slack) s ((List.range 16).foldl (sampleDomain slack) (fresh s)) := by
  have inB0 : (ageingTurn (fresh s) && (fresh s).turn.bucket = 0 && !(fresh s).turn.inStretch) = true := by
    rw [show ageingTurn (fresh s) = true from turn, show (fresh s).turn = s.turn from rfl, first, unstretched]
    rfl
  exact gives_act (exec_ageingSample ..) hl (if_pos inB0)

theorem ageingReplan_plans (count : now s % 2 ^ 20 = 0) (running : servicePause s = false) :
    Gives .ageingReplan s ((List.range 16).foldl replanDomain (fresh s)) := by
  have due : (now (fresh s) % 2 ^ 20 = 0 && !servicePause (fresh s)) = true := by
    rw [servicePause_fresh, show now (fresh s) = now s from rfl, count, running]
    rfl
  exact gives_act (exec_ageingReplan ..) hl (if_pos due)

theorem replaceMessageRepeat_sends (waits : s.pins.replaceMsg = true) (peer : s.cmd.mctpPeer = true) :
    Gives .replaceMessageRepeat s (emit (fresh s) (replaceMessage s.pins)) :=
  gives_act (exec_replaceMessageRepeat ..) hl (if_pos ((Bool.and_eq_true _ _).mpr ⟨waits, peer⟩))

end

section
variable {c : Packet} {s : State} {r : ReplyTo} (hp : partOf c = 0) (h0 : zeroFrom c 2)
include hp h0

theorem ageReadBody_answers (long : 528 ≤ c.p1.toNat) : ageReadBody c s r = (s, output 16 c.p0.toNat (ageBytes s)) :=
  (operatorOnly_zero hp).trans ((reservedFrom_zero h0).trans (if_neg (Nat.not_lt.mpr long)))

theorem agePolicyBody_sets (mode : c.p0.toNat ≤ 1) (low : 16 ≤ c.p1.toNat) (high : c.p1.toNat ≤ 2 ^ 20) :
    agePolicyBody c s r = ({ s with power := { s.power with auto := c.p0 = 1#64, lead := c.p1.toNat } }, okay c.p0.toNat) :=
  (operatorOnly_zero hp).trans ((reservedFrom_zero h0).trans ((if_neg (Nat.not_lt.mpr mode)).trans (if_neg (by omega))))

end

/-! ### The commands of the fault ledger (R537, R556) -/

section
variable {c : Packet} {s : State} {r : ReplyTo} (src : c.source.val = 0 ∨ c.source.val = 17)
include src

theorem ledgerReadBody_answers (h0 : zeroFrom c 3) (addr : hostAddrOk c c.p0.toNat = true) (whole : c.p1.toNat % 64 = 0)
    (seq : c.p2.toNat < 2 ^ 32) (held : (c.p2.toNat + 2 ^ 32 - s.ledger.tail) % 2 ^ 32 ≤ s.ledger.used) :
    let skip := (c.p2.toNat + 2 ^ 32 - s.ledger.tail) % 2 ^ 32
    let n := min (bufLen c c.p1.toNat / 64) (s.ledger.used - skip)
    ledgerReadBody c s r = (if c.source.val = 17 then { s with pins := { s.pins with replaceMsg := false } } else s,
      output n c.p0.toNat ((upto c.p2.toNat n).flatMap s.ledger.entryAt)) :=
  (if_pos src).trans ((reservedFrom_zero h0).trans ((if_neg (by simp [addr])).trans ((if_neg (not_not.mpr whole)).trans (if_neg (by omega)))))

theorem ledgerReleaseBody_releases (h0 : zeroFrom c 1) (seq : c.p0.toNat < 2 ^ 32)
    (held : (c.p0.toNat + 2 ^ 32 - s.ledger.tail) % 2 ^ 32 ≤ s.ledger.used) :
    let l := { s.ledger with tail := c.p0.toNat }
    ledgerReleaseBody c s r = ({ s with ledger := l }, okay (1024 - l.used)) :=
  (if_pos src).trans ((reservedFrom_zero h0).trans (if_neg (by omega)))

theorem ledgerOvfReadBody_answers (h0 : zeroFrom c 3) (addr : hostAddrOk c c.p0.toNat = true) (long : 1024 ≤ c.p1.toNat)
    (mode : c.p2.toNat ≤ 1) :
    let v := (List.range 256).map fun n => s.ledger.ovf.get n 0
    ledgerOvfReadBody c s r = (if c.p2 = 1#64 then { s with ledger := { s.ledger with ovf := [], ovfFlag := false } } else s,
      output (v.filter (· ≠ 0)).length c.p0.toNat (v.flatMap (leBytes 4))) :=
  (if_pos src).trans ((reservedFrom_zero h0).trans
    ((if_neg (by simp [addr])).trans ((if_neg (Nat.not_lt.mpr long)).trans (if_neg (Nat.not_lt.mpr mode)))))

end

/-- Settles O54: the rows by their moments, the commands by their works. -/
theorem ageingAndTheLedger : Obligations.AgeingAndTheLedger := by
  refine ⟨fun s hl => ⟨ageingSample_samples hl, ageingReplan_plans hl, replaceMessageRepeat_sends hl⟩,
    fun s c hp h0 => ⟨fun ha long => packet_ends rfl ha (ageReadBody_answers hp h0 long), fun ha mode low high => packet_ends rfl ha ?_⟩,
    fun s c src => ⟨fun ha h0 addr whole seq held => packet_ends rfl ha ?_, fun ha h0 seq held => packet_ends rfl ha ?_,
      fun ha h0 addr long mode => packet_ends rfl ha ?_⟩⟩
  · exact (agePolicyBody_sets hp h0 mode low high).trans (by rw [begun_power])
  · exact (ledgerReadBody_answers src h0 addr whole seq (by rwa [begun_ledger])).trans (by rw [begun_ledger, begun_pins])
  · exact (ledgerReleaseBody_releases src h0 seq (by rwa [begun_ledger])).trans (by rw [begun_ledger])
  · exact (ledgerOvfReadBody_answers src h0 addr long mode).trans (by rw [begun_ledger])

end Sys2Proof.Machine
end

section
/-! PROOFS. The life cycle, warrants, quotes and debug accesses (O55). -/

namespace Sys2Proof.Machine

open Sys2Proof.Safety

/-! ### What the works read of the hub -/

@[simp] theorem now_begun (s : State) (op : Nat) (c : Packet) : now (begun s op c) = now s := by rw [now, begun_turn, now]

@[simp] theorem lcState_begun (s : State) (op : Nat) (c : Packet) : lcState (begun s op c) = lcState s := by
  rw [lcState, begun_otp, lcState]

theorem firstNonZero_zero {c : Packet} {n : Nat} (h : zeroFrom c n) : firstNonZero (paramsFrom c n) = none := by
  rw [firstNonZero, Option.map_eq_none_iff, List.find?_eq_none]
  intro x m
  simp [h x m]

/-! ### The works of the commands -/

section
variable {c : Packet} {s : State} {r : ReplyTo}

/-- The checks of R574 in their order, the transition behind them. -/
theorem lcAdvanceBody_checks (hp : partOf c = 0) (h0 : zeroFrom c 0) (formed : lcFormed c.payload = true) :
    let b := c.payload
    lcAdvanceBody c s r =
      if rd b 8 32 ≠ s.fuse.unitId then rtpRefuse s 0xA1 .wrongUnit 0
      else if rd b 40 8 ≠ s.sec.nonce then rtpRefuse s 0xA1 .warrantExpired 0
      else if !lcAllowed s (rd b 7 1) (rd b 6 1) then rtpRefuse s 0xA1 .lcOrder (sealCount s)
      else if !requestSigned s b (rd b 6 1) 96 then rtpRefuse s 0xA1 .sigInvalid 0
      else (lcMake s (rd b 7 1) (beVal (sub b 48 48)), okay (rd b 7 1)) := by
  intro b
  rw [lcAdvanceBody, if_neg (not_not.mpr hp), firstNonZero_zero h0]
  exact if_neg (by simp [formed])

/-- A warrant that passes every check of R576 is held, where four are held already only in the place of one with its serial. -/
theorem loadWarrant_takes {b : Bytes} (len : b.length = 272) (formed : warrantFormed b = true) (unit : rd b 8 32 = s.fuse.unitId)
    (nonce : rd b 40 8 = s.sec.nonce) (unexpired : now s < (warrantOf b).expiry) (allowed : warrantAllowed s (warrantOf b) = true)
    (signed : requestSigned s b (warrantOf b).signer 80 = true)
    (room : s.sec.warrants.length < 4 ∨ ∃ x ∈ s.sec.warrants, x.serial = (warrantOf b).serial) :
    let t := measureWarrants { s with sec := { s.sec with warrants := holdWarrant (warrantOf b) s.sec.warrants } }
    loadWarrant s b = (record t { cls := 0xA4, kind := 10 }, okay t.sec.warrants.length) := by
  have form : ¬ (b.length ≠ 272 ∨ (!warrantFormed b) = true) := by simp [len, formed]
  have place : ¬ (s.sec.warrants.length ≥ 4 ∧ (!(s.sec.warrants.any fun x => x.serial = (warrantOf b).serial)) = true) := by
    rintro ⟨full, new⟩
    rcases room with free | ⟨x, held, serial⟩
    · omega
    · have none_ := (Bool.not_eq_true' _).mp new
      rw [List.any_eq_false] at none_
      exact none_ x held (decide_eq_true serial)
  rw [loadWarrant, if_neg form, if_neg (not_not.mpr unit), if_neg (not_not.mpr nonce), if_neg (Nat.not_le.mpr unexpired),
    if_neg (by simp [allowed]), if_neg (by simp [signed])]
  exact if_neg place

section
variable (hp : partOf c = 0) (h0 : zeroFrom c 2)
include hp h0

theorem warrantLoadBody_loads (load : c.p0 = 0) : warrantLoadBody c s r = loadWarrant s c.payload := by
  rw [warrantLoadBody, operatorOnly_zero hp, reservedFrom_zero h0, load]
  rfl

theorem warrantLoadBody_drops (drop : c.p0 = 1) (bare : c.payload = []) (held : ∃ x ∈ s.sec.warrants, x.serial = c.p1.toNat) :
    let t := endWarrants s fun w => w.serial = c.p1.toNat
    warrantLoadBody c s r = (t, okay t.sec.warrants.length) := by
  obtain ⟨x, mem, serial⟩ := held
  have found : s.sec.warrants.any (fun w => w.serial = c.p1.toNat) = true := List.any_eq_true.mpr ⟨x, mem, decide_eq_true serial⟩
  rw [warrantLoadBody, operatorOnly_zero hp, reservedFrom_zero h0, drop, bare, found]
  rfl

theorem warrantReadBody_answers (addr : hostAddrOk c c.p0.toNat = true) (long : 112 ≤ c.p1.toNat) :
    let l := s.sec.warrants
    warrantReadBody c s r = (s, output s.sec.nonce c.p0.toNat
      (leBytes 8 s.sec.nonce ++ leBytes 1 l.length ++ leBytes 7 0 ++ l.flatMap Warrant.bytes)) :=
  (operatorOnly_zero hp).trans ((reservedFrom_zero h0).trans ((if_neg (by simp [addr])).trans (if_neg (Nat.not_lt.mpr long))))

end

theorem attestQuoteBody_quotes (h0 : zeroFrom c 3) (addr : hostAddrOk c c.p0.toNat = true) (long : 448 ≤ c.p1.toNat)
    (mask : c.p2.toNat < 128) (first : bit c.p2.toNat 0 = false) :
    let b := quoteBody s (partOf c) c.p2.toNat c.payload
    attestQuoteBody c s r = (s, output 448 c.p0.toNat
      (b ++ beBytes 96 (if lcState s = 6 then 0 else Config.signature (Config.aliasKey (measureOf s 2)) b))) := by
  have legal : ¬ (c.p2.toNat ≥ 128 ∨ bit c.p2.toNat 0 = true) := by
    rintro (high | bit0)
    · omega
    · exact absurd bit0 (ne_true_of_eq_false first)
  exact (reservedFrom_zero h0).trans ((if_neg (by simp [addr])).trans ((if_neg (Nat.not_lt.mpr long)).trans (if_neg legal)))

end

/-! ### The commands as they end -/

/-- LC_ADVANCE ends with the first check that fails, or with the transition (R571-R574). -/
theorem lcAdvance_ends {s : State} {c : Packet} (ha : Accepts s 0x0801 c) (hp : partOf c = 0) (h0 : zeroFrom c 0)
    (formed : lcFormed c.payload = true) :
    let z := begun s 0x0801 c
    let b := c.payload
    let no := fun (st : Status) (d : Nat) => Ends (.lcAdvance c) s 0x0801 c (rtpRefuse z 0xA1 st d).1 (.done st d none none)
    (rd b 8 32 ≠ s.fuse.unitId → no .wrongUnit 0) ∧
    (rd b 8 32 = s.fuse.unitId →
      (rd b 40 8 ≠ s.sec.nonce → no .warrantExpired 0) ∧
      (rd b 40 8 = s.sec.nonce →
        (lcAllowed z (rd b 7 1) (rd b 6 1) = false → no .lcOrder (sealCount z)) ∧
        (lcAllowed z (rd b 7 1) (rd b 6 1) = true →
          (requestSigned z b (rd b 6 1) 96 = false → no .sigInvalid 0) ∧
          (requestSigned z b (rd b 6 1) 96 = true →
            Ends (.lcAdvance c) s 0x0801 c (lcMake z (rd b 7 1) (beVal (sub b 48 48))) (okay (rd b 7 1)))))) := by
  intro z b no
  have checks := lcAdvanceBody_checks (s := z) (r := replyTo s 0x0801 c) hp h0 formed
  rw [begun_fuse, begun_sec] at checks
  refine ⟨fun foreign => packet_ends rfl ha (checks.trans (if_pos foreign)), fun unit => ?_⟩
  have checks := checks.trans (if_neg (not_not.mpr unit))
  refine ⟨fun stale => packet_ends rfl ha (checks.trans (if_pos stale)), fun nonce => ?_⟩
  have checks := checks.trans (if_neg (not_not.mpr nonce))
  refine ⟨fun order => packet_ends rfl ha (checks.trans (if_pos ((Bool.not_eq_true' _).mpr order))), fun allowed => ?_⟩
  have checks := checks.trans (if_neg (by simpa using allowed))
  exact ⟨fun unsigned => packet_ends rfl ha (checks.trans (if_pos ((Bool.not_eq_true' _).mpr unsigned))),
    fun signed => packet_ends rfl ha (checks.trans (if_neg (by simpa using signed)))⟩

/-- Settles O55: each command by its work, the end of warrants and an access by their rows. -/
theorem lifeCycleWarrantsAndQuotes : Obligations.LifeCycleWarrantsAndQuotes := by
  refine ⟨fun s c => lcAdvance_ends, fun s c ha hp h0 => ⟨fun load len formed unit nonce unexpired allowed signed room => packet_ends rfl ha ?_,
      fun drop bare held => packet_ends rfl ha ?_⟩,
    fun s c addr => ⟨fun ha hp h0 long => packet_ends rfl ha ?_, fun ha h0 long mask first => packet_ends rfl ha ?_⟩,
    fun s hl => ⟨gives_act (exec_warrantExpiry ..) hl rfl,
      fun path => ⟨fun h => gives_act (exec_debugAccess ..) hl (if_pos h),
        fun h => gives_act (exec_debugAccess ..) hl (if_neg (ne_true_of_eq_false h))⟩⟩⟩
  · refine (warrantLoadBody_loads hp h0 load).trans ((loadWarrant_takes len formed (by rwa [begun_fuse]) (by rwa [begun_sec])
      (by rwa [now_begun]) allowed signed (by rwa [begun_sec])).trans ?_)
    rw [begun_sec]
  · exact warrantLoadBody_drops hp h0 drop bare (by rwa [begun_sec])
  · exact (warrantReadBody_answers hp h0 addr long).trans (by rw [begun_sec])
  · exact (attestQuoteBody_quotes h0 addr long mask first).trans (by rw [lcState_begun])

end Sys2Proof.Machine
end

section
/-! PROOFS. The firmware banks in the field (O56): delivery, erasing and activation. -/

namespace Sys2Proof.Machine

open Sys2Proof.Safety

/-! ### What the start of a packet leaves of the banks -/

@[simp] theorem bankOf_begun (s : State) (op : Nat) (c : Packet) (b : Nat) : bankOf (begun s op c) b = bankOf s b := by
  rw [bankOf, begun_fw, bankOf]

@[simp] theorem inactiveBank_begun (s : State) (op : Nat) (c : Packet) : inactiveBank (begun s op c) = inactiveBank s := by
  rw [begun_rest]
  rfl

@[simp] theorem mayProgram_begun (s : State) (op : Nat) (c : Packet) (b : Nat) : mayProgram (begun s op c) b = mayProgram s b := by
  rw [begun_rest]
  rfl

/-! ### Delivery (R591, R595-R597) -/

theorem erasingRefusal_none {s : State} {k : FlashBank} (idle : k.erasing = false) (whole : k.cutShort = false) :
    erasingRefusal s k = none := by
  simp [erasingRefusal, idle, whole]

section
variable {c : Packet} {s : State} {r : ReplyTo}

/-- A formed chunk of the image being delivered goes to the inactive bank. -/
theorem fwChunkBody_delivers {b : Nat} (hp : partOf c = 0) (inactive : inactiveBank s = b) (mode : c.p3.toNat ≤ 1) (reserved : c.p5 = 0)
    (idle : (bankOf s b).erasing = false) (whole : (bankOf s b).cutShort = false) (may : mayProgram s b = true) (fits : c.p2.toNat ≤ 7152)
    (inside : c.p0.toNat < c.p2.toNat) (named : c.p1 ≠ 0)
    (same : (bankOf s b).imageId = 0 ∨ c.p1.toNat = (bankOf s b).imageId ∧ c.p2.toNat = (bankOf s b).chunks)
    (crc : c.p4.toNat = crc32 c.payload) : fwChunkBody c s r = deliver s b c := by
  have image : ¬ (c.p1 = 0#64 ∨ (bankOf s b).imageId ≠ 0 ∧ c.p1.toNat ≠ (bankOf s b).imageId) := by tauto
  have chunks : ¬ (c.p2.toNat > 7152 ∨ (bankOf s b).imageId ≠ 0 ∧ c.p2.toNat ≠ (bankOf s b).chunks) := by
    have short := Nat.not_lt.mpr fits
    tauto
  subst inactive
  rw [fwChunkBody, operatorOnly_zero hp, if_neg (Nat.not_lt.mpr mode),
    if_neg (show ¬ c.p5 ≠ 0#64 from not_not.mpr reserved)]
  simp only [erasingRefusal_none idle whole]
  exact (if_neg (by simp [may])).trans ((if_neg (by omega)).trans ((if_neg image).trans ((if_neg chunks).trans (if_neg (not_not.mpr crc)))))

/-- A chunk is programmed, or its read-back check fails. -/
theorem programs_or_fails (sound : Bool) (a : State) (b n : Nat) (k : FlashBank) :
    (if sound = true then (setBank a b k, okay 0) else failProgram a b n) =
      (if sound = true then setBank a b k else (failProgram a b n).1,
        if sound = true then okay 0 else .done .aborted 0 none none) := by
  split <;> rfl

variable {b : Nat}

theorem deliver_again (held : (bankOf s b).held.contains c.p0.toNat = true) : deliver s b c = (s, okay 1) := if_pos held

section
variable (new : (bankOf s b).held.contains c.p0.toNat = false)
include new

theorem deliver_blank (blank : ((bankOf s b).at_ c.p0.toNat).all (· = 0xFF#8) = true) :
    deliver s b c =
      (if readsBack s.fresh = true then
         setBank (takeFresh s) b ((bankOf s b).program c.p0.toNat c.p1.toNat c.p2.toNat c.payload)
       else (failProgram (takeFresh s) b c.p0.toNat).1,
       if readsBack s.fresh = true then okay 0 else .done .aborted 0 none none) :=
  (if_neg (ne_true_of_eq_false new)).trans ((if_pos blank).trans (programs_or_fails ..))

variable (used : ((bankOf s b).at_ c.p0.toNat).all (· = 0xFF#8) = false)
include used

/-- With REPAIR the place is erased and journalled first. -/
theorem deliver_repairs (repair : c.p3 = 1) :
    let erased := { takeFresh s with fw := s.fw.erase (bankBase b + c.p0.toNat * 4096) 4096 (readsBack s.fresh) }
    deliver s b c =
      (if readsBack s.fresh = true then setBank erased b ((bankOf s b).program c.p0.toNat c.p1.toNat c.p2.toNat c.payload)
       else (failProgram erased b c.p0.toNat).1,
       if readsBack s.fresh = true then okay 0 else .done .aborted 0 none none) :=
  (if_neg (ne_true_of_eq_false new)).trans
    ((if_neg (ne_true_of_eq_false used)).trans ((if_pos repair).trans (programs_or_fails ..)))

theorem deliver_refuses (plain : c.p3 = 0) :
    deliver s b c =
      (record s { cls := 0xB4, kind := 9 }, .done .notBlank (bankBase b + c.p0.toNat * 4096) none none) := by
  have once : ¬ c.p3 = 1#64 := by
    rw [plain]
    decide
  exact (if_neg (ne_true_of_eq_false new)).trans ((if_neg (ne_true_of_eq_false used)).trans (if_neg once))

end

/-! ### Status, discard, activation (R600, R601, R603, R604) -/

section
variable (hp : partOf c = 0)
include hp

theorem fwStatusBody_answers (h0 : zeroFrom c 2) (addr : hostAddrOk c c.p0.toNat = true) (long : 928 ≤ c.p1.toNat) :
    fwStatusBody c s r = (s, output 928 c.p0.toNat (fwStatusBytes s)) :=
  (operatorOnly_zero hp).trans ((reservedFrom_zero h0).trans ((if_neg (by simp [addr])).trans (if_neg (Nat.not_lt.mpr long))))

theorem fwDiscardBody_erases (h0 : zeroFrom c 0) (inactive : inactiveBank s = b) (may : mayProgram s b = true)
    (idle : (bankOf s b).erasing = false) :
    let f := s.fw.erase (bankBase b) 0x1C0_0000 false
    fwDiscardBody c s r = (setBank { s with fw := f } b { FlashBank.reset with sealOk := false, erasing := true },
      okay ((f.journalSeq + 2 ^ 32 - 1) % 2 ^ 32)) := by
  subst inactive
  exact (operatorOnly_zero hp).trans ((reservedFrom_zero h0).trans ((if_neg (by simp [may])).trans (if_neg (ne_true_of_eq_false idle))))

theorem fwActivateBody_activates {env : BootEnv} (h0 : zeroFrom c 1) (inactive : inactiveBank s = b) (idle : (bankOf s b).erasing = false)
    (whole : (bankOf s b).cutShort = false) (named : c.p0 ≠ 0) (image : c.p0.toNat = (bankOf s b).imageId)
    (complete : (bankOf s b).missing = 0) (floor : s.set.protoFloor ≤ (bankOf s b).protoMax) (free : activationBusy s = false) :
    fwActivateBody c env s r = (activate s b r env, .later) := by
  have held : ¬ (c.p0 = 0#64 ∨ c.p0.toNat ≠ (bankOf s b).imageId) := by tauto
  subst inactive
  rw [fwActivateBody, operatorOnly_zero hp, reservedFrom_zero h0]
  simp only [erasingRefusal_none idle whole]
  exact (if_neg held).trans ((if_neg (not_not.mpr complete)).trans
    ((if_neg (Nat.not_lt.mpr floor)).trans (if_neg (ne_true_of_eq_false free))))

end

end

/-! ### The end of a bank erase (R591, R593, R594) -/

/-- What the end of an erase makes of a bank. -/
def FlashBank.eraseEnded (k : FlashBank) (sound : Bool) : FlashBank :=
  if k.erasing = false then k
  else if sound = true then { FlashBank.reset with sealOk := true }
  else { k with erasing := false, cutShort := true }

/-- The end of one bank's erase: DONE in its journal entries, or class 0xB7. -/
def eraseEnds (sound : Bool) (a : State) (b : Nat) : State :=
  let k := bankOf a b
  if k.erasing && !sound then record (setBank a b { k with erasing := false, cutShort := true }) { cls := 0xB7, kind := 9 }
  else if k.erasing then
    let mark := fun (e : Journal) => if e.off = bankBase b then { e with done := true } else e
    setBank { a with fw := { a.fw with journal := a.fw.journal.map mark } } b { FlashBank.reset with sealOk := true }
  else a

theorem bankEraseComplete_ends {s : State} (hl : live s = true) :
    Gives .bankEraseComplete s (eraseEnds (readsBack s.fresh) (eraseEnds (readsBack s.fresh) (takeFresh (fresh s)) 0) 1) :=
  gives_act (exec_bankEraseComplete ..) hl rfl

@[simp] theorem bankOf_record (s : State) (r : Rec) (b : Nat) : bankOf (record s r) b = bankOf s b := by
  rw [bankOf, (record_noted s r).fw, bankOf]

section
variable (sound : Bool) (a : State)

theorem eraseEnds_bank_same (b : Nat) : bankOf (eraseEnds sound a b) b = (bankOf a b).eraseEnded sound := by
  unfold eraseEnds FlashBank.eraseEnded
  cases erasing : (bankOf a b).erasing <;> cases sound <;> simp [erasing]

theorem eraseEnds_bank_other {b k : Nat} (h : b ≠ k) : bankOf (eraseEnds sound a b) k = bankOf a k := by
  unfold eraseEnds
  dsimp only
  split
  · rw [bankOf_record, setBank_bankOf_other _ _ h]
  · split
    · exact setBank_bankOf_other _ _ h
    · rfl

theorem eraseEnds_rest (b : Nat) :
    (eraseEnds sound a b).mem = a.mem ∧ (eraseEnds sound a b).set = a.set ∧ (eraseEnds sound a b).boot = a.boot := by
  unfold eraseEnds
  dsimp only
  split
  · have noted := record_noted (setBank a b { bankOf a b with erasing := false, cutShort := true }) { cls := 0xB7, kind := 9 }
    exact ⟨noted.mem, noted.set, record_boot rfl⟩
  · split <;> exact ⟨rfl, rfl, rfl⟩

end

theorem bankEraseComplete_leaves {s : State} (hl : live s = true) :
    ∃ t, Gives .bankEraseComplete s t ∧ t.mem = s.mem ∧ t.set = s.set ∧ t.boot = s.boot ∧
      ∀ b < 2, bankOf t b = (bankOf s b).eraseEnded (readsBack s.fresh) := by
  obtain ⟨mem0, set0, boot0⟩ := eraseEnds_rest (readsBack s.fresh) (takeFresh (fresh s)) 0
  obtain ⟨mem1, set1, boot1⟩ := eraseEnds_rest (readsBack s.fresh) (eraseEnds (readsBack s.fresh) (takeFresh (fresh s)) 0) 1
  refine ⟨_, bankEraseComplete_ends hl, mem1.trans mem0, set1.trans set0, boot1.trans boot0, fun b low => ?_⟩
  match b, low with
  | 0, _ =>
    rw [eraseEnds_bank_other _ _ (by decide), eraseEnds_bank_same]
    rfl
  | 1, _ =>
    rw [eraseEnds_bank_same, eraseEnds_bank_other _ _ (by decide)]
    rfl

/-! ### The cores' reports (R601) -/

section
variable {s : State} {a : Activation} (hl : live s = true) (active : s.fw.activation = some a) (running : s.fw.halted = false)
  (flushed : a.flushing = false)
include hl active running flushed

theorem kyoharReportsRunning_ends : Gives .kyoharReportsRunning s
    (if a.oldRestart = true then endPause (record (renewCores (fresh s)) { cls := 0xB6, kind := 9 }) a.reply .aborted 0
     else endPause (record (runBank (writeBootRecord (renewCores (fresh s)) (inactiveBank s)) (inactiveBank s)) { cls := 0xB5, kind := 9 })
       a.reply .ok a.version) := by
  have waits : ¬ ((fresh s).fw.halted = true ∨ a.flushing = true) := by
    rw [show (fresh s).fw.halted = false from running, flushed]
    decide
  refine gives_act (exec_kyoharReportsRunning ..) hl ?_
  simp only [show (fresh s).fw.activation = some a from active, if_neg waits]
  rfl

theorem kyoharReportTimeout_restarts : Gives .kyoharReportTimeout s
    (if a.oldRestart = true then record { fresh s with fw := { s.fw with halted := true } } { cls := 0xB8, kind := 9 }
     else emit { renewCores (fresh s) with fw := { (renewCores (fresh s)).fw with activation := some { a with oldRestart := true } } }
       (.coresRestart false)) := by
  have waits : ¬ ((fresh s).fw.halted = true ∨ a.flushing = true) := by
    rw [show (fresh s).fw.halted = false from running, flushed]
    decide
  refine gives_act (exec_kyoharReportTimeout ..) hl ?_
  simp only [show (fresh s).fw.activation = some a from active, active, if_neg waits]
  rfl

end

/-- A chunk ends as its place in the bank says (R591, R596, R597). -/
theorem fwChunk_ends {s : State} {c : Packet} {b : Nat} (body : ∀ r, fwChunkBody c (begun s 0x0901 c) r = deliver (begun s 0x0901 c) b c)
    (ha : Accepts s 0x0901 c) :
    let z := begun s 0x0901 c
    let k := bankOf s b
    let n := c.p0.toNat
    let sound := readsBack s.fresh
    let erased := { takeFresh z with fw := s.fw.erase (bankBase b + n * 4096) 4096 sound }
    let programs := fun (t : State) =>
      Ends (.fwChunk c) s 0x0901 c
        (if sound = true then setBank t b (k.program n c.p1.toNat c.p2.toNat c.payload) else (failProgram t b n).1)
        (if sound = true then okay 0 else .done .aborted 0 none none)
    (k.held.contains n = true → Ends (.fwChunk c) s 0x0901 c z (okay 1)) ∧
    (k.held.contains n = false →
      ((k.at_ n).all (· = 0xFF#8) = true → programs (takeFresh z)) ∧
      ((k.at_ n).all (· = 0xFF#8) = false → c.p3 = 1 → programs erased) ∧
      ((k.at_ n).all (· = 0xFF#8) = false → c.p3 = 0 →
        Ends (.fwChunk c) s 0x0901 c (record z { cls := 0xB4, kind := 9 }) (.done .notBlank (bankBase b + n * 4096) none none))) := by
  intro z k n sound erased programs
  refine ⟨fun held => packet_ends rfl ha ((body _).trans (deliver_again (by rwa [bankOf_begun]))), fun new => ⟨fun blank => ?_,
    fun used repair => ?_, fun used plain =>
      packet_ends rfl ha ((body _).trans (deliver_refuses (by rwa [bankOf_begun]) (by rwa [bankOf_begun]) plain))⟩⟩
  · have done := deliver_blank (s := z) (c := c) (b := b) (by rwa [bankOf_begun]) (by rwa [bankOf_begun])
    rw [bankOf_begun, begun_fresh] at done
    exact packet_ends rfl ha ((body _).trans done)
  · have done := deliver_repairs (s := z) (c := c) (b := b) (by rwa [bankOf_begun]) (by rwa [bankOf_begun]) repair
    rw [bankOf_begun, begun_fresh, begun_fw] at done
    exact packet_ends rfl ha ((body _).trans done)

/-- Settles O56: the commands by their works, the end of an erase bank by bank, the cores' reports by whether the old section runs. -/
theorem firmwareDeliveryAndActivation : Obligations.FirmwareDeliveryAndActivation := by
  refine ⟨fun s c hp => ⟨fun ha mode reserved idle whole may fits inside named same crc => fwChunk_ends (fun r => ?_) ha,
      fun ha h0 addr long => packet_ends rfl ha (fwStatusBody_answers hp h0 addr long), fun ha h0 may idle => packet_ends rfl ha ?_,
      fun env ha h0 idle whole named image complete floor free => packet_ends rfl ha ?_⟩,
    fun s hl => ⟨bankEraseComplete_leaves hl, fun a active running flushed => ⟨fun new => ⟨?_, ?_⟩, fun old => ⟨?_, ?_⟩⟩⟩⟩
  · exact fwChunkBody_delivers hp (inactiveBank_begun ..) mode reserved (by rwa [bankOf_begun]) (by rwa [bankOf_begun])
      (by rwa [mayProgram_begun]) fits inside named (by rwa [bankOf_begun]) crc
  · refine (fwDiscardBody_erases hp h0 (inactiveBank_begun ..) (by rwa [mayProgram_begun]) (by rwa [bankOf_begun])).trans ?_
    rw [begun_fw]
  · exact fwActivateBody_activates hp h0 (inactiveBank_begun ..) (by rwa [bankOf_begun]) (by rwa [bankOf_begun]) named
      (by rwa [bankOf_begun]) (by rwa [bankOf_begun]) (by rwa [bankOf_begun, begun_set]) free
  · simpa only [new, Bool.false_eq_true, if_false] using kyoharReportsRunning_ends hl active running flushed
  · simpa only [new, Bool.false_eq_true, if_false] using kyoharReportTimeout_restarts hl active running flushed
  · simpa only [old, if_true] using kyoharReportsRunning_ends hl active running flushed
  · simpa only [old, if_true] using kyoharReportTimeout_restarts hl active running flushed

end Sys2Proof.Machine
end

section
/-! PROOFS. Command sources (O57): RING_ENABLE where a final reply is still held back. -/

namespace Sys2Proof.Machine

open Sys2Proof.Safety

/-- A hub that answers, with PD28 on, whose PF has a ring that is not in use, has no command started, and holds back one final reply. -/
def holdingBack : State :=
  { State.reset with
    pins := { Pins.reset with pwrok := true, warmLow := false, thermtrip := false }
    power := { Power.reset with on := [28, 29] }
    cmd := { State.reset.cmd with chan := [(0, { Chan.reset with held := [(List.replicate 32 0#8, false)] })] } }

/-- The CMD_CTL word of rings of 2^6 and 2^7 entries. -/
def smallRings : Nat := 6 * 2 + 7 * 2 ^ 6

/-- The state that RING_ENABLE with these sizes makes of the hub that holds a reply back. -/
def heldEnabled : State := writeCtl (fresh holdingBack) 0 (setBit smallRings 0 true)

theorem ringEnable_holdingBack : Gives (.ringEnable 0 smallRings) holdingBack heldEnabled :=
  gives_atFunction (exec_ringEnable ..) ⟨rfl, rfl⟩ rfl rfl

/-- The ring that was enabled has room, so the reply held back is posted at once (R444). -/
theorem held_heldEnabled : (chan heldEnabled 0).held = [] := by decide

/-- Refutes O57: a ring that RING_ENABLE enables while a final reply is held back posts it at once, and keeps nothing held, where the
statement, which asks for `started` to be empty alone, leaves `held` as it was. -/
theorem not_commandsReachTheHub : ¬ Obligations.CommandsReachTheHub := by
  unfold Obligations.CommandsReachTheHub
  intro h
  obtain ⟨_, _, _, _, enables, _⟩ := h.1 holdingBack 0 smallRings ⟨rfl, rfl⟩ rfl
  obtain ⟨t, given, _, enabled⟩ := (enables rfl rfl).1 (by decide)
  cases ringEnable_holdingBack.symm.trans given
  have posted := held_heldEnabled.symm.trans (congrArg Chan.held enabled)
  exact absurd posted (by decide)

end Sys2Proof.Machine
end

section
/-! PROOFS. Staged sets (O45): what each command makes of the set it names, the partition's record, and the ways that POSTED sets take. -/

namespace Sys2Proof.Machine

open Sys2Proof.Safety

/-! ### The commands of a set (R460-R467, R585) -/

/-- Sources 0 and 1 have four sets each (R460). -/
theorem stageFor_named {c : Packet} {s : State} {k : Nat → State × Ending} (src : c.source.val ≤ 1) (set : c.p0.toNat < 4) :
    stageFor c k s = k (c.source.val * 4 + c.p0.toNat) :=
  (if_neg (Nat.not_lt.mpr src)).trans (if_neg (Nat.not_le.mpr set))

/-- Items that fit a set that is not POSTED are merged into it (R461). -/
theorem stageItems_merges {s : State} {n : Nat} {l : List Item} (unposted : (setOf s n).state ≠ .posted)
    (few : (l.foldl mergeItem (setOf s n).items).length ≤ 4096)
    (small : sumOf ((l.foldl mergeItem (setOf s n).items).map fun x => x.value.length) ≤ 65536) :
    stageItems s n l =
      (setSet s n { setOf s n with items := l.foldl mergeItem (setOf s n).items, state := .opened }, okay l.length) :=
  (if_neg unposted).trans (if_neg (not_or.mpr ⟨Nat.not_lt.mpr few, Nat.not_lt.mpr small⟩))

/-- A set that holds items and is not POSTED. -/
def SetState.Open (x : SetState) : Prop := x = .opened ∨ x = .checked

theorem SetState.Open.ne_empty {x : SetState} (h : x.Open) : x ≠ .empty := by rcases h with rfl | rfl <;> decide
theorem SetState.Open.ne_posted {x : SetState} (h : x.Open) : x ≠ .posted := by rcases h with rfl | rfl <;> decide

@[simp] theorem committedFor_begun (s : State) (op : Nat) (c : Packet) (t : Nat) :
    committedFor (begun s op c) t = committedFor s t := by
  simp only [committedFor, now_begun, begun_turn]

section
variable {s : State} {c : Packet} {r : ReplyTo} (src : c.source.val ≤ 1) (set : c.p0.toNat < 4)
include src set

/-- Items of the kinds that the command takes are staged (R461, R585). -/
theorem stageBody_stages {ok : Nat → Bool} {l : List Item} (h0 : zeroFrom c 1)
    (parsed : parseItems (c.payload.length / 16 + 1) c.payload = some l) (kinds : ∀ x ∈ l, ok x.item = true) :
    stageBody ok c s r = stageItems s (c.source.val * 4 + c.p0.toNat) l := by
  rw [stageBody, reservedFrom_zero h0, stageFor_named src set, parsed]
  exact if_pos (List.all_eq_true.mpr kinds)

theorem partSealBody_stages (h0 : zeroFrom c 3) (part : c.p1.toNat < 16) (value : c.p2.toNat ≤ 1) :
    partSealBody c s r = stageItems s (c.source.val * 4 + c.p0.toNat)
      [{ item := 0x0505, index := c.p1.toNat, value := leBytes 8 c.p2.toNat }] := by
  rw [partSealBody, reservedFrom_zero h0, stageFor_named src set, if_neg (Nat.not_le.mpr part), if_neg (Nat.not_lt.mpr value)]

section
variable (h0 : zeroFrom c 1) (held : (setOf s (c.source.val * 4 + c.p0.toNat)).state.Open)
include h0 held

/-- A set with items is CHECKED, or opened again (R462). -/
theorem stageCheckBody_checks :
    let n := c.source.val * 4 + c.p0.toNat
    let x := setOf s n
    stageCheckBody c s r =
      match checkSet s n x.items with
      | none => (setSet s n { x with state := .checked }, okay 0)
      | some d => (setSet s n { x with state := .opened }, .done .checkFailed d none none) :=
  (reservedFrom_zero h0).trans ((stageFor_named src set).trans ((if_neg held.ne_empty).trans (if_neg held.ne_posted)))

/-- A set with items that is not POSTED is discarded at once (R466). -/
theorem stageDiscardBody_open :
    stageDiscardBody c s r = (setSet s (c.source.val * 4 + c.p0.toNat) StageSet.reset, okay 0) := by
  rw [stageDiscardBody, reservedFrom_zero h0, stageFor_named src set]
  rcases held with h | h <;> simp only [h]

end

/-- A set that its check passes is accepted for its Turn (R463). -/
theorem stagePostBody_posts {t : Nat} (h0 : zeroFrom c 2) (held : (setOf s (c.source.val * 4 + c.p0.toNat)).state.Open)
    (turn : turnFor s c.p1.toNat 1 = .ok t)
    (passes : checkSet s (c.source.val * 4 + c.p0.toNat) (setOf s (c.source.val * 4 + c.p0.toNat)).items = none) :
    stagePostBody c s r = (postSet s (c.source.val * 4 + c.p0.toNat) t (some r), .interim t) := by
  refine (reservedFrom_zero h0).trans ((stageFor_named src set).trans ((if_neg held.ne_empty).trans ((if_neg held.ne_posted).trans ?_)))
  simp only [turn, passes]

/-- A POSTED set that is not deferred is discarded until its commit window begins, and its post ends ABORTED (R466). -/
theorem stageDiscardBody_posted {q : ReplyTo} (h0 : zeroFrom c 1) (posted : (setOf s (c.source.val * 4 + c.p0.toNat)).state = .posted)
    (punctual : (setOf s (c.source.val * 4 + c.p0.toNat)).deferred = false)
    (early : committedFor s (setOf s (c.source.val * 4 + c.p0.toNat)).turn = false)
    (reply : (setOf s (c.source.val * 4 + c.p0.toNat)).reply = some q) :
    stageDiscardBody c s r =
      (postFinal (markWays (setSet s (c.source.val * 4 + c.p0.toNat) StageSet.reset)) q .aborted 0 none none, okay 0) := by
  rw [stageDiscardBody, reservedFrom_zero h0, stageFor_named src set]
  simp only [posted, punctual, early, reply, Bool.or_self, Bool.false_eq_true, if_false]

theorem stageReadBody_answers (h0 : zeroFrom c 3) :
    let x := setOf s (c.source.val * 4 + c.p0.toNat)
    stageReadBody c s r =
      (s, output (x.state.code + (if x.state = .posted then x.turn * 65536 else 0)) c.p1.toNat
        ((x.items.flatMap Item.bytes).take c.p2.toNat)) :=
  (reservedFrom_zero h0).trans (stageFor_named src set)

end

/-- A partition's own record, or any by partition 0 (R563). -/
theorem partReadBody_answers {s : State} {c : Packet} {r : ReplyTo} (h0 : zeroFrom c 3) (long : 256 ≤ c.p1.toNat) (part : c.p2.toNat < 16) :
    let p := if c.p2 = 0xF#64 then partOf c else c.p2.toNat
    partOf c = 0 ∨ p = partOf c → partReadBody c s r = (s, output p c.p0.toNat (partRecord s p)) := by
  intro p named
  refine (reservedFrom_zero h0).trans ((if_neg (Nat.not_lt.mpr long)).trans ((if_neg (Nat.not_le.mpr part)).trans (if_neg ?_)))
  exact fun other => named.elim other.1 other.2

/-- Settles O45: each command by its work on the set it names, the ways by their rows. -/
theorem stagedSetsArePosted : Obligations.StagedSetsArePosted := by
  refine ⟨fun s c src set => ⟨fun l h0 parsed => ⟨?_, ?_, ?_⟩, ?_, ?_, ?_, ?_, ?_⟩, ?_, fun s hl => ⟨?_, ?_⟩⟩
  case refine_1 =>
    intro ha m unposted few small
    exact packet_ends rfl ha ((stageBody_stages (ok := fun _ => true) src set h0 parsed fun _ _ => rfl).trans (stageItems_merges unposted few small))
  case refine_2 =>
    intro ha kinds m unposted few small
    have taken : ∀ x ∈ l, decide (x.item = 0x0501) = true := fun x mem => decide_eq_true (kinds x mem)
    exact packet_ends rfl ha
      ((stageBody_stages (ok := (· = 0x0501)) src set h0 parsed taken).trans (stageItems_merges unposted few small))
  case refine_3 =>
    intro ha kinds m unposted few small
    have taken : ∀ x ∈ l, (decide (0x0502 ≤ x.item) && decide (x.item ≤ 0x0504)) = true := fun x mem => by
      simpa only [Bool.and_eq_true, decide_eq_true_eq] using kinds x mem
    exact packet_ends rfl ha
      ((stageBody_stages (ok := fun i => 0x0502 ≤ i && i ≤ 0x0504) src set h0 parsed taken).trans (stageItems_merges unposted few small))
  case refine_4 =>
    intro ha h0 part value m unposted few small
    exact packet_ends rfl ha ((partSealBody_stages src set h0 part value).trans (stageItems_merges unposted few small))
  case refine_5 =>
    intro ha h0 x held
    refine ⟨fun passes => ?_, fun d fails => ?_⟩ <;> refine packet_ends rfl ha ((stageCheckBody_checks src set h0 held).trans ?_)
    · simp only [x] at passes
      simp only [passes, x]
    · simp only [x] at fails
      simp only [fails, x]
  case refine_6 =>
    intro t ha h0 x held turn passes
    exact packet_ends rfl ha (stagePostBody_posts src set h0 held turn passes)
  case refine_7 =>
    intro ha h0 x
    refine ⟨fun held => packet_ends rfl ha (stageDiscardBody_open src set h0 held), fun r posted punctual early reply => packet_ends rfl ha ?_⟩
    exact stageDiscardBody_posted src set h0 posted punctual ((committedFor_begun ..).trans early) reply
  case refine_8 => exact fun ha h0 => packet_ends rfl ha (stageReadBody_answers src set h0)
  case refine_9 =>
    intro s c ha h0 long part p named
    exact packet_ends rfl ha (partReadBody_answers h0 long part named)
  case refine_10 => exact gives_act (exec_wayDrainComplete ..) hl rfl
  case refine_11 => exact gives_act (exec_directoryWayEmptied ..) hl rfl

end Sys2Proof.Machine
end
